-- ==== Sys2Proof/Word.lean ====
section
/-! DEFINITION. The word types of the unit (table 15.1, table 4.2) and nothing else. -/

namespace Sys2Proof

/-- One byte. -/
abbrev Byte := BitVec 8
/-- A 16-bit word (U16, FP16, BF16). -/
abbrev Word16 := BitVec 16
/-- A 32-bit word (U32, I32). -/
abbrev Word32 := BitVec 32
/-- A 64-bit word (U64, an address, a time). -/
abbrev Word64 := BitVec 64
/-- The encoding of an FP32 value (table 4.2). -/
abbrev F32 := BitVec 32
/-- The encoding of a W40 value (table 4.3). -/
abbrev W40 := BitVec 40
/-- A string of bytes, lowest address first. -/
abbrev Bytes := List Byte

end Sys2Proof
end

