-- ==== Sys2Proof/Syntax.lean ====
section
/-! DEFINITION. The commands of spec/opcode_table.json: what reaches the unit at its boundary
(table 2.1) and the events its own timers and engines bring about, one constructor per row. -/

namespace Sys2Proof

/-- Where a dictionary write comes from (R454, R492): a mesh endpoint with its request tag, or the mirror. -/
inductive Via where
  | mesh (eid tag : Byte)
  | mirror
deriving DecidableEq, Repr

/-- How a READ reaches the unit: a mesh message body (table 15.3) or a 32-bit mirror read at an offset (table 15.6). -/
inductive ReadFrom where
  | mesh (eid : Byte) (msg : Bytes)
  | mirror (offset : Nat)
deriving DecidableEq, Repr

/-- Who holds a block transfer (R456): a mesh endpoint or the mirror mailbox. -/
inductive Requester where
  | endpoint (eid : Byte)
  | mailbox
deriving DecidableEq, Repr

/-- One word of a memory of table 17.5 found in error by a read (R501): its memory and word, whether it is
beyond correction, the head slot whose frame holds it (memory 1) or, with `region`, whose block in the parameter region
holds it (memory 3), and the rows of the pass group it serves. -/
structure EccHit where
  memory : Nat
  word : Nat
  uncorrectable : Bool
  slot : Nat
  region : Bool
  rows : List Nat
deriving DecidableEq, Repr

/-- The transactions of table 17.7 that can end in an error response. -/
inductive Transaction where
  /-- manifest read -/
  | manifest
  /-- head parameter block of a slot -/
  | headParams (slot : Nat)
  /-- score parameter block at an address -/
  | scoreParams (addr : Nat)
  /-- learning parameter block at an address -/
  | learnParams (addr : Nat)
  /-- hidden vector, external score, list or bitmask read that these descriptors need -/
  | rowData (rows : List Nat)
  /-- bloom, alternative or summary write at an address -/
  | bloomWrite (addr : Nat)
  /-- dlogit, dh or operand write at an address -/
  | gradientWrite (addr : Nat)
  /-- history page or automaton line read that these descriptors need -/
  | historyRead (rows : List Nat)
  /-- history page write of a slot, at an address -/
  | historyWrite (slot addr : Nat)
  /-- read of a tenant's next context command record -/
  | commandRead (tenant : Nat)
  /-- read of the token list of a tenant's APPEND record under way -/
  | tokenList (tenant : Nat)
  /-- write-back of the last record a tenant's batch ran, at an address -/
  | commandWrite (tenant addr : Nat)
  /-- petal spill write at an address that these descriptors need -/
  | spillWrite (rows : List Nat) (addr : Nat)
  /-- petal spill read that these descriptors need -/
  | spillRead (rows : List Nat)
  /-- head swap read of a slot: a 4 KiB block by its number -/
  | swapRead (slot block : Nat)
  /-- parameter block read at the end of a slot's swap -/
  | swapParams (slot : Nat)
  /-- resume read of a slot -/
  | resumeRead (slot : Nat)
  /-- snapshot read -/
  | snapshotRead
  /-- restore chunk read -/
  | restoreRead
  /-- restored page write at an address -/
  | restoreWrite (addr : Nat)
  /-- hold area write of a chunk at an address -/
  | holdWrite (addr : Nat)
  /-- hold area read -/
  | holdRead
  /-- automaton directory or image header read at a commit -/
  | directoryRead
  /-- zero bytes of a wipe written at an address of the areas it clears -/
  | wipeWrite (addr : Nat)
deriving DecidableEq, Repr

/-- The commands. `host` operands are the bytes other agents have written to the chip memory by then, `ecc` operands the words
the command's reads find in error: none where a pass names none; `loads` the latencies of the tile loads of a pass that
scores again, in order. -/
inductive Instr where
  | powerOnReset
  | unitRstN
  | laneRstN
  | unitReset (via : Via) (value : Word32)
  | unitResetTakesEffect
  | laneReset (via : Via) (value : Word32)
  | laneResetDrainEnd
  | networkDrainTimeout
  | laneStateResetEnd (host : List Host.Cell)
  | resetRelease (ecc : List EccHit := [])
  | bringUpDone (failures : Nat)
  | unitDisable
  | powerOff
  | stepSyncEdge (time : Nat)
  | tsLoad (value : Word64)
  | wakeComplete
  | activeIdleExpiry
  | standbyIdleExpiry
  | laneRailDroop (east west : Nat)
  | laneRailRecovery (east west : Nat)
  | hsRailFault (mv : Nat)
  | aonRailFault (mv : Nat)
  | temperatureReading (point : Nat) (milli : Int)
  | stepGo (via : Via) (value : Word32)
  | stepBegin (host : List Host.Cell)
  | admission (ecc : List EccHit := [])
  | intakeEnd (group : Nat) (ecc : List EccHit := [])
  | tileExchange (group : Nat) (latency : Nat) (ecc : List EccHit)
  | brickDrain (group brick : Nat) (ecc : List EccHit)
  | residualPass (group : Nat) (ecc : List EccHit := []) (loads : List Nat := [])
  | secondPass (group : Nat) (ecc : List EccHit := []) (loads : List Nat := [])
  | passGroupBloomsAcknowledged (group : Nat)
  | stepBoundary (host : List Host.Cell) (ecc : List EccHit := [])
  | swapGo (via : Via) (slot : Nat) (value : Word32)
  | swapAbort (via : Via) (slot : Nat) (value : Word32)
  | swapDone (slot : Nat) (host : List Host.Cell)
  | install (via : Via) (value : Word32)
  | factoryRestore (via : Via) (value : Word32)
  | imageInstalled (ok : Bool)
  | contextBatchGo (via : Via) (tenant : Nat) (value : Word32) (host : List Host.Cell)
  | openCtx (tenant : Nat) (ecc : List EccHit := [])
  | fork (tenant : Nat) (ecc : List EccHit := [])
  | append (tenant : Nat) (ecc : List EccHit := [])
  | pause (tenant : Nat) (ecc : List EccHit := [])
  | resume (tenant : Nat) (ecc : List EccHit := [])
  | cancel (tenant : Nat) (ecc : List EccHit := [])
  | pauseCopyDone (slot : Nat)
  | resumeCopyDone (slot : Nat)
  | contextBatchDone (tenant : Nat)
  | contextExpired (slot : Nat)
  | networkErrorResponse (port : Nat) (what : Transaction)
  | discover (msg : Bytes)
  | caps (msg : Bytes)
  | heartbeat (msg : Bytes)
  | heartbeatTimer (idle : Bool)
  | partialSum (msg : Bytes)
  | histogram (msg : Bytes)
  | petalList (msg : Bytes)
  | bloomClaim (msg : Bytes)
  | bondUpdate (msg : Bytes)
  | statePage (msg : Bytes)
  | linkAck (msg : Bytes)
  | linkNak (msg : Bytes)
  | mortarResendTimeout (peer sequence : Nat)
  | peerSilenceTimeout (peer : Nat)
  | absenceNotice (peer : Nat)
  | absentResponse (peer : Nat)
  | fabricEnable (via : Via) (value : Word32)
  | setEndpointId (eid : Byte)
  | getEndpointId (src : Byte)
  | getMctpVersionSupport (src msgType : Byte)
  | getMessageTypeSupport (src : Byte)
  | read (source : ReadFrom)
  | write (eid : Byte) (msg : Bytes)
  | readBlock (eid : Byte) (msg : Bytes)
  | writeBlock (eid : Byte) (msg : Bytes)
  | abort (eid : Byte) (msg : Bytes)
  | blockTransferTimeout (who : Requester) (writing : Bool)
  | mailboxGo (value : Word32)
  | mirrorUpperWrite (offset : Nat) (word : Word32)
  | registerWrite (offset : Nat) (word : Word32)
  | commit (via : Via) (value : Word32) (host : List Host.Cell)
  | discardStaged (via : Via) (value : Word32)
  | store (via : Via) (value : Word32)
  | storeDone (ok : Bool)
  | restoreDefaults (via : Via) (value : Word32)
  | counterClear (via : Via) (value : Word32)
  | eventPop (via : Via) (value : Word32)
  | eventReadable
  | challengeRequest (via : Via) (value : Word32)
  | challengeExpiry
  | challengeLockoutEnd
  | transitionGo (via : Via) (value : Word32)
  | transitionVerified
  | lifecycleChanged
  | wipeDone
  | scrubRead (found : List EccHit)
  | snapshotGo (via : Via) (value : Word32)
  | holdClear (via : Via) (value : Word32)
  | holdSendGo (via : Via) (value : Word32)
  | restoreGo (via : Via) (value : Word32)
  | restoreChunkRead (host : List Host.Cell)
  | restoreChunkTimeout
  | leadConflict (west : Bool)
  | bistGo (via : Via) (value : Word32)
  | bistDone (failures : Nat)
  | tierLatencyWindow (tierA tierB : Nat)
  | snapshotChunkRead (ecc : List EccHit := [])
  | holdChunkPlaced
  | holdSendChunkRead
deriving DecidableEq, Repr

end Sys2Proof
end

