-- ==== Sys2Proof/Decode.lean ====
section
/-! DEFINITION. The command a word spells by the table's bits. No row of spec/opcode_table.json gives
bits (a command is an event at the boundary, not an encoded word), so no word spells a command. -/

namespace Sys2Proof

/-- The command that `nbits` bits spell: none, since the table gives no row any bits. -/
def decodeTableWord (_nbits _w : Nat) : Option Instr := none

end Sys2Proof
end

