-- ==== Sys2Proof/Machine/Bits.lean ====
section
/-! DEFINITION. Bytes and bit ranges (R4 to R6): little-endian fields, slices, and the chip memory
behind the network ports as (address, byte) pairs in canonical form. -/

namespace Sys2Proof.Machine

/-- The number a little-endian byte string spells (R5). -/
def leNat : Bytes → Nat
  | [] => 0
  | b :: bs => b.toNat + 256 * leNat bs

/-- `len` bytes of a number, least significant first (R5). -/
def toLe (len n : Nat) : Bytes :=
  match len with
  | 0 => []
  | k + 1 => BitVec.ofNat 8 n :: toLe k (n / 256)

/-- Bytes `off` to `off + len − 1`; bytes beyond the end read 0. -/
def slice (bs : Bytes) (off len : Nat) : Bytes :=
  let s := (bs.drop off).take len
  s ++ List.replicate (len - s.length) 0

/-- The unsigned field of `len` bytes at byte offset `off` (R6). -/
def fieldAt (bs : Bytes) (off len : Nat) : Nat := leNat ((bs.drop off).take len)

/-- Bits `hi` down to `lo` of a number (R4). -/
def bits (n hi lo : Nat) : Nat := n / 2 ^ lo % 2 ^ (hi + 1 - lo)

/-- Bit `i` of a number. -/
def bit (n i : Nat) : Bool := n / 2 ^ i % 2 == 1

/-- Replaces the bytes at `off` by `new`, keeping the length. -/
def overwrite (bs : Bytes) (off : Nat) (new : Bytes) : Bytes :=
  (bs.take off ++ new ++ bs.drop (off + new.length)).take bs.length

/-- ⌈a / b⌉. -/
def ceilDiv (a b : Nat) : Nat := (a + b - 1) / b

/-- Saturating counter of `w` bits: stops at all ones (R12). -/
def bump (w n k : Nat) : Nat := min (n + k) (2 ^ w - 1)

/-! ### Memory -/

/-- What an address no entry lists reads as (log entry 5). -/
def unlistedByte : Byte := 0

/-- Reads one byte. -/
def readCell (m : List Host.Cell) (a : Nat) : Byte :=
  match m with
  | [] => unlistedByte
  | (k, b) :: rest => if k = a then b else readCell rest a

/-- Writes one byte, keeping the canonical form: strictly rising addresses, no entry equal to `unlistedByte`. -/
def writeCell (m : List Host.Cell) (a : Nat) (b : Byte) : List Host.Cell :=
  match m with
  | [] => if b = unlistedByte then [] else [(a, b)]
  | (k, c) :: rest =>
    if a < k then (if b = unlistedByte then (k, c) :: rest else (a, b) :: (k, c) :: rest)
    else if a = k then (if b = unlistedByte then rest else (a, b) :: rest)
    else (k, c) :: writeCell rest a b

/-- Reads `len` bytes from `a` on. -/
def readMem (m : List Host.Cell) (a : Nat) (len : Nat) : Bytes :=
  (List.range len).map fun i => readCell m (a + i)

/-- Writes a byte string from `a` on, lowest address first. -/
def writeMem (m : List Host.Cell) (a : Nat) : Bytes → List Host.Cell
  | [] => m
  | b :: bs => writeMem (writeCell m a b) (a + 1) bs

/-- Writes other agents have made, in order. -/
def overlay (m : List Host.Cell) (ws : List Host.Cell) : List Host.Cell :=
  ws.foldl (fun m w => writeCell m w.1 w.2) m

/-- The entries with `base ≤ address < base + len`, rebased to 0: a copy of that part of memory. -/
def window (m : List Host.Cell) (base len : Nat) : List Host.Cell :=
  m.filterMap fun c => if base ≤ c.1 && c.1 < base + len then some (c.1 - base, c.2) else none

/-- The canonical form of a memory. -/
def Memory.wf : List Host.Cell → Bool
  | [] => true
  | [(_, b)] => b != unlistedByte
  | (k, b) :: (k', c) :: rest => b != unlistedByte && decide (k < k') && Memory.wf ((k', c) :: rest)

/-! ### Association lists keyed by a number, keys rising -/

/-- The entry of a key. -/
def lookupKey {α : Type} (m : List (Nat × α)) (k : Nat) : Option α :=
  match m with
  | [] => none
  | (j, v) :: rest => if j = k then some v else lookupKey rest k

/-- Sets the entry of a key, keys kept rising. -/
def insertKey {α : Type} (m : List (Nat × α)) (k : Nat) (v : α) : List (Nat × α) :=
  match m with
  | [] => [(k, v)]
  | (j, w) :: rest =>
    if k < j then (k, v) :: (j, w) :: rest
    else if k = j then (k, v) :: rest
    else (j, w) :: insertKey rest k v

/-- Removes the entry of a key. -/
def eraseKey {α : Type} (m : List (Nat × α)) (k : Nat) : List (Nat × α) :=
  m.filter fun e => e.1 != k

end Sys2Proof.Machine
end

