-- ==== Sys2Proof/Config.lean ====
section
/-! DEFINITION. What an implementation fixes and what the manual leaves open: constants without a
body (log entries 2 to 6), and the two device constants the manual gives. -/

namespace Sys2Proof.Config

/-- Byte `i` of the factory microprogram image (R206: delivered with Creoc, not in the manual). -/
opaque factoryByte : Nat → Byte
/-- Byte `i` of Maker Public Key (R480: mask ROM). -/
opaque makerKeyByte : Nat → Byte
/-- Chip Identity as fused (R475). -/
opaque chipFuses : Word64
/-- Byte `i` of the `n`-th draw of the management responder's random source (R484). -/
opaque randomByte : Nat → Nat → Byte
/-- exp_FP32 of the legacy microprogram (table 4.9, R206). -/
opaque legacyExp : F32 → F32
/-- ln_FP32 of the legacy microprogram (table 4.9, R206). -/
opaque legacyLn : F32 → F32
/-- The raw value of a token whose brick another member holds, as far as its sampling value does not fix it: step number,
descriptor, token (log entry 11). -/
opaque peerRaw : Word64 → Nat → Nat → F32
/-- The draft sampling value of a token whose brick another member holds (log entry 11). -/
opaque peerDraft : Word64 → Nat → Nat → F32
/-- The version entry Get MCTP Version Support reports for a message type (R57: DSP0236 gives the form, the manual no
version; log entry 17). -/
opaque mctpVersion : Byte → Word32
/-- How far a loading swap of a head slot has come at a slow cycle, in bytes (log entry 70). -/
opaque swapBytes : Nat → Nat → Word64
/-- A 32-bit value the manual leaves open, fresh for each counter value (log entry 6). -/
opaque freeWord : Nat → Word32

/-- Chip Identity is nonzero (R475). -/
def chipIdentity : Word64 := if chipFuses = 0 then 1 else chipFuses

/-- Instance (R475): the model is unit 0 of its chip (log entry 3). -/
def instanceNumber : Byte := 1

/-- Silicon Step (R475): the first production step. -/
def siliconStep : Byte := 1

end Sys2Proof.Config
end

