-- ==== Sys2Proof/Machine/State.lean ====
section
/-! DEFINITION. The unit's state as plain data, the reasons a step can stop, and the state after
power-on reset. INVENTORY.md lists each piece with the rule that names it. -/

namespace Sys2Proof.Machine

/-- Values of dictionary objects by address index × 256 + subindex; an object not listed holds its default
(tables 15.17 and the tables it names). Values are the object's bytes read as one little-endian number. -/
abbrev Store := List (Nat × Nat)

/-! ### Boundary, resets, power -/

/-- Reset kinds (table 2.3). -/
inductive ResetKind where
  | lane | unit | powerOn
deriving DecidableEq, Repr

/-- Where a reset stands (table 2.6, R528, R545). -/
inductive ResetPhase where
  /-- no reset under way -/
  | idle
  /-- a power-on or unit reset is asserted -/
  | asserted (kind : ResetKind)
  /-- released: bring-up runs, UNIT_PRESENT not yet risen -/
  | bringUp
  /-- bring-up ended without ports: a test failed (R533), or UNIT_DISABLE rose during it or a lane reset (R77) -/
  | failed
  /-- bring-up stopped at the record: SCRAPPED or no valid record (R489) -/
  | scrapped
  /-- a lane reset waits for outstanding responses -/
  | draining
  /-- a lane reset's lane-domain state reset runs -/
  | laneState
deriving DecidableEq, Repr

/-- Power states (table 3.1). -/
inductive Power where
  | off | dormant | standby | active
deriving DecidableEq, Repr

/-- Pins and the reset under way. -/
structure Boundary where
  unitPresent : Bool
  tsReq : Bool
  unitDisable : Bool
  /-- time of the last detected STEP_SYNC edge (R59) -/
  lastEdge : Option Nat
  phase : ResetPhase
  /-- a WRITE of Unit Reset was answered; the reset is to take effect (R72) -/
  unitResetDue : Bool
  /-- the power state a lane reset returns to (table 2.3) -/
  laneReturn : Power
  /-- the lane reset under way started the lane clock for its own duration (R74) -/
  laneWoke : Bool
  /-- the lane reset under way abandoned a step (R70) -/
  abandoned : Bool
deriving DecidableEq, Repr

/-- The time-stamp copy (R62, R63): `hold` is what it still owes when it stands ahead of TS_VALUE; `phase` counts the
nanoseconds of the slow cycle under way, which a reading shows while the lane clock runs at 4.0 GHz (R64). -/
structure TimeStamp where
  valid : Bool
  value : Nat
  hold : Nat
  phase : Nat
deriving DecidableEq, Repr

/-- Clocks, power and sensing (03). -/
structure Sensing where
  power : Power
  /-- the slow cycle (of `slow`) at which the wake under way ends (R91) -/
  waking : Option Nat
  railE : Nat
  railW : Nat
  /-- lane-rail readings have been taken since reset -/
  railsRead : Bool
  railHs : Nat
  railAon : Nat
  temps : List Int
  /-- the point of R103's rotation to be read next; none: none read since reset, any may begin it -/
  nextPoint : Option Nat
  /-- row of table 3.2: 0 for 4.0 GHz to 4 for stopped -/
  laneRow : Nat
  /-- the lane clock is capped at 2.0 GHz (R104) -/
  thermalCap : Bool
  /-- the next start is held (R104) -/
  thermalHold : Bool
  /-- the highest reading stands at or above Thermal Warning (R104) -/
  warned : Bool
  /-- the Head Store is powered down (R90) -/
  hsOff : Bool
  headLatency : Nat
  /-- successive tile loads above 40 lane cycles (table 3.4) -/
  slowLoads : Nat
  tierA : Nat
  tierB : Nat
deriving DecidableEq, Repr

/-! ### Events, dictionary, mirror -/

/-- An event of the queue (table 17.1); its unit address and sub-source are set when it is raised. -/
structure Event where
  code : Nat
  source : Nat
  sequence : Nat
  time : Nat
  argWide : Nat
  argA : Nat
  argB : Nat
  readable : Bool
deriving DecidableEq, Repr

/-- The event queue (R499). -/
structure EventQueue where
  events : List Event
  nextSequence : Nat
deriving DecidableEq, Repr

/-- An open block transfer (R456): bytes received so far, or the copy being read and the next offset. -/
structure Transfer where
  who : Requester
  writing : Bool
  object : Nat
  data : Bytes
  position : Nat
deriving DecidableEq, Repr

/-- The mirror's registers and buffers (tables 15.6, 15.7). -/
structure Mirror where
  stagedView : Bool
  lastResult : Nat
  requestLength : Nat
  responseLength : Nat
  mailboxState : Nat
  request : Bytes
  response : Bytes
  /-- low word held by a write at +0 of this slot offset (R460) -/
  heldLow : Option (Nat × Nat)
  /-- upper word of the value the last read at +0 of this slot offset took (R460) -/
  heldHigh : Option (Nat × Nat)
deriving DecidableEq, Repr

/-- The dictionary responder (15). -/
structure Dict where
  rw : Store
  applied : Store
  staged : Store
  counters : Store
  /-- write-only objects: Target State, Signature -/
  held : Store
  commitState : Nat
  commitTime : Nat
  storeState : Nat
  settingsSource : Nat
  /-- settings captured by a Store that is writing (R471) -/
  storing : Option (Store × Store)
  transfers : List Transfer
  endpoint : Byte
deriving DecidableEq, Repr

/-! ### Non-volatile memory and the life cycle -/

/-- A microprogram image: erased or partly written, the factory image of mask ROM, or written bytes. -/
inductive MicroImage where
  | zeros
  | factory
  | written (bytes : Bytes)
deriving DecidableEq, Repr

/-- The life-cycle record (R479); its states are those of table 16.1. -/
structure LifeRecord where
  state : Nat
  transitions : Nat
  failures : Nat
  ownerKey : Nat
  wipePending : Bool
  areas : List (Nat × Nat)
  writes : Nat
deriving DecidableEq, Repr

/-- On-chip non-volatile memory: settings (R471), record copies (R479; none: its CRC fails), image (R199). -/
structure NonVolatile where
  settings : Option (Store × Store)
  storeCount : Nat
  copyA : Option LifeRecord
  copyB : Option LifeRecord
  image : MicroImage
deriving DecidableEq, Repr

/-- What a Transition Go took when it was written (R484, R485): the challenge, if one was current, Target State,
Signature, Owner Public Key as it read, and whether check 1 of table 16.5 failed. -/
structure Verifying where
  challenge : Option Nat
  target : Nat
  signature : Nat
  owner : Nat
  busy : Bool
deriving DecidableEq, Repr

/-- The life cycle in service (16). -/
structure LifeCycle where
  record : LifeRecord
  /-- Owner Public Key written in MAKER, held until a reset (R481) -/
  ownerBuffer : Option Nat
  challenge : Option Nat
  draws : Nat
  transition : Nat
  reason : Nat
  lockout : Bool
  /-- the Transition Go under verification -/
  verifying : Option Verifying
  /-- record that a transition is writing -/
  writing : Option LifeRecord
  wiping : Bool
  /-- the wipe began with a transition since the last reset, not at bring-up (R488) -/
  ownWipe : Bool
deriving DecidableEq, Repr

/-! ### Head bank and function sequencer -/

/-- A head slot's descriptor values (table 5.5). -/
structure SlotLayout where
  source : Nat
  tier : Nat
  kind : Nat
  format : Nat
  width : Nat
  bricks : Nat
  normKind : Nat
  normBias : Nat
  normEps : Nat
  paramFormat : Nat
  paramAddr : Nat
deriving DecidableEq, Repr

/-- A head slot (R166 to R176): Slot State, its own layout, the captured layout of a loading or held swap, and its
frames in the Head Store as the image's bytes not equal to zero. -/
structure HeadSlot where
  state : Nat
  layout : SlotLayout
  next : SlotLayout
  frames : Nat
  weights : List Host.Cell
  paramCrc : Nat
  bytesDone : Nat
  /-- an uncorrectable word was found: Failed at action 4 (table 17.6) -/
  failing : Bool
deriving DecidableEq, Repr

/-- The function sequencer's images (06). -/
structure Fseq where
  /-- image in the microprogram RAM; none: every microprogram function is absent -/
  loaded : Option MicroImage
  source : Nat
  digest : Nat
  version : Nat
  installState : Nat
  rejectReason : Nat
  buffer : MicroImage
  /-- image an install or factory restore is writing -/
  installing : Option MicroImage
  /-- an uncorrectable word stands in the RAM: it reloads at action 7 (table 17.6) -/
  reload : Bool
deriving DecidableEq, Repr

/-! ### Contexts and tenants -/

/-- A context slot that is not Free (tables 13.1, 13.2): state 1 Open, 2 Pausing, 3 Paused, 4 Resuming. -/
structure Context where
  state : Nat
  cancelPending : Bool
  tenant : Nat
  seed : Nat
  automaton : Nat
  automatonState : Nat
  leaf : Nat
  opened : Nat
  expiry : Nat
  timeToLive : Nat
  lastStep : Nat
  /-- pages of its provisional buds (R402) -/
  provisional : Nat
  /-- nodes that the copy under way moves, fixed when it began (R404, R405) -/
  copying : List Nat
deriving DecidableEq, Repr

/-- A history node (R395): parent, references, a token and the automaton state after it for each position,
its page indices, and whether they lie in the pause area. -/
structure Node where
  parent : Option Nat
  refs : Nat
  tokens : List (Nat × Nat)
  pages : List Nat
  paused : Bool
deriving DecidableEq, Repr

/-- A tenant's context batch (R388 to R392); `copies` are PAUSE and RESUME records whose
copy runs: record address, slot. -/
structure Batch where
  state : Nat
  addr : Nat
  count : Nat
  done : Nat
  copies : List (Nat × Nat)
  /-- the record held under R392 -/
  held : Bool
  /-- the list read of the next record ended in an error response (R547) -/
  listError : Bool
deriving DecidableEq, Repr

/-- A tenant's budget use (table 14.5). -/
structure Budget where
  used : Nat
  period : Nat
  reserved : Nat
deriving DecidableEq, Repr

/-- Contexts, history, automaton directory, tenants (13, 14). -/
structure Contexts where
  slots : List (Nat × Context)
  nodes : List (Nat × Node)
  nextNode : Nat
  /-- pages reserved by the rows of the running step (R401) -/
  reservedPages : Nat
  batches : List (Nat × Batch)
  budgets : List (Nat × Budget)
  /-- directory entries in force: automaton number, image address -/
  directory : List (Nat × Nat)
  usable : Nat
  refuseReason : Nat
  /-- valid lines of the automaton cache: the line's address over 512, its 512 bytes (R413) -/
  cache : List (Nat × Bytes)
deriving DecidableEq, Repr

/-! ### Steps -/

/-- A row descriptor (table 14.4), its fields. -/
structure RowDesc where
  kind : Nat
  format : Nat
  external : Bool
  critic : Option Nat
  second : Option Nat
  primary : Nat
  noContext : Bool
  kl : Bool
  slot : Nat
  tenant : Nat
  alternatives : Nat
  position : Nat
  token : Nat
  chainLength : Nat
  chainIndex : Nat
  learnIndex : Nat
  weight : F32
  hidden : Nat
  hidden2 : Nat
  scoreBlock : Nat
  learnBlock : Nat
  hostTag : Nat
deriving DecidableEq, Repr

/-- A broadcast operand (R150, R151): element values and, for E4M3, the row scale. -/
structure Operand where
  values : List F32
  scale : F32
deriving DecidableEq, Repr

/-- A score parameter block (table 7.2). -/
structure ScoreParams where
  softCap : F32
  softCap2 : F32
  temperature : F32
  repetition : F32
  presence : F32
  frequency : F32
  topK : Nat
  minP : F32
  topP : F32
  biasCount : Nat
  bannedCount : Nat
  allowedCount : Nat
  useBitmask : Bool
  useAutomaton : Bool
  reservedClear : Bool
  biasAddr : Nat
  allowedAddr : Nat
  bannedAddr : Nat
  bitmaskAddr : Nat
deriving DecidableEq, Repr

/-- A learning parameter block. -/
structure LearnParams where
  bf16Dh : Bool
  e5m2 : Bool
  sampling : Bool
  emitOperand : Bool
  emitDh : Bool
  emitDlogit : Bool
  klCoef : F32
  dlogitBase : Nat
  dhBase : Nat
  operandBase : Nat
  dlogitStride : Nat
  dhStride : Nat
  operandStride : Nat
  reservedClear : Bool
deriving DecidableEq, Repr

/-- A row's lists as read (R217 to R219). -/
structure RowLists where
  bias : List (Nat × F32)
  allowed : List Nat
  banned : List Nat
deriving DecidableEq, Repr

/-- The blocks and lists a row names, read at step start and held until the step boundary (R214, R219, R364): the bitmask
in the 512-byte blocks of this unit's bricks. -/
structure RowBlocks where
  score : ScoreParams
  learn : LearnParams
  lists : RowLists
  listsValid : Bool
  bitmask : List (Nat × Bytes)
deriving DecidableEq, Repr

/-- A row of the running step: its outcome at admission (0 admitted), this member's own status, its operands. -/
structure RowRun where
  desc : RowDesc
  /-- a reserved bit of its descriptor is set (R420) -/
  reserved : Bool
  held : RowBlocks
  refusal : Nat
  status : Nat
  main : Operand
  second : Operand
  criticOp : Operand
  critic : F32
  /-- automaton state its masks use (R340, R411) -/
  automatonState : Nat
  /-- it found no room in the spill area and its petals are released (R269) -/
  full : Bool
deriving DecidableEq, Repr

/-- A brick partial (table 7.5 with R290). -/
structure Partial where
  zs : W40
  zr : W40
  hr : W40
  kd : W40
  candidates : Nat
  masked : Nat
  flushed : Nat
  dropped : Nat
  rawMasked : Nat
  rawDropped : Nat
  gap : Nat
deriving DecidableEq, Repr

/-- An entry that is a sampling candidate (`s`) or raw live (`r`), with its race key. -/
structure Entry where
  token : Nat
  s : Option F32
  r : Option F32
  key : W40
deriving DecidableEq, Repr

/-- What one slot's scores of one brick give one row. -/
structure SlotBrick where
  part : Partial
  entries : List Entry
deriving DecidableEq, Repr

/-- What one brick gives one row: the primary slot's values and the second slot's. -/
structure RowBrick where
  main : SlotBrick
  second : Option SlotBrick
deriving DecidableEq, Repr

/-- A petal (table 8.1). -/
structure Petal where
  void : Bool
  second : Bool
  bucket : Nat
  token : Nat
  score : F32
  key : W40
deriving DecidableEq, Repr

/-- A claim (table 10.11). -/
structure Claim where
  row : Nat
  void : Bool
  status : Nat
  winner : Petal
deriving DecidableEq, Repr

/-- A histogram bin (table 10.9). -/
structure Bin where
  bucket : Nat
  count : Nat
  mass : W40
deriving DecidableEq, Repr

/-- What a histogram or petal list is about. -/
structure Topic where
  row : Nat
  second : Bool
  /-- PETAL_LIST: purpose of table 10.10; HISTOGRAM: 1 when sub -/
  purpose : Nat
  bucket : Nat
  sub : Nat
deriving DecidableEq, Repr

/-- A step-bound message of a pass group, taken in. -/
inductive Taken where
  | node (src : Nat) (second down : Bool) (level index : Nat) (rows : List (Nat × Partial))
  | hist (src : Nat) (down : Bool) (topic : Topic) (level index tau : Nat) (bins : List Bin)
  | petals (src : Nat) (down : Bool) (topic : Topic) (fragment : Nat) (more : Bool) (petals : List Petal)
  | claims (src : Nat) (down : Bool) (claims : List Claim)
deriving DecidableEq, Repr

/-- A piece of mortar work of a pass group done once: a message of the group sent to a unit, or a copy compared. -/
inductive Mark where
  | node (second down : Bool) (level index : Nat)
  | hist (down : Bool) (topic : Topic) (level index : Nat)
  | petals (down : Bool) (topic : Topic)
  | claims (down : Bool) (round : Nat)
  /-- message `n` of the inbox passed on -/
  | relay (n : Nat)
  /-- message `n` of the inbox compared with the copy held -/
  | checked (n : Nat)
deriving DecidableEq, Repr

/-- A pass group's progress. -/
structure GroupRun where
  start : Nat
  count : Nat
  intake : Bool
  /-- bricks whose accumulation has ended, in the order of R155, R160 and R161 -/
  filled : Nat
  /-- tiles exchanged for the brick now accumulating -/
  tiles : Nat
  /-- bricks drained by the first of two passes over the course, which forms the row maximum (R541) -/
  firstPass : Nat
  drained : List (Nat × List RowBrick)
  criticDone : Bool
  inbox : List Taken
  /-- marks, each with the unit a message went to; this unit's address for a comparison -/
  sent : List (Nat × Mark)
  /-- residual pass run, with this member's residual claims (R346) -/
  residual : Option (List Claim)
  /-- statuses found while combining: row in the group, status -/
  faults : List (Nat × Nat)
  /-- the final claims of its rounds, kept from when they are there (R322, R327) -/
  ended : List (List Claim)
  /-- rounds and rows whose contributions had not all come when the owner of a slot was lost (R324) -/
  missed : List (Nat × Nat)
  secondPass : Bool
  written : Bool
  acknowledged : Bool
deriving DecidableEq, Repr

/-- A row's end: its status, bloom and alternatives, and the tokens it appends at action 2. -/
structure RowFinal where
  index : Nat
  status : Nat
  bloom : Bytes
  alternatives : Bytes
  appended : List Nat
  accepted : Bool
deriving DecidableEq, Repr

/-- The step header fields in use (table 14.3). -/
structure StepHead where
  rowCount : Nat
  groups : List Nat
  deadline : Nat
  number : Nat
  time : Nat
  bouquet : Nat
  alternatives : Nat
  summary : Nat
deriving DecidableEq, Repr

/-- The running step, from its begin (R419) to action 7 (R418). -/
structure StepRun where
  admitted : Bool
  manifest : Nat
  begun : Nat
  byGo : Bool
  wake : Nat
  mode : Nat
  riderFraction : Nat
  head : StepHead
  readErrors : List Transaction
  /-- the parameter region: the blocks of the slots named that were Loaded at step start (R43, R171) -/
  blocks : List (Nat × Bytes)
  rows : List RowRun
  groups : List GroupRun
  finals : List RowFinal
  estimate : Nat
  admittedTime : Nat
  record : Nat
  takeover : Bool
  split : Bool
  stepStatus : Nat
  bloomsReady : Nat
  laneCycles : Nat
  /-- when the last bloom was acknowledged, or the last contribution sent, and the lane cycles by then (table 14.10) -/
  endTime : Nat
  endCycles : Nat
  summaryDone : Bool
  spill : Nat
  /-- where rows' petals stand in the spill area: descriptor, offset, petals (log entry 79) -/
  places : List (Nat × Nat × Nat)
  /-- members lost since it began (R324, R327) -/
  lost : List Nat
  /-- members that have sent since this unit took the record unit's place, and step heartbeat intervals since (R327; log
  entry 80) -/
  heard : List Nat
  quiet : Nat
  /-- it is a rerun, whose manifest is read again (R524) -/
  rerun : Bool
deriving DecidableEq, Repr

/-- Step control (14): a start that waits, and what the next manifest may carry. -/
structure Steps where
  run : Option StepRun
  /-- Start Latched: the start's time, by Step Go, the wake time that was still to run when it was detected (R97) -/
  latched : Option (Nat × Bool × Nat)
  /-- a start held until the unit is Active (R96): its time, by Step Go, the wake time still to run -/
  held : Option (Nat × Bool × Nat)
  lastNumber : Nat
  anyNumber : Bool
  lastStatus : Nat
  spillPeak : Nat
  /-- steps ended since the last capture (R511) -/
  sinceCapture : Nat
deriving DecidableEq, Repr

/-! ### The lane row (R28, R34) -/

/-- A tile in a weight set: its slot, its frame in the slot's image, the frame's bytes not equal to zero (table 5.4), and
whether the pass that HS_RAIL_FAULT starts ran as it was read (R505). -/
structure Tile where
  slot : Nat
  frame : Nat
  weights : List Host.Cell
  bad : Bool
deriving DecidableEq, Repr

/-- A sum-column buffer in use: pass group, which of its bricks, and its accumulators by row position and lane. -/
structure SumBuffer where
  group : Nat
  brick : Nat
  sums : List (List F32)
deriving DecidableEq, Repr

/-- The lanes' two weight sets and the sum-column memory, at most two buffers (table 1.3). -/
structure Lanes where
  active : Option Tile
  shadow : Option Tile
  buffers : List SumBuffer
deriving DecidableEq, Repr

/-! ### Mortar -/

/-- A message sent and not yet acknowledged: sequence, bytes, sends so far. -/
structure Unacked where
  sequence : Nat
  bytes : Bytes
  sends : Nat
deriving DecidableEq, Repr

/-- A peer of the table (R297) with the link's state towards it (R303, R304). -/
structure Peer where
  state : Nat
  caps : Bytes
  capsTaken : Bool
  roundTrip : Option Nat
  roundTripMax : Nat
  /-- next sequence expected from it; none: the first to arrive sets it (log entry 12) -/
  rxNext : Option Nat
  rxHeld : List (Nat × Bytes)
  txNext : Nat
  unacked : List Unacked
  /-- messages behind 64 unacknowledged ones, which take their sequence when they are sent: a running step's stand before
  STATE_PAGEs (R513) -/
  waiting : List Bytes
deriving DecidableEq, Repr

/-- A reduction tree sent in a BOND_UPDATE (R319, R320). -/
structure Tree where
  version : Nat
  fromStep : Nat
  order : List Nat
deriving DecidableEq, Repr

/-- The mortar port (10). -/
structure Mortar where
  peers : List (Nat × Peer)
  refuseReason : Nat
  bondDigest : Nat
  tree : Option Tree
  /-- trees sent for steps to come, the latest last (R320) -/
  trees : List Tree
  /-- messages that fell due while the lanes were stopped, oldest first (R101) -/
  late : List Bytes
deriving DecidableEq, Repr

/-! ### Reliability -/

/-- A chunk of an image (table 10.12): kind and payload. -/
structure Chunk where
  kind : Nat
  payload : Bytes
deriving DecidableEq, Repr

/-- A snapshot being sent (R511 to R513). -/
structure SnapRun where
  partner : Nat
  epoch : Nat
  step : Nat
  full : Bool
  /-- an event of R512 forced it to be full -/
  forced : Bool
  chunks : List Chunk
  sent : Nat
  placed : List Nat
  finalDigest : Nat
  slots : List Nat
  pages : List Nat
deriving DecidableEq, Repr

/-- The snapshot engine. -/
structure Snapshot where
  state : Nat
  requested : Bool
  run : Option SnapRun
  lastEpoch : Nat
  lastStep : Nat
  lastDigest : Nat
  /-- partner of the last complete image; none: none since reset -/
  lastPartner : Option Nat
  /-- increments completed since the last full image -/
  increments : Nat
  /-- an event since the last complete image makes the next one full (R512) -/
  forceFull : Bool
  /-- the previous image failed with reason 2 (R512) -/
  refused : Bool
  dirtySlots : List Nat
  dirtyPages : List Nat
deriving DecidableEq, Repr

/-- A complete image of the hold area's chain (table 17.10). -/
structure HeldImage where
  addr : Nat
  epoch : Nat
  chunks : Nat
deriving DecidableEq, Repr

/-- An image being received (R514): chunks arrive in order; each is placed when its write is acknowledged. -/
structure HoldIn where
  epoch : Nat
  full : Bool
  /-- image address: in the free half until its last chunk says that it is an increment (log entry 15) -/
  base : Nat
  next : Nat
  count : Nat
  /-- chunk headers whose writes are not yet acknowledged -/
  writing : List Bytes
deriving DecidableEq, Repr

/-- The hold area (R514, R515). -/
structure Hold where
  source : Option Nat
  chain : List HeldImage
  upper : Bool
  receiving : Option HoldIn
  /-- image and chunk next to be sent under Hold Send Go -/
  sending : Option (Nat × Nat)
deriving DecidableEq, Repr

/-- A restore under way (R518). -/
structure RestoreRun where
  source : Nat
  epoch : Nat
  image : Nat
  next : Nat
  digests : Bytes
  prevEpoch : Nat
  reread : Bool
deriving DecidableEq, Repr

/-- Restore (R516 to R520). -/
structure Restore where
  state : Nat
  reason : Nat
  chunksDone : Nat
  quiesced : Nat
  run : Option RestoreRun
  /-- a Restore Go waits for action 7 -/
  requested : Bool
  maxEpoch : Option Nat
deriving DecidableEq, Repr

/-- Scrub, correction windows, leadership, tests (17, 18). -/
structure Upkeep where
  memory : Nat
  line : Nat
  /-- last window of the time stamp in which ECC_CORRECTED was raised, by memory -/
  corrected : List (Nat × Nat)
  /-- lines left of the Head Store pass that HS_RAIL_FAULT started (R505) -/
  hsPass : Option Nat
  westFenced : Bool
  bistState : Nat
  bistFailures : Nat
  bistTime : Nat
  /-- tests that run, or wait for action 7 -/
  bistRun : Option Nat
  bistWaiting : Bool
  /-- test 10 of the run waits for this slow cycle (of `slow`) and for running swaps, then empties every slot (R535) -/
  marchDue : Option Nat
  /-- Heirloom Available fell while Run Mode was 2 (R539) -/
  heirloomFell : Bool
  modeReason : Nat
deriving DecidableEq, Repr

/-! ### The state -/

/-- What the unit has put on its outputs (table 2.1): mesh packets by endpoint, mirror read data, mortar messages. -/
structure Outputs where
  mesh : List (Byte × Bytes)
  mirror : Word32
  fabric : List Bytes
deriving DecidableEq, Repr

/-- The unit. `pending`, `slow` and `fresh` are the model's own. -/
structure State where
  boundary : Boundary
  ts : TimeStamp
  sensing : Sensing
  events : EventQueue
  dict : Dict
  mirror : Mirror
  nvm : NonVolatile
  life : LifeCycle
  heads : List HeadSlot
  lanes : Lanes
  fseq : Fseq
  contexts : Contexts
  steps : Steps
  mortar : Mortar
  snapshot : Snapshot
  hold : Hold
  restore : Restore
  upkeep : Upkeep
  /-- chip memory behind the network ports (R47) -/
  mem : List Host.Cell
  out : Outputs
  /-- commands that wait, first in first out -/
  pending : List Instr
  /-- slow cycles passed on an empty queue (log entry 1) -/
  slow : Nat
  /-- counter the free values are applied to (log entry 6) -/
  fresh : Nat
deriving DecidableEq, Repr

/-- Why a command cannot be run: it names an event of the unit that the manual's conditions rule out in this
state (log entry 7). Raised by the event rows of the family; safe: no next state is claimed. -/
inductive Fault where
  /-- a reset or bring-up event with no such reset under way (R528, R545); safe -/
  | resetNotDue
  /-- a power, clock or sensor event whose condition does not hold (03); safe -/
  | sensingNotDue
  /-- a step event out of its order (R36, R155, R431); safe -/
  | stepNotDue
  /-- an end of a swap that is not loading (R173); safe -/
  | swapNotDue
  /-- an end of an image write that is not running (R202); safe -/
  | imageNotDue
  /-- a context command, copy end or expiry that is not due (R390, R404 to R406); safe -/
  | contextNotDue
  /-- a mortar row whose message is of another type, or a timer with nothing to time (R302, R304); safe -/
  | mortarNotDue
  /-- an end of a Store, transfer or event delay with none under way (R471, R456, R499); safe -/
  | dictNotDue
  /-- a life-cycle event with no such work under way (R484 to R488); safe -/
  | lifeNotDue
  /-- an end of tests that do not run (R535); safe -/
  | testNotDue
deriving DecidableEq, Repr

/-- Why a command has no meaning. -/
inductive Refusal where
  /-- not modelled yet: raised by a refused arm of `exec`; safe -/
  | notModelled (mnemonic : String)
deriving DecidableEq, Repr

/-! ### Reset values -/

/-- An empty layout: the defaults of table 5.5. -/
def SlotLayout.empty : SlotLayout :=
  { source := 0, tier := 1, kind := 1, format := 1, width := 4096, bricks := 0, normKind := 1, normBias := 0,
    normEps := 0x35800000, paramFormat := 1, paramAddr := 0 }

/-- An Empty head slot. -/
def HeadSlot.empty : HeadSlot :=
  { state := 0, layout := .empty, next := .empty, frames := 0, weights := [], paramCrc := 0, bytesDone := 0,
    failing := false }

/-- The record a fresh unit of the model holds: FIELD, so that a unit can be put to work (log entry 2). -/
def LifeRecord.initial : LifeRecord :=
  { state := 4, transitions := 0, failures := 0, ownerKey := 0, wipePending := false, areas := [], writes := 0 }

/-- Nothing in non-volatile memory but the record and the factory image (log entry 2). -/
def NonVolatile.initial : NonVolatile :=
  { settings := none, storeCount := 0, copyA := some .initial, copyB := none, image := .factory }

/-- A dictionary at its defaults (R11). -/
def Dict.initial : Dict :=
  { rw := [], applied := [], staged := [], counters := [], held := [], commitState := 0, commitTime := 0,
    storeState := 0, settingsSource := 0, storing := none, transfers := [], endpoint := 0 }

/-- The mirror after reset (table 15.7); its buffers read 0 (the model's choice, log entry 91). -/
def Mirror.initial : Mirror :=
  { stagedView := false, lastResult := 0, requestLength := 0, responseLength := 0, mailboxState := 0,
    request := [], response := [], heldLow := none, heldHigh := none }

/-- The life cycle before the record is loaded reads the record the unit holds. -/
def LifeCycle.initial (r : LifeRecord) : LifeCycle :=
  { record := r, ownerBuffer := none, challenge := none, draws := 0, transition := 0, reason := 0, lockout := false,
    verifying := none, writing := none, wiping := false, ownWipe := false }

/-- No image loaded yet (R201). -/
def Fseq.initial : Fseq :=
  { loaded := none, source := 0, digest := 0, version := 0, installState := 0, rejectReason := 0, buffer := .zeros,
    installing := none, reload := false }

/-- Every slot Free (table 2.4). -/
def Contexts.initial : Contexts :=
  { slots := [], nodes := [], nextNode := 0, reservedPages := 0, batches := [], budgets := [], directory := [],
    usable := 0, refuseReason := 0, cache := [] }

/-- No step since reset (R422). -/
def Steps.initial : Steps :=
  { run := none, latched := none, held := none, lastNumber := 0, anyNumber := true, lastStatus := 0, spillPeak := 0,
    sinceCapture := 0 }

/-- An empty peer table (table 2.4). -/
def Mortar.initial : Mortar :=
  { peers := [], refuseReason := 0, bondDigest := 0, tree := none, trees := [], late := [] }

/-- The lanes hold nothing (R89). -/
def Lanes.initial : Lanes := { active := none, shadow := none, buffers := [] }

/-- No image since reset (R512). -/
def Snapshot.initial : Snapshot :=
  { state := 0, requested := false, run := none, lastEpoch := 0, lastStep := 0, lastDigest := 0, lastPartner := none,
    increments := 0, forceFull := false, refused := false, dirtySlots := [], dirtyPages := [] }

/-- An empty hold area. -/
def Hold.initial : Hold :=
  { source := none, chain := [], upper := false, receiving := none, sending := none }

/-- No restore (R519). -/
def Restore.initial : Restore :=
  { state := 0, reason := 0, chunksDone := 0, quiesced := 0, run := none, requested := false, maxEpoch := none }

/-- Scrub at its start, leadership east, tests never run. -/
def Upkeep.initial : Upkeep :=
  { memory := 1, line := 0, corrected := [], hsPass := none, westFenced := false, bistState := 0, bistFailures := 0,
    bistTime := 0, bistRun := none, bistWaiting := false, marchDue := none, heirloomFell := false, modeReason := 0 }

/-- Sensing before any reading (table 3.5). -/
def Sensing.initial : Sensing :=
  { power := .dormant, waking := none, railE := 0, railW := 0, railsRead := false, railHs := 0, railAon := 0,
    temps := [0, 0, 0, 0, 0, 0, 0, 0], nextPoint := none, laneRow := 0, thermalCap := false, thermalHold := false, warned := false,
    hsOff := false, headLatency := 0, slowLoads := 0, tierA := 0, tierB := 0 }

/-- The unit with its power-on reset asserted (R66, R68, table 2.4): every value is the manual's, but for the
contents of non-volatile memory and of the chip memory (log entries 2, 4, 5). -/
def State.reset : State :=
  { boundary :=
      { unitPresent := false, tsReq := false, unitDisable := false, lastEdge := none, phase := .asserted .powerOn,
        unitResetDue := false, laneReturn := .dormant, laneWoke := false, abandoned := false }
    ts := { valid := false, value := 0, hold := 0, phase := 0 }
    sensing := .initial
    events := { events := [], nextSequence := 0 }
    dict := .initial
    mirror := .initial
    nvm := .initial
    life := .initial .initial
    heads := [.empty, .empty, .empty, .empty]
    lanes := .initial
    fseq := .initial
    contexts := .initial
    steps := .initial
    mortar := .initial
    snapshot := .initial
    hold := .initial
    restore := .initial
    upkeep := .initial
    mem := []
    out := { mesh := [], mirror := 0, fabric := [] }
    pending := []
    slow := 0
    fresh := 0 }

end Sys2Proof.Machine
end

