-- ==== Sys2Proof/Machine/Objects.lean ====
section
/-! DEFINITION. The dictionary's objects (table 15.17 and the tables it names): address, type, access kind,
default and persistence, and the range each write is checked against (R446 to R449). -/

namespace Sys2Proof.Machine

/-- An object's entry: type code (table 15.1), size in bytes, access code (table 15.2), default, Persist. -/
structure ObjInfo where
  type : Nat
  size : Nat
  access : Nat
  default : Nat
  persist : Bool
deriving DecidableEq, Repr

/-- Field size of a scalar type (table 15.1). -/
def typeSize : Nat → Nat
  | 1 => 1
  | 2 => 2
  | 4 => 8
  | 7 => 8
  | _ => 4

/-- A scalar object. -/
def scalar (type access default : Nat) (persist : Bool) : ObjInfo :=
  { type := type, size := typeSize type, access := access, default := default, persist := persist }

/-- A BLOB object of `size` bytes. -/
def blob (size access : Nat) (persist : Bool) : ObjInfo :=
  { type := 9, size := size, access := access, default := 0, persist := persist }

/-- A command object (access CMD). -/
def command (type : Nat) : ObjInfo := scalar type 5 0 false

/-- A read-only scalar. -/
def ro (type default : Nat) : ObjInfo := scalar type 1 default false

/-- A read-write scalar. -/
def rw (type default : Nat) (persist : Bool) : ObjInfo := scalar type 2 default persist

/-- A staged scalar. -/
def rws (type default : Nat) (persist : Bool) : ObjInfo := scalar type 3 default persist

/-- Tables 15.13, 16.2, 15.11, 2.5. -/
def objectsLow : List (Nat × ObjInfo) :=
  [(0x100001, ro 3 0x54495758), (0x100002, ro 3 0x53544C32), (0x100003, ro 1 2), (0x100004, ro 1 1),
   (0x100005, ro 1 1), (0x100006, ro 2 1), (0x100007, ro 4 0),
   (0x1E0001, ro 1 0), (0x1E0002, ro 3 0), (0x1E0003, ro 3 0),
   (0x1E1001, blob 96 1 false), (0x1E1002, blob 96 2 false), (0x1E2001, command 3), (0x1E2002, blob 16 1 false),
   (0x1E3001, scalar 1 4 0 false), (0x1E3002, blob 96 4 false), (0x1E3003, command 3), (0x1E3004, ro 1 0),
   (0x1E3005, ro 1 0),
   (0x1F2001, command 3), (0x1F2002, ro 1 0), (0x1F2003, scalar 3 1 0 true), (0x1F2101, command 3),
   (0x1F2102, ro 1 0), (0x1F3001, command 3), (0x1F3101, command 3)]

/-- Tables 15.9, 4.6, 18.4, 5.5 (Free Head Frames), 8.3, 12.2, 13.6, 13.9, 14.1. -/
def objectsConfig : List (Nat × ObjInfo) :=
  [(0x200001, command 3), (0x200002, command 3), (0x200003, ro 1 0), (0x200004, ro 4 0), (0x200005, ro 1 0),
   (0x200010, rws 6 0xC5000000 true), (0x200020, rws 1 0 false), (0x200021, ro 1 0),
   (0x202401, ro 2 3072),
   (0x203001, rws 4 0 true), (0x203002, rws 4 0 true), (0x203003, ro 4 0),
   (0x204001, rw 2 128 true),
   (0x205001, rws 4 0 true), (0x205002, rws 4 0 true), (0x205003, ro 3 0), (0x205004, rws 4 0 true),
   (0x205005, rws 4 0 true), (0x205006, ro 3 0),
   (0x206001, rws 4 0 true), (0x206002, rws 2 0 true), (0x206003, ro 1 0), (0x206004, blob 32 1 false),
   (0x207001, rw 4 0 false), (0x207002, rw 1 1 true), (0x207003, command 3), (0x207004, ro 1 0),
   (0x207005, ro 4 0), (0x207006, ro 2 0), (0x207007, ro 1 0)]

/-- Tables 3.5, 10.13, 6.12. -/
def objectsMid : List (Nat × ObjInfo) :=
  [(0x300001, ro 1 1), (0x300002, rw 1 1 true), (0x300003, rw 3 10000 true), (0x300004, rw 3 100000000 true),
   (0x300005, rw 1 1 true), (0x300006, ro 2 0), (0x300007, ro 1 0),
   (0x300101, ro 2 0), (0x300102, ro 2 0), (0x300103, ro 2 0), (0x300104, ro 2 0),
   (0x300201, ro 5 0), (0x300202, ro 5 0), (0x300203, ro 5 0), (0x300204, ro 5 0), (0x300205, ro 5 0),
   (0x300206, ro 5 0), (0x300207, ro 5 0), (0x300208, ro 5 0), (0x300209, rw 5 95000 true),
   (0x30020A, rw 5 105000 true),
   (0x300301, ro 2 0), (0x300302, ro 3 0), (0x300303, ro 3 0),
   (0x500001, rw 2 0 true), (0x500002, rw 1 0 true), (0x500003, rw 3 20000 true), (0x500004, rw 3 1000000 true),
   (0x500005, rw 3 200000 true),
   (0x501001, rws 3 0 true), (0x501002, blob 1024 3 true), (0x501003, rws 2 0 true), (0x501004, rws 3 0 true),
   (0x501005, blob 32 1 false), (0x501006, ro 3 0), (0x501007, ro 1 0),
   (0x502001, ro 2 0), (0x502002, rw 2 0 false), (0x502003, ro 1 0), (0x502004, ro 3 0), (0x502005, ro 3 0),
   (0x502006, blob 80 1 false),
   (0x600001, ro 1 0), (0x600002, blob 32 1 false), (0x600003, ro 3 0), (0x600004, ro 1 0), (0x600005, ro 1 0),
   (0x600006, ro 1 0), (0x600101, blob 58176 4 false), (0x600102, command 3), (0x600103, command 3)]

/-- The counters of 0x7000 to 0x70FF that are U32 objects, in ascending address, as (first, last). -/
def counterRanges : List (Nat × Nat × Nat) :=
  [(0x700001, 0x70000E, 3), (0x701001, 0x70100C, 3), (0x70100D, 0x70100D, 4), (0x702001, 0x702003, 4),
   (0x702004, 0x702004, 3), (0x702005, 0x702005, 4), (0x702006, 0x702006, 5), (0x705001, 0x705002, 4),
   (0x705003, 0x70500A, 3), (0x706001, 0x706002, 4), (0x706003, 0x706005, 3), (0x707001, 0x707002, 4),
   (0x707003, 0x707003, 3), (0x707004, 0x707005, 4), (0x707006, 0x707006, 3), (0x708001, 0x708001, 4),
   (0x708002, 0x708008, 3), (0x709001, 0x709001, 4), (0x709002, 0x709004, 3), (0x709005, 0x709008, 4),
   (0x70A001, 0x70A007, 3), (0x70A101, 0x70A107, 3), (0x70A201, 0x70A20A, 3)]

/-- The type of a counter-range object other than Counter Clear, none where no such object stands (R476). -/
def counterType (key : Nat) : Option Nat :=
  (counterRanges.find? fun r => decide (r.1 ≤ key) && decide (key ≤ r.2.1)).map fun r => r.2.2

/-- Every counter-range object in ascending address with its type (table 17.9). -/
def counterObjects : List (Nat × Nat) :=
  counterRanges.flatMap fun r => (List.range (r.2.1 + 1 - r.1)).map fun i => (r.1 + i, r.2.2)

/-- The objects of 0x7000 to 0x70FF as an image holds them: Counter Clear stands among them (table 17.9). -/
def imageObjects : List (Nat × Nat) :=
  let low := fun (o : Nat × Nat) => decide (o.1 < 0x700101)
  counterObjects.filter low ++ (0x700101, 3) :: counterObjects.filter fun o => !low o

/-- Tables 15.14 (Counter Clear), 17.4, 17.10, 17.12, 18.3. -/
def objectsHigh : List (Nat × ObjInfo) :=
  [(0x700101, command 3),
   (0x710001, ro 2 0), (0x710002, blob 1024 1 false), (0x710003, command 2), (0x710004, rw 1 0 true),
   (0x710005, rw 2 1 true),
   (0x800001, rw 2 0 true), (0x800002, rw 2 8 true), (0x800003, rw 1 16 true), (0x800004, command 3),
   (0x800005, ro 1 0), (0x800006, ro 3 0), (0x800007, ro 4 0), (0x800008, blob 32 1 false),
   (0x800101, rw 4 0 true), (0x800102, rw 4 0 true), (0x800103, ro 2 0), (0x800104, blob 256 1 false),
   (0x800105, command 3), (0x800106, rw 2 0 false), (0x800107, rw 3 0 false), (0x800108, command 3),
   (0x801001, rw 3 0 false), (0x801002, rw 1 1 false), (0x801003, rw 2 0 false), (0x801004, blob 256 2 false),
   (0x801005, rw 1 1 false), (0x801006, command 3), (0x801007, ro 1 0), (0x801008, ro 1 0), (0x801009, ro 3 0),
   (0x80100A, ro 1 0),
   (0x900001, rw 3 0x3F2 true), (0x900002, command 3), (0x900003, ro 1 0), (0x900004, ro 3 0), (0x900005, ro 4 0)]

/-- Head slot objects by subindex (table 5.5). -/
def slotObject : Nat → Option ObjInfo
  | 0x01 => some (rw 4 0 true)
  | 0x02 => some (rw 1 1 true)
  | 0x03 => some (rw 1 1 true)
  | 0x04 => some (rw 1 1 true)
  | 0x05 => some (rw 2 4096 true)
  | 0x06 => some (blob 32 2 true)
  | 0x07 => some (rw 1 1 true)
  | 0x08 => some (rw 1 0 true)
  | 0x09 => some (rw 6 0x35800000 true)
  | 0x0A => some (rw 1 1 true)
  | 0x0B => some (rw 4 0 true)
  | 0x0C => some (command 3)
  | 0x0D => some (command 3)
  | 0x0E => some (ro 1 0)
  | 0x0F => some (ro 2 0)
  | 0x10 => some (ro 4 0)
  | 0x11 => some (ro 3 0)
  | _ => none

/-- Tenant objects by subindex (tables 14.5, 13.3). -/
def tenantObject (t : Nat) : Nat → Option ObjInfo
  | 0x01 => some (rws 1 (if t = 0 then 1 else 0) true)
  | 0x02 => some (rws 3 0 true)
  | 0x03 => some (rws 4 0xFFFFFFFFFFFFFFFF true)
  | 0x04 => some (rws 4 1000000000 true)
  | 0x05 => some (ro 4 0)
  | 0x06 => some (ro 4 0)
  | 0x07 => some (ro 4 0)
  | 0x20 => some (rw 4 0 false)
  | 0x21 => some (rw 2 0 false)
  | 0x22 => some (command 3)
  | 0x23 => some (ro 1 0)
  | 0x24 => some (rw 2 0 false)
  | 0x25 => some (blob 64 1 false)
  | _ => none

/-- The objects of one table by range of index. -/
def objectTable (index : Nat) : List (Nat × ObjInfo) :=
  if index < 0x2000 then objectsLow
  else if index < 0x3000 then objectsConfig
  else if index < 0x7000 then objectsMid
  else objectsHigh

/-- The object at index × 256 + subindex (R446, R474). -/
def objInfo (key : Nat) : Option ObjInfo :=
  let index := key / 256
  let sub := key % 256
  if 0x2020 ≤ index ∧ index ≤ 0x2023 then slotObject sub
  else if 0x4000 ≤ index ∧ index ≤ 0x403F then tenantObject (index - 0x4000) sub
  else if index = 0x1E38 then (if 1 ≤ sub ∧ sub ≤ 0xFE then some (rw 1 0xFF true) else none)
  else if index = 0x6002 then (if 1 ≤ sub ∧ sub ≤ 0x40 then some (ro 3 0) else none)
  else match counterType key with
    | some t => some (ro t 0)
    | none => lookupKey (objectTable index) key

/-- An object's default, 0 where there is no object. -/
def objDefault (key : Nat) : Nat := ((objInfo key).map (·.default)).getD 0

/-- A staged object's keys: every RWS object of the dictionary (R462). -/
def stagedKeys : List Nat :=
  [0x200010, 0x200020, 0x203001, 0x203002, 0x205001, 0x205002, 0x205004, 0x205005, 0x206001, 0x206002,
   0x501001, 0x501002, 0x501003, 0x501004] ++
  (List.range 64).flatMap fun t => [0x400001 + 256 * t, 0x400002 + 256 * t, 0x400003 + 256 * t, 0x400004 + 256 * t]

/-- The value a store gives an object. -/
def Store.get (st : Store) (key : Nat) : Nat := (lookupKey st key).getD (objDefault key)

/-- The value a CMD object's write must carry (its Range), for the objects that take one value only. -/
def commandValue (key : Nat) : Option Nat :=
  if key = 0x1E2001 then some 0x4348414C
  else if key = 0x1E3003 then some 0x4C43474F
  else if key = 0x1F2001 then some 0x53544F52
  else if key = 0x1F2101 then some 0x44464C54
  else if key = 0x1F3001 then some 0x4C414E45
  else if key = 0x1F3101 then some 0x554E4954
  else if key = 0x200001 then some 0x434F4D54
  else if key = 0x200002 then some 0x44495343
  else if key = 0x207003 then some 0x5354474F
  else if key = 0x600102 then some 0x494E5354
  else if key = 0x600103 then some 0x46414354
  else if key = 0x700101 then some 0x434C5243
  else if key = 0x800004 then some 0x534E4150
  else if key = 0x800105 then some 0x484C4443
  else if key = 0x800108 then some 0x53454E44
  else if key = 0x801006 then some 0x52455354
  else if key = 0x900002 then some 0x42495354
  else if key % 256 = 0x0C ∧ 0x2020 ≤ key / 256 ∧ key / 256 ≤ 0x2023 then some 0x53574150
  else if key % 256 = 0x0D ∧ 0x2020 ≤ key / 256 ∧ key / 256 ≤ 0x2023 then some 0x41425254
  else if key % 256 = 0x22 ∧ 0x4000 ≤ key / 256 ∧ key / 256 ≤ 0x403F then some 0x43545842
  else none

/-- Between two bounds. -/
def between (lo v hi : Nat) : Bool := decide (lo ≤ v) && decide (v ≤ hi)

/-- A number of 32 bits read as two's complement. -/
def signed32 (v : Nat) : Int := if v < 2 ^ 31 then v else (v : Int) - 2 ^ 32

/-- Head slot descriptor ranges (table 5.5). -/
def slotRange (sub v : Nat) : Bool :=
  match sub with
  | 0x01 => v % 4096 == 0
  | 0x02 => between 1 v 2
  | 0x03 => between 1 v 2
  | 0x04 => between 1 v 2
  | 0x05 => v % 64 == 0 && between 64 v 32768
  | 0x07 => between 0 v 2
  | 0x08 => between 0 v 1
  | 0x09 => between 0x00800000 v 0x3F800000
  | 0x0A => between 1 v 2
  | 0x0B => v % 64 == 0
  | _ => true

/-- Tenant ranges (tables 14.5, 13.3). -/
def tenantRange (sub v : Nat) : Bool :=
  match sub with
  | 0x01 => between 0 v 1
  | 0x04 => between 1000 v (2 ^ 63)
  | 0x20 => v % 64 == 0
  | 0x21 => between 1 v 4096
  | 0x24 => between 0 v 8191
  | _ => true

/-- The fixed part of each object's Range column; conditions on other state are checked beside it. -/
def objRange (key v : Nat) : Bool :=
  let index := key / 256
  let sub := key % 256
  if 0x2020 ≤ index ∧ index ≤ 0x2023 then slotRange sub v
  else if 0x4000 ≤ index ∧ index ≤ 0x403F then tenantRange sub v
  else if index = 0x1E38 then between 0 v 63 || v == 0xFF
  else if key = 0x1E3001 then between 2 v 6
  else if key = 0x200010 then decide (v % 2 ^ 31 ≤ 0x45000000)
  else if key = 0x200020 then between 0 v 2
  else if key = 0x203001 ∨ key = 0x205001 ∨ key = 0x205004 then v % 4096 == 0
  else if key = 0x203002 ∨ key = 0x205002 ∨ key = 0x205005 then v % 4096 == 0 && decide (v ≤ 2 ^ 40)
  else if key = 0x204001 then between 0 v 1024
  else if key = 0x206001 then v % 64 == 0
  else if key = 0x206002 then between 0 v 256
  else if key = 0x207001 then v % 4096 == 0
  else if key = 0x207002 then between 0 v 2
  else if key = 0x300002 then between 1 v 2
  else if key = 0x300003 then between 0 v 1000000000
  else if key = 0x300005 then between 0 v 1
  else if key = 0x300209 then between 60000 v 110000
  else if key = 0x30020A then between 70000 v 115000
  else if key = 0x500001 then between 0 v 4095
  else if key = 0x500002 then between 0 v 1
  else if key = 0x500003 then between 1000 v 1000000
  else if key = 0x500004 then between 100000 v 100000000
  else if key = 0x500005 then between 50000 v 100000000
  else if key = 0x501003 then between 0 v 4095
  else if key = 0x501004 then between 0 v 1048576
  else if key = 0x502002 then between 0 v 4095
  else if key = 0x710004 then between 0 v 1
  else if key = 0x710005 then between 1 v 256
  else if key = 0x800001 then between 0 v 4095
  else if key = 0x800002 then between 0 v 4096
  else if key = 0x800003 then between 1 v 16
  else if key = 0x800101 then v % 4096 == 0
  else if key = 0x800102 then v % 139264 == 0 && decide (v ≤ 2 ^ 40)
  else if key = 0x800106 then between 0 v 4095
  else if key = 0x801002 then between 1 v 3
  else if key = 0x801003 then between 0 v 4095
  else if key = 0x801005 then between 1 v 16
  else if key = 0x900001 then v &&& 0x7F2 == v
  else true

/-- Reserved bits are ignored and read 0 (R8): what a write leaves of a value. -/
def objMask (key v : Nat) : Nat :=
  if key = 0x501002 then
    (List.range 256).foldl (fun acc b => acc + ((v / 2 ^ (32 * b) % 2 ^ 32) &&& 0x8FFF8FFF) * 2 ^ (32 * b)) 0
  else if 0x4000 ≤ key / 256 ∧ key / 256 ≤ 0x403F ∧ key % 256 = 0x02 then v % 2
  else if key = 0x801004 then
    (List.range 16).foldl (fun acc b => acc + (v / 2 ^ (128 * b) % 2 ^ 96) * 2 ^ (128 * b)) 0
  else if key = 0x200010 ∧ v = 2 ^ 31 then 0
  else v

end Sys2Proof.Machine
end

