-- ==== Sys2Proof/Machine/Float.lean ====
section
/-! DEFINITION. The floating-point encodings of table 4.2, exact values, the one rounding
of R118, R121, R122 and the narrowing conversions of table 4.7 (04_number_formats.md). -/

namespace Sys2Proof.Machine

/-- An exact value: a NaN, an infinity, or the number `m · 2 ^ e`. Zero has no sign (R113). -/
inductive Num where
  | nan
  | inf (neg : Bool)
  | fin (m : Int) (e : Int)
deriving DecidableEq, Repr

/-- One row of table 4.2, with the overflow behaviour table 4.7 gives its narrowing conversion. -/
structure FloatFmt where
  /-- width of the encoding in bits -/
  width : Nat
  /-- significant bits of a normal value, the hidden one included -/
  prec : Nat
  /-- exponent of the last place of the smallest normal value -/
  qmin : Int
  /-- false for W40, which has no subnormals -/
  subnormal : Bool
  /-- magnitude code of infinity, if the format has one -/
  infCode : Option Nat
  /-- the first magnitude code that is a NaN -/
  nanFirst : Nat
  /-- canonical NaN -/
  nanCode : Nat
  /-- magnitude code that an overflow and an infinity take (table 4.7) -/
  overCode : Nat
deriving DecidableEq, Repr

/-- FP32 (table 4.2). -/
def fmtF32 : FloatFmt := ⟨32, 24, -149, true, some 0x7F800000, 0x7F800001, 0x7FC00000, 0x7F800000⟩
/-- FP16 (table 4.2). -/
def fmtF16 : FloatFmt := ⟨16, 11, -24, true, some 0x7C00, 0x7C01, 0x7E00, 0x7C00⟩
/-- BF16 (table 4.2). -/
def fmtBF16 : FloatFmt := ⟨16, 8, -133, true, some 0x7F80, 0x7F81, 0x7FC0, 0x7F80⟩
/-- E4M3 (table 4.2): no infinity, one NaN per sign; conversions saturate (table 4.7). -/
def fmtE4M3 : FloatFmt := ⟨8, 4, -9, true, none, 0x7F, 0x7F, 0x7E⟩
/-- E5M2 (table 4.2); conversions saturate (table 4.7). -/
def fmtE5M2 : FloatFmt := ⟨8, 3, -16, true, some 0x7C, 0x7D, 0x7E, 0x7B⟩
/-- W40 (tables 4.2, 4.3): no subnormals. -/
def fmtW40 : FloatFmt := ⟨40, 27, -4120, false, some 0x7FFC000000, 0x7FFC000001, 0x7FFE000000, 0x7FFC000000⟩

/-- The encoding of the nonnegative rational `num / den · 2 ^ e` with sign `neg`, rounded once to
nearest, ties to even; a W40 result below the smallest normal is +0 (R121, log entry 9). -/
def roundRat (f : FloatFmt) (neg : Bool) (num den : Nat) (e : Int) : Nat :=
  if num = 0 then 0 else
  let k : Int := (Nat.log2 num : Int) - (Nat.log2 den : Int)
  let ge : Bool := if 0 ≤ k then den <<< k.toNat ≤ num else den ≤ num <<< (-k).toNat
  let top : Int := (if ge then k else k - 1) + e
  if !f.subnormal && decide (top < f.qmin + ((f.prec : Int) - 1)) then 0 else
  let q : Int := max (top - ((f.prec : Int) - 1)) f.qmin
  let sh : Int := e - q
  let n := if 0 ≤ sh then num <<< sh.toNat else num
  let d := if 0 ≤ sh then den else den <<< (-sh).toNat
  let quo := n / d
  let rem := n % d
  let m := if 2 * rem > d || (2 * rem == d && quo % 2 == 1) then quo + 1 else quo
  let code := (q - f.qmin).toNat * 2 ^ (f.prec - 1) + m
  let first := match f.infCode with
    | some c => c
    | none => f.nanFirst
  let code := if first ≤ code then f.overCode else code
  if code = 0 then 0 else if neg then code + 2 ^ (f.width - 1) else code

/-- The encoding of an exact value in a format: rounded once, NaN canonical (R112, R118). -/
def encode (f : FloatFmt) (v : Num) : Nat :=
  match v with
  | .nan => f.nanCode
  | .inf neg => if neg then f.overCode + 2 ^ (f.width - 1) else f.overCode
  | .fin m e => roundRat f (decide (m < 0)) m.natAbs 1 e

/-- The exact value of an encoding (table 4.2): −0 reads as +0 (R113), and W40 with exponent 0 is +0 (R120). -/
def decode (f : FloatFmt) (code : Nat) : Num :=
  let neg : Bool := code / 2 ^ (f.width - 1) % 2 == 1
  let mag := code % 2 ^ (f.width - 1)
  if f.nanFirst ≤ mag then .nan
  else if f.infCode == some mag then .inf neg
  else
    let ef := mag / 2 ^ (f.prec - 1)
    let frac := mag % 2 ^ (f.prec - 1)
    let m : Nat := if ef = 0 then (if f.subnormal then frac else 0) else frac + 2 ^ (f.prec - 1)
    let e : Int := if ef = 0 then f.qmin else f.qmin + (ef : Int) - 1
    if m = 0 then .fin 0 0 else .fin (if neg then -(m : Int) else (m : Int)) e

/-- Exact negation; a zero stays +0. -/
def Num.neg : Num → Num
  | .nan => .nan
  | .inf s => .inf (!s)
  | .fin m e => .fin (-m) e

/-- Exact absolute value. -/
def Num.abs : Num → Num
  | .nan => .nan
  | .inf _ => .inf false
  | .fin m e => .fin m.natAbs e

/-- `m · 2 ^ e` brought to the smaller exponent `lo ≤ e`. -/
def alignTo (m : Int) (e lo : Int) : Int := m * 2 ^ (e - lo).toNat

/-- Exact sum, with the special operands of R117 and R121. -/
def Num.add : Num → Num → Num
  | .nan, _ => .nan
  | _, .nan => .nan
  | .inf a, .inf b => if a = b then .inf a else .nan
  | .inf a, .fin _ _ => .inf a
  | .fin _ _, .inf b => .inf b
  | .fin m e, .fin n f =>
    if m = 0 then .fin n f else if n = 0 then .fin m e
    else .fin (alignTo m e (min e f) + alignTo n f (min e f)) (min e f)

/-- Exact difference. -/
def Num.sub (a b : Num) : Num := a.add b.neg

/-- Exact product: a zero times an infinity is NaN (R117, R121). -/
def Num.mul : Num → Num → Num
  | .nan, _ => .nan
  | _, .nan => .nan
  | .inf a, .inf b => .inf (a != b)
  | .inf a, .fin n _ => if n = 0 then .nan else .inf (a != decide (n < 0))
  | .fin m _, .inf b => if m = 0 then .nan else .inf (b != decide (m < 0))
  | .fin m e, .fin n f => if m * n = 0 then .fin 0 0 else .fin (m * n) (e + f)

/-- Exact comparison `a < b`; false with a NaN. -/
def Num.lt : Num → Num → Bool
  | .nan, _ => false
  | _, .nan => false
  | .inf a, .inf b => a && !b
  | .inf a, .fin _ _ => a
  | .fin _ _, .inf b => !b
  | .fin m e, .fin n f => decide (alignTo m e (min e f) < alignTo n f (min e f))

/-- Exact comparison `a = b`; false with a NaN. -/
def Num.eq : Num → Num → Bool
  | .nan, _ => false
  | _, .nan => false
  | .inf a, .inf b => a == b
  | .inf _, .fin _ _ => false
  | .fin _ _, .inf _ => false
  | .fin m e, .fin n f => decide (alignTo m e (min e f) = alignTo n f (min e f))

/-- Exact comparison `a ≤ b`; false with a NaN. -/
def Num.le (a b : Num) : Bool := a.lt b || a.eq b

/-- The quotient of two exact values, rounded once to a format (IEEE 754 special operands). -/
def divRound (f : FloatFmt) : Num → Num → Nat
  | .nan, _ => f.nanCode
  | _, .nan => f.nanCode
  | .inf _, .inf _ => f.nanCode
  | .inf a, .fin n _ => encode f (.inf (a != decide (n < 0)))
  | .fin _ _, .inf _ => 0
  | .fin m e, .fin n g =>
    if n = 0 then (if m = 0 then f.nanCode else encode f (.inf (decide (m < 0))))
    else roundRat f (decide (m < 0) != decide (n < 0)) m.natAbs n.natAbs (e - g)

/-! ### FP32 -/

/-- The value of an FP32 encoding. -/
def f32Num (x : F32) : Num := decode fmtF32 x.toNat
/-- RNE_FP32 (R118). -/
def f32Of (v : Num) : F32 := BitVec.ofNat 32 (encode fmtF32 v)
/-- FP32 addition (R118). -/
def f32Add (a b : F32) : F32 := f32Of ((f32Num a).add (f32Num b))
/-- FP32 subtraction. -/
def f32Sub (a b : F32) : F32 := f32Of ((f32Num a).sub (f32Num b))
/-- FP32 multiplication. -/
def f32Mul (a b : F32) : F32 := f32Of ((f32Num a).mul (f32Num b))
/-- FP32 division. -/
def f32Div (a b : F32) : F32 := BitVec.ofNat 32 (divRound fmtF32 (f32Num a) (f32Num b))
/-- Exact FP32 negation; a zero gives +0. -/
def f32Neg (a : F32) : F32 := f32Of (f32Num a).neg
/-- `a < b` as numbers. -/
def f32Lt (a b : F32) : Bool := (f32Num a).lt (f32Num b)
/-- `a ≤ b` as numbers. -/
def f32Le (a b : F32) : Bool := (f32Num a).le (f32Num b)
/-- `a = b` as numbers. -/
def f32Eq (a b : F32) : Bool := (f32Num a).eq (f32Num b)
/-- NaN test (any payload). -/
def f32IsNan (a : F32) : Bool := f32Num a == .nan
/-- Finite test. -/
def f32IsFinite (a : F32) : Bool :=
  match f32Num a with
  | .fin _ _ => true
  | _ => false

/-- −inf, the mark of a masked entry (R127). -/
def f32NegInf : F32 := 0xFF800000
/-- +inf. -/
def f32PosInf : F32 := 0x7F800000
/-- The canonical FP32 NaN (R112). -/
def f32Nan : F32 := 0x7FC00000
/-- 1.0. -/
def f32One : F32 := 0x3F800000

/-- An integer as FP32, rounded once. -/
def f32OfInt (n : Int) : F32 := f32Of (.fin n 0)

/-- Reads any input format to FP32 exactly (R112): NaN canonical, −0 as +0. -/
def toF32 (f : FloatFmt) (code : Nat) : F32 := f32Of (decode f code)

/-- Narrows FP32 to another format (table 4.7). -/
def narrow (f : FloatFmt) (x : F32) : Nat := encode f (f32Num x)

/-! ### W40 -/

/-- The value of a W40 encoding (R120). -/
def w40Num (x : W40) : Num := decode fmtW40 x.toNat
/-- RNE_W40 (R121). -/
def w40Of (v : Num) : W40 := BitVec.ofNat 40 (encode fmtW40 v)
/-- W40 addition (R121). -/
def w40Add (a b : W40) : W40 := w40Of ((w40Num a).add (w40Num b))
/-- W40 subtraction. -/
def w40Sub (a b : W40) : W40 := w40Of ((w40Num a).sub (w40Num b))
/-- W40 multiplication. -/
def w40Mul (a b : W40) : W40 := w40Of ((w40Num a).mul (w40Num b))
/-- Exact W40 negation; a zero gives +0. -/
def w40Neg (a : W40) : W40 := w40Of (w40Num a).neg
/-- `a < b` as numbers. -/
def w40Lt (a b : W40) : Bool := (w40Num a).lt (w40Num b)
/-- `a ≤ b` as numbers. -/
def w40Le (a b : W40) : Bool := (w40Num a).le (w40Num b)
/-- `a = b` as numbers. -/
def w40Eq (a b : W40) : Bool := (w40Num a).eq (w40Num b)
/-- FP32 to W40, exact for every finite value (R122). -/
def f32ToW40 (x : F32) : W40 := w40Of (f32Num x)
/-- W40 to FP32, rounded once (R122). -/
def w40ToF32 (x : W40) : F32 := f32Of (w40Num x)
/-- W40 infinity or NaN (R125). -/
def w40IsSpecial (x : W40) : Bool :=
  match w40Num x with
  | .fin _ _ => false
  | _ => true
/-- W40 zero. -/
def w40IsZero (x : W40) : Bool := w40Num x == .fin 0 0
/-- Exponent 0 with a nonzero fraction: taken as +0, raises W40_NONCANONICAL (R120). -/
def w40Noncanonical (x : W40) : Bool :=
  x.toNat / 2 ^ 26 % 2 ^ 13 == 0 && x.toNat % 2 ^ 26 != 0
/-- W40 +0. -/
def w40Zero : W40 := 0
/-- W40 1.0. -/
def w40One : W40 := 0x3FFC000000
/-- W40 +inf. -/
def w40Inf : W40 := 0x7FFC000000
/-- The canonical W40 NaN. -/
def w40Nan : W40 := 0x7FFE000000
/-- RNE_W40 of the rational `num / den · 2 ^ e`. -/
def w40Rat (neg : Bool) (num den : Nat) (e : Int) : W40 := BitVec.ofNat 40 (roundRat fmtW40 neg num den e)
/-- An integer in W40. -/
def w40OfInt (n : Int) : W40 := w40Of (.fin n 0)
/-- `x · 2 ^ k`, exact but at the ends of the range (R121). -/
def w40Scale (x : W40) (k : Int) : W40 :=
  match w40Num x with
  | .fin m e => w40Of (.fin m (e + k))
  | v => w40Of v

/-- Rounds an exact value to an integer, ties to even. -/
def rintInt (m : Int) (e : Int) : Int :=
  if 0 ≤ e then m * 2 ^ e.toNat
  else
    let d : Int := 2 ^ (-e).toNat
    let q := m / d
    let r := m % d
    if 2 * r > d ∨ (2 * r = d ∧ q % 2 = 1) then q + 1 else q

/-- The floor of an exact value. -/
def floorInt (m : Int) (e : Int) : Int :=
  if 0 ≤ e then m * 2 ^ e.toNat else m / 2 ^ (-e).toNat

end Sys2Proof.Machine
end

