-- ==== Sys2Proof/Machine/Functions.lean ====
section
/-! DEFINITION. The built-in functions of the function sequencer: the recipes of table 6.2
and the special inputs of table 6.3 (06_function_sequencer.md, R182 to R185). A constant or seed
"written as a real value" is formed from a fixed-point value with 256 fraction bits, far past the
place where its RNE_W40 rounding is decided (log entry 10). -/

namespace Sys2Proof.Machine

/-- The fraction bits of the fixed-point values below. -/
def fixBits : Nat := 256

/-- One as a fixed-point value. -/
def fixOne : Nat := 2 ^ fixBits

/-- Terms of `z + z³/3 + z⁵/5 + …` from `z ^ (2k+1)` on; `z2` is `z²`. -/
def atanhTerms (z2 : Nat) : Nat → Nat → Nat → Nat → Nat
  | 0, _, _, acc => acc
  | fuel + 1, k, p, acc => atanhTerms z2 fuel (k + 1) (p * z2 / fixOne) (acc + p / (2 * k + 1))

/-- atanh(n/d) for `n/d ≤ 1/3`. -/
def atanhFix (n d : Nat) : Nat :=
  let z := n * fixOne / d
  atanhTerms (z * z / fixOne) 90 0 z 0

/-- ln(n/d) for `1 ≤ n/d ≤ 2`. -/
def lnFix (n d : Nat) : Nat := 2 * atanhFix (n - d) (n + d)

/-- ln 2. -/
def ln2Fix : Nat := lnFix 2 1

/-- Terms of `z − z³/3 + z⁵/5 − …` for z = 1/d: positive and negative parts kept apart. -/
def atanTerms (d2 : Nat) : Nat → Nat → Nat → Nat → Nat → Nat
  | 0, _, _, pos, neg => pos - neg
  | fuel + 1, k, p, pos, neg =>
    if k % 2 = 0 then atanTerms d2 fuel (k + 1) (p / d2) (pos + p / (2 * k + 1)) neg
    else atanTerms d2 fuel (k + 1) (p / d2) pos (neg + p / (2 * k + 1))

/-- π by Machin's formula. -/
def piFix : Nat :=
  16 * atanTerms 25 120 0 (fixOne / 5) 0 0 - 4 * atanTerms (239 * 239) 40 0 (fixOne / 239) 0 0

/-- Terms of the exponential series from `x^k / k!` on. -/
def expTerms (x : Nat) : Nat → Nat → Nat → Nat → Nat
  | 0, _, _, acc => acc
  | fuel + 1, k, t, acc => expTerms x fuel (k + 1) (t * x / fixOne / (k + 1)) (acc + t)

/-- e^x for `0 ≤ x < 2`. -/
def expFix (x : Nat) : Nat := expTerms x 100 0 fixOne 0

/-- Bits of the integer square root of `n`, from bit `b − 1` down. -/
def isqrtBits (n : Nat) : Nat → Nat → Nat
  | 0, r => r
  | b + 1, r => let c := r + 2 ^ b; isqrtBits n b (if c * c ≤ n then c else r)

/-- ⌊√n⌋. -/
def isqrt (n : Nat) : Nat := isqrtBits n (Nat.log2 n / 2 + 1) 0

/-- RNE_W40 of a fixed-point value. -/
def w40Fix (neg : Bool) (v : Nat) : W40 := w40Rat neg v 1 (-(fixBits : Int))

/-- `v` cut to its 8 leading significant bits. -/
def trunc8 (v : Nat) : Nat := let s := Nat.log2 v - 7; v / 2 ^ s * 2 ^ s

/-- K = RNE_W40(128 / ln 2). -/
def expK : W40 := w40Rat false (128 * fixOne) ln2Fix 0
/-- ln 2 / 128. -/
def ln2Over128 : Nat := ln2Fix / 128
/-- C1: ln 2/128 cut to 8 significant bits. -/
def expC1Fix : Nat := trunc8 ln2Over128
/-- C2: the rest, cut to 8 significant bits. -/
def expC2Fix : Nat := trunc8 (ln2Over128 - expC1Fix)
/-- C1 in W40. -/
def expC1 : W40 := w40Fix false expC1Fix
/-- C2 in W40. -/
def expC2 : W40 := w40Fix false expC2Fix
/-- C3 = RNE_W40 of what C1 and C2 leave. -/
def expC3 : W40 := w40Fix false (ln2Over128 - expC1Fix - expC2Fix)

/-- Seed T[i] = 2^(i/128) (R183). -/
def seedT (i : Nat) : W40 := w40Fix false (expFix (ln2Fix * i / 128))

/-- `a + b · c` as two W40 operations. -/
def fma2 (a b c : W40) : W40 := w40Add a (w40Mul b c)

/-- The rational constant `n/d` in W40. -/
def kRat (n d : Nat) : W40 := w40Rat false n d 0

/-- EXP (table 6.2, table 6.3), W40 output. -/
def fsExp (x : W40) : W40 :=
  match w40Num x with
  | .nan => w40Nan
  | .inf neg => if neg then w40Zero else w40Inf
  | .fin m e =>
    if m = 0 then w40One
    else if (Num.fin 2832 0).lt (.fin m e) then w40Inf
    else if (Num.fin m e).lt (.fin (-2832) 0) then w40Zero
    else
      let j : Int := match w40Num (w40Mul x expK) with
        | .fin a b => rintInt a b
        | _ => 0
      let n : Int := j / 128
      let i : Nat := (j - 128 * n).toNat
      let jw := w40OfInt j
      let r := w40Sub (w40Sub (w40Sub x (w40Mul jw expC1)) (w40Mul jw expC2)) (w40Mul jw expC3)
      let p := fma2 w40One r (fma2 w40One r (fma2 (kRat 1 2) r (kRat 1 6)))
      w40Scale (w40Mul (seedT i) p) n

/-- The exponent e of a nonzero value `2^e · m`, 1 ≤ m < 2, and its fraction above the leading 1, `w` bits. -/
def splitTop (m : Nat) (e : Int) (w : Nat) : Int × Nat :=
  let b := Nat.log2 m
  (e + (b : Int), if w ≤ b then m / 2 ^ (b - w) - 2 ^ w else m * 2 ^ (w - b) - 2 ^ w)

/-- Seed A[i] = 1/cᵢ of LN. -/
def seedA (i : Nat) : W40 :=
  if i = 0 ∨ i = 127 then w40One
  else if i < 64 then w40Rat false 256 (257 + 2 * i) 0
  else w40Rat false 512 (257 + 2 * i) 0

/-- Seed B[i] = ln cᵢ of LN. -/
def seedB (i : Nat) : W40 :=
  if i = 0 ∨ i = 127 then w40Zero
  else if i < 64 then w40Fix false (lnFix (257 + 2 * i) 256)
  else w40Fix true (lnFix 512 (257 + 2 * i))

/-- LN (table 6.2, table 6.3), W40 output. -/
def fsLn (x : W40) : W40 :=
  match w40Num x with
  | .nan => w40Nan
  | .inf neg => if neg then w40Nan else w40Inf
  | .fin m e =>
    if m = 0 then w40Of (.inf true)
    else if m < 0 then w40Nan
    else
      let se := splitTop m.natAbs e 7
      let i := se.2
      let up : Bool := 64 ≤ i
      let ex : Int := if up then se.1 + 1 else se.1
      let mant : W40 := w40Of (.fin m (e - ex))
      let t := w40Sub (w40Mul mant (seedA i)) w40One
      let q := w40Mul t (fma2 w40One t
        (fma2 (w40Neg (kRat 1 2)) t (fma2 (kRat 1 3) t (w40Neg (kRat 1 4)))))
      w40Add (w40Mul (w40OfInt ex) (w40Fix false ln2Fix)) (w40Add (seedB i) q)

/-- RCP (R184): 1/x rounded once to the format. -/
def fsRcp (f : FloatFmt) : Num → Nat
  | .nan => f.nanCode
  | .inf _ => 0
  | .fin m e => if m = 0 then encode f (.inf false) else roundRat f (decide (m < 0)) 1 m.natAbs (-e)

/-- RCP with W40 output. -/
def rcpW40 (x : W40) : W40 := BitVec.ofNat 40 (fsRcp fmtW40 (w40Num x))
/-- RCP with FP32 output. -/
def rcpF32 (x : F32) : F32 := BitVec.ofNat 32 (fsRcp fmtF32 (f32Num x))

/-- RSQRT (R184): 1/√x rounded once to the format. -/
def fsRsqrt (f : FloatFmt) : Num → Nat
  | .nan => f.nanCode
  | .inf neg => if neg then f.nanCode else 0
  | .fin m e =>
    if m = 0 then encode f (.inf false)
    else if m < 0 then f.nanCode
    else
      let odd : Bool := e % 2 != 0
      let a : Nat := if odd then 2 * m.natAbs else m.natAbs
      let h : Int := (if odd then e - 1 else e) / 2
      let t := Nat.log2 a / 2 + 64
      let r := isqrt (2 ^ (2 * t) / a)
      let sticky := if r * r * a == 2 ^ (2 * t) then 0 else 1
      roundRat f false (2 * r + sticky) 1 (-(t : Int) - 1 - h)

/-- RSQRT with FP32 output, the `fs_rsqrt` of R144. -/
def rsqrtF32 (x : F32) : F32 := BitVec.ofNat 32 (fsRsqrt fmtF32 (f32Num x))
/-- RSQRT with W40 output. -/
def rsqrtW40 (x : W40) : W40 := BitVec.ofNat 40 (fsRsqrt fmtW40 (w40Num x))

/-- SIGMOID (table 6.2, table 6.3), W40 output. -/
def fsSigmoid (x : W40) : W40 :=
  match w40Num x with
  | .nan => w40Nan
  | .inf neg => if neg then w40Zero else w40One
  | .fin m _ =>
    if 0 ≤ m then rcpW40 (w40Add w40One (fsExp (w40Neg x)))
    else let u := fsExp x; w40Mul u (rcpW40 (w40Add w40One u))

/-- Seed V[k, i] = tanh(cₖᵢ) of TANH, cₖᵢ = (257 + 2i) · 2^(k − 8), k from −12 to −1. -/
def seedV (k : Int) (i : Nat) : W40 :=
  let e2c := expFix ((257 + 2 * i) * 2 * 2 ^ (fixBits + k - 8 : Int).toNat)
  w40Rat false (e2c - fixOne) (e2c + fixOne) 0

/-- TANH (table 6.2, table 6.3), W40 output; `wide` selects aₛ = 10.5 in place of 9.125. -/
def fsTanh (wide : Bool) (x : W40) : W40 :=
  match w40Num x with
  | .nan => w40Nan
  | .inf neg => if neg then w40Neg w40One else w40One
  | .fin m e =>
    if m = 0 then w40Zero
    else
      let a := w40Of (Num.fin m e).abs
      let an := w40Num a
      let as : Num := if wide then .fin 21 (-1) else .fin 73 (-3)
      let y : W40 :=
        if an.lt (.fin 1 (-12)) then a
        else if an.lt (.fin 1 0) then
          let ki := splitTop m.natAbs e 7
          let c : W40 := w40Of (.fin (257 + 2 * ki.2) (ki.1 - 8))
          let d := w40Sub a c
          let z := w40Mul d d
          let tau := w40Mul d (fma2 w40One z (fma2 (w40Neg (kRat 1 3)) z (kRat 2 15)))
          let v := seedV ki.1 ki.2
          w40Mul (w40Add v tau) (rcpW40 (fma2 w40One v tau))
        else if an.lt as then
          let u := fsExp (w40Scale a 1)
          w40Sub w40One (w40Scale (rcpW40 (w40Add w40One u)) 1)
        else w40One
      if m < 0 then w40Neg y else y

/-- TANH with FP32 input and output, the `fs_tanh_fp32` of R223. -/
def tanhF32 (x : F32) : F32 := w40ToF32 (fsTanh false (f32ToW40 x))

/-- SILU (table 6.2, table 6.3), W40 output. -/
def fsSilu (x : W40) : W40 :=
  match w40Num x with
  | .nan => w40Nan
  | .inf neg => if neg then w40Zero else w40Inf
  | .fin _ _ => w40Mul x (fsSigmoid x)

/-- √(2/π) in W40. -/
def sqrt2OverPi : W40 := w40Fix false (isqrt (2 * fixOne * fixOne * fixOne / piFix))

/-- GELU, tanh form (table 6.2, table 6.3), W40 output. -/
def fsGelu (x : W40) : W40 :=
  match w40Num x with
  | .nan => w40Nan
  | .inf neg => if neg then w40Zero else w40Inf
  | .fin _ _ =>
    let x3 := w40Mul x (w40Mul x x)
    let z := w40Mul sqrt2OverPi (w40Add x (w40Mul (kRat 44715 1000000) x3))
    w40Mul (w40Scale x (-1)) (w40Add w40One (fsTanh true z))

/-- SOFTPLUS (table 6.2, table 6.3), W40 output. -/
def fsSoftplus (x : W40) : W40 :=
  match w40Num x with
  | .nan => w40Nan
  | .inf neg => if neg then w40Zero else w40Inf
  | .fin m e =>
    let u := fsExp (w40Of (Num.fin m e).abs.neg)
    let v := w40Add w40One u
    let h := w40Sub (w40Sub v w40One) u
    let y := w40Sub (fsLn v) (w40Mul h (rcpW40 v))
    if 0 < m then w40Add x y else y

/-- A built-in function by its number (table 6.1), W40 output; a number outside 1 to 9 has none. -/
def builtin (n : Nat) (x : W40) : Option W40 :=
  match n with
  | 1 => some (fsExp x)
  | 2 => some (fsLn x)
  | 3 => some (rcpW40 x)
  | 4 => some (rsqrtW40 x)
  | 5 => some (fsSigmoid x)
  | 6 => some (fsTanh true x)
  | 7 => some (fsSilu x)
  | 8 => some (fsGelu x)
  | 9 => some (fsSoftplus x)
  | _ => none

/-- Effective steps of a built-in function (table 6.1). -/
def builtinSteps (n : Nat) : Nat :=
  match n with
  | 1 => 19
  | 2 => 17
  | 3 => 5
  | 4 => 6
  | 5 => 28
  | 6 => 46
  | 7 => 30
  | 8 => 54
  | 9 => 50
  | _ => 0

end Sys2Proof.Machine
end

