-- ==== Sys2Proof/Machine/Hash.lean ====
section
/-! DEFINITION. The checks and digests the manual takes from standards: CRC-32 with the parameters
of R171, SHA-256 and SHA-384 (FIPS 180-4), and ECDSA verification over P-384 (FIPS 186-5, R483). -/

namespace Sys2Proof.Machine

/-- One bit of the reflected CRC-32. -/
def crcBit (c : Word32) : Word32 := if c.getLsbD 0 then (c >>> 1) ^^^ 0xEDB88320#32 else c >>> 1

/-- One byte of the reflected CRC-32 (polynomial 0x04C1_1DB7). -/
def crcByte (c : Word32) (b : Byte) : Word32 :=
  (List.range 8).foldl (fun c _ => crcBit c) (c ^^^ b.setWidth 32)

/-- CRC-32 with the parameters of R171. -/
def crc32 (bs : Bytes) : Word32 := bs.foldl crcByte 0xFFFFFFFF#32 ^^^ 0xFFFFFFFF#32

/-- The first 80 primes, whose roots give the constants of FIPS 180-4. -/
def shaPrimes : List Nat :=
  (List.range 420).filter fun n => 2 ≤ n && (List.range 21).all fun d => d < 2 || n ≤ d || n % d != 0

/-- Bits of the integer cube root of `n`, from bit `b − 1` down. -/
def icbrtBits (n : Nat) : Nat → Nat → Nat
  | 0, r => r
  | b + 1, r => let c := r + 2 ^ b; icbrtBits n b (if c * c * c ≤ n then c else r)

/-- The first 64 fraction bits of each prime's cube root. -/
def shaK : List Nat := shaPrimes.map fun p => icbrtBits (p * 2 ^ 192) 68 0 % 2 ^ 64

/-- The first 64 fraction bits of each prime's square root. -/
def shaH (ps : List Nat) : List Nat := ps.map fun p => isqrt (p * 2 ^ 128) % 2 ^ 64

/-- The rotation and shift amounts that tell the two word sizes of FIPS 180-4 apart. -/
structure ShaKind where
  /-- word width in bits -/
  w : Nat
  /-- rounds -/
  rounds : Nat
  /-- Σ0, Σ1: three rotations each -/
  bigA : Nat × Nat × Nat
  bigE : Nat × Nat × Nat
  /-- σ0, σ1: two rotations and a shift each -/
  small0 : Nat × Nat × Nat
  small1 : Nat × Nat × Nat
deriving DecidableEq, Repr

/-- SHA-256 (FIPS 180-4, 4.1.2). -/
def sha256Kind : ShaKind := ⟨32, 64, (2, 13, 22), (6, 11, 25), (7, 18, 3), (17, 19, 10)⟩
/-- SHA-384 (FIPS 180-4, 4.1.3). -/
def sha384Kind : ShaKind := ⟨64, 80, (28, 34, 39), (14, 18, 41), (1, 8, 7), (19, 61, 6)⟩

/-- Rotation right of a `w`-bit number. -/
def rotr (w x n : Nat) : Nat := x >>> n ||| (x <<< (w - n)) % 2 ^ w

/-- Σ: three rotations. -/
def shaBig (k : ShaKind) (r : Nat × Nat × Nat) (x : Nat) : Nat :=
  rotr k.w x r.1 ^^^ rotr k.w x r.2.1 ^^^ rotr k.w x r.2.2

/-- σ: two rotations and a shift. -/
def shaSmall (k : ShaKind) (r : Nat × Nat × Nat) (x : Nat) : Nat :=
  rotr k.w x r.1 ^^^ rotr k.w x r.2.1 ^^^ x >>> r.2.2

/-- The message schedule: words are kept newest first. -/
def shaExpand (k : ShaKind) : Nat → List Nat → List Nat
  | 0, ws => ws
  | n + 1, ws =>
    let t := (shaSmall k k.small1 (ws.getD 1 0) + ws.getD 6 0 + shaSmall k k.small0 (ws.getD 14 0)
      + ws.getD 15 0) % 2 ^ k.w
    shaExpand k n (t :: ws)

/-- One round on the working variables a to h. -/
def shaRound (k : ShaKind) (v : List Nat) (kw : Nat × Nat) : List Nat :=
  match v with
  | [a, b, c, d, e, f, g, h] =>
    let ch := (e &&& f) ^^^ ((2 ^ k.w - 1 - e) &&& g)
    let maj := (a &&& b) ^^^ (a &&& c) ^^^ (b &&& c)
    let t1 := h + shaBig k k.bigE e + ch + kw.1 + kw.2
    let t2 := shaBig k k.bigA a + maj
    [(t1 + t2) % 2 ^ k.w, a, b, c, (d + t1) % 2 ^ k.w, e, f, g]
  | _ => v

/-- Cuts a byte string into big-endian words of `n` bytes. -/
def beWords (n : Nat) : Nat → Bytes → List Nat
  | 0, _ => []
  | c + 1, bs => leNat (bs.take n).reverse :: beWords n c (bs.drop n)

/-- One block. -/
def shaBlock (k : ShaKind) (ks : List Nat) (h : List Nat) (block : Bytes) : List Nat :=
  let ws := (shaExpand k (k.rounds - 16) (beWords (k.w / 8) 16 block).reverse).reverse
  let v := (ks.zip ws).foldl (shaRound k) h
  (h.zip v).map fun p => (p.1 + p.2) % 2 ^ k.w

/-- All blocks of a padded message. -/
def shaBlocks (k : ShaKind) (ks : List Nat) : Nat → List Nat → Bytes → List Nat
  | 0, h, _ => h
  | n + 1, h, bs => shaBlocks k ks n (shaBlock k ks h (bs.take (2 * k.w))) (bs.drop (2 * k.w))

/-- The padded message. -/
def shaPad (k : ShaKind) (bs : Bytes) : Bytes :=
  let blk := 2 * k.w
  let len := k.w / 4
  let z := (blk - (bs.length + 1 + len) % blk) % blk
  bs ++ [0x80#8] ++ List.replicate z 0 ++ (toLe len (8 * bs.length)).reverse

/-- A hash of the family from its initial value. -/
def shaRun (k : ShaKind) (ks h0 : List Nat) (bs : Bytes) : Bytes :=
  let p := shaPad k bs
  ((shaBlocks k ks (p.length / (2 * k.w)) h0 p).map fun w => (toLe (k.w / 8) w).reverse).flatten

/-- SHA-256, 32 bytes. -/
def sha256 (bs : Bytes) : Bytes :=
  shaRun sha256Kind ((shaK.take 64).map (· / 2 ^ 32)) ((shaH (shaPrimes.take 8)).map (· / 2 ^ 32)) bs

/-- SHA-384, 48 bytes. -/
def sha384 (bs : Bytes) : Bytes :=
  (shaRun sha384Kind shaK (shaH ((shaPrimes.drop 8).take 8)) bs).take 48

/-! ### ECDSA over P-384 -/

/-- The field prime of P-384. -/
def p384P : Nat := 2 ^ 384 - 2 ^ 128 - 2 ^ 96 + 2 ^ 32 - 1
/-- The order of P-384. -/
def p384N : Nat :=
  0xffffffffffffffffffffffffffffffffffffffffffffffffc7634d81f4372ddf581a0db248b0a77aecec196accc52973
/-- The coefficient b of P-384. -/
def p384B : Nat :=
  0xb3312fa7e23ee7e4988e056be3f82d19181d9c6efe8141120314088f5013875ac656398d8a2ed19d2a85c8edd3ec2aef
/-- The base point's coordinates. -/
def p384Gx : Nat :=
  0xaa87ca22be8b05378eb1c71ef320ad746e1d3b628ba79b9859f741e082542a385502f25dbf55296c3a545e3872760ab7
/-- The base point's coordinates. -/
def p384Gy : Nat :=
  0x3617de4a96262c6f5d9e98bf9292dc29f8f41dbd289a147ce9da3113b5f0b8c00a60b1ce1d7e819d7a431d7c90ea0e5f

/-- Extended Euclid on `(a, x), (b, y)` modulo `m`: the inverse of what `a` started as. -/
def egcdLoop (m : Nat) : Nat → Nat → Nat → Nat → Nat → Nat
  | 0, _, x, _, _ => x
  | fuel + 1, a, x, b, y =>
    if b = 0 then x else egcdLoop m fuel b y (a % b) ((x + (m - a / b % m) * y) % m)

/-- The inverse of `a` modulo a prime `m`. -/
def invMod (a m : Nat) : Nat := egcdLoop m 1200 (a % m) 1 m 0 % m

/-- Addition of affine points of P-384; `none` is the point at infinity. -/
def p384Add (s t : Option (Nat × Nat)) : Option (Nat × Nat) :=
  match s, t with
  | none, q => q
  | q, none => q
  | some (x1, y1), some (x2, y2) =>
    let p := p384P
    if x1 = x2 ∧ (y1 + y2) % p = 0 then none
    else
      let l := if x1 = x2 then (3 * x1 * x1 + (p - 3)) * invMod (2 * y1) p % p
        else (y2 + p - y1) * invMod ((x2 + p - x1) % p) p % p
      let x3 := (l * l + 2 * p - x1 - x2) % p
      some (x3, (l * ((x1 + p - x3) % p) + p - y1) % p)

/-- Scalar multiplication, bit by bit from the top. -/
def p384Mul (k : Nat) (q : Option (Nat × Nat)) : Nat → Option (Nat × Nat) → Option (Nat × Nat)
  | 0, acc => acc
  | b + 1, acc =>
    let d := p384Add acc acc
    p384Mul k q b (if bit k b then p384Add d q else d)

/-- A valid P-384 point (R485 check 4). -/
def p384Valid (x y : Nat) : Bool :=
  decide (x < p384P) && decide (y < p384P) &&
    y * y % p384P == (x * x * x + (p384P - 3) * x + p384B) % p384P

/-- ECDSA over P-384 with SHA-384 (R483); coordinates, r and s are 48-byte little-endian integers (R481). -/
def ecdsaVerify (key sig msg : Bytes) : Bool :=
  let x := fieldAt key 0 48
  let y := fieldAt key 48 48
  let r := fieldAt sig 0 48
  let s := fieldAt sig 48 48
  if !p384Valid x y || r == 0 || s == 0 || decide (p384N ≤ r) || decide (p384N ≤ s) then false
  else
    let e := leNat (sha384 msg).reverse
    let w := invMod s p384N
    let a := p384Mul (e * w % p384N) (some (p384Gx, p384Gy)) 384 none
    let b := p384Mul (r * w % p384N) (some (x, y)) 384 none
    match p384Add a b with
    | none => false
    | some (rx, _) => rx % p384N == r

end Sys2Proof.Machine
end

