-- ==== Sys2Proof/Machine/Micro.lean ====
section
/-! DEFINITION. Microprogram images and the step set (06_function_sequencer.md, R196 to R208). -/

namespace Sys2Proof.Machine

/-- An image's 58,176 bytes. -/
def imageBytes : MicroImage → Bytes
  | .zeros => List.replicate 58176 0
  | .factory => (List.range 58176).map Config.factoryByte
  | .written bs => bs

/-- A directory entry (table 6.10). -/
structure MicroEntry where
  number : Nat
  inputs : Nat
  inputFormat : Nat
  outputFormat : Nat
  firstStep : Nat
  steps : Nat
  firstConstant : Nat
  constants : Nat
deriving DecidableEq, Repr

/-- Directory entry `i` of an image. -/
def microEntry (bs : Bytes) (i : Nat) : MicroEntry :=
  let o := 64 + 16 * i
  { number := fieldAt bs o 1, inputs := fieldAt bs (o + 1) 1, inputFormat := fieldAt bs (o + 2) 1 % 8,
    outputFormat := fieldAt bs (o + 3) 1, firstStep := fieldAt bs (o + 4) 2, steps := fieldAt bs (o + 6) 2,
    firstConstant := fieldAt bs (o + 8) 2, constants := fieldAt bs (o + 10) 2 }

/-- The used directory entries: the first function_count of them. -/
def microEntries (bs : Bytes) : List MicroEntry := (List.range (fieldAt bs 6 2)).map (microEntry bs)

/-- Step word `i` of the steps region. -/
def microWord (bs : Bytes) (i : Nat) : Nat := fieldAt bs (832 + 4 * i) 4

/-- A function's step words. -/
def microSteps (bs : Bytes) (e : MicroEntry) : List Nat :=
  (List.range e.steps).map fun i => microWord bs (e.firstStep + i)

/-- The fields of a step word (table 6.6). -/
def stepOpcode (w : Nat) : Nat := bits w 31 26
/-- imm. -/
def stepImm (w : Nat) : Nat := bits w 9 0

/-- A function's effective step count (R181, R198). -/
def microEffective (bs : Bytes) (e : MicroEntry) : Nat :=
  ((microSteps bs e).map fun w => if stepOpcode w = 0x17 then builtinSteps (stepImm w) else 1).sum

/-- Bytes `lo` to `hi − 1` are all 0. -/
def zeroBytes (bs : Bytes) (lo hi : Nat) : Bool := ((bs.drop lo).take (hi - lo)).all (· == 0)

/-- W40 fields `lo` to `hi − 1` of 8 bytes from `base` have [63:40] clear (R123). -/
def w40Reserved (bs : Bytes) (base n : Nat) : Bool :=
  (List.range n).all fun i => fieldAt bs (base + 8 * i + 5) 3 == 0

/-- Check 3 of table 6.11. -/
def imageReserved (bs : Bytes) : Bool :=
  let fc := fieldAt bs 6 2
  let sc := fieldAt bs 8 2
  let cc := fieldAt bs 10 2
  let tc := fieldAt bs 12 1
  zeroBytes bs 13 16 && zeroBytes bs 24 64 &&
  (List.range fc).all (fun i => fieldAt bs (64 + 16 * i + 2) 1 / 8 == 0 && fieldAt bs (64 + 16 * i + 12) 4 == 0) &&
  zeroBytes bs (64 + 16 * fc) 832 &&
  (List.range sc).all (fun i => bits (microWord bs i) 13 10 == 0) &&
  zeroBytes bs (832 + 4 * sc) 33600 &&
  w40Reserved bs 33600 cc && zeroBytes bs (33600 + 8 * cc) 41792 &&
  w40Reserved bs 41792 (128 * tc) && zeroBytes bs (41792 + 1024 * tc) 58176

/-- Check 4; first_constant lies within the counted constants even where constant_count is 0 (DESIGN CHOICE, log entry 85). -/
def imageDirectory (bs : Bytes) : Bool :=
  let es := microEntries bs
  es.all (fun e => decide (16 ≤ e.number) && decide (e.number ≤ 63) && decide (1 ≤ e.inputs) && decide (e.inputs ≤ 3) &&
    decide (e.outputFormat ≤ 1) && decide (1 ≤ e.steps) && decide (e.steps ≤ 128) && decide (e.constants ≤ 64) &&
    decide (e.firstStep + e.steps ≤ fieldAt bs 8 2) && decide (e.firstConstant + e.constants ≤ fieldAt bs 10 2)) &&
  decide (es.map (·.number)).Nodup

/-- Check 5 for one step; an imm that the opcode does not use may be anything (DESIGN CHOICE, log entry 85). -/
def stepValid (tables : Nat) (e : MicroEntry) (w : Nat) : Bool :=
  let op := stepOpcode w
  let imm := stepImm w
  decide (1 ≤ op) && decide (op ≤ 0x18) &&
  (if op = 0x06 then decide (imm < e.constants)
   else if op = 0x0E then decide (imm < tables)
   else if op = 0x17 then decide (1 ≤ imm) && decide (imm ≤ 9)
   else if op = 0x18 then decide (imm ≤ 1)
   else true)

/-- Check 6. -/
def stepsEnd (e : MicroEntry) (ws : List Nat) : Bool :=
  ws.dropLast.all (fun w => stepOpcode w != 0x18) &&
  match ws.getLast? with
  | some w => stepOpcode w == 0x18 && stepImm w == e.outputFormat
  | none => false

/-- The image's CRC with its own field taken as 0 (table 6.9). -/
def imageCrc (bs : Bytes) : Nat := (crc32 (overwrite bs 20 [0, 0, 0, 0])).toNat

/-- The first check of table 6.11 that written bytes fail, 0 when they pass (R200). Step words that belong to no function are
not checked (DESIGN CHOICE, log entry 85). -/
def imageCheck (bs : Bytes) : Nat :=
  if !(fieldAt bs 0 4 == 0x4D494352 && fieldAt bs 4 2 == 1) then 1
  else if !(decide (fieldAt bs 6 2 ≤ 48) && decide (fieldAt bs 8 2 ≤ 8192) && decide (fieldAt bs 10 2 ≤ 1024) &&
      decide (fieldAt bs 12 1 ≤ 16)) then 2
  else if !imageReserved bs then 3
  else if !imageDirectory bs then 4
  else if !(microEntries bs).all (fun e => (microSteps bs e).all (stepValid (fieldAt bs 12 1) e)) then 5
  else if !(microEntries bs).all (fun e => stepsEnd e (microSteps bs e)) then 6
  else if !(microEntries bs).all (fun e => decide (microEffective bs e ≤ 256)) then 7
  else if imageCrc bs != fieldAt bs 20 4 then 8
  else 0

/-- The check an image fails: the factory image is valid (R203). -/
def MicroImage.fails : MicroImage → Nat
  | .zeros => 1
  | .factory => 0
  | .written bs => imageCheck bs

/-- Image Digest (R207). -/
def imageDigest (m : MicroImage) : Nat := leNat (sha256 (imageBytes m))

/-- The directory entry of a function number in the loaded image; no image has functions but 16 to 63 (R180). -/
def Fseq.entry (q : Fseq) (n : Nat) : Option MicroEntry :=
  match q.loaded with
  | none => none
  | some m => if 16 ≤ n ∧ n ≤ 63 then (microEntries (imageBytes m)).find? (·.number == n) else none

/-- The parts of an image that a function uses: its entry, steps, constants and seed tables (R206); none where it is absent. -/
def functionParts (bs : Bytes) (n : Nat) : Option (List Bytes) :=
  (((microEntries bs).zip (List.range 48)).find? (·.1.number == n)).map fun (e, i) =>
    [slice bs (64 + 16 * i) 16, slice bs (832 + 4 * e.firstStep) (4 * e.steps),
      slice bs (33600 + 8 * e.firstConstant) (8 * e.constants)] ++
    ((microSteps bs e).filter (stepOpcode · == 0x0E)).map fun w => slice bs (41792 + 1024 * stepImm w) 1024

/-- The parts of an image that functions 60 to 63 use, in the order of their numbers (R206). -/
def heirloomParts (bs : Bytes) : List (Option (List Bytes)) := [60, 61, 62, 63].map (functionParts bs)

/-- Heirloom Available (R206). -/
def Fseq.heirloom (q : Fseq) : Bool :=
  match q.loaded with
  | none => false
  | some .factory => true
  | some .zeros => false
  | some (.written bs) => heirloomParts bs == heirloomParts (imageBytes .factory)

/-- Function Info (0x6002:01 to :40) of function number `n`: the Heirloom set is numbers 60 to 63, whatever Heirloom
Available reads (R206; log entry 72). -/
def Fseq.info (q : Fseq) (n : Nat) : Nat :=
  if 1 ≤ n ∧ n ≤ 9 then builtinSteps n * 65536 + 1 * 256 + 1
  else match q.loaded, q.entry n with
    | some m, some e =>
      microEffective (imageBytes m) e * 65536 + e.inputs * 256 + (if 60 ≤ n then 3 else 2)
    | _, _ => 0

/-! ### Running a microprogram -/

/-- Lane state of a run (R196): registers and predicate; `odd` counts the non-canonical W40 values read (R120). -/
structure MicroState where
  regs : List W40
  p : Bool
  odd : Nat
deriving DecidableEq, Repr

/-- 2^e·m of a nonzero finite value: exponent and significand as W40 integers of table 6.7. -/
def splitW40 (x : W40) : Option (Int × W40) :=
  match w40Num x with
  | .fin m e => if m = 0 then none else
    let k := (Nat.log2 m.natAbs : Int) + e
    some (k, w40Of (.fin m (e - k)))
  | _ => none

/-- An integer value of a W40 number, none when it is no integer. -/
def w40Int (x : W40) : Option Int :=
  match w40Num x with
  | .fin m e => if 0 ≤ e then some (m * 2 ^ (min e 8192).toNat) else
    if floorInt m e = rintInt m e ∧ (Num.fin (floorInt m e) 0).eq (.fin m e) then some (floorInt m e) else none
  | _ => none

/-- Applies an integer rounding to a finite value; others pass. -/
def w40Integral (f : Int → Int → Int) (x : W40) : W40 :=
  match w40Num x with
  | .fin m e => if 0 ≤ e then x else w40OfInt (f m e)
  | _ => x

/-- The W40 value of an image field as a step reads it (R120). -/
def imageW40 (bs : Bytes) (off : Nat) : W40 := w40Of (w40Num (BitVec.ofNat 40 (fieldAt bs off 5)))

/-- One step of table 6.7 other than OUT; IDX takes the fraction bits as they stand, of a zero, an infinity or a NaN too
(log entry 73). -/
def microStep (bs : Bytes) (e : MicroEntry) (st : MicroState) (w : Nat) : MicroState :=
  let reg := fun i => st.regs.getD i 0
  let a := reg (bits w 21 18)
  let b := reg (bits w 17 14)
  let imm := stepImm w
  let put := fun v => { st with regs := st.regs.set (bits w 25 22) v }
  let load := fun off =>
    { st with regs := st.regs.set (bits w 25 22) (imageW40 bs off)
              odd := st.odd + if w40Noncanonical (BitVec.ofNat 40 (fieldAt bs off 5)) then 1 else 0 }
  let one : Num := .fin 1 0
  match stepOpcode w with
  | 0x01 => put (w40Add a b)
  | 0x02 => put (w40Sub a b)
  | 0x03 => put (w40Mul a b)
  | 0x04 => put (w40Neg a)
  | 0x05 => put (w40Of (w40Num a).abs)
  | 0x06 => load (33600 + 8 * (e.firstConstant + imm))
  | 0x07 => put a
  | 0x08 => put (match splitW40 a with | some (k, _) => w40OfInt k | none => w40Nan)
  | 0x09 => put (match splitW40 a with | some (_, m) => m | none => w40Nan)
  | 0x0A => put (match w40Int b with | some k => w40Scale a (max (-20000) (min k 20000)) | none => w40Nan)
  | 0x0B => put (w40Integral rintInt a)
  | 0x0C => put (w40Integral floorInt a)
  | 0x0D => put (w40OfInt (bits a.toNat 25 19))
  | 0x0E => match w40Int a with
      | some i => if 0 ≤ i ∧ i ≤ 127 then load (41792 + 8 * (128 * imm + i.toNat)) else put w40Nan
      | none => put w40Nan
  | 0x0F => { st with p := w40Lt a b }
  | 0x10 => { st with p := w40Le a b }
  | 0x11 => { st with p := w40Eq a b }
  | 0x12 => put (if st.p then a else b)
  | 0x13 => put (w40Add b (w40Mul b (w40Sub w40One (w40Mul a b))))
  | 0x14 => put (w40Mul b (w40Sub (kRat 3 2) (w40Mul (w40Mul (w40Scale a (-1)) b) b)))
  | 0x15 => put (w40Of ((w40Num b).add ((w40Num b).mul (one.sub ((w40Num a).mul (w40Num b))))))
  | 0x16 => put (w40Of ((w40Num b).add (((w40Num b).mul (.fin 1 (-1))).mul
      (one.sub ((w40Num a).mul ((w40Num b).mul (w40Num b)))))))
  | 0x17 => put ((builtin imm a).getD w40Nan)
  | _ => st

/-- A microprogram function of one image on its inputs: the W40 result, or the FP32 result converted exactly, and the
non-canonical values it read. -/
def runMicro (bs : Bytes) (e : MicroEntry) (inputs : List W40) : W40 × Nat :=
  let ws := microSteps bs e
  let st : MicroState := { regs := inputs ++ List.replicate (16 - inputs.length) 0, p := false, odd := 0 }
  let fin := ws.dropLast.foldl (microStep bs e) st
  match ws.getLast? with
  | some w =>
    let r := fin.regs.getD (bits w 21 18) 0
    (if stepImm w = 0 then r else f32ToW40 (w40ToF32 r), fin.odd)
  | none => (w40Nan, fin.odd)

/-- A one-input activation by function number, on an FP32 value (R190, R192), with the non-canonical values it read. -/
def Fseq.activation (q : Fseq) (n : Nat) (x : F32) : W40 × Nat :=
  match builtin n (f32ToW40 x) with
  | some y => (y, 0)
  | none =>
    match q.loaded, q.entry n with
    | some m, some e => runMicro (imageBytes m) e [f32ToW40 x]
    | _, _ => (w40Nan, 0)

end Sys2Proof.Machine
end

