-- ==== Sys2Proof/Machine/Scg.lean ====
section
/-! DEFINITION. The counter-based generator SCG-128 and the values formed from it
(09_sampling_and_logprob.md, R272 to R277). -/

namespace Sys2Proof.Machine

/-- The rotation amounts RA of R273. -/
def scgRA : List Nat := [13, 7, 19, 3, 11, 17, 5, 21, 9, 15]
/-- The rotation amounts RB of R273. -/
def scgRB : List Nat := [8, 20, 12, 28, 4, 24, 16, 12, 20, 8]

/-- The four words of the generator's state. -/
structure ScgState where
  x0 : Word32
  x1 : Word32
  x2 : Word32
  x3 : Word32
deriving DecidableEq, Repr

/-- One round of R273. -/
def scgRound (k0 k1 : Word32) (s : ScgState) (r : Nat) : ScgState :=
  let x0 := s.x0 + s.x1
  let x1 := s.x1.rotateLeft (scgRA.getD r 0) ^^^ x0
  let x2 := s.x2 + s.x3
  let x3 := s.x3.rotateLeft (scgRB.getD r 0) ^^^ x2
  { x0 := x0 + (if r % 2 = 1 then k1 else k0)
    x1 := x3
    x2 := x2 + BitVec.ofNat 32 ((r + 1) * 0x9E3779B9)
    x3 := x1 }

/-- SCG-128 (R273). -/
def scg128 (seed step : Word64) (pos tok dom : Nat) : ScgState :=
  let k0 := seed.setWidth 32
  let k1 := (seed >>> 32).setWidth 32
  let init : ScgState :=
    { x0 := BitVec.ofNat 32 pos + k0
      x1 := step.setWidth 32 + k1
      x2 := BitVec.ofNat 32 (dom * 2 ^ 20 + tok)
      x3 := (step >>> 32).setWidth 32 }
  (List.range 10).foldl (scgRound k0 k1) init

/-- The domains of table 9.2. -/
def domRace : Nat := 1
/-- Acceptance uniform. -/
def domAccept : Nat := 2
/-- Residual key. -/
def domResidual : Nat := 3
/-- Heirloom uniform. -/
def domHeirloom : Nat := 4

/-- The uniform of an evaluation, exactly in W40 (R275). -/
def scgUniform (s : ScgState) : W40 := w40Of (.fin (2 * (s.x0.toNat / 256 : Nat) + 1) (-25))

/-- The key −LN(−LN(U)) of a token in a domain (R277, R342). -/
def scgKey (seed step : Word64) (pos tok dom : Nat) : W40 :=
  w40Neg (fsLn (w40Neg (fsLn (scgUniform (scg128 seed step pos tok dom)))))

/-- The Heirloom uniform, exactly in FP32 (R285). -/
def scgHeirloomUniform (s : ScgState) : F32 := f32Of (.fin (s.x0.toNat / 256 : Nat) (-24))

end Sys2Proof.Machine
end

