-- ==== Sys2Proof/Machine/RowScore.lean ====
section
/-! DEFINITION. From hidden state to brick values: intake (R143 to R151), lane sums (R115 to R117, R137), the score
pipeline (R210 to R233), the critic head (R192) and the transposed pass (R371 to R375). -/

namespace Sys2Proof.Machine

/-! ### Intake -/

/-- Sum of exact values. -/
def numSum (xs : List Num) : Num := xs.foldl Num.add (.fin 0 0)

/-- RNE_FP32 of an exact value divided by a count. -/
def meanF32 (x : Num) (d : Nat) : F32 := BitVec.ofNat 32 (divRound fmtF32 x (.fin d 0))

/-- A value below 2⁻¹²⁶ in magnitude becomes +0 (table 4.9). -/
def flushSub (x : F32) : F32 := if x.toNat % 2 ^ 31 < 0x00800000 then 0 else x

/-- An FP32 input or result of the mode: subnormals become +0 in Heirloom mode (table 4.9). -/
def modeF32 (heirloom : Bool) (x : F32) : F32 := if heirloom then flushSub x else x

/-- What the intake needs of a slot: norm kind, epsilon, gain and bias (empty when absent). -/
structure NormParams where
  kind : Nat
  eps : F32
  gain : List F32
  bias : List F32
deriving DecidableEq, Repr

/-- A normalised row, or the row status of table 5.2. -/
structure Normalised where
  status : Nat
  values : List F32
deriving DecidableEq, Repr

/-- Passes 1 to 3 of R144 with the outcomes of table 5.2; `heirloom` flushes every FP32 input and result (table 4.9). -/
def normalise (heirloom : Bool) (p : NormParams) (input : List F32) : Normalised :=
  let fl := modeF32 heirloom
  let zeros := input.map fun _ => (0 : F32)
  if !input.all f32IsFinite then { status := 0x0501, values := zeros }
  else
    let x := input.map fun v => fl (f32Of (f32Num v))
    if p.kind = 0 then { status := 0, values := x }
    else
      let d := x.length
      let mu : F32 := if p.kind = 2 then fl (meanF32 (numSum (x.map f32Num)) d) else 0
      let dev := if p.kind = 2 then x.map fun v => fl (f32Sub v mu) else x
      let var := fl (meanF32 (numSum (dev.map fun v => (f32Num v).mul (f32Num v))) d)
      if !dev.all f32IsFinite || !f32IsFinite var then { status := 0x0502, values := zeros }
      else
        let r := fl (rsqrtF32 (fl (f32Add var (fl p.eps))))
        let scaled := (dev.zip p.gain).map fun (v, g) => fl (f32Mul (fl (f32Mul v r)) (fl g))
        let y := if p.bias.isEmpty then scaled else (scaled.zip p.bias).map fun (v, b) => fl (f32Add v (fl b))
        { status := 0, values := y }

/-- The smallest integer not below −126 with m ≤ limit·2^e (R151, R374). -/
def scaleExp (limit : Nat) (m : F32) : Int :=
  match (List.range 260).find? fun (i : Nat) => (f32Num m).le (.fin limit ((i : Int) - 126)) with
  | some i => (i : Int) - 126
  | none => 133

/-- The largest magnitude among finite values, +0 when there is none. -/
def maxAbs (ys : List F32) : F32 :=
  ys.foldl (fun m y => if f32IsFinite y && (f32Num m).lt (f32Num y).abs then f32Of (f32Num y).abs else m) 0

/-- 2^e as FP32. -/
def f32Pow2 (e : Int) : F32 := f32Of (.fin 1 e)

/-- The broadcast operand of a normalised row (R150, R151); `format` is the head's Weight Format. -/
def operandOf (format : Nat) (ys : List F32) : Operand :=
  if format = 1 then { values := ys.map fun y => toF32 fmtBF16 (narrow fmtBF16 y), scale := f32One }
  else
    let e := scaleExp 448 (maxAbs ys)
    { values := ys.map fun y =>
        if f32IsFinite y then toF32 fmtE4M3 (narrow fmtE4M3 (f32Of ((f32Num y).mul (.fin 1 (-e))))) else f32Nan
      scale := f32Pow2 e }

/-- The operand of a row that ended at intake: all +0 (table 5.2), with row scale 1.0 (DESIGN CHOICE, log entry 86). -/
def zeroOperand (d : Nat) : Operand := { values := List.replicate d 0, scale := f32One }

/-! ### Lane sums -/

/-- Exact sum of products. -/
def dotExact (ws xs : List F32) : Num :=
  (ws.zip xs).foldl (fun acc p => acc.add ((f32Num p.1).mul (f32Num p.2))) (.fin 0 0)

/-- One accumulation cycle of a BF16 head (R115). -/
def accBF16 (acc : F32) (ws xs : List F32) : F32 := f32Of ((f32Num acc).add (dotExact ws xs))

/-- One accumulation cycle of an E4M3 head (R116); `sigma` is tile scale × row scale, rounded. -/
def accE4M3 (sigma : F32) (acc : F32) (ws xs : List F32) : F32 :=
  f32Of ((f32Num acc).add ((f32Num sigma).mul (dotExact ws xs)))

/-- One accumulation cycle of Heirloom mode: eight roundings in ascending hidden index (table 4.9). -/
def accHeirloom (acc : F32) (ws xs : List F32) : F32 :=
  (ws.zip xs).foldl
    (fun a p => flushSub (f32Of ((f32Num a).add ((f32Num (flushSub p.1)).mul (f32Num (flushSub p.2)))))) acc

/-- Splits a list into pieces of `n`; `fuel` bounds the pieces. -/
def chunksOf {α : Type} (n : Nat) : Nat → List α → List (List α)
  | 0, _ => []
  | fuel + 1, xs => if xs.isEmpty then [] else xs.take n :: chunksOf n fuel (xs.drop n)

/-- One tile's accumulation for a row in a lane (R115, R116, R156): 8 cycles in ascending hidden index; `sigma` is tile
scale × row scale. -/
def tileSum (format : Nat) (heirloom : Bool) (sigma acc : F32) (ws xs : List F32) : F32 :=
  let n := if format = 1 then 8 else 16
  ((chunksOf n ws.length ws).zip (chunksOf n ws.length xs)).foldl (fun acc c =>
    if format ≠ 1 then accE4M3 sigma acc c.1 c.2 else if heirloom then accHeirloom acc c.1 c.2 else accBF16 acc c.1 c.2) acc

/-- A lane's brick score (R155, R156): weights and operand in ascending hidden index; `scales` one per tile. -/
def laneScore (format : Nat) (heirloom : Bool) (scales : List F32) (op : Operand) (ws : List F32) : F32 :=
  let n := if format = 1 then 64 else 128
  let tiles := (chunksOf n ws.length ws).zip (chunksOf n ws.length op.values)
  (tiles.zip (List.range tiles.length)).foldl
    (fun acc c => tileSum format heirloom (f32Mul (scales.getD c.2 0) op.scale) acc c.1.1 c.1.2) 0

/-- A lane's weights of one tile of a slot's image (table 5.4). -/
def tileLane (weights : List Host.Cell) (format frame lane : Nat) : List F32 :=
  if format = 1 then
    (List.range 64).map fun j => toF32 fmtBF16 (leNat (readMem weights (524288 * frame + 128 * lane + 2 * j) 2))
  else
    (List.range 128).map fun j => toF32 fmtE4M3 (leNat (readMem weights (524288 * frame + 128 * lane + j) 1))

/-- A lane's weights of the k-th brick of a slot's image (table 5.4). -/
def laneWeights (weights : List Host.Cell) (format width k lane : Nat) : List F32 :=
  let tiles := if format = 1 then width / 64 else width / 128
  (List.range tiles).flatMap fun t => tileLane weights format (k * tiles + t) lane

/-! ### Score pipeline -/

/-- Reads the fields of table 7.2. -/
def ScoreParams.parse (bs : Bytes) : ScoreParams :=
  let f := fun o => (BitVec.ofNat 32 (fieldAt bs o 4) : F32)
  let fl := fieldAt bs 44 1
  { softCap := f 0, softCap2 := f 4, temperature := f 8, repetition := f 12, presence := f 16, frequency := f 20,
    topK := fieldAt bs 24 4, minP := f 28, topP := f 32, biasCount := fieldAt bs 36 2, bannedCount := fieldAt bs 38 2,
    allowedCount := fieldAt bs 40 4, useBitmask := bit fl 1, useAutomaton := bit fl 0,
    reservedClear := fl / 4 == 0 && zeroBytes bs 45 48 && zeroBytes bs 80 128,
    biasAddr := fieldAt bs 48 8, allowedAddr := fieldAt bs 56 8, bannedAddr := fieldAt bs 64 8,
    bitmaskAddr := fieldAt bs 72 8 }

/-- The value is 0, or finite and between two FP32 bounds. -/
def f32Within (lo hi x : F32) : Bool := f32IsFinite x && f32Le lo x && f32Le x hi

/-- Every field in its range and every used address aligned (R215). -/
def ScoreParams.valid (p : ScoreParams) : Bool :=
  let cap := fun c => f32Eq c 0 || f32Within 0x3F800000 0x47800000 c
  cap p.softCap && cap p.softCap2 && (f32Eq p.temperature 0 || f32Within 0x3B800000 0x43800000 p.temperature) &&
  f32Within 0x3D800000 0x41800000 p.repetition && f32Within 0xC2800000 0x42800000 p.presence &&
  f32Within 0xC2800000 0x42800000 p.frequency && decide (p.topK ≤ 1048576) && f32Within 0 0x3F800000 p.minP &&
  f32Lt 0 p.topP && f32Le p.topP 0x3F800000 && decide (p.biasCount ≤ 1024) && decide (p.bannedCount ≤ 4096) &&
  decide (p.allowedCount ≤ 65536) && p.reservedClear &&
  (p.biasCount == 0 || p.biasAddr % 64 == 0) && (p.allowedCount == 0 || p.allowedAddr % 64 == 0) &&
  (p.bannedCount == 0 || p.bannedAddr % 64 == 0) && (!p.useBitmask || p.bitmaskAddr % 512 == 0)

/-- The row is greedy (R228). -/
def ScoreParams.greedy (p : ScoreParams) : Bool := f32Eq p.temperature 0

/-- A histogram row (R256). -/
def ScoreParams.histogram (p : ScoreParams) : Bool :=
  p.topK != 0 || f32Lt 0 p.minP || f32Lt p.topP f32One

/-- A windowed row (R264). -/
def ScoreParams.windowed (p : ScoreParams) : Bool := p.histogram && (p.topK == 0 || decide (4096 < p.topK))

/-- The local list's length (table 8.2). -/
def ScoreParams.listLength (p : ScoreParams) : Nat :=
  if !p.histogram then 64 else if p.topK == 0 || decide (4096 < p.topK) then 4096 else p.topK

/-- Strictly ascending and below the vocabulary size. -/
def ascendingBelow (v : Nat) : List Nat → Bool
  | [] => true
  | [t] => decide (t < v)
  | t :: u :: ts => decide (t < u) && ascendingBelow v (u :: ts)

/-- Whether a row's lists obey R220, given the words' token fields and the reserved bits found. -/
def listsValid (v : Nat) (words : List (List Nat)) : Bool :=
  words.all fun ws => ws.all (fun w => w / 2 ^ 20 == 0) && ascendingBelow v (ws.map (· % 2 ^ 20))

/-- The pipeline's inputs for one row and slot. -/
structure PipeRow where
  params : ScoreParams
  second : Bool
  lists : RowLists
  /-- history counts h > 0 by token (R224) -/
  counts : List (Nat × Nat)
  floor : F32
  heirloom : Bool
deriving DecidableEq, Repr

/-- An FP32 input or result of the row's mode: subnormals become +0 in Heirloom mode (table 4.9). -/
def PipeRow.fl (p : PipeRow) (x : F32) : F32 := modeF32 p.heirloom x

/-- Stage 1 (R223). -/
def softCap (p : PipeRow) (x c : F32) : F32 :=
  if f32Eq c 0 || f32IsNan x || x == f32NegInf then x
  else p.fl (f32Mul c (p.fl (tanhF32 (p.fl (f32Div x c)))))

/-- Stage 3 (R223) for h positions. -/
def penalise (p : PipeRow) (h : Nat) (s : F32) : F32 :=
  let q := p.params
  let a := p.fl (if f32Lt 0 s then f32Div s q.repetition else f32Mul s q.repetition)
  let b := p.fl (f32Sub a (p.fl q.presence))
  p.fl (f32Sub b (p.fl (f32Mul (p.fl q.frequency) (f32OfInt h))))

/-- Table 4.5. -/
def clampWindow (x : F32) : F32 :=
  if f32IsNan x || x == f32NegInf then x
  else if f32Lt 0x45000000 x then 0x45000000
  else if f32Lt x 0xC5000000 then 0xC5000000
  else x

/-- The values an entry leaves stages 1 and 2 with, and the two paths' values after stage 6 (R223). -/
structure Piped where
  capped : F32
  biased : F32
  sUnclamped : F32
  rUnclamped : F32
  s : F32
  r : F32
deriving DecidableEq, Repr

/-- Stages 2 to 6 for a value that stage 1 gave (R223). -/
def pipeFrom (p : PipeRow) (allowed : Bool) (token : Nat) (c : F32) : Piped :=
  let q := p.params
  let (s2, r2) := match lookupKey p.lists.bias token with
    | some beta =>
      if beta == f32NegInf then (f32NegInf, f32NegInf)
      else if c == f32NegInf then (c, c) else (p.fl (f32Add c (p.fl beta)), c)
    | none => (c, c)
  let h := (lookupKey p.counts token).getD 0
  let s3 := if 0 < h ∧ s2 ≠ f32NegInf then penalise p h s2 else s2
  let s4 := if allowed then s3 else f32NegInf
  let s5 := if q.greedy || s4 == f32NegInf then s4 else p.fl (f32Div s4 q.temperature)
  { capped := c, biased := s2, sUnclamped := s5, rUnclamped := r2, s := clampWindow s5, r := clampWindow r2 }

/-- Stages 1 to 6 for one entry (R223). -/
def pipe (p : PipeRow) (allowed : Bool) (token : Nat) (a0 : F32) : Piped :=
  pipeFrom p allowed token
    (softCap p (p.fl (f32Of (f32Num a0))) (if p.second then p.params.softCap2 else p.params.softCap))

/-! ### Stages 2 to 6 backwards -/

/-- An FP32 value by its place in ascending order, 0 at +0: no −0, nothing with exponent 0 but +0 (R112, R113). -/
def f32At (i : Int) : F32 :=
  if i.natAbs < 2 ^ 23 then 0 else BitVec.ofNat 32 (i.natAbs + if i < 0 then 2 ^ 31 else 0)

/-- The place of an FP32 value: `f32At` of it is the value again. -/
def f32Place (x : F32) : Int := if x.toNat < 2 ^ 31 then x.toNat else 2 ^ 31 - (x.toNat : Int)

/-- The least place from `lo` to `hi` at which a test that never turns false again holds; `hi` where it never does. -/
def leastAt (test : Int → Bool) : Nat → Int → Int → Int
  | 0, lo, _ => lo
  | fuel + 1, lo, hi =>
    let mid := (lo + hi) / 2
    if hi ≤ lo then lo else if test mid then leastAt test fuel lo mid else leastAt test fuel (mid + 1) hi

/-- The places of the values, −inf apart, that stage 1 can give: up to soft_cap on either side where that is not 0 (R223). -/
def PipeRow.capPlaces (p : PipeRow) : Int × Int :=
  if f32Eq p.params.softCap 0 then (-0x7F7FFFFF, 0x7F800000) else (-(f32Place p.params.softCap), f32Place p.params.softCap)

/-- The places of the stage 1 values that stages 2 to 6 take to the sampling value `s`: they keep the order, so the values
lie from the first place to before the second. -/
def PipeRow.places (p : PipeRow) (token : Nat) (s : F32) : Int × Int :=
  let at_ := fun (i : Int) => (pipeFrom p true token (f32At i)).s
  let (least, most) := p.capPlaces
  let low := leastAt (fun i => f32Le s (at_ i)) 33 least (most + 1)
  (low, leastAt (fun i => f32Lt s (at_ i)) 33 low (most + 1))

/-- The value among places from the first to before the second that `free` picks. -/
def placePick (places : Int × Int) (free : Nat) : F32 :=
  f32At (places.1 + (free % max 1 (places.2 - places.1).toNat : Nat))

/-- The raw value of a token with sampling value `s`: where several lead to it, the one that `free` picks (R287; log entry
11). -/
def PipeRow.rawFrom (p : PipeRow) (token : Nat) (s : F32) (free : Nat) : F32 :=
  clampWindow (placePick (p.places token s) free)

/-- A finite raw value of a row, of those stage 1 can give the one that `free` picks. -/
def PipeRow.rawAny (p : PipeRow) (free : Nat) : F32 := clampWindow (placePick (p.capPlaces.1, p.capPlaces.2 + 1) free)

/-- A −inf bias entry masks the token in both paths (R223). -/
def PipeRow.rawBiased (p : PipeRow) (token : Nat) : Bool := lookupKey p.lists.bias token == some f32NegInf

/-- Sampling classes of table 7.4. -/
inductive SampleClass where
  | candidate | masked | flushed | dropped
deriving DecidableEq, Repr

/-- The sampling class of an entry after stage 6 (table 7.4; Heirloom mode omits stage 7, R240). -/
def sampleClass (p : PipeRow) (s : F32) : SampleClass :=
  if f32IsNan s then .dropped
  else if s == f32NegInf then .masked
  else if !p.heirloom && f32Lt s p.floor then .flushed
  else .candidate

/-- The fixed tree of R232 over the lanes from `lo`, 2^depth of them; lanes no entry names are +0. -/
def laneTree (v : List (Nat × W40)) : Nat → Nat → W40
  | 0, lo => (lookupKey v lo).getD w40Zero
  | depth + 1, lo =>
    let mid := lo + 2 ^ depth
    match v.filter (fun e => decide (e.1 < mid)), v.filter (fun e => decide (mid ≤ e.1)) with
    | [], [] => w40Zero
    | l, r => w40Add (laneTree l depth lo) (laneTree r depth mid)

/-- lane_tree of a brick's contributions by lane (R232). -/
def laneSum (v : List (Nat × W40)) : W40 := laneTree v 12 0

/-- Numbers of entries for which a test holds. -/
def countIf {α : Type} (f : α → Bool) (xs : List α) : Nat := (xs.filter f).length

/-- One slot's values of one brick for one row (R230 to R233): `scores` are (token, brick score) within the
vocabulary; `key` gives a token's race key (R277, R278; 0 in Heirloom mode). -/
def slotBrick (p : PipeRow) (allowed : Nat → Bool) (key : Nat → W40) (scores : List (Nat × F32)) : SlotBrick :=
  let piped := scores.map fun (t, a) => (t, pipe p (allowed t) t a)
  let cands := piped.filter fun e => sampleClass p e.2.s == .candidate
  let lives := piped.filter fun e => f32IsFinite e.2.r
  let er := lives.map fun e => (e.1 % 4096, fsExp (f32ToW40 e.2.r), e.2.r)
  { part :=
      { zs := laneSum (cands.map fun e => (e.1 % 4096, fsExp (f32ToW40 e.2.s)))
        zr := laneSum (er.map fun e => (e.1, e.2.1))
        hr := laneSum (er.map fun e => (e.1, w40Mul e.2.1 (f32ToW40 e.2.2)))
        kd := w40Zero
        candidates := cands.length
        masked := countIf (fun e => sampleClass p e.2.s == .masked) piped
        flushed := countIf (fun e => sampleClass p e.2.s == .flushed) piped
        dropped := countIf (fun e => sampleClass p e.2.s == .dropped) piped
        rawMasked := countIf (fun e => e.2.r == f32NegInf) piped
        rawDropped := countIf (fun e => f32IsNan e.2.r) piped
        gap := 0 }
    entries := (piped.filter fun e => sampleClass p e.2.s == .candidate || f32IsFinite e.2.r).map fun e =>
      { token := e.1
        s := if sampleClass p e.2.s == .candidate then some e.2.s else none
        r := if f32IsFinite e.2.r then some e.2.r else none
        key := if sampleClass p e.2.s == .candidate then key e.1 else w40Zero } }

/-- The entry of a token. -/
def findEntry (es : List Entry) (t : Nat) : Option Entry := es.find? (·.token == t)

/-- Adds the KL sums of R290 to the primary's partial. -/
def withKl (main second : SlotBrick) : SlotBrick :=
  let live := main.entries.filterMap fun e => e.r.map fun r => (e.token, r)
  let d := live.filterMap fun (t, r) =>
    match (findEntry second.entries t).bind (·.r) with
    | some r2 => some (t % 4096, w40Mul (fsExp (f32ToW40 r)) (w40Sub (f32ToW40 r) (f32ToW40 r2)))
    | none => none
  { main with part := { main.part with kd := laneSum d, gap := live.length - d.length } }

/-! ### Critic head (R192) -/

/-- A pairwise FP32 tree over 2^depth values, lower lanes left; missing values are +0. -/
def f32Tree : Nat → List F32 → F32
  | 0, xs => xs.headD 0
  | depth + 1, xs => if xs.isEmpty then 0 else f32Add (f32Tree depth (xs.take (2 ^ depth))) (f32Tree depth (xs.drop (2 ^ depth)))

/-- The critic value from the two projections' lanes (R192). -/
def criticValue (act : F32 → W40) (outBias : F32) (wo a b : List F32) : F32 :=
  let p := (wo.zip (a.zip b)).map fun (w, x, y) => f32Mul w (f32Of ((w40Num (act x)).mul (f32Num y)))
  f32Add outBias (f32Tree 12 p)

end Sys2Proof.Machine
end

