-- ==== Sys2Proof/Machine/Select.lean ====
section
/-! DEFINITION. Combination of brick partials (R234, R314), selection (R242 to R264), the race (R277 to R285),
log-probabilities (R286 to R292) and the chain test (R341, R342), as functions of combined values. -/

namespace Sys2Proof.Machine

/-! ### Orders -/

/-- Merges two lists each in order; `fuel` bounds the length. -/
def mergeBy {α : Type} (before : α → α → Bool) : Nat → List α → List α → List α
  | 0, xs, ys => xs ++ ys
  | _ + 1, [], ys => ys
  | _ + 1, xs, [] => xs
  | fuel + 1, x :: xs, y :: ys =>
    if before y x then y :: mergeBy before fuel (x :: xs) ys else x :: mergeBy before fuel xs (y :: ys)

/-- Sorts a list of at most 2^fuel members, keeping equals in place. -/
def sortBy {α : Type} (before : α → α → Bool) : Nat → List α → List α
  | 0, xs => xs
  | fuel + 1, xs =>
    if xs.length ≤ 1 then xs
    else
      let h := xs.length / 2
      mergeBy before xs.length (sortBy before fuel (xs.take h)) (sortBy before fuel (xs.drop h))

/-- The selection order on (score, token) (R242). -/
def ranksBefore (s1 : F32) (t1 : Nat) (s2 : F32) (t2 : Nat) : Bool :=
  f32Lt s2 s1 || (f32Eq s1 s2 && decide (t1 < t2))

/-- Petals in selection order. -/
def Petal.before (x y : Petal) : Bool := ranksBefore x.score x.token y.score y.token

/-- Petals sorted into selection order. -/
def sortPetals (ps : List Petal) : List Petal := sortBy Petal.before 32 ps

/-- The void petal of R250. -/
def voidPetal (second : Bool) : Petal :=
  { void := true, second := second, bucket := 0, token := 0xFFFFF, score := f32NegInf, key := 0 }

/-! ### Buckets (R257) -/

/-- ⌊(s + 2048 − off) · 2^k⌋ of a finite score, capped at 1023. -/
def bucketAt (off k : Int) (s : F32) : Nat :=
  match ((f32Num s).add (.fin (2048 - off) 0)).mul (.fin 1 k) with
  | .fin m e => min 1023 (if 0 ≤ e then m * 2 ^ e.toNat else floorInt m e).toNat
  | _ => 0

/-- j(s). -/
def bucketOf (s : F32) : Nat := bucketAt 0 (-2) s

/-- u(s) within bucket j. -/
def subBucketOf (j : Nat) (s : F32) : Nat := bucketAt (4 * j) 8 s

/-- The petal of a candidate entry. -/
def Entry.petal (second : Bool) (e : Entry) : Option Petal :=
  e.s.map fun s => { void := false, second := second, bucket := bucketOf s, token := e.token, score := s, key := e.key }

/-! ### Partials -/

/-- All +0 and 0. -/
def Partial.zero : Partial :=
  { zs := 0, zr := 0, hr := 0, kd := 0, candidates := 0, masked := 0, flushed := 0, dropped := 0, rawMasked := 0,
    rawDropped := 0, gap := 0 }

/-- A node from its children (R314). -/
def Partial.add (a b : Partial) : Partial :=
  { zs := w40Add a.zs b.zs, zr := w40Add a.zr b.zr, hr := w40Add a.hr b.hr, kd := w40Add a.kd b.kd,
    candidates := a.candidates + b.candidates, masked := a.masked + b.masked, flushed := a.flushed + b.flushed,
    dropped := a.dropped + b.dropped, rawMasked := a.rawMasked + b.rawMasked, rawDropped := a.rawDropped + b.rawDropped,
    gap := a.gap + b.gap }

/-- A W40 operand of the partial is an infinity or NaN (R125). -/
def Partial.special (p : Partial) : Bool :=
  w40IsSpecial p.zs || w40IsSpecial p.zr || w40IsSpecial p.hr || w40IsSpecial p.kd

/-- Adds bins bucket by bucket, both in ascending bucket. -/
def addBins (xs ys : List Bin) : List Bin :=
  ys.foldl (fun acc y =>
    match acc.find? (·.bucket == y.bucket) with
    | some x => acc.map fun b =>
        if b.bucket == y.bucket then { b with count := x.count + y.count, mass := w40Add x.mass y.mass } else b
    | none => (acc.takeWhile fun b => decide (b.bucket < y.bucket)) ++ [y] ++
        (acc.dropWhile fun b => decide (b.bucket < y.bucket))) xs

/-- Keeps the first of each value. -/
def firsts (xs : List Nat) : List Nat := xs.foldl (fun acc x => if acc.contains x then acc else acc ++ [x]) []

/-- The bins of one brick's candidates under a bucket map (R258). -/
def brickBins (bucket : F32 → Nat) (es : List (Nat × F32)) : List Bin :=
  (sortBy (fun a b => decide (a < b)) 32 (firsts (es.map fun e => bucket e.2))).map fun j =>
    let m := es.filter fun e => bucket e.2 == j
    { bucket := j, count := m.length, mass := laneSum (m.map fun e => (e.1 % 4096, fsExp (f32ToW40 e.2))) }

/-! ### The canonical tree (R314) -/

/-- Node (level, index) where it can be formed (R315): supplied whole, beyond the vocabulary, or from both children. -/
def formNode {α : Type} (known : Nat → Nat → Option α) (slots : Nat) (zero : α) (add : α → α → α) :
    Nat → Nat → Option α
  | 0, i => match known 0 i with
    | some v => some v
    | none => if slots ≤ i then some zero else none
  | l + 1, i => match known (l + 1) i with
    | some v => some v
    | none =>
      if slots ≤ i * 2 ^ (l + 1) then some zero
      else match formNode known slots zero add l (2 * i), formNode known slots zero add l (2 * i + 1) with
        | some a, some b => some (add a b)
        | _, _ => none

/-- The largest nodes below (level, index) that cover only slots of a set or slots beyond the vocabulary, and at
least one of the set (R321). -/
def coverNodes (inSet : Nat → Bool) (slots : Nat) : Nat → Nat → List (Nat × Nat)
  | 0, i => if i < slots && inSet i then [(0, i)] else []
  | l + 1, i =>
    let lo := i * 2 ^ (l + 1)
    if slots ≤ lo then []
    else if (List.range (2 ^ (l + 1))).all (fun k => decide (slots ≤ lo + k) || inSet (lo + k)) then [(l + 1, i)]
    else coverNodes inSet slots l (2 * i) ++ coverNodes inSet slots l (2 * i + 1)

/-! ### Finding the boundary (R260 to R263) -/

/-- Which candidates C3 holds: all, none, those not after a cut, or those above a bucket. -/
inductive Cut where
  | all
  | none
  | upto (score : F32) (token : Nat)
  | above (bucket : Nat)
deriving DecidableEq, Repr

/-- Membership of C3. -/
def Cut.has (c : Cut) (score : F32) (token : Nat) : Bool :=
  match c with
  | .all => true
  | .none => false
  | .upto s t => !ranksBefore s t score token
  | .above j => decide (j < bucketOf score)

/-- What selection hands the race (R247), with the first member of C0. -/
structure Sel where
  kept : Nat
  mass : W40
  cut : Cut
  first : Option Petal
deriving DecidableEq, Repr

/-- What a search exchanges (R261, R262): the first `q` petals of a bucket, its sub-buckets, or the first `q` of one. -/
inductive Need where
  | walk (bucket q : Nat)
  | sub (bucket : Nat)
  | subWalk (bucket sub q : Nat)
deriving DecidableEq, Repr

/-- A result that may still wait for the last exchange it names. -/
structure Sought (α : Type) where
  needs : List Need
  value : Option α
deriving DecidableEq, Repr

/-- Goes on once the value is there. -/
def Sought.andThen {α β : Type} (x : Sought α) (f : α → Sought β) : Sought β :=
  match x.value with
  | none => { needs := x.needs, value := none }
  | some v => let y := f v; { needs := x.needs ++ y.needs, value := y.value }

/-- An exchanged value. -/
def sought {α : Type} (n : Need) (v : Option α) : Sought α := { needs := [n], value := v }

/-- A value at hand. -/
def found {α : Type} (v : α) : Sought α := { needs := [], value := some v }

/-- Where a search ends. -/
structure Walked where
  kept : W40
  count : Nat
  cut : Option Petal
deriving DecidableEq, Repr

/-- walk of R260 over P from base; `count` members lie above it. -/
def walkPetals (theta : W40) (r : Walked) : List Petal → Walked
  | [] => r
  | p :: ps =>
    let k := w40Add r.kept (fsExp (f32ToW40 p.score))
    let r' : Walked := { kept := k, count := r.count + 1, cut := some p }
    if w40Le theta k then r' else walkPetals theta r' ps

/-- The loop of search over bins in descending bucket: the bucket where it stops, the mass and count above. -/
def descend (theta : W40) (last : Nat) (a : W40) (n : Nat) : List Bin → Nat × W40 × Nat
  | [] => (last, a, n)
  | b :: bs =>
    if b.bucket ≤ last then (last, a, n)
    else
      let next := w40Add a b.mass
      if w40Le theta next then (b.bucket, a, n) else descend theta last next (n + b.count) bs

/-- The bucket that holds the member of a rank, from bins in descending bucket. -/
def rankBucket (rank : Nat) : List Bin → Nat
  | [] => 0
  | b :: bs => if rank ≤ b.count ∨ bs = [] then b.bucket else rankBucket (rank - b.count) bs

/-- The members of a bin. -/
def binCount (bins : List Bin) (j : Nat) : Nat := ((bins.find? (·.bucket == j)).map (·.count)).getD 0

/-- What selection of one path of a row works on: the exchanges are looked up by topic. -/
structure SelIn where
  params : ScoreParams
  total : Partial
  merged : List Petal
  bins : List Bin
  tau : Nat
deriving DecidableEq, Repr

/-- Bins in descending bucket. -/
def SelIn.down (i : SelIn) : List Bin := i.bins.reverse

/-- The exchanged values of a row's searches. -/
structure Exchange where
  walk : Nat → Nat → Option (List Petal)
  sub : Nat → Option (List Bin)
  subWalk : Nat → Nat → Nat → Option (List Petal)

/-- |C1| (R244). -/
def SelIn.rank1 (i : SelIn) : Nat :=
  if i.params.topK = 0 then i.total.candidates else min i.params.topK i.total.candidates

/-- τ of R245 from the first member's score. -/
def tauOf (p : ScoreParams) (s1 : F32) : F32 := f32Add s1 (w40ToF32 (fsLn (f32ToW40 p.minP)))

/-- The candidates of a windowed row at or above τ (R264). -/
def SelIn.atLeast (i : SelIn) (s1 : F32) : Nat :=
  ((i.bins.filter fun b => decide (bucketOf (tauOf i.params s1) < b.bucket)).map (·.count)).sum + i.tau

/-- |C2| (R245, R264). -/
def SelIn.rank2 (i : SelIn) (s1 : F32) : Nat :=
  if !f32Lt 0 i.params.minP then i.rank1
  else if i.params.windowed then min i.rank1 (i.atLeast s1)
  else countIf (fun p => f32Le (tauOf i.params s1) p.score) (i.merged.take i.rank1)

/-- Where C2 of `k2` members ends under a deep cutoff, by what is known without a petal of bucket `jc` (R246, R263): its
last member stands in the merged list, or τ bounds it, or, where a top_k above 4,096 does, the buckets above `jc` are its
own and every member of the merged list, which such a top_k outnumbers (log entry 42). -/
def SelIn.deepCut (i : SelIn) (s1 : F32) (k2 jc : Nat) : Cut :=
  if i.params.windowed then
    if f32Lt 0 i.params.minP && decide (i.atLeast s1 ≤ i.rank1) then .upto (tauOf i.params s1) 0xFFFFF
    else match i.merged.getLast? with
      | some w => if bucketOf w.score ≤ jc then .upto w.score w.token else .above jc
      | none => .above jc
  else match i.merged[k2 - 1]? with
    | some c => .upto c.score c.token
    | none => .above jc

/-- The walk of bucket j from mass `a` with `n` members above and `q` in it (R260 to R262). -/
def walkBucket (i : SelIn) (x : Exchange) (theta : W40) (j : Nat) (a : W40) (n q : Nat) : Sought Walked :=
  let start : Walked := { kept := a, count := n, cut := none }
  if !i.params.windowed then
    found (walkPetals theta start ((i.merged.filter (·.bucket == j)).take q))
  else if q ≤ 4096 then
    (sought (.walk j q) (x.walk j q)).andThen fun ps => found (walkPetals theta start (ps.take q))
  else
    (sought (.sub j) (x.sub j)).andThen fun bins =>
      let down := bins.reverse
      let last := rankBucket q down
      let (u, au, nu) := descend theta last a 0 down
      let qu := if u = last then q - nu else binCount bins u
      (sought (.subWalk j u qu) (x.subWalk j u qu)).andThen fun ps =>
        found (walkPetals theta { kept := au, count := n + nu, cut := none } (ps.take qu))

/-- search of R260 with target θ down to the bucket of C2's last member. -/
def searchMass (i : SelIn) (x : Exchange) (k2 jc : Nat) (theta : W40) : Sought Walked :=
  let (j, a, n) := descend theta jc 0 0 i.down
  walkBucket i x theta j a n (if j = jc then k2 - n else binCount i.bins j)

/-- The kept mass: zs where C3 is C0 (R247). -/
def keptMass (i : SelIn) (kept : Nat) (m : W40) : W40 := if kept = i.total.candidates then i.total.zs else m

/-- Selection of one path of a row outside Heirloom mode (R243 to R247, R260 to R263). -/
def select (i : SelIn) (x : Exchange) : Sought Sel :=
  let n := i.total.candidates
  match i.merged.head? with
  | none => found { kept := 0, mass := i.total.zs, cut := .none, first := none }
  | some p1 =>
    if !i.params.histogram then found { kept := n, mass := i.total.zs, cut := .all, first := some p1 }
    else
      let k2 := i.rank2 p1.score
      let whole := !f32Lt i.params.topP f32One
      if whole && k2 == n then found { kept := n, mass := i.total.zs, cut := .all, first := some p1 }
      else
        let jc := rankBucket k2 i.down
        let j1 := bucketOf p1.score
        let deep := decide (jc + 17 ≤ j1)
        let m2 : Sought Walked :=
          if deep then
            found { kept := (i.down.filter fun b => decide (j1 ≤ b.bucket + 16)).foldl (fun a b => w40Add a b.mass) 0
                    count := k2, cut := none }
          else searchMass i x k2 jc w40Inf
        m2.andThen fun w2 =>
          if whole then
            found { kept := k2, mass := keptMass i k2 w2.kept
                    cut := if deep then i.deepCut p1.score k2 jc else match w2.cut with
                      | some c => .upto c.score c.token
                      | none => .none
                    first := some p1 }
          else
            (searchMass i x k2 jc (w40Mul (f32ToW40 i.params.topP) w2.kept)).andThen fun w =>
              found { kept := w.count, mass := keptMass i w.count w.kept
                      cut := match w.cut with
                        | some c => .upto c.score c.token
                        | none => .none
                      first := some p1 }

/-! ### The race -/

/-- By which rule two claims are compared: R279, R282, R283, R346. -/
inductive RaceKind where
  | keys | greedy | uniform | residual
deriving DecidableEq, Repr

/-- The race value of a petal under a rule. -/
def raceValue (k : RaceKind) (p : Petal) : W40 :=
  match k with
  | .keys => w40Add (f32ToW40 p.score) p.key
  | .greedy => f32ToW40 p.score
  | .uniform | .residual => p.key

/-- Petal x beats petal y: larger value, ties to the lower token. -/
def beats (k : RaceKind) (x y : Petal) : Bool :=
  w40Lt (raceValue k y) (raceValue k x) || (w40Eq (raceValue k x) (raceValue k y) && decide (x.token < y.token))

/-- The race over petals (R279). -/
def race (k : RaceKind) (ps : List Petal) : Option Petal :=
  ps.foldl (fun w p => match w with
    | none => some p
    | some b => if beats k p b then some p else some b) none

/-! ### Probabilities (R286 to R291, R341, R342) -/

/-- neg_ln_ratio (R286). -/
def negLnRatio (mass e : W40) : F32 :=
  let rho := w40Mul mass (rcpW40 e)
  w40ToF32 (w40Neg (fsLn (if w40Lt rho w40One then w40One else rho)))

/-- neg_ln_ratio of a mass and a score's exponential. -/
def logprobOf (mass : W40) (score : F32) : F32 := negLnRatio mass (fsExp (f32ToW40 score))

/-- p or q of a token: EXP(s) · RCP(M) for a member, +0 otherwise. -/
def probOf (member : Bool) (mass : W40) (score : F32) : W40 :=
  if member then w40Mul (fsExp (f32ToW40 score)) (rcpW40 mass) else 0

/-- Raw ln Z (R289). -/
def lnZ (t : Partial) : W40 := fsLn t.zr

/-- Raw entropy (R289). -/
def rawEntropy (t : Partial) : F32 :=
  let h := w40Sub (lnZ t) (w40Mul t.hr (rcpW40 t.zr))
  w40ToF32 (if w40Lt h 0 then 0 else h)

/-- KL (R291) from the primary's totals and the second slot's raw mass. -/
def klOf (t : Partial) (zr2 : W40) : F32 :=
  if 0 < t.gap then f32PosInf
  else
    let k := w40Add (w40Mul t.kd (rcpW40 t.zr)) (w40Sub (fsLn zr2) (fsLn t.zr))
    w40ToF32 (if w40Lt k 0 then 0 else k)

/-- The acceptance comparison of R341. -/
def acceptTest (u p q : W40) : Bool :=
  if w40IsZero p then false else if w40IsZero q then true else w40Le (w40Mul u q) p

/-! ### Heirloom (R248, R285, table 4.9) -/

/-- A candidate with its weight eᵢ. -/
structure Weighted where
  token : Nat
  score : F32
  e : F32
deriving DecidableEq, Repr

/-- Sequential FP32 sum of weights from +0. -/
def sumF32 (xs : List F32) : F32 := xs.foldl (fun a x => flushSub (f32Add a x)) 0

/-- What an Heirloom row's finalisation gives. -/
structure HeirloomEnd where
  token : Nat
  logprob : F32
  lnZ : W40
  kept : Nat
  alternatives : List (Nat × F32)
deriving DecidableEq, Repr

/-- The shortest leading part whose running sum reaches the target. -/
def reach (target : F32) (acc : F32) : List Weighted → List Weighted
  | [] => []
  | w :: ws =>
    let a := flushSub (f32Add acc w.e)
    if f32Le target a then [w] else w :: reach target a ws

/-- The walk of R285. -/
def cdfWalk (t : F32) (last : Nat) (c : F32) : List Weighted → Nat
  | [] => last
  | w :: ws =>
    let c' := flushSub (f32Add c w.e)
    if f32Lt t c' then w.token else cdfWalk t last c' ws

/-- The highest score of an Heirloom row's entries, given in ascending token: the first of C0. -/
def heirloomTop (es : List (Nat × F32)) : Option Petal :=
  race .greedy (es.map fun c => { voidPetal false with token := c.1, score := c.2 })

/-- Entries with their weights eᵢ under a maximum (table 4.9). -/
def heirloomWeights (m : F32) (es : List (Nat × F32)) : List Weighted :=
  es.map fun c => { token := c.1, score := c.2, e := flushSub (Config.legacyExp (flushSub (f32Sub c.2 m))) }

/-- ln_FP32(Z) over weights in ascending token (table 4.9). -/
def heirloomLn (ws : List Weighted) : F32 := flushSub (Config.legacyLn (sumF32 (ws.map (·.e))))

/-- The ln Z field over a path's entries in ascending token (table 4.9); 0 where there is none (DESIGN CHOICE, log entry
75). -/
def heirloomLnZ (es : List (Nat × F32)) : W40 :=
  match heirloomTop es with
  | some top => f32ToW40 (flushSub (f32Add top.score (heirloomLn (heirloomWeights top.score es))))
  | none => 0

/-- Selection and sampling of an Heirloom row over its candidates in ascending token; none when it has none. Its token is
R285's at any temperature, and its C3 the shortest leading part of R248 at any top_p (log entry 74). Its ln Z is formed over
the candidates, m and Z being those of its sampling path (DESIGN CHOICE, log entry 75). -/
def heirloomEnd (q : ScoreParams) (u : F32) (cands : List (Nat × F32)) : Option HeirloomEnd :=
  let p := { q with minP := flushSub q.minP, topP := flushSub q.topP }
  match heirloomTop cands with
  | none => none
  | some top =>
    let m := top.score
    let asc := heirloomWeights m cands
    let z := sumF32 (asc.map (·.e))
    let lz := heirloomLn asc
    let c0 := sortBy (fun (a b : Weighted) => ranksBefore a.score a.token b.score b.token) 32 asc
    let c1 := if p.topK = 0 then c0 else c0.take p.topK
    let c2 := if f32Lt 0 p.minP then c1.filter fun w => f32Le (flushSub (tauOf p m)) w.score else c1
    let c3 := reach (flushSub (f32Mul p.topP (sumF32 (c2.map (·.e))))) 0 c2
    let lp := fun (w : Weighted) => flushSub (f32Sub (flushSub (f32Sub w.score m)) lz)
    let byToken := asc.filter fun w => c3.contains w
    let drawn := cdfWalk (flushSub (f32Mul u z)) ((byToken.getLast?.map (·.token)).getD top.token) 0 byToken
    some
      { token := drawn
        logprob := ((asc.find? (·.token == drawn)).map lp).getD f32NegInf
        lnZ := heirloomLnZ cands
        kept := c3.length
        alternatives := (c0.take p.listLength).map fun w => (w.token, w.score) }

end Sys2Proof.Machine
end

