-- ==== Sys2Proof/Machine/Operands.lean ====
section
/-! DEFINITION. The forms in which work reaches the unit through memory: the step manifest (R420 to R425), the head
parameter block (R170, R190), the learning block (R364), context command records (R389) and token lists. -/

namespace Sys2Proof.Machine

/-! ### Manifest header (table 14.3) -/

/-- Reads the header's fields. -/
def StepHead.parse (bs : Bytes) : StepHead :=
  { rowCount := fieldAt bs 6 2
    groups := (List.range (fieldAt bs 8 1)).map fun g => fieldAt bs (64 + 2 * g) 2
    deadline := fieldAt bs 12 4, number := fieldAt bs 16 8, time := fieldAt bs 24 8, bouquet := fieldAt bs 32 8
    alternatives := fieldAt bs 40 8, summary := fieldAt bs 48 8 }

/-- The checks of R422 on the header alone. -/
def headerValid (bs : Bytes) : Bool :=
  let gc := fieldAt bs 8 1
  let rows := fun g => fieldAt bs (64 + 2 * g) 2
  fieldAt bs 0 4 == 0x53544550 && fieldAt bs 4 2 == 1 && between 1 (fieldAt bs 6 2) 16384 && between 1 gc 32 &&
  zeroBytes bs 9 12 && zeroBytes bs 56 64 && zeroBytes bs 128 256 &&
  fieldAt bs 32 8 % 4096 == 0 && fieldAt bs 40 8 % 4096 == 0 && fieldAt bs 48 8 % 256 == 0 &&
  (List.range gc).all (fun g => between 1 (rows g) 512) && zeroBytes bs (64 + 2 * gc) 128 &&
  ((List.range gc).map rows).sum == fieldAt bs 6 2

/-! ### Row descriptor (table 14.4) -/

/-- Reads a descriptor's fields. -/
def RowDesc.parse (bs : Bytes) : RowDesc :=
  let b0 := fieldAt bs 0 1
  let b1 := fieldAt bs 1 1
  let b2 := fieldAt bs 2 1
  let b3 := fieldAt bs 3 1
  { kind := bits b0 1 0, format := bits b1 3 1, external := bit b1 0
    critic := if bit b2 7 then some (bits b2 6 5) else none
    second := if bit b2 4 then some (bits b2 3 2) else none
    primary := bits b2 1 0, noContext := bit b3 1, kl := bit b3 0
    slot := bits (fieldAt bs 4 2) 12 0, tenant := bits (fieldAt bs 6 1) 5 0, alternatives := bits (fieldAt bs 7 1) 6 0
    position := bits (fieldAt bs 8 4) 19 0, token := bits (fieldAt bs 12 4) 19 0
    chainLength := bits (fieldAt bs 16 1) 4 0, chainIndex := bits (fieldAt bs 17 1) 4 0
    learnIndex := fieldAt bs 18 2, weight := BitVec.ofNat 32 (fieldAt bs 20 4)
    hidden := fieldAt bs 24 8, hidden2 := fieldAt bs 32 8, scoreBlock := fieldAt bs 40 8, learnBlock := fieldAt bs 48 8
    hostTag := fieldAt bs 56 8 }

/-- A reserved descriptor bit is set (R9). -/
def descriptorReserved (bs : Bytes) : Bool :=
  let f := fieldAt bs
  !(f 0 1 / 4 == 0 && f 1 1 / 16 == 0 && f 3 1 / 4 == 0 && f 4 2 / 2 ^ 13 == 0 && f 6 1 / 64 == 0 && f 7 1 / 128 == 0 &&
    f 8 4 / 2 ^ 20 == 0 && f 12 4 / 2 ^ 20 == 0 && f 16 1 / 32 == 0 && f 17 1 / 32 == 0)

/-- The descriptor breaks R425. -/
def RowDesc.invalid (d : RowDesc) : Bool :=
  !(decide (1 ≤ d.kind) && decide (1 ≤ d.format) && decide (d.format ≤ if d.external then 5 else 3)) ||
  decide (64 < d.alternatives) ||
  (d.kind == 1 && d.token != 0) || (d.kind != 2 && (d.chainLength != 0 || d.chainIndex != 0)) ||
  (d.kind != 3 && (d.learnIndex != 0 || !f32Eq d.weight 0 || d.learnBlock != 0)) ||
  (!d.external && d.hidden % 64 != 0) || d.hidden == 0 || d.hidden2 % 64 != 0 ||
  (d.kind == 2 && decide (d.chainIndex < d.chainLength) && d.hidden2 == 0) ||
  (d.kind == 1 && d.second.isSome && !d.kl) || (d.kind == 2 && d.kl) ||
  (d.noContext && (d.kind != 3 || d.slot != 0)) || (d.kl && d.second.isNone) || (d.external && d.second.isSome)

/-- A learning row (12.1): a teacher-forced row that names a learning block. -/
def RowDesc.learning (d : RowDesc) : Bool := d.kind == 3 && d.learnBlock != 0

/-- A rider row. -/
def RowDesc.rider (d : RowDesc) : Bool := d.kind == 3 && d.learnBlock == 0

/-- The head slots a row names: primary, second, critic. -/
def RowDesc.slots (d : RowDesc) : List Nat :=
  (if d.external then [] else d.primary :: d.second.toList) ++ d.critic.toList

/-- Byte width of an input format (table 14.4, table 4.1). -/
def formatWidth : Nat → Nat
  | 1 => 4
  | 2 => 2
  | 3 => 2
  | _ => 1

/-- The format an input_format code names. -/
def inputFormat : Nat → FloatFmt
  | 1 => fmtF32
  | 2 => fmtF16
  | 3 => fmtBF16
  | 4 => fmtE4M3
  | _ => fmtE5M2

/-- `n` values of an input format from bytes, to FP32 (R112). -/
def readVector (code n : Nat) (bs : Bytes) : List F32 :=
  let w := formatWidth code
  (List.range n).map fun i => toF32 (inputFormat code) (fieldAt bs (w * i) w)

/-! ### Head parameter block (tables 5.6, 6.5) -/

/-- Rounds up to a multiple of 64. -/
def up64 (n : Nat) : Nat := (n + 63) / 64 * 64

/-- Tiles of a brick of a layout (R33). -/
def SlotLayout.tiles (l : SlotLayout) : Nat := if l.format = 1 then l.width / 64 else l.width / 128

/-- Hidden elements of a tile (R154). -/
def SlotLayout.tileWidth (l : SlotLayout) : Nat := if l.format = 1 then 64 else 128

/-- The bricks of a layout in ascending canonical slot. -/
def SlotLayout.brickList (l : SlotLayout) : List Nat := (List.range 256).filter fun b => bit l.bricks b

/-- Bricks the image holds: those of the list, or two for a critic. -/
def SlotLayout.brickCount (l : SlotLayout) : Nat := if l.kind = 2 then 2 else l.brickList.length

/-- Frames needed (R33, R167). -/
def SlotLayout.framesNeeded (l : SlotLayout) : Nat := l.brickCount * l.tiles

/-- Bytes of a gain or bias section. -/
def SlotLayout.vectorBytes (l : SlotLayout) : Nat := l.width * if l.paramFormat = 1 then 4 else 2

/-- Offset and end of each section: bias, scales, critic vector. -/
def SlotLayout.biasOff (l : SlotLayout) : Nat := up64 (if l.normKind = 0 then 0 else l.vectorBytes)
/-- Where the tile scales start. -/
def SlotLayout.scaleOff (l : SlotLayout) : Nat :=
  l.biasOff + up64 (if l.normKind ≠ 0 ∧ l.normBias = 1 then l.vectorBytes else 0)
/-- Where the critic vector section starts. -/
def SlotLayout.criticOff (l : SlotLayout) : Nat := l.scaleOff + up64 (if l.format = 2 then 4 * l.framesNeeded else 0)

/-- Bytes of a parameter block, given its critic section's inner width. -/
def SlotLayout.paramBytes (l : SlotLayout) (inner : Nat) : Nat :=
  if l.kind = 2 then l.criticOff + 64 + 4 * inner
  else if l.format = 2 then l.scaleOff + 4 * l.framesNeeded
  else if l.normKind ≠ 0 ∧ l.normBias = 1 then l.biasOff + l.vectorBytes
  else if l.normKind ≠ 0 then l.vectorBytes
  else 0

/-- The parameter block of a layout as it stands in memory; an inner_width above 4,096 counts as 4,096 (DESIGN CHOICE, log
entry 85). -/
def paramBlock (m : List Host.Cell) (l : SlotLayout) : Bytes :=
  readMem m l.paramAddr (l.paramBytes (min 4096 (leNat (readMem m (l.paramAddr + l.criticOff) 2))))

/-- What the intake needs of a block. -/
def NormParams.of (l : SlotLayout) (bs : Bytes) : NormParams :=
  let read := fun off => if l.paramFormat = 1 then readVector 1 l.width (bs.drop off) else readVector 3 l.width (bs.drop off)
  { kind := l.normKind, eps := BitVec.ofNat 32 l.normEps
    gain := if l.normKind = 0 then [] else read 0
    bias := if l.normKind ≠ 0 ∧ l.normBias = 1 then read l.biasOff else [] }

/-- Tile scales of the k-th brick. -/
def SlotLayout.scales (l : SlotLayout) (bs : Bytes) (k : Nat) : List F32 :=
  if l.format = 1 then []
  else (List.range l.tiles).map fun t => BitVec.ofNat 32 (fieldAt bs (l.scaleOff + 4 * (k * l.tiles + t)) 4)

/-- The critic vector section (table 6.5). -/
structure CriticVector where
  inner : Nat
  activation : Nat
  outBias : F32
  weights : List F32
  reservedClear : Bool
deriving DecidableEq, Repr

/-- Reads a critic slot's section. -/
def CriticVector.of (l : SlotLayout) (bs : Bytes) : CriticVector :=
  let c := bs.drop l.criticOff
  let n := fieldAt c 0 2
  { inner := n, activation := fieldAt c 2 1, outBias := BitVec.ofNat 32 (fieldAt c 4 4)
    weights := readVector 1 (min n 4096) (c.drop 64), reservedClear := zeroBytes c 3 4 && zeroBytes c 8 64 }

/-! ### Learning block (table 12.3) -/

/-- Reads a block. -/
def LearnParams.parse (bs : Bytes) : LearnParams :=
  let f := fieldAt bs 0 1
  { bf16Dh := bit f 5, e5m2 := bit f 4, sampling := bit f 3, emitOperand := bit f 2, emitDh := bit f 1
    emitDlogit := bit f 0, klCoef := BitVec.ofNat 32 (fieldAt bs 4 4), dlogitBase := fieldAt bs 8 8
    dhBase := fieldAt bs 16 8, operandBase := fieldAt bs 24 8, dlogitStride := fieldAt bs 32 4
    dhStride := fieldAt bs 36 4, operandStride := fieldAt bs 40 4
    reservedClear := f / 64 == 0 && zeroBytes bs 1 4 && zeroBytes bs 44 64 }

/-- An emit bit is set. -/
def LearnParams.emits (p : LearnParams) : Bool := p.emitOperand || p.emitDh || p.emitDlogit

/-- Bytes of a dh element. -/
def LearnParams.dhWidth (p : LearnParams) : Nat := if p.bf16Dh then 2 else 4

/-- A base and stride hold an area. -/
def areaValid (base stride align area : Nat) : Bool := base % align == 0 && stride % align == 0 && decide (area ≤ stride)

/-- The block obeys R365 for a row, `bricks` = ⌈V/4,096⌉ and the primary's layout. -/
def LearnParams.valid (p : LearnParams) (d : RowDesc) (bricks : Nat) (l : SlotLayout) : Bool :=
  d.learnBlock % 64 == 0 && p.reservedClear &&
  (f32Eq p.klCoef 0 || (f32IsFinite p.klCoef && f32Lt 0 p.klCoef && f32Le p.klCoef 0x44800000 && d.kl)) &&
  (!p.emitDlogit || areaValid p.dlogitBase p.dlogitStride 4096 (4100 * bricks)) &&
  (!p.emitDh || (!d.external && areaValid p.dhBase p.dhStride 64 (bricks * l.width * p.dhWidth))) &&
  (!p.emitOperand || (!d.external &&
    areaValid p.operandBase p.operandStride 64 (if l.format = 1 then 2 * l.width else l.width + 4)))

/-! ### Context command records (table 13.4) -/

/-- A context command record. -/
structure CtxRecord where
  op : Nat
  slot : Nat
  arg : Nat
  count : Nat
  automaton : Nat
  valid : Bool
deriving DecidableEq, Repr

/-- Reads a record and checks it as R390 says, but for the token list. -/
def CtxRecord.parse (bs : Bytes) : CtxRecord :=
  let op := fieldAt bs 0 1
  let slot := fieldAt bs 2 2
  let arg := fieldAt bs 8 8
  let count := fieldAt bs 16 4
  let automaton := fieldAt bs 20 2
  { op := op, slot := slot, arg := arg, count := count, automaton := automaton
    valid := decide (1 ≤ op) && decide (op ≤ 6) && zeroBytes bs 1 2 && zeroBytes bs 4 6 && zeroBytes bs 28 32 &&
      (if op = 1 then slot == 0 else decide (slot < 8192)) &&
      (if op = 3 then arg % 64 == 0 else if op = 4 then decide (1 ≤ arg) && decide (arg ≤ 2 ^ 48)
        else if 5 ≤ op then arg == 0 else true) &&
      (if op = 3 then decide (1 ≤ count) && decide (count ≤ 65536) else count == 0) &&
      (if op = 1 then decide (automaton ≤ 256) else automaton == 0) }

/-- `n` little-endian words of 4 bytes. -/
def wordList (m : List Host.Cell) (addr n : Nat) : List Nat :=
  (List.range n).map fun i => leNat (readMem m (addr + 4 * i) 4)

end Sys2Proof.Machine
end

