-- ==== Sys2Proof/Machine/Ops.lean ====
section
/-! DEFINITION. Named operations over the state: objects, counters, events, time, outputs, memory writes. -/

namespace Sys2Proof.Machine

/-! ### Objects -/

/-- The current value of an RW object. -/
def State.rwVal (s : State) (key : Nat) : Nat := Store.get s.dict.rw key

/-- The applied value of an RWS object (R462). -/
def State.cfg (s : State) (key : Nat) : Nat := Store.get s.dict.applied key

/-- Sets an RW object. -/
def setRw (key v : Nat) (s : State) : State := { s with dict := { s.dict with rw := insertKey s.dict.rw key v } }

/-- Sets the staged value of an RWS object. -/
def setStaged (key v : Nat) (s : State) : State :=
  { s with dict := { s.dict with staged := insertKey s.dict.staged key v } }

/-- This unit's address (R295). -/
def State.address (s : State) : Nat := s.rwVal 0x500001

/-! ### Counters (R12, R476) -/

/-- A counter's width. -/
def counterWidth (key : Nat) : Nat := if counterType key = some 4 then 64 else 32

/-- A counter's value. -/
def State.counter (s : State) (key : Nat) : Nat := (lookupKey s.dict.counters key).getD 0

/-- Sets a counter-range object. -/
def setCounter (key v : Nat) (s : State) : State :=
  { s with dict := { s.dict with counters := insertKey s.dict.counters key v } }

/-- Advances a counter by `k`; it stops at all ones. -/
def count (key k : Nat) (s : State) : State := setCounter key (bump (counterWidth key) (s.counter key) k) s

/-- Advances Command Rejects. -/
def reject (s : State) : State := count 0x700001 1 s

/-! ### Time and events -/

/-- A reading of the copy: 0 while it is invalid (R62); the nanoseconds of the slow cycle under way are there only at
4.0 GHz, and a copy that holds shows none (R63, R64). -/
def TimeStamp.reading (t : TimeStamp) : Nat :=
  if t.valid then t.value + (if t.hold = 0 then t.phase else 0) else 0

/-- The time-stamp reading. -/
def State.now (s : State) : Nat := s.ts.reading

/-- Sub-source by the high byte of the code (table 17.2). -/
def subSource (code : Nat) : Nat :=
  match code / 256 with
  | 0x02 => 1
  | 0x03 => 2
  | 0x04 => 3
  | 0x05 => 4
  | 0x06 => 5
  | 0x0A => 6
  | 0x0D => 7
  | 0x0E => 8
  | 0x0F => 9
  | 0x10 => 10
  | _ => 11

/-- The order of R498: ascending time stamp, source, sequence. -/
def Event.before (a b : Event) : Bool :=
  decide (a.time < b.time) || (a.time == b.time && (decide (a.source < b.source) ||
    (a.source == b.source && decide (a.sequence < b.sequence))))

/-- Inserts an event in the order of R498, behind every readable one. -/
def insertEvent (e : Event) : List Event → List Event
  | [] => [e]
  | x :: xs => if !x.readable && e.before x then e :: x :: xs else x :: insertEvent e xs

/-- Queues one event record of a code with the next sequence number. -/
def enqueue (code wide a b : Nat) (s : State) : State :=
  let e : Event :=
    { code := code, source := s.address * 16 + subSource code, sequence := s.events.nextSequence, time := s.now,
      argWide := wide, argA := a, argB := b, readable := false }
  { s with events :=
      { events := insertEvent e s.events.events, nextSequence := (s.events.nextSequence + 1) % 2 ^ 32 } }

/-- A lost event: its number is consumed and Events Lost advances (R499). -/
def loseEvent (s : State) : State :=
  count 0x70A201 1 { s with events := { s.events with nextSequence := (s.events.nextSequence + 1) % 2 ^ 32 } }

/-- Raises an event (R495 to R499): at 255 queued it is replaced by EVENT_QUEUE_OVERFLOW, at 256 dropped. -/
def raiseArgs (code wide a b : Nat) (s : State) : State :=
  if s.events.events.length < 255 then enqueue code wide a b s
  else if s.events.events.length = 255 then enqueue 0x1104 0 0 0 (loseEvent s)
  else loseEvent s

/-- Raises an event without arguments. -/
def raise (code : Nat) (s : State) : State := raiseArgs code 0 0 0 s

/-- Raises an event and advances the counter of its code. -/
def raiseCount (code key wide a b : Nat) (s : State) : State := raiseArgs code wide a b (count key 1 s)

/-- Event Count (table 17.4): readable events. -/
def State.eventCount (s : State) : Nat := (s.events.events.filter (·.readable)).length

/-! ### Isolation (table 2.6) -/

/-- The management mesh, mirror and EVT_IRQ are connected. -/
def State.managementUp (s : State) : Bool :=
  !s.boundary.unitDisable && s.sensing.power != .off &&
    match s.boundary.phase with
    | .asserted _ => false
    | _ => true

/-- The network, fabric and Head Store ports are connected: UNIT_PRESENT is 1 exactly then (R56). -/
def State.portsUp (s : State) : Bool := s.boundary.unitPresent

/-- EVT_IRQ (R500), 0 while isolated. -/
def State.evtIrq (s : State) : Bool :=
  s.managementUp && s.rwVal 0x710004 == 1 && decide (s.rwVal 0x710005 ≤ s.eventCount)

/-! ### Outputs and memory -/

/-- Sends one mesh packet's message to an endpoint. -/
def sendMesh (eid : Byte) (msg : Bytes) (s : State) : State :=
  { s with out := { s.out with mesh := s.out.mesh ++ [(eid, msg)] } }

/-- Puts read data on the mirror port. -/
def mirrorData (w : Nat) (s : State) : State := { s with out := { s.out with mirror := BitVec.ofNat 32 w } }

/-- Writes bytes to the chip memory. -/
def writeBytes (a : Nat) (bs : Bytes) (s : State) : State := { s with mem := writeMem s.mem a bs }

/-- What other agents have written to the chip memory by now. -/
def hostWrites (ws : List Host.Cell) (s : State) : State := { s with mem := overlay s.mem ws }

/-- Reads bytes of the chip memory. -/
def State.bytesAt (s : State) (a len : Nat) : Bytes := readMem s.mem a len

/-- Reads a little-endian number of the chip memory (R5). -/
def State.numAt (s : State) (a len : Nat) : Nat := leNat (readMem s.mem a len)

/-! ### The idle cycle -/

/-- The lane clock runs: Active, and not stopped on a low rail (tables 3.1, 3.2). -/
def State.laneRuns (s : State) : Bool := s.sensing.power == .active && decide (s.sensing.laneRow < 4)

/-- The lane clock runs at 4.0 GHz (R64). -/
def State.fullSpeed (s : State) : Bool := s.sensing.power == .active && s.sensing.laneRow == 0 && !s.sensing.thermalCap

/-- Row of table 3.2 that a reading in mV gives. -/
def railRow (mv : Nat) : Nat :=
  if 730 ≤ mv then 0 else if 710 ≤ mv then 1 else if 690 ≤ mv then 2 else if 650 ≤ mv then 3 else 4

/-- The lane rails are on (table 3.1). -/
def State.laneRails (s : State) : Bool := s.sensing.power == .active || s.sensing.power == .standby

/-- The lanes and the sum columns hold nothing, no line of the automaton cache is valid. -/
def clearLanes (s : State) : State :=
  { s with lanes := .initial, contexts := { s.contexts with cache := [] } }

/-- The step is done with the lanes: their weight sets and sum columns are free. -/
def clearColumns (s : State) : State := { s with lanes := .initial }

/-- The lanes are stopped, all state held (R99): in Active alone (the model's choice, log entry 50). -/
def State.lanesStopped (s : State) : Bool := s.sensing.power == .active && !decide (s.sensing.laneRow < 4)

/-- Lane-clock edges in one slow cycle by row of table 3.2, capped at 2.0 GHz when hot (R104). -/
def State.laneEdges (s : State) : Nat :=
  if s.sensing.power != .active then 0
  else
    let e := [40, 35, 30, 20, 0].getD s.sensing.laneRow 0
    if s.sensing.thermalCap then min e 20 else e

/-- Lane cycles of the running step (table 14.10). -/
def countStep (k : Nat) (s : State) : State :=
  { s with steps := { s.steps with run := s.steps.run.map fun r => { r with laneCycles := r.laneCycles + k } } }

/-- Time spent in a power state (table 15.16). -/
def countPower (s : State) : State :=
  match s.sensing.power with
  | .off => s
  | .dormant => count 0x702003 10 s
  | .standby => count 0x702002 10 s
  | .active => countStep s.laneEdges (count 0x702005 s.laneEdges (count 0x702001 10 s))

/-- The time-stamp copy over one slow cycle: it advances by 10, or makes good what it stands ahead (R62, R63). -/
def TimeStamp.tick (t : TimeStamp) : TimeStamp :=
  if !t.valid then { t with phase := 0 }
  else if 10 ≤ t.hold then { t with hold := t.hold - 10, phase := 0 }
  else { t with hold := 0, value := (t.value + 10 - t.hold) % 2 ^ 64, phase := 0 }

/-- One slow cycle, or the rest of the one under way (log entry 1). -/
def slowCycle (s : State) : State :=
  if s.sensing.power = .off then s
  else countPower { s with ts := s.ts.tick, slow := s.slow + 1 }

/-- The slow cycle under way ends: the slow clock samples the rails, the sensors, TS_LOAD and the idle times on its own
edges (tables 2.1, 3.2). -/
def slowEdge (s : State) : State := if s.ts.phase = 0 then s else slowCycle s

/-- Time passes with nothing commanded: 1 ns while the lane clock runs at 4.0 GHz and the slow cycle has not ended, else
one slow cycle (log entry 1). -/
def idle (s : State) : State :=
  if s.fullSpeed && decide (s.ts.phase < 9) then { s with ts := { s.ts with phase := s.ts.phase + 1 } } else slowCycle s

end Sys2Proof.Machine
end

