-- ==== Sys2Proof/Machine/Mortar.lean ====
section
/-! DEFINITION. The mortar link: bond sets (R308 to R312), messages and link flits (R302 to R307), the peer table
(R297 to R301), reduction trees (R319 to R321). -/

namespace Sys2Proof.Machine

/-! ### The applied bond set -/

/-- Vocabulary Size applied. -/
def State.vocab (s : State) : Nat := s.cfg 0x501004

/-- n_b = ⌈V/4,096⌉. -/
def State.brickCount (s : State) : Nat := ceilDiv s.vocab 4096

/-- Bond table entry of slot b. -/
def bondEntry (table b : Nat) : Nat := table / 2 ^ (32 * b) % 2 ^ 32

/-- Owner of a slot. -/
def bondOwner (table b : Nat) : Option Nat :=
  let e := bondEntry table b
  if bit e 15 then some (bits e 11 0) else none

/-- Replica holder of a slot. -/
def bondReplica (table b : Nat) : Option Nat :=
  let e := bondEntry table b
  if bit e 31 then some (bits e 27 16) else none

/-- Members of a bond table: the distinct addresses it names, ascending (R309). -/
def bondMembers (table : Nat) : List Nat :=
  sortBy (fun a b => decide (a < b)) 32
    (firsts ((List.range 256).flatMap fun b => (bondOwner table b).toList ++ (bondReplica table b).toList))

/-- The applied table. -/
def State.bond (s : State) : Nat := s.cfg 0x501002

/-- Members of the applied bond set. -/
def State.members (s : State) : List Nat := if s.vocab = 0 then [] else bondMembers s.bond

/-- The bricks of the unit's course, ascending. -/
def State.course (s : State) : List Nat :=
  (List.range s.brickCount).filter fun b =>
    bondOwner s.bond b == some s.address || bondReplica s.bond b == some s.address

/-- The unit owns a slot. -/
def State.owns (s : State) (b : Nat) : Bool := bondOwner s.bond b == some s.address

/-! ### Peers -/

/-- A peer no message has named. -/
def Peer.unknown : Peer :=
  { state := 0, caps := [], capsTaken := false, roundTrip := none, roundTripMax := 0, rxNext := none, rxHeld := [],
    txNext := 0, unacked := [], waiting := [] }

/-- The entry of a peer. -/
def State.peer (s : State) (p : Nat) : Peer := (lookupKey s.mortar.peers p).getD .unknown

/-- Sets an entry. -/
def setPeer (p : Nat) (x : Peer) (s : State) : State :=
  { s with mortar := { s.mortar with peers := insertKey s.mortar.peers p x } }

/-- A peer was lost since the running step began: it takes no further part in that step (R324, R327; log entry 80). -/
def State.lostInStep (s : State) (p : Nat) : Bool := s.steps.run.any fun r => r.lost.contains p

/-- This unit, or a Present peer that takes part in the running step (R297). -/
def State.present (s : State) (p : Nat) : Bool := p == s.address || ((s.peer p).state == 2 && !s.lostInStep p)

/-- Addresses of the Present peers. -/
def State.presentPeers (s : State) : List Nat := (s.mortar.peers.filter fun e => e.2.state == 2).map (·.1)

/-- The smoothed round trip after a sample (R106). -/
def smooth (old : Option Nat) (x : Nat) : Nat :=
  match old with
  | none => x
  | some v => if v ≤ x then v + (x - v) / 8 else v - (v - x) / 8

/-! ### Messages (table 10.2) -/

/-- A message or link flit: header, payload, zero fill and CRC. -/
def frame (typ flags src dst seq version step sent : Nat) (payload : Bytes) : Bytes :=
  let flits := ceilDiv (36 + payload.length) 64
  let body := toLe 1 typ ++ toLe 1 flags ++ toLe 2 flits ++ toLe 2 src ++ toLe 2 dst ++ toLe 4 seq ++ toLe 4 version ++
    toLe 8 step ++ toLe 8 sent ++ payload ++ List.replicate (64 * flits - 36 - payload.length) 0
  body ++ toLe 4 (crc32 body).toNat

/-- The CRC and flit count of a received frame agree with it (R303). -/
def frameGood (m : Bytes) : Bool :=
  decide (64 ≤ m.length) && fieldAt m 2 2 * 64 == m.length &&
    (crc32 (m.take (m.length - 4))).toNat == leNat (m.drop (m.length - 4))

/-- Sets the retransmit bit of a message. -/
def resent (m : Bytes) : Bytes :=
  let body := overwrite (m.take (m.length - 4)) 1 [(m.getD 1 0) ||| 2]
  body ++ toLe 4 (crc32 body).toNat

/-- msg_type. -/
def msgType (m : Bytes) : Nat := fieldAt m 0 1
/-- source. -/
def msgSource (m : Bytes) : Nat := bits (fieldAt m 4 2) 11 0
/-- sequence. -/
def msgSequence (m : Bytes) : Nat := fieldAt m 8 4
/-- bond_version. -/
def msgVersion (m : Bytes) : Nat := fieldAt m 12 4
/-- step. -/
def msgStep (m : Bytes) : Nat := fieldAt m 16 8
/-- sent_time. -/
def msgSent (m : Bytes) : Nat := fieldAt m 24 8
/-- The bytes between header and CRC. -/
def msgPayload (m : Bytes) : Bytes := (m.drop 32).take (m.length - 36)

/-- Step-bound types (table 10.3). -/
def stepBound (typ : Nat) : Bool := decide (4 ≤ typ) && decide (typ ≤ 7)

/-- What a quiesced unit still exchanges with whom (R517). -/
def State.quiesceAllows (s : State) (typ peer : Nat) : Bool :=
  s.restore.quiesced == 0 ||
    ([0x01, 0x02, 0x03, 0x09].contains typ && peer == s.rwVal 0x801003 && s.rwVal 0x801002 == 1)

/-- Mortar is open: fabric port connected, Fabric Enable 1, life-cycle state MAKER or FIELD (R296, R491). -/
def State.fabricOpen (s : State) : Bool :=
  s.portsUp && s.rwVal 0x500002 == 1 && (s.life.record.state == 2 || s.life.record.state == 4)

/-- Puts a frame on the fabric port; while the lanes are stopped it waits, to be sent late (R101). -/
def emit (m : Bytes) (s : State) : State :=
  if s.lanesStopped then { s with mortar := { s.mortar with late := s.mortar.late ++ [m] } }
  else { s with out := { s.out with fabric := s.out.fabric ++ [m] } }

/-- Sends a link flit: LINK_ACK, or LINK_NAK with a reason. Its step field is 0, which no table says (the model's choice, log
entry 77). -/
def linkFlit (typ reason dst seq : Nat) (s : State) : State :=
  emit (frame typ 0 s.address dst seq (s.cfg 0x501001) 0 s.now (toLe 1 reason)) s

/-- The step number a message of a type carries. -/
def State.msgStepNow (s : State) (typ : Nat) : Nat := if stepBound typ then s.steps.lastNumber else 0

/-- A message with its sequence and sent_time, the CRC formed anew. -/
def sealed (m : Bytes) (seq now : Nat) : Bytes :=
  let body := overwrite (overwrite (m.take (m.length - 4)) 8 (toLe 4 seq)) 24 (toLe 8 now)
  body ++ toLe 4 (crc32 body).toNat

/-- Sends a message to a peer with the next sequence. -/
def post (dst : Nat) (m : Bytes) (s : State) : State :=
  let p := s.peer dst
  let m := sealed m p.txNext s.now
  emit m (setPeer dst { p with
    txNext := (p.txNext + 1) % 2 ^ 32, unacked := p.unacked ++ [{ sequence := p.txNext, bytes := m, sends := 1 }] } s)

/-- A message among those that wait: a running step's before every STATE_PAGE (R513). -/
def queued (m : Bytes) (waiting : List Bytes) : List Bytes :=
  if stepBound (msgType m) then
    waiting.filter (fun x => stepBound (msgType x)) ++ m :: waiting.filter fun x => !stepBound (msgType x)
  else waiting ++ [m]

/-- Sends a new message, or queues it behind 64 unacknowledged ones (R304). -/
def sendMsg (typ dst : Nat) (payload : Bytes) (s : State) : State :=
  if !s.fabricOpen || !s.quiesceAllows typ dst then s
  else
    let m := frame typ 0 s.address dst 0 (s.cfg 0x501001) (s.msgStepNow typ) 0 payload
    let s := count 0x705001 1 s
    let p := s.peer dst
    if p.unacked.length < 64 then post dst m s else setPeer dst { p with waiting := queued m p.waiting } s

/-- destination of a message or link flit. -/
def msgTo (m : Bytes) : Nat := bits (fieldAt m 6 2) 11 0

/-- A message of the sequence kept towards a peer; link flits and broadcasts are none. -/
def sequencedTo (p : Nat) (m : Bytes) : Bool :=
  decide (msgType m < 0x80) && !bit (fieldAt m 1 1) 0 && msgTo m == p

/-- Messages held for a peer whose sends have ended are not sent (R305). -/
def dropLate (p : Nat) (s : State) : State :=
  { s with mortar := { s.mortar with late := s.mortar.late.filter fun m => !sequencedTo p m } }

/-- A held frame may still go out: a link flit where the ports are connected, a message where mortar is open (R296, R517). -/
def State.sendsHeld (s : State) (m : Bytes) : Bool :=
  if msgType m < 0x80 then s.fabricOpen && s.quiesceAllows (msgType m) (msgTo m) else s.portsUp && s.quiesceAllows 3 (msgTo m)

/-- The copy kept of a message, as it was sent. -/
def noteSent (m : Bytes) (s : State) : State :=
  let x := s.peer (msgTo m)
  if sequencedTo (msgTo m) m && x.unacked.any (·.sequence == msgSequence m) then
    setPeer (msgTo m) { x with unacked := x.unacked.map fun u =>
      if u.sequence = msgSequence m then { u with bytes := m } else u } s
  else s

/-- A held frame goes out with the time it is sent at (table 10.2). -/
def sendHeld (m : Bytes) (s : State) : State :=
  if s.sendsHeld m then
    let m := sealed m (msgSequence m) s.now
    noteSent m { s with out := { s.out with fabric := s.out.fabric ++ [m] } }
  else s

/-- Messages that fell due while the lanes were stopped go out (R101). -/
def sendLate (s : State) : State :=
  s.mortar.late.foldl (fun s m => sendHeld m s) { s with mortar := { s.mortar with late := [] } }

/-- Broadcasts DISCOVER (R298); it takes no per-destination sequence (log entry 12). -/
def broadcastDiscover (s : State) : State :=
  if !s.fabricOpen || s.restore.quiesced != 0 then s
  else count 0x705001 1 (emit (frame 1 1 s.address 0 0 (s.cfg 0x501001) 0 s.now (toLe 8 2)) s)

/-- Sends one message to several peers. -/
def sendAll (typ : Nat) (dsts : List Nat) (payload : Bytes) (s : State) : State :=
  dsts.foldl (fun s d => sendMsg typ d payload s) s

/-! ### CAPS and BOND_UPDATE -/

/-- Free Head Frames. -/
def State.freeFrames (s : State) : Nat := 3072 - (s.heads.map (·.frames)).sum

/-- The CAPS payload (table 10.7). -/
def State.capsPayload (s : State) : Bytes :=
  toLe 1 2 ++ toLe 1 1 ++ toLe 2 (0x1F + if s.fseq.heirloom then 32 else 0) ++ toLe 2 3072 ++ toLe 2 s.freeFrames ++
  toLe 32 s.fseq.digest ++ toLe 4 (s.cfg 0x501001) ++ toLe 2 (s.cfg 0x501003) ++ toLe 2 0 ++ toLe 32 s.mortar.bondDigest

/-- The CAPS fields other than free_frames. -/
def State.capsNews (s : State) : Bytes := overwrite s.capsPayload 6 (toLe 2 0)

/-- Sends CAPS to every Present peer when a field other than free_frames changed since `old` (R298). -/
def announceCaps (old s : State) : State :=
  if old.capsNews = s.capsNews then s else sendAll 2 s.presentPeers s.capsPayload s

/-- Bond Digest of the applied set (R312). -/
def State.digestOfBond (s : State) : Nat :=
  leNat (sha256 (toLe 4 (s.cfg 0x501001) ++ toLe 2 (s.cfg 0x501003) ++ toLe 2 0 ++ toLe 4 s.vocab ++
    toLe 4 (s.cfg 0x200010) ++ toLe 1024 s.bond))

/-! ### Reduction trees -/

/-- The order of the tree in force (R319). -/
def State.treeOrder (s : State) : List Nat :=
  match s.mortar.tree with
  | some t => t.order
  | none =>
    let r := s.cfg 0x501003
    r :: sortBy (fun a b => decide (a < b)) 32 (s.members.filter (· != r))

/-- Tree position of the parent. -/
def parentAt (i : Nat) : Nat := (i - 1) / 4

/-- The BOND_UPDATE payload carrying a tree, or none (table 10.6). -/
def State.bondUpdate (s : State) (t : Option Tree) : Bytes :=
  let (v, from_, order) := match t with
    | some t => (t.version, t.fromStep, t.order)
    | none => (0, 0, [])
  toLe 4 (s.cfg 0x501001) ++ toLe 4 v ++ toLe 8 from_ ++ toLe 32 s.mortar.bondDigest ++ toLe 2 order.length ++ toLe 6 0 ++
  ((order.zip (List.range order.length)).map fun (m, i) =>
    toLe 4 (order.getD (parentAt i) 0 * 65536 + m)).flatten

/-- The record unit and root of the running step (R327), or the applied one. -/
def State.root (s : State) : Nat :=
  match s.steps.run with
  | some r => r.record
  | none => s.cfg 0x501003

/-- The first Present unit on the way from a position up (R321). -/
def climb (present : Nat → Bool) (order : List Nat) : Nat → Nat → Nat
  | 0, _ => order.headD 0
  | fuel + 1, i =>
    let p := order.getD (parentAt i) 0
    if i = 0 ∨ present p ∨ parentAt i = 0 then p else climb present order fuel (parentAt i)

/-- The unit a member sends to: its nearest Present ancestor; after a takeover the taker (R321, R327). -/
def State.parentOf (s : State) (m : Nat) : Nat :=
  if s.root ≠ s.cfg 0x501003 then s.root
  else
    let order := s.treeOrder
    match order.findIdx? (· == m) with
    | some i => climb s.present order 8 i
    | none => s.root

/-- The Present members that send to a unit. -/
def State.childrenOf (s : State) (p : Nat) : List Nat :=
  s.members.filter fun m => m != p && m != s.root && s.present m && s.parentOf m == p

/-- The members whose values pass through a unit, itself included. -/
def State.subtree (s : State) : Nat → Nat → List Nat
  | 0, m => [m]
  | fuel + 1, m => m :: (s.childrenOf m).flatMap (s.subtree fuel)

/-- Depth of a tree of `n` members (table 10.15). -/
def treeDepth (n : Nat) : Nat := if n ≤ 1 then 0 else if n ≤ 5 then 1 else if n ≤ 21 then 2 else if n ≤ 85 then 3 else 4

/-- At a step's begin the tree sent for it comes into force (R320). -/
def takeTree (number : Nat) (s : State) : State :=
  match (s.mortar.trees.filter fun t => decide (t.fromStep ≤ number)).getLast? with
  | some t => { s with mortar := { s.mortar with
      tree := some t, trees := s.mortar.trees.filter fun t => decide (number < t.fromStep) } }
  | none => s

/-- Tree Version of the tree in force. -/
def State.treeVersion (s : State) : Nat := (s.mortar.tree.map (·.version)).getD 0

/-- At the boundary the record unit orders the members by round trip and sends a tree that differs from the one in force
(R320); an Absent one comes last, where it relays for nobody (R79). -/
def reorderTree (s : State) : State :=
  let r := s.cfg 0x501003
  if s.vocab = 0 ∨ r ≠ s.address then s
  else
    let others := s.members.filter (· != r)
    let key := fun m => if (s.peer m).state = 4 then (2, 0, m) else match (s.peer m).roundTrip with
      | some t => (0, t, m)
      | none => (1, 0, m)
    let before := fun (a b : Nat) =>
      let (x, y, z) := key a
      let (u, v, w) := key b
      decide (x < u) || (x == u && (decide (y < v) || (y == v && decide (z < w))))
    let order := r :: sortBy before 32 others
    if order = s.treeOrder then s
    else
      let v := s.mortar.trees.foldl (fun v t => max v t.version) s.treeVersion + 1
      let t : Tree := { version := v, fromStep := (s.steps.lastNumber + 2) % 2 ^ 64, order := order }
      sendAll 8 others (s.bondUpdate (some t)) { s with mortar := { s.mortar with trees := s.mortar.trees ++ [t] } }

/-! ### Changes of a peer's state -/

/-- Entry to Silent or Absent: sends end, the sequence expected is forgotten (R305, R306, log entry 12). -/
def peerDown (p st : Nat) (s : State) : State :=
  let x := s.peer p
  let s := dropLate p <| setPeer p
    { x with state := st, capsTaken := false, rxNext := none, rxHeld := [], unacked := [], waiting := [] } s
  if st = 3 then raiseCount 0x0A07 0x70500A 0 p 0 s
  else if x.state ≠ 4 then raiseArgs 0x0A08 0 p 0 s else s

/-- The record unit lost during a step: the lowest Present member takes its place (R327). -/
def checkTakeover (s : State) : State :=
  match s.steps.run with
  | none => s
  | some r =>
    if s.present r.record ∨ s.vocab = 0 then s
    else
      let low := (s.members.filter s.present).foldl Nat.min 4096
      let r' := { r with record := low, takeover := r.takeover || low == s.address }
      let s' := { s with steps := { s.steps with run := some r' } }
      if low = s.address then raiseArgs 0x0A0A r.head.number r.record 0 s' else s'

/-- A received message does not obey its layout (R328), or is stale (R307): it is discarded and counted. -/
def stale (s : State) : State := count 0x705005 1 s

/-! ### Messages that are not step-bound -/

/-- DISCOVER (R298, table 10.1). -/
def takeDiscover (src : Nat) (pl : Bytes) (s : State) : State :=
  if !(fieldAt pl 0 1 == 2 && zeroBytes pl 1 8) then stale s
  else
    let x := s.peer src
    sendMsg 2 src s.capsPayload (if x.state = 0 then setPeer src { x with state := 1 } s else s)

/-- CAPS (R298, R306, table 10.1). -/
def takeCaps (src : Nat) (pl : Bytes) (s : State) : State :=
  if !(fieldAt pl 2 2 / 64 == 0 && fieldAt pl 44 2 / 4096 == 0 && zeroBytes pl 46 48) then stale s
  else
    let x := s.peer src
    let entering := x.state ≠ 2
    let x' := { x with state := 2, caps := slice pl 0 80, capsTaken := true
                       roundTrip := if entering then none else x.roundTrip
                       roundTripMax := if entering then 0 else x.roundTripMax }
    let s := setPeer src x' s
    let s := if entering then raiseArgs 0x0A09 0 src 0 s else s
    if x.capsTaken then s else sendMsg 2 src s.capsPayload s

/-- HEARTBEAT (R301): a request is answered, an answer is a round-trip sample. -/
def takeHeartbeat (src sent : Nat) (pl : Bytes) (s : State) : State :=
  let f := fieldAt pl 0 1
  if !(f / 2 == 0 && zeroBytes pl 1 8 && (f == 1 || fieldAt pl 8 8 == 0)) then stale s
  else if f = 0 then sendMsg 3 src (toLe 8 1 ++ toLe 8 sent) s
  else
    let x := s.peer src
    let t := min (s.now - fieldAt pl 8 8) (2 ^ 32 - 1)
    if x.state ≠ 2 then s
    else setPeer src { x with roundTrip := some (smooth x.roundTrip t), roundTripMax := max x.roundTripMax t } s

/-- BOND_UPDATE (R312, R320): its bond fields join the peer's record; a tree is taken from the record unit. -/
def takeBondUpdate (src : Nat) (pl : Bytes) (s : State) : State :=
  let n := fieldAt pl 48 2
  let v := fieldAt pl 4 4
  let ok := zeroBytes pl 50 56 && decide (n ≤ 256) && decide (56 + 4 * n ≤ pl.length) &&
    (if v = 0 then n == 0 && fieldAt pl 8 8 == 0 else decide (1 ≤ n)) &&
    (List.range n).all fun i => fieldAt pl (56 + 4 * i) 4 &&& 0xF000F000 == 0
  if !ok then stale s
  else
    let x := s.peer src
    let caps := if x.caps = [] then [] else overwrite (overwrite x.caps 40 (slice pl 0 4)) 48 (slice pl 16 32)
    let s := setPeer src { x with caps := caps } s
    if v ≠ 0 ∧ src = s.cfg 0x501003 then
      let order := (List.range n).map fun i => bits (fieldAt pl (56 + 4 * i) 4) 11 0
      let tree : Tree := { version := v, fromStep := fieldAt pl 8 8, order := order }
      { s with mortar := { s.mortar with trees := s.mortar.trees ++ [tree] } }
    else s

/-! ### Step-bound payloads (tables 10.8 to 10.11) -/

/-- A W40 field as it is read: exponent 0 is +0, a NaN canonical (R112, R113, R120). -/
def readW40 (bs : Bytes) (off : Nat) : W40 := w40Of (w40Num (BitVec.ofNat 40 (fieldAt bs off 5)))

/-- Non-canonical W40 fields at these offsets. -/
def oddW40 (bs : Bytes) (offs : List Nat) : Nat :=
  countIf (fun o => w40Noncanonical (BitVec.ofNat 40 (fieldAt bs o 5))) offs

/-- A petal's 16 bytes (table 8.1). -/
def Petal.encode (p : Petal) : Bytes :=
  toLe 4 ((if p.void then 2 ^ 31 else 0) + (if p.second then 2 ^ 30 else 0) + p.bucket * 2 ^ 20 + p.token) ++
  toLe 4 p.score.toNat ++ toLe 8 p.key.toNat

/-- Reads a petal; its score reads as any FP32 value does (R112, R113). -/
def Petal.read (bs : Bytes) (off : Nat) : Petal :=
  let w := fieldAt bs off 4
  { void := bit w 31, second := bit w 30, bucket := bits w 29 20, token := bits w 19 0
    score := toF32 fmtF32 (fieldAt bs (off + 4) 4), key := readW40 bs (off + 8) }

/-- The reserved bits of a petal's key field are clear. -/
def petalClear (bs : Bytes) (off : Nat) : Bool := zeroBytes bs (off + 13) (off + 16)

/-- PARTIAL_SUM payload of one node. -/
def partialPayload (g : Nat) (second down : Bool) (level index : Nat) (rows : List (Nat × Partial)) : Bytes :=
  toLe 1 g ++ toLe 1 ((if second then 2 else 0) + (if down then 1 else 0)) ++ toLe 2 rows.length ++
  toLe 2 (level * 256 + index) ++ List.replicate 42 0 ++
  (rows.map fun (r, p) => toLe 2 r ++ toLe 2 0 ++ toLe 4 p.candidates ++ toLe 4 p.masked ++ toLe 4 p.flushed ++
    toLe 4 p.dropped ++ toLe 4 p.rawMasked ++ toLe 4 p.rawDropped ++ toLe 4 p.gap ++ toLe 8 p.zs.toNat ++
    toLe 8 p.zr.toNat ++ toLe 8 p.hr.toNat ++ toLe 8 p.kd.toNat).flatten

/-- Entry k of a PARTIAL_SUM. -/
def readPartial (pl : Bytes) (k : Nat) : Nat × Partial :=
  let o := 48 + 64 * k
  let c := fun i => fieldAt pl (o + 4 + 4 * i) 4
  (fieldAt pl o 2,
    { zs := readW40 pl (o + 32), zr := readW40 pl (o + 40), hr := readW40 pl (o + 48), kd := readW40 pl (o + 56)
      candidates := c 0, masked := c 1, flushed := c 2, dropped := c 3, rawMasked := c 4, rawDropped := c 5, gap := c 6 })

/-- A node of the canonical tree exists. -/
def nodeOk (level index : Nat) : Bool := decide (level ≤ 8) && decide (index < 2 ^ (8 - level))

/-- Reads a PARTIAL_SUM: its pass group, what it says, and its non-canonical fields. -/
def readPartialSum (src : Nat) (pl : Bytes) : Option (Nat × Taken × Nat) :=
  let n := fieldAt pl 2 2
  let f := fieldAt pl 1 1
  let node := fieldAt pl 4 2
  let offs := (List.range n).flatMap fun k => (List.range 4).map fun i => 48 + 64 * k + 32 + 8 * i
  if decide (fieldAt pl 0 1 < 32) && f / 4 == 0 && decide (1 ≤ n) && decide (n ≤ 512) && decide (48 + 64 * n ≤ pl.length) &&
      node / 4096 == 0 && nodeOk (bits node 11 8) (bits node 7 0) && zeroBytes pl 6 48 &&
      (List.range n).all (fun k => decide (fieldAt pl (48 + 64 * k) 2 < 512) && zeroBytes pl (50 + 64 * k) (52 + 64 * k)) &&
      offs.all (fun o => zeroBytes pl (o + 5) (o + 8)) &&
      (!bit f 1 || (List.range n).all fun k => fieldAt pl (48 + 64 * k + 28) 4 == 0 && fieldAt pl (48 + 64 * k + 56) 5 == 0)
    then some (fieldAt pl 0 1,
      .node src (bit f 1) (bit f 0) (bits node 11 8) (bits node 7 0) ((List.range n).map (readPartial pl)), oddW40 pl offs)
    else none

/-- HISTOGRAM payload of one row and node. -/
def histPayload (g : Nat) (down : Bool) (t : Topic) (level index tau : Nat) (bins : List Bin) : Bytes :=
  toLe 1 g ++ toLe 1 ((if t.second then 4 else 0) + 2 * t.sub + (if down then 1 else 0)) ++ toLe 2 t.row ++
  toLe 2 (level * 256 + index) ++ toLe 2 t.bucket ++ toLe 2 bins.length ++ toLe 2 0 ++ toLe 4 tau ++
  (bins.map fun b => toLe 2 b.bucket ++ toLe 2 0 ++ toLe 4 b.count ++ toLe 8 b.mass.toNat).flatten

/-- Reads a HISTOGRAM. -/
def readHistogram (src : Nat) (pl : Bytes) : Option (Nat × Taken × Nat) :=
  let n := fieldAt pl 8 2
  let f := fieldAt pl 1 1
  let node := fieldAt pl 4 2
  let bins := (List.range n).map fun k =>
    let o := 16 + 16 * k
    ({ bucket := fieldAt pl o 2, count := fieldAt pl (o + 4) 4, mass := readW40 pl (o + 8) } : Bin)
  let offs := (List.range n).map fun k => 24 + 16 * k
  if decide (fieldAt pl 0 1 < 32) && f / 8 == 0 && decide (fieldAt pl 2 2 < 512) && node / 4096 == 0 &&
      nodeOk (bits node 11 8) (bits node 7 0) && decide (fieldAt pl 6 2 < 1024) && (bit f 1 || fieldAt pl 6 2 == 0) &&
      decide (n ≤ 1024) && decide (16 + 16 * n ≤ pl.length) && zeroBytes pl 10 12 && (!bit f 1 || fieldAt pl 12 4 == 0) &&
      bins.all (fun b => decide (b.bucket < 1024) && decide (0 < b.count)) && ascendingBelow 1024 (bins.map (·.bucket)) &&
      (List.range n).all (fun k => zeroBytes pl (18 + 16 * k) (20 + 16 * k)) && offs.all (fun o => zeroBytes pl (o + 5) (o + 8))
    then some (fieldAt pl 0 1,
      .hist src (bit f 0)
        { row := fieldAt pl 2 2, second := bit f 2, purpose := 0, bucket := fieldAt pl 6 2, sub := if bit f 1 then 1 else 0 }
        (bits node 11 8) (bits node 7 0) (fieldAt pl 12 4) bins, oddW40 pl offs)
    else none

/-- PETAL_LIST payload of one fragment. -/
def petalPayload (g : Nat) (down : Bool) (t : Topic) (fragment : Nat) (more : Bool) (ps : List Petal) : Bytes :=
  toLe 1 g ++ toLe 1 ((if down then 4 else 0) + t.purpose) ++ toLe 2 t.row ++ toLe 2 t.bucket ++ toLe 2 t.sub ++
  toLe 2 ps.length ++ toLe 2 (if more then 1 else 0) ++ toLe 4 fragment ++ (ps.map Petal.encode).flatten

/-- Reads a PETAL_LIST; the topic's second bit is that of its petals, clear when it has none. -/
def readPetalList (src : Nat) (pl : Bytes) : Option (Nat × Taken × Nat) :=
  let n := fieldAt pl 8 2
  let f := fieldAt pl 1 1
  let ps := (List.range n).map fun k => Petal.read pl (16 + 16 * k)
  let second := match ps with
    | p :: _ => p.second
    | [] => false
  if decide (fieldAt pl 0 1 < 32) && f / 8 == 0 && decide (fieldAt pl 2 2 < 512) && decide (fieldAt pl 4 2 < 1024) &&
      decide (fieldAt pl 6 2 < 1024) && decide (n ≤ 4096) && decide (16 + 16 * n ≤ pl.length) &&
      decide (fieldAt pl 10 2 < 2) && ((List.range n).all fun k => petalClear pl (16 + 16 * k)) &&
      (ps.all fun p => p.second == second) && (bits f 1 0 != 3 || n == 2) &&
      (between 1 (bits f 1 0) 2 || fieldAt pl 4 2 == 0) && (bits f 1 0 == 2 || fieldAt pl 6 2 == 0)
    then some (fieldAt pl 0 1,
      .petals src (bit f 2)
        { row := fieldAt pl 2 2, second := second, purpose := bits f 1 0, bucket := fieldAt pl 4 2, sub := fieldAt pl 6 2 }
        (fieldAt pl 12 4) (fieldAt pl 10 2 == 1) ps, oddW40 pl ((List.range n).map fun k => 24 + 16 * k))
    else none

/-- BLOOM_CLAIM payload. -/
def claimPayload (g : Nat) (down : Bool) (cs : List Claim) : Bytes :=
  toLe 1 g ++ toLe 1 (if down then 1 else 0) ++ toLe 2 cs.length ++ toLe 4 0 ++
  (cs.map fun c => toLe 2 c.row ++ toLe 2 (if c.void then 1 else 0) ++ toLe 2 c.status ++ toLe 2 0 ++ c.winner.encode ++
    toLe 8 0).flatten

/-- Reads a BLOOM_CLAIM. -/
def readClaims (src : Nat) (pl : Bytes) : Option (Nat × Taken × Nat) :=
  let n := fieldAt pl 2 2
  let cs := (List.range n).map fun k =>
    let o := 8 + 32 * k
    ({ row := fieldAt pl o 2, void := fieldAt pl (o + 2) 1 == 1, status := fieldAt pl (o + 4) 2, winner := Petal.read pl (o + 8) } : Claim)
  if decide (fieldAt pl 0 1 < 32) && decide (fieldAt pl 1 1 < 2) && decide (1 ≤ n) && decide (n ≤ 512) &&
      decide (8 + 32 * n ≤ pl.length) && zeroBytes pl 4 8 &&
      ((List.range n).all fun k =>
        let o := 8 + 32 * k
        decide (fieldAt pl o 2 < 512) && decide (fieldAt pl (o + 2) 1 < 2) && zeroBytes pl (o + 3) (o + 4) &&
          zeroBytes pl (o + 6) (o + 8) && petalClear pl (o + 8) && zeroBytes pl (o + 24) (o + 32))
    then some (fieldAt pl 0 1, .claims src (fieldAt pl 1 1 == 1) cs, oddW40 pl ((List.range n).map fun k => 8 + 32 * k + 16))
    else none

/-- Reads a step-bound payload by type. -/
def readStepBound (typ src : Nat) (pl : Bytes) : Option (Nat × Taken × Nat) :=
  match typ with
  | 4 => readPartialSum src pl
  | 5 => readHistogram src pl
  | 6 => readPetalList src pl
  | 7 => readClaims src pl
  | _ => none

/-- Raises W40_NONCANONICAL for each non-canonical value read (R120). -/
def noteOdd : Nat → State → State
  | 0, s => s
  | n + 1, s => noteOdd n (raiseCount 0x0402 0x70000E 0 0 0 s)

end Sys2Proof.Machine
end

