-- ==== Sys2Proof/Machine/Heads.lean ====
section
/-! DEFINITION. The head bank and its swaps (R166 to R176), and the wake they cause (R92). -/

namespace Sys2Proof.Machine

/-! ### The running step, as other parts see it -/

/-- A step is running: from its begin until action 7 of its boundary (R418). -/
def State.stepRunning (s : State) : Bool := s.steps.run.isSome

/-- The rows of the running step. -/
def State.stepRows (s : State) : List RowRun :=
  match s.steps.run with
  | some r => r.rows
  | none => []

/-- Some row of the running step reads a head slot; once admission has ended, an admitted row (R41). -/
def State.stepReads (s : State) (slot : Nat) : Bool :=
  match s.steps.run with
  | some r => r.rows.any fun x => (!r.admitted || x.refusal == 0) && x.desc.slots.contains slot
  | none => false

/-- Some row of the running step names a context slot (R392). -/
def State.stepNames (s : State) (slot : Nat) : Bool :=
  s.stepRows.any fun x => !x.desc.noContext && x.desc.slot == slot

/-! ### Starts refused -/

/-- STEP_START_REFUSED, with its counter. -/
def refuseStart (s : State) : State := raiseCount 0x0E12 0x709003 0 0 0 s

/-- A start is refused; one by Step Go counts as a command refused, at once or later (R548). -/
def refuseBy (byGo : Bool) (s : State) : State := refuseStart (if byGo then reject s else s)

/-- A reset clears a latched start and one held during a wake (table 14.2); a unit that becomes quiesced refuses them
(R517). -/
def clearStarts (s : State) : State :=
  let gone := s.steps.latched.toList ++ s.steps.held.toList
  gone.foldl (fun s x => refuseBy x.2.1 s) { s with steps := { s.steps with latched := none, held := none } }

/-! ### Waking -/

/-- Starts a wake that ends after `cycles` slow cycles. -/
def startWake (cycles : Nat) (s : State) : State :=
  { s with sensing := { s.sensing with waking := some (s.slow + cycles) } }

/-- The lane clock stays stopped until a deeper reset: bring-up failed or stopped at the record (R489, R533). -/
def ResetPhase.still : ResetPhase → Bool
  | .failed | .scrapped => true
  | _ => false

/-- A wake cause starts the wake from Dormant or Standby (R91, R92); wakes from Dormant are counted. -/
def wake (s : State) : State :=
  if s.sensing.waking.isSome || s.boundary.phase.still then s
  else match s.sensing.power with
    | .dormant => count 0x702004 1 (startWake 1200 s)
    | .standby => startWake 2 s
    | _ => s

/-- Wake time still to run, in ns (R97). -/
def State.wakeLeft (s : State) : Nat :=
  match s.sensing.waking with
  | some e => 10 * (e - s.slow)
  | none => 0

/-! ### Slots -/

/-- A head slot. -/
def State.head (s : State) (i : Nat) : HeadSlot := s.heads.getD i .empty

/-- Replaces a head slot. -/
def setHead (i : Nat) (h : HeadSlot) (s : State) : State := { s with heads := s.heads.set i h }

/-- Frames no slot holds (R167). -/
def State.otherFrames (s : State) (i : Nat) : Nat := s.freeFrames + (s.head i).frames

/-- Slot s's descriptor values as they stand (table 5.5). -/
def State.captureLayout (s : State) (i : Nat) : SlotLayout :=
  let v := fun sub => s.rwVal ((0x2020 + i) * 256 + sub)
  { source := v 0x01, tier := v 0x02, kind := v 0x03, format := v 0x04, width := v 0x05, bricks := v 0x06
    normKind := v 0x07, normBias := v 0x08, normEps := v 0x09, paramFormat := v 0x0A, paramAddr := v 0x0B }

/-- Hidden Width suits the Weight Format (R31). -/
def widthValid (format width : Nat) : Bool :=
  if format = 1 then width % 64 == 0 && between 64 width 32768 else width % 128 == 0 && between 128 width 32768

/-- The captured values pass the checks of R172 against the frames at hand. -/
def SlotLayout.swapValid (l : SlotLayout) (frames : Nat) : Bool :=
  between 1 l.format 2 && between 1 l.kind 2 && decide (l.normKind ≤ 2) && decide (l.normBias ≤ 1) &&
  between 1 l.paramFormat 2 && widthValid l.format l.width && between 0x00800000 l.normEps 0x3F800000 &&
  (l.kind == 2 || l.bricks != 0) && l.source % 4096 == 0 && l.paramAddr % 64 == 0 && decide (l.framesNeeded ≤ frames)

/-- MAKER or FIELD: the states in which steps, swaps and mortar run (R491). -/
def State.runsSteps (s : State) : Bool := s.life.record.state == 2 || s.life.record.state == 4

/-- A swap starts, or is refused (R172, R173 order 1, R491). -/
def startSwap (i : Nat) (l : SlotLayout) (s : State) : State :=
  let h := s.head i
  if s.runsSteps && l.swapValid (s.otherFrames i) then
    wake (setHead i { h with state := 1, next := l, frames := l.framesNeeded, weights := [], bytesDone := 0, failing := false } s)
  else raiseArgs 0x0508 0 i 0 (reject s)

/-- Bytes written in the current or last swap (table 5.5): while the swap loads, how far it has come is a free value (log
entry 70). -/
def State.swapBytes (s : State) (i : Nat) : Nat :=
  let h := s.head i
  if h.state = 1 then (Config.swapBytes s.slow i).toNat % (h.next.framesNeeded * 524288 + 1) else h.bytesDone

/-- A slot's contents are gone and its frames free; Swap Bytes Done stays where a swap under way had come. -/
def clearSlot (i state : Nat) (s : State) : State :=
  setHead i { s.head i with state := state, frames := 0, weights := [], bytesDone := s.swapBytes i, failing := false } s

/-- Empties a slot and frees its frames. -/
def emptySlot (i : Nat) (s : State) : State := clearSlot i 0 s

/-- Every slot Empty, its frames free. -/
def emptyAllSlots (s : State) : State := (List.range 4).foldl (fun s i => emptySlot i s) s

/-- A Finished slot becomes Loaded with its own layout (R174). -/
def loadSlot (i : Nat) (s : State) : State :=
  let h := s.head i
  if h.state = 3 then raiseArgs 0x050A 0 i 0 (setHead i { h with state := 4, layout := h.next } s) else s

/-- Marks every Finished slot Loaded. -/
def loadFinished (s : State) : State := (List.range 4).foldl (fun s i => loadSlot i s) s

/-- A slot with an uncorrectable word becomes Failed at action 4 (table 17.6); one with a held swap keeps it to action 6. -/
def failSlots (s : State) : State :=
  (List.range 4).foldl (fun s i =>
    let h := s.head i
    if !h.failing then s else if h.state = 2 then setHead i { h with frames := 0, weights := [] } s else clearSlot i 5 s) s

/-- Test 10's turn has come, and it has not begun. -/
def State.marchTime (s : State) : Bool := s.upkeep.marchDue.any fun t => decide (t ≤ s.slow)

/-- Test 10's turn has come and no swap runs. -/
def State.marchBegins (s : State) : Bool := s.marchTime && s.heads.all (·.state != 1)

/-- Test 10 begins: every slot is Empty, every frame free (R535). -/
def beginMarch (s : State) : State :=
  if s.marchBegins then emptyAllSlots { s with upkeep := { s.upkeep with marchDue := none } } else s

/-- Time passes with nothing commanded; a test 10 whose turn has come begins. -/
def tick (s : State) : State := beginMarch (idle s)

/-- Test 10 writes and reads the Head Store (R535). -/
def State.marching (s : State) : Bool := s.upkeep.bistRun.any (bit · 10) && s.upkeep.marchDue.isNone

/-- Action 6: swaps held under R42 start. -/
def startHeldSwaps (s : State) : State :=
  (List.range 4).foldl (fun s i =>
    let h := s.head i
    if h.state = 2 then startSwap i h.next (setHead i { h with state := if h.failing then 5 else 4, failing := false } s)
    else s) s

/-- Swap Go to slot i (R172, table 5.7). -/
def swapGoEffect (i : Nat) (s : State) : State :=
  let h := s.head i
  if h.state = 1 ∨ h.state = 2 ∨ h.state = 3 then reject s
  else if h.state = 4 ∧ s.stepReads i then setHead i { h with state := 2, next := s.captureLayout i } s
  else startSwap i (s.captureLayout i) s

/-- Swap Abort to slot i (table 5.7). -/
def swapAbortEffect (i : Nat) (s : State) : State :=
  let h := s.head i
  if h.state = 1 ∨ h.state = 3 then beginMarch (raiseArgs 0x050C 0 i 0 (emptySlot i s))
  else if h.state = 2 then raiseArgs 0x050C 0 i 0 (setHead i { h with state := 4 } s)
  else reject s

/-- An error response to a swap read (table 5.7). -/
def swapSourceError (i : Nat) (s : State) : State :=
  beginMarch (raiseArgs 0x050B 0 i 0 (clearSlot i 5 s))

/-- The last block and the parameter block have arrived (R173 orders 2 to 5, R174). -/
def finishSwap (i : Nat) (s : State) : State :=
  let h := s.head i
  let bytes := h.next.framesNeeded * 524288
  let h' := { h with state := 3, weights := window s.mem h.next.source bytes, bytesDone := bytes,
                     paramCrc := (crc32 (paramBlock s.mem h.next)).toNat }
  let s := raiseArgs 0x0509 0 i 0 (setHead i h' s)
  if s.stepRunning then s else loadSlot i s

/-- The ports are connected and the lanes run, in a life-cycle state in which steps and swaps run (R99, R491). -/
def State.working (s : State) : Bool := s.portsUp && s.laneRuns && s.runsSteps

/-- SWAP_DONE (R173); a swap stands still in a state that runs none (R491; log entry 81), and while test 10 has the Head
Store (R535; log entry 38). -/
def execSwapDone (slot : Nat) (host : List Host.Cell) (s : State) : Host.Outcome State Fault Refusal :=
  if (s.head slot).state = 1 ∧ s.working ∧ ¬ s.marching then .next (beginMarch (finishSwap slot (hostWrites host s)))
  else .fault .swapNotDue

end Sys2Proof.Machine
end

