-- ==== Sys2Proof/Machine/History.lean ====
section
/-! DEFINITION. History nodes and pages (R395 to R402), and the constraint automaton (R408 to R413). -/

namespace Sys2Proof.Machine

/-! ### Constraint automaton -/

/-- The dead state. -/
def deadState : Nat := 0xFFFFFF
/-- No automaton. -/
def noState : Nat := 0xFFFFFE

/-- What the header of an automaton image says (table 13.10). -/
structure AutoImage where
  base : Nat
  vocab : Nat
  states : Nat
  start : Nat
  table : Nat
  size : Nat
deriving DecidableEq, Repr

/-- Reads a header. -/
def AutoImage.at (m : List Host.Cell) (base : Nat) : AutoImage :=
  let h := readMem m base 64
  { base := base, vocab := fieldAt h 8 4, states := fieldAt h 12 3, start := fieldAt h 16 3, table := fieldAt h 20 4
    size := fieldAt h 24 8 }

/-- The header passes table 13.10 for a vocabulary size. -/
def autoUsable (m : List Host.Cell) (base vocab : Nat) : Bool :=
  let h := readMem m base 64
  let a := AutoImage.at m base
  fieldAt h 0 4 == 0x4155544F && fieldAt h 4 2 == 1 && zeroBytes h 6 8 && zeroBytes h 15 16 && zeroBytes h 19 20 &&
  zeroBytes h 32 64 && between 1 a.vocab 1048576 && between 1 a.states 0xFFFFFD && decide (a.start < a.states) &&
  decide (64 + 16 * a.states ≤ a.size) && a.vocab == vocab

/-- A state record that obeys table 13.11: set offset, transition offset, default, transition count. -/
structure AutoState where
  setOff : Nat
  transOff : Nat
  next : Nat
  count : Nat
deriving DecidableEq, Repr

/-- A next state of the image. -/
def AutoImage.nextOk (a : AutoImage) (n : Nat) : Bool := decide (n < a.states) || n == deadState

/-- State S's record, none where it is faulty (R412). -/
def AutoImage.record (a : AutoImage) (m : List Host.Cell) (st : Nat) : Option AutoState :=
  let off := 64 * a.table + 16 * st
  let r := readMem m (a.base + off) 16
  let v : AutoState := { setOff := 64 * fieldAt r 0 4, transOff := 8 * fieldAt r 4 4, next := fieldAt r 8 3
                         count := fieldAt r 12 4 }
  if decide (off + 16 ≤ a.size) && zeroBytes r 11 12 && decide (v.count ≤ 1048576) && a.nextOk v.next &&
      decide (v.setOff + 8 * ceilDiv a.vocab 4096 ≤ a.size) && decide (v.transOff + 8 * v.count ≤ a.size)
    then some v else none

/-- Which lanes of a brick a state allows. -/
inductive LaneSet where
  | nothing
  | everything
  | only (lanes : List Nat)
deriving DecidableEq, Repr

/-- Membership of a lane. -/
def LaneSet.has (x : LaneSet) (lane : Nat) : Bool :=
  match x with
  | .nothing => false
  | .everything => true
  | .only ls => ls.contains lane

/-- Strictly ascending. -/
def ascending : List Nat → Bool
  | a :: b :: rest => decide (a < b) && ascending (b :: rest)
  | _ => true

/-- The lanes of brick b that state S allows, none where a structure met is faulty (R411, R412). -/
def AutoImage.lanes (a : AutoImage) (m : List Host.Cell) (st b : Nat) : Option LaneSet :=
  if st = deadState then some .nothing
  else match a.record m st with
    | none => none
    | some v =>
      let d := readMem m (a.base + v.setOff + 8 * b) 8
      let kind := bits (fieldAt d 0 4) 1 0
      let count := fieldAt d 2 2
      let off := 64 * fieldAt d 4 4
      if bits (fieldAt d 0 4) 15 2 ≠ 0 then none
      else match kind with
        | 0 => if count = 0 ∧ off = 0 then some .nothing else none
        | 1 => if count = 0 ∧ off = 0 then some .everything else none
        | 2 =>
          if count ≠ 0 ∨ a.size < off + 512 then none
          else
            let bm := readMem m (a.base + off) 512
            some (.only ((List.range 4096).filter fun l => bit (fieldAt bm (l / 8) 1) (l % 8)))
        | _ =>
          let ls := (List.range count).map fun i => leNat (readMem m (a.base + off + 2 * i) 2)
          if 1 ≤ count ∧ count ≤ 4096 ∧ off + 2 * count ≤ a.size ∧ ascending ls ∧ ls.all (· < 4096) then some (.only ls)
          else none

/-- The image ranges that a row's mask for one brick needs (R413): address and bytes of the state record, the brick
descriptor, and a bitmap's or list's data. -/
def AutoImage.reads (a : AutoImage) (m : List Host.Cell) (st b : Nat) : List (Nat × Nat) :=
  if st = deadState then []
  else
    let record := (a.base + 64 * a.table + 16 * st, 16)
    match a.record m st with
    | none => [record]
    | some v =>
      let at_ := a.base + v.setOff + 8 * b
      let d := readMem m at_ 8
      let data := a.base + 64 * fieldAt d 4 4
      [record, (at_, 8)] ++
        (match fieldAt d 0 1 % 4 with
        | 2 => [(data, 512)]
        | 3 => [(data, 2 * min 4096 (fieldAt d 2 2))]
        | _ => [])

/-- A transition list of `count` entries, none where it is faulty. -/
def AutoImage.transitions (a : AutoImage) (m : List Host.Cell) (v : AutoState) : Option (List (Nat × Nat)) :=
  let es := (List.range v.count).map fun i => readMem m (a.base + v.transOff + 8 * i) 8
  let ts := es.map fun e => (fieldAt e 0 4, fieldAt e 4 4)
  if ts.all (fun t => decide (t.1 < a.vocab) && a.nextOk t.2) && ascending (ts.map (·.1)) then some ts else none

/-- The state after S for a token (R411); none where the image is faulty. -/
def AutoImage.next (a : AutoImage) (m : List Host.Cell) (st t : Nat) : Option Nat :=
  if st = deadState then some deadState
  else match a.lanes m st (t / 4096), a.record m st with
    | some ls, some v =>
      if !ls.has (t % 4096) then some deadState
      else match a.transitions m v with
        | some ts => some ((lookupKey ts t).getD v.next)
        | none => none
    | _, _ => none

/-- The image of an automaton number that is usable (R409). -/
def State.automaton (s : State) (n : Nat) : Option AutoImage :=
  if n = 0 ∨ !bit s.contexts.usable (n - 1) then none
  else (lookupKey s.contexts.directory n).map (AutoImage.at s.mem)

/-- A read that misses brings its line of 512 bytes into the automaton cache; 4 MiB hold 8,192 lines, and the oldest
gives way (R413; log entry 68). -/
def cacheLine (line : Nat) (s : State) : State :=
  if (lookupKey s.contexts.cache line).isSome then s
  else
    let old := s.contexts.cache
    let kept := if old.length < 8192 then old else old.drop 1
    { s with contexts := { s.contexts with cache := kept ++ [(line, s.bytesAt (512 * line) 512)] } }

/-- The lines of a range. -/
def cacheRange (a n : Nat) (s : State) : State :=
  ((List.range (ceilDiv (a % 512 + n) 512)).map (a / 512 + ·)).foldl (fun s l => cacheLine l s) s

/-- Chip memory as a mask read sees it: a valid line of the cache stands before memory. -/
def State.autoMem (s : State) : List Host.Cell :=
  s.contexts.cache.foldl (fun m e => writeMem m (512 * e.1) e.2) s.mem

/-! ### Nodes and pages -/

/-- Distinct tokens among (token, state) pairs, with their counts. -/
def tally (ts : List Nat) : List (Nat × Nat) :=
  ts.foldl (fun m t => insertKey m t ((lookupKey m t).getD 0 + 1)) []

/-- Pages of a node (R397). -/
def nodePages (tokens : List (Nat × Nat)) : Nat :=
  1 + ceilDiv tokens.length 512 + ceilDiv (tally (tokens.map (·.1))).length 512

/-- A slot that is not Free. -/
def State.context (s : State) (slot : Nat) : Option Context := lookupKey s.contexts.slots slot

/-- A slot as its tenant sees it: none where it reads Free (R386). -/
def State.contextOf (s : State) (tenant slot : Nat) : Option Context :=
  match s.context slot with
  | some c => if c.tenant = tenant then some c else none
  | none => none

/-- Puts a slot's entry back. -/
def setContext (slot : Nat) (c : Context) (s : State) : State :=
  { s with contexts := { s.contexts with slots := insertKey s.contexts.slots slot c } }

/-- Node ids of a chain from the leaf up. -/
def chainFrom (nodes : List (Nat × Node)) : Nat → Nat → List Nat
  | 0, _ => []
  | fuel + 1, id =>
    match lookupKey nodes id with
    | none => []
    | some n => id :: match n.parent with
      | some p => chainFrom nodes fuel p
      | none => []

/-- A context's chain, leaf first. -/
def State.chain (s : State) (c : Context) : List Nat := chainFrom s.contexts.nodes 64 c.leaf

/-- A node. -/
def State.node (s : State) (id : Nat) : Node :=
  (lookupKey s.contexts.nodes id).getD { parent := none, refs := 0, tokens := [], pages := [], paused := false }

/-- A context's committed positions, oldest first. -/
def State.positions (s : State) (c : Context) : List (Nat × Nat) :=
  ((s.chain c).reverse.map fun id => (s.node id).tokens).flatten

/-- A context's length. -/
def State.lengthOf (s : State) (c : Context) : Nat := ((s.chain c).map fun id => (s.node id).tokens.length).sum

/-- The ids of the nodes only this context references: the leaf, and each ancestor while one reference holds it. -/
def privateIds (s : State) : List Nat → List Nat
  | [] => []
  | id :: rest => if (s.node id).refs ≤ 1 then id :: privateIds s rest else []

/-- Private pages but for provisional ones. -/
def State.nodePagesOf (s : State) (c : Context) : Nat :=
  ((privateIds s (s.chain c)).map fun id => (s.node id).pages.length).sum

/-- private_pages (R397). -/
def State.privatePages (s : State) (c : Context) : Nat := s.nodePagesOf c + c.provisional

/-- Pages that copies under way take in an area: those of the nodes they move (R404, R405). -/
def State.pagesCopying (s : State) (pause : Bool) : Nat :=
  ((s.contexts.slots.filter fun c => c.2.state == if pause then 2 else 4).map fun c =>
    (c.2.copying.map fun id => (s.node id).pages.length).sum).sum

/-- Pages in use in an area: those of its nodes and of copies under way into it. -/
def State.pagesUsed (s : State) (pause : Bool) : Nat :=
  ((s.contexts.nodes.filter fun n => n.2.paused == pause).map fun n => n.2.pages.length).sum + s.pagesCopying pause

/-- History Pages Free (R397). -/
def State.historyFree (s : State) : Nat := s.cfg 0x205002 / 4096 - s.pagesUsed false - s.contexts.reservedPages

/-- Pause Pages Free. -/
def State.pauseFree (s : State) : Nat := s.cfg 0x205005 / 4096 - s.pagesUsed true

/-- The `n` lowest indices from `i` on that a list does not hold; `fuel` bounds the search. -/
def lowestFree (used : List Nat) : Nat → Nat → Nat → List Nat
  | 0, _, _ => []
  | _, 0, _ => []
  | fuel + 1, n + 1, i =>
    if used.contains i then lowestFree used fuel (n + 1) (i + 1) else i :: lowestFree used fuel n (i + 1)

/-- `n` free page indices of an area. -/
def State.takePages (s : State) (pause : Bool) (n : Nat) : List Nat :=
  let used := ((s.contexts.nodes.filter fun e => e.2.paused == pause).map fun e => e.2.pages).flatten
  lowestFree used (used.length + n) n 0

/-- Adds to a list of marks. -/
def addMarks (marks new : List Nat) : List Nat := new.foldl (fun ms x => if ms.contains x then ms else ms ++ [x]) marks

/-- Marks a slot changed since the last image (R512). -/
def dirtySlot (slot : Nat) (s : State) : State :=
  { s with snapshot := { s.snapshot with dirtySlots := addMarks s.snapshot.dirtySlots [slot] } }

/-- A page's key: its index, 2^28 above it in the pause area. -/
def Node.pageKey (n : Node) (p : Nat) : Nat := if n.paused then p + 2 ^ 28 else p

/-- Marks pages changed since the last image. -/
def dirtyKeys (keys : List Nat) (s : State) : State :=
  { s with snapshot := { s.snapshot with dirtyPages := addMarks s.snapshot.dirtyPages keys } }

/-- Marks all of a node's pages. -/
def dirtyNode (n : Node) (s : State) : State := dirtyKeys (n.pages.map n.pageKey) s

/-- What page `j` of a node holds: its header, then its positions, then its counts (log entry 16). -/
def Node.page (n : Node) (j : Nat) : List (Nat × Nat) :=
  let k := ceilDiv n.tokens.length 512
  let part := fun (xs : List (Nat × Nat)) (i : Nat) => (xs.drop (512 * i)).take 512
  if j = 0 then (n.parent.getD (2 ^ 32), n.tokens.length) :: n.pages.map fun p => (p, 0)
  else if j ≤ k then part n.tokens (j - 1)
  else part (tally (n.tokens.map (·.1))) (j - 1 - k)

/-- The keys of a node's pages that differ from what the node held before (R512). -/
def Node.changed (old n : Node) : List Nat :=
  ((n.pages.zip (List.range n.pages.length)).filter fun (p, j) =>
    (old.pages[j]?).map old.pageKey != some (n.pageKey p) || old.page j != n.page j).map fun x => n.pageKey x.1

/-- Keeps History Pages Peak: pages in use and reserved (table 13.13). -/
def notePeak (s : State) : State :=
  setCounter 0x708008 (max (s.counter 0x708008) (s.pagesUsed false + s.contexts.reservedPages)) s

/-- Puts a node, its page list grown to what its tokens need. -/
def putNode (id : Nat) (n : Node) (s : State) : State :=
  let more := nodePages n.tokens - n.pages.length
  let n' := { n with pages := n.pages ++ s.takePages n.paused more }
  notePeak (dirtyKeys ((s.node id).changed n') { s with contexts := { s.contexts with nodes := insertKey s.contexts.nodes id n' } })

/-- A new empty leaf under a parent; its id is the counter's value. -/
def newLeaf (parent : Option Nat) (s : State) : State :=
  let id := s.contexts.nextNode
  putNode id { parent := parent, refs := 1, tokens := [], pages := [], paused := false }
    { s with contexts := { s.contexts with nextNode := id + 1 } }

/-- Changes a node's reference count. -/
def addRef (id : Nat) (k : Nat) (s : State) : State :=
  { s with contexts := { s.contexts with nodes := insertKey s.contexts.nodes id { s.node id with refs := (s.node id).refs + k } } }

/-- Drops a reference; a node whose count falls to 0 is freed and drops its parent's (R395). -/
def dropRef : Nat → Nat → State → State
  | 0, _, s => s
  | fuel + 1, id, s =>
    let n := s.node id
    if 1 < n.refs then
      { s with contexts := { s.contexts with nodes := insertKey s.contexts.nodes id { n with refs := n.refs - 1 } } }
    else
      let s := dirtyNode n { s with contexts := { s.contexts with nodes := eraseKey s.contexts.nodes id } }
      match n.parent with
      | some p => dropRef fuel p s
      | none => s

/-- Frees a slot, the pages it alone holds and its references. -/
def freeSlot (slot : Nat) (s : State) : State :=
  match s.context slot with
  | none => s
  | some c =>
    dirtySlot slot (dropRef 65 c.leaf
      { s with contexts := { s.contexts with slots := eraseKey s.contexts.slots slot } })

/-- Appends one token with the automaton state after it; a leaf of 65,536 positions closes first (R395). -/
def appendRaw (slot token st : Nat) (s : State) : State :=
  match s.context slot with
  | none => s
  | some c =>
    let full := (s.node c.leaf).tokens.length ≥ 65536
    let id := if full then s.contexts.nextNode else c.leaf
    let s := if full then newLeaf (some c.leaf) s else s
    let n := s.node id
    let s := putNode id { n with tokens := n.tokens ++ [(token, st)] } s
    dirtySlot slot (setContext slot { c with leaf := id, automatonState := st } s)

/-- Appends a token and advances the automaton (R411, R412): AUTOMATON_FAULT and AUTOMATON_DEAD as they arise. -/
def appendToken (slot token : Nat) (s : State) : State :=
  match s.context slot with
  | none => s
  | some c =>
    if c.automatonState = noState then appendRaw slot token noState s
    else match s.automaton c.automaton with
      | none => appendRaw slot token c.automatonState s
      | some a =>
        let r := a.next s.mem c.automatonState token
        let s1 := if r.isNone then raiseCount 0x0D0E 0x701004 0 slot 0 s else s
        let st := r.getD deadState
        let s2 := appendRaw slot token st s1
        if st = deadState ∧ c.automatonState ≠ deadState then raiseCount 0x0D0F 0x708007 0 slot 0 s2 else s2

/-- Pages that appending tokens to a context takes, and the leaves it opens. -/
def State.appendNeed (s : State) (c : Context) (tokens : List Nat) : Nat × Nat :=
  let leaf := s.node c.leaf
  let room := 65536 - leaf.tokens.length
  let here := leaf.tokens ++ (tokens.take room).map fun t => (t, 0)
  let rest := chunksOf 65536 tokens.length (tokens.drop room)
  (nodePages here - leaf.pages.length + (rest.map fun c => nodePages (c.map fun t => (t, 0))).sum, rest.length)

/-- A fork's new slot from its parent's (R396): where the parent's leaf holds positions both get a new leaf. -/
def forkSlot (parent child : Nat) (seed : Nat) (s : State) : State :=
  match s.context parent with
  | none => s
  | some c =>
    let leaf := s.node c.leaf
    let fresh := fun (id : Nat) (s : State) =>
      dirtySlot child (setContext child
        { c with seed := seed, leaf := id, opened := s.now, state := 1, cancelPending := false, provisional := 0,
                 lastStep := 0 } s)
    if leaf.tokens = [] then
      let id := s.contexts.nextNode
      let s := newLeaf leaf.parent s
      fresh id (match leaf.parent with
        | some p => addRef p 1 s
        | none => s)
    else
      let id := s.contexts.nextNode
      let s := newLeaf (some c.leaf) (newLeaf (some c.leaf) s)
      fresh (id + 1) (dirtySlot parent (setContext parent { c with leaf := id } (addRef c.leaf 1 s)))

/-- Pages a fork takes and the depth its chains reach. -/
def State.forkNeed (s : State) (c : Context) : Nat × Nat :=
  if (s.node c.leaf).tokens = [] then (1, (s.chain c).length) else (2, (s.chain c).length + 1)

/-- Moves nodes to an area: pages there, none in the other. -/
def movePages (pause : Bool) (ids : List Nat) (s : State) : State :=
  ids.foldl (fun s id =>
    let n := s.node id
    if n.paused == pause then s
    else putNode id { n with paused := pause, pages := [] } (dirtyNode n s)) s

/-- The nodes a copy to an area moves: those only the slot references that are not there. -/
def State.toMove (s : State) (c : Context) (pause : Bool) : List Nat :=
  (privateIds s (s.chain c)).filter fun id => (s.node id).paused != pause

/-- Provisional pages of a chain of `n` buds (R402). -/
def State.provisionalPages (s : State) (c : Context) (n : Nat) : Nat :=
  let k := (s.node c.leaf).tokens.length % 512
  (if k = 0 then 0 else 1) + (if k = 0 ∨ 512 < k + n then 1 else 0) + 1

end Sys2Proof.Machine
end

