-- ==== Sys2Proof/Machine/ContextCommands.lean ====
section
/-! DEFINITION. Context batches and commands (R388 to R394), pause, resume and expiry (R404 to R407). -/

namespace Sys2Proof.Machine

/-! ### Free values -/

/-- A free 16-bit value and the state with the counter advanced (log entry 6). -/
def free16 (s : State) : Nat × State := ((Config.freeWord s.fresh).toNat % 65536, { s with fresh := s.fresh + 1 })

/-! ### Batches -/

/-- No batch yet. -/
def Batch.idle : Batch := { state := 0, addr := 0, count := 0, done := 0, copies := [], held := false, listError := false }

/-- A tenant's batch. -/
def State.batch (s : State) (t : Nat) : Batch := (lookupKey s.contexts.batches t).getD .idle

/-- Sets a tenant's batch. -/
def setBatch (t : Nat) (b : Batch) (s : State) : State :=
  { s with contexts := { s.contexts with batches := insertKey s.contexts.batches t b } }

/-- A copy of the batch under way, not one an earlier batch left. -/
def Batch.owns (b : Batch) (addr : Nat) : Bool := decide (b.addr ≤ addr) && decide (addr < b.addr + 32 * b.count)

/-- Length of a slot as its tenant sees it (R386, R390). -/
def State.lengthSeen (s : State) (t slot : Nat) : Nat :=
  match s.contextOf t slot with
  | some c => s.lengthOf c
  | none => 0

/-- Writes a record's results (R389) and counts a refusal (table 13.13). -/
def writeResults (addr status slot length : Nat) (s : State) : State :=
  let s := writeBytes (addr + 22) (toLe 2 slot ++ toLe 4 length) (writeBytes (addr + 6) (toLe 2 status) s)
  if status = 0 then s else count 0x708003 1 s

/-- The batch goes on behind its next record. -/
def advanceBatch (t : Nat) (s : State) : State :=
  let b := s.batch t
  setBatch t { b with state := 1, done := b.done + 1, held := false, listError := false } s

/-- Ends the next record with its results. -/
def endRecord (t addr status slot length : Nat) (s : State) : State :=
  advanceBatch t (writeResults addr status slot length s)

/-- Ends a record that changes nothing (R390). -/
def failRecord (t addr : Nat) (r : CtxRecord) (status : Nat) (s : State) : State :=
  if r.op = 1 then endRecord t addr status 0 0 s else endRecord t addr status r.slot (s.lengthSeen t r.slot) s

/-- Ends the copy of a slot with a status: the record's results are written (R390). -/
def endCopy (slot status : Nat) (s : State) : State :=
  s.contexts.batches.foldl (fun s e =>
    e.2.copies.foldl (fun s c =>
      if c.2 = slot then
        let s := writeResults c.1 status slot (s.lengthSeen e.1 slot) s
        let b := s.batch e.1
        setBatch e.1 { b with copies := b.copies.filter (· != c) } s
      else s) s) s

/-- Frees a slot; a copy under way ends with a status the manual does not state (log entry 6). -/
def freeContext (slot : Nat) (s : State) : State :=
  let busy := s.contexts.batches.any fun e => e.2.copies.any (·.2 == slot)
  let s := freeSlot slot s
  if busy then
    let (st, s) := free16 s
    endCopy slot st s
  else s

/-! ### The commands (table 13.5) -/

/-- The lowest key a rising list does not hold. -/
def lowestKey {α : Type} : List (Nat × α) → Nat → Nat
  | [], i => i
  | (k, _) :: rest, i => if k = i then lowestKey rest (i + 1) else i

/-- The lowest-numbered Free slot. -/
def State.freeSlotNumber (s : State) : Option Nat :=
  let i := lowestKey s.contexts.slots 0
  if i < 8192 then some i else none

/-- CONTEXT_NOT_OPEN, CONTEXT_CANCELLING, and CONTEXT_PAUSED or CONTEXT_BUSY for commands on an Open slot. -/
def slotStatus (c : Option Context) : Nat :=
  match c with
  | none => 0x0D02
  | some c => if c.cancelPending then 0x0D05 else if c.state = 3 then 0x0D03 else if c.state = 1 then 0 else 0x0D04

/-- OPEN. -/
def openBody (t addr : Nat) (r : CtxRecord) (s : State) : State :=
  match s.freeSlotNumber with
  | none => failRecord t addr r 0x0D01 (count 0x708002 1 s)
  | some slot =>
    if r.automaton ≠ 0 ∧ s.automaton r.automaton = none then failRecord t addr r 0x0D0B s
    else if s.historyFree < 1 then failRecord t addr r 0x0D09 s
    else
      let id := s.contexts.nextNode
      let c : Context :=
        { state := 1, cancelPending := false, tenant := t, seed := r.arg, automaton := r.automaton
          automatonState := match s.automaton r.automaton with
            | some a => a.start
            | none => noState
          leaf := id, opened := s.now, expiry := 0, timeToLive := 0, lastStep := 0, provisional := 0, copying := [] }
      endRecord t addr 0 slot 0 (count 0x708001 1 (dirtySlot slot (setContext slot c (newLeaf none s))))

/-- FORK (R396). -/
def forkBody (t addr : Nat) (r : CtxRecord) (s : State) : State :=
  match s.contextOf t r.slot with
  | none => failRecord t addr r 0x0D02 s
  | some c =>
    if slotStatus (some c) ≠ 0 then failRecord t addr r (slotStatus (some c)) s
    else match s.freeSlotNumber with
      | none => failRecord t addr r 0x0D01 (count 0x708002 1 s)
      | some child =>
        let (pages, depth) := s.forkNeed c
        if 64 < depth then failRecord t addr r 0x0D08 s
        else if s.historyFree < pages then failRecord t addr r 0x0D09 s
        else endRecord t addr 0 child (s.lengthOf c) (count 0x708001 1 (forkSlot r.slot child r.arg s))

/-- APPEND; the token list is read whole first (R547). Where it cannot be read, the check of HISTORY_SPACE, whose pages are not
known, is left out (the model's choice, log entry 88). -/
def appendBody (t addr : Nat) (r : CtxRecord) (s : State) : State :=
  let words := wordList s.mem r.arg r.count
  let readable := !(s.batch t).listError
  if readable && !words.all (fun w => decide (w < s.vocab) && decide (w < 2 ^ 20)) then failRecord t addr r 0x0D06 s
  else match s.contextOf t r.slot with
    | none => failRecord t addr r 0x0D02 s
    | some c =>
      let (pages, leaves) := s.appendNeed c words
      if slotStatus (some c) ≠ 0 then failRecord t addr r (slotStatus (some c)) s
      else if 1048576 < s.lengthOf c + r.count then failRecord t addr r 0x0D07 s
      else if 64 < (s.chain c).length + leaves then failRecord t addr r 0x0D08 s
      else if readable && decide (s.historyFree < pages) then failRecord t addr r 0x0D09 s
      else if !readable then failRecord t addr r 0x1121 s
      else
        let s := words.foldl (fun s w => appendToken r.slot w s) s
        endRecord t addr 0 r.slot (s.lengthSeen t r.slot) s

/-- A copy between the tiers starts; its record ends when it does. -/
def startCopy (t addr slot : Nat) (s : State) : State :=
  let b := s.batch t
  wake (advanceBatch t (setBatch t { b with copies := b.copies ++ [(addr, slot)] } s))

/-- PAUSE (R404). -/
def pauseBody (t addr : Nat) (r : CtxRecord) (s : State) : State :=
  match s.contextOf t r.slot with
  | none => failRecord t addr r 0x0D02 s
  | some c =>
    if slotStatus (some c) ≠ 0 then failRecord t addr r (slotStatus (some c)) s
    else if s.pauseFree < s.privatePages c then failRecord t addr r 0x0D0A s
    else startCopy t addr r.slot (dirtySlot r.slot (setContext r.slot { c with state := 2, timeToLive := r.arg, copying := s.toMove c true } s))

/-- RESUME (R405). -/
def resumeBody (t addr : Nat) (r : CtxRecord) (s : State) : State :=
  match s.contextOf t r.slot with
  | none => failRecord t addr r 0x0D02 s
  | some c =>
    if c.cancelPending then failRecord t addr r 0x0D05 s
    else if c.state = 2 ∨ c.state = 4 then failRecord t addr r 0x0D04 s
    else if s.historyFree < s.privatePages c then failRecord t addr r 0x0D09 s
    else startCopy t addr r.slot
      (notePeak (dirtySlot r.slot (setContext r.slot { c with state := 4, copying := s.toMove c false } s)))

/-- CANCEL: at once while no step runs, else at action 3 (R392). -/
def cancelBody (t addr : Nat) (r : CtxRecord) (s : State) : State :=
  match s.contextOf t r.slot with
  | none => failRecord t addr r 0x0D02 s
  | some c =>
    if c.cancelPending then failRecord t addr r 0x0D05 s
    else
      let s := if s.stepRunning then dirtySlot r.slot (setContext r.slot { c with cancelPending := true } s)
        else freeContext r.slot s
      endRecord t addr 0 r.slot (s.lengthSeen t r.slot) s

/-- A Paused slot is freed at its expiry_time (R406). -/
def expireSlot (slot : Nat) (s : State) : State := raiseCount 0x0D12 0x708006 0 slot 0 (freeSlot slot s)

/-- A slot whose time to live has ended is freed before a command that names it takes its turn (R406). -/
def expireDue (slot : Nat) (s : State) : State :=
  if (s.context slot).any fun c => c.state == 3 && decide (c.expiry ≤ s.now) then expireSlot slot s else s

/-- One record's command by its op. -/
def runOp (t addr : Nat) (r : CtxRecord) (s : State) : State :=
  if !r.valid then failRecord t addr r 0x0D06 s
  else match r.op with
    | 1 => openBody t addr r s
    | 2 => forkBody t addr r s
    | 3 => appendBody t addr r s
    | 4 => pauseBody t addr r s
    | 5 => resumeBody t addr r s
    | _ => cancelBody t addr r s

/-- The address and content of a tenant's next record. -/
def State.nextRecord (s : State) (t : Nat) : Nat × CtxRecord :=
  let b := s.batch t
  let addr := b.addr + 32 * b.done
  (addr, CtxRecord.parse (s.bytesAt addr 32))

/-- The next record of a running batch is due, and is one of an op; an unknown op ends at any of them (R390). -/
def State.recordDue (s : State) (t op : Nat) : Bool :=
  let b := s.batch t
  let r := (s.nextRecord t).2
  s.portsUp && b.state == 1 && decide (b.done < b.count) && (r.op == op || !between 1 r.op 6)

/-- The record must be held: it names a slot that a row of the running step names (R392). -/
def State.recordHeld (s : State) (r : CtxRecord) : Bool := between 2 r.op 5 && s.stepNames r.slot

/-- The next record is held, the batch with it, or runs by the meaning of its op. One that names a slot both cancelling and
named by the running step is held, and so ends CONTEXT_NOT_OPEN (the model's choice, log entry 88). -/
def runRecord (t : Nat) (body : Nat → Nat → CtxRecord → State → State) (s : State) : State :=
  let (addr, r) := s.nextRecord t
  if s.recordHeld r then setBatch t { s.batch t with state := 2, held := true } s
  else if !r.valid then failRecord t addr r 0x0D06 s
  else body t addr r (if r.op = 1 then s else expireDue r.slot s)

/-- The last page of a pause is written (R404 orders 2 and 3). -/
def finishPause (slot : Nat) (c : Context) (s : State) : State :=
  endCopy slot 0 (count 0x708004 1 (dirtySlot slot (movePages true c.copying
    (setContext slot { c with state := 3, copying := [], expiry := (s.now + c.timeToLive) % 2 ^ 64 } s))))

/-- PAUSE_COPY_DONE. -/
def execPauseCopyDone (slot : Nat) (s : State) : Host.Outcome State Fault Refusal :=
  match s.context slot with
  | some c => if c.state = 2 ∧ s.portsUp ∧ s.laneRuns then .next (finishPause slot c s) else .fault .contextNotDue
  | none => .fault .contextNotDue

/-- The last page of a resume is written (R405 order 3). -/
def finishResume (slot : Nat) (c : Context) (s : State) : State :=
  endCopy slot 0 (count 0x708005 1 (dirtySlot slot (movePages false c.copying
    (setContext slot { c with state := 1, copying := [], expiry := 0 } s))))

/-- RESUME_COPY_DONE. -/
def execResumeCopyDone (slot : Nat) (s : State) : Host.Outcome State Fault Refusal :=
  match s.context slot with
  | some c => if c.state = 4 ∧ s.portsUp ∧ s.laneRuns then .next (finishResume slot c s) else .fault .contextNotDue
  | none => .fault .contextNotDue

/-- CONTEXT_BATCH_DONE: every record's status is written (R390). -/
def execContextBatchDone (tenant : Nat) (s : State) : Host.Outcome State Fault Refusal :=
  let b := s.batch tenant
  if b.state = 1 ∧ b.done = b.count ∧ b.copies.all (fun c => !b.owns c.1) then
    .next (raiseArgs 0x0D14 0 tenant 0 (setBatch tenant { b with state := 3 } s))
  else .fault .contextNotDue

/-- CONTEXT_EXPIRED: the time to live of a Paused slot has ended (R406). -/
def execContextExpired (slot : Nat) (s : State) : Host.Outcome State Fault Refusal :=
  match s.context slot with
  | some c => if c.state = 3 ∧ c.expiry ≤ s.now then .next (expireSlot slot s) else .fault .contextNotDue
  | none => .fault .contextNotDue

/-! ### What other parts do to contexts -/

/-- Context Batch Go while no batch of the tenant runs (R388, R517). -/
def batchGoEffect (t : Nat) (s : State) : State :=
  let b := s.batch t
  let addr := s.rwVal ((0x4000 + t) * 256 + 0x20)
  let n := s.rwVal ((0x4000 + t) * 256 + 0x21)
  if s.restore.quiesced ≠ 0 ∨ addr % 64 ≠ 0 ∨ !between 1 n 4096 then reject (setBatch t { b with state := 4 } s)
  else setBatch t { b with state := 1, addr := addr, count := n, done := 0, held := false, listError := false } s

/-- Action 3: pending cancels are applied, then held commands run (R392), tenant by tenant in ascending number (the model's
choice, log entry 88). -/
def applyCancels (s : State) : State :=
  let s := s.contexts.slots.foldl (fun s e => if e.2.cancelPending then freeContext e.1 s else s) s
  s.contexts.batches.foldl (fun s e =>
    if e.2.held then
      let (addr, r) := s.nextRecord e.1
      runOp e.1 addr r (expireDue r.slot s)
    else s) s

/-- A lane reset abandons copies: the slot returns to the state it left (table 13.8). -/
def abandonCopies (s : State) : State :=
  s.contexts.slots.foldl (fun s e =>
    if e.2.state = 2 then setContext e.1 { e.2 with state := 1, copying := [] } s
    else if e.2.state = 4 then setContext e.1 { e.2 with copying := [], state := if (s.node e.2.leaf).paused then 3 else 1 } s
    else s) s

/-- The records of abandoned copies end, with a status the manual does not state (log entry 6). -/
def settleCopies (s : State) : State :=
  s.contexts.batches.foldl (fun s e =>
    e.2.copies.foldl (fun s c =>
      if (s.context c.2).any (fun x => x.state == 2 || x.state == 4) then s
      else
        let (st, s) := free16 s
        endCopy c.2 st s) s) s

/-- A resume read meets an error: the context is lost (R405). Its records end with the status CONTEXT_NOT_OPEN written (the
model's choice, log entry 88). -/
def loseContext (slot : Nat) (s : State) : State := raiseArgs 0x0D13 0 slot 0 (endCopy slot 0x0D02 (freeSlot slot s))

/-- Context Entry (table 13.2) of the slot a tenant selected. -/
def State.contextEntry (s : State) (t : Nat) : Bytes :=
  match s.contextOf t (s.rwVal ((0x4000 + t) * 256 + 0x24)) with
  | none => toLe 64 0
  | some c =>
    toLe 1 c.state ++ toLe 1 (if c.cancelPending then 1 else 0) ++ toLe 2 c.tenant ++ toLe 4 (s.lengthOf c) ++ toLe 8 c.seed ++
    toLe 2 c.automaton ++ toLe 2 (s.chain c).length ++ toLe 4 c.automatonState ++ toLe 4 (s.privatePages c) ++ toLe 4 0 ++
    toLe 8 c.opened ++ toLe 8 (if c.state = 3 then c.expiry else 0) ++ toLe 8 c.lastStep ++ toLe 8 0

end Sys2Proof.Machine
end

