-- ==== Sys2Proof/Machine/Flags.lean ====
section
/-! DEFINITION. Status codes: which are refusal reasons (table 14.6), how they rank (table 14.12, R325, R435), the
counters they advance, and the bloom's flags (table 14.8). -/

namespace Sys2Proof.Machine

/-- The refusal reasons of table 14.6. -/
def refusalReasons : List Nat :=
  [0x0E01, 0x0E02, 0x0E03, 0x0A06, 0x0B03, 0x0C05, 0x0C03, 0x0C02, 0x0B01, 0x0B02, 0x0C01, 0x0D02, 0x0D03, 0x0D0C,
   0x0D0D, 0x0D07, 0x0D08, 0x0E04, 0x0505, 0x0E07, 0x0504, 0x0605, 0x0507, 0x0503, 0x0701, 0x0C06, 0x0506, 0x0801,
   0x0D09, 0x0C04, 0x0E05, 0x0E06]

/-- A status is a refusal reason. -/
def isRefusal (code : Nat) : Bool := refusalReasons.contains code

/-- The row statuses of table 14.12 from rank 2 on. -/
def rowStatuses : List Nat :=
  [0x0501, 0x0502, 0x0702, 0x0D0E, 0x0401, 0x0703, 0x0704, 0x0C07, 0x0C08, 0x0802, 0x0803, 0x0A02, 0x0A03, 0x0A01,
   0x1120, 0x1121, 0x0B04]

/-- The rank of a status other than OK: refusal reasons by code, then table 14.12, then any other code. -/
def statusRank (code : Nat) : Nat :=
  if isRefusal code then code else
    match rowStatuses.findIdx? (· == code) with
    | some i => 0x10000 + i
    | none => 0x20000 + code

/-- The status a row ends with when two apply (R443). -/
def mergeStatus (a b : Nat) : Nat :=
  if a = 0 then b else if b = 0 then a else if statusRank a ≤ statusRank b then a else b

/-- The first of several statuses. -/
def mergeStatuses (xs : List Nat) : Nat := xs.foldl mergeStatus 0

/-- The bloom flags of table 14.8. -/
structure BloomFlags where
  notAdmitted : Bool := false
  residualEmpty : Bool := false
  budBonus : Bool := false
  budResidual : Bool := false
  budAccepted : Bool := false
  targetExcluded : Bool := false
  teacher : Bool := false
  heirloom : Bool := false
  criticNonfinite : Bool := false
  criticValid : Bool := false
  klValid : Bool := false
  provingUniform : Bool := false
  greedy : Bool := false
  void : Bool := false
deriving DecidableEq, Repr

/-- A bit of weight 2^i. -/
def flagBit (b : Bool) (i : Nat) : Nat := if b then 2 ^ i else 0

/-- The flags as the bloom holds them. -/
def BloomFlags.encode (f : BloomFlags) : Nat :=
  flagBit f.notAdmitted 14 + flagBit f.residualEmpty 13 + flagBit f.budBonus 12 + flagBit f.budResidual 11 +
  flagBit f.budAccepted 10 + flagBit f.targetExcluded 9 + flagBit f.teacher 8 + flagBit f.heirloom 7 +
  flagBit f.criticNonfinite 6 + flagBit f.criticValid 5 + flagBit f.klValid 4 + flagBit f.provingUniform 3 +
  flagBit f.greedy 2 + flagBit f.void 0

end Sys2Proof.Machine
end

