-- ==== Sys2Proof/Machine/Ecc.lean ====
section
/-! DEFINITION. Words found in error (R501 to R505, tables 17.5, 17.6), the reload of the microprogram RAM, and what
the fall of Heirloom Available does (R539). -/

namespace Sys2Proof.Machine

/-! ### Rows of the running step -/

/-- Changes the running step. -/
def withRun (f : StepRun → StepRun) (s : State) : State :=
  { s with steps := { s.steps with run := s.steps.run.map f } }

/-- Gives row `i` of the step a status, merged with the one it has (R443). -/
def markRow (i status : Nat) (s : State) : State :=
  withRun (fun r => { r with rows := r.rows.modify i fun x => { x with status := mergeStatus x.status status } }) s

/-- Gives several rows a status. -/
def markRows (is : List Nat) (status : Nat) (s : State) : State := is.foldl (fun s i => markRow i status s) s

/-- The descriptors that name a context slot. -/
def State.rowsOfSlot (s : State) (slot : Nat) : List Nat :=
  (List.range s.stepRows.length).filter fun i =>
    match s.stepRows[i]? with
    | some x => !x.desc.noContext && x.desc.slot == slot
    | none => false

/-! ### Heirloom Available -/

/-- Run Mode applied. -/
def State.runMode (s : State) : Nat := s.cfg 0x200020

/-- Run Mode becomes 0 with a refuse reason (R538, R539). -/
def refuseMode (reason : Nat) (s : State) : State :=
  raise 0x0F05
    { s with
      dict := { s.dict with applied := insertKey s.dict.applied 0x200020 0 }
      upkeep := { s.upkeep with modeReason := reason } }

/-- Notes a fall of Heirloom Available while Run Mode is 2: at action 5 of the running step, or at once (R539). -/
def noteHeirloom (old s : State) : State :=
  if old.fseq.heirloom && !s.fseq.heirloom && s.runMode == 2 then
    if s.stepRunning then { s with upkeep := { s.upkeep with heirloomFell := true } } else refuseMode 4 s
  else s

/-! ### Errors in memories -/

/-- Raises ECC_CORRECTED once per memory and window of 1,048,576 ns (R503). -/
def correctedWord (where_ : Nat) (e : EccHit) (s : State) : State :=
  let s := count (0x70A000 + e.memory) 1 s
  let w := s.now / 1048576
  if lookupKey s.upkeep.corrected e.memory = some w then s
  else raiseArgs 0x1101 e.word e.memory where_
    { s with upkeep := { s.upkeep with corrected := insertKey s.upkeep.corrected e.memory w } }

/-- Advances Uncorrectable Words and raises ECC_UNCORRECTABLE (R504). -/
def noteUncorrectable (where_ : Nat) (e : EccHit) (s : State) : State :=
  raiseCount 0x1102 (0x70A100 + e.memory) e.word e.memory where_ s

/-- A slot whose frame holds an uncorrectable word is to fail at action 4. -/
def failLater (i : Nat) (s : State) : State := setHead i { s.head i with failing := true } s

/-- A slot becomes Failed and its frames are freed. -/
def failNow (i : Nat) (s : State) : State := clearSlot i 5 s

/-- The context slot of a word of the context table is lost (table 17.6); while the ports are isolated no record is
written (R45), and that of a copy under way ends when they connect. -/
def loseSlot (slot : Nat) (s : State) : State :=
  let s := markRows (s.rowsOfSlot slot) 0x1120 s
  if (s.context slot).isSome then
    raiseArgs 0x0D13 0 slot 0 (if s.portsUp then freeContext slot s else freeSlot slot s)
  else s

/-- The microprogram RAM reloads from the persistent image if its digest is the loaded one; after a reload that failed the
functions stay absent until a power-on or unit reset (R504). -/
def reloadMicro (s : State) : State :=
  let img := s.nvm.image
  let s' := { s with fseq := { s.fseq with
    loaded := if s.fseq.loaded.isSome ∧ imageDigest img = s.fseq.digest then some img else none, reload := false } }
  announceCaps s (noteHeirloom s s')

/-- The descriptors that name a head slot. -/
def State.rowsOfHead (s : State) (slot : Nat) : List Nat :=
  (List.range s.stepRows.length).filter fun i => (s.stepRows[i]?).any fun x => x.desc.slots.contains slot

/-- The automaton cache line that holds a word is invalidated (table 17.6). -/
def dropLine (word : Nat) (s : State) : State :=
  { s with contexts := { s.contexts with cache := s.contexts.cache.eraseIdx (word / 64) } }

/-- An uncorrectable word met by a read for work; `rows` are descriptor indices (table 17.6). -/
def uncorrectableWork (e : EccHit) (rows group : List Nat) (s : State) : State :=
  let s := noteUncorrectable 1 e s
  match e.memory with
  | 1 => failLater e.slot (markRows group 0x1120 s)
  | 2 => markRows rows 0x1120 s
  | 3 => markRows (if e.region then s.rowsOfHead e.slot else rows) 0x1120 s
  | 4 => loseSlot (e.word / 32) s
  | 5 => dropLine e.word s
  | 6 => let s := markRows rows 0x1120 s
    { s with fseq := { s.fseq with reload := true } }
  | 7 => { s with nvm := { s.nvm with settings := none } }
  | _ => s

/-- An uncorrectable word found by the scrub (table 17.6). -/
def uncorrectableScrub (e : EccHit) (s : State) : State :=
  let s := noteUncorrectable 2 e s
  match e.memory with
  | 1 => if s.stepReads e.slot then failLater e.slot s
    else if (s.head e.slot).state = 0 then s else beginMarch (failNow e.slot s)
  | 4 => loseSlot (e.word / 32) s
  | 5 => dropLine e.word s
  | 6 => if s.stepRunning then { s with fseq := { s.fseq with reload := true } } else reloadMicro s
  | 7 => { s with nvm := { s.nvm with settings := none } }
  | _ => s

/-- Words met by reads for the work of a pass group that holds descriptors `start` to `start + n − 1`. -/
def workHits (start n : Nat) (es : List EccHit) (s : State) : State :=
  es.foldl (fun s e =>
    if e.uncorrectable then
      uncorrectableWork e ((e.rows.filter fun r => decide (r < n)).map (start + ·)) ((List.range n).map (start + ·)) s
    else correctedWord 1 e s) s

/-- Words met by the reads of a pass group. -/
def groupHits (g : Nat) (es : List EccHit) (s : State) : State :=
  match s.steps.run.bind fun r => r.groups[g]? with
  | some gr => workHits gr.start gr.count es s
  | none => s

/-- A word of the context table or the automaton cache met by a command's own read (table 17.6). -/
def contextHit (e : EccHit) (s : State) : State :=
  if !e.uncorrectable then correctedWord 1 e s
  else
    let s := noteUncorrectable 1 e s
    if e.memory = 4 then loseSlot (e.word / 32) s else dropLine e.word s

/-- Words that a command's own reads of the context table and the automaton cache meet (R504; log entry 84). -/
def readHits (es : List EccHit) (s : State) : State :=
  (es.filter fun e => between 4 e.memory 5).foldl (fun s e => contextHit e s) s

/-! ### The context commands, with what their reads of the context table and the automaton cache find -/

/-- The next record of a tenant runs by the meaning of its op, once the reads for it are made. -/
def readRecord (t : Nat) (body : Nat → Nat → CtxRecord → State → State) (ecc : List EccHit) (s : State) : State :=
  runRecord t body (readHits ecc s)

/-- OPEN. -/
def execOpenCtx (tenant : Nat) (s : State) (ecc : List EccHit := []) : Host.Outcome State Fault Refusal :=
  if s.recordDue tenant 1 then .next (readRecord tenant openBody ecc s) else .fault .contextNotDue

/-- FORK. -/
def execFork (tenant : Nat) (s : State) (ecc : List EccHit := []) : Host.Outcome State Fault Refusal :=
  if s.recordDue tenant 2 then .next (readRecord tenant forkBody ecc s) else .fault .contextNotDue

/-- APPEND. -/
def execAppend (tenant : Nat) (s : State) (ecc : List EccHit := []) : Host.Outcome State Fault Refusal :=
  if s.recordDue tenant 3 then .next (readRecord tenant appendBody ecc s) else .fault .contextNotDue

/-- PAUSE. -/
def execPause (tenant : Nat) (s : State) (ecc : List EccHit := []) : Host.Outcome State Fault Refusal :=
  if s.recordDue tenant 4 then .next (readRecord tenant pauseBody ecc s) else .fault .contextNotDue

/-- RESUME. -/
def execResume (tenant : Nat) (s : State) (ecc : List EccHit := []) : Host.Outcome State Fault Refusal :=
  if s.recordDue tenant 5 then .next (readRecord tenant resumeBody ecc s) else .fault .contextNotDue

/-- CANCEL. -/
def execCancel (tenant : Nat) (s : State) (ecc : List EccHit := []) : Host.Outcome State Fault Refusal :=
  if s.recordDue tenant 6 then .next (readRecord tenant cancelBody ecc s) else .fault .contextNotDue

end Sys2Proof.Machine
end

