-- ==== Sys2Proof/Machine/Scoring.lean ====
section
/-! DEFINITION. A pass group's intake, tiles and brick drains (R139 to R165, R191 to R193, R210 to R240, R264 to R269). -/

namespace Sys2Proof.Machine

/-! ### Groups and rows -/

/-- A pass group of the running step. -/
def State.group (s : State) (g : Nat) : Option GroupRun := s.steps.run.bind fun r => r.groups[g]?

/-- Changes a pass group. -/
def withGroup (g : Nat) (f : GroupRun → GroupRun) (s : State) : State :=
  withRun (fun r => { r with groups := r.groups.modify g f }) s

/-- The rows of a group with their positions in it. -/
def StepRun.groupRows (r : StepRun) (g : GroupRun) : List (Nat × RowRun) :=
  (List.range g.count).filterMap fun i => (r.rows[g.start + i]?).map fun x => (i, x)

/-- The group's admitted rows. -/
def StepRun.scored (r : StepRun) (g : GroupRun) : List (Nat × RowRun) := (r.groupRows g).filter fun x => x.2.refusal == 0

/-- Heirloom mode. -/
def StepRun.heirloom (r : StepRun) : Bool := r.mode == 2

/-- Proving mode. -/
def StepRun.proving (r : StepRun) : Bool := r.mode == 1

/-- The second slot is scored for a row (R540). -/
def StepRun.pairs (r : StepRun) (d : RowDesc) : Bool := d.second.isSome && !r.heirloom

/-- The critic slot a row's value is formed with, none in Heirloom mode (R540). -/
def StepRun.criticSlot (r : StepRun) (d : RowDesc) : Option Nat := if r.heirloom then none else d.critic

/-- The critic slot of a group's rows, one for the whole group (R158, R193). -/
def StepRun.groupCritic (r : StepRun) (g : GroupRun) : Option Nat :=
  match r.scored g with
  | (_, x) :: _ => r.criticSlot x.desc
  | [] => none

/-- Every brick of the course is drained, and the critic pair if there is one; trivial with no admitted row. -/
def State.groupScored (s : State) (r : StepRun) (g : GroupRun) : Bool :=
  (r.scored g).isEmpty ||
    (g.drained.length == s.course.length && (g.criticDone || (r.groupCritic g).isNone))

/-- The layout of a head slot. -/
def State.layout (s : State) (i : Nat) : SlotLayout := (s.head i).layout

/-- The parameter block of a slot as the parameter region holds it (R171, R214). -/
def StepRun.block (r : StepRun) (slot : Nat) : Bytes := (lookupKey r.blocks slot).getD []

/-! ### Intake -/

/-- A row's normalised vector under a slot (R143, R144, R191). -/
def intakeOne (s : State) (r : StepRun) (d : RowDesc) (slot addr : Nat) : Normalised :=
  let l := s.layout slot
  normalise r.heirloom (NormParams.of l (r.block slot)) (readVector d.format l.width (s.bytesAt addr (l.width * formatWidth d.format)))

/-- A normalised vector's broadcast operand for a slot. -/
def operandFor (s : State) (slot : Nat) (n : Normalised) : Operand := operandOf (s.layout slot).format n.values

/-- No operand. -/
def Operand.none : Operand := { values := [], scale := f32One }

/-- Intake of one row (R143 to R151, R160, R191): its operands, all +0 where a vector leaves the finite range, the second's
or the critic's alone too (DESIGN CHOICE, log entry 86). -/
def intakeRow (s : State) (r : StepRun) (x : RowRun) : RowRun :=
  let d := x.desc
  if d.external ∨ x.refusal ≠ 0 then x
  else
    let main := intakeOne s r d d.primary d.hidden
    let second := if r.pairs d then d.second.map fun k => (k, intakeOne s r d k (if d.hidden2 ≠ 0 then d.hidden2 else d.hidden))
      else none
    let critic := (r.criticSlot d).map fun k => (k, intakeOne s r d k d.hidden)
    let part := fun (y : Option (Nat × Normalised)) => (y.map (·.2.status)).getD 0
    let st := mergeStatuses [main.status, part second, part critic]
    let use := fun (k : Nat) (n : Normalised) => if st = 0 then operandFor s k n else zeroOperand (s.layout k).width
    { x with
      status := mergeStatus x.status st
      main := use d.primary main
      second := (second.map fun y => use y.1 y.2).getD Operand.none
      criticOp := (critic.map fun y => use y.1 y.2).getD Operand.none }

/-- The bytes of a row's operand as memory holds them (table 12.5). -/
def operandBytes (format : Nat) (o : Operand) : Bytes :=
  if format = 1 then (o.values.map fun v => toLe 2 (narrow fmtBF16 v)).flatten
  else (o.values.map fun v => toLe 1 (narrow fmtE4M3 v)).flatten ++ toLe 4 o.scale.toNat

/-- Intake of a pass group. -/
def runIntake (g : Nat) (s : State) : State :=
  match s.steps.run, s.group g with
  | some r, some gr =>
    let rows := (r.rows.zip (List.range r.rows.length)).map fun (x, i) =>
      if gr.start ≤ i ∧ i < gr.start + gr.count then intakeRow s r x else x
    withRun (fun r => { r with rows := rows }) (withGroup g (fun gr => { gr with intake := true }) s)
  | _, _ => s

/-- Bytes of a row's operands, the critic's included but not a second slot's (DESIGN CHOICE, log entry 86), and of the row
buffers it needs (table 5.1, R191). -/
def State.operandBytes (s : State) (r : StepRun) (d : RowDesc) : Nat × Nat :=
  if d.external then (0, 0)
  else
    let bytes := fun (k : Nat) => (s.layout k).width * if (s.layout k).format = 1 then 2 else 1
    (bytes d.primary + (((r.criticSlot d).map bytes).getD 0), 2 * (s.layout d.primary).width * formatWidth d.format)

/-- The parameter region (table 5.1): the blocks of the loaded slots that the step's rows name. -/
def StepRun.paramRegion (r : StepRun) : Nat := (r.blocks.map (·.2.length)).sum

/-- Operand area and row buffers of a pass group's admitted rows. -/
def State.groupNeeds (s : State) (r : StepRun) (g : GroupRun) : Nat × Nat :=
  let needs := (r.scored g).map fun x => s.operandBytes r x.2.desc
  ((needs.map (·.1)).sum, (needs.map (·.2)).foldl max 0)

/-- Two groups' regions fit in the petal store together (R142). -/
def State.intakeFits (s : State) (r : StepRun) (before g : GroupRun) : Bool :=
  decide (r.paramRegion + (s.groupNeeds r g).2 + (s.groupNeeds r before).1 + (s.groupNeeds r g).1 ≤ 2 ^ 25)

/-! ### The lane row and the sum columns (R28, R34, R155 to R162) -/

/-- A brick the lanes accumulate for a pass group: the brick its drain names (256 for the critic pair), its slot, its
place in the slot's image, its lanes, the operand of a row. -/
structure Pass where
  brick : Nat
  slot : Nat
  place : Nat
  lanes : Nat
  operand : RowRun → Operand

/-- The tokens of a brick within the vocabulary (R26). -/
def State.brickTokens (s : State) (b : Nat) : List Nat :=
  (List.range (min 4096 (s.vocab - 4096 * b))).map (4096 * b + ·)

/-- Place of a brick in a slot's image. -/
def State.placeOf (s : State) (slot b : Nat) : Nat := ((s.layout slot).brickList.findIdx? (· == b)).getD 0

/-- The bricks of a pass group in the order of R155: each brick of the course under the primary slot, then under the
second (R160), then the critic's W_g and W_u (R161, R192); an Heirloom group scores its course twice (R541). Lanes past the
vocabulary or the critic's inner width drain nothing and are not held. -/
def State.passes (s : State) (r : StepRun) (g : GroupRun) : List Pass :=
  match r.scored g with
  | [] => []
  | (_, x) :: _ =>
    if x.desc.external then []
    else
      let one := fun (b : Nat) (f : RowRun → Operand) (k : Nat) =>
        ({ brick := b, slot := k, place := s.placeOf k b, lanes := (s.brickTokens b).length, operand := f } : Pass)
      let second := if r.pairs x.desc then x.desc.second.toList else []
      let course := if r.heirloom then s.course ++ s.course else s.course
      (course.flatMap fun b => one b RowRun.main x.desc.primary :: second.map (one b RowRun.second)) ++
      (r.criticSlot x.desc).toList.flatMap fun k =>
        [0, 1].map fun p =>
          { brick := 256, slot := k, place := p, lanes := (CriticVector.of (s.layout k) (r.block k)).inner
            operand := RowRun.criticOp }

/-- Head scoring of the group has ended: every brick is accumulated (R36). -/
def State.accumulated (s : State) (r : StepRun) (g : GroupRun) : Bool :=
  decide ((s.passes r g).length ≤ g.filled) && (s.groupScored r g || (r.scored g).all fun y => !y.2.desc.external)

/-- Groups run in order: the intake of a group starts once the group before is past its own where both fit, else once
that group's last brick is scored; every group before that one is scored (R36, R142). -/
def State.intakeDue (s : State) (g : Nat) : Bool :=
  match s.steps.run, s.group g with
  | some r, some gr =>
    s.working && r.admitted && decide (0 < gr.count) && !gr.intake &&
    (List.range g).all fun h =>
      match r.groups[h]? with
      | some x => (x.intake || (r.scored x).all fun y => y.2.desc.external) &&
          ((h + 1 == g && s.intakeFits r x gr) || s.accumulated r x)
      | none => false
  | _, _ => false

/-- INTAKE_END. -/
def execIntakeEnd (group : Nat) (s : State) (ecc : List EccHit := []) : Host.Outcome State Fault Refusal :=
  if s.intakeDue group then .next (groupHits group ecc (runIntake group s)) else .fault .stepNotDue

/-- The admitted rows of a group that emit gradients (R371). -/
def StepRun.emitRows (r : StepRun) (g : GroupRun) : List (Nat × RowRun) :=
  (r.scored g).filter fun x => x.2.desc.learning && x.2.held.learn.emits

/-- A group's residual and second passes no longer wait for the lanes (R346, R371). -/
def StepRun.passesDone (r : StepRun) (g : GroupRun) : Bool :=
  (g.residual.isSome || (r.scored g).all fun x => x.2.desc.kind != 2) && (g.secondPass || (r.emitRows g).isEmpty)

/-- The group that has the lanes: past intake where it has any, every earlier group done with them (R36). -/
def State.scoringDue (s : State) (g : Nat) : Bool :=
  match s.steps.run, s.group g with
  | some r, some gr =>
    s.working && r.admitted && !s.groupScored r gr &&
    (gr.intake || (r.scored gr).all fun y => y.2.desc.external) &&
    (List.range g).all fun h =>
      match r.groups[h]? with
      | some x => s.accumulated r x && r.passesDone x
      | none => false
  | _, _ => false

/-- Index of the frame that tile `t` of a pass uses in the slot's image (table 5.4). -/
def State.frameOf (s : State) (p : Pass) (t : Nat) : Nat := p.place * (s.layout p.slot).tiles + t

/-- A tile as the Head Store gives it. -/
def State.readTile (s : State) (slot frame : Nat) : Tile :=
  { slot := slot, frame := frame, bad := s.upkeep.hsPass.isSome
    weights := (s.head slot).weights.filter fun c => decide (524288 * frame ≤ c.1) && decide (c.1 < 524288 * (frame + 1)) }

/-- The slot and frame of the tile the lanes take next, over the groups in order. -/
def State.nextTile (s : State) : Option (Nat × Nat) :=
  match s.steps.run with
  | none => none
  | some r => r.groups.findSome? fun g =>
      ((s.passes r g)[g.filled]?).map fun p => (p.slot, s.frameOf p g.tiles)

/-- The shadow set loads the next tile (R28, R162). -/
def loadShadow (s : State) : State :=
  { s with lanes := { s.lanes with shadow := s.nextTile.map fun n => s.readTile n.1 n.2 } }

/-- A tile is due for a group: a brick of it is not yet accumulated, and a sum-column buffer is free to begin one. -/
def State.exchangeDue (s : State) (g : Nat) : Bool :=
  s.scoringDue g && (match s.steps.run, s.group g with
    | some r, some gr => decide (gr.filled < (s.passes r gr).length) && (gr.tiles != 0 || decide (s.lanes.buffers.length < 2))
    | _, _ => false)

/-- Head Store reads of slots for rows are uncorrectable; the word is a free value (log entry 6). -/
def badReads (slots rows : List Nat) (s : State) : State :=
  slots.foldl (fun s k =>
    let e : EccHit := { memory := 1, word := (Config.freeWord s.fresh).toNat, uncorrectable := true, slot := k, region := false, rows := [] }
    uncorrectableWork e [] rows { s with fresh := s.fresh + 1 }) s

/-- Head Store reads while the pass that HS_RAIL_FAULT started runs are uncorrectable (R505). -/
def railReads (slots rows : List Nat) (s : State) : State := if s.upkeep.hsPass.isNone then s else badReads slots rows s

/-- HEAD_STORE_SLOW after 16 successive loads above 40 lane cycles (table 3.4). Head Store Latency is a U16. A longer
run of slow loads is counted anew (log entry 67). -/
def noteLatency (latency : Nat) (s : State) : State :=
  let n := if 40 < latency then s.sensing.slowLoads + 1 else 0
  let s := { s with sensing :=
    { s.sensing with headLatency := min latency 65535, slowLoads := if n = 16 then 0 else n } }
  if n = 16 then raise 0x0307 s else s

/-- Tile loads of a pass that scores rows again, in order (R105, R346, R371). -/
def noteLoads (loads : List Nat) (s : State) : State := loads.foldl (fun s l => noteLatency l s) s

/-- A row's sums after one tile: its lanes in order (R115, R116, R156). -/
def rowSums (format : Nat) (heirloom : Bool) (t : Tile) (sigma : F32) (xs : List F32) (sums : List F32) : List F32 :=
  (sums.zip (List.range sums.length)).map fun (acc, lane) => tileSum format heirloom sigma acc (tileLane t.weights format t.frame lane) xs

/-- The active tile serves every row of the group (R155). -/
def State.streamRows (s : State) (r : StepRun) (g : GroupRun) (p : Pass) (tile : Tile) (sums : List (List F32)) :
    List (List F32) :=
  let l := s.layout p.slot
  let scale := (l.scales (r.block p.slot) p.place).getD g.tiles 0
  (sums.zip (r.groupRows g)).map fun (y, x) =>
    if x.2.refusal ≠ 0 then y
    else
      let o := p.operand x.2
      rowSums l.format r.heirloom tile (f32Mul scale o.scale) ((o.values.drop (g.tiles * l.tileWidth)).take l.tileWidth) y

/-- Accumulators of a brick that begins: +0 in every lane, for every row (R156). -/
def emptySums (r : StepRun) (g : GroupRun) (p : Pass) : List (List F32) :=
  (r.groupRows g).map fun x => if x.2.refusal ≠ 0 then [] else List.replicate p.lanes 0

/-- The buffers after the active tile has passed: the one being filled is the last. -/
def State.fillBuffers (s : State) (r : StepRun) (gi : Nat) (g : GroupRun) (p : Pass) (tile : Tile) : List SumBuffer :=
  let bufs := if g.tiles = 0 then s.lanes.buffers ++ [{ group := gi, brick := p.brick, sums := emptySums r g p }]
    else s.lanes.buffers
  bufs.modify (bufs.length - 1) fun b => { b with sums := s.streamRows r g p tile b.sums }

/-- A tile's progress: after the last, its brick is accumulated. -/
def GroupRun.tileDone (tiles : Nat) (g : GroupRun) : GroupRun :=
  if tiles ≤ g.tiles + 1 then { g with tiles := 0, filled := g.filled + 1 } else { g with tiles := g.tiles + 1 }

/-- The lanes exchange their weight sets; the tile that takes them serves every row of the group (R28, R29, R155). Whether
the pass of R505 ran is judged as the tile is read. -/
def exchangeTile (gi : Nat) (s : State) : State :=
  match s.steps.run, s.group gi with
  | some r, some g =>
    match (s.passes r g)[g.filled]? with
    | none => s
    | some p =>
      let f := s.frameOf p g.tiles
      let tile := match s.lanes.shadow with
        | some t => if t.slot = p.slot ∧ t.frame = f then t else s.readTile p.slot f
        | none => s.readTile p.slot f
      let s := if tile.bad then badReads [p.slot] ((List.range g.count).map (g.start + ·)) s else s
      loadShadow (withGroup gi (GroupRun.tileDone (s.layout p.slot).tiles)
        { s with lanes := { s.lanes with active := some tile, buffers := s.fillBuffers r gi g p tile } })
  | _, _ => s

/-- TILE_EXCHANGE: the next tile of a group's bricks takes the lanes, with what its load met. -/
def execTileExchange (group latency : Nat) (ecc : List EccHit) (s : State) : Host.Outcome State Fault Refusal :=
  if s.exchangeDue group then
    .next (noteLatency latency (exchangeTile group (groupHits group ecc s)))
  else .fault .stepNotDue

/-! ### What a row brings to a brick -/

/-- The context a row names. -/
def State.rowContext (s : State) (d : RowDesc) : Option Context := if d.noContext then none else s.context d.slot

/-- The buds ahead of a chain row: row `i` of the step, position `k` in its chain (R339). -/
def StepRun.budsBefore (r : StepRun) (i k : Nat) : List Nat :=
  (List.range k).filterMap fun j => (r.rows[i - k + j]?).map (·.desc.token)

/-- A row's history counts (R224, R339, R357). -/
def State.rowCounts (s : State) (r : StepRun) (i : Nat) (d : RowDesc) : List (Nat × Nat) :=
  match s.rowContext d with
  | none => []
  | some c =>
    let h := (s.positions c).map (·.1)
    if d.kind = 3 then tally (h.take d.position)
    else if d.kind = 2 then tally (h ++ r.budsBefore i d.chainIndex)
    else tally h

/-- The allowed lanes of a row's automaton state in a brick: everything where it uses none; none on a fault (R412). -/
def State.rowLanes (s : State) (x : RowRun) (b : Nat) : Option LaneSet :=
  if !x.held.score.useAutomaton then some .everything
  else match (s.rowContext x.desc).bind fun c => s.automaton c.automaton with
    | some a => a.lanes s.autoMem x.automatonState b
    | none => some .everything

/-- Stage 4's mask (R227). -/
def RowBlocks.allows (k : RowBlocks) (lanes : LaneSet) (t : Nat) : Bool :=
  lanes.has (t % 4096) && (k.score.allowedCount == 0 || k.lists.allowed.contains t) && !k.lists.banned.contains t &&
  (!k.score.useBitmask || bit (fieldAt ((lookupKey k.bitmask (t / 4096)).getD []) (t % 4096 / 8) 1) (t % 8))

/-- Reads the automaton lines that the group's masks for a brick need into the cache (R413). -/
def cacheMasks (gr : GroupRun) (b : Nat) (s : State) : State :=
  match s.steps.run with
  | none => s
  | some r => (r.scored gr).foldl (fun s x =>
      if !x.2.held.score.useAutomaton then s
      else match (s.rowContext x.2.desc).bind fun c => s.automaton c.automaton with
        | some a => (a.reads s.autoMem x.2.automatonState b).foldl (fun s p => cacheRange p.1 p.2 s) s
        | none => s) s

/-- The scores of an external score row, read into its column of the sum columns (R163). -/
def State.externalScores (s : State) (d : RowDesc) (b : Nat) : List F32 :=
  let w := formatWidth d.format
  (s.brickTokens b).map fun t => toF32 (inputFormat d.format) (s.numAt (d.hidden + t * w) w)

/-- The brick scores of a row, formed again for the second pass (R372): they are those its drain had (R156). -/
def State.slotScores (s : State) (r : StepRun) (d : RowDesc) (slot : Nat) (o : Operand) (b : Nat) : List (Nat × F32) :=
  if d.external then (s.brickTokens b).zip (s.externalScores d b)
  else
    let h := s.head slot
    let l := h.layout
    let k := s.placeOf slot b
    let scales := l.scales (r.block slot) k
    (s.brickTokens b).map fun t =>
      (t, laneScore l.format r.heirloom scales o (laneWeights h.weights l.format l.width k (t % 4096)))

/-- The race key of a token for a row (R277, R278); 0 in Heirloom mode (R285), and for a teacher-forced row without a
context, which has no seed. A teacher-forced row draws none of the keys its petals carry (R356; log entry 46). -/
def State.rowKey (s : State) (r : StepRun) (d : RowDesc) (t : Nat) : W40 :=
  match s.rowContext d with
  | some c => if r.heirloom then w40Zero
    else scgKey (BitVec.ofNat 64 c.seed) (BitVec.ofNat 64 r.head.number) d.position t domRace
  | none => w40Zero

/-- The pipeline's inputs for a row and slot (R229). -/
def State.pipeRow (s : State) (r : StepRun) (i : Nat) (x : RowRun) (second : Bool) : PipeRow :=
  { params := x.held.score, second := second, lists := x.held.lists, counts := s.rowCounts r i x.desc
    floor := BitVec.ofNat 32 (s.cfg 0x200010), heirloom := r.heirloom }

/-- A row's values of a brick from its columns, and the status its drain finds (R220, R412). -/
def State.rowBrick (s : State) (r : StepRun) (i : Nat) (x : RowRun) (b : Nat) (main : List F32)
    (second : Option (List F32)) : RowBrick × Nat :=
  let d := x.desc
  let lanes := s.rowLanes x b
  let mask := x.held.allows (lanes.getD .nothing)
  let one := fun (which : Bool) (scores : List F32) =>
    slotBrick (s.pipeRow r i x which) mask (s.rowKey r d) ((s.brickTokens b).zip scores)
  let main := one false main
  let second := second.map (one true)
  ({ main := match second with
      | some y => if d.kl then withKl main y else main
      | none => main
     second := second },
    mergeStatus (if x.held.listsValid then 0 else 0x0702) (if lanes.isNone then 0x0D0E else 0))

/-- A row that takes no part in a brick: all +0. -/
def RowBrick.none : RowBrick := { main := { part := Partial.zero, entries := [] }, second := Option.none }

/-! ### Retained petals and the spill area (R264, R265, R269) -/

/-- Candidates a windowed path must retain (R264). -/
def retained (p : ScoreParams) (es : List Entry) : Nat :=
  if !p.windowed then 0
  else
    let ss := es.filterMap (·.s)
    match ss with
    | [] => 0
    | s0 :: rest =>
      let m := rest.foldl (fun m x => if f32Lt m x then x else m) s0
      let f := if f32Lt 0 p.minP then f32Add m (w40ToF32 (fsLn (f32ToW40 p.minP))) else f32Sub m 0x42C00000
      let n := countIf (fun x => f32Le f x) ss
      if p.topK = 0 then n else min p.topK n

/-- The entries a row holds of the bricks drained so far, main and second slot. -/
def GroupRun.entries (g : GroupRun) (pos : Nat) : List Entry × List Entry :=
  let rows := g.drained.map fun e => e.2.getD pos RowBrick.none
  ((rows.map fun y => y.main.entries).flatten, (rows.map fun y => (y.second.map (·.entries)).getD []).flatten)

/-- The petals of a path that it must retain, in selection order (R264). -/
def retainedPetals (p : ScoreParams) (second : Bool) (es : List Entry) : List Petal :=
  (sortPetals (es.filterMap (Entry.petal second))).take (retained p es)

/-- The petals a row needs room for in the spill area: those of both its paths that it must retain beyond its quota of
4,096 (table 8.2, R248); none once it has been refused or its petals are released. -/
def spillPetals (g : GroupRun) (pos : Nat) (x : RowRun) : List Petal :=
  if x.refusal ≠ 0 ∨ x.full then []
  else
    let (m, q) := g.entries pos
    (retainedPetals x.held.score false m ++ retainedPetals x.held.score true q).drop 4096

/-- The rows that share the spill area, those of groups whose blooms are not written, in order: descriptor, petals each
must place (R269). -/
def StepRun.spillRows (r : StepRun) : List (Nat × List Petal) :=
  (r.groups.filter fun gr => !gr.written).flatMap fun gr =>
    (r.scored gr).map fun x => (gr.start + x.1, spillPetals gr x.1 x.2)

/-- Bytes that rows' petals take. -/
def spillRoom (rows : List (Nat × List Petal)) : Nat := 16 * (rows.map (·.2.length)).sum

/-- Rows end SPILL_AREA_FULL, their petals released. -/
def fillRows (is : List Nat) (s : State) : State :=
  markRows is 0x0802
    (withRun (fun r => { r with rows := is.foldl (fun rows i => rows.modify i fun x => { x with full := true }) r.rows }) s)

/-- Bytes in use in the spill area, and the highest so far: those that rows must place, though a unit may keep more as
room allows (R264; log entry 79). -/
def noteSpill (used : Nat) (s : State) : State :=
  withRun (fun r => { r with spill := used }) { s with steps := { s.steps with spillPeak := max s.steps.spillPeak used } }

/-- Places rows in the order given in the room that is left: those that find none, and those placed (R269). -/
def placeAll (size : Nat) (rows : List (Nat × List Petal)) : List Nat × List (Nat × List Petal) :=
  rows.foldl (fun acc x =>
    if spillRoom (acc.2 ++ [x]) ≤ size then (acc.1, acc.2 ++ [x]) else (acc.1 ++ [x.1], acc.2)) ([], [])

/-- Offsets of rows placed one behind the other. -/
def placesFrom : Nat → List (Nat × List Petal) → List (Nat × Nat × Nat)
  | _, [] => []
  | off, (i, ps) :: rows => (i, off, ps.length) :: placesFrom (off + 16 * ps.length) rows

/-- Writes petals to the spill area at an offset (R265). -/
def writeSpill (off : Nat) (ps : List Petal) (s : State) : State :=
  writeBytes (s.cfg 0x203001 + off) (ps.flatMap Petal.encode) s

/-- A drain places the rows in the spill area: each row's petals behind those of the row before (R265, R269; log entry
79). -/
def placeRows (s : State) : State :=
  match s.steps.run with
  | none => s
  | some r =>
    let (full, placed) := placeAll (s.cfg 0x203002) r.spillRows
    writeSpill 0 (placed.flatMap (·.2))
      (withRun (fun r => { r with places := placesFrom 0 placed }) (noteSpill (spillRoom placed) (fillRows full s)))

/-- Rows placed by a drain of whose petals some are released since are placed again, one behind the other. -/
def closeRows (s : State) : State :=
  match s.steps.run with
  | none => s
  | some r => if r.places = placesFrom 0 r.spillRows then s else placeRows s

/-- Petals of a walk of row `i` behind those of every row in the spill area, or the row ends SPILL_AREA_FULL. -/
def appendWalk (i : Nat) (ps : List Petal) (s : State) : State :=
  match s.steps.run with
  | none => s
  | some r =>
    let base := spillRoom r.spillRows
    let used := base + 16 * ps.length
    if used ≤ s.cfg 0x203002 then writeSpill base ps (noteSpill base (noteSpill used s)) else fillRows [i] s

/-- A walk of row `i` places petals in the spill area while it runs, over those of no row (R265, R269). -/
def placeWalk (i : Nat) (ps : List Petal) (s : State) : State := if ps = [] then s else appendWalk i ps (closeRows s)

/-! ### Drains -/

/-- The sum columns that hold a brick of a group, the primary's before the second's. -/
def State.columns (s : State) (g b : Nat) : List (List (List F32)) :=
  (s.lanes.buffers.filter fun y => y.group == g && y.brick == b).map (·.sums)

/-- The buffers of a drained brick are free. -/
def freeColumns (g b : Nat) (s : State) : State :=
  { s with lanes := { s.lanes with buffers := s.lanes.buffers.filter fun y => !(y.group == g && y.brick == b) } }

/-- The buffer of a brick that an Heirloom group's pass has drained is free; the other pass's is not (R541). -/
def freeColumn (g b : Nat) (s : State) : State :=
  { s with lanes := { s.lanes with buffers := s.lanes.buffers.eraseP fun y => y.group == g && y.brick == b } }

/-- The next drain of a group is one of its first pass over the course, which forms the row maximum (R541). -/
def State.maximumDue (s : State) (r : StepRun) (g : GroupRun) : Bool := r.heirloom && decide (g.firstPass < s.course.length)

/-- What the drain of a brick leaves with its group: the first of two passes over the course keeps no petal (R541). -/
def keepDrain (g b : Nat) (first : Bool) (rows : List RowBrick) (s : State) : State :=
  if first then withGroup g (fun gr => { gr with firstPass := gr.firstPass + 1 }) (freeColumn g b s)
  else withGroup g (fun gr => { gr with drained := gr.drained ++ [(b, rows)] }) s

/-- A brick of the course drains for every row of the group (R34). -/
def drainBrick (g b : Nat) (s : State) : State :=
  match s.steps.run, s.group g with
  | some r, some gr =>
    let s := cacheMasks gr b s
    let cols := s.columns g b
    let done := (r.groupRows gr).map fun (pos, x) =>
      if x.refusal ≠ 0 then (RowBrick.none, (0 : Nat))
      else if x.desc.external then s.rowBrick r (gr.start + pos) x b (s.externalScores x.desc b) none
      else s.rowBrick r (gr.start + pos) x b ((cols.headD []).getD pos []) ((cols[1]?).map fun (y : List (List F32)) => y.getD pos [])
    let statuses := (done.zip (List.range done.length)).filter fun y => y.1.2 != 0
    let dropped := (done.map fun y => y.1.main.part.dropped + ((y.1.second.map fun z => z.part.dropped).getD 0)).sum
    let s := statuses.foldl (fun s y => markRow (gr.start + y.2) y.1.2 s) s
    if s.maximumDue r gr then keepDrain g b true [] s
    else placeRows (count 0x70100D dropped (keepDrain g b false (done.map (·.1)) (freeColumns g b s)))
  | _, _ => s

/-- The critic value of a row from its columns of W_g and W_u (R192), with the non-canonical values its activation read. -/
def State.criticOf (s : State) (r : StepRun) (slot : Nat) (a b : List F32) : F32 × Nat :=
  let c := CriticVector.of (s.layout slot) (r.block slot)
  let act := s.fseq.activation c.activation
  (criticValue (fun x => (act x).1) c.outBias c.weights a b, (a.map fun x => (act x).2).sum)

/-- The critic value of each admitted row of a group that names a critic: descriptor, value, non-canonical reads. -/
def State.critics (s : State) (r : StepRun) (gr : GroupRun) (cols : List (List (List F32))) : List (Nat × F32 × Nat) :=
  (r.scored gr).filterMap fun (pos, x) =>
    (r.criticSlot x.desc).map fun k =>
      (gr.start + pos, s.criticOf r k ((cols.getD 0 []).getD pos []) ((cols.getD 1 []).getD pos []))

/-- The critic pair drains after the last course brick (R192). -/
def drainCritic (g : Nat) (s : State) : State :=
  match s.steps.run, s.group g with
  | some r, some gr =>
    let vs := s.critics r gr (s.columns g 256)
    let rows := vs.foldl (fun rows v => rows.modify v.1 fun x => { x with critic := v.2.1 }) r.rows
    noteOdd ((vs.map (·.2.2)).sum)
      (withRun (fun r => { r with rows := rows }) (withGroup g (fun gr => { gr with criticDone := true }) (freeColumns g 256 s)))
  | _, _ => s

/-- The brick whose drain comes next: the course's next, or 256 for the critic pair. -/
def State.brickDue (s : State) (r : StepRun) (g : GroupRun) : Nat :=
  (s.course[if s.maximumDue r g then g.firstPass else g.drained.length]?).getD 256

/-- A brick's columns are filled: every pass of it is accumulated (R34), in an Heirloom group as far as the drains go. -/
def State.columnsFull (s : State) (r : StepRun) (g : GroupRun) (b : Nat) : Bool :=
  if r.heirloom then (s.passes r g).isEmpty || decide (g.firstPass + g.drained.length < g.filled)
  else ((s.passes r g).drop g.filled).all (·.brick != b)

/-- The petal store holds the quotas of an earlier group beside a group's intake regions and quotas (R266; log entry 79). -/
def State.storeHolds (s : State) (r : StepRun) (before g : GroupRun) : Bool :=
  let quota := fun (x : GroupRun) => ((r.scored x).map fun y => y.2.held.score.listLength).sum
  decide (r.paramRegion + (s.groupNeeds r g).1 + (s.groupNeeds r g).2 + 16 * (quota before + quota g) ≤ 2 ^ 25)

/-- A group's first drain waits until the blooms of the groups before it are written where the store cannot hold both
(R266). -/
def State.drainWaits (s : State) (r : StepRun) (g : Nat) (gr : GroupRun) : Bool :=
  gr.firstPass == 0 && gr.drained.isEmpty &&
    (r.groups.take g).any fun h => !h.written && !s.storeHolds r h gr

end Sys2Proof.Machine
end

