-- ==== Sys2Proof/Machine/Group.lean ====
section
/-! DEFINITION. A pass group across its bond group: nodes and lists known at a member (R314 to R322), selection, claims
(R324 to R326), copies compared (R315 to R318), chains (R341 to R346). Every definition is a function of what the
member holds, so that each message of a round can be formed as soon as its parts are there. -/

namespace Sys2Proof.Machine

/-- One member's view of a pass group. -/
structure View where
  s : State
  r : StepRun
  g : Nat
  gr : GroupRun

/-- The view of group `g` of the running step. -/
def State.view (s : State) (g : Nat) : Option View :=
  match s.steps.run, s.group g with
  | some r, some gr => some { s := s, r := r, g := g, gr := gr }
  | _, _ => none

/-- This unit's address. -/
def View.me (v : View) : Nat := v.s.address

/-- This member is the root of the reduction tree. -/
def View.root (v : View) : Bool := v.s.vocab == 0 || v.r.record == v.me

/-- The members that send to this one. -/
def View.kids (v : View) : List Nat := v.s.childrenOf v.me

/-- The group's rows with their positions. -/
def View.rows (v : View) : List (Nat × RowRun) := v.r.groupRows v.gr

/-- One path of a row: the primary's values or a second slot's. -/
structure Path where
  pos : Nat
  x : RowRun
  second : Bool

/-- The rows that have a path. -/
def View.paths (v : View) (second : Bool) : List Path :=
  (v.rows.filter fun x => !second || v.r.pairs x.2.desc).map fun x => { pos := x.1, x := x.2, second := second }

/-- The primary path of a row. -/
def mainPath (x : Nat × RowRun) : Path := { pos := x.1, x := x.2, second := false }

/-- The second slot's path of a row. -/
def secondPath (x : Nat × RowRun) : Path := { pos := x.1, x := x.2, second := true }

/-- A path's score parameter block. -/
def Path.params (p : Path) : ScoreParams := p.x.held.score

/-- Every brick and the critic pair of this member are drained. -/
def View.scored (v : View) : Bool := v.s.groupScored v.r v.gr

/-! ### The reduction tree -/

/-- Position `i` of the tree lies under position `t`. -/
def climbsTo : Nat → Nat → Nat → Bool
  | 0, i, t => i == t
  | fuel + 1, i, t => i == t || (i != 0 && climbsTo fuel (parentAt i) t)

/-- Values of member `m` can come through `src`: it lies under it in the tree, whoever is Present. -/
def State.under (s : State) (m src : Nat) : Bool :=
  m == src || match s.treeOrder.findIdx? (· == m), s.treeOrder.findIdx? (· == src) with
    | some i, some j => climbsTo 8 i j
    | _, _ => false

/-- A slot is laid by a member that lies under `src` (R315). -/
def State.laidUnder (s : State) (src b : Nat) : Bool :=
  (match bondOwner s.bond b with
    | some o => s.under o src
    | none => false) ||
  (match bondReplica s.bond b with
    | some o => s.under o src
    | none => false)

/-- A slot has a replica holder. -/
def State.replicated (s : State) (b : Nat) : Bool := (bondReplica s.bond b).isSome

/-- The owner of a slot is lost and no Present replica holder stands in (R324). -/
def State.slotLost (s : State) (b : Nat) : Bool :=
  (match bondOwner s.bond b with
    | some o => !s.present o
    | none => false) &&
  (match bondReplica s.bond b with
    | some o => !s.present o
    | none => true)

/-! ### Nodes -/

/-- What a member has for the nodes of one sum: its own slots, and (source, level, index, value) received. -/
structure Nodes (α : Type) where
  own : Nat → Option α
  got : List (Nat × Nat × Nat × α)

/-- The owner's copy of a replicated slot, of those received. -/
def View.ownerCopy {α : Type} (v : View) (n : Nodes α) (b o : Nat) : Option α :=
  if o = v.me then n.own b
  else ((n.got.filter fun x => x.2.1 == 0 && x.2.2.1 == b).find? fun x => v.s.under o x.1).map (·.2.2.2)

/-- The copy of a replicated slot that the root takes: the owner's, or the replica's when the owner is lost (R316). -/
def View.copy {α : Type} (v : View) (n : Nodes α) (b : Nat) : Option α :=
  match bondOwner v.s.bond b with
  | none => none
  | some o =>
    match v.ownerCopy n b o with
    | some x => some x
    | none =>
      if v.s.present o then none
      else if v.s.course.contains b then n.own b
      else (n.got.find? fun x => x.2.1 == 0 && x.2.2.1 == b).map (·.2.2.2)

/-- The root takes the replica's copy of a slot (R316): no owner's is among the copies received, where one that came
through a unit below which both stand is the replica's if it is the only one. -/
def View.byReplica {α : Type} (v : View) (n : Nodes α) (b o : Nat) : Bool :=
  let from_ := fun (u : Nat) => countIf (fun (x : Nat × Nat × Nat × α) => x.1 == u && x.2.1 == 0 && x.2.2.1 == b) n.got
  let shared := fun (u : Nat) => if (bondReplica v.s.bond b).any fun p => p != v.me && v.s.under p u then 1 else 0
  !(o == v.me || (firsts (n.got.map (·.1))).any fun u => v.s.under o u && decide (shared u < from_ u))

/-- A slot's values are among the nodes received. -/
def Nodes.covers {α : Type} (n : Nodes α) (b : Nat) : Bool := n.got.any fun x => b / 2 ^ x.2.1 == x.2.2.1

/-- What a member knows of a node: a replicated slot only at the root; `lost` is taken for a lost slot. -/
def View.known {α : Type} (v : View) (n : Nodes α) (lost : Option α) (l i : Nat) : Option α :=
  let x :=
    if l = 0 ∧ v.s.replicated i then (if v.root then v.copy n i else none)
    else match (if l = 0 ∧ v.s.owns i then n.own i else none) with
      | some a => some a
      | none => (n.got.find? fun x => x.2.1 == l && x.2.2.1 == i).map (·.2.2.2)
  match x with
  | some a => some a
  | none => if v.root && l == 0 && v.s.slotLost i then lost else none

/-- A node as this member can form it; the root takes +0 and 0 for a lost slot, whose row ends (log entry 13). -/
def View.node {α : Type} (v : View) (n : Nodes α) (zero : α) (add : α → α → α) (l i : Nat) : Option α :=
  formNode (v.known n (some zero)) v.s.brickCount zero add l i

/-- A sum without a lost slot's values. -/
def View.whole {α : Type} (v : View) (n : Nodes α) (zero : α) (add : α → α → α) : Bool :=
  (formNode (v.known n none) v.s.brickCount zero add 8 0).isSome

/-- A row without values of a brick. -/
def SlotBrick.none : SlotBrick := { part := Partial.zero, entries := [] }

/-- What this member's drain of a brick gave one path; zeros in a group of which it admitted no row (R434). -/
def View.ownBrick (v : View) (p : Path) (b : Nat) : Option SlotBrick :=
  if (v.r.scored v.gr).isEmpty then (if v.s.course.contains b then some SlotBrick.none else Option.none)
  else (lookupKey v.gr.drained b).map fun rows =>
    let y := rows.getD p.pos RowBrick.none
    if p.second then y.second.getD SlotBrick.none else y.main

/-- The partials of a path. -/
def View.partials (v : View) (p : Path) : Nodes Partial :=
  { own := fun b => (v.ownBrick p b).map (·.part)
    got := v.gr.inbox.filterMap fun
      | .node src second false l i rows =>
        if second == p.second then (lookupKey rows p.pos).map fun x => (src, l, i, x) else none
      | _ => none }

/-- The record unit of the bond set, which formed every combined value unless another took over (R327). -/
def View.first (v : View) : Bool := v.s.vocab == 0 || v.s.cfg 0x501003 == v.me

/-- A combined value: what came down and was kept (R327); the root forms what did not. -/
def View.kept? {α : Type} (v : View) (down formed : Option α) : Option α :=
  match (if v.first then none else down) with
  | some x => some x
  | none => if v.root then formed else none

/-- The combined partial of a path (R234): formed at the root, received elsewhere. -/
def View.total (v : View) (p : Path) : Option Partial :=
  v.kept?
    (v.gr.inbox.findSome? fun
      | .node _ second true 8 0 rows => if second == p.second then lookupKey rows p.pos else none
      | _ => none)
    (v.node (v.partials p) Partial.zero Partial.add 8 0)

/-! ### Petal lists -/

/-- The complete lists one unit sent about a row's topic, whichever path they are of, in order. -/
def gatherLists (src : Nat) (down : Bool) (t : Topic) : Option (Bool × List Petal) → List Taken → List (Bool × List Petal)
  | _, [] => []
  | part, .petals from_ dn u _ more ps :: rest =>
    if from_ == src && dn == down && u.row == t.row && u.purpose == t.purpose && u.bucket == t.bucket && u.sub == t.sub then
      let acc := match part with
        | some (f, qs) => (f, qs ++ ps)
        | none => (u.second, ps)
      if more then gatherLists src down t (some acc) rest else acc :: gatherLists src down t none rest
    else gatherLists src down t part rest
  | part, _ :: rest => gatherLists src down t part rest

/-- The list of one path among them; an empty list, which names no path, stands for the first not received. -/
def pickList (ls : List (Bool × List Petal)) (second : Bool) : Option (List Petal) :=
  match ls.find? fun x => !x.2.isEmpty && x.1 == second with
  | some x => some x.2
  | none =>
    let mainFull := ls.any fun x => !x.2.isEmpty && !x.1
    if (if second && !mainFull then 2 else 1) ≤ countIf (fun (x : Bool × List Petal) => x.2.isEmpty) ls then some [] else none

/-- The list a unit sent about a topic. -/
def View.listFrom (v : View) (src : Nat) (down : Bool) (t : Topic) : Option (List Petal) :=
  pickList (gatherLists src down t none v.gr.inbox) t.second

/-- The units whose lists or claims came up, and those they must come from. -/
def View.upFrom (v : View) : List Nat :=
  firsts (v.kids ++ v.gr.inbox.filterMap fun
    | .petals src false _ _ _ _ => some src
    | .claims src false _ => some src
    | _ => none)

/-- The units that sent something down. -/
def View.downFrom (v : View) : List Nat :=
  firsts (v.gr.inbox.filterMap fun
    | .petals src true _ _ _ _ => some src
    | .claims src true _ => some src
    | _ => none)

/-- A list received from above. -/
def View.listDown (v : View) (t : Topic) : Option (List Petal) := v.downFrom.findSome? fun u => v.listFrom u true t

/-- Members that a list does not hold yet. -/
def newPetals (held : List Petal) (ps : List Petal) : List Petal :=
  ps.filter fun p => !p.void && !held.any (·.token == p.token)

/-- Merges lists token by token and keeps the first `limit` in selection order (R317). -/
def mergePetals (limit : Nat) (ls : List (List Petal)) : List Petal :=
  (sortPetals (ls.foldl (fun held ps => held ++ newPetals held ps) [])).take limit

/-- Copies of tokens met more than once: how many agree, and whether some differ (R317). -/
def petalCopies (ls : List (List Petal)) : Nat × Bool :=
  let r := ls.foldl (fun (acc : List Petal × Nat × Bool) ps =>
    let copies := ps.filterMap fun p => if p.void then none else (acc.1.find? (·.token == p.token)).map fun q => (p, q)
    let bad := copies.filter fun c => c.1.score != c.2.score || c.1.key != c.2.key
    (acc.1 ++ newPetals acc.1 ps, acc.2.1 + (copies.length - bad.length), acc.2.2 || !bad.isEmpty)) ([], 0, false)
  r.2

/-- The entries this member holds on a path. -/
def View.entries (v : View) (p : Path) : List Entry :=
  let (m, q) := v.gr.entries p.pos
  if p.second then q else m

/-- The merge list's topic. -/
def Path.list (p : Path) : Topic := { row := p.pos, second := p.second, purpose := 0, bucket := 0, sub := 0 }

/-- A walk's topic. -/
def Path.walk (p : Path) (bucket : Nat) : Topic := { row := p.pos, second := p.second, purpose := 1, bucket := bucket, sub := 0 }

/-- A sub-bucket walk's topic. -/
def Path.subWalk (p : Path) (bucket sub : Nat) : Topic :=
  { row := p.pos, second := p.second, purpose := 2, bucket := bucket, sub := sub }

/-- The topic of bud or target petals. -/
def Path.bud (p : Path) : Topic := { row := p.pos, second := false, purpose := 3, bucket := 0, sub := 0 }

/-- A petal ranks before or behind every petal of a list in selection order. -/
def Petal.outside (q : Petal) (ps : List Petal) : Bool :=
  match ps.head?, ps.getLast? with
  | some a, some b => q.before a || b.before q
  | _, _ => true

/-- A row's petals in the spill area as they are read back: each with whether its key is non-canonical (R120, R265). -/
def View.readBack (v : View) (p : Path) : List (Petal × Bool) :=
  match v.r.places.find? (·.1 == v.gr.start + p.pos) with
  | none => []
  | some (_, off, n) =>
    let bs := v.s.bytesAt (v.s.cfg 0x203001 + off) (16 * n)
    (((List.range n).map fun k => (Petal.read bs (16 * k), oddW40 bs [16 * k + 8] != 0)).filter fun q => q.1.second == p.second)

/-- A path's petals as a walk finds them: those in the spill area are read back there (R265). -/
def View.stored (v : View) (p : Path) : List Petal :=
  let own := (v.entries p).filterMap (Entry.petal p.second)
  match (spillPetals v.gr p.pos p.x).filter fun q => q.second == p.second with
  | [] => own
  | out => own.filter (fun q => q.outside out) ++ (v.readBack p).map (·.1)

/-- A petal is one of those a topic's list is formed of: any candidate, or one of a bucket from τ on (R253, R261, R262). -/
def Topic.takes (t : Topic) (tau : Option F32) (x : Petal) : Bool :=
  t.purpose == 0 || (x.bucket == t.bucket && (t.purpose == 1 || subBucketOf t.bucket x.score == t.sub) &&
    (match tau with
      | some f => f32Le f x.score
      | none => true))

/-- This member's petals for a topic: its best candidates, or those of a bucket. Candidates below f are listed too (DESIGN
CHOICE, log entry 79). -/
def View.ownList (v : View) (p : Path) (t : Topic) (limit : Nat) (tau : Option F32) : List Petal :=
  let ps := if t.purpose = 0 then (v.entries p).filterMap (Entry.petal p.second) else v.stored p
  (sortPetals (ps.filter (t.takes tau))).take limit

/-- Non-canonical keys among the petals that a walk reads back (R120, R265). -/
def View.oddStored (v : View) (p : Path) (t : Topic) (tau : Option F32) : Nat :=
  if t.purpose = 0 ∨ (spillPetals v.gr p.pos p.x).all (fun q => q.second != p.second) then 0
  else countIf (fun (q : Petal × Bool) => q.2 && t.takes tau q.1) (v.readBack p)

/-- All copies of a topic's lists this member holds. -/
def View.lists (v : View) (p : Path) (t : Topic) (limit : Nat) (tau : Option F32) : List (List Petal) :=
  v.ownList p t limit tau :: v.upFrom.filterMap fun u => v.listFrom u false t

/-- The list merged over this member and those below it; the merge list is filled with void petals (R251). -/
def View.listUp (v : View) (p : Path) (t : Topic) (limit : Nat) (tau : Option F32) : Option (List Petal) :=
  if v.scored && v.kids.all (fun k => (v.listFrom k false t).isSome) then
    let ps := mergePetals limit (v.lists p t limit tau)
    some (if t.purpose = 0 ∧ p.x.refusal = 0 then ps ++ List.replicate (limit - ps.length) (voidPetal p.second) else ps)
  else none

/-- A topic's final list (R322). -/
def View.listFinal (v : View) (p : Path) (t : Topic) (limit : Nat) (tau : Option F32) : Option (List Petal) :=
  v.kept? (v.listDown t) (v.listUp p t limit tau)

/-- The merged list of R255. -/
def View.merged (v : View) (p : Path) : Option (List Petal) :=
  (v.listFinal p p.list p.params.listLength none).map fun ps => ps.filter fun x => !x.void

/-- τ of R245 for a path with min_p above 0, once the merged list is there. -/
def View.tau (v : View) (p : Path) : Option (Option F32) :=
  if f32Lt 0 p.params.minP then (v.merged p).map fun ps => ps.head?.map fun w => tauOf (p.params) w.score
  else some none

/-- The bound a list of a path is cut at, once it is known: the merge list, from which τ comes, has none. -/
def View.bound (v : View) (p : Path) (t : Topic) : Option (Option F32) := if t.purpose = 0 then some none else v.tau p

/-! ### Histograms -/

/-- A node's bins with its count at or above τ (R258, R264). -/
structure Hist where
  bins : List Bin
  tau : Nat
deriving DecidableEq, Repr

/-- Sum of two nodes. -/
def Hist.add (a b : Hist) : Hist := { bins := addBins a.bins b.bins, tau := a.tau + b.tau }

/-- No candidates. -/
def Hist.zero : Hist := { bins := [], tau := 0 }

/-- The histogram's topic. -/
def Path.hist (p : Path) : Topic := { row := p.pos, second := p.second, purpose := 0, bucket := 0, sub := 0 }

/-- A sub-bucket histogram's topic (R262). -/
def Path.subHist (p : Path) (bucket : Nat) : Topic := { row := p.pos, second := p.second, purpose := 0, bucket := bucket, sub := 1 }

/-- One brick's bins; the count at τ is formed for windowed rows (R264). -/
def brickHist (t : Topic) (tau : Option F32) (x : SlotBrick) : Hist :=
  let es := x.entries.filterMap fun e => e.s.map fun s => (e.token, s)
  if t.sub = 1 then { bins := brickBins (subBucketOf t.bucket) (es.filter fun e => bucketOf e.2 == t.bucket), tau := 0 }
  else { bins := brickBins bucketOf es
         tau := match tau with
          | some f => countIf (fun (e : Nat × F32) => bucketOf e.2 == bucketOf f && f32Le f e.2) es
          | none => 0 }

/-- The histogram nodes of a path; a windowed row with min_p above 0 forms them once τ is known. -/
def View.hists (v : View) (p : Path) (t : Topic) : Nodes Hist :=
  let tau := if p.params.windowed && t.sub == 0 then v.tau p else some none
  { own := fun b => match v.ownBrick p b, tau with
      | some x, some f => some (brickHist t f x)
      | _, _ => none
    got := v.gr.inbox.filterMap fun
      | .hist src false u l i n bins => if u = t then some (src, l, i, { bins := bins, tau := n }) else none
      | _ => none }

/-- The combined histogram of a topic (R259). -/
def View.histFinal (v : View) (p : Path) (t : Topic) : Option Hist :=
  v.kept?
    (v.gr.inbox.findSome? fun
      | .hist _ true u 8 0 n bins => if u = t then some { bins := bins, tau := n } else none
      | _ => none)
    (v.node (v.hists p t) Hist.zero Hist.add 8 0)

/-! ### Selection -/

/-- Selection of a path as far as its exchanges have come (R243 to R247). -/
def View.sel (v : View) (p : Path) : Sought Sel :=
  let q := p.params
  match v.total p, v.merged p, v.tau p, (if q.histogram then v.histFinal p p.hist else some Hist.zero) with
  | some t, some ps, some tau, some h =>
    select { params := q, total := t, merged := ps, bins := h.bins, tau := h.tau }
      { walk := fun j n => v.listFinal p (p.walk j) n tau
        sub := fun j => (v.histFinal p (p.subHist j)).map (·.bins)
        subWalk := fun j u n => v.listFinal p (p.subWalk j u) n tau }
  | _, _, _, _ => { needs := [], value := none }

/-- The petal lists a path exchanges, with their lengths. -/
def View.listTopics (v : View) (p : Path) : List (Topic × Nat) :=
  (p.list, p.params.listLength) :: (v.sel p).needs.filterMap fun
    | .walk j q => some (p.walk j, q)
    | .subWalk j u q => some (p.subWalk j u, q)
    | .sub _ => none

/-- The histograms a path exchanges. -/
def View.histTopics (v : View) (p : Path) : List Topic :=
  (if p.params.histogram then [p.hist] else []) ++ (v.sel p).needs.filterMap fun
    | .sub j => some (p.subHist j)
    | _ => none

/-! ### Bud and target petals (R344, R367) -/

/-- The row sends bud or target petals. -/
def RowDesc.hasBud (d : RowDesc) : Bool := d.kind == 3 || (d.kind == 2 && decide (d.chainIndex < d.chainLength))

/-- A petal that carries one value of the row's token; its second bit is 0 in both petals of a list (DESIGN CHOICE, log
entry 87). -/
def budPetal (t : Nat) (score : Option F32) (key : W40) : Petal :=
  match score with
  | some s => { void := false, second := false, bucket := bucketOf s, token := t, score := s, key := key }
  | none => { void := false, second := false, bucket := 0, token := t, score := f32NegInf, key := 0 }

/-- The two petals of a list that has no values: a refused row's, or those of a lost slot's token (table 10.10). -/
def noBud : List Petal := [voidPetal false, voidPetal false]

/-- This member's bud petals (main, draft) or target petals (sampling, raw), if it lays the token's brick. -/
def View.ownBud (v : View) (p : Path) : Option (List Petal) :=
  let d := p.x.desc
  if !v.scored || !v.s.course.contains (d.token / 4096) then none
  else if p.x.refusal ≠ 0 then some noBud
  else
    let main := findEntry (v.gr.entries p.pos).1 d.token
    let key := fun (e : Option Entry) => (e.map (·.key)).getD 0
    if d.kind = 3 then some [budPetal d.token (main.bind (·.s)) 0, budPetal d.token (main.bind (·.r)) 0]
    else
      let draft := findEntry (v.gr.entries p.pos).2 d.token
      some [budPetal d.token (main.bind (·.s)) (key main), budPetal d.token (draft.bind (·.s)) (key draft)]

/-- The copy of the bud petals this member takes or passes on. -/
def View.budUp (v : View) (p : Path) : Option (List Petal) :=
  ((v.ownBud p).toList ++ v.upFrom.filterMap fun u => v.listFrom u false p.bud).head?

/-- The bud petals every member ends with; none arrive of a lost slot, or of a token outside the vocabulary. -/
def View.budFinal (v : View) (p : Path) : Option (List Petal) :=
  v.kept? (v.listDown p.bud)
    (match v.budUp p with
    | some ps => some ps
    | none =>
      let b := p.x.desc.token / 4096
      if v.s.slotLost b || (bondOwner v.s.bond b).isNone then some noBud else none)

/-- A row's bud or target petals carry values. -/
def View.budKnown (v : View) (x : Nat × RowRun) : Bool := (v.budFinal (mainPath x)).any fun ps => ps.any (!·.void)

/-- The two scores of the bud petals, −inf where there is none. -/
def View.budScores (v : View) (p : Path) : F32 × F32 :=
  let ps := (v.budFinal p).getD []
  (((ps[0]?).map (·.score)).getD f32NegInf, ((ps[1]?).map (·.score)).getD f32NegInf)

/-! ### Claims -/

/-- A status found so far for a row by this member. -/
def View.ownStatus (v : View) (x : Nat × RowRun) : Nat :=
  mergeStatuses (x.2.refusal :: x.2.status :: (v.gr.faults.filter fun f => f.1 == x.1).map (·.2) ++
    (if v.r.split then [0x0A02] else []))

/-- The row takes the uniform race of R136; unknown while that rests on a total still to come. -/
def View.uniform (v : View) (x : Nat × RowRun) : Option Bool :=
  let p := mainPath x
  if !v.r.proving || x.2.desc.kind == 3 then some false
  else if (v.entries p).any (·.s.isSome) then some false
  else (v.total p).map fun t => t.candidates == 0

/-- The rule by which a row's claims are compared. -/
def View.kind (v : View) (x : Nat × RowRun) : RaceKind :=
  if (v.uniform x).getD false then .uniform else if (mainPath x).params.greedy then .greedy else .keys

/-- The petals of the uniform race (R134, R136, R283). -/
def View.uniformPetals (v : View) (x : Nat × RowRun) : List Petal :=
  (v.s.course.flatMap v.s.brickTokens).map fun t =>
    { void := false, second := false, bucket := 0, token := t, score := 0xC7000000, key := v.s.rowKey v.r x.2.desc t }

/-- A void claim (R326). -/
def voidClaim (row status : Nat) : Claim := { row := row, void := true, status := status, winner := voidPetal false }

/-- The claim of a winner, or a void claim. -/
def claimOf (row status : Nat) (w : Option Petal) : Claim :=
  match w with
  | some p => { row := row, void := false, status := status, winner := p }
  | none => voidClaim row status

/-- The members of C3 that this member holds. -/
def View.kept (v : View) (p : Path) (c : Cut) : List Petal :=
  ((v.entries p).filterMap (Entry.petal p.second)).filter fun x => c.has x.score x.token

/-- The searches of a row have ended at this member, so that no walk can add to its status (R269). -/
def View.searched (v : View) (x : Nat × RowRun) : Bool :=
  let ended := fun (p : Path) => !p.params.histogram || (v.sel p).value.isSome
  ended (mainPath x) && (!v.r.pairs x.2.desc || ended (secondPath x))

/-- This member's claim for a row, once it can be formed (R280). -/
def View.ownClaim (v : View) (x : Nat × RowRun) : Option Claim :=
  let st := v.ownStatus x
  let p := mainPath x
  if !v.scored then none
  else if x.2.refusal ≠ 0 then some (voidClaim x.1 st)
  else if !v.searched x then none
  else if x.2.desc.kind = 3 then some (voidClaim x.1 st)
  else match v.uniform x with
    | none => none
    | some true => some (claimOf x.1 st (race .uniform (v.uniformPetals x)))
    | some false =>
      if p.params.histogram then
        (v.sel p).value.map fun c => claimOf x.1 st (race (v.kind x) (v.kept p c.cut))
      else some (claimOf x.1 st (race (v.kind x) (v.kept p .all)))

/-- The rows of this step end BOND_SPLIT: found here, or said by a claim from below. Nothing more is waited for (R313). -/
def View.splitSeen (v : View) : Bool :=
  v.r.split || v.gr.inbox.any fun
    | .claims _ false cs => cs.any (·.status == 0x0A02)
    | _ => false

/-- All rows' claims. -/
def View.ownClaims (v : View) : Option (List Claim) :=
  if v.splitSeen then some (v.rows.map fun x => voidClaim x.1 (v.ownStatus x))
  else
    let cs := v.rows.filterMap v.ownClaim
    if cs.length = v.rows.length then some cs else none

/-- This member's residual claims with what has been found of their rows since (R346). -/
def View.residualClaims (v : View) : Option (List Claim) :=
  v.gr.residual.map fun cs => cs.map fun c =>
    { c with status := mergeStatuses (c.status :: (v.rows.filter (·.1 == c.row)).map v.ownStatus) }

/-- This member's claims of a round. -/
def View.roundClaims (v : View) (n : Nat) : Option (List Claim) := if n = 0 then v.ownClaims else v.residualClaims

/-- The claims of a round that a unit sent. -/
def View.claimsFrom (v : View) (src : Nat) (down : Bool) (n : Nat) : Option (List Claim) :=
  (v.gr.inbox.filterMap fun
    | .claims u d cs => if u == src && d == down then some cs else none
    | _ => none)[n]?

/-- Claims of one row merged: the winner by the rule, the first status (R318, R325). -/
def mergeClaim (k : RaceKind) (a b : Claim) : Claim :=
  let st := mergeStatus a.status b.status
  if b.void then { a with status := st }
  else if a.void || beats k b.winner a.winner then { b with status := st }
  else { a with status := st }

/-- Two claims name one token and differ (R318). -/
def claimsDiffer (a b : Claim) : Bool :=
  !a.void && !b.void && a.winner.token == b.winner.token && (a.winner != b.winner || a.status != b.status)

/-- Claims of a row from below. -/
def View.claimsBelow (v : View) (n row : Nat) : List Claim :=
  v.upFrom.filterMap fun u => (v.claimsFrom u false n).bind fun cs => cs.find? (·.row == row)

/-- The rule of a row in a round. -/
def View.roundKind (v : View) (n row : Nat) : RaceKind :=
  if n = 1 then .residual else ((v.rows.find? (·.1 == row)).map v.kind).getD .keys

/-- Every contribution of a lost owner's slot to a row is in at this member: node, histogram values, petals, bud petals and
claim (R324). What came through a member between is vouched for by that member's claim. -/
def View.reached (v : View) (x : Nat × RowRun) (b o : Nat) : Bool :=
  let paths := mainPath x :: if v.r.pairs x.2.desc then [secondPath x] else []
  let lists := fun (u : Nat) => u != o || paths.all fun p => (v.listTopics p).all fun t => (v.listFrom u false t.1).isSome
  (v.upFrom.any fun u => v.s.under o u && (v.claimsFrom u false 0).isSome && lists u) &&
    (paths.all fun p => (v.partials p).covers b && (v.histTopics p).all fun t => (v.hists p t).covers b) &&
    (!x.2.desc.hasBud || x.2.desc.token / 4096 != b || (v.budUp (mainPath x)).isSome)

/-- The lost slots whose values pass through this member, with their owners. -/
def View.lostSlots (v : View) : List (Nat × Nat) :=
  (List.range v.s.brickCount).filterMap fun b =>
    match bondOwner v.s.bond b with
    | some o => if v.s.slotLost b && o != v.me && (v.root || v.s.under o v.me) then some (b, o) else none
    | none => none

/-- A slot is lost whose contributions to a row in a round are not all in (R324). -/
def View.unreached (v : View) (n : Nat) (x : Nat × RowRun) : Bool :=
  v.lostSlots.any fun (b, o) =>
    if n = 0 then !v.reached x b o else !v.upFrom.any fun u => v.s.under o u && (v.claimsFrom u false 1).isSome

/-- The rounds and rows that miss contributions as the member stands: judged when an owner is lost, and as a step is
admitted, for an owner lost before it (R324; log entry 13). -/
def View.missedNow (v : View) : List (Nat × Nat) :=
  [0, 1].flatMap fun n => (v.rows.filter (v.unreached n)).map fun x => (n, x.1)

/-- A slot's contributions to a row did not all come before its owner was lost (R324). -/
def View.missing (v : View) (n : Nat) (x : Nat × RowRun) : Bool := v.gr.missed.contains (n, x.1)

/-- A round's claims merged over this member and those below it; a lost slot's row is MORTAR_COURSE_MISSING (R324, R325). -/
def View.mergedClaims (v : View) (n : Nat) : Option (List Claim) :=
  match v.roundClaims n with
  | none => none
  | some cs =>
    if v.splitSeen || v.kids.all fun k => (v.claimsFrom k false n).isSome then
      some (cs.map fun c =>
        let m := (v.claimsBelow n c.row).foldl (mergeClaim (v.roundKind n c.row)) c
        if (v.rows.find? (·.1 == c.row)).any (v.missing n) then { m with status := mergeStatus m.status 0x0A01 } else m)
    else none

/-! ### Statuses that come from combined values (R125, R235, R236, R369) -/

/-- A combined value of a path is an infinity or NaN. -/
def View.special (v : View) (p : Path) : Bool :=
  ((v.total p).map Partial.special).getD false ||
    (v.histTopics p).any fun t => ((v.histFinal p t).map fun h => h.bins.any fun b => w40IsSpecial b.mass).getD false

/-- A test holds for a node that this member holds of a sum, combined or not. -/
def View.anyNode {α : Type} (v : View) (n : Nodes α) (test : α → Bool) : Bool :=
  (v.s.course.map (0, ·) ++ n.got.map fun (x : Nat × Nat × Nat × α) => (x.2.1, x.2.2.1)).any fun (l, i) =>
    (v.known n none l i).any test

/-- An operand of a path's sums at this member is an infinity or NaN, the combined value formed or not (R125). -/
def View.specialSeen (v : View) (p : Path) : Bool :=
  v.special p || v.anyNode (v.partials p) Partial.special ||
    (v.histTopics p).any fun t => v.anyNode (v.hists p t) fun h => h.bins.any fun b => w40IsSpecial b.mass

/-- The target of a teacher-forced row is in C3. -/
def View.targetKept (v : View) (p : Path) : Bool :=
  let s := (v.budScores p).1
  s != f32NegInf && (((v.sel p).value.map fun c => c.cut.has s p.x.desc.token).getD false)

/-- Selection where it is complete. -/
def View.selected (v : View) (p : Path) : Sel :=
  (v.sel p).value.getD { kept := 0, mass := 0, cut := .none, first := none }

/-- logprob and raw_logprob of a teacher-forced row's target (R287, R370). -/
def View.targetLogprobs (v : View) (x : Nat × RowRun) : F32 × F32 :=
  let p := mainPath x
  let (s, r) := v.budScores p
  (if v.targetKept p then logprobOf (v.selected p).mass s else f32NegInf,
    if r == f32NegInf then f32NegInf else logprobOf (((v.total p).map (·.zr)).getD 0) r)

/-- The field that the grad_path of a learning row selects is −inf (R369). -/
def View.targetExcluded (v : View) (x : Nat × RowRun) : Bool :=
  let (s, r) := v.targetLogprobs x
  (if x.2.held.learn.sampling then s else r) == f32NegInf

/-- The status the combined values give a row. -/
def View.derived (v : View) (x : Nat × RowRun) : Nat :=
  let p := mainPath x
  let d := x.2.desc
  let special := v.special p || (v.r.pairs d && v.special (secondPath x))
  let lp := x.2.held.learn
  match v.total p with
  | none => 0
  | some t => mergeStatuses
    [if special then 0x0401 else 0,
     if w40IsZero t.zr ∧ (!v.r.proving ∨ d.kind = 3) then 0x0703 else 0,
     if t.candidates = 0 ∧ d.kind ≠ 3 ∧ !v.r.proving then 0x0704 else 0,
     if d.learning ∧ v.targetExcluded x then 0x0C07 else 0,
     if d.learning ∧ !f32Eq lp.klCoef 0 ∧ 0 < t.gap then 0x0C08 else 0]

/-- The statuses that values give a row whose combined ones are not whole: those that no missing value could take back
(R125, R324, R443). -/
def View.derivedPart (v : View) (x : Nat × RowRun) : Nat :=
  let d := x.2.desc
  let lp := x.2.held.learn
  let known := v.budKnown x
  let score := if lp.sampling then (v.budScores (mainPath x)).1 else (v.budScores (mainPath x)).2
  mergeStatuses
    [if v.specialSeen (mainPath x) || (v.r.pairs d && v.specialSeen (secondPath x)) then 0x0401 else 0,
     if d.learning ∧ known ∧ score = f32NegInf then 0x0C07 else 0,
     if d.learning ∧ !f32Eq lp.klCoef 0 ∧ 0 < ((v.total (mainPath x)).map (·.gap)).getD 0 then 0x0C08 else 0]

/-- The status that the combined values give a row's final claim; under BOND_SPLIT, as far as they have come (R443). -/
def View.derivedNow (v : View) (x : Nat × RowRun) : Nat :=
  if v.missing 0 x then v.derivedPart x
  else if v.splitSeen then mergeStatus (v.derived x) (v.derivedPart x) else v.derived x

/-- A row's status in a step that is split here (R313, R443). -/
def View.splitStatus (v : View) (x : Nat × RowRun) : Nat := mergeStatus (v.ownStatus x) (v.derivedNow x)

/-- Everything a row's final values rest on has come in at this member. -/
def View.ready (v : View) (x : Nat × RowRun) : Bool :=
  (v.sel (mainPath x)).value.isSome && (!v.r.pairs x.2.desc || (v.sel (secondPath x)).value.isSome) &&
    (!x.2.desc.hasBud || (v.budFinal (mainPath x)).isSome)

/-- The final claims of the race round that came down. -/
def View.sentDown (v : View) : Option (List Claim) :=
  if v.first then none else v.downFrom.findSome? fun u => v.claimsFrom u true 0

/-- A final claim's status rests on nothing still to come: one that came down is final, of the root's own one that precedes
all that combined values give (R325); a void bloom shows counts for 0x0703 and 0x0704 alone (R236). -/
def View.closes (v : View) (x : Nat × RowRun) (status : Nat) : Bool :=
  status != 0 && if v.sentDown.isSome then (status != 0x0703 && status != 0x0704) || (v.total (mainPath x)).isSome
    else decide (statusRank status < statusRank 0x0401)

/-- All that a row's end rests on is there. In a group that is split, and for a status that closes the row, that is nothing
but the claim (R313, R325). -/
def View.settled (v : View) (cs : List Claim) (x : Nat × RowRun) : Bool :=
  (v.scored && v.ready x) || v.splitSeen || cs.any fun c => c.status == 0x0A02 || (c.row == x.1 && v.closes x c.status)

/-- The final claims of the race round as they can be formed now: those that came down, or at the root its own. -/
def View.formed (v : View) : Option (List Claim) :=
  (v.kept? v.sentDown
    ((v.mergedClaims 0).map fun cs => (cs.zip v.rows).map fun (c, x) =>
      { c with status := mergeStatus c.status (v.derivedNow x) })).bind fun cs =>
    if v.rows.all (v.settled cs) then some cs else none

/-- The final claims of the race round. -/
def View.finals (v : View) : Option (List Claim) :=
  match v.gr.ended[0]? with
  | some cs => some cs
  | none => v.formed

/-! ### Chains (R341 to R346) -/

/-- The final claim of a row. -/
def claimAt (cs : List Claim) (row : Nat) : Claim := (cs.find? (·.row == row)).getD (voidClaim row 0x0A01)

/-- p or q of a token with its score on a path. -/
def Sel.prob (c : Sel) (score : F32) (t : Nat) : W40 := probOf (score != f32NegInf && c.cut.has score t) c.mass score

/-- The acceptance test of one chain row (R341). -/
def View.accepts (v : View) (cs : List Claim) (x : Nat × RowRun) : Bool :=
  let d := x.2.desc
  let p := mainPath x
  if (claimAt cs x.1).status ≠ 0 then false
  else if ((v.total p).map (·.candidates)).getD 0 = 0 then false
  else if p.params.greedy then ((v.selected p).first.map fun w => w.token == d.token).getD false
  else
    let (sp, sq) := v.budScores p
    let u := match v.s.rowContext d with
      | some c => scgUniform (scg128 (BitVec.ofNat 64 c.seed) (BitVec.ofNat 64 v.r.head.number) d.position d.token domAccept)
      | none => w40One
    acceptTest u ((v.selected p).prob sp d.token) ((v.selected (secondPath x)).prob sq d.token)

/-- Leading rows for which a test holds. -/
def leading {α : Type} (f : α → Bool) : List α → Nat
  | [] => 0
  | x :: xs => if f x then leading f xs + 1 else 0

/-- The rows of the chain that a row belongs to. -/
def View.chainRows (v : View) (x : Nat × RowRun) : List (Nat × RowRun) :=
  (v.rows.drop (x.1 - x.2.desc.chainIndex)).take (x.2.desc.chainLength + 1)

/-- The accepted count of a row's chain (R341). -/
def View.accepted (v : View) (cs : List Claim) (x : Nat × RowRun) : Nat :=
  leading (v.accepts cs) ((v.chainRows x).take x.2.desc.chainLength)

/-- The row is the end row of its chain. -/
def View.isEnd (v : View) (cs : List Claim) (x : Nat × RowRun) : Bool := v.accepted cs x == x.2.desc.chainIndex

/-- The row falls in the fourth case of table 11.2. -/
def View.isResidual (v : View) (cs : List Claim) (x : Nat × RowRun) : Bool :=
  let d := x.2.desc
  d.kind == 2 && decide (d.chainIndex < d.chainLength) && v.isEnd cs x && (claimAt cs x.1).status == 0 &&
    !(mainPath x).params.greedy && decide (0 < ((v.total (mainPath x)).map (·.candidates)).getD 0)

/-- The group's residual rows. -/
def View.residualRows (v : View) (cs : List Claim) : List (Nat × RowRun) := v.rows.filter (v.isResidual cs)

/-- A petal's value v of the residual race under the draft's sampling value of its token, −inf for none: none where p is
not above q (R342, R346). -/
def View.residualKey (v : View) (x : Nat × RowRun) (p : Petal) (draft : F32) : Option W40 :=
  let d := x.2.desc
  let df := w40Sub ((v.selected (mainPath x)).prob p.score p.token) ((v.selected (secondPath x)).prob draft p.token)
  let key := match v.s.rowContext d with
    | some cx => scgKey (BitVec.ofNat 64 cx.seed) (BitVec.ofNat 64 v.r.head.number) d.position p.token domResidual
    | none => 0
  if w40Lt 0 df then some (w40Add (fsLn df) key) else none

/-- This member's residual claim for a row (R342, R346). -/
def View.residualClaim (v : View) (x : Nat × RowRun) : Claim :=
  let draft := v.entries (secondPath x)
  let ps := (v.kept (mainPath x) (v.selected (mainPath x)).cut).filterMap fun p =>
    (v.residualKey x p (((findEntry draft p.token).bind (·.s)).getD f32NegInf)).map fun k => { p with key := k }
  claimOf x.1 (v.ownStatus x) (race .residual ps)

/-- The final claims of the residual round; empty where no row is residual. -/
def View.finals2 (v : View) (cs : List Claim) : Option (List Claim) :=
  match v.gr.ended[1]? with
  | some cs2 => some cs2
  | none =>
    if (v.residualRows cs).isEmpty then some []
    else v.kept? (v.downFrom.findSome? fun u => v.claimsFrom u true 1) (v.mergedClaims 1)

end Sys2Proof.Machine
end

