-- ==== Sys2Proof/Machine/Finals.lean ====
section
/-! DEFINITION. What each row ends with: the values of tables 9.4, 11.4 and 12.4, the bloom of tables 14.7 and 14.8,
the alternatives of table 14.9, and the tokens it appends (R331, R350). -/

namespace Sys2Proof.Machine

/-- The values of a bloom that depend on the row's outcome. -/
structure Bloom where
  status : Nat := 0
  flags : BloomFlags := {}
  token : Nat := 0xFFFFF
  logprob : F32 := 0
  rawLogprob : F32 := 0
  rawEntropy : F32 := 0
  kl : F32 := 0
  critic : F32 := 0
  loss : F32 := 0
  draft : F32 := 0
  kept : Nat := 0
  lnZ : W40 := 0
  counts : Partial := Partial.zero
  firstRejected : Nat := 0
  chainIndex : Nat := 0
  accepted : Nat := 0
  emitted : Nat := 0
deriving DecidableEq, Repr

/-- The 128 bytes of table 14.7. -/
def Bloom.encode (b : Bloom) (d : RowDesc) (index group altValid time : Nat) : Bytes :=
  toLe 2 b.status ++ toLe 2 b.flags.encode ++ toLe 4 (d.kind * 2 ^ 20 + b.token) ++ toLe 2 index ++
  toLe 2 ((if d.noContext then 2 ^ 13 else 0) + d.slot) ++ toLe 4 d.position ++ toLe 4 b.logprob.toNat ++
  toLe 4 b.rawLogprob.toNat ++ toLe 4 b.rawEntropy.toNat ++ toLe 4 b.kl.toNat ++ toLe 4 b.critic.toNat ++
  toLe 4 b.loss.toNat ++ toLe 4 b.draft.toNat ++ toLe 4 b.kept ++ toLe 8 b.lnZ.toNat ++ toLe 4 b.counts.candidates ++
  toLe 4 b.counts.masked ++ toLe 4 b.counts.flushed ++ toLe 4 b.counts.dropped ++ toLe 4 b.counts.rawMasked ++
  toLe 4 b.counts.rawDropped ++ toLe 4 b.firstRejected ++ toLe 1 b.chainIndex ++ toLe 1 b.accepted ++ toLe 1 b.emitted ++
  toLe 1 altValid ++ toLe 1 d.tenant ++ toLe 1 group ++ toLe 6 0 ++ toLe 8 time ++ toLe 8 d.hostTag ++ toLe 16 0

/-- An alternative entry (table 14.9); none: padding. -/
def altEntry (a : Option (Nat × F32 × F32)) : Bytes :=
  match a with
  | some (t, s, lp) => toLe 4 t ++ toLe 4 s.toNat ++ toLe 4 lp.toNat ++ toLe 4 0
  | none => toLe 4 (2 ^ 31 + 0xFFFFF) ++ toLe 4 0xFF800000 ++ toLe 4 0xFF800000 ++ toLe 4 0

/-- `n` entries, padded. -/
def altBytes (n : Nat) (as : List (Nat × F32 × F32)) : Bytes :=
  ((List.range n).map fun k => altEntry as[k]?).flatten

/-- ln V in W40 (R238). -/
def lnV (v : Nat) : W40 := fsLn (w40OfInt v)

/-! ### Values of a token -/

/-- The row takes the raw mass of R238. -/
def View.rawUniform (v : View) (x : Nat × RowRun) (t : Partial) : Bool :=
  v.r.proving && x.2.desc.kind != 3 && w40IsZero t.zr

/-- A row's combined partial as its reports use it: a raw mass of V in the case of R238. -/
def View.reported (v : View) (x : Nat × RowRun) : Partial :=
  let t := (v.total (mainPath x)).getD Partial.zero
  if v.rawUniform x t then { t with zr := w40OfInt v.s.vocab, hr := 0 } else t

/-- The raw value of a token whose brick another member holds (R287): in a race it is the one that gives the sampling
value its petal carries; in the uniform race it is not live under a −inf bias entry, live where the row's combined counts
name no other (R288), and no message says more of it (log entry 11). -/
def View.peerRaw (v : View) (x : Nat × RowRun) (uniform : Bool) (t : Nat) (s : F32) : Option F32 :=
  let p := v.s.pipeRow v.r (v.gr.start + x.1) x.2 false
  let r := Config.peerRaw (BitVec.ofNat 64 v.r.head.number) (v.gr.start + x.1) t
  let allLive := (v.total (mainPath x)).any fun n => n.rawMasked == 0 && n.rawDropped == 0
  if !uniform then some (p.rawFrom t s r.toNat)
  else if p.rawBiased t || !(allLive || f32IsFinite r) then none else some (p.rawAny r.toNat)

/-- The raw value of a token with sampling value `s` for a row: from this member's brick, or as another member's. -/
def View.rawOf (v : View) (x : Nat × RowRun) (uniform : Bool) (t : Nat) (s : F32) : Option F32 :=
  if v.s.course.contains (t / 4096) then (findEntry (v.entries (mainPath x)) t).bind (·.r) else v.peerRaw x uniform t s

/-- The draft's petals that messages brought: the merged list and the walks. -/
def View.draftPetals (v : View) (p : Path) : List Petal :=
  (v.listTopics p).flatMap fun (t, limit) =>
    match (v.bound p t).bind fun tau => v.listFinal p t limit tau with
    | some ps => ps.filter fun q => !q.void
    | none => []

/-- The token an end row emits (table 11.2): its petal, whether it came from the residual race, residual_empty. -/
structure Emitted where
  petal : Petal
  residual : Bool
  empty : Bool
deriving DecidableEq, Repr

/-- The emitted token's value v in the residual race under a draft value, in ascending order: behind every other where p is
not above q. -/
def View.draftRank (v : View) (x : Nat × RowRun) (m : Emitted) (draft : F32) : Ordering :=
  if !m.residual && !m.empty then .eq
  else match v.residualKey x m.petal draft with
    | none => if m.empty then .eq else .lt
    | some k => if m.empty ∨ w40Lt m.petal.key k then .gt else if w40Lt k m.petal.key then .lt else .eq

/-- The draft's sampling value of an emitted token that no list of the draft names, −inf where it is not in the draft's C3:
behind the list's last member and above every walked bucket; v falls as it rises, so what the residual claim's key, or that
every residual claim was void, says of it bounds it on both sides (R342, R346), and within the bounds it is a free value
(log entry 11). -/
def View.draftBehind (v : View) (x : Nat × RowRun) (m : Emitted) (last : Petal) : F32 :=
  let p := secondPath x
  let walks := ((v.listTopics p).filter (·.1.purpose == 1)).map (·.1.bucket)
  let rank := fun (i : Int) => v.draftRank x m (f32At i)
  let most := f32Place last.score + if last.token < m.petal.token then 1 else 0
  let low := leastAt (fun i => rank i != .gt && walks.all fun j => decide (j < bucketOf (f32At i))) 33 (-0x45000000) most
  let high := leastAt (fun i => rank i == .lt) 33 low most
  let free := Config.peerDraft (BitVec.ofNat 64 v.r.head.number) (v.gr.start + x.1) m.petal.token
  let out := v.draftRank x m f32NegInf == .eq && !f32IsFinite free
  if out ∨ high ≤ low then f32NegInf else placePick (low, high) free.toNat

/-- The draft's sampling value of an emitted token whose brick another member holds, −inf where it is no candidate: from the
row's bud petals, the merged list of the draft or its walks; the merged list names every member of C3 where it is not full
or holds them all. -/
def View.peerDraft (v : View) (x : Nat × RowRun) (m : Emitted) : F32 :=
  let p := secondPath x
  let listed := (v.merged p).getD []
  if x.2.desc.hasBud ∧ m.petal.token = x.2.desc.token ∧ v.budKnown x then (v.budScores (mainPath x)).2
  else match (v.draftPetals p).find? (·.token == m.petal.token), listed.getLast? with
    | some q, _ => q.score
    | none, some w =>
      if listed.length < p.params.listLength ∨ (v.selected p).kept ≤ listed.length then f32NegInf else v.draftBehind x m w
    | none, none => f32NegInf

/-- The draft's sampling value of an emitted token, −inf where it is no candidate. -/
def View.draftOf (v : View) (x : Nat × RowRun) (m : Emitted) : F32 :=
  let t := m.petal.token
  if v.s.course.contains (t / 4096) then ((findEntry (v.entries (secondPath x)) t).bind (·.s)).getD f32NegInf
  else v.peerDraft x m

/-- The fields that a token does not enter: counts, ln Z, entropy, KL, critic value. -/
def View.common (v : View) (x : Nat × RowRun) : Bloom :=
  let d := x.2.desc
  let t := v.reported x
  let c := x.2.critic
  let named := (v.r.criticSlot d).isSome
  { kept := (v.selected (mainPath x)).kept
    lnZ := lnZ t, rawEntropy := rawEntropy t, counts := t
    kl := if d.kl then klOf t (((v.total (secondPath x)).map (·.zr)).getD 0) else 0
    critic := if named then c else 0
    flags :=
      { klValid := d.kl, criticValid := named, criticNonfinite := named && !f32IsFinite c
        greedy := (mainPath x).params.greedy, teacher := d.kind == 3, heirloom := v.r.heirloom } }

/-- The bloom of a drawn token with its sampling value (R287, R288); `uniform` in the race of R136. -/
def View.drawn (v : View) (x : Nat × RowRun) (uniform : Bool) (t : Nat) (s : F32) : Bloom :=
  let b := v.common x
  let p := v.reported x
  let flat := v.rawUniform x ((v.total (mainPath x)).getD Partial.zero)
  let none_ := w40ToF32 (w40Neg (lnV v.s.vocab))
  { b with
    token := t
    logprob := if uniform then none_ else logprobOf (v.selected (mainPath x)).mass s
    rawLogprob := if flat then none_ else match v.rawOf x uniform t s with
      | some r => logprobOf p.zr r
      | none => f32NegInf
    kept := if uniform then v.s.vocab else b.kept
    flags := { b.flags with provingUniform := uniform || flat } }

/-- The raw path's entries of a row in ascending token. -/
def View.rawEntries (v : View) (x : Nat × RowRun) : List (Nat × F32) :=
  sortBy (fun (a b : Nat × F32) => decide (a.1 < b.1)) 32
    ((v.entries (mainPath x)).filterMap fun e => e.r.map fun r => (e.token, r))

/-- A void bloom (R437): one of ROW_FULLY_MASKED reports raw ln Z and entropy as any row of its mode does (R236, R240);
an Heirloom row's entropy is +0 (table 9.4; log entry 75). -/
def View.voidBloom (v : View) (x : Nat × RowRun) (status : Nat) : Bloom :=
  let t := v.reported x
  let d := x.2.desc
  let fl : BloomFlags := { void := true, notAdmitted := isRefusal status, teacher := d.kind == 3 }
  { status := status, flags := fl
    lnZ := if status ≠ 0x0704 then 0 else if v.r.heirloom then heirloomLnZ (v.rawEntries x) else lnZ t
    rawEntropy := if status = 0x0704 ∧ !v.r.heirloom then rawEntropy t else 0
    counts := if status = 0x0704 ∨ status = 0x0703 then t else Partial.zero
    chainIndex := if isRefusal status ∧ d.kind = 2 then d.chainIndex else 0 }

/-- The alternatives of a row that ended OK (R292). -/
def View.alternatives (v : View) (x : Nat × RowRun) : List (Nat × F32 × F32) :=
  let c := v.selected (mainPath x)
  (((v.merged (mainPath x)).getD []).take x.2.desc.alternatives).map fun p =>
    (p.token, p.score, if c.cut.has p.score p.token then logprobOf c.mass p.score else f32NegInf)

/-! ### Rows by kind -/

/-- A row's end before it is written: bloom, alternatives, tokens appended, bud accepted. -/
structure RowEnd where
  bloom : Bloom
  alts : List (Nat × F32 × F32)
  appended : List Nat
  accepted : Bool
deriving DecidableEq, Repr

/-- A row that reports no token. -/
def RowEnd.void (b : Bloom) : RowEnd := { bloom := b, alts := [], appended := [], accepted := false }

/-- The row's race was the uniform one. -/
def View.wasUniform (v : View) (x : Nat × RowRun) : Bool :=
  v.r.proving && x.2.desc.kind != 3 && ((v.total (mainPath x)).map (·.candidates)).getD 0 == 0

/-- A sampling row (table 9.4). -/
def View.endSampling (v : View) (c : Claim) (x : Nat × RowRun) : RowEnd :=
  if c.status ≠ 0 ∨ c.void then RowEnd.void (v.voidBloom x c.status)
  else
    let u := v.wasUniform x
    { bloom := v.drawn x u c.winner.token c.winner.score, alts := v.alternatives x
      appended := if u then [] else [c.winner.token], accepted := false }

/-- Adds the fields that a chain's rows share (table 11.4). -/
def chainFields (d : RowDesc) (a e : Nat) (b : Bloom) : Bloom :=
  { b with firstRejected := d.position - d.chainIndex + a, chainIndex := d.chainIndex, accepted := a, emitted := e }

/-- The draft's logprob of a token (table 11.4). -/
def View.draftLogprob (v : View) (x : Nat × RowRun) (t : Nat) (s : F32) : F32 :=
  let c := v.selected (secondPath x)
  if s != f32NegInf && c.cut.has s t then logprobOf c.mass s else f32NegInf

/-- The status of a chain's end row, and what it emits. -/
def View.endEmits (v : View) (cs cs2 : List Claim) (x : Nat × RowRun) : Nat × Option Emitted :=
  let c := claimAt cs x.1
  if c.status ≠ 0 then (c.status, none)
  else if !v.isResidual cs x then (0, if c.void then none else some { petal := c.winner, residual := false, empty := false })
  else
    let r := claimAt cs2 x.1
    if r.status ≠ 0 then (r.status, none)
    else if r.void then (0, if c.void then none else some { petal := c.winner, residual := false, empty := true })
    else (0, some { petal := r.winner, residual := true, empty := false })

/-- A row of an admitted chain (R348). The bonus row's draft_logprob is that of its own draft values (the model's choice, log
entry 89). -/
def View.endChain (v : View) (cs cs2 : List Claim) (x : Nat × RowRun) : RowEnd :=
  let d := x.2.desc
  let a := v.accepted cs x
  let last := (v.chainRows x)[a]?
  let out := (last.map (v.endEmits cs cs2)).getD (0, none)
  let counted := match last, out.2 with
    | some y, some _ => !v.wasUniform y
    | _, _ => false
  let e := a + if counted then 1 else 0
  let own := (claimAt cs x.1).status
  if isRefusal own then RowEnd.void (v.voidBloom x own)
  else if d.chainIndex < a then
    let (s, q) := v.budScores (mainPath x)
    let b := v.drawn x false d.token s
    { bloom := chainFields d a e
        { b with draft := v.draftLogprob x d.token q, flags := { b.flags with budAccepted := true } }
      alts := v.alternatives x, appended := [d.token], accepted := true }
  else if a < d.chainIndex then RowEnd.void (chainFields d a e (v.voidBloom x (mergeStatus own 0x0B04)))
  else match out.2 with
    | none => RowEnd.void (chainFields d a e (v.voidBloom x out.1))
    | some m =>
      let b := v.drawn x (v.wasUniform x) m.petal.token m.petal.score
      { bloom := chainFields d a e
          { b with
            draft := v.draftLogprob x m.petal.token (v.draftOf x m)
            flags := { b.flags with budResidual := m.residual, budBonus := a == d.chainLength, residualEmpty := m.empty } }
        alts := v.alternatives x, appended := if counted then [m.petal.token] else [], accepted := false }

/-- A teacher-forced row (table 12.4, R370). -/
def View.endTeacher (v : View) (c : Claim) (x : Nat × RowRun) : RowEnd :=
  if c.status ≠ 0 then RowEnd.void (v.voidBloom x c.status)
  else
    let d := x.2.desc
    let b := v.common x
    let (logprob, raw) := v.targetLogprobs x
    let lp := x.2.held.learn
    let term := f32Mul (f32Neg d.weight) (if lp.sampling then logprob else raw)
    let klTerm := f32Mul lp.klCoef (if f32Eq lp.klCoef 0 then 0 else b.kl)
    { bloom :=
        { b with
          token := d.token, logprob := logprob, rawLogprob := raw, loss := if d.learning then f32Add term klTerm else 0
          flags := { b.flags with targetExcluded := logprob == f32NegInf || raw == f32NegInf } }
      alts := v.alternatives x, appended := [], accepted := false }

/-- An Heirloom row's candidates in ascending token (table 4.9). -/
def View.drawHeirloom (v : View) (x : Nat × RowRun) : Option HeirloomEnd :=
  let cands := (v.entries (mainPath x)).filterMap fun e => e.s.map fun s => (e.token, s)
  let asc := sortBy (fun (a b : Nat × F32) => decide (a.1 < b.1)) 32 cands
  let u := match v.s.rowContext x.2.desc with
    | some c => scgHeirloomUniform
        (scg128 (BitVec.ofNat 64 c.seed) (BitVec.ofNat 64 v.r.head.number) x.2.desc.position 0 domHeirloom)
    | none => 0
  heirloomEnd (mainPath x).params u asc

/-- An Heirloom row (table 9.4, R240). -/
def View.endHeirloom (v : View) (x : Nat × RowRun) : RowEnd :=
  let st := v.ownStatus x
  let h := v.drawHeirloom x
  match h with
  | some e =>
    if st ≠ 0 then RowEnd.void (v.voidBloom x st)
    else
      { bloom :=
          { token := e.token, logprob := e.logprob, lnZ := e.lnZ, kept := e.kept
            counts := (v.total (mainPath x)).getD Partial.zero
            flags := { greedy := (mainPath x).params.greedy, heirloom := true } }
        alts := (e.alternatives.take x.2.desc.alternatives).map fun (t, s) => (t, s, 0)
        appended := [e.token], accepted := false }
  | none => RowEnd.void (v.voidBloom x (mergeStatus st 0x0704))

/-- A row's end by its kind. -/
def View.endOf (v : View) (cs cs2 : List Claim) (x : Nat × RowRun) : RowEnd :=
  if v.r.heirloom then v.endHeirloom x
  else match x.2.desc.kind with
    | 2 => v.endChain cs cs2 x
    | 3 => v.endTeacher (claimAt cs x.1) x
    | _ => v.endSampling (claimAt cs x.1) x

/-- A row's final record at a time. -/
def View.finalOf (v : View) (cs cs2 : List Claim) (x : Nat × RowRun) : RowFinal :=
  let e := v.endOf cs cs2 x
  let i := v.gr.start + x.1
  let ok := e.bloom.status == 0
  { index := i, status := e.bloom.status
    bloom := e.bloom.encode x.2.desc i v.g (if ok then e.alts.length else 0) v.s.now
    alternatives := if ok then altBytes x.2.desc.alternatives e.alts else []
    appended := e.appended, accepted := e.accepted }

/-! ### Writing a group -/

/-- The counter of a row status (table 15.15). -/
def statusCounter (status : Nat) : Option Nat :=
  match status with
  | 0x0501 => some 0x701001
  | 0x0502 => some 0x701002
  | 0x0702 => some 0x701003
  | 0x0D0E => some 0x701004
  | 0x0401 => some 0x701005
  | 0x0703 => some 0x701006
  | 0x0704 => some 0x701007
  | 0x0802 => some 0x701008
  | 0x0803 => some 0x701009
  | 0x0A01 => some 0x70100A
  | 0x0A02 => some 0x70100B
  | 0x0C08 => some 0x70100C
  | _ => none

/-- The counters one row's end advances. -/
def countEnd (v : View) (cs cs2 : List Claim) (x : Nat × RowRun) (f : RowFinal) (s : State) : State :=
  let s := match statusCounter f.status with
    | some k => count k 1 s
    | none => s
  let b := (v.endOf cs cs2 x).bloom
  let s := if f.status = 0x0C07 ∨ (x.2.desc.rider ∧ b.flags.targetExcluded) then count 0x707006 1 s else s
  if !v.r.heirloom && v.isResidual cs x then
    count 0x706004 (if b.flags.residualEmpty then 1 else 0) (count 0x706003 1 s)
  else s

/-- Writes one bloom and its alternatives (R436, R438). -/
def writeBloom (h : StepHead) (f : RowFinal) (s : State) : State :=
  let s := count 0x709007 1 (writeBytes (h.bouquet + 128 * f.index) f.bloom s)
  if f.alternatives = [] then s else writeBytes (h.alternatives + 1024 * f.index) f.alternatives s

/-- The replicated slots whose replica served (R316), each once for a pass group (DESIGN CHOICE, log entry 87). -/
def View.servedSlots (v : View) : Nat :=
  if !v.root || v.r.split then 0
  else countIf (fun b => v.s.replicated b && (bondOwner v.s.bond b).any fun o =>
      !v.s.present o && (v.paths false).any fun p =>
        v.byReplica (v.partials p) b o && (v.copy (v.partials p) b).isSome) (List.range v.s.brickCount)

/-- Ends every row of a group: the record unit writes its blooms (R331). -/
def finishGroup (v : View) (cs cs2 : List Claim) (s : State) : State :=
  let fs := v.rows.map fun x => (x, v.finalOf cs cs2 x)
  let s := fs.foldl (fun s y => countEnd v cs cs2 y.1 y.2 s) s
  let s := if v.r.record = v.me then fs.foldl (fun s y => writeBloom v.r.head y.2 s) s else s
  let s := count 0x705008 v.servedSlots s
  let s := withGroup v.g (fun gr => { gr with written := true }) s
  withRun (fun r => { r with finals := r.finals ++ fs.map (·.2) }) s

end Sys2Proof.Machine
end

