-- ==== Sys2Proof/Machine/Learning.lean ====
section
/-! DEFINITION. The second pass of the learning direction (R371 to R379). -/

namespace Sys2Proof.Machine

/-- κ, φ_raw and φ_samp of an entry seen h times in the history (R372). -/
def chainFactors (p : PipeRow) (h : Nat) (a : F32) (y : Piped) : F32 × F32 × F32 :=
  let q := p.params
  let t := tanhF32 (f32Div a q.softCap)
  let kappa := if f32Eq q.softCap 0 then f32One else f32Sub f32One (f32Mul t t)
  let pi := if h = 0 then f32One else if f32Lt 0 y.biased then rcpF32 q.repetition else q.repetition
  let tau := if f32Eq q.temperature 0 then f32One else rcpF32 q.temperature
  (kappa, if y.r = y.rUnclamped then kappa else 0,
    if y.s = y.sUnclamped then f32Mul (f32Mul kappa pi) tau else 0)

/-- What the dlogits of a row are formed from. -/
structure GradIn where
  params : LearnParams
  weight : F32
  target : Nat
  raw : W40
  sel : Sel
  aKl : W40

/-- gf of a raw-live entry (R373); `r2` is its raw value under the second slot. -/
def dlogit (g : GradIn) (p : PipeRow) (t : Nat) (a : F32) (y : Piped) (r2 : Option F32) : F32 :=
  let h := (lookupKey p.counts t).getD 0
  let (kappa, phiRaw, phiSamp) := chainFactors p h a y
  let phi := if g.params.sampling then phiSamp else phiRaw
  let cand := sampleClass p y.s == .candidate && g.sel.cut.has y.s t
  let pg := if g.params.sampling then probOf cand g.sel.mass y.s else probOf true g.raw y.r
  let u := if t = g.target then w40One else w40Zero
  let v := w40Mul (w40Mul (f32ToW40 g.weight) (f32ToW40 phi)) (w40Sub pg u)
  let beta := g.params.klCoef
  if f32Eq beta 0 then w40ToF32 v
  else
    let pr := probOf true g.raw y.r
    let kt := w40Mul pr (w40Sub (w40Sub (f32ToW40 y.r) (f32ToW40 (r2.getD 0))) g.aKl)
    w40ToF32 (w40Add v (w40Mul (w40Mul (f32ToW40 beta) (f32ToW40 kappa)) kt))

/-- What a row's second pass works with. -/
def View.gradIn (v : View) (x : Nat × RowRun) : GradIn :=
  let t := (v.total (mainPath x)).getD Partial.zero
  { params := x.2.held.learn, weight := x.2.desc.weight, target := x.2.desc.token, raw := t.zr
    sel := v.selected (mainPath x), aKl := w40Mul t.kd (rcpW40 t.zr) }

/-- The dlogits of one brick by lane: an entry that is not live in the raw path has gf +0 (log entry 14). -/
def View.dlogits (v : View) (x : Nat × RowRun) (b : Nat) : List (Nat × F32) :=
  let d := x.2.desc
  let p := v.s.pipeRow v.r (v.gr.start + x.1) x.2 false
  let mask := x.2.held.allows ((v.s.rowLanes x.2 b).getD .nothing)
  let second := v.entries (secondPath x)
  let g := v.gradIn x
  (v.s.slotScores v.r d d.primary x.2.main b).filterMap fun (t, a) =>
    let y := pipe p (mask t) t a
    if f32IsFinite y.r then some (t % 4096, dlogit g p t a y ((findEntry second t).bind (·.r))) else none

/-- The codes and the scale of a dlogit brick (R374). -/
def encodeDlogits (e5m2 : Bool) (gf : List (Nat × F32)) : Bytes × F32 :=
  let e := scaleExp (if e5m2 then 57344 else 448) (maxAbs (gf.map (·.2)))
  let fmt := if e5m2 then fmtE5M2 else fmtE4M3
  ((List.range 4096).map fun l =>
      match lookupKey gf l with
      | some v => BitVec.ofNat 8 (narrow fmt (f32Of ((f32Num v).mul (.fin 1 (-e)))))
      | none => 0,
    f32Pow2 e)

/-- Element j of a brick's leaf (R375): `lanes` are the vocabulary's lanes with their weights and gf. -/
def leafElement (scales : Option (List F32)) (lanes : List (List F32 × F32)) (j : Nat) : F32 :=
  let sum := numSum (lanes.map fun l => (f32Num (l.1.getD j 0)).mul (f32Num l.2))
  match scales with
  | none => f32Of sum
  | some ss => f32Of ((f32Num (ss.getD (j / 128) 0)).mul sum)

/-- The dh leaf of a brick. -/
def View.dhLeaf (v : View) (x : Nat × RowRun) (b : Nat) (gf : List (Nat × F32)) : List F32 :=
  let h := v.s.head x.2.desc.primary
  let l := h.layout
  let k := v.s.placeOf x.2.desc.primary b
  let lanes := (v.s.brickTokens b).map fun t =>
    (laneWeights h.weights l.format l.width k (t % 4096), (lookupKey gf (t % 4096)).getD 0)
  let scales := if l.format = 1 then none else some (l.scales (v.r.block x.2.desc.primary) k)
  (List.range l.width).map (leafElement scales lanes)

/-- Bytes of a leaf in dh_format (table 4.7). -/
def leafBytes (p : LearnParams) (leaf : List F32) : Bytes :=
  (leaf.map fun f => if p.bf16Dh then toLe 2 (narrow fmtBF16 f) else toLe 4 f.toNat).flatten

/-- One brick of a learning row: its dlogits, scale and leaf at the places of table 12.5; all +0 where the row did not
end OK (R379). -/
def writeGradients (v : View) (x : Nat × RowRun) (ok : Bool) (b : Nat) (s : State) : State :=
  let d := x.2.desc
  let p := x.2.held.learn
  let l := v.s.layout d.primary
  let gf := if ok then v.dlogits x b else []
  let codes := encodeDlogits p.e5m2 gf
  let base := p.dlogitBase + d.learnIndex * p.dlogitStride
  let s := if p.emitDlogit then
      count 0x707004 1 (writeBytes (base + 4096 * v.s.brickCount + 4 * b) (toLe 4 codes.2.toNat)
        (writeBytes (base + 4096 * b) codes.1 s))
    else s
  if p.emitDh then
    let leaf := if ok then v.dhLeaf x b gf else List.replicate l.width 0
    count 0x707005 1 (writeBytes (p.dhBase + d.learnIndex * p.dhStride + l.width * p.dhWidth * b) (leafBytes p leaf) s)
  else s

/-- A row's broadcast operand (R377). -/
def writeOperand (v : View) (x : Nat × RowRun) (s : State) : State :=
  let d := x.2.desc
  let p := x.2.held.learn
  if p.emitOperand then
    writeBytes (p.operandBase + d.learnIndex * p.operandStride) (operandBytes (v.s.layout d.primary).format x.2.main) s
  else s

/-- The second pass of a group: bricks in ascending slot, rows in descriptor order; owners alone write (R376). A row that
met an uncorrectable word in the pass takes the outputs of one that did not end OK (log entry 69). -/
def runSecondPass (v : View) (s : State) : State :=
  let rows := v.r.emitRows v.gr
  let ok := fun (x : Nat × RowRun) => x.2.status == 0 && (v.r.finals.find? (·.index == v.gr.start + x.1)).any (·.status == 0)
  let s := (v.s.course.filter v.s.owns).foldl (fun s b => rows.foldl (fun s x => writeGradients v x (ok x) b s) s) s
  let s := rows.foldl (fun s x => writeOperand v x s) s
  withGroup v.g (fun gr => { gr with secondPass := true }) s

end Sys2Proof.Machine
end

