-- ==== Sys2Proof/Machine/Pump.lean ====
section
/-! DEFINITION. A pass group moves on as far as what the member holds lets it: copies are compared, messages of table
10.16 are sent, rows end and their blooms are written, the step's summary follows (R321, R322, R331, R441). -/

namespace Sys2Proof.Machine

/-! ### Differences and duplicates (R315 to R318) -/

/-- What comparing a received copy found: rows where it differs, and copies that agree. -/
structure Compared where
  faulty : List Nat
  doubles : Nat
deriving DecidableEq, Repr

/-- A row that has not ended ends BRICK_CONSISTENCY_FAULT; counted and raised once per row (R332). -/
def noteFault (g pos : Nat) (s : State) : State :=
  match s.view g with
  | none => s
  | some v =>
    let ended := v.gr.written || (v.gr.ended != [] && !((v.finals.map v.residualRows).getD []).any (·.1 == pos))
    if ended || v.gr.faults.contains (pos, 0x0A03) then s
    else raiseCount 0x0A04 0x705007 v.r.head.number (v.gr.start + pos) 0
      (withGroup g (fun gr => { gr with faults := gr.faults ++ [(pos, 0x0A03)] }) s)

/-- Applies what a comparison found. -/
def noteCompared (g : Nat) (c : Compared) (s : State) : State :=
  c.faulty.foldl (fun s pos => noteFault g pos s) (count 0x705006 c.doubles s)

/-- Marks a piece of work done. -/
def mark (g target : Nat) (m : Mark) (s : State) : State := withGroup g (fun gr => { gr with sent := gr.sent ++ [(target, m)] }) s

/-- A path of the group. -/
def View.pathAt (v : View) (pos : Nat) (second : Bool) : Option Path :=
  (v.rows.find? (·.1 == pos)).map fun x => { pos := x.1, x := x.2, second := second }

/-- Compares values with the copies held: none while some row has no copy. -/
def compareWith {α : Type} [DecidableEq α] (rep : Bool) (xs : List (Nat × α × Option α)) : Option Compared :=
  if xs.all fun x => x.2.2.isSome then
    let bad := (xs.filter fun x => x.2.2 ≠ some x.2.1).map (·.1)
    some { faulty := bad, doubles := if rep then xs.length - bad.length else 0 }
  else none

/-- Compares message `n` of the inbox with the copy held (R315, R316): none where there is none yet. A replicated leaf is
compared by the root alone. -/
def View.compare (v : View) (n : Nat) (m : Taken) : Option Compared :=
  let earlier := v.gr.inbox.take n
  let own := fun (l i : Nat) => l == 0 && v.s.course.contains i
  let skip := fun (l i : Nat) => l == 0 && v.s.replicated i && !v.root
  match m with
  | .node _ second false l i rows =>
    if skip l i then none
    else compareWith (l == 0 && v.s.replicated i) (rows.map fun (pos, x) =>
      let mine := if own l i then (v.pathAt pos second).bind fun p => (v.ownBrick p i).map (·.part) else none
      (pos, x, if mine.isSome then mine else earlier.findSome? fun
        | .node _ sd false l' i' rs => if sd == second && l' == l && i' == i then lookupKey rs pos else none
        | _ => none))
  | .hist _ false t l i tau bins =>
    if skip l i then none
    else
      let x : Hist := { bins := bins, tau := tau }
      let mine := if own l i then (v.pathAt t.row t.second).bind fun p => (v.hists p t).own i else none
      compareWith (l == 0 && v.s.replicated i) [(t.row, x, if mine.isSome then mine else earlier.findSome? fun
        | .hist _ false t' l' i' n' b' =>
          if t' = t ∧ l' = l ∧ i' = i then some ({ bins := b', tau := n' } : Hist) else none
        | _ => none)]
  | .petals _ false t _ _ ps =>
    if t.purpose ≠ 3 ∨ ps = [] then none
    else
      let mine := (v.pathAt t.row false).bind v.ownBud
      let held := if mine.isSome then mine else earlier.findSome? fun
        | .petals _ false t' _ _ ps' => if t' = t ∧ ps' ≠ [] then some ps' else none
        | _ => none
      if held = some [] then none else compareWith true [(t.row, ps, held)]
  | _ => none

/-- Compares every received copy that has not been. -/
def compareCopies (g : Nat) (s : State) : State :=
  match s.view g with
  | none => s
  | some v =>
    ((List.range v.gr.inbox.length).zip v.gr.inbox).foldl (fun s (n, m) =>
      if v.gr.sent.contains (v.me, .checked n) then s
      else match v.compare n m with
        | some c => noteCompared g c (mark g v.me (.checked n) s)
        | none => s) s

/-- Tokens met more than once in a list about to be merged, and non-canonical keys read back for it (R120, R317). -/
def compareLists (g : Nat) (s : State) : State :=
  match s.view g with
  | none => s
  | some v =>
    (v.paths false ++ v.paths true).foldl (fun s p =>
      (v.listTopics p).foldl (fun s (t, limit) =>
        if v.gr.sent.contains (v.me, .petals false t) then s
        else match v.bound p t with
          | none => s
          | some tau =>
            if (v.listUp p t limit tau).isNone then s
            else
              let r := petalCopies (v.lists p t limit tau)
              noteOdd (v.oddStored p t tau)
                (noteCompared g { faulty := if r.2 then [p.pos] else [], doubles := r.1 } (mark g v.me (.petals false t) s))) s) s

/-- Claims about to be merged that name one token and differ (R318). -/
def compareClaims (g n : Nat) (s : State) : State :=
  match s.view g with
  | none => s
  | some v =>
    if v.gr.sent.contains (v.me, .claims false n) || (v.mergedClaims n).isNone then s
    else
      let bad := ((v.roundClaims n).getD []).filter fun c =>
        let cs := c :: v.claimsBelow n c.row
        cs.any fun a => cs.any fun b => claimsDiffer a b
      noteCompared g { faulty := bad.map (·.row), doubles := 0 } (mark g v.me (.claims false n) s)

/-- Petals of a walk beyond 4,096 that this member received: its own are among those it retains (R265). -/
def View.receivedBeyond (v : View) (p : Path) (t : Topic) (limit : Nat) (tau : Option F32) (ps : List Petal) : List Petal :=
  let own := v.ownList p t limit tau
  let others := ps.filter fun x => !own.contains x
  others.drop (others.length - (ps.length - 4096))

/-- Sub-bucket walks whose petals have come in: those received beyond 4,096 are placed in the spill area (R262, R265). -/
def holdWalks (g : Nat) (s : State) : State :=
  match s.view g with
  | none => s
  | some v =>
    (v.paths false ++ v.paths true).foldl (fun s p =>
      (v.listTopics p).foldl (fun s (t, limit) =>
        if t.purpose ≠ 2 ∨ p.x.refusal ≠ 0 ∨ v.gr.sent.contains (v.me, .petals true t) then s
        else match (v.bound p t).bind fun tau => (v.listFinal p t limit tau).map fun ps => v.receivedBeyond p t limit tau ps with
          | none => s
          | some ps => placeWalk (v.gr.start + p.pos) ps (mark g v.me (.petals true t) s)) s) s

/-! ### What is to be sent -/

/-- A message of the group for a unit, and its mark. -/
structure Outgoing where
  target : Nat
  mark : Mark
  typ : Nat
  payloads : List Bytes

/-- The message that carries a taken one on. -/
def Taken.message (g : Nat) : Taken → Nat × Bytes
  | .node _ second down l i rows => (4, partialPayload g second down l i rows)
  | .hist _ down t l i tau bins => (5, histPayload g down t l i tau bins)
  | .petals _ down t n more ps => (6, petalPayload g down t n more ps)
  | .claims _ down cs => (7, claimPayload g down cs)

/-- The fragments of a list (table 10.10). -/
def listFragments (g : Nat) (down : Bool) (t : Topic) (ps : List Petal) : List Bytes :=
  let parts := if ps = [] then [[]] else chunksOf 4096 ps.length ps
  (parts.zip (List.range parts.length)).map fun (qs, k) => petalPayload g down t k (decide (k + 1 < parts.length)) qs

/-- All of a list's values, where every one is there. -/
def allSome {α : Type} (xs : List (Option α)) : Option (List α) :=
  let ys := xs.filterMap id
  if ys.length = xs.length then some ys else none

/-- Slots whose nodes a member passes up: owned, not replicated, its own or of the members below it, or among what came up
to it (R321). -/
def View.upSlots {α : Type} (v : View) (n : Nodes α) (b : Nat) : Bool :=
  !v.s.replicated b && match bondOwner v.s.bond b with
    | some o => (v.s.subtree 5 v.me).contains o || n.covers b
    | none => false

/-- The nodes a member sends: the largest it covers, and its replicated slots' leaves. -/
def View.upNodes {α : Type} (v : View) (n : Nodes α) : List (Nat × Nat) :=
  coverNodes (v.upSlots n) v.s.brickCount 8 0 ++ (v.s.course.filter v.s.replicated).map fun b => (0, b)

/-- A node's value to be sent: a replicated slot's is this member's own. -/
def View.upNode {α : Type} (v : View) (n : Nodes α) (zero : α) (add : α → α → α) (l i : Nat) : Option α :=
  if l = 0 ∧ v.s.replicated i then n.own i else v.node n zero add l i

/-- PARTIAL_SUM messages up. -/
def View.partialsUp (v : View) (parent : Nat) : List Outgoing :=
  [false, true].flatMap fun second =>
    let ps := v.paths second
    match ps.head? with
    | none => []
    | some q => (v.upNodes (v.partials q)).filterMap fun (l, i) =>
      (allSome (ps.map fun p => (v.upNode (v.partials p) Partial.zero Partial.add l i).map fun x => (p.pos, x))).map
        fun rows => { target := parent, mark := .node second false l i, typ := 4
                      payloads := [partialPayload v.g second false l i rows] }

/-- HISTOGRAM messages up. -/
def View.histsUp (v : View) (parent : Nat) : List Outgoing :=
  (v.paths false ++ v.paths true).flatMap fun p => (v.histTopics p).flatMap fun t =>
    (v.upNodes (v.hists p t)).filterMap fun (l, i) => (v.upNode (v.hists p t) Hist.zero Hist.add l i).map fun h =>
      { target := parent, mark := .hist false t l i, typ := 5, payloads := [histPayload v.g false t l i h.tau h.bins] }

/-- PETAL_LIST messages up. -/
def View.listsUp (v : View) (parent : Nat) : List Outgoing :=
  (v.paths false ++ v.paths true).flatMap fun p =>
    ((v.listTopics p).filterMap fun (t, limit) => (v.bound p t).bind fun tau =>
      (v.listUp p t limit tau).map fun ps =>
        { target := parent, mark := .petals false t, typ := 6, payloads := listFragments v.g false t ps }) ++
    (if p.second ∨ !p.x.desc.hasBud then [] else
      ((v.budUp p).map fun ps =>
        { target := parent, mark := .petals false p.bud, typ := 6, payloads := listFragments v.g false p.bud ps }).toList)

/-- BLOOM_CLAIM messages up. -/
def View.claimsUp (v : View) (parent : Nat) : List Outgoing :=
  [0, 1].filterMap fun n =>
    match v.mergedClaims n with
    | none => none
    | some [] => none
    | some cs => some { target := parent, mark := .claims false n, typ := 7, payloads := [claimPayload v.g false cs] }

/-- Message `n` of the inbox passed on to a unit. -/
def View.relay (v : View) (n : Nat) (m : Taken) (target : Nat) : Outgoing :=
  let (typ, bs) := m.message v.g
  { target := target, mark := .relay n, typ := typ, payloads := [bs] }

/-- The inbox with its numbers. -/
def View.taken (v : View) : List (Nat × Taken) := (List.range v.gr.inbox.length).zip v.gr.inbox

/-- Replicated leaves passed on up (R316). -/
def View.relaysUp (v : View) (parent : Nat) : List Outgoing :=
  v.taken.flatMap fun (n, m) =>
    match m with
    | .node _ _ false 0 i _ => if v.s.replicated i then [v.relay n m parent] else []
    | .hist _ false _ 0 i _ _ => if v.s.replicated i then [v.relay n m parent] else []
    | _ => []

/-- Whatever came down passed on further down (R322). -/
def View.relaysDown (v : View) : List Outgoing :=
  v.taken.flatMap fun (n, m) =>
    match m with
    | .node _ _ true _ _ _ | .hist _ true _ _ _ _ _ | .petals _ true _ _ _ _ | .claims _ true _ => v.kids.map (v.relay n m)
    | _ => []

/-- What the root sends down (R322). -/
def View.downs (v : View) (kid : Nat) : List Outgoing :=
  let sums := [false, true].filterMap fun second =>
    let ps := v.paths second
    if ps.isEmpty then none
    else (allSome (ps.map fun p => (v.total p).map fun x => (p.pos, x))).map fun rows =>
      ({ target := kid, mark := .node second true 8 0, typ := 4, payloads := [partialPayload v.g second true 8 0 rows] } : Outgoing)
  let rest := (v.paths false ++ v.paths true).flatMap fun p =>
    ((v.histTopics p).filterMap fun t => (v.histFinal p t).map fun h =>
      ({ target := kid, mark := .hist true t 8 0, typ := 5, payloads := [histPayload v.g true t 8 0 h.tau h.bins] } : Outgoing)) ++
    ((v.listTopics p).filterMap fun (t, limit) => (v.bound p t).bind fun tau =>
      (v.listFinal p t limit tau).map fun ps =>
        ({ target := kid, mark := .petals true t, typ := 6, payloads := listFragments v.g true t ps } : Outgoing)) ++
    (if p.second ∨ !p.x.desc.hasBud then [] else ((v.budFinal p).map fun ps =>
      ({ target := kid, mark := .petals true p.bud, typ := 6, payloads := listFragments v.g true p.bud ps } : Outgoing)).toList)
  let claims := match v.finals with
    | none => []
    | some cs =>
      ({ target := kid, mark := .claims true 0, typ := 7, payloads := [claimPayload v.g true cs] } : Outgoing) ::
        match v.finals2 cs with
        | some (c :: cs2) => [{ target := kid, mark := .claims true 1, typ := 7, payloads := [claimPayload v.g true (c :: cs2)] }]
        | _ => []
  sums ++ rest ++ claims

/-- A member that holds a group's final values has nothing to send up, unless its step is split or another unit has
become root (R313, R327). -/
def View.sendsUp (v : View) : Bool := !v.gr.written || v.r.split || v.s.root != v.s.cfg 0x501003

/-- All that can be sent now. A unit that becomes the parent has acknowledged nothing: everything goes to it (R321; log
entry 80). -/
def View.outgoing (v : View) : List Outgoing :=
  if v.root then v.kids.flatMap v.downs
  else
    let parent := v.s.parentOf v.me
    (if v.sendsUp then
      v.partialsUp parent ++ v.histsUp parent ++ v.listsUp parent ++ v.claimsUp parent ++ v.relaysUp parent else []) ++
    v.relaysDown

/-- The step's end time so far: now (table 14.10). -/
def noteEnd (s : State) : State := withRun (fun r => { r with endTime := s.now, endCycles := r.laneCycles }) s

/-- Sends what has not been sent. -/
def sendGroup (g : Nat) (s : State) : State :=
  match s.view g with
  | none => s
  | some v =>
    v.outgoing.foldl (fun s o =>
      if v.gr.sent.contains (o.target, o.mark) then s
      else
        let s := if !v.root && o.target == v.s.parentOf v.me then noteEnd s else s
        o.payloads.foldl (fun s bs => sendMsg o.typ o.target bs s) (mark g o.target o.mark s)) s

/-! ### The end of a group and of a step -/

/-- Final claims that are there are kept: nothing that comes later changes them (R327). -/
def keepFinals (g : Nat) (s : State) : State :=
  match s.view g with
  | none => s
  | some v =>
    match v.finals with
    | none => s
    | some cs =>
      match (if v.r.heirloom then none else v.finals2 cs) with
      | none => withGroup g (fun gr => { gr with ended := [cs] }) s
      | some cs2 => withGroup g (fun gr => { gr with ended := [cs, cs2] }) s

/-- Final claims of a group: at once under BOND_SPLIT (R313) and in Heirloom mode, else those of the bond group. -/
def View.finalClaims (v : View) : Option (List Claim) :=
  if v.r.split then some (v.rows.map fun x => voidClaim x.1 (v.splitStatus x))
  else if v.r.heirloom then (if v.scored then some (v.rows.map fun x => voidClaim x.1 (v.ownStatus x)) else none)
  else v.finals

/-- Ends a group whose final values are there and whose predecessors are written (R36, R331). -/
def endGroup (g : Nat) (s : State) : State :=
  match s.view g with
  | none => s
  | some v =>
    if !(v.r.groups.take g).all (·.written) then s
    else match v.finalClaims with
      | none => s
      | some cs =>
        let none_ := v.r.split || v.r.heirloom || (v.residualRows cs).isEmpty
        if none_ then
          finishGroup v cs [] (withGroup g (fun gr => { gr with residual := some (gr.residual.getD []) }) s)
        else match v.gr.residual, v.finals2 cs with
          | some _, some cs2 => finishGroup v cs cs2 s
          | _, _ => s

/-- The step digest of R440. -/
def StepRun.digest (r : StepRun) : Bytes :=
  sha256 ((r.finals.map fun f => overwrite f.bloom 96 (toLe 8 0) ++ f.alternatives).flatten)

/-- The step summary of table 14.10 in its first 16 bytes. -/
def StepRun.summaryHead (r : StepRun) (state : Nat) : Bytes :=
  toLe 4 r.bloomsReady ++ toLe 1 state ++ toLe 3 0 ++ toLe 8 r.head.number

/-- The whole summary at the step's end. -/
def StepRun.summary (r : StepRun) (s : State) : Bytes :=
  let ok := countIf (fun (f : RowFinal) => f.status == 0) r.finals
  let refused := countIf (fun (f : RowFinal) => isRefusal f.status) r.finals
  r.summaryHead 2 ++ toLe 2 r.stepStatus ++
  toLe 2 ((if r.proving then 16 else 0) + (if r.heirloom then 8 else 0) + (if r.byGo then 4 else 0) +
    (if r.takeover then 2 else 0) + (if r.record = s.address then 1 else 0)) ++
  toLe 2 s.address ++ toLe 2 r.record ++ toLe 4 (s.cfg 0x501001) ++ toLe 2 r.head.rowCount ++ toLe 2 0 ++
  toLe 8 r.begun ++ toLe 8 r.admittedTime ++ toLe 8 r.endTime ++ toLe 8 r.head.time ++ toLe 4 ok ++ toLe 4 refused ++
  toLe 4 (r.finals.length - ok - refused) ++ toLe 4 ((r.finals.map (·.appended.length)).sum) ++
  toLe 4 (countIf (fun (f : RowFinal) => f.accepted) r.finals) ++
  toLe 4 (countIf (fun (x : RowRun) => x.refusal == 0 && x.desc.kind == 3) r.rows) ++ toLe 4 (min r.estimate (2 ^ 32 - 1)) ++
  toLe 4 (min r.wake (2 ^ 32 - 1)) ++ toLe 8 r.endCycles ++ r.digest ++ toLe 120 0

/-- Writes the summary once every group is written, acknowledged and past its second pass (R441, R380). -/
def endStepWork (s : State) : State :=
  match s.steps.run with
  | none => s
  | some r =>
    let mine := r.record == s.address
    if r.admitted && !r.summaryDone &&
        r.groups.all fun g => g.written && (g.acknowledged || !mine) && (g.secondPass || (r.emitRows g).isEmpty) then
      withRun (fun r => { r with summaryDone := true }) (writeBytes r.head.summary (r.summary s) s)
    else s

/-- What one group compares, holds and sends. -/
def exchangeGroup (g : Nat) (s : State) : State :=
  sendGroup g (keepFinals g (compareClaims g 1 (compareClaims g 0 (holdWalks g (compareLists g (compareCopies g s))))))

/-- Moves one group on: an ended one still passes on what other members need. -/
def pumpGroup (g : Nat) (s : State) : State :=
  match s.group g with
  | none => s
  | some gr => if gr.written then sendGroup g (compareCopies g s) else endGroup g (exchangeGroup g s)

/-- Moves every group of an admitted step on, in order, while the lanes are not stopped (R99) and in a state in which steps
run (R491). -/
def pump (s : State) : State :=
  match s.steps.run with
  | none => s
  | some r => if r.admitted && !s.lanesStopped && s.runsSteps then endStepWork ((List.range r.groups.length).foldl (fun s g => pumpGroup g s) s) else s

/-- The record unit changed during the step: the taker writes the whole bouquet so far, each bloom with the time of this
write (R327, R436). -/
def takeOver (old s : State) : State :=
  match old.steps.run, s.steps.run with
  | some a, some b =>
    if b.takeover && !a.takeover then
      let s := withRun (fun r => { r with bloomsReady := 0, groups := r.groups.map fun g => { g with acknowledged := false } }) s
      b.finals.foldl (fun s f => writeBloom b.head { f with bloom := overwrite f.bloom 96 (toLe 8 s.now) } s) s
    else s
  | _, _ => s

/-- What groups miss of the owners lost by now is settled (R324). -/
def noteMissed (s : State) : State :=
  (List.range ((s.steps.run.map (·.groups.length)).getD 0)).foldl (fun s g =>
    match s.view g with
    | some v => if v.gr.written then s else withGroup g (fun gr => { gr with missed := gr.missed ++ v.missedNow }) s
    | none => s) s

/-! ### The step's events -/

/-- A brick, or the critic pair as brick 256, drains (R34, R192). -/
def runDrain (g brick : Nat) (ecc : List EccHit) (s : State) : State :=
  let s := groupHits g ecc s
  pump (if brick = 256 then drainCritic g s else drainBrick g brick s)

/-- The brick is the one whose drain comes next, and its sum columns are filled (R34). -/
def State.drainDue (s : State) (g brick : Nat) : Bool :=
  match s.steps.run, s.group g with
  | some r, some gr =>
    s.scoringDue g && brick == s.brickDue r gr && s.columnsFull r gr brick && !s.drainWaits r g gr
  | _, _ => false

/-- BRICK_DRAIN: the course's next brick, or the critic pair as brick 256 (R34, R192). -/
def execBrickDrain (group brick : Nat) (ecc : List EccHit) (s : State) : Host.Outcome State Fault Refusal :=
  if s.drainDue group brick then .next (runDrain group brick ecc s) else .fault .stepNotDue

/-- The group's chains are decided and it holds residual rows not yet scored again. -/
def State.residualDue (s : State) (g : Nat) : Bool :=
  match s.view g with
  | some v =>
    s.working && v.r.admitted && !v.gr.written && v.gr.residual.isNone && !v.r.split && !v.r.heirloom &&
      match v.finalClaims with
      | some cs => !(v.residualRows cs).isEmpty
      | none => false
  | none => false

/-- The residual pass: the group's residual rows scored again, their claims formed (R346). -/
def runResidual (g : Nat) (ecc : List EccHit) (s : State) : State :=
  match s.view g with
  | none => s
  | some v =>
    let rows := v.residualRows (v.finalClaims.getD [])
    let slots := firsts (rows.flatMap fun x => x.2.desc.primary :: x.2.desc.second.toList)
    let s := groupHits g ecc (railReads slots (rows.map fun x => v.gr.start + x.1) s)
    match s.view g with
    | none => s
    | some w =>
      let again := w.rows.filter fun x => rows.any (·.1 == x.1)
      pump (withGroup g (fun gr => { gr with residual := some (again.map w.residualClaim) }) s)

/-- RESIDUAL_PASS, with the latencies of its tile loads (R105). -/
def execResidualPass (group : Nat) (s : State) (ecc : List EccHit := []) (loads : List Nat := []) :
    Host.Outcome State Fault Refusal :=
  if s.residualDue group then .next (noteLoads loads (runResidual group ecc s)) else .fault .stepNotDue

/-- The group's final claims are there and it emits gradients not yet written. -/
def State.secondDue (s : State) (g : Nat) : Bool :=
  match s.view g with
  | some v => s.working && v.gr.written && !v.gr.secondPass && !(v.r.emitRows v.gr).isEmpty
  | none => false

/-- What the reads of the second pass met: words in error, and its tiles while the rail pass runs (R505). -/
def secondReads (g : Nat) (ecc : List EccHit) (v : View) (s : State) : State :=
  let rows := v.r.emitRows v.gr
  groupHits g ecc (railReads (firsts (rows.map (·.2.desc.primary))) (rows.map fun x => v.gr.start + x.1) s)

/-- The second pass of a group, then the summary where it was the last work. -/
def doSecondPass (g : Nat) (ecc : List EccHit) (s : State) : State :=
  match s.view g with
  | none => s
  | some v =>
    let s := secondReads g ecc v s
    match s.view g with
    | none => s
    | some w => endStepWork (runSecondPass w s)

/-- SECOND_PASS, with the latencies of its tile loads (R105). -/
def execSecondPass (group : Nat) (s : State) (ecc : List EccHit := []) (loads : List Nat := []) :
    Host.Outcome State Fault Refusal :=
  if s.secondDue group then .next (noteLoads loads (doSecondPass group ecc s)) else .fault .stepNotDue

/-- The group's bloom writes are outstanding at the record unit, and every group before it is acknowledged. -/
def State.ackDue (s : State) (g : Nat) : Bool :=
  match s.view g with
  | some v =>
    s.working && v.r.record == s.address && v.gr.written && !v.gr.acknowledged &&
      (v.r.groups.take g).all (·.acknowledged)
  | none => false

/-- blooms_ready moves past a group, never back (R441, R524). -/
def acknowledgeGroup (g : Nat) (s : State) : State :=
  match s.view g with
  | none => s
  | some v =>
    let n := max v.r.bloomsReady (v.gr.start + v.gr.count)
    let s := noteEnd (withRun (fun r => { r with bloomsReady := n }) (withGroup g (fun gr => { gr with acknowledged := true }) s))
    endStepWork (writeBytes v.r.head.summary (toLe 4 n) s)

/-- PASS_GROUP_BLOOMS_ACKNOWLEDGED. -/
def execPassGroupBloomsAcknowledged (group : Nat) (s : State) : Host.Outcome State Fault Refusal :=
  if s.ackDue group then .next (acknowledgeGroup group s) else .fault .stepNotDue

end Sys2Proof.Machine
end

