-- ==== Sys2Proof/Machine/Reliability.lean ====
section
/-! DEFINITION. Scrub (R502, R505), snapshots (R509 to R513), the hold area (R514, R515) and restore (R516 to R520). -/

namespace Sys2Proof.Machine

/-! ### Scrub -/

/-- Lines of a memory (table 17.5). -/
def scrubLines : Nat → Nat
  | 1 => 25165824
  | 2 => 262144
  | 3 => 524288
  | 4 => 32768
  | 5 => 65536
  | 6 => 1024
  | _ => 256

/-- Lines of a memory now: of the automaton cache, those of its valid lines of 512 bytes. -/
def State.memoryLines (s : State) (m : Nat) : Nat := if m = 5 then 8 * s.contexts.cache.length else scrubLines m

/-- A memory is scrubbed at this moment (table 17.5). -/
def State.scrubbed (s : State) (m : Nat) : Bool :=
  match m with
  | 1 => !s.sensing.hsOff
  | 2 => s.laneRails
  | 3 => s.laneRails
  | 5 => s.laneRails && !s.contexts.cache.isEmpty
  | _ => true

/-- The next memory of the rotation. -/
def nextMemory (m : Nat) : Nat := if m = 7 then 1 else m + 1

/-- The memory and line the rotation reads, memories not scrubbed now skipped. -/
def State.scrubAt (s : State) : Nat → Nat → Nat → Nat × Nat
  | 0, m, line => (m, line)
  | fuel + 1, m, line => if s.scrubbed m then (m, line) else s.scrubAt fuel (nextMemory m) 0

/-- What the scrub finds in one line: hits of other words are not of this read. -/
def scrubLine (m line : Nat) (found : List EccHit) (s : State) : State :=
  (found.filter fun e => e.memory == m && e.word / 8 == line).foldl (fun s e =>
    if e.uncorrectable then uncorrectableScrub e s else correctedWord 2 e s) s

/-- Moves the rotation on; a Head Store pass that ends is counted (table 17.14). -/
def scrubAdvance (m line : Nat) (s : State) : State :=
  if line + 1 < s.memoryLines m then { s with upkeep := { s.upkeep with memory := m, line := line + 1 } }
  else
    let s := { s with upkeep := { s.upkeep with memory := nextMemory m, line := 0 } }
    if m = 1 then count 0x70A20A 1 s else s

/-- One scrub read: the pass HS_RAIL_FAULT started goes ahead of the rotation (R505). -/
def scrubRead (found : List EccHit) (s : State) : State :=
  match s.upkeep.hsPass, s.scrubbed 1 with
  | some left, true =>
    let s := scrubLine 1 (scrubLines 1 - left) found s
    if 1 < left then { s with upkeep := { s.upkeep with hsPass := some (left - 1) } }
    else raise 0x1103 (count 0x70A20A 1 { s with upkeep := { s.upkeep with hsPass := none } })
  | _, _ =>
    let (m, line) := s.scrubAt 7 s.upkeep.memory s.upkeep.line
    scrubAdvance m line (scrubLine m line found s)

/-- The scrub runs: the unit is powered and no reset holds it (R22, R502). -/
def State.scrubRuns (s : State) : Bool :=
  s.sensing.power != .off && match s.boundary.phase with
    | .asserted _ => false
    | _ => true

/-- SCRUB_READ (R502): one line per slow cycle in every state but Off; nothing is read while the block is held in reset. -/
def execScrubRead (found : List EccHit) (s : State) : Host.Outcome State Fault Refusal :=
  .next (if s.scrubRuns then scrubRead found s else s)

/-! ### The internal forms of slots and pages (R509, log entry 16) -/

/-- The key of a node's first page. -/
def Node.firstPage (n : Node) : Nat := n.pageKey (n.pages.headD 0)

/-- The internal form of a slot, 256 bytes; a slot Pausing is imaged as Open, a slot Resuming as Paused (R518). -/
def State.slotForm (s : State) (slot : Nat) : Bytes :=
  match s.context slot with
  | none => toLe 256 0
  | some c =>
    toLe 1 (if c.state = 2 then 1 else if c.state = 4 then 3 else c.state) ++ toLe 1 (if c.cancelPending then 1 else 0) ++
    toLe 2 c.tenant ++ toLe 8 c.seed ++ toLe 2 c.automaton ++ toLe 2 0 ++ toLe 4 c.automatonState ++
    toLe 4 (s.node c.leaf).firstPage ++ toLe 4 0 ++ toLe 8 c.opened ++ toLe 8 c.expiry ++ toLe 8 c.timeToLive ++
    toLe 8 c.lastStep ++ toLe 196 0

/-- Reads a slot form: its leaf is named by the key of its first page. -/
def readSlotForm (bs : Bytes) : Option Context :=
  if fieldAt bs 0 1 = 0 then none
  else some
    { state := fieldAt bs 0 1, cancelPending := fieldAt bs 1 1 == 1, tenant := fieldAt bs 2 2, seed := fieldAt bs 4 8
      automaton := fieldAt bs 12 2, automatonState := fieldAt bs 16 4, leaf := fieldAt bs 20 4, opened := fieldAt bs 28 8
      expiry := fieldAt bs 36 8, timeToLive := fieldAt bs 44 8, lastStep := fieldAt bs 52 8, provisional := 0, copying := [] }

/-- `n` bytes from the head of a string, filled with zeros. -/
def padTo (n : Nat) (bs : Bytes) : Bytes := slice bs 0 n

/-- Pairs of 4-byte numbers. -/
def pairBytes (xs : List (Nat × Nat)) : Bytes := (xs.map fun x => toLe 4 x.1 ++ toLe 4 x.2).flatten

/-- Page `j` of a node: the header with the list of its pages, then its tokens, then its counts. -/
def State.pageForm (s : State) (n : Node) (j : Nat) : Bytes :=
  if j = 0 then
    padTo 4096 (toLe 4 (match n.parent with
      | some p => (s.node p).firstPage
      | none => 0xFFFFFFFF) ++ toLe 4 n.tokens.length ++ toLe 4 n.pages.length ++ (n.pages.map (toLe 4)).flatten)
  else padTo 4096 (pairBytes (n.page j))

/-- Every page in use: key and content. -/
def State.livePages (s : State) : List (Nat × Bytes) :=
  s.contexts.nodes.flatMap fun e =>
    (e.2.pages.zip (List.range e.2.pages.length)).map fun (p, j) => (e.2.pageKey p, s.pageForm e.2 j)

/-! ### Snapshots -/

/-- Records packed into chunks of at most 65,488 bytes. -/
def packRecords (kind : Nat) (records : List Bytes) : List Chunk :=
  let step := fun (acc : List Bytes × Bytes) (r : Bytes) =>
    if acc.2.length + r.length ≤ 65488 then (acc.1, acc.2 ++ r) else (acc.1 ++ [acc.2], r)
  let (full, last) := records.foldl step ([], [])
  (full ++ (if last = [] then [] else [last])).map fun p => { kind := kind, payload := p }

/-- The objects of 0x7000 to 0x70FF, each at its type's size (table 17.9); Counter Clear reads 0. -/
def State.counterBytes (s : State) : Bytes :=
  (imageObjects.map fun o => toLe (typeSize o.2) (s.counter o.1)).flatten

/-- Highest page index used in an area, plus 1. -/
def State.highestPage (s : State) (pause : Bool) : Nat :=
  ((s.contexts.nodes.filter fun e => e.2.paused == pause).flatMap fun e => e.2.pages).foldl (fun m p => max m (p + 1)) 0

/-- A tenant's budget use. -/
def State.budget (s : State) (t : Nat) : Budget := (lookupKey s.contexts.budgets t).getD { used := 0, period := 0, reserved := 0 }

/-- The kind-5 payload (table 17.9). -/
def State.imageHeader (s : State) (full : Bool) (epoch prev : Nat) (digest : Bytes) : Bytes :=
  padTo 4096 (toLe 1 2 ++ toLe 1 Config.siliconStep.toNat ++ toLe 2 (if full then 1 else 0) ++ toLe 4 epoch ++
    toLe 8 s.steps.lastNumber ++ toLe 4 prev ++ toLe 4 (s.highestPage false) ++ toLe 4 (s.highestPage true) ++
    toLe 2 s.address ++ toLe 2 0 ++ digest ++ toLe 64 0 ++
    ((List.range 64).map fun t => toLe 8 (s.budget t).used ++ toLe 8 (s.budget t).period).flatten ++ s.counterBytes)

/-- Partner Unit. -/
def State.partner (s : State) : Nat := s.rwVal 0x800001

/-- The conditions of R512 for a full image, but for events since the last one. -/
def State.fullDue (s : State) (epoch : Nat) : Bool :=
  s.snapshot.lastPartner != some s.partner || decide (s.rwVal 0x800003 - 1 ≤ s.snapshot.increments) ||
    decide (epoch ≤ s.snapshot.lastEpoch)

/-- The slots and pages an image holds. -/
def State.imageContents (s : State) (full : Bool) : List Nat × List Nat :=
  if full then (s.contexts.slots.map (·.1), s.livePages.map (·.1))
  else (s.snapshot.dirtySlots, s.snapshot.dirtyPages)

/-- The marks of what an image holds: those it clears once it is complete (R512). -/
def marksHeld (held marks : List Nat) : List Nat := marks.filter fun k => held.contains k

/-- The marks of what an image does not hold. -/
def marksLeft (held marks : List Nat) : List Nat := marks.filter fun k => !held.contains k

/-- Numbers in ascending order. -/
def ascend (xs : List Nat) : List Nat := sortBy (fun a b => decide (a < b)) 32 xs

/-- The chunks of an image of these slots and pages, and its final digest (R509, R510). -/
def State.imageChunks (s : State) (full : Bool) (epoch prev : Nat) (slots pages : List Nat) : List Chunk × Bytes :=
  let slots := ascend slots
  let live := s.livePages
  let used := slots.filterMap fun k => (s.context k).map fun c => (k, c)
  let body :=
    packRecords 1 (slots.map fun k => toLe 2 k ++ toLe 2 0 ++ s.slotForm k) ++
    packRecords 2 ((ascend pages).map fun key =>
      let area := if 2 ^ 28 ≤ key then 2 else 0
      match lookupKey live key with
      | some bs => toLe 4 (key % 2 ^ 28) ++ toLe 4 area ++ bs
      | none => toLe 4 (key % 2 ^ 28) ++ toLe 4 (area + 1)) ++
    packRecords 3 (used.map fun (k, c) => toLe 2 k ++ toLe 2 0 ++ toLe 4 c.automatonState) ++
    packRecords 4 (used.map fun (k, c) => toLe 2 k ++ toLe 2 0 ++ toLe 8 c.seed)
  let digest := sha256 ((body.map fun c => sha256 c.payload).flatten)
  (body ++ [{ kind := 5, payload := s.imageHeader full epoch prev digest }], digest)

/-- A snapshot fails (R513); no dirty mark is cleared. -/
def failSnapshot (reason : Nat) (s : State) : State :=
  match s.snapshot.run with
  | none => s
  | some r =>
    raiseCount 0x1107 0x70A203 r.step r.epoch reason
      { s with snapshot := { s.snapshot with
          state := 3, run := none
          forceFull := s.snapshot.forceFull || r.forced, refused := reason == 2
          dirtySlots := addMarks r.slots s.snapshot.dirtySlots
          dirtyPages := addMarks r.pages s.snapshot.dirtyPages } }

/-- A capture that is due (R511): skipped while a snapshot sends, failed with reason 1 without the partner. -/
def capture (s : State) : State :=
  if s.snapshot.run.isSome then count 0x70A204 1 s
  else
    let step := s.steps.lastNumber
    let epoch := step % 2 ^ 32
    let full := s.snapshot.forceFull || s.snapshot.refused || s.fullDue epoch
    let (slots, pages) := s.imageContents full
    let (chunks, digest) := s.imageChunks full epoch (if full then epoch else s.snapshot.lastEpoch) slots pages
    let run : SnapRun :=
      { partner := s.partner, epoch := epoch, step := step, full := full, forced := s.snapshot.forceFull, chunks := chunks
        sent := 0, placed := [], finalDigest := leNat digest, slots := marksHeld slots s.snapshot.dirtySlots
        pages := marksHeld pages s.snapshot.dirtyPages }
    let s' := { s with
      steps := { s.steps with sinceCapture := 0 }
      snapshot := { s.snapshot with
        state := 1, requested := false, run := some run, forceFull := false
        dirtySlots := marksLeft slots s.snapshot.dirtySlots, dirtyPages := marksLeft pages s.snapshot.dirtyPages } }
    if (s.peer s.partner).state = 2 then wake s' else failSnapshot 1 s'

/-- A capture falls due at action 7 (R511). -/
def State.captureDue (s : State) : Bool :=
  s.partner != s.address && s.restore.quiesced == 0 &&
    (s.snapshot.requested || (s.rwVal 0x800002 != 0 && decide (s.rwVal 0x800002 ≤ s.steps.sinceCapture)))

/-- Snapshot Go (R511, R517). -/
def snapshotGoEffect (s : State) : State :=
  if s.restore.quiesced ≠ 0 ∨ s.partner = s.address then reject s
  else
    let s := { s with snapshot := { s.snapshot with requested := true } }
    if s.stepRunning then s else capture s

/-- A chunk header (table 10.12). -/
def chunkHeader (epoch chunk count bytes kind : Nat) (digest : Bytes) : Bytes :=
  toLe 4 epoch ++ toLe 4 chunk ++ toLe 4 count ++ toLe 4 bytes ++ toLe 1 kind ++
  toLe 1 (if chunk + 1 = count then 1 else 0) ++ toLe 6 0 ++ digest ++ toLe 8 0

/-- The next chunk of the frozen image goes to the partner (R513). -/
def sendChunk (r : SnapRun) (c : Chunk) (s : State) : State :=
  sendMsg 9 r.partner
    (chunkHeader r.epoch r.sent r.chunks.length c.payload.length c.kind (sha256 c.payload) ++ c.payload)
    { s with snapshot := { s.snapshot with run := some { r with sent := r.sent + 1 } } }

/-- The state behind a capture has been read: with no capture sending, or the ports isolated, the responses are accepted
and discarded (R76, R513). -/
def snapshotChunkRead (s : State) : State :=
  match s.snapshot.run with
  | none => s
  | some r =>
    match r.chunks[r.sent]? with
    | none => s
    | some c => if s.portsUp then sendChunk r c s else s

/-- What the reads for a capture find: a slot lost to them ends the image as a read error does (log entry 84). -/
def captureHits (ecc : List EccHit) (s : State) : State :=
  if s.snapshot.run.isNone then s
  else
    let s := readHits ecc s
    if ecc.any fun e => e.memory == 4 && e.uncorrectable then failSnapshot 3 s else s

/-- SNAPSHOT_CHUNK_READ. -/
def execSnapshotChunkRead (s : State) (ecc : List EccHit := []) : Host.Outcome State Fault Refusal :=
  .next (snapshotChunkRead (captureHits ecc s))

/-- The image is complete at the partner (R512, R513). -/
def finishSnapshot (r : SnapRun) (s : State) : State :=
  raiseCount 0x1106 0x70A202 r.step r.epoch 0
    { s with snapshot := { s.snapshot with
        state := 2, run := none, lastEpoch := r.epoch, lastStep := r.step, lastDigest := r.finalDigest
        lastPartner := some r.partner, increments := if r.full then 0 else s.snapshot.increments + 1, refused := false } }

/-! ### STATE_PAGE -/

/-- A chunk header as received. -/
structure ChunkHead where
  epoch : Nat
  chunk : Nat
  count : Nat
  bytes : Nat
  kind : Nat
  last : Bool
  digest : Bytes
deriving DecidableEq, Repr

/-- Reads a chunk header. -/
def ChunkHead.read (pl : Bytes) : ChunkHead :=
  { epoch := fieldAt pl 0 4, chunk := fieldAt pl 4 4, count := fieldAt pl 8 4, bytes := fieldAt pl 12 4
    kind := fieldAt pl 16 1, last := fieldAt pl 17 1 == 1, digest := slice pl 24 32 }

/-- A STATE_PAGE payload obeys table 10.12 (R328). -/
def chunkClear (pl : Bytes) : Bool :=
  let h := ChunkHead.read pl
  decide (h.bytes ≤ 65488) && between 1 h.kind 5 && decide (fieldAt pl 17 1 < 2) && zeroBytes pl 18 24 &&
    zeroBytes pl 56 64 && decide (64 + h.bytes ≤ pl.length)

/-- A receipt for a chunk of the running snapshot (R513). -/
def takeReceipt (src : Nat) (h : ChunkHead) (s : State) : State :=
  match s.snapshot.run with
  | none => s
  | some r =>
    match r.chunks[h.chunk]? with
    | none => s
    | some c =>
      if src ≠ r.partner ∨ h.epoch ≠ r.epoch ∨ h.count ≠ r.chunks.length then s
      else if leNat h.digest = 0 then failSnapshot 2 s
      else if h.digest ≠ sha256 c.payload then s
      else
        let r' := { r with placed := addMarks r.placed [h.chunk] }
        if r'.placed.length = r.chunks.length then finishSnapshot r' s
        else { s with snapshot := { s.snapshot with run := some r' } }

/-! ### The hold area -/

/-- Bytes between the addresses of two chunks. -/
def chunkStride : Nat := 69632

/-- Hold Area Address and half of Hold Area Size. -/
def State.holdBase (s : State) : Nat := s.rwVal 0x800101
/-- Bytes of a half. -/
def State.holdHalf (s : State) : Nat := s.rwVal 0x800102 / 2

/-- Address of the half that holds the chain, or of the other one. -/
def State.halfAddr (s : State) (chain : Bool) : Nat :=
  s.holdBase + if s.hold.upper == chain then s.holdHalf else 0

/-- Sends a receipt: placing with the chunk's digest, refusing with zeros. -/
def sendReceipt (dst : Nat) (header : Bytes) (placing : Bool) (s : State) : State :=
  let h := ChunkHead.read header
  sendMsg 9 dst (overwrite (overwrite header 12 (toLe 4 0)) 24 (if placing then h.digest else toLe 32 0)) s

/-- Refuses a chunk; `own` is set when it is of the image being received, which is then discarded. -/
def refuseChunk (src : Nat) (header : Bytes) (own : Bool) (s : State) : State :=
  let h := ChunkHead.read header
  let s := if own then { s with hold := { s.hold with receiving := none } } else s
  sendReceipt src header false (raiseArgs 0x1108 0 src (h.epoch % 65536) s)

/-- Where an increment of the chain is appended. -/
def State.appendAddr (s : State) : Nat :=
  match s.hold.chain.getLast? with
  | some im => im.addr + chunkStride * im.chunks
  | none => s.halfAddr true

/-- Copies `n` bytes of the chip memory. -/
def copyBytes (src dst n : Nat) (s : State) : State := if src = dst then s else writeBytes dst (s.bytesAt src n) s

/-- The image that a chunk belongs to: a new one at chunk 0, the one under way where it is next (log entry 15). -/
def State.incoming (s : State) (h : ChunkHead) : Option HoldIn :=
  if h.chunk = 0 then
    some { epoch := h.epoch, full := true, base := if s.hold.chain = [] then s.halfAddr true else s.halfAddr false, next := 0
           count := h.count, writing := [] }
  else match s.hold.receiving with
    | some r => if r.epoch = h.epoch ∧ r.next = h.chunk then some r else none
    | none => none

/-- Writes a chunk of the image under way; its write is outstanding. -/
def placeChunk (r : HoldIn) (header : Bytes) (pl : Bytes) (s : State) : State :=
  let h := ChunkHead.read header
  writeBytes (r.base + chunkStride * h.chunk) (pl.take (64 + h.bytes))
    { s with hold := { s.hold with receiving := some { r with next := r.next + 1, writing := r.writing ++ [header] } } }

/-- A chunk for the hold area (R514). -/
def takeHold (src : Nat) (pl : Bytes) (s : State) : State :=
  let header := pl.take 64
  let h := ChunkHead.read header
  let s := if s.hold.source.isNone ∧ s.rwVal 0x800102 ≠ 0 then { s with hold := { s.hold with source := some src } } else s
  if s.hold.source ≠ some src then refuseChunk src header false s
  else match s.incoming h with
    | none => refuseChunk src header true s
    | some r =>
      if s.holdHalf < chunkStride * (h.chunk + 1) then refuseChunk src header true s
      else if !h.last then placeChunk r header pl s
      else
        let full := fieldAt pl (64 + 2) 2 % 2 == 1
        let epoch := fieldAt pl (64 + 4) 4
        let prev := fieldAt pl (64 + 16) 4
        if full then placeChunk r header pl s
        else
          let addr := s.appendAddr
          if s.hold.chain.getLast?.map (·.epoch) ≠ some prev ∨ epoch ≤ prev ∨
              s.halfAddr true + s.holdHalf < addr + chunkStride * (h.chunk + 1) then refuseChunk src header true s
          else
            let s := copyBytes r.base addr (chunkStride * h.chunk) s
            placeChunk { r with base := addr, full := false } header pl s

/-- The oldest outstanding hold write is acknowledged: the placing receipt goes out, and an image whose last chunk it
was joins the chain. -/
def holdPlaced (s : State) : State :=
  match s.hold.receiving with
  | none => s
  | some r =>
    match r.writing with
    | [] => s
    | header :: rest =>
      let h := ChunkHead.read header
      let im : HeldImage := { addr := r.base, epoch := h.epoch, chunks := h.count }
      let hold :=
        if !h.last then { s.hold with receiving := some { r with writing := rest } }
        else if r.full then
          { s.hold with receiving := none, chain := [im], upper := r.base != s.holdBase }
        else { s.hold with receiving := none, chain := s.hold.chain ++ [im] }
      sendReceipt (s.hold.source.getD 0) header true { s with hold := hold }

/-- HOLD_CHUNK_PLACED: an acknowledgement for an image since discarded, or on an isolated port, changes nothing (R76,
R514). -/
def execHoldChunkPlaced (s : State) : Host.Outcome State Fault Refusal := .next (if s.portsUp then holdPlaced s else s)

/-- Hold Clear: chain and source forgotten. -/
def holdClearEffect (s : State) : State := { s with hold := .initial }

/-- Hold Send Go (R515). -/
def holdSendGoEffect (s : State) : State :=
  if (s.peer (s.rwVal 0x800106)).state ≠ 2 then reject s
  else { s with hold := { s.hold with sending := if s.hold.chain = [] then none else some (0, 0) } }

/-- The next position of the images being sent. -/
def State.sendAfter (s : State) (i c : Nat) : Option (Nat × Nat) :=
  match s.hold.chain[i]? with
  | none => none
  | some im => if c + 1 < im.chunks then some (i, c + 1) else if i + 1 < s.hold.chain.length then some (i + 1, 0) else none

/-- The chunk at a position goes to Hold Send Target with Hold Send Epoch in it. -/
def holdSend (i c : Nat) (s : State) : State :=
  match s.hold.chain[i]? with
  | none => s
  | some im =>
    let at_ := im.addr + chunkStride * c
    let pl := s.bytesAt at_ (64 + s.numAt (at_ + 12) 4)
    let next := s.sendAfter i c
    sendMsg 9 (s.rwVal 0x800106) (overwrite pl 0 (toLe 4 (s.rwVal 0x800107))) { s with hold := { s.hold with sending := next } }

/-- The chunk next to be sent has been read; with no send under way, or on an isolated port, it is discarded (R76). -/
def holdChunkRead (s : State) : State :=
  match s.hold.sending with
  | some (i, c) => if s.portsUp then holdSend i c s else s
  | none => s

/-- HOLD_SEND_CHUNK_READ. -/
def execHoldSendChunkRead (s : State) : Host.Outcome State Fault Refusal := .next (holdChunkRead s)

/-- Hold Directory (table 17.10). -/
def State.holdDirectory (s : State) : Bytes :=
  padTo 256 ((s.hold.chain.map fun im => toLe 8 im.addr ++ toLe 4 im.epoch ++ toLe 4 im.chunks).flatten)

/-- The hold or a snapshot uses its objects, which are then not written (R515). -/
def State.holdBusy (s : State) : Bool := s.snapshot.run.isSome || s.hold.receiving.isSome || s.hold.sending.isSome

/-! ### Restore -/

/-- Every slot and page in use changes: the marks of an image under way stand again (R512). -/
def markAll (s : State) : State :=
  let run := s.snapshot.run.toList
  dirtyKeys (run.flatMap (·.pages) ++ s.livePages.map (·.1))
    { s with snapshot := { s.snapshot with
      dirtySlots := addMarks s.snapshot.dirtySlots (run.flatMap (·.slots) ++ s.contexts.slots.map (·.1)) } }

/-- The unit prepares for a restore (R516): starts refused, nothing held, nothing written, quiesced. -/
def prepareRestore (s : State) : State :=
  let s := markAll (clearStarts s)
  { s with
    snapshot := { s.snapshot with
      state := if s.snapshot.run.isSome then 0 else s.snapshot.state, run := none, requested := false, forceFull := true }
    contexts := { s.contexts with
      slots := [], nodes := [], nextNode := 2 ^ 29, reservedPages := 0, batches := []
      budgets := s.contexts.budgets.map fun e => (e.1, { e.2 with used := 0, reserved := 0 }) }
    restore := { s.restore with quiesced := if s.restore.quiesced = 2 then 2 else 1, requested := false } }

/-- A restore fails (R519): all restored content is cleared; the unit stays quiesced. -/
def failRestore (reason : Nat) (s : State) : State :=
  match s.restore.run with
  | none => s
  | some r =>
    let s := prepareRestore s
    raiseCount 0x110A 0x70A206 0 r.epoch reason
      { s with restore := { s.restore with state := 4, reason := reason, run := none } }

/-- A restore starts (R516). -/
def startRestore (s : State) : State :=
  let s := prepareRestore s
  let epoch := s.rwVal 0x801001
  let run : RestoreRun :=
    { source := s.rwVal 0x801002, epoch := epoch, image := 0, next := 0, digests := [], prevEpoch := 0, reread := false }
  let s := wake { s with restore := { s.restore with state := 1, reason := 0, chunksDone := 0, run := some run } }
  if run.source = 1 ∧ ((s.peer (s.rwVal 0x801003)).state = 3 ∨ (s.peer (s.rwVal 0x801003)).state = 4) then failRestore 1 s
  else s

/-- Restore Go (R516, R519, R520): its epoch must be above every one used; a running restore is superseded. -/
def restoreGoEffect (s : State) : State :=
  let epoch := s.rwVal 0x801001
  if s.restore.maxEpoch.any (fun m => decide (epoch ≤ m)) then reject s
  else
    let s := failRestore 11 { s with restore := { s.restore with maxEpoch := some epoch } }
    if s.stepRunning then { s with restore := { s.restore with requested := true } } else startRestore s

/-- A page record's key: its area and index. -/
def recordKey (r : Bytes) : Nat := fieldAt r 0 4 % 2 ^ 28 + if bit (fieldAt r 4 4) 1 then 2 ^ 28 else 0

/-- One record replaces what it names (R518). -/
def applyRecord (kind : Nat) (r : Bytes) (s : State) : State :=
  let slot := fieldAt r 0 2 % 8192
  let s := if kind = 1 then dirtySlot slot s else if kind = 2 then dirtyKeys [recordKey r] s else s
  match kind with
  | 1 =>
    match readSlotForm (r.drop 4) with
    | some c => setContext slot c s
    | none => { s with contexts := { s.contexts with slots := eraseKey s.contexts.slots slot } }
  | 2 =>
    if bit (fieldAt r 4 4) 0 then s
    else
      let base := if bit (fieldAt r 4 4) 1 then s.cfg 0x205004 else s.cfg 0x205001
      writeBytes (base + 4096 * fieldAt r 0 4) (slice r 8 4096) s
  | 3 =>
    match s.context slot with
    | some c => setContext slot { c with automatonState := fieldAt r 4 3 } s
    | none => s
  | 4 =>
    match s.context slot with
    | some c => setContext slot { c with seed := fieldAt r 4 8 } s
    | none => s
  | _ => s

/-- Length of the record at the head of a payload of a kind. -/
def recordLength (kind : Nat) (bs : Bytes) : Nat :=
  match kind with
  | 1 => 260
  | 2 => if bit (fieldAt bs 4 4) 0 then 8 else 4104
  | 3 => 8
  | _ => 12

/-- Applies the records of a payload in order. -/
def applyRecords (kind : Nat) : Nat → Bytes → State → State
  | 0, _, s => s
  | fuel + 1, bs, s =>
    if bs = [] then s
    else
      let n := recordLength kind bs
      applyRecords kind fuel (bs.drop n) (applyRecord kind (bs.take n) s)

/-- A chunk other than the last is applied. -/
def applyChunk (h : ChunkHead) (payload : Bytes) (s : State) : State := applyRecords h.kind 8192 payload s

/-- A page key's address. -/
def State.pageAddr (s : State) (key : Nat) : Nat :=
  (if 2 ^ 28 ≤ key then s.cfg 0x205004 else s.cfg 0x205001) + 4096 * (key % 2 ^ 28)

/-- The node whose first page has a key, read from its pages; its id and its parent's are keys. -/
def State.restoredNode (s : State) (key : Nat) : Node :=
  let a := s.pageAddr key
  let paused := decide (2 ^ 28 ≤ key)
  let k := s.numAt (a + 4) 4
  let pages := wordList s.mem (a + 12) (min (s.numAt (a + 8) 4) 1000)
  let words := ((pages.drop 1).take (ceilDiv k 512)).flatMap fun p =>
    let w := wordList s.mem (s.pageAddr (if paused then p + 2 ^ 28 else p)) 1024
    (List.range 512).map fun i => (w.getD (2 * i) 0, w.getD (2 * i + 1) 0)
  let parent := s.numAt a 4
  { parent := if parent = 0xFFFFFFFF then none else some parent, refs := 0, tokens := words.take k, pages := pages
    paused := paused }

/-- Adds a chain of nodes from a key up. -/
def restoreChain (s : State) : Nat → Nat → List (Nat × Node) → List (Nat × Node)
  | 0, _, ns => ns
  | fuel + 1, key, ns =>
    match lookupKey ns key with
    | some _ => ns
    | none =>
      let n := s.restoredNode key
      let ns := insertKey ns key n
      match n.parent with
      | some p => restoreChain s fuel p ns
      | none => ns

/-- The nodes of every restored slot with their reference counts (R395). -/
def rebuildNodes (s : State) : State :=
  let leaves := s.contexts.slots.map fun e => e.2.leaf
  let ns := leaves.foldl (fun ns k => restoreChain s 64 k ns) []
  let count := fun (k : Nat) => (leaves.filter (· == k)).length + (ns.filter fun e => e.2.parent == some k).length
  { s with contexts := { s.contexts with nodes := ns.map fun e => (e.1, { e.2 with refs := count e.1 }) } }

/-- Counters as an image holds them. -/
def readCounters (bs : Bytes) : Store :=
  (imageObjects.foldl (fun (acc : Store × Nat) o =>
    (if o.1 = 0x700101 then acc.1 else insertKey acc.1 o.1 (fieldAt bs acc.2 (typeSize o.2)), acc.2 + typeSize o.2)) ([], 0)).1

/-- The last image is taken (R518): budgets, counters and Last Step Number take effect; the unit leaves quiesced. -/
def completeRestore (r : RestoreRun) (h : Bytes) (s : State) : State :=
  let s := rebuildNodes s
  let number := fieldAt h 8 8
  let budgets := (List.range 64).map fun t =>
    (t, ({ used := fieldAt h (128 + 16 * t) 8, period := fieldAt h (136 + 16 * t) 8, reserved := 0 } : Budget))
  let s := { s with
    contexts := { s.contexts with budgets := budgets }
    dict := { s.dict with counters := readCounters (h.drop 1152) }
    steps := { s.steps with lastNumber := number, anyNumber := true }
    snapshot := { s.snapshot with forceFull := true }
    restore := { s.restore with
      state := 3, run := none, quiesced := if s.restore.quiesced = 1 then 0 else s.restore.quiesced } }
  broadcastDiscover (raiseCount 0x1109 0x70A205 number r.epoch 0 s)

/-- A stale or repeated chunk. -/
def discardChunk (s : State) : State := count 0x70A207 1 s

/-- A chunk of the restore is taken: the run it leaves, Restore Chunks Done. -/
def chunkDone (r : RestoreRun) (s : State) : State :=
  { s with restore := { s.restore with run := some { r with reread := false }, chunksDone := bump 32 s.restore.chunksDone 1 } }

/-- The last chunk of image `r.image` of `n` fits: the next image follows, or the restore completes. -/
def endImage (r : RestoreRun) (payload : Bytes) (n : Nat) (s : State) : State :=
  let r' := { r with image := r.image + 1, next := 0, digests := [], prevEpoch := fieldAt payload 4 4 }
  if r.image + 1 = n then completeRestore r' payload (chunkDone r' s) else chunkDone r' s

/-- The checks of an image's last chunk (R518, table 17.11). -/
def takeLastChunk (r : RestoreRun) (payload : Bytes) (n : Nat) (s : State) : State :=
  let full := fieldAt payload 2 2 % 2 == 1
  if fieldAt payload 0 1 ≠ 2 ∨ fieldAt payload 1 1 ≠ Config.siliconStep.toNat then failRestore 7 s
  else if s.cfg 0x205002 / 4096 < fieldAt payload 20 4 ∨ s.cfg 0x205005 / 4096 < fieldAt payload 24 4 then failRestore 8 s
  else if slice payload 32 32 ≠ sha256 r.digests then failRestore 5 s
  else if (if r.image = 0 then !full else full || fieldAt payload 16 4 != r.prevEpoch) then failRestore 6 s
  else endImage r payload n s

/-- A chunk whose payload does not fit its digest: read once more where it came from the unit's own reads. -/
def damagedChunk (r : RestoreRun) (s : State) : State :=
  if r.source ≠ 1 ∧ !r.reread then { s with restore := { s.restore with run := some { r with reread := true } } }
  else failRestore 3 s

/-- R518's procedure for one chunk, `e` being the epoch it must carry and `n` the number of images. -/
def takeChunk (r : RestoreRun) (h : ChunkHead) (payload : Bytes) (e n : Nat) (s : State) : State :=
  if h.epoch ≠ e then discardChunk s
  else if h.chunk < r.next then discardChunk s
  else if r.next < h.chunk then failRestore 4 s
  else if sha256 payload ≠ h.digest then damagedChunk r s
  else if h.last ≠ (h.chunk + 1 == h.count) then failRestore 4 s
  else if h.last then takeLastChunk r payload n s
  else chunkDone { r with next := r.next + 1, digests := r.digests ++ h.digest } (applyChunk h payload s)

/-- A STATE_PAGE payload: a receipt, a chunk for the restore from its partner, or a chunk for the hold (R513 to R518). -/
def takeStatePage (src : Nat) (pl : Bytes) (s : State) : State :=
  let h := ChunkHead.read pl
  if !chunkClear pl then stale s
  else if h.bytes = 0 then takeReceipt src h s
  else if s.restore.quiesced ≠ 0 ∧ s.rwVal 0x801002 = 1 ∧ src = s.rwVal 0x801003 then
    match s.restore.run with
    | some r => takeChunk r h (slice pl 64 h.bytes) r.epoch (s.rwVal 0x801005) s
    | none => discardChunk s
  else takeHold src pl s

/-- The restore list's entry for an image: address and epoch. -/
def State.restoreEntry (s : State) (i : Nat) : Nat × Nat :=
  let v := s.rwVal 0x801004 / 2 ^ (128 * i)
  (v % 2 ^ 64, v / 2 ^ 64 % 2 ^ 32)

/-- The chunk read from local flash or the shared store arrives. -/
def restoreRead (r : RestoreRun) (s : State) : State :=
  let (addr, epoch) := s.restoreEntry r.image
  let at_ := addr + chunkStride * r.next
  let h := ChunkHead.read (s.bytesAt at_ 64)
  takeChunk r h (s.bytesAt (at_ + 64) (min h.bytes 65488)) epoch (s.rwVal 0x801005) s

/-- A chunk read arrives: with no restore of that source under way, or on an isolated port, it is discarded (R76, R519). -/
def restoreChunkRead (s : State) : State :=
  match s.restore.run with
  | some r => if s.portsUp ∧ r.source ≠ 1 then restoreRead r s else s
  | none => s

/-- RESTORE_CHUNK_READ (R518). -/
def execRestoreChunkRead (host : List Host.Cell) (s : State) : Host.Outcome State Fault Refusal :=
  .next (restoreChunkRead (hostWrites host s))

/-- RESTORE_CHUNK_TIMEOUT: no chunk for 100 ms fails a restore under way (table 17.11). -/
def execRestoreChunkTimeout (s : State) : Host.Outcome State Fault Refusal := .next (failRestore 9 s)

/-- A peer became Silent or Absent: a snapshot to it fails, a restore from it fails, a send to it ends. -/
def losePeer (p : Nat) (s : State) : State :=
  let s := if s.snapshot.run.any (·.partner == p) then failSnapshot 4 s else s
  let s := if s.restore.run.any (·.source == 1) ∧ s.rwVal 0x801003 = p then failRestore 1 s else s
  if s.rwVal 0x800106 = p then { s with hold := { s.hold with sending := none } } else s

end Sys2Proof.Machine
end

