-- ==== Sys2Proof/Machine/Commit.lean ====
section
/-! DEFINITION. The staged set and its commit (R462 to R467, table 15.10): bond sets (R310 to R312), tenants (R430),
areas (R398), the automaton directory (R409) and Run Mode (R538). -/

namespace Sys2Proof.Machine

/-- The staged value of an RWS object. -/
def State.stagedVal (s : State) (key : Nat) : Nat := Store.get s.dict.staged key

/-- Staged Differs (R467). -/
def State.stagedDiffers (s : State) : Bool := stagedKeys.any fun k => s.stagedVal k != s.cfg k

/-- Some of these objects would change. -/
def State.changes (s : State) (keys : List Nat) : Bool := keys.any fun k => s.stagedVal k != s.cfg k

/-- Applies the staged values of these objects. -/
def applyKeys (keys : List Nat) (s : State) : State :=
  { s with dict := { s.dict with applied := keys.foldl (fun m k => insertKey m k (s.stagedVal k)) s.dict.applied } }

/-- Every staged value becomes equal to its applied value (R465, R466). -/
def restage (s : State) : State := { s with dict := { s.dict with staged := s.dict.applied } }

/-! ### Orders 1 and 2 -/

/-- The bond set's objects. -/
def bondKeys : List Nat := [0x501001, 0x501002, 0x501003, 0x501004, 0x200010]

/-- A peer may hold bricks (R300): generation, caps_version and microprogram_digest of its CAPS. -/
def State.mayHold (s : State) (p : Nat) : Bool :=
  let c := (s.peer p).caps
  fieldAt c 0 1 == 2 && fieldAt c 1 1 == 1 && fieldAt c 8 32 == s.fseq.digest

/-- The first failing check of table 10.5, 0 where all pass. -/
def State.bondReason (s : State) : Nat :=
  let table := s.stagedVal 0x501002
  let v := s.stagedVal 0x501004
  let n := ceilDiv v 4096
  let members := bondMembers table
  let others := members.filter (· != s.address)
  let slots := List.range 256
  if !slots.all (fun b => if b < n then (bondOwner table b).isSome else (bondOwner table b).isNone && (bondReplica table b).isNone) then 1
  else if slots.any (fun b => (bondOwner table b).isSome && bondOwner table b == bondReplica table b) then 2
  else if 256 < members.length ∨ (0 < v ∧ (!members.contains s.address ∨ !members.contains (s.stagedVal 0x501003))) then 3
  else if !others.all (fun m => (s.peer m).state == 2) then 4
  else if !others.all s.mayHold then 5
  else 0

/-- Order 2: the five values together, Bond Digest, BOND_UPDATE to the members (R312). -/
def applyBond (s : State) : State :=
  let s' := applyKeys bondKeys s
  let moved := s.members ≠ s'.members ∨ s.cfg 0x501003 ≠ s'.cfg 0x501003
  let mortar := { s'.mortar with
    bondDigest := s'.digestOfBond
    tree := if moved then none else s'.mortar.tree
    trees := if moved then [] else s'.mortar.trees }
  let s' := { s' with mortar := mortar }
  announceCaps s (sendAll 8 (s'.members.filter (· != s'.address)) (s'.bondUpdate none) s')

/-! ### Orders 3 to 6 -/

/-- Order 3: tenant values; a changed Budget Period clears the tenant's use and period (R430). -/
def applyTenants (s : State) : State :=
  let keys := (List.range 64).flatMap fun t => (List.range 4).map fun i => 0x400001 + 256 * t + i
  (List.range 64).foldl (fun s t =>
    if s.stagedVal (0x400004 + 256 * t) = s.cfg (0x400004 + 256 * t) then s
    else { s with contexts := { s.contexts with
      budgets := insertKey s.contexts.budgets t { s.budget t with used := 0, period := 0 } } }) s |> applyKeys keys

/-- The history and pause area objects. -/
def areaKeys : List Nat := [0x205001, 0x205002, 0x205004, 0x205005]

/-- Order 5: refused while any slot is not Free (R398); whether it was applied in full. -/
def applyAreas (s : State) : State × Bool :=
  if s.changes areaKeys ∧ s.contexts.slots ≠ [] then (raise 0x0D11 (reject s), false) else (applyKeys areaKeys s, true)

/-- Directory entry n of a directory: the image address. -/
def State.directoryEntry (s : State) (base n : Nat) : Nat := s.numAt (base + 16 * (n - 1)) 8

/-- The automaton numbers in use by slots not Free. -/
def State.automataUsed (s : State) : List Nat :=
  firsts ((s.contexts.slots.map fun e => e.2.automaton).filter (· != 0))

/-- The reason a directory change is refused, 0 where it is not (R409). An entry that no commit has read since the reset is
compared as it stands in memory. -/
def State.directoryReason (s : State) : Nat :=
  let base := s.stagedVal 0x206001
  let n := s.stagedVal 0x206002
  let used := s.automataUsed
  let inForce := fun (k : Nat) => (lookupKey s.contexts.directory k).getD (s.directoryEntry (s.cfg 0x206001) k)
  if used.any (fun k => decide (k ≤ n) && inForce k != s.directoryEntry base k) then 1
  else if used.any (fun k => decide (n < k)) then 2
  else 0

/-- The image at a directory entry is usable: entry and header obey their layouts (table 13.10). -/
def State.entryUsable (s : State) (base n : Nat) : Bool :=
  let a := s.directoryEntry base n
  a % 4096 == 0 && s.numAt (base + 16 * (n - 1) + 8) 8 == 0 && autoUsable s.mem a s.vocab

/-- Order 6: the directory, refused or read with every image's header (R409). -/
def applyDirectory (s : State) : State × Bool :=
  let reason := s.directoryReason
  if reason ≠ 0 then
    (raise 0x0D10 { s with contexts := { s.contexts with refuseReason := reason } }, false)
  else
    let s := applyKeys [0x206001, 0x206002] s
    let base := s.cfg 0x206001
    let ns := (List.range (s.cfg 0x206002)).map (· + 1)
    let usable := (ns.map fun k => if s.entryUsable base k then 2 ^ (k - 1) else 0).sum
    ({ s with contexts := { s.contexts with
        directory := ns.map fun k => (k, s.directoryEntry base k), usable := usable, refuseReason := 0 } }, true)

/-! ### Order 7 and the whole -/

/-- The first failing check of table 18.5 at a commit. -/
def State.modeReason (s : State) : Nat :=
  if !s.fseq.heirloom then 1
  else if s.members ≠ [s.address] ∨ s.cfg 0x501003 ≠ s.address then 2
  else if !between 1 s.vocab 262144 then 3
  else 0

/-- Order 7: Run Mode (R538). -/
def applyMode (s : State) : State :=
  let reason := if s.stagedVal 0x200020 = 2 then s.modeReason else 0
  if reason ≠ 0 then refuseMode reason s
  else
    let s := applyKeys [0x200020] s
    { s with upkeep := { s.upkeep with modeReason := 0 } }

/-- Ends a commit: staged set, state, time, event (R465). -/
def endCommit (state : Nat) (s : State) : State :=
  let s := restage s
  let s := { s with dict := { s.dict with commitState := state, commitTime := s.now } }
  if state = 4 then s else raise 0x0F01 s

/-- Bond Refuse Reason. -/
def setBondReason (reason : Nat) (s : State) : State := { s with mortar := { s.mortar with refuseReason := reason } }

/-- Orders 2 to 7 of table 15.10. -/
def applySets (changed : Bool) (s : State) : State :=
  let s := applyTenants (if changed then applyBond s else s)
  let a := applyAreas (applyKeys [0x203001, 0x203002] s)
  let d := applyDirectory a.1
  endCommit (if a.2 && d.2 then 2 else 3) (applyMode d.1)

/-- Handles a pending commit (R463, R465). -/
def handleCommit (s : State) : State :=
  if s.dict.commitState ≠ 1 then s
  else
    let changed := s.changes bondKeys
    let reason := if changed then s.bondReason else 0
    let s := setBondReason reason s
    if reason ≠ 0 then endCommit 4 (raiseArgs 0x0A05 0 reason 0 s) else applySets changed s

/-- Action 5: the fall of Heirloom Available noted during the step (R539), then a pending commit. -/
def actionFive (commits : Bool) (s : State) : State :=
  let s := if s.upkeep.heirloomFell then
      let s := { s with upkeep := { s.upkeep with heirloomFell := false } }
      if s.runMode = 2 then refuseMode 4 s else s
    else s
  if commits then handleCommit s else s

/-- A commit with no step running: actions 4, 5 and 6 (R463). -/
def idleCommit (s : State) : State := startHeldSwaps (actionFive true (loadFinished s))

end Sys2Proof.Machine
end

