-- ==== Sys2Proof/Machine/Starts.lean ====
section
/-! DEFINITION. Starts and the latch (R416 to R418, R96), the wake's end and the idle times (R90 to R95), the chip's
step pulse (R59, R60). -/

namespace Sys2Proof.Machine

/-! ### Starts -/

/-- Step State (table 14.1): a start held for the wake, a step running, or one at its boundary. -/
def State.stepState (s : State) : Nat :=
  match s.steps.run with
  | some r => if r.summaryDone then 3 else 2
  | none => if s.steps.held.isSome then 1 else 0

/-- A start now is one arriving during a running step: a step runs, a start waits for the wake (R96), or tests run (R535). -/
def State.startBusy (s : State) : Bool := s.stepState != 0 || s.upkeep.bistRun.isSome

/-- A start is accepted: the step begins once the unit is Active (R96); `left` is the wake time that was still to run
when the start was detected (R97). -/
def acceptStart (time : Nat) (byGo : Bool) (left : Nat) (s : State) : State :=
  let s := wake s
  { s with steps := { s.steps with held := some (time, byGo, left) } }

/-- The unit refuses every start now: time stamp invalid, quiesced (table 14.2), life cycle (R491), UNIT_PRESENT 0 (R530). -/
def State.refusesStarts (s : State) : Bool :=
  !s.ts.valid || s.restore.quiesced != 0 || !s.runsSteps || !s.portsUp

/-- Latches a start, or drops it where the latch is full (table 14.2). -/
def latchStart (time : Nat) (byGo : Bool) (s : State) : State :=
  if s.steps.latched.isSome then raiseCount 0x0E11 0x709002 0 0 0 (if byGo then reject s else s)
  else { s with steps := { s.steps with latched := some (time, byGo, s.wakeLeft) } }

/-- A start of the source in force (R418). -/
def startArrives (time : Nat) (byGo : Bool) (s : State) : State :=
  if s.refusesStarts then refuseBy byGo s
  else if s.startBusy || s.sensing.thermalHold then latchStart time byGo s
  else acceptStart time byGo (wake s).wakeLeft s

/-- A latched start begins where nothing holds it; a quiesced unit refuses it (R517). -/
def beginLatched (s : State) : State :=
  match s.steps.latched with
  | none => s
  | some (time, byGo, left) =>
    if s.startBusy || s.sensing.thermalHold then s
    else
      let s := { s with steps := { s.steps with latched := none } }
      if s.refusesStarts then refuseBy byGo s else acceptStart time byGo left s

/-- Step Go (R417, R530): a write of it is a cause of waking (R92). -/
def stepGoEffect (s : State) : State :=
  let s := if s.portsUp then wake s else s
  if s.rwVal 0x207002 = 2 then startArrives s.now true s else refuseBy true s

/-- The detection time of an edge: the reading less 1 ns while the lane clock runs, else less 20 ns (R60). -/
def State.edgeTime (s : State) : Nat := s.now - if s.laneRuns then 1 else 20

/-- A detected STEP_SYNC edge (R60, R417). -/
def edgeDetected (time : Nat) (s : State) : State :=
  let at_ := s.edgeTime
  let s := wake { s with boundary := { s.boundary with lastEdge := some time } }
  if s.rwVal 0x207002 = 1 then startArrives at_ false s else refuseStart s

/-- STEP_SYNC_EDGE: a rising edge at a time in ns; one within 40 ns of the last detected is lost (R59); isolated, it is
ignored (R61). -/
def execStepSyncEdge (time : Nat) (s : State) : Host.Outcome State Fault Refusal :=
  .next (if !s.portsUp then s
    else if s.boundary.lastEdge.any (fun t => decide (time < t + 40)) then raiseCount 0x0201 0x700006 0 0 0 s
    else edgeDetected time s)

/-! ### Tests -/

/-- The tests BIST Go runs: test 10 never in FIELD (R534). -/
def State.bistMask (s : State) : Nat :=
  if s.life.record.state = 4 then s.rwVal 0x900001 &&& 0x3F2 else s.rwVal 0x900001

/-- Lane cycles that a test takes on demand at 4.0 GHz (table 18.2); test 10 is the last of a run. -/
def testCycles : Nat → Nat
  | 1 => 80000
  | 4 => 65536
  | 5 => 131072
  | 6 => 16384
  | 7 => 512
  | 8 => 1024
  | 9 => 512
  | _ => 0

/-- Slow cycles that the tests before test 10 take (R535). -/
def cyclesBefore10 (mask : Nat) : Nat := ceilDiv (((List.range 10).filter (bit mask)).map testCycles).sum 40

/-- The selected tests start, in ascending number: test 10 begins behind the others, once no swap runs (R535; log entry
38). -/
def startTests (s : State) : State :=
  beginMarch { s with upkeep := { s.upkeep with
    bistWaiting := false, bistRun := some s.bistMask, bistState := 1
    marchDue := if bit s.bistMask 10 then some (s.slow + cyclesBefore10 s.bistMask) else none } }

/-- Tests that waited for a boundary or the end of a lane reset start. -/
def startWaitingTests (s : State) : State := if s.upkeep.bistWaiting then startTests s else s

/-! ### Waking and idling -/

/-- Steps down to the row of the lower reading (R100, R101). -/
def stepDown (s : State) : State :=
  let r := railRow (min s.sensing.railE s.sensing.railW)
  if r ≤ s.sensing.laneRow ∨ !s.laneRails then s
  else
    let s := raiseCount 0x0301 0x700008 0 0 0 { s with sensing := { s.sensing with laneRow := r } }
    if r = 4 then raise 0x0302 s else s

/-- The wake has ended: Active, or Standby where a lane reset waits for a wake that was under way (R74, R98); the lane
clock runs at the row that the readings held give, once any have been taken (R99; log entry 24). -/
def endWake (s : State) : State :=
  let s := { s with sensing := { s.sensing with
      waking := none, hsOff := false
      power := if s.boundary.phase = .draining ∧ !s.boundary.laneWoke then .standby else .active } }
  if s.sensing.railsRead then stepDown s else s

/-- WAKE_COMPLETE (R91). -/
def execWakeComplete (s : State) : Host.Outcome State Fault Refusal :=
  if s.sensing.waking.isSome then .next (endWake s) else .fault .sensingNotDue

/-- Nothing of R93 is pending: no start, swap, snapshot, restore or transfer; tests on demand keep the unit Active too,
which neither R93 nor R535 says (log entry 66). -/
def State.nothingPending (s : State) : Bool :=
  s.steps.run.isNone && s.steps.held.isNone && s.steps.latched.isNone && s.heads.all (fun h => h.state != 1) &&
    s.snapshot.run.isNone && s.restore.run.isNone && s.contexts.slots.all (fun e => e.2.state != 2 && e.2.state != 4) &&
    s.upkeep.bistRun.isNone && s.sensing.waking.isNone

/-- The lane clock is gated. What is held for stopped lanes goes out, and in Standby nothing is held although the row in force
is still the stopped one (the model's choice, log entry 50). -/
def enterStandby (s : State) : State := sendLate { s with sensing := { s.sensing with power := .standby } }

/-- ACTIVE_IDLE_EXPIRY (R93). -/
def execActiveIdleExpiry (s : State) : Host.Outcome State Fault Refusal :=
  if s.sensing.power = .active ∧ s.portsUp ∧ s.nothingPending then
    .next (enterStandby (slowEdge s))
  else .fault .sensingNotDue

/-- What the unit keeps nowhere in Dormant is lost: the lanes, the sum columns and the automaton cache hold nothing (R89);
without retention the Head Store powers down and every slot is Empty (R90). -/
def loseLanes (s : State) : State :=
  let s := clearLanes s
  if s.rwVal 0x300005 = 1 then s else emptyAllSlots { s with sensing := { s.sensing with hsOff := true } }

/-- Entry to Dormant (R89, R90). -/
def enterDormant (s : State) : State := loseLanes { s with sensing := { s.sensing with power := .dormant } }

/-- STANDBY_IDLE_EXPIRY (R94). -/
def execStandbyIdleExpiry (s : State) : Host.Outcome State Fault Refusal :=
  if s.sensing.power = .standby ∧ s.portsUp ∧ s.nothingPending ∧ s.rwVal 0x300002 = 1 then .next (enterDormant s)
  else .fault .sensingNotDue

end Sys2Proof.Machine
end

