-- ==== Sys2Proof/Machine/Sensing.lean ====
section
/-! DEFINITION. Rails, temperatures, latencies (R99 to R105) and the time-stamp copy (R62, R63). -/

namespace Sys2Proof.Machine

/-! ### Rails -/

/-- Step-up threshold of a row in mV. -/
def stepUp : Nat → Nat
  | 1 => 740
  | 2 => 720
  | 3 => 700
  | _ => 670

/-- Takes the two lane-rail readings. -/
def laneReadings (east west : Nat) (s : State) : State :=
  { s with sensing := { s.sensing with railE := east, railW := west, railsRead := true } }

/-- LANE_RAIL_DROOP. -/
def execLaneRailDroop (east west : Nat) (s : State) : Host.Outcome State Fault Refusal :=
  if s.sensing.power = .off then .fault .sensingNotDue else .next (stepDown (laneReadings east west (slowEdge s)))

/-- Steps up one row (R100); lanes that were stopped go on. -/
def stepUpRow (s : State) : State :=
  let r := s.sensing.laneRow
  if r = 0 ∨ min s.sensing.railE s.sensing.railW < stepUp r ∨ !s.laneRails then s
  else pump (sendLate { s with sensing := { s.sensing with laneRow := r - 1 } })

/-- LANE_RAIL_RECOVERY: the readings that stood for 1,000 slow cycles; one below a step-down threshold steps down as any
does (R100). -/
def execLaneRailRecovery (east west : Nat) (s : State) : Host.Outcome State Fault Refusal :=
  if s.sensing.power = .off then .fault .sensingNotDue
  else .next (stepDown (stepUpRow (laneReadings east west (slowEdge s))))

/-- HS_RAIL_FAULT (R102, R505): outside 0.700 V to 0.800 V a Head Store scrub pass starts, or starts again. -/
def execHsRailFault (mv : Nat) (s : State) : Host.Outcome State Fault Refusal :=
  if s.sensing.power = .off then .fault .sensingNotDue
  else
    let s := { s with sensing := { s.sensing with railHs := mv } }
    .next (if between 700 mv 800 then s
      else raise 0x0303 { s with upkeep := { s.upkeep with hsPass := some (scrubLines 1) } })

/-- AON_RAIL_FAULT (R102). -/
def execAonRailFault (mv : Nat) (s : State) : Host.Outcome State Fault Refusal :=
  if s.sensing.power = .off then .fault .sensingNotDue
  else
    let s := { s with sensing := { s.sensing with railAon := mv } }
    .next (if between 720 mv 780 then s else raise 0x0304 s)

/-! ### Temperatures -/

/-- The highest of the eight latest readings. -/
def State.hottest (s : State) : Int :=
  match s.sensing.temps with
  | [] => 0
  | t :: ts => ts.foldl max t

/-- Thermal Warning and Thermal Hold. -/
def State.warnAt (s : State) : Int := signed32 (s.rwVal 0x300209)
/-- Thermal Hold. -/
def State.holdAt (s : State) : Int := signed32 (s.rwVal 0x30020A)

/-- A number of 32 bits in two's complement. -/
def unsigned32 (i : Int) : Nat := (i % 2 ^ 32).toNat

/-- Keeps Peak Temperature (R476): it stays 0 while every reading is below (the model's choice, log entry 92). -/
def notePeakTemp (t : Int) (s : State) : State :=
  if signed32 (s.counter 0x702006) < t then setCounter 0x702006 (unsigned32 t) s else s

/-- Acts on the highest reading (R104). -/
def actOnHeat (s : State) : State :=
  let t := s.hottest
  let warned := decide (s.warnAt ≤ t)
  let s := if warned && !s.sensing.warned then raise 0x0305 s else s
  let held := s.sensing.thermalHold && decide (s.holdAt - 5000 < t)
  let s := { s with sensing := { s.sensing with
    warned := warned, thermalCap := decide (s.holdAt ≤ t), thermalHold := held } }
  beginLatched s

/-- The point is the next of the rotation of R103. -/
def State.pointDue (s : State) (point : Nat) : Bool :=
  s.sensing.power != .off && decide (point < 8) && s.sensing.nextPoint.all (· == point)

/-- A point's reading is taken; the point after it is the next. -/
def takeTemperature (point : Nat) (milli : Int) (s : State) : State :=
  { s with sensing := { s.sensing with temps := s.sensing.temps.set point milli, nextPoint := some ((point + 1) % 8) } }

/-- TEMPERATURE_READING: one point of R103 in millidegrees. -/
def execTemperatureReading (point : Nat) (milli : Int) (s : State) : Host.Outcome State Fault Refusal :=
  if s.pointDue point then .next (actOnHeat (notePeakTemp milli (takeTemperature point milli (slowEdge s))))
  else .fault .sensingNotDue

/-- At a step boundary the next start is held (R104). -/
def holdForHeat (s : State) : State :=
  if s.holdAt ≤ s.hottest then raise 0x0306 { s with sensing := { s.sensing with thermalHold := true } } else s

/-! ### Latencies -/

/-- TIER_LATENCY_WINDOW (R105): the means of the window that ends. -/
def execTierLatencyWindow (tierA tierB : Nat) (s : State) : Host.Outcome State Fault Refusal :=
  if s.sensing.power = .off then .fault .sensingNotDue
  else .next { s with sensing := { s.sensing with tierA := min tierA (2 ^ 32 - 1), tierB := min tierB (2 ^ 32 - 1) } }

/-! ### Time stamp -/

/-- The copy meets TS_VALUE at 10 ns resolution (R62, R63). -/
def tsLoad (value : Nat) (s : State) : State :=
  let v := value / 10 * 10
  if !s.ts.valid then
    { s with ts := { s.ts with valid := true, value := v, hold := 0 }, boundary := { s.boundary with tsReq := false } }
  else if s.ts.value = v then { s with ts := { s.ts with hold := 0 } }
  else if s.ts.value < v then raiseCount 0x0202 0x700007 0 0 0 { s with ts := { s.ts with value := v, hold := 0 } }
  else raiseCount 0x0202 0x700007 0 0 0 { s with ts := { s.ts with hold := s.ts.value - v } }

/-- TS_LOAD, sampled on a slow edge: ignored while isolated (table 2.6). -/
def execTsLoad (value : Word64) (s : State) : Host.Outcome State Fault Refusal :=
  .next (if s.managementUp then tsLoad value.toNat (slowEdge s) else s)

end Sys2Proof.Machine
end

