-- ==== Sys2Proof/Machine/Boundary.lean ====
section
/-! DEFINITION. The step boundary: actions 1 to 7 of table 1.6 (R40). -/

namespace Sys2Proof.Machine

/-- Action 1: the completion event and Last Step Status (R442). -/
def completeStep (r : StepRun) (s : State) : State :=
  raiseArgs 0x0E10 r.head.number (if r.record = s.address then r.finals.length else 0) r.stepStatus
    { s with steps := { s.steps with lastStatus := r.stepStatus } }

/-- A row's tokens enter its slot's history; the slot notes the step (R331, R350). -/
def appendRow (number : Nat) (slot : Nat) (tokens : List Nat) (s : State) : State :=
  let s := tokens.foldl (fun s t => appendToken slot t s) s
  match s.context slot with
  | some c => if tokens = [] then s else setContext slot { c with lastStep := number } s
  | none => s

/-- Charges tokens to a tenant (R430). -/
def charge (tenant n : Nat) (s : State) : State :=
  let b := s.budget tenant
  count 0x709008 n { s with contexts := { s.contexts with
    budgets := insertKey s.contexts.budgets tenant { b with used := min (b.used + n) (2 ^ 64 - 1) } } }

/-- What rows reserved returns: pages, provisional pages, budget (R401, R402, R430). -/
def releaseReserved (s : State) : State :=
  { s with contexts := { s.contexts with
      reservedPages := 0
      slots := s.contexts.slots.map fun e => (e.1, { e.2 with provisional := 0 })
      budgets := s.contexts.budgets.map fun e => (e.1, { e.2 with reserved := 0 }) } }

/-- Action 2: rows' tokens are appended and charged, buds promoted (R350, R351, R430). -/
def resolveRows (r : StepRun) (s : State) : State :=
  r.finals.foldl (fun s f =>
    match r.rows[f.index]? with
    | none => s
    | some x =>
      let s := if x.desc.noContext then s else appendRow r.head.number x.desc.slot f.appended s
      let s := if f.appended = [] then s else charge x.desc.tenant f.appended.length s
      if f.accepted then count 0x706002 1 s else s) (releaseReserved s)

/-- Action 4: Finished slots are loaded, slots with an uncorrectable word fail. -/
def actionFour (s : State) : State := loadFinished (failSlots s)

/-- What else action 7 brings: reload, heat, tree, capture, restore, tests (R104, R320, R504, R511, R516, R535). -/
def settle (s : State) : State :=
  let s := if s.fseq.reload then reloadMicro s else s
  let s := reorderTree (holdForHeat s)
  let s := if s.captureDue then capture s else s
  let s := if s.restore.requested then startRestore s else s
  startWaitingTests s

/-- Action 7: the step has ended, the next start is accepted. -/
def actionSeven (s : State) : State :=
  let s := clearColumns (loadFinished s)
  beginLatched (settle { s with steps := { s.steps with run := none, sinceCapture := s.steps.sinceCapture + 1 } })

/-- Actions 1 to 7 (R40), each whole, in their order. -/
def runBoundary (r : StepRun) (s : State) : State :=
  actionSeven (startHeldSwaps (actionFive true (actionFour (applyCancels (resolveRows r (completeStep r s))))))

/-- The step's writes are all acknowledged (R51). -/
def State.boundaryDue (s : State) : Bool := s.working && s.steps.run.any (·.summaryDone)

/-- The boundary of the step that runs. -/
def boundaryNow (s : State) : State :=
  match s.steps.run with
  | some r => runBoundary r s
  | none => s

/-- STEP_BOUNDARY, on the first slow edge after the last acknowledgement (R51); its reads are of the context table and the
automaton cache. -/
def execStepBoundary (host : List Host.Cell) (s : State) (ecc : List EccHit := []) : Host.Outcome State Fault Refusal :=
  if s.boundaryDue then .next (boundaryNow (readHits ecc (hostWrites host (slowEdge s)))) else .fault .stepNotDue

end Sys2Proof.Machine
end

