-- ==== Sys2Proof/Machine/LaneReset.lean ====
section
/-! DEFINITION. The lane reset (R66 to R70, R74, R83, R545). -/

namespace Sys2Proof.Machine

/-- A lane reset has reach: no deeper reset or bring-up is under way, the unit is powered and not disabled (R67). -/
def State.laneResettable (s : State) : Bool :=
  s.managementUp && match s.boundary.phase with
    | .idle => true
    | .draining => true
    | .laneState => true
    | _ => false

/-- Any reset closes every transfer, ends the challenge and the key held for MAKER, and clears Image Buffer (R205, R456,
R481, R484). -/
def closeForReset (s : State) : State :=
  { s with
    dict := { s.dict with transfers := [] }
    life := { s.life with challenge := none, ownerBuffer := none }
    fseq := { s.fseq with buffer := .zeros } }

/-- A reset during an install leaves an image that fails its CRC (R204); which value of table 6.12 Install State then
reads is not stated. -/
def breakInstall (s : State) : State :=
  if s.fseq.installing.isNone then s
  else
    let (v, s) := free16 s
    { s with nvm := { s.nvm with image := .zeros }, fseq := { s.fseq with installing := none, installState := v % 5 } }

/-- Loading swaps are abandoned (table 5.7). -/
def dropLoading (s : State) : State :=
  beginMarch ((List.range 4).foldl (fun s i => if (s.head i).state = 1 then emptySlot i s else s) s)

/-- The link forgets what was under way: UNIT_PRESENT falls, so every peer ends its sends, and counts no CAPS when it
rises again (R298, R305, log entry 12). -/
def dropLink (s : State) : State :=
  { s with mortar :=
    { s.mortar with
      late := []
      peers := s.mortar.peers.map fun e =>
        (e.1, { e.2 with capsTaken := false, rxNext := none, rxHeld := [], unacked := [], waiting := [] }) } }

/-- The running step is abandoned before action 1 (R69). -/
def abandonStep (s : State) : State :=
  if s.steps.run.isNone then s
  else clearLanes { s with steps := { s.steps with run := none }, boundary := { s.boundary with abandoned := true } }

/-- The power state a lane reset returns to (table 2.3); one that finds a wake under way runs in Standby (R98). -/
def State.laneBack (s : State) : Power :=
  if s.sensing.waking.isSome || s.sensing.power == .active then .standby else s.sensing.power

/-- Notes, at the first lane reset of a run, where it returns to and that it wakes the unit (R74, R92). -/
def noteReturn (s : State) : State :=
  if s.boundary.phase = .idle then
    { s with boundary := { s.boundary with
        laneReturn := s.laneBack, laneWoke := s.sensing.waking.isNone && s.sensing.power != .active } }
  else s

/-- A lane reset begins, on the slow edge that accepts it: UNIT_PRESENT falls, the step is abandoned, the sequencers stop
(R66, R545); it starts the lane clock where that does not run (R74). -/
def startLaneReset (s : State) : State :=
  let s := abandonStep (wake (noteReturn (slowEdge s)))
  let s := { s with boundary := { s.boundary with unitPresent := false, phase := .draining } }
  let s := failRestore 10 (failSnapshot 5 (clearStarts s))
  let s := clearLanes (breakInstall (dropLink (dropLoading (abandonCopies (closeForReset s)))))
  { s with
    steps := { s.steps with anyNumber := true }
    snapshot := { s.snapshot with forceFull := true }
    hold := { s.hold with receiving := none, sending := none }
    upkeep := { s.upkeep with westFenced := false } }

/-- A lane reset from a pin or an object: without reach it is absorbed (R67). -/
def laneReset (s : State) : State := if s.laneResettable then startLaneReset s else s

/-- LANE_RST_N. -/
def execLaneRstN (s : State) : Host.Outcome State Fault Refusal := .next (laneReset s)

/-- A write of Lane Reset (R72, R73): where it has no reach it is ignored. -/
def laneResetEffect (s : State) : State := if s.laneResettable then startLaneReset s else reject s

/-- The lane-domain state reset begins. -/
def beginLaneState (s : State) : State := { s with boundary := { s.boundary with phase := .laneState } }

/-- LANE_RESET_DRAIN_END, on a slow edge (R545): a wake under way ends first (R98). -/
def execLaneResetDrainEnd (s : State) : Host.Outcome State Fault Refusal :=
  if s.boundary.phase = .draining ∧ s.sensing.waking = none then .next (beginLaneState (slowEdge s)) else .fault .resetNotDue

/-- NETWORK_DRAIN_TIMEOUT, on a slow edge (R83, R545). -/
def execNetworkDrainTimeout (s : State) : Host.Outcome State Fault Refusal :=
  if s.boundary.phase = .draining ∧ s.sensing.waking = none then
    .next (beginLaneState (raiseCount 0x0203 0x70000D 0 0 0 (slowEdge s)))
  else .fault .resetNotDue

/-- UNIT_PRESENT rises: ports connected, DISCOVER sent (R80, R298); a disabled unit stays isolated (R77). -/
def risePresent (s : State) : State :=
  broadcastDiscover { s with boundary := { s.boundary with unitPresent := !s.boundary.unitDisable, phase := .idle } }

/-- The unit goes back to the power state of table 2.3, once every operation of R92 has ended (R95). -/
def returnDown (s : State) : State :=
  if s.sensing.power ≠ .active ∨ !s.nothingPending then s
  else if s.boundary.laneReturn = .dormant then enterDormant s else enterStandby s

/-- Actions 2 to 6 of a boundary at the end of a lane reset (R70). What records write reaches the memory once the ports
are connected (R45): here it is as it was. -/
def laneActions (s : State) : State :=
  startHeldSwaps (actionFive true (actionFour { applyCancels (releaseReserved s) with mem := s.mem }))

/-- The end of a lane reset (R70): actions 2 to 6, then UNIT_PRESENT, LANE_RESET_DONE. An abandoned step's buds are
rejected, nothing of it is appended or charged. What records write reaches the memory once the ports are connected
(R45), and so do the ends of abandoned copies. -/
def endLaneReset (s : State) : State :=
  let written := (applyCancels (releaseReserved s)).mem
  let s := laneActions s
  let s := if s.fseq.reload then reloadMicro s else s
  let s := risePresent { s with boundary := { s.boundary with abandoned := false, laneWoke := false } }
  let s := raise 0x0204 (settleCopies { s with mem := written })
  let s := if s.restore.requested then startRestore s else s
  returnDown (startWaitingTests s)

/-- LANE_STATE_RESET_END. -/
def execLaneStateResetEnd (host : List Host.Cell) (s : State) : Host.Outcome State Fault Refusal :=
  if s.boundary.phase = .laneState then .next (endLaneReset (hostWrites host (slowEdge s))) else .fault .resetNotDue

end Sys2Proof.Machine
end

