-- ==== Sys2Proof/Machine/Admission.lean ====
section
/-! DEFINITION. A step's begin (R419 to R423, R428) and admission (R334 to R340, R358 to R362, R365, R401 to R403,
R431 to R433, R541, R546, table 14.6). -/

namespace Sys2Proof.Machine

/-! ### The begin -/

/-- The pass groups of a header: consecutive runs of descriptors (R421). -/
def groupsOf : Nat → List Nat → List GroupRun
  | _, [] => []
  | start, n :: ns =>
    { start := start, count := n, intake := false, filled := 0, tiles := 0, firstPass := 0, drained := [], criticDone := false, inbox := []
      sent := [], residual := none, faults := [], ended := [], missed := [], secondPass := false, written := false, acknowledged := false } ::
      groupsOf (start + n) ns

/-- A row's lists as memory holds them (R217, R218), and whether they obey R220; a block out of its ranges is not followed. -/
def State.readLists (s : State) (p : ScoreParams) : RowLists × Bool :=
  if !p.valid then ({ bias := [], allowed := [], banned := [] }, true)
  else
    let biasAt := fun k => fieldAt (s.bytesAt (p.biasAddr + 8 * k) 8)
    let biasTok := (List.range p.biasCount).map fun k => biasAt k 0 4
    let allowed := wordList s.mem p.allowedAddr p.allowedCount
    let banned := wordList s.mem p.bannedAddr p.bannedCount
    ({ bias := (List.range p.biasCount).map fun k => (biasAt k 0 4 % 2 ^ 20, BitVec.ofNat 32 (biasAt k 4 4))
       allowed := allowed.map (· % 2 ^ 20), banned := banned.map (· % 2 ^ 20) },
      listsValid s.vocab [biasTok, allowed, banned])

/-- The blocks and lists a row names, as they stand at step start (R214, R219, R364). -/
def State.readBlocks (s : State) (d : RowDesc) : RowBlocks :=
  let p := ScoreParams.parse (s.bytesAt d.scoreBlock 128)
  let lists := s.readLists p
  { score := p, learn := LearnParams.parse (if d.learning then s.bytesAt d.learnBlock 64 else [])
    lists := lists.1, listsValid := lists.2
    bitmask := if p.useBitmask then s.course.map fun b => (b, s.bytesAt (p.bitmaskAddr + 512 * b) 512) else [] }

/-- A row not yet admitted, from its descriptor's bytes. -/
def RowRun.of (s : State) (bs : Bytes) : RowRun :=
  let d := RowDesc.parse bs
  { desc := d, reserved := descriptorReserved bs, held := s.readBlocks d, refusal := 0, status := 0, main := Operand.none, second := Operand.none
    criticOp := Operand.none, critic := 0, automatonState := noState, full := false }

/-- Descriptor i's bytes (R420). -/
def State.descriptor (s : State) (manifest i : Nat) : Bytes := s.bytesAt (manifest + 256 + 64 * i) 64

/-- step_number obeys R422. -/
def State.numberValid (s : State) (n : Nat) : Bool := s.steps.anyNumber || n == (s.steps.lastNumber + 1) % 2 ^ 64

/-- Places the step in each tenant's budget period (R428). -/
def placeBudgets (time : Nat) (s : State) : State :=
  (List.range 64).foldl (fun s t =>
    let k := time / s.cfg (0x400004 + 256 * t)
    let b := s.budget t
    if k = b.period then s
    else { s with contexts := { s.contexts with
      budgets := insertKey s.contexts.budgets t { b with used := 0, period := k } } }) s

/-- The running step as its begin makes it. -/
def State.newRun (s : State) (time : Nat) (byGo : Bool) (wake : Nat) : StepRun :=
  let m := s.rwVal 0x207001
  let bs := s.bytesAt m 256
  let h := StepHead.parse bs
  let ok := headerValid bs
  let rows := if ok then (List.range h.rowCount).map fun i => RowRun.of s (s.descriptor m i) else []
  { admitted := false, manifest := m, begun := time, byGo := byGo, wake := wake, mode := s.runMode
    riderFraction := s.rwVal 0x204001, head := h, readErrors := []
    rows := rows
    blocks := ((firsts (rows.flatMap fun x => x.desc.slots)).filter fun k => (s.head k).state == 4).map fun k =>
      (k, paramBlock s.mem (s.layout k))
    groups := if ok then groupsOf 0 h.groups else []
    finals := [], estimate := 0, admittedTime := 0, record := s.cfg 0x501003, takeover := false, split := false
    stepStatus := 0, bloomsReady := 0, laneCycles := 0, endTime := 0, endCycles := 0, summaryDone := false, spill := 0
    places := [], lost := [], heard := [], quiet := 0, rerun := false }

/-- A step begins (R419). -/
def beginStep (time : Nat) (byGo : Bool) (wake : Nat) (s : State) : State :=
  let run := s.newRun time byGo wake
  let s := { s with steps := { s.steps with run := some run, held := none } }
  if run.rows ≠ [] ∧ s.numberValid run.head.number then takeTree run.head.number s else s

/-- A held start can begin: the unit is Active and the lane clock runs. -/
def State.beginDue (s : State) : Bool :=
  s.working && s.sensing.waking.isNone && s.steps.run.isNone && s.upkeep.bistRun.isNone && s.restore.quiesced == 0

/-- STEP_BEGIN. -/
def execStepBegin (host : List Host.Cell) (s : State) : Host.Outcome State Fault Refusal :=
  match s.steps.held with
  | some (time, byGo, wake) =>
    if s.beginDue then .next (beginStep time byGo wake (hostWrites host s)) else .fault .stepNotDue
  | none => .fault .stepNotDue

/-! ### The manifest's verdict (R422, table 14.11) -/

/-- The step status of a refused manifest, 0 where it is accepted. -/
def State.manifestStatus (s : State) (r : StepRun) : Nat :=
  if r.readErrors.contains .manifest then 0x0E22
  else if r.rows = [] ∨ (r.head.alternatives = 0 ∧ r.rows.any fun x => decide (0 < x.desc.alternatives)) then 0x0E20
  else if !s.numberValid r.head.number then 0x0E21
  else 0

/-- A refused manifest: the event, Last Step Status, a lane reset (R422). -/
def refuseManifest (r : StepRun) (status : Nat) (s : State) : State :=
  laneReset (raiseCount 0x0E13 0x709004 (if status = 0x0E22 then 0 else r.head.number) 0 status
    { s with steps := { s.steps with lastStatus := status } })

/-! ### Checks of one row -/

/-- A row as admission meets it. -/
structure Cand where
  index : Nat
  group : Nat
  reserved : Bool
  d : RowDesc
  held : RowBlocks
deriving DecidableEq, Repr

/-- What admission has settled so far. -/
structure Adm where
  /-- outcomes: descriptor index, refusal reason -/
  done : List (Nat × Nat)
  /-- admitted rows in order -/
  admitted : List Cand
  operands : List (Nat × Nat)
  quotas : List (Nat × Nat)
  buffers : List (Nat × Nat)
  /-- reason a group's later rows take (R141, R266) -/
  cuts : List (Nat × Nat)
  riders : Nat
  pages : Nat
  needs : List (Nat × Nat)
  late : Bool
  /-- chains refused, whatever their rows hold (table 11.6) -/
  chainsRefused : Nat
deriving DecidableEq, Repr

/-- Nothing settled. -/
def Adm.start : Adm :=
  { done := [], admitted := [], operands := [], quotas := [], buffers := [], cuts := [], riders := 0, pages := 0, needs := []
    late := false, chainsRefused := 0 }

/-- The number kept for a key. -/
def valueAt (m : List (Nat × Nat)) (k : Nat) : Nat := (lookupKey m k).getD 0

/-- The code of the first check that fails. -/
def firstFailing (checks : List (Bool × Nat)) : Nat :=
  match checks.find? (·.1) with
  | some c => c.2
  | none => 0

/-- The slot a row names is Open and its tenant's. -/
def State.openMine (s : State) (d : RowDesc) : Bool :=
  !d.noContext && (s.contextOf d.tenant d.slot).any fun c => c.state == 1

/-- The length of the context a row names. -/
def State.rowLength (s : State) (d : RowDesc) : Nat := s.lengthSeen d.tenant d.slot

/-- A context slot an admitted sampling row or chain holds (R335). -/
def Adm.holds (a : Adm) (slot : Nat) : Bool := a.admitted.any fun c => c.d.kind != 3 && c.d.slot == slot

/-- The scoring source of a row (R158, R193). -/
def RowDesc.source (d : RowDesc) : Option (Nat × Option Nat × Option Nat) :=
  if d.external then none else some (d.primary, d.second, d.critic)

/-- The step holds a sampling or verification row (R360). -/
def StepRun.rollout (r : StepRun) : Bool := r.rows.any fun x => x.desc.kind == 1 || x.desc.kind == 2

/-- The chain breaks R334. -/
def State.chainMalformed (s : State) (cs : List Cand) : Bool :=
  match cs with
  | [] => true
  | f :: _ =>
    let n := f.d.chainLength
    let p := s.rowLength f.d
    !between 1 n 16 || cs.length != n + 1 ||
    (cs.zip (List.range cs.length)).any (fun (c, k) =>
      c.d.chainLength != n || c.d.chainIndex != k || c.d.slot != f.d.slot || c.d.tenant != f.d.tenant || c.d.kl ||
      c.d.external || c.d.second.isNone ||
      (if k < n then decide (s.vocab ≤ c.d.token) || c.d.hidden2 == 0 else c.d.token != 0xFFFFF || c.d.hidden2 != 0)) ||
    (s.openMine f.d && (decide (1048575 < p + n) ||
      (cs.zip (List.range cs.length)).any fun (c, k) => c.d.position != p + k))

/-- |A| is finite and at most 2^100. -/
def weightOk (a : F32) : Bool := f32IsFinite a && f32Le (BitVec.ofNat 32 (a.toNat % 2 ^ 31)) 0x71800000

/-- The teacher-forced row breaks R358. -/
def State.teacherInvalid (s : State) (d : RowDesc) : Bool :=
  decide (s.vocab ≤ d.token) || (s.openMine d && decide (s.rowLength d < d.position)) || !weightOk d.weight ||
  (d.rider && (!f32Eq d.weight 0 || d.learnIndex != 0))

/-- Orders 1 to 3. -/
def State.checkForm (s : State) (r : StepRun) (c : Cand) : Nat :=
  let d := c.d
  firstFailing
    [(c.reserved, 0x0E01), (d.invalid, 0x0E02),
     (s.cfg (0x400001 + 256 * d.tenant) == 0, 0x0E03), (s.vocab == 0, 0x0A06),
     (d.kind == 2 && r.heirloom, 0x0B03), (d.kind == 3 && r.heirloom, 0x0C05), (d.learning && r.rollout, 0x0C03),
     (d.learning && s.cfg (0x400002 + 256 * d.tenant) % 2 == 0, 0x0C02)]

/-- The reason of a chain that fails a check of order 4: orders 1 to 3 of all its rows come before it (R431). -/
def State.chainReason (s : State) (r : StepRun) (unit : List Cand) (why : Nat) : Nat :=
  firstFailing (unit.map (fun c => (s.checkForm r c != 0, s.checkForm r c)) ++ [(true, why)])

/-- Orders 1 to 4. -/
def State.checkDescriptor (s : State) (r : StepRun) (a : Adm) (unit : List Cand) (c : Cand) : Nat :=
  let d := c.d
  let leads := d.kind == 2 && unit.head? == some c
  firstFailing
    [(s.checkForm r c != 0, s.checkForm r c), (leads && s.chainMalformed unit, s.chainReason r unit 0x0B01),
     (leads && a.holds d.slot, s.chainReason r unit 0x0B02), (d.kind == 3 && s.teacherInvalid d, 0x0C01)]

/-- Order 5 (table 13.7). -/
def State.checkContext (s : State) (a : Adm) (unit : List Cand) (c : Cand) : Nat :=
  let d := c.d
  if d.noContext then 0
  else match s.contextOf d.tenant d.slot with
    | none => 0x0D02
    | some x =>
      let appends := if d.kind = 1 then 1 else if d.kind = 2 then unit.length else 0
      let leaves := (s.appendNeed x (List.replicate appends 0)).2
      firstFailing
        [(x.state != 1, 0x0D03), (d.kind == 1 && a.holds d.slot, 0x0D0C), (d.kind == 1 && d.position != s.lengthOf x, 0x0D0D),
         (d.kind == 1 && decide (1048576 ≤ s.lengthOf x), 0x0D07), (decide (64 < (s.chain x).length + leaves), 0x0D08)]

/-- A slot's list holds every brick of the course (R159). -/
def State.holdsCourse (s : State) (i : Nat) : Bool := s.course.all fun b => bit (s.layout i).bricks b && (s.layout i).kind == 1

/-- The slots a row's course is scored under (R159, R338, R540). -/
def State.courseMismatch (s : State) (r : StepRun) (d : RowDesc) : Bool :=
  if d.external then false
  else
    let p := s.layout d.primary
    !s.holdsCourse d.primary || (r.heirloom && p.format == 2) ||
    (r.pairs d && d.second.any fun k =>
      !s.holdsCourse k || (s.layout k).width != p.width || (d.kind == 2 && (s.layout k).format != p.format))

/-- The critic slot is unusable for the row (R194). -/
def State.criticUnusable (s : State) (r : StepRun) (d : RowDesc) : Bool :=
  match d.critic with
  | none => false
  | some k =>
    let l := s.layout k
    let v := CriticVector.of l (r.block k)
    d.external || l.kind != 2 || l.width != (s.layout d.primary).width || !between 1 v.inner 4096 || !v.reservedClear ||
      !(between 5 v.activation 9 || (between 16 v.activation 63 && s.fseq.info v.activation % 256 != 0 &&
          s.fseq.info v.activation / 256 % 256 == 1))

/-- The parameter block of a slot differs from the one recorded (R171). -/
def State.paramChanged (s : State) (r : StepRun) (i : Nat) : Bool :=
  !r.readErrors.contains (.headParams i) && (crc32 (r.block i)).toNat != (s.head i).paramCrc

/-- A read of a block the row names ended in an error response (R546). -/
def StepRun.blockError (r : StepRun) (d : RowDesc) : Bool :=
  d.slots.any (fun k => r.readErrors.contains (.headParams k)) || r.readErrors.contains (.scoreParams d.scoreBlock) ||
  (d.learning && r.readErrors.contains (.learnParams d.learnBlock))

/-- The group's source, set by its first admitted row (R158). -/
def Adm.source (a : Adm) (unit : List Cand) (c : Cand) : Option (Nat × Option Nat × Option Nat) :=
  match a.admitted.find? (·.group == c.group) with
  | some f => f.d.source
  | none => (unit.head?.getD c).d.source

/-- Order 6. -/
def State.checkHeads (s : State) (r : StepRun) (a : Adm) (unit : List Cand) (c : Cand) : Nat :=
  let d := c.d
  firstFailing
    [(d.slots.any fun k => (lookupKey r.blocks k).isNone, 0x0E04), (d.slots.any (s.paramChanged r), 0x0505), (r.blockError d, 0x0E07),
     (s.courseMismatch r d, 0x0504), (s.criticUnusable r d, 0x0605), (d.external && d.hidden % 4096 != 0, 0x0507),
     (d.source != a.source unit c, 0x0503)]

/-- Order 7 (R215, R365). -/
def State.checkParams (s : State) (c : Cand) : Nat :=
  let d := c.d
  let p := c.held.score
  let noAutomaton := ((s.contextOf d.tenant d.slot).bind fun x => s.automaton x.automaton).isNone
  firstFailing
    [(d.scoreBlock % 64 != 0 || !p.valid || (p.useAutomaton && (d.noContext || noAutomaton)), 0x0701),
     (d.learning && !c.held.learn.valid d s.brickCount (s.layout d.primary), 0x0C06)]

/-- A row or chain's petal-store needs are added to its group's; the group is cut where they do not fit (R141, R266). The row buffers
are sized for the widest hidden format of the rows already in the group (DESIGN CHOICE, log entry 76). -/
def State.checkStore (s : State) (r : StepRun) (a : Adm) (c : Cand) : Nat × Adm :=
  match lookupKey a.cuts c.group with
  | some why => (why, a)
  | none =>
    let (ops, buf) := s.operandBytes r c.d
    let area := valueAt a.operands c.group + ops
    let quota := valueAt a.quotas c.group + c.held.score.listLength
    let buffer := max (valueAt a.buffers c.group) buf
    if 2 ^ 24 < area then (0x0506, { a with cuts := insertKey a.cuts c.group 0x0506 })
    else if 2 ^ 25 < 16 * quota + area + r.paramRegion + buffer then (0x0801, { a with cuts := insertKey a.cuts c.group 0x0801 })
    else (0, { a with
      operands := insertKey a.operands c.group area, quotas := insertKey a.quotas c.group quota
      buffers := insertKey a.buffers c.group buffer })

/-- Orders 1 to 8 but for history space, row by row; the first failing row gives the reason (R337). -/
def State.checkRows (s : State) (r : StepRun) (unit : List Cand) : List Cand → Adm → Nat × Adm
  | [], a => (0, a)
  | c :: cs, a =>
    let why := firstFailing ([s.checkDescriptor r a unit c, s.checkContext a unit c, s.checkHeads r a unit c, s.checkParams c].map
      fun x => (x != 0, x))
    if why ≠ 0 then (why, a)
    else
      let (why, a) := s.checkStore r a c
      if why ≠ 0 then (why, a) else s.checkRows r unit cs a

/-- Budget tokens and pages a row or chain needs (R401, R429). -/
def RowDesc.need (d : RowDesc) : Nat × Nat :=
  if d.kind = 1 then (1, 4) else if d.kind = 2 then (d.chainLength + 1, 7) else (0, 0)

/-- The last of orders 8 and 9: history space, riders, budget (R361, R401, R429). -/
def State.checkQuotas (s : State) (r : StepRun) (a : Adm) (d : RowDesc) : Nat :=
  let (need, pages) := d.need
  let b := s.budget d.tenant
  let budget := s.cfg (0x400003 + 256 * d.tenant)
  firstFailing
    [(decide (s.historyFree < a.pages + pages), 0x0D09),
     (d.rider && r.rollout && decide (r.riderFraction * r.rows.length / 1024 < a.riders + 1), 0x0C04),
     (budget != 2 ^ 64 - 1 && decide (budget < b.used + valueAt a.needs d.tenant + need), 0x0E05)]

/-! ### The step time estimate (R432) -/

/-- t_brick of a group's rows: R30, R165, or the two Heirloom passes of R541, for `b` rows. -/
def State.brickTime (s : State) (r : StepRun) (cs : List Cand) (b : Nat) : Nat :=
  match cs with
  | [] => 0
  | c :: _ =>
    if c.d.external then ceilDiv (4096 * (cs.map fun c => formatWidth c.d.format).sum) 32
    else if r.heirloom then 2 * ((s.layout c.d.primary).tiles * max (16 * b) 256)
    else (s.layout c.d.primary).tiles * max (8 * b) 256

/-- List and bitmask bytes a row reads (R219). -/
def State.listBytes (s : State) (c : Cand) : Nat :=
  let p := c.held.score
  8 * p.biasCount + 4 * p.bannedCount + 4 * p.allowedCount + if p.useBitmask then 512 * s.course.length else 0

/-- T₂ of a group (R381), 0 where no row emits. -/
def State.secondTime (s : State) (r : StepRun) (cs : List Cand) : Nat :=
  let cs := cs.filter fun c => c.d.learning && c.held.learn.emits
  let emits := cs.map fun c => (c.d, c.held.learn)
  match emits with
  | [] => 0
  | (d0, _) :: _ =>
    let b := cs.length
    let d := if d0.external then 0 else (s.layout d0.primary).width
    let x := ceilDiv ((emits.map fun e =>
      (if e.2.emitDlogit then 4100 else 0) + if e.2.emitDh then d * e.2.dhWidth else 0).sum) 32
    s.course.length * max (2 * s.brickTime r cs b + 6 * b) x +
      ceilDiv (countIf (fun (e : RowDesc × LearnParams) => e.2.emitOperand) emits * (2 * d + 4)) 32

/-- The time of a critic's two bricks, in the critic's weight format (R195); 0 where the group has none. -/
def State.criticTime (s : State) (r : StepRun) (cs : List Cand) : Nat :=
  match cs.findSome? (fun c => r.criticSlot c.d) with
  | some k => 2 * ((s.layout k).tiles * max (8 * cs.length) 256)
  | none => 0

/-- G_g. -/
def State.groupTime (s : State) (r : StepRun) (cs : List Cand) : Nat :=
  let n := s.course.length
  let b := cs.length
  let pairs := if cs.any (fun c => r.pairs c.d) then 1 else 0
  let chains := countIf (fun (c : Cand) => c.d.kind == 2 && c.d.chainIndex == 0) cs
  n * (1 + pairs) * s.brickTime r cs b + s.criticTime r cs + 6 * b + ceilDiv ((cs.map fun c => s.listBytes c).sum) 32 +
    (if chains = 0 then 0 else 2 * n * s.brickTime r cs chains + 6 * chains) + s.secondTime r cs

/-- Rounds of a row (table 10.16). -/
def Cand.rounds (c : Cand) : Nat :=
  let p := c.held.score
  if p.windowed then 6 else if p.histogram then 2 else 1

/-- I₀ (R145). -/
def State.firstIntake (s : State) (cs : List Cand) : Nat :=
  match cs.filter (!·.d.external) with
  | [] => 0
  | c :: rest =>
    let d := (s.layout c.d.primary).width
    ceilDiv (((c :: rest).map fun x => d * formatWidth x.d.format).sum) 32 + 3 * ceilDiv d 256

/-- 4·E for a set of admitted rows, in quarter nanoseconds. -/
def State.estimate4 (s : State) (r : StepRun) (cs : List Cand) : Nat :=
  let groups := ((List.range r.groups.length).map fun g => cs.filter (·.group == g)).filter (!·.isEmpty)
  let named := firsts (cs.flatMap fun c => c.d.slots)
  let p := ceilDiv ((named.map fun k => (r.block k).length).sum) 32
  let a := ceilDiv (256 + 64 * r.rows.length) 32 + max (p + s.firstIntake (groups.headD [])) 280
  let others := s.members.filter (· != s.address)
  let rtt := (others.map fun m => ((s.peer m).roundTrip).getD 0).foldl max 0
  let depth := treeDepth s.members.length
  let ta := if s.sensing.tierA = 0 then 1000 else s.sensing.tierA
  let rounds := (groups.map fun g => (g.map fun c => c.rounds).foldl max 0).sum
  4 * r.wake + a + (groups.map (s.groupTime r)).sum + 4 * (ta * (1 + groups.length)) + 4 * (rounds * depth * (rtt + 200))

/-! ### The admission loop (R433) -/

/-- The units of admission: single rows and whole chains (R337). -/
def unitsOf : Nat → List Cand → List (List Cand)
  | 0, _ => []
  | _, [] => []
  | fuel + 1, c :: cs =>
    if c.d.kind = 2 then
      let more := (cs.take c.d.chainLength).takeWhile fun x => x.d.kind == 2 && x.group == c.group && x.d.chainIndex != 0
      (c :: more) :: unitsOf fuel (cs.drop more.length)
    else [c] :: unitsOf fuel cs

/-- What an admitted unit takes. -/
def Adm.take (a : Adm) (unit : List Cand) (d : RowDesc) : Adm :=
  let (need, pages) := d.need
  { a with
    admitted := a.admitted ++ unit, done := a.done ++ unit.map fun c => (c.index, 0)
    riders := a.riders + (if d.rider then 1 else 0), pages := a.pages + pages
    needs := insertKey a.needs d.tenant (valueAt a.needs d.tenant + need) }

/-- A refused unit. -/
def Adm.refuse (a : Adm) (unit : List Cand) (why : Nat) : Adm :=
  { a with
    done := a.done ++ unit.map fun c => (c.index, why)
    chainsRefused := a.chainsRefused + if unit.head?.any (·.d.kind == 2) then 1 else 0 }

/-- One unit of admission. -/
def State.admitUnit (s : State) (r : StepRun) (a : Adm) (unit : List Cand) : Adm :=
  match unit with
  | [] => a
  | f :: _ =>
    if a.late then a.refuse unit 0x0E06
    else
      let (why, b) := s.checkRows r unit unit a
      let why := if why ≠ 0 then why else s.checkQuotas r a f.d
      if why ≠ 0 then { a with cuts := b.cuts }.refuse unit why
      else if r.head.deadline ≠ 0 ∧ 4 * r.head.deadline < s.estimate4 r (a.admitted ++ unit) then
        { a with late := true }.refuse unit 0x0E06
      else b.take unit f.d

/-- The rows as admission meets them. -/
def StepRun.candidates (r : StepRun) : List Cand :=
  (((List.range r.groups.length).zip r.groups).map fun (g, gr) =>
    (r.groupRows gr).map fun (pos, x) =>
      { index := gr.start + pos, group := g, reserved := x.reserved, d := x.desc, held := x.held }).flatten

/-- The outcome of the whole admission. -/
def State.admitAll (s : State) (r : StepRun) : Adm :=
  let cs := r.candidates
  (unitsOf cs.length cs).foldl (s.admitUnit r) Adm.start

/-! ### What admission leaves -/

/-- The automaton state after a token, and whether the image was faulty (R340, R412). -/
def State.stackNext (s : State) (c : Context) (st t : Nat) : Nat × Bool :=
  match s.automaton c.automaton with
  | none => (st, false)
  | some a =>
    match a.next s.mem st t with
    | some n => (n, false)
    | none => (deadState, true)

/-- The state a row's masks use, and the faults met on the way (R340, R357, R411). -/
def State.rowState (s : State) (r : StepRun) (i : Nat) (x : RowRun) : Nat × Bool :=
  let d := x.desc
  match s.rowContext d with
  | none => (noState, false)
  | some c =>
    if d.kind = 3 then
      (if d.position = 0 then ((s.automaton c.automaton).map (·.start)).getD noState
        else (((s.positions c)[d.position - 1]?).map (·.2)).getD noState, false)
    else if d.kind = 2 ∧ x.held.score.useAutomaton then
      (r.budsBefore i d.chainIndex).foldl (fun (acc : Nat × Bool) t =>
        let (n, bad) := s.stackNext c acc.1 t
        (n, bad)) (c.automatonState, false)
    else (c.automatonState, false)

/-- Counters of a row's outcome (tables 11.6, 12.8, 14.13). -/
def countRow (d : RowDesc) (why : Nat) (s : State) : State :=
  if why = 0 then
    let s := count 0x709005 1 s
    if d.kind = 2 then (if d.chainIndex = 0 then count 0x706001 d.chainLength s else s)
    else if d.learning then count 0x707001 1 s
    else if d.rider then count 0x707002 1 s
    else s
  else
    let s := count 0x709006 1 s
    if why = 0x0C04 then count 0x707003 1 s else s

/-- Sets a row's outcome and automaton state. -/
def settleRow (r : StepRun) (i why : Nat) (s : State) : State :=
  match r.rows[i]? with
  | none => s
  | some x =>
    let (st, bad) := if why = 0 then s.rowState r i x else (noState, false)
    let s := if bad then raiseCount 0x0D0E 0x701004 0 x.desc.slot 0 s else s
    countRow x.desc why (withRun (fun r => { r with
      rows := r.rows.modify i fun x => { x with refusal := why, automatonState := st } }) s)

/-- Pages, provisional pages and budget the admitted rows reserve (R401, R402, R429). -/
def reserveAll (a : Adm) (s : State) : State :=
  let s := { s with contexts := { s.contexts with
    reservedPages := a.pages
    budgets := a.needs.foldl (fun bs n => insertKey bs n.1 { s.budget n.1 with reserved := n.2 }) s.contexts.budgets } }
  let s := a.admitted.foldl (fun s c =>
    if c.d.kind = 2 ∧ c.d.chainIndex = 0 then
      match s.context c.d.slot with
      | some x => setContext c.d.slot { x with provisional := s.provisionalPages x c.d.chainLength } s
      | none => s
    else s) s
  notePeak s

/-- Reads that ended in errors before admission give their rows NETWORK_READ_ERROR (table 17.7). -/
def settleReads (r : StepRun) (s : State) : State :=
  r.readErrors.foldl (fun s t =>
    match t with
    | .rowData rows => markRows rows 0x1121 s
    | .historyRead rows => markRows rows 0x1121 s
    | _ => s) s

/-- The record unit was lost before the step could count on it (R327). -/
def settleRecord (s : State) : State := takeOver s (checkTakeover s)

/-- An accepted manifest: budget periods, number, rows, reservations, the summary's first bytes (R428, R431, R441). -/
def acceptManifest (r : StepRun) (ecc : List EccHit) (s : State) : State :=
  let n := r.head.number
  let s := placeBudgets r.head.time s
  let jumped := n ≠ (s.steps.lastNumber + 1) % 2 ^ 64
  let a := s.admitAll r
  let s := { s with
    steps := { s.steps with lastNumber := n, anyNumber := false }
    snapshot := { s.snapshot with forceFull := s.snapshot.forceFull || jumped } }
  let s := count 0x706005 a.chainsRefused (count 0x709001 1 s)
  let s := a.done.foldl (fun s o => settleRow r o.1 o.2 s) s
  let s := workHits 0 r.rows.length ecc (settleReads r (reserveAll a s))
  let s := withRun (fun r => { r with
    admitted := true, estimate := s.estimate4 r a.admitted / 4, admittedTime := s.now }) s
  let s := noteEnd s
  let s := match s.steps.run with
    | some r => writeBytes r.head.summary (r.summaryHead 1) s
    | none => s
  pump (noteMissed (settleRecord (loadShadow s)))

/-- ADMISSION (R431). -/
def execAdmission (s : State) (ecc : List EccHit := []) : Host.Outcome State Fault Refusal :=
  match s.steps.run with
  | some r =>
    if r.admitted ∨ !s.working then .fault .stepNotDue
    else
      let status := s.manifestStatus r
      .next (if status = 0 then acceptManifest r ecc s else refuseManifest r status s)
  | none => .fault .stepNotDue

end Sys2Proof.Machine
end

