-- ==== Sys2Proof/Machine/Install.lean ====
section
/-! DEFINITION. Installs of microprogram images and their loading (R200 to R207). -/

namespace Sys2Proof.Machine

/-- A Store, install or factory restore is writing (R205). -/
def State.writerBusy (s : State) : Bool := s.dict.storing.isSome || s.fseq.installing.isSome

/-- An image is being written to the persistent store, whose image is broken until the write ends (R204). Reject Reason
reads 0 from then on (DESIGN CHOICE, log entry 78). -/
def startInstall (m : MicroImage) (s : State) : State :=
  { s with
    nvm := { s.nvm with image := .zeros }
    fseq := { s.fseq with installing := some m, installState := 1, rejectReason := 0 } }

/-- Install (R202). -/
def installEffect (s : State) : State :=
  let k := s.fseq.buffer.fails
  if k = 0 then startInstall s.fseq.buffer s
  else raise 0x0602 (reject { s with fseq := { s.fseq with installState := 3, rejectReason := k } })

/-- Factory Restore (R203). -/
def factoryRestoreEffect (s : State) : State := startInstall .factory s

/-- The write of an image ends, whole or in error (R202, R204). -/
def finishInstall (m : MicroImage) (ok : Bool) (s : State) : State :=
  let s := { s with
    nvm := { s.nvm with image := if ok then m else .zeros }
    fseq := { s.fseq with installing := none, installState := if ok then 2 else 4 } }
  raise (if ok then 0x0603 else 0x0604) s

/-- IMAGE_INSTALLED. -/
def execImageInstalled (ok : Bool) (s : State) : Host.Outcome State Fault Refusal :=
  match s.fseq.installing with
  | some m => .next (finishInstall m ok s)
  | none => .fault .imageNotDue

/-- An image takes the microprogram RAM at bring-up. -/
def useImage (m : MicroImage) (source : Nat) (s : State) : State :=
  { s with fseq := { s.fseq with
      loaded := some m, source := source, digest := imageDigest m, version := fieldAt (imageBytes m) 16 4 } }

/-- The persistent image is checked and loaded, or the factory image in its place (R201). -/
def loadMicro (s : State) : State :=
  if s.nvm.image.fails = 0 then useImage s.nvm.image 1 s else raise 0x0601 (useImage .factory 2 s)

end Sys2Proof.Machine
end

