-- ==== Sys2Proof/Machine/Resets.lean ====
section
/-! DEFINITION. Power-on reset, unit reset and bring-up (R66 to R73, R77, R88, R468, R472, R479, R489, R528 to R535). -/

namespace Sys2Proof.Machine

/-! ### The reach of a reset (table 2.4) -/

/-- A reset during a record write leaves one whole copy, the old one or the new one (R486): which is free. -/
def breakRecord (s : State) : State :=
  match s.life.writing with
  | none => s
  | some r =>
    let (v, s) := free16 s
    let r := if v % 2 = 0 then s.life.record else { r with writes := r.writes + 1 }
    { s with
      nvm := { s.nvm with copyA := some r, copyB := none }
      life := { s.life with record := r, writing := none } }

/-- What a unit reset leaves of a head slot: a swap in progress is abandoned, a held one dropped; with the loaded mark go
the layout and Parameter Block CRC, and what no row of table 2.4 holds takes its default: a Failed slot is
Empty (R11). -/
def HeadSlot.afterReset (h : HeadSlot) : HeadSlot :=
  match h.state with
  | 2 | 4 => { h with state := 4, next := .empty, bytesDone := 0 }
  | 3 => { h with bytesDone := 0 }
  | _ => .empty

/-- A power-on reset (`deep`) or a unit reset is asserted: every port isolated, the state of table 2.4 left. A disabled unit
draws no current on VDD_HS through either (R77). -/
def assertReset (deep : Bool) (s : State) : State :=
  let s := breakRecord (clearStarts s)
  { State.reset with
    boundary := { State.reset.boundary with
      unitDisable := s.boundary.unitDisable, phase := .asserted (if deep then .powerOn else .unit) }
    dict := { Dict.initial with counters := if deep then [] else s.dict.counters }
    nvm := { s.nvm with image := if s.fseq.installing.isSome then .zeros else s.nvm.image }
    life := { LifeCycle.initial s.life.record with draws := s.life.draws, lockout := s.life.lockout }
    heads := if deep then State.reset.heads else s.heads.map HeadSlot.afterReset
    sensing := { Sensing.initial with hsOff := s.boundary.unitDisable || (!deep && s.sensing.hsOff) }
    upkeep := { Upkeep.initial with hsPass := if deep then none else s.upkeep.hsPass }
    mem := s.mem
    out := s.out
    pending := s.pending
    slow := s.slow
    fresh := s.fresh }

/-- A unit reset arrives: a power-on reset under way, or no power, absorbs it (R67). -/
def unitResetArrives (s : State) : State :=
  if s.boundary.phase = .asserted .powerOn ∨ s.sensing.power = .off then s else assertReset false s

/-- POWER_ON_RESET. -/
def execPowerOnReset (s : State) : Host.Outcome State Fault Refusal := .next (assertReset true s)

/-- UNIT_RST_N. -/
def execUnitRstN (s : State) : Host.Outcome State Fault Refusal := .next (unitResetArrives s)

/-- Unit Reset (R72): it takes effect after the response has left. -/
def unitResetEffect (s : State) : State := { s with boundary := { s.boundary with unitResetDue := true } }

/-- UNIT_RESET_TAKES_EFFECT (R72). -/
def execUnitResetTakesEffect (s : State) : Host.Outcome State Fault Refusal :=
  if s.boundary.unitResetDue then .next (unitResetArrives s) else .fault .resetNotDue

/-- VDD_LANE_E, VDD_LANE_W and VDD_HS are off: the step under way, the lanes and the Head Store are lost (R54, R77). -/
def dropRails (s : State) : State :=
  let s := clearLanes (abandonStep s)
  emptyAllSlots (if s.sensing.power = .off then s
    else { s with sensing := { s.sensing with power := .dormant, waking := none, hsOff := true } })

/-- Where a reset stands once UNIT_DISABLE is at 1: a bring-up or a lane reset that runs gets no further (R77). -/
def ResetPhase.disabled : ResetPhase → ResetPhase
  | .asserted k => .asserted k
  | .idle => .idle
  | .scrapped => .scrapped
  | _ => .failed

/-- UNIT_DISABLE (R77): every port isolated from then on. -/
def disableUnit (s : State) : State :=
  dropLink (dropRails { s with boundary := { s.boundary with
    unitDisable := true, unitPresent := false, tsReq := false, phase := s.boundary.phase.disabled } })

/-- UNIT_DISABLE. -/
def execUnitDisable (s : State) : Host.Outcome State Fault Refusal := .next (disableUnit (slowEdge s))

/-- The rails are gone: what they held is as after a power-on reset (R88, table 2.4). -/
def powerOff (s : State) : State :=
  let s := assertReset true s
  { s with sensing := { s.sensing with power := .off } }

/-- POWER_OFF. -/
def execPowerOff (s : State) : Host.Outcome State Fault Refusal := .next (powerOff s)

/-! ### Bring-up (table 18.1) -/

/-- The record copy that counts: valid, with the higher write count (R479). -/
def NonVolatile.record (n : NonVolatile) : Option LifeRecord :=
  match n.copyA, n.copyB with
  | some a, some b => some (if a.writes < b.writes then b else a)
  | some a, none => some a
  | none, b => b

/-- The life-cycle record is loaded after a power-on reset and held over a unit reset; without a valid copy the unit
behaves as SCRAPPED (R479, R528). -/
def loadRecord (s : State) : State :=
  if s.boundary.phase ≠ .asserted .powerOn then s
  else match s.nvm.record with
    | some r => { s with life := { s.life with record := r } }
    | none => raise 0x1004 { s with life := { s.life with record := { LifeRecord.initial with state := 6 } } }

/-- The settings image, or defaults where it is not valid (R468, R472). -/
def loadSettings (s : State) : State :=
  match s.nvm.settings with
  | some (rw, rws) =>
    let s := { s with dict := { s.dict with rw := rw, applied := rws, staged := rws, settingsSource := 1 } }
    { s with mortar := { s.mortar with bondDigest := if s.vocab = 0 then 0 else s.digestOfBond } }
  | none => raise 0x0F04 { s with dict := { s.dict with settingsSource := 2 } }

/-- Words of the settings memory met by the load: an uncorrectable one marks the image invalid (table 17.6, R472). -/
def settingsHits (es : List EccHit) (s : State) : State :=
  (es.filter (·.memory == 7)).foldl (fun s e =>
    if !e.uncorrectable then correctedWord 1 e s
    else
      let s := noteUncorrectable 1 e s
      { s with nvm := { s.nvm with settings := none } }) s

/-- The wake of bring-up begins; its 1,200 slow cycles end 146,040 after the release (table 18.1). -/
def bringUpWake (s : State) : State := startWake 146040 s

/-- What bring-up loads once the reset is released, the settings' words read with it (R504); in SCRAPPED it stops at the
record (R489). -/
def releaseReset (ecc : List EccHit) (s : State) : State :=
  let s := loadRecord { s with boundary := { s.boundary with tsReq := true } }
  if s.life.record.state = 6 then { s with boundary := { s.boundary with unitPresent := false, phase := .scrapped } }
  else bringUpWake (loadMicro (loadSettings (settingsHits ecc (loadFinished
    { s with boundary := { s.boundary with unitPresent := false, phase := .bringUp } }))))

/-- A reset that can be released is asserted. -/
def State.releaseDue (s : State) : Bool :=
  s.sensing.power != .off && match s.boundary.phase with
    | .asserted _ => true
    | _ => false

/-- RESET_RELEASE (R528): with UNIT_DISABLE at 1 nothing follows (R77). -/
def execResetRelease (s : State) (ecc : List EccHit := []) : Host.Outcome State Fault Refusal :=
  if s.releaseDue then .next (if s.boundary.unitDisable then s else releaseReset ecc s) else .fault .resetNotDue

/-- The memory a test proves (tables 18.2, 17.5). -/
def testMemory : Nat → Option Nat
  | 2 => some 4
  | 3 => some 6
  | 4 => some 2
  | 5 => some 3
  | 6 => some 5
  | 10 => some 1
  | _ => none

/-- The tests of a mask, ascending. -/
def testsOf (mask : Nat) : List Nat := (List.range 11).filter (bit mask)

/-- BIST Failures, BIST State and BIST Time, then BIST_DONE or a BIST_FAILED for each failed test (R533, R535). -/
def reportTests (failures : Nat) (s : State) : State :=
  let s := { s with upkeep := { s.upkeep with
    bistRun := none, bistFailures := failures, bistTime := s.now, bistState := if failures = 0 then 2 else 3 } }
  if failures = 0 then raise 0x1141 s else (testsOf failures).foldl (fun s _ => raise 0x1142 s) s

/-- A failed march advances Uncorrectable Words of its memory (R533). -/
def countMarches (failures : Nat) (s : State) : State :=
  (testsOf failures).foldl (fun s n => match testMemory n with
    | some m => count (0x70A100 + m) 1 s
    | none => s) s

/-- Every test passed: ports connected, UNIT_PRESENT, DISCOVER, a pending wipe starts. -/
def enterService (s : State) : State :=
  let s := risePresent s
  raise 0x1140 { s with life := { s.life with wiping := s.life.record.wipePending } }

/-- A test failed, or the unit is disabled: the ports stay isolated, the unit enters Dormant (R77, R90, R533). -/
def stayAbsent (s : State) : State :=
  enterDormant { s with boundary := { s.boundary with unitPresent := false, phase := .failed } }

/-- Tests 1 to 9 have ended, the lane clock running since a wake from Dormant, at the row the rails give (R99). -/
def endBringUp (failures : Nat) (s : State) : State :=
  let f := failures &&& 0x3FE
  let s := count 0x702004 1 (if s.sensing.power = .active then s else endWake s)
  let s := reportTests f (countMarches f s)
  if f = 0 ∧ !s.boundary.unitDisable then enterService s else stayAbsent s

/-- BRING_UP_DONE, on a slow edge (table 18.1). -/
def execBringUpDone (failures : Nat) (s : State) : Host.Outcome State Fault Refusal :=
  if s.boundary.phase = .bringUp then .next (endBringUp failures (slowEdge s)) else .fault .resetNotDue

/-! ### Tests on demand -/

/-- BIST Go (R535): while tests run it changes nothing, Command Rejects included (the model's choice, log entry 90); during a
step or a lane reset it waits. -/
def bistGoEffect (s : State) : State :=
  if s.upkeep.bistState = 1 then s
  else if !s.laneResettable then reject s
  else if s.stepState ≠ 0 ∨ s.boundary.phase ≠ .idle then { s with upkeep := { s.upkeep with bistWaiting := true } }
  else startTests s

/-- The tests of a run have ended; a latched start begins. Test 6 leaves every line of the automaton cache invalid (table
18.2). -/
def endTests (mask failures : Nat) (s : State) : State :=
  let s := if bit mask 6 then { s with contexts := { s.contexts with cache := [] } } else s
  beginLatched (reportTests (failures &&& mask) s)

/-- BIST_DONE: a test 10 that has not begun has not run (R535). -/
def execBistDone (failures : Nat) (s : State) : Host.Outcome State Fault Refusal :=
  match s.upkeep.bistRun with
  | some mask => if s.upkeep.marchDue.isSome then .fault .testNotDue else .next (endTests mask failures s)
  | none => .fault .testNotDue

end Sys2Proof.Machine
end

