-- ==== Sys2Proof/Machine/LifeCycle.lean ====
section
/-! DEFINITION. Signed life-cycle transitions and the wipe (R479 to R489). -/

namespace Sys2Proof.Machine

/-! ### The record -/

/-- Writes the record: both copies, the write count advanced (R479). -/
def writeRecord (r : LifeRecord) (s : State) : State :=
  let r := { r with writes := r.writes + 1 }
  { s with nvm := { s.nvm with copyA := some r, copyB := some r }, life := { s.life with record := r } }

/-- Maker Public Key (R480). -/
def makerKey : Nat := leNat ((List.range 96).map Config.makerKeyByte)

/-- Owner Public Key as it reads: in MAKER the last value written, else the record's (R481). -/
def State.ownerKey (s : State) : Nat :=
  if s.life.record.state = 2 then s.life.ownerBuffer.getD s.life.record.ownerKey else s.life.record.ownerKey

/-! ### Challenges (R484) -/

/-- Sixteen bytes of the random source. -/
def randomBytes (draw : Nat) : Nat := leNat ((List.range 16).map (Config.randomByte draw))

/-- Challenge Request: ignored during the lockout. -/
def challengeEffect (s : State) : State :=
  if s.life.lockout then reject s
  else { s with life := { s.life with
      challenge := some (randomBytes s.life.draws), draws := s.life.draws + 1, transition := 1 } }

/-- CHALLENGE_EXPIRY: 60 s after issue. -/
def execChallengeExpiry (s : State) : Host.Outcome State Fault Refusal :=
  if s.life.challenge.isSome then .next { s with life := { s.life with challenge := none } } else .fault .lifeNotDue

/-- CHALLENGE_LOCKOUT_END: 1 s after a refusal with reason 5. -/
def execChallengeLockoutEnd (s : State) : Host.Outcome State Fault Refusal :=
  if s.life.lockout then .next { s with life := { s.life with lockout := false } } else .fault .lifeNotDue

/-! ### Transitions (R482 to R486) -/

/-- Who signs a transition of table 16.3, and whether it wipes: none where it is not a row. -/
def transitionRow (from_ into : Nat) : Option (Bool × Bool) :=
  match from_, into with
  | 1, 2 => some (true, false)
  | 2, 3 => some (true, false)
  | 3, 4 => some (false, false)
  | 3, 2 => some (true, false)
  | 4, 5 => some (false, true)
  | 5, 2 => some (true, false)
  | 2, 6 => some (true, true)
  | 3, 6 => some (true, true)
  | 5, 6 => some (true, true)
  | 4, 6 => some (false, true)
  | _, _ => none

/-- The signed message (table 16.4). -/
def transitionMessage (identity from_ into challenge transitions : Nat) : Bytes :=
  toLe 4 0x4C435452 ++ toLe 8 identity ++ toLe 1 from_ ++ toLe 1 into ++ toLe 2 0 ++ toLe 16 challenge ++ toLe 4 transitions

/-- A 96-byte key is a valid point. -/
def keyValid (k : Nat) : Bool := p384Valid (k % 2 ^ 384) (k / 2 ^ 384)

/-- The first check of table 16.5 that a chip of this identity fails, 0 where all pass. -/
def transitionCheck (identity : Nat) (r : LifeRecord) (v : Verifying) : Nat :=
  if v.busy then 1
  else match v.challenge with
    | none => 2
    | some c =>
      match transitionRow r.state v.target with
      | none => 3
      | some (maker, _) =>
        let key := if maker then makerKey else r.ownerKey
        if !keyValid key || (r.state == 2 && v.target == 3 && !keyValid v.owner) then 4
        else if ecdsaVerify (toLe 96 key) (toLe 96 v.signature) (transitionMessage identity r.state v.target c r.transitions)
          then 0
        else 5

/-- The check this unit's transition fails. -/
def State.transitionReason (s : State) (v : Verifying) : Nat := transitionCheck Config.chipIdentity.toNat s.life.record v

/-- Transition Go: what it takes is held until verification ends; while one runs it is ignored. Either way a challenge ends
(R484). -/
def transitionGoEffect (s : State) : State :=
  if s.life.verifying.isSome ∨ s.life.writing.isSome ∨ s.life.wiping then
    reject { s with life := { s.life with challenge := none } }
  else
    let v : Verifying :=
      { challenge := s.life.challenge, target := Store.get s.dict.held 0x1E3001, signature := Store.get s.dict.held 0x1E3002
        owner := s.ownerKey, busy := s.stepState != 0 || s.dict.commitState == 1 || s.writerBusy }
    { s with life := { s.life with verifying := some v, challenge := none, transition := 2 } }

/-- A failing check (R485): for reason 5 the failure is counted and recorded, and the lockout begins. -/
def refuseTransition (reason : Nat) (s : State) : State :=
  let s := reject { s with life := { s.life with transition := 5, reason := reason } }
  let s := if reason = 5 then
      let r := s.life.record
      let s := writeRecord { r with failures := bump 32 r.failures 1 } s
      { s with life := { s.life with lockout := true } }
    else s
  raiseArgs 0x1002 0 s.life.record.state reason s

/-- The areas a wipe clears, as applied now: address and size (R487). -/
def State.wipeAreas (s : State) : List (Nat × Nat) :=
  [(s.cfg 0x205001, s.cfg 0x205002), (s.cfg 0x205004, s.cfg 0x205005), (s.cfg 0x203001, s.cfg 0x203002)]

/-- In a state that runs no step, a start that waits is refused (R491; log entry 81). -/
def refuseWaiting (s : State) : State := if s.runsSteps then s else clearStarts s

/-- Steps 1 and 2 of a wipe: Fabric Enable 0, the record with the new state and the areas (R487). -/
def startWipe (r : LifeRecord) (s : State) : State :=
  let s := writeRecord { r with wipePending := true, areas := s.wipeAreas } (setRw 0x500002 0 s)
  refuseWaiting { s with life := { s.life with wiping := true, ownWipe := true } }

/-- Every check passed (R486); Transition Refuse Reason goes back to 0 (the model's choice, log entry 93). -/
def acceptTransition (v : Verifying) (s : State) : State :=
  let r := s.life.record
  let key := if r.state = 2 ∧ v.target = 3 then v.owner else if r.state = 3 ∧ v.target = 2 then 0 else r.ownerKey
  let r' := { r with state := v.target, transitions := bump 32 r.transitions 1, ownerKey := key }
  let s := { s with life := { s.life with transition := 3, reason := 0 } }
  if (transitionRow r.state v.target).any (·.2) then startWipe r' s
  else { s with life := { s.life with writing := some r' } }

/-- Verification ends. -/
def endVerification (v : Verifying) (s : State) : State :=
  let reason := s.transitionReason v
  let s := { s with life := { s.life with verifying := none } }
  if reason = 0 then acceptTransition v s else refuseTransition reason s

/-- TRANSITION_VERIFIED. -/
def execTransitionVerified (s : State) : Host.Outcome State Fault Refusal :=
  match s.life.verifying with
  | some v => .next (endVerification v s)
  | none => .fault .lifeNotDue

/-- The record write ends: the new state's reach applies (R486), and a step that stood still goes on (R491). -/
def changeState (r : LifeRecord) (s : State) : State :=
  let s := writeRecord r s
  pump (raiseArgs 0x1001 0 r.state 0 (refuseWaiting { s with life := { s.life with writing := none, transition := 4 } }))

/-- LIFECYCLE_CHANGED. -/
def execLifecycleChanged (s : State) : Host.Outcome State Fault Refusal :=
  match s.life.writing with
  | some r => .next (changeState r s)
  | none => .fault .lifeNotDue

/-! ### The wipe (table 16.6) -/

/-- Memory with an area written with zero bytes. -/
def zeroArea (m : List Host.Cell) (a : Nat × Nat) : List Host.Cell :=
  m.filter fun c => !(decide (a.1 ≤ c.1) && decide (c.1 < a.1 + a.2))

/-- The actions of table 16.6, the record's second write, WIPE_DONE and the unit reset after which Transition State
reads 4 (R487). -/
def finishWipe (s : State) : State :=
  let r := s.life.record
  let s := emptyAllSlots { s with contexts := .initial, mem := r.areas.foldl zeroArea s.mem }
  let s := { s with
    nvm := { s.nvm with settings := none, image := .factory }, fseq := { s.fseq with installing := none } }
  let s := raise 0x1003 (writeRecord { r with ownerKey := 0, wipePending := false } s)
  let s := assertReset false s
  { s with life := { s.life with transition := 4 } }

/-- WIPE_DONE: the areas are written through the ports, so it needs them connected (R45, R488). -/
def execWipeDone (s : State) : Host.Outcome State Fault Refusal :=
  if s.life.wiping ∧ s.portsUp then .next (finishWipe s) else .fault .lifeNotDue

end Sys2Proof.Machine
end

