-- ==== Sys2Proof/Machine/Link.lean ====
section
/-! DEFINITION. Mortar rows: frames received (R302 to R307, R313, R315, R328), link flits and resends (R304), the loss of
a peer (R305, R306, R321, R324, R327), heartbeats (R299, R301), the fabric's notices (R78, R79). -/

namespace Sys2Proof.Machine

/-! ### The loss of a peer -/

/-- A member lost during a step is noted with the step (R324). -/
def noteLost (p : Nat) (s : State) : State :=
  withRun (fun r => { r with lost := if r.lost.contains p then r.lost else r.lost ++ [p] }) s

/-- A peer becomes Silent (3) or Absent (4): images sent to or taken from it end, the record unit may change, rows that
needed it end or go another way: what went to it goes to the unit that takes its place (R305, R306, R321, R324, R327). -/
def peerLost (p st : Nat) (s : State) : State :=
  pump (noteMissed (takeOver s (checkTakeover (noteLost p (losePeer p (peerDown p st s))))))

/-- Sends to a peer that is not Present end with nothing else (R297, R305). -/
def dropSends (p : Nat) (s : State) : State :=
  let x := s.peer p
  dropLate p (setPeer p { x with rxNext := none, rxHeld := [], unacked := [], waiting := [] } s)

/-- ABSENCE_NOTICE (R79): an Unknown entry stays Unknown. -/
def absenceNotice (p : Nat) (s : State) : State :=
  if !s.portsUp || p == s.address then s
  else if (s.peer p).state = 0 then dropSends p s
  else if (s.peer p).state = 4 then peerDown p 4 s
  else peerLost p 4 s

/-- ABSENCE_NOTICE. -/
def execAbsenceNotice (peer : Nat) (s : State) : Host.Outcome State Fault Refusal := .next (absenceNotice peer s)

/-- ABSENT_RESPONSE (R79, R305): from any state. -/
def absentResponse (p : Nat) (s : State) : State :=
  if !s.portsUp || p == s.address then s
  else if (s.peer p).state = 4 then peerDown p 4 s
  else peerLost p 4 s

/-- ABSENT_RESPONSE. -/
def execAbsentResponse (peer : Nat) (s : State) : Host.Outcome State Fault Refusal := .next (absentResponse peer s)

/-- Nothing has been heard, or the fourth send drew nothing: a Present peer becomes Silent, the sends to another end
(table 10.1, R304). -/
def fallSilent (p : Nat) (s : State) : State := if (s.peer p).state = 2 then peerLost p 3 s else dropSends p s

/-- PEER_SILENCE_TIMEOUT (R306). -/
def execPeerSilenceTimeout (peer : Nat) (s : State) : Host.Outcome State Fault Refusal :=
  if s.portsUp ∧ (s.peer peer).state = 2 then .next (fallSilent peer s) else .fault .mortarNotDue

/-! ### Sending again -/

/-- Sends an unacknowledged message again; `counts` is set unless a LINK_NAK of reason 2 drew it (R304). -/
def resend (p seq : Nat) (counts : Bool) (s : State) : State :=
  let x := s.peer p
  match x.unacked.find? (·.sequence == seq) with
  | none => s
  | some u =>
    if counts ∧ 4 ≤ u.sends then fallSilent p s
    else if !s.fabricOpen || !s.quiesceAllows (msgType u.bytes) p then s
    else
      let again := fun (v : Unacked) =>
        if v.sequence = seq then { v with bytes := resent v.bytes, sends := v.sends + if counts then 1 else 0 } else v
      emit (resent u.bytes) (count 0x705004 1 (setPeer p { x with unacked := x.unacked.map again } s))

/-- A message of this sequence to the peer is not acknowledged. -/
def State.isUnacked (s : State) (p seq : Nat) : Bool := (s.peer p).unacked.any (·.sequence == seq)

/-- A message waits to be sent late (R101). -/
def State.isLate (s : State) (p seq : Nat) : Bool :=
  s.mortar.late.any fun m => sequencedTo p m && msgSequence m == seq

/-- MORTAR_RESEND_TIMEOUT (R304): none is applied to an Absent peer (R79). -/
def execMortarResendTimeout (peer sequence : Nat) (s : State) : Host.Outcome State Fault Refusal :=
  if s.portsUp ∧ s.isUnacked peer sequence ∧ ¬ s.isLate peer sequence ∧ (s.peer peer).state ≠ 4 then .next (resend peer sequence true s) else .fault .mortarNotDue

/-- Messages queued behind 64 unacknowledged ones go out as far as there is room (R304); one that the unit, quiesced since,
no longer exchanges is not sent (R517). -/
def refill (p : Nat) : Nat → State → State
  | 0, s => s
  | fuel + 1, s =>
    let x := s.peer p
    match x.waiting with
    | [] => s
    | m :: rest =>
      if 64 ≤ x.unacked.length then s
      else
        let s := setPeer p { x with waiting := rest } s
        refill p fuel (if s.quiesceAllows (msgType m) p then post p m s else s)

/-- A LINK_ACK. -/
def takeAck (p seq : Nat) (s : State) : State :=
  let x := s.peer p
  let rest := x.unacked.filter (·.sequence != seq)
  refill p x.waiting.length (setPeer p { x with unacked := rest } s)

/-- A link flit reaches the link: its port is connected, it is whole, and it is of a unit still exchanged with (R517). -/
def State.hearsFlit (s : State) (m : Bytes) : Bool :=
  s.fabricOpen && frameGood m && m.length == 64 && s.quiesceAllows 3 (msgSource m)

/-- LINK_ACK. -/
def linkAck (m : Bytes) (s : State) : State :=
  if s.hearsFlit m && s.isUnacked (msgSource m) (msgSequence m) then takeAck (msgSource m) (msgSequence m) s else s

/-- LINK_ACK (R304). -/
def execLinkAck (msg : Bytes) (s : State) : Host.Outcome State Fault Refusal :=
  if frameGood msg ∧ msgType msg ≠ 0xE0 then .fault .mortarNotDue else .next (linkAck msg s)

/-- LINK_NAK: reason 1 counts towards the four sends, reason 2 does not. -/
def linkNak (m : Bytes) (s : State) : State :=
  let reason := fieldAt m 32 1
  if s.hearsFlit m && (reason == 1 || reason == 2) then resend (msgSource m) (msgSequence m) (reason == 1) s else s

/-- LINK_NAK (R304). -/
def execLinkNak (msg : Bytes) (s : State) : Host.Outcome State Fault Refusal :=
  if frameGood msg ∧ msgType msg ≠ 0xE1 then .fault .mortarNotDue else .next (linkNak msg s)

/-! ### Messages passed on -/

/-- A row of a group that has ended ends BOND_SPLIT after all; its bloom is written again (R313). -/
def splitRow (v : View) (cs : List Claim) (x : Nat × RowRun) (s : State) : State :=
  let f := v.finalOf cs [] x
  let s := withRun (fun r => { r with finals := r.finals.map fun y => if y.index = f.index then f else y }) (count 0x70100B 1 s)
  if v.r.record = v.me then
    withGroup v.g (fun gr => { gr with acknowledged := false }) (writeBloom v.r.head f s)
  else s

/-- The rows of an ended group whose status BOND_SPLIT precedes (R325). -/
def splitGroup (g : Nat) (s : State) : State :=
  match s.view g with
  | none => s
  | some v =>
    let old := fun (x : Nat × RowRun) => ((v.r.finals.find? (·.index == v.gr.start + x.1)).map (·.status)).getD 0
    let cs := v.rows.map fun x => voidClaim x.1 (mergeStatus (old x) 0x0A02)
    if !v.gr.written then s
    else (v.rows.filter fun x => mergeStatus (old x) 0x0A02 != old x).foldl (fun s x => splitRow v cs x s) s

/-- Every row of the running step ends BOND_SPLIT, wherever it has got to; counted once per step (R313). -/
def splitStep (s : State) : State :=
  match s.steps.run with
  | none => s
  | some r =>
    if r.split then s
    else
      let s := count 0x705009 1 (withRun (fun r => { r with split := true }) s)
      pump ((List.range r.groups.length).foldl (fun s g => splitGroup g s) s)

/-- What a taken message says upwards comes from members that lay those slots (R315). -/
def State.laid (s : State) (t : Taken) : Bool :=
  let slots := fun (src l i : Nat) =>
    (List.range (2 ^ l)).all fun k => decide (s.brickCount ≤ i * 2 ^ l + k) || s.laidUnder src (i * 2 ^ l + k)
  let token := fun (src : Nat) (p : Petal) => p.void || s.laidUnder src (p.token / 4096)
  match t with
  | .node src _ down l i _ => down || slots src l i
  | .hist src down _ l i _ _ => down || slots src l i
  | .petals src down _ _ _ ps => down || ps.all (token src)
  | .claims src down cs => down || cs.all fun c => c.void || token src c.winner

/-- A count at τ where the row has no min_p breaks the layout (table 10.9). -/
def State.tauFits (s : State) (g : Nat) (t : Taken) : Bool :=
  match t, s.view g with
  | .hist _ _ u _ _ tau _, some v => tau == 0 || ((v.pathAt u.row u.second).all fun p => f32Lt 0 p.params.minP)
  | _, _ => true

/-- A member has sent to the unit that took the record unit's place. -/
def hearMember (src : Nat) (s : State) : State :=
  withRun (fun r => if r.takeover && !r.heard.contains src then { r with heard := r.heard ++ [src] } else r) s

/-- A contribution to pass group `g` of the running step. -/
def takeContribution (src g : Nat) (t : Taken) (odd : Nat) (s : State) : State :=
  if !s.laid t then stale s
  else pump (withGroup g (fun gr => { gr with inbox := gr.inbox ++ [t] }) (hearMember src (noteOdd odd s)))

/-- A step-bound message (R307, R313), once it obeys its layout (R328); only a Present peer takes part in reductions
(R297). -/
def takeStepBound (typ src version number : Nat) (pl : Bytes) (s : State) : State :=
  match readStepBound typ src pl with
  | none => stale s
  | some (g, t, odd) =>
    if !s.members.contains src || number != s.steps.lastNumber then stale s
    else if !s.steps.run.any (·.admitted) then s
    else if !s.tauFits g t then stale s
    else if version ≠ s.cfg 0x501001 then splitStep s
    else if !s.present src then s
    else takeContribution src g t odd s

/-- The least payload of a type (table 10.3). -/
def leastPayload : Nat → Nat
  | 2 => 80
  | 3 => 16
  | 4 => 48
  | 5 => 16
  | 6 => 16
  | 8 => 56
  | 9 => 64
  | _ => 8

/-- Reserved header bits are clear, and the payload has its fixed part (R328). -/
def headerClear (m : Bytes) : Bool :=
  decide (fieldAt m 1 1 < 4) && decide (fieldAt m 4 2 < 4096) && decide (fieldAt m 6 2 < 4096) &&
    decide (leastPayload (msgType m) ≤ (msgPayload m).length)

/-- Passes an accepted message on. -/
def deliver (m : Bytes) (s : State) : State :=
  let src := msgSource m
  let pl := msgPayload m
  if !headerClear m then stale s
  else match msgType m with
    | 1 => takeDiscover src pl s
    | 2 => takeCaps src pl s
    | 3 => takeHeartbeat src (msgSent m) pl s
    | 8 => takeBondUpdate src pl s
    | 9 => takeStatePage src pl s
    | typ => takeStepBound typ src (msgVersion m) (msgStep m) pl s

/-- A Silent peer's message that is neither DISCOVER nor CAPS is acknowledged and discarded (R307). -/
def State.unheard (s : State) (m : Bytes) : Bool :=
  (s.peer (msgSource m)).state == 3 && msgType m != 1 && msgType m != 2

/-- A step-bound message of the step after the current or last one: not ready (R303). Before any step, and between a step's
begin and its admission, that one is Last Step Number's (the model's choice, log entry 77). -/
def State.notReady (s : State) (m : Bytes) : Bool :=
  !s.unheard m && stepBound (msgType m) && msgStep m == (s.steps.lastNumber + 1) % 2 ^ 64

/-- Accepts a message in sequence order: acknowledged, then counted and passed on unless it is of a Silent peer. -/
def acceptFrame (m : Bytes) (s : State) : State :=
  let src := msgSource m
  let x := s.peer src
  let t := linkFlit 0xE0 0 src (msgSequence m) (setPeer src { x with rxNext := some ((msgSequence m + 1) % 2 ^ 32) } s)
  if s.unheard m then t else deliver m (count 0x705002 1 t)

/-- A message held for its turn is taken when the turn comes (R303). -/
def takeHeld (src : Nat) : Nat → State → State
  | 0, s => s
  | fuel + 1, s =>
    let x := s.peer src
    match x.rxNext.bind (lookupKey x.rxHeld) with
    | none => s
    | some m =>
      let s := setPeer src { x with rxHeld := eraseKey x.rxHeld (msgSequence m) } s
      if s.notReady m then linkFlit 0xE1 2 src (msgSequence m) s else takeHeld src fuel (acceptFrame m s)

/-- A whole message with a sequence, by R303. -/
def takeSequenced (m : Bytes) (s : State) : State :=
  let src := msgSource m
  let seq := msgSequence m
  let x := s.peer src
  let ahead := (seq + 2 ^ 32 - x.rxNext.getD seq) % 2 ^ 32
  if 2 ^ 31 ≤ ahead then linkFlit 0xE0 0 src seq s
  else if 64 < ahead then linkFlit 0xE1 1 src seq s
  else if 0 < ahead then setPeer src { x with rxHeld := insertKey x.rxHeld seq m } s
  else if s.notReady m then linkFlit 0xE1 2 src seq s
  else takeHeld src 64 (acceptFrame m s)

/-- A received message: an isolated port ignores it (R46), a closed fabric acknowledges and discards it (R296), a
quiesced unit answers only its partner (R517). -/
def receive (m : Bytes) (s : State) : State :=
  let src := msgSource m
  let seq := msgSequence m
  if !s.portsUp then s
  else if !s.fabricOpen then linkFlit 0xE0 0 src seq s
  else if !s.quiesceAllows (msgType m) src then s
  else if !frameGood m then linkFlit 0xE1 1 src seq (count 0x705003 1 s)
  else if msgType m = 1 ∧ bit (fieldAt m 1 1) 0 then deliver m (count 0x705002 1 (linkFlit 0xE0 0 src seq s))
  else takeSequenced m s

/-- A row's message is of the row's type; one damaged on the way is answered as such whatever it was (R303). -/
def typeFits (typ : Nat) (m : Bytes) : Bool := !frameGood m || msgType m == typ

/-- DISCOVER. -/
def execDiscover (msg : Bytes) (s : State) : Host.Outcome State Fault Refusal :=
  if typeFits 1 msg then .next (receive msg s) else .fault .mortarNotDue

/-- CAPS. -/
def execCaps (msg : Bytes) (s : State) : Host.Outcome State Fault Refusal :=
  if typeFits 2 msg then .next (receive msg s) else .fault .mortarNotDue

/-- HEARTBEAT. -/
def execHeartbeat (msg : Bytes) (s : State) : Host.Outcome State Fault Refusal :=
  if typeFits 3 msg then .next (receive msg s) else .fault .mortarNotDue

/-- PARTIAL_SUM. -/
def execPartialSum (msg : Bytes) (s : State) : Host.Outcome State Fault Refusal :=
  if typeFits 4 msg then .next (receive msg s) else .fault .mortarNotDue

/-- HISTOGRAM. -/
def execHistogram (msg : Bytes) (s : State) : Host.Outcome State Fault Refusal :=
  if typeFits 5 msg then .next (receive msg s) else .fault .mortarNotDue

/-- PETAL_LIST. -/
def execPetalList (msg : Bytes) (s : State) : Host.Outcome State Fault Refusal :=
  if typeFits 6 msg then .next (receive msg s) else .fault .mortarNotDue

/-- BLOOM_CLAIM. -/
def execBloomClaim (msg : Bytes) (s : State) : Host.Outcome State Fault Refusal :=
  if typeFits 7 msg then .next (receive msg s) else .fault .mortarNotDue

/-- BOND_UPDATE. -/
def execBondUpdate (msg : Bytes) (s : State) : Host.Outcome State Fault Refusal :=
  if typeFits 8 msg then .next (receive msg s) else .fault .mortarNotDue

/-- STATE_PAGE. -/
def execStatePage (msg : Bytes) (s : State) : Host.Outcome State Fault Refusal :=
  if typeFits 9 msg then .next (receive msg s) else .fault .mortarNotDue

/-! ### Heartbeats -/

/-- A HEARTBEAT request. -/
def heartbeatRequest : Bytes := toLe 16 0

/-- The idle interval ends: DISCOVER to Silent peers, requests to Present peers while no step runs (R299, R301). -/
def idleHeartbeat (s : State) : State :=
  let silent := (s.mortar.peers.filter fun e => e.2.state == 3).map (·.1)
  let s := sendAll 1 silent (toLe 8 2) s
  if s.steps.run.isSome then s else sendAll 3 s.presentPeers heartbeatRequest s

/-- Present members from which the unit that took the record unit's place has had nothing for eight step heartbeat
intervals, while a group of its own waits: they send to another taker (R327; log entry 80). -/
def State.withheld (s : State) : List Nat :=
  match s.steps.run with
  | some r =>
    let waits := (List.range r.groups.length).any fun g => (s.view g).any fun v => v.scored && !v.gr.written
    if r.takeover && decide (8 ≤ r.quiet) && waits then
      s.members.filter fun m => m != s.address && s.present m && !r.heard.contains m
    else []
  | none => []

/-- Rows whose contributions a taker does not receive end under R324 there. -/
def loseWithheld (s : State) : State :=
  if s.withheld = [] then s else pump (noteMissed (s.withheld.foldl (fun s m => noteLost m s) s))

/-- The step interval ends: requests to the members (R301); an Absent one is not probed (R299). -/
def stepHeartbeat (s : State) : State :=
  let s := sendAll 3 (s.members.filter fun m => m != s.address && (s.peer m).state != 4) heartbeatRequest s
  loseWithheld (withRun (fun r => if r.takeover then { r with quiet := r.quiet + 1 } else r) s)

/-- HEARTBEAT_TIMER. -/
def execHeartbeatTimer (idle : Bool) (s : State) : Host.Outcome State Fault Refusal :=
  if idle then .next (idleHeartbeat s)
  else if s.steps.run.isSome then .next (stepHeartbeat s) else .fault .mortarNotDue

end Sys2Proof.Machine
end

