-- ==== Sys2Proof/Machine/Network.lean ====
section
/-! DEFINITION. Error responses at the network ports (R506, table 17.7) and conflicts of the lead token (R522 to R525). -/

namespace Sys2Proof.Machine

/-! ### Error responses -/

/-- The port a transaction runs on (tables 2.2, 17.7). -/
def portFits (port : Nat) : Transaction → Bool
  | .manifest | .headParams _ | .scoreParams _ | .learnParams _ | .rowData _ | .bloomWrite _ | .commandRead _
    | .tokenList _ | .commandWrite _ _ | .swapParams _ => port == 0
  | .historyRead _ | .historyWrite _ _ | .resumeRead _ | .directoryRead => port == 1
  | .wipeWrite _ => between 1 port 2
  | .spillWrite _ _ | .spillRead _ | .gradientWrite _ => port == 2
  | .swapRead _ block => port == block % 4
  | .snapshotRead | .restoreRead | .restoreWrite _ | .holdWrite _ | .holdRead => port == 3

/-- The address of a write. -/
def writtenAt : Transaction → Option Nat
  | .bloomWrite a | .gradientWrite a | .historyWrite _ a | .commandWrite _ a | .spillWrite _ a | .restoreWrite a
    | .holdWrite a | .wipeWrite a => some a
  | _ => none

/-- A step's reads and writes are under way. -/
def State.stepOpen (s : State) : Bool := s.steps.run.isSome

/-- A step has begun and its manifest is not yet judged. -/
def State.beforeAdmission (s : State) : Bool := s.steps.run.any fun r => !r.admitted

/-- A rerun reads the manifest again, until its own work has begun (R524). -/
def State.rereads (s : State) : Bool :=
  s.steps.run.any fun r => r.rerun && r.admitted && r.groups.all fun g => !g.intake && g.drained.isEmpty && g.firstPass == 0

/-- The next record of a tenant's batch is an APPEND about to be read. -/
def State.appendNext (s : State) (t : Nat) : Bool :=
  let b := s.batch t
  b.state == 1 && decide (b.done < b.count) && (s.nextRecord t).2.op == 3

/-- The transaction can be outstanding. -/
def State.outstanding (s : State) : Transaction → Bool
  | .manifest => s.beforeAdmission || s.rereads
  | .headParams _ | .scoreParams _ | .learnParams _ => s.beforeAdmission
  | .rowData _ | .spillRead _ | .spillWrite _ _ | .bloomWrite _ | .gradientWrite _ => s.stepOpen
  | .historyRead _ => s.stepOpen || s.contexts.batches.any fun e => between 1 e.2.state 2 || !e.2.copies.isEmpty
  | .historyWrite slot _ => (s.context slot).isSome
  | .commandRead t => (s.batch t).state == 1 && decide ((s.batch t).done < (s.batch t).count)
  | .tokenList t => s.appendNext t
  | .commandWrite t _ => (s.batch t).state == 1 || (s.batch t).state == 2
  | .swapRead slot block => (s.head slot).state == 1 && decide (block < 128 * (s.head slot).next.framesNeeded)
  | .swapParams slot => (s.head slot).state == 1
  | .resumeRead slot => (s.context slot).any (·.state == 4)
  | .snapshotRead => s.snapshot.run.isSome
  | .restoreRead | .restoreWrite _ => s.restore.run.isSome
  | .holdWrite _ => s.hold.receiving.any fun r => !r.writing.isEmpty
  | .holdRead => s.hold.sending.isSome
  | .directoryRead => between 1 s.dict.commitState 3
  | .wipeWrite a => s.life.wiping && s.life.record.areas.any fun x => decide (x.1 ≤ a) && decide (a < x.1 + x.2)

/-- Rows end with a status; before admission the read is noted, and the rows end once admitted. -/
def readFails (what : Transaction) (rows : List Nat) (status : Nat) (s : State) : State :=
  if s.beforeAdmission then withRun (fun r => { r with readErrors := r.readErrors ++ [what] }) s
  else markRows rows status s

/-- A record that a batch ran OK: tenant, address, content, result slot. -/
structure Served where
  tenant : Nat
  addr : Nat
  record : CtxRecord
  result : Nat
deriving DecidableEq, Repr

/-- The last records batches ran, where they wrote a page of this slot, their own or a FORK's parent's. -/
def State.lastServed (s : State) (slot : Nat) : List Served :=
  s.contexts.batches.filterMap fun e =>
    let b := e.2
    let addr := b.addr + 32 * (b.done - 1)
    let x : Served := { tenant := e.1, addr := addr, record := CtxRecord.parse (s.bytesAt addr 32), result := s.numAt (addr + 22) 2 }
    if between 1 b.state 2 && decide (0 < b.done) && between 1 x.record.op 3 &&
      (x.result == slot || (x.record.op == 2 && x.record.slot == slot)) && s.numAt (addr + 6) 2 == 0
    then some x else none

/-- The leaf that a FORK gave its parent is gone again: the leaf above, which it closed, is the parent's as before (R391).
`old` is the state before the child was lost; the two leaves of one fork have numbers in a row. -/
def rejoinLeaf (old : State) (parent child : Nat) (s : State) : State :=
  match s.context parent, old.context child with
  | some p, some c =>
    let n := s.node p.leaf
    match n.parent with
    | none => s
    | some above =>
      if c.leaf = p.leaf + 1 ∧ n.tokens = [] ∧ (old.node c.leaf).parent = some above ∧ (s.node above).refs = 1 then
        dirtySlot parent (setContext parent { p with leaf := above }
          (dirtyNode n { s with contexts := { s.contexts with nodes := eraseKey s.contexts.nodes p.leaf } }))
      else s
  | _, _ => s

/-- What else a FORK changed is as it found it: the child is Free where its parent is the slot lost, else the parent has its
leaf back (R391; log entry 82). -/
def unfork (old : State) (slot : Nat) (x : Served) (s : State) : State :=
  if x.record.op ≠ 2 then s
  else if x.result = slot then rejoinLeaf old x.record.slot slot s
  else freeSlot x.result s

/-- An OPEN or FORK that does not end OK after all is not counted (table 13.13). -/
def uncount (x : Served) (s : State) : State :=
  if x.record.op = 3 then s else setCounter 0x708001 (s.counter 0x708001 - 1) s

/-- The record ends CONTEXT_NOT_OPEN after all, with the results of R390 (table 17.7). -/
def failServed (old : State) (slot : Nat) (s : State) (x : Served) : State :=
  let s := uncount x (unfork old slot x s)
  if x.record.op = 1 then writeResults x.addr 0x0D02 0 0 s
  else writeResults x.addr 0x0D02 x.record.slot (s.lengthSeen x.tenant x.record.slot) s

/-- A history page write fails: the slot is lost, its rows end MEMORY_UNCORRECTABLE, its command CONTEXT_NOT_OPEN. -/
def loseWritten (slot : Nat) (s : State) : State :=
  (s.lastServed slot).foldl (failServed s slot) (loseContext slot (markRows (s.rowsOfSlot slot) 0x1120 s))

/-- A batch ends with state 4. -/
def stopBatch (t : Nat) (s : State) : State := setBatch t { s.batch t with state := 4, held := false } s

/-- A manifest read fails: noted for admission, or in a rerun refused as at a begin (R422, R524). -/
def manifestFails (s : State) : State :=
  match s.steps.run with
  | some r =>
    if r.admitted then refuseManifest r 0x0E22 s else withRun (fun r => { r with readErrors := r.readErrors ++ [.manifest] }) s
  | none => s

/-- The outcome of table 17.7. -/
def errorOutcome (what : Transaction) (s : State) : State :=
  match what with
  | .manifest => manifestFails s
  | .headParams _ | .scoreParams _ | .learnParams _ => withRun (fun r => { r with readErrors := r.readErrors ++ [what] }) s
  | .rowData rows => readFails what rows 0x1121 s
  | .historyRead rows => readFails what rows 0x1121 s
  | .spillRead rows => markRows rows 0x0803 s
  | .spillWrite rows _ => markRows rows 0x0803 s
  | .bloomWrite _ | .gradientWrite _ => withRun (fun r => { r with stepStatus := 0x1130 }) s
  | .historyWrite slot _ => loseWritten slot s
  | .commandRead t => stopBatch t s
  | .commandWrite t _ => stopBatch t s
  | .tokenList t => setBatch t { s.batch t with listError := true } s
  | .swapRead slot _ | .swapParams slot => swapSourceError slot s
  | .resumeRead slot => loseContext slot s
  | .snapshotRead => failSnapshot 3 s
  | .restoreRead => failRestore 2 s
  | .restoreWrite _ => failRestore 2 s
  | .holdWrite _ | .holdRead | .directoryRead | .wipeWrite _ => s

/-- The counts and the event of R506, then the outcome. -/
def errorResponse (port : Nat) (what : Transaction) (s : State) : State :=
  let s := count (0x700009 + port) 1 s
  let s := match writtenAt what with
    | some a => raiseCount 0x1105 0x70A209 a port 0 s
    | none => s
  errorOutcome what s

/-- NETWORK_ERROR_RESPONSE: one that answers no transaction outstanding is accepted and discarded, as is every one while
the ports are isolated (R76, R83, R176). -/
def execNetworkErrorResponse (port : Nat) (what : Transaction) (s : State) : Host.Outcome State Fault Refusal :=
  .next (if s.portsUp && portFits port what && s.outstanding what then errorResponse port what s else s)

/-! ### The lead token -/

/-- A mark of a message sent, or of a walk held: the rerun does both again. -/
def Mark.redone (m : Mark) : Bool :=
  match m with
  | .petals down _ => down
  | _ => false

/-- A pass group before its work; what peers sent and what has been compared is kept (R524, R327). -/
def GroupRun.again (me : Nat) (g : GroupRun) : GroupRun :=
  { g with
    intake := false, filled := 0, tiles := 0, firstPass := 0, drained := [], criticDone := false, residual := none, secondPass := false, written := false
    acknowledged := false, sent := g.sent.filter (fun k => k.1 == me && !k.2.redone), ended := [] }

/-- The step runs again with the admission outcome of each row (R523, R524). -/
def rerunStep (s : State) : State :=
  clearColumns <| withRun (fun r => { r with
    readErrors := [], groups := r.groups.map (GroupRun.again s.address), rows := r.rows.map fun x => { x with full := false }
    finals := [], summaryDone := false, spill := 0, places := [], rerun := true }) s

/-- The number of the running step, or 0. -/
def State.runningNumber (s : State) : Nat :=
  match s.steps.run with
  | some r => r.head.number
  | none => 0

/-- The step is gone without a boundary: what waited for one is done as at the end of a lane reset (R70), a Restore Go
and tests that waited for action 7 with it (R516, R535). -/
def settleAbandoned (s : State) : State :=
  let s := startHeldSwaps (actionFive true (actionFour (applyCancels (releaseReserved s))))
  let s := if s.fseq.reload then reloadMicro s else s
  let s := if s.restore.requested then startRestore s else s
  beginLatched (startWaitingTests s)

/-- A conflict while the west half is fenced: the step is abandoned, the unit quiesced (R525). -/
def quiesceUnit (s : State) : State :=
  let n := s.runningNumber
  let ran := s.stepRunning
  let s := raiseCount 0x110B 0x70A208 n 3 0
    (clearColumns { s with steps := { s.steps with run := none }, restore := { s.restore with quiesced := 2 } })
  if ran then settleAbandoned (clearStarts s) else clearStarts s

/-- A conflict: the west half is fenced, a step before its boundary runs again (R523). -/
def leadConflict (west : Bool) (s : State) : State :=
  if s.upkeep.westFenced then quiesceUnit s
  else
    let s' := { s with upkeep := { s.upkeep with westFenced := true } }
    rerunStep (raiseCount 0x110B 0x70A208 s.runningNumber (if west then 1 else 2) 0 s')

/-- LEAD_CONFLICT: the claim lines are compared while the lane clock runs (R522). -/
def execLeadConflict (west : Bool) (s : State) : Host.Outcome State Fault Refusal :=
  if s.sensing.power = .active ∧ s.sensing.laneRow < 4 then .next (leadConflict west s) else .fault .stepNotDue

end Sys2Proof.Machine
end

