-- ==== Sys2Proof/Machine/Reading.lean ====
section
/-! DEFINITION. What the dictionary's objects read (R447, R448, R467, R475, tables 15.13 and those of 15.17), and which
accesses the life-cycle state and the requester allow (R450, R490 to R493). -/

namespace Sys2Proof.Machine

/-! ### Current values -/

/-- An event record (table 17.1). -/
def Event.encode (e : Event) : Bytes :=
  toLe 2 e.code ++ toLe 2 (e.source % 16 * 4096 + e.source / 16) ++ toLe 4 e.sequence ++ toLe 8 e.time ++ toLe 8 e.argWide ++
  toLe 4 e.argA ++ toLe 2 e.argB ++ toLe 2 0

/-- Event Window (table 17.4). -/
def State.eventWindow (s : State) : Bytes :=
  padTo 1024 (((s.events.events.filter (·.readable)).take 32).map Event.encode).flatten

/-- Power State (table 3.5). -/
def powerCode : Power → Nat
  | .off => 0
  | .dormant => 1
  | .standby => 2
  | .active => 3

/-- A Bool as an object reads it. -/
def boolVal (b : Bool) : Nat := if b then 1 else 0

/-- Life cycle, persistence (tables 16.2, 15.11). -/
def State.readLife (s : State) (key : Nat) : Option Nat :=
  match key with
  | 0x100004 => some Config.siliconStep.toNat
  | 0x100005 => some Config.instanceNumber.toNat
  | 0x100007 => some Config.chipIdentity.toNat
  | 0x1E0001 => some s.life.record.state
  | 0x1E0002 => some s.life.record.transitions
  | 0x1E0003 => some s.life.record.failures
  | 0x1E1001 => some makerKey
  | 0x1E1002 => some s.ownerKey
  | 0x1E2002 => some (s.life.challenge.getD 0)
  | 0x1E3004 => some s.life.transition
  | 0x1E3005 => some s.life.reason
  | 0x1F2002 => some s.dict.storeState
  | 0x1F2003 => some s.nvm.storeCount
  | 0x1F2102 => some s.dict.settingsSource
  | _ => none

/-- Configuration and steps (tables 15.9, 18.4, 5.5, 8.3, 13.6, 13.9, 14.1). -/
def State.readConfig (s : State) (key : Nat) : Option Nat :=
  match key with
  | 0x200003 => some s.dict.commitState
  | 0x200004 => some s.dict.commitTime
  | 0x200005 => some (boolVal s.stagedDiffers)
  | 0x200021 => some s.upkeep.modeReason
  | 0x202401 => some s.freeFrames
  | 0x203003 => some s.steps.spillPeak
  | 0x205003 => some s.historyFree
  | 0x205006 => some s.pauseFree
  | 0x206003 => some s.contexts.refuseReason
  | 0x206004 => some s.contexts.usable
  | 0x207004 => some s.stepState
  | 0x207005 => some s.steps.lastNumber
  | 0x207006 => some s.steps.lastStatus
  | 0x207007 => some (boolVal s.steps.latched.isSome)
  | _ => none

/-- Clocks, power and sensing (table 3.5). -/
def State.readSensing (s : State) (key : Nat) : Option Nat :=
  match key with
  | 0x300001 => some (powerCode s.sensing.power)
  | 0x300006 => some (100 * s.laneEdges)
  | 0x300007 => some (boolVal s.boundary.unitPresent)
  | 0x300101 => some s.sensing.railE
  | 0x300102 => some s.sensing.railW
  | 0x300103 => some s.sensing.railHs
  | 0x300104 => some s.sensing.railAon
  | 0x300301 => some s.sensing.headLatency
  | 0x300302 => some s.sensing.tierA
  | 0x300303 => some s.sensing.tierB
  | _ =>
    if between 0x300201 key 0x300208 then some (unsigned32 (s.sensing.temps.getD (key - 0x300201) 0)) else none

/-- Bond, mortar and function sequencer (tables 10.13, 6.12). -/
def State.readMortar (s : State) (key : Nat) : Option Nat :=
  let p := s.peer (s.rwVal 0x502002)
  match key with
  | 0x500002 => some (if s.life.record.state = 2 ∨ s.life.record.state = 4 then s.rwVal 0x500002 else 0)
  | 0x501005 => some s.mortar.bondDigest
  | 0x501006 => some s.treeVersion
  | 0x501007 => some s.mortar.refuseReason
  | 0x502001 => some (s.mortar.peers.filter fun e => e.2.state != 0).length
  | 0x502003 => some p.state
  | 0x502004 => some (p.roundTrip.getD 0)
  | 0x502005 => some p.roundTripMax
  | 0x502006 => some (leNat p.caps)
  | 0x600001 => some s.fseq.source
  | 0x600002 => some s.fseq.digest
  | 0x600003 => some s.fseq.version
  | 0x600004 => some s.fseq.installState
  | 0x600005 => some s.fseq.rejectReason
  | 0x600006 => some (boolVal s.fseq.heirloom)
  | _ => none

/-- Events, snapshots, hold, restore, tests (tables 17.4, 17.10, 17.12, 18.3). -/
def State.readReliability (s : State) (key : Nat) : Option Nat :=
  match key with
  | 0x710001 => some s.eventCount
  | 0x710002 => some (leNat s.eventWindow)
  | 0x800005 => some s.snapshot.state
  | 0x800006 => some s.snapshot.lastEpoch
  | 0x800007 => some s.snapshot.lastStep
  | 0x800008 => some s.snapshot.lastDigest
  | 0x800103 => some (s.hold.source.getD 0)
  | 0x800104 => some (leNat s.holdDirectory)
  | 0x801007 => some s.restore.state
  | 0x801008 => some s.restore.reason
  | 0x801009 => some s.restore.chunksDone
  | 0x80100A => some s.restore.quiesced
  | 0x900003 => some s.upkeep.bistState
  | 0x900004 => some s.upkeep.bistFailures
  | 0x900005 => some s.upkeep.bistTime
  | _ => none

/-- Objects held once for each head slot, tenant or function (tables 5.5, 14.5, 13.3, 6.12). -/
def State.readMember (s : State) (key : Nat) : Option Nat :=
  let index := key / 256
  let sub := key % 256
  if 0x2020 ≤ index ∧ index ≤ 0x2023 then
    let h := s.head (index - 0x2020)
    match sub with
    | 0x0E => some h.state
    | 0x0F => some h.frames
    | 0x10 => some (s.swapBytes (index - 0x2020))
    | 0x11 => some h.paramCrc
    | _ => none
  else if 0x4000 ≤ index ∧ index ≤ 0x403F then
    let t := index - 0x4000
    match sub with
    | 0x05 => some (s.budget t).used
    | 0x06 => some (s.budget t).period
    | 0x07 => some (s.budget t).reserved
    | 0x23 => some (s.batch t).state
    | 0x25 => some (leNat (s.contextEntry t))
    | _ => none
  else if index = 0x6002 then some (s.fseq.info (sub - 1))
  else if (counterType key).isSome then some (s.counter key)
  else none

/-- The current value of an object, the staged one of an RWS object in the staged view (table 15.2, R467). -/
def State.objValue (s : State) (key : Nat) (staged : Bool) : Nat :=
  match objInfo key with
  | none => 0
  | some o =>
    if o.access = 4 ∨ o.access = 5 then 0
    else if o.access = 3 then (if staged then s.stagedVal key else s.cfg key)
    else match s.readMember key with
      | some v => v
      | none =>
        let special :=
          if key < 0x200000 then s.readLife key
          else if key < 0x300000 then s.readConfig key
          else if key < 0x400000 then s.readSensing key
          else if key < 0x700000 then s.readMortar key
          else s.readReliability key
        special.getD (s.rwVal key)

/-! ### Closure -/

/-- What a requester may reach of a group: nothing, reads, or reads and writes. -/
inductive Reach where
  | closed | reads | all
deriving DecidableEq, Repr

/-- The reach of a column of states (table 16.7): RAW, MAKER, PROVISIONED, FIELD, RETURNED, SCRAPPED. -/
def column (state : Nat) (xs : List Reach) : Reach := xs.getD (state - 1) .closed

/-- Groups reached in MAKER and FIELD only. -/
def inService (state : Nat) : Reach := column state [.closed, .all, .closed, .all, .closed, .closed]

/-- Groups read elsewhere and reached in MAKER and FIELD. -/
def readElsewhere (state : Nat) : Reach := column state [.reads, .all, .reads, .all, .reads, .closed]

/-- The row of table 16.7 that holds an object. -/
def stateReach (state key : Nat) : Reach :=
  let index := key / 256
  if index = 0x1000 then .reads
  else if index = 0x1E38 then readElsewhere state
  else if index < 0x1F00 then
    if state = 6 then (if index = 0x1E00 then .reads else .closed)
    else if key = 0x1E1002 then (if state = 2 then .all else .reads)
    else .all
  else if index = 0x1F20 ∨ index = 0x1F21 then inService state
  else if index = 0x1F30 ∨ index = 0x1F31 then column state [.all, .all, .all, .all, .all, .closed]
  else if index < 0x3000 then inService state
  else if index < 0x4000 then readElsewhere state
  else if index < 0x6000 then inService state
  else if index < 0x8000 then readElsewhere state
  else if index < 0x9000 then inService state
  else if key = 0x900001 ∨ key = 0x900002 then column state [.all, .all, .closed, .all, .all, .closed]
  else column state [.all, .all, .closed, .reads, .all, .closed]

/-- Who asks (R492). -/
inductive Asker where
  | operator
  | tenant (t : Nat)
  /-- an endpoint without an entry in Requester Map -/
  | stranger
deriving DecidableEq, Repr

/-- The kind of a mesh requester. -/
def State.asker (s : State) (eid : Byte) : Asker :=
  if eid = 0x00 ∨ eid = 0xFF then .stranger
  else
    let v := s.rwVal (0x1E3800 + eid.toNat)
    if v = 0xFF then .operator else .tenant v

/-- Identity and Life-Cycle State. -/
def isIdentity (key : Nat) : Bool := key / 256 == 0x1000 || key == 0x1E0001

/-- What the requester's kind leaves (R492). -/
def askerReach (a : Asker) (key : Nat) : Reach :=
  match a with
  | .operator => .all
  | .stranger => if isIdentity key then .reads else .closed
  | .tenant t =>
    if isIdentity key then .reads
    else if key / 256 ≠ 0x4000 + t then .closed
    else if between 0x01 (key % 256) 0x07 then .reads
    else if between 0x20 (key % 256) 0x25 then .all
    else .closed

/-- An access is open: both reaches allow it; in a group that is only read, CMD and WO objects are closed (R490). -/
def State.permits (s : State) (a : Asker) (o : ObjInfo) (key : Nat) (write : Bool) : Bool :=
  let ok := fun (r : Reach) => match r with
    | .closed => false
    | .reads => !write && o.access != 4 && o.access != 5
    | .all => true
  ok (stateReach s.life.record.state key) && ok (askerReach a key)

/-- A wipe that the record of the last bring-up has pending is not done: writes outside these ranges are not accepted yet
(R488). -/
def State.writeWaits (s : State) (key : Nat) : Bool :=
  s.life.record.wipePending && !s.life.ownWipe && key / 0x10000 != 0x10 && key / 0x10000 != 0x1E

end Sys2Proof.Machine
end

