-- ==== Sys2Proof/Machine/Dictionary.lean ====
section
/-! DEFINITION. Writes and commands (R448, R449, R463 to R473, R476, R500, R548), dictionary requests and their responses
(R451 to R457, R493), the mirror (R458 to R461) and MCTP control messages (R57, R58). -/

namespace Sys2Proof.Machine

/-! ### Commands of the dictionary itself -/

/-- Commit (R463): handled at once while no step runs, at the end of a lane reset while one runs. One more while one is pending
changes nothing, Command Rejects included (the model's choice, log entry 90). -/
def commitEffect (s : State) : State :=
  if s.dict.commitState = 1 then s
  else
    let s := { s with dict := { s.dict with commitState := 1 } }
    if s.stepState = 0 ∧ s.boundary.phase ≠ .draining ∧ s.boundary.phase ≠ .laneState then idleCommit s else s

/-- The values of a store's objects that persist (R471). -/
def persisted (st : Store) : Store := st.filter fun e => (objInfo e.1).any (·.persist)

/-- Store (R471). -/
def storeEffect (s : State) : State :=
  { s with dict := { s.dict with
      storing := some (persisted s.dict.rw, persisted s.dict.applied), storeState := 1 } }

/-- STORE_DONE (R471): the commit point, or a write error. -/
def endStore (img : Store × Store) (ok : Bool) (s : State) : State :=
  let s := { s with dict := { s.dict with storing := none, storeState := if ok then 2 else 3 } }
  if ok then raise 0x0F02 { s with nvm := { s.nvm with settings := some img, storeCount := bump 32 s.nvm.storeCount 1 } }
  else raise 0x0F03 s

/-- STORE_DONE. -/
def execStoreDone (ok : Bool) (s : State) : Host.Outcome State Fault Refusal :=
  match s.dict.storing with
  | some img => .next (endStore img ok s)
  | none => .fault .dictNotDue

/-- Restore Defaults (R473). -/
def restoreDefaultsEffect (s : State) : State :=
  { s with
    dict := { s.dict with rw := [], staged := [] }
    life := { s.life with ownerBuffer := if s.life.record.state = 2 then some 0 else s.life.ownerBuffer } }

/-- Counter Clear (R476): Peak Temperature too. -/
def counterClearEffect (s : State) : State := { s with dict := { s.dict with counters := [] } }

/-- Drops the first `n` readable events. -/
def popEvents : Nat → List Event → List Event
  | _, [] => []
  | 0, es => es
  | n + 1, e :: es => if e.readable then popEvents n es else e :: popEvents (n + 1) es

/-- Event Pop (table 17.4). -/
def eventPopEffect (n : Nat) (s : State) : State :=
  { s with events := { s.events with events := popEvents n s.events.events } }

/-- The oldest event not yet readable becomes so. -/
def readFirst : List Event → List Event
  | [] => []
  | e :: es => if e.readable then e :: readFirst es else { e with readable := true } :: es

/-- EVENT_READABLE (R499): 4 slow cycles after the event's time stamp. -/
def execEventReadable (s : State) : Host.Outcome State Fault Refusal :=
  if s.events.events.any (fun e => !e.readable) then
    .next { s with events := { s.events with events := readFirst s.events.events } }
  else .fault .dictNotDue

/-! ### Writes -/

/-- Conditions of a write beside the value's fixed range: R295, R108, R515, R520, R534. -/
def State.writeRange (s : State) (key v : Nat) : Bool :=
  if key = 0x500001 then s.rwVal 0x500002 == 0
  else if key = 0x300209 then decide (v ≤ s.rwVal 0x30020A)
  else if key = 0x30020A then decide (s.rwVal 0x300209 ≤ v)
  else if key = 0x800001 ∨ key = 0x800101 ∨ key = 0x800102 then !s.holdBusy
  else if key = 0x801001 then s.restore.maxEpoch.all fun m => decide (m < v)
  else if key = 0x900001 then s.life.record.state != 4 || !bit v 10
  else true

/-- A value in Range starts a command: BUSY or COMMIT_PENDING (R453, R464, R473), 0 where it starts. -/
def State.commandResult (s : State) (key : Nat) : Nat :=
  if key = 0x1F2001 ∨ key = 0x600102 ∨ key = 0x600103 then (if s.writerBusy then 5 else 0)
  else if key = 0x1F2101 then (if s.stepState ≠ 0 then 5 else if s.dict.commitState = 1 then 4 else 0)
  else if key = 0x200002 then (if s.dict.commitState = 1 then 4 else 0)
  else if 0x4000 ≤ key / 256 ∧ key / 256 ≤ 0x403F then (if between 1 (s.batch (key / 256 - 0x4000)).state 2 then 5 else 0)
  else 0

/-- The effect of a command object. -/
def commandEffect (key v : Nat) (s : State) : State :=
  let index := key / 256
  if 0x2020 ≤ index ∧ index ≤ 0x2023 then
    if key % 256 = 0x0C then swapGoEffect (index - 0x2020) s else swapAbortEffect (index - 0x2020) s
  else if 0x4000 ≤ index ∧ index ≤ 0x403F then batchGoEffect (index - 0x4000) s
  else match key with
    | 0x1E2001 => challengeEffect s
    | 0x1E3003 => transitionGoEffect s
    | 0x1F2001 => storeEffect s
    | 0x1F2101 => restoreDefaultsEffect s
    | 0x1F3001 => laneResetEffect s
    | 0x1F3101 => unitResetEffect s
    | 0x200001 => commitEffect s
    | 0x200002 => restage s
    | 0x207003 => stepGoEffect s
    | 0x600102 => installEffect s
    | 0x600103 => factoryRestoreEffect s
    | 0x700101 => counterClearEffect s
    | 0x710003 => eventPopEffect v s
    | 0x800004 => snapshotGoEffect s
    | 0x800105 => holdClearEffect s
    | 0x800108 => holdSendGoEffect s
    | 0x801006 => restoreGoEffect s
    | 0x900002 => bistGoEffect s
    | _ => s

/-- The value is in Range of a command object (R448). -/
def commandInRange (key v : Nat) : Bool := if key = 0x710003 then between 1 v 256 else commandValue key == some v

/-- A unit holds no entry for its own address (R297): one it had for the address it takes is gone. -/
def takeAddress (v : Nat) (s : State) : State :=
  dropLate v { s with mortar := { s.mortar with peers := eraseKey s.mortar.peers v } }

/-- A plain RW or WO object takes its value (R469). -/
def setPlain (key v : Nat) (o : ObjInfo) (s : State) : State :=
  if key = 0x600101 then { s with fseq := { s.fseq with buffer := .written (toLe 58176 v) } }
  else if key = 0x1E1002 then { s with life := { s.life with ownerBuffer := some v } }
  else if o.access = 4 then { s with dict := { s.dict with held := insertKey s.dict.held key v } }
  else
    let s := setRw key (objMask key v) s
    if key = 0x500002 ∧ v = 1 then broadcastDiscover s
    else if key = 0x500001 then takeAddress v s
    else s

/-- An open write of a value to an object: the result of table 15.5 and the state (R448, R449). -/
def writeValue (key v : Nat) (o : ObjInfo) (s : State) : Nat × State :=
  if o.access = 1 then (2, s)
  else if o.access = 5 then
    if !commandInRange key v then (3, s)
    else
      let r := s.commandResult key
      if r ≠ 0 then (r, s) else (0, commandEffect key v s)
  else if !(objRange key v && s.writeRange key v) then (3, s)
  else if o.access = 3 then (if s.dict.commitState = 1 then (4, s) else (0, setStaged key (objMask key v) s))
  else (0, setPlain key v o s)

/-- A result is counted: 1 to 6 in Command Rejects, 7 in MCTP Malformed (table 15.14). -/
def countResult (r : Nat) (s : State) : State :=
  if r = 0 then s else if r = 7 then count 0x700004 1 s else reject s

/-- Advances Access Refusals (R450). -/
def refuseAccess (s : State) : State := count 0x700002 1 s

/-! ### Requests -/

/-- A request read from a message body (table 15.3). -/
structure Request where
  command : Nat
  tag : Nat
  last : Bool
  staged : Bool
  key : Nat
  offset : Nat
  length : Nat
  value : Nat
  data : Bytes
deriving DecidableEq, Repr

/-- Reads a request. -/
def Request.read (m : Bytes) : Request :=
  { command := fieldAt m 5 1 % 128, tag := fieldAt m 6 1, last := bit (fieldAt m 7 1) 1, staged := bit (fieldAt m 7 1) 0
    key := fieldAt m 8 2 * 256 + fieldAt m 10 1, offset := fieldAt m 16 4, length := fieldAt m 20 4, value := fieldAt m 16 8
    data := m.drop 32 }

/-- The bytes every dictionary message begins with (R451, R455). -/
def messageOurs (m : Bytes) : Bool := m.take 5 == [0x7F, 0x00, 0xF0, 0x5A, 0x2C]

/-- A request obeys the layout of its command (table 15.4, R452). -/
def requestFormed (m : Bytes) : Bool :=
  let n := m.length
  let len := fieldAt m 20 4
  decide (fieldAt m 5 1 < 128) && decide (fieldAt m 7 1 < 4) && zeroBytes m 11 16 &&
    match fieldAt m 5 1 % 128 with
    | 1 => n == 16
    | 2 => n == 24
    | 3 => n == 24 && between 1 len 1024
    | 4 => between 1 len 1024 && n == 32 + len && zeroBytes m 24 32
    | 5 => n == 16
    | _ => false

/-- The codes of byte 12: none for a closed object (R493). -/
def codesOf (o : ObjInfo) (isOpen : Bool) : Nat := if isOpen then o.type * 16 + o.access else 0

/-- A response: its header with what follows it; only OK carries more (R453). -/
def response (q : Request) (result codes : Nat) (body : Bytes) : Bytes :=
  [0x7F, 0x00, 0xF0, 0x5A, 0x2C] ++ toLe 1 (128 + q.command) ++ toLe 1 q.tag ++
  toLe 1 (2 * boolVal q.last + boolVal q.staged) ++ toLe 2 (q.key / 256) ++ toLe 1 q.key ++ toLe 1 result ++ toLe 1 codes ++
  toLe 3 0 ++ if result = 0 then body else []

/-- An object moved in segments (R455). -/
def ObjInfo.isBlock (o : ObjInfo) : Bool := o.type == 8 || o.type == 9

/-- The requester's open transfer of a kind. -/
def State.transferOf (s : State) (who : Requester) (writing : Bool) : Option Transfer :=
  s.dict.transfers.find? fun t => t.who = who && t.writing == writing

/-- Closes the requester's transfer of a kind. -/
def closeTransfer (who : Requester) (writing : Bool) (s : State) : State :=
  { s with dict := { s.dict with transfers := s.dict.transfers.filter fun t => !(t.who = who && t.writing == writing) } }

/-- Opens or goes on with a transfer. -/
def keepTransfer (t : Transfer) (s : State) : State :=
  let s := closeTransfer t.who t.writing s
  { s with dict := { s.dict with transfers := s.dict.transfers ++ [t] } }

/-- Opening a transfer replaces the requester's open one; beyond 8 of a kind it is BUSY (R456). -/
def openTransfer (who : Requester) (writing : Bool) (s : State) : Option State :=
  if (s.transferOf who writing).isSome then some (count 0x700005 1 (closeTransfer who writing s))
  else if 8 ≤ (s.dict.transfers.filter (·.writing == writing)).length then none
  else some s

/-- What a request gives: result, body, state. -/
structure Reply where
  result : Nat
  body : Bytes
  state : State

/-- The object is a counter kept in the lane domain: scoring, chains, learning, history, steps (R23; log entry 71). -/
def laneObject (key : Nat) : Bool := [0x7010, 0x7060, 0x7070, 0x7080, 0x7090].contains (key / 256)

/-- An access that needs a lane-domain block while the lane clock is gated starts it and returns to the state before
(R23, R92); the time it takes is not modelled (log entry 71). -/
def laneAccess (key : Nat) (s : State) : State :=
  if !laneObject key || !s.portsUp || s.sensing.waking.isSome then s
  else if s.sensing.power = .dormant then loseLanes (count 0x702004 1 s)
  else s

/-- READ. -/
def runRead (q : Request) (o : ObjInfo) (isOpen : Bool) (s : State) : Reply :=
  if !isOpen then ⟨0, toLe 8 0, refuseAccess s⟩
  else if o.isBlock then ⟨2, [], s⟩
  else
    let s := laneAccess q.key s
    ⟨0, toLe 8 (s.objValue q.key q.staged), s⟩

/-- WRITE: the value's low bytes (R452). -/
def runWrite (q : Request) (o : ObjInfo) (isOpen : Bool) (s : State) : Reply :=
  if !isOpen then ⟨0, [], refuseAccess s⟩
  else if o.isBlock then ⟨2, [], s⟩
  else
    let (r, s) := writeValue q.key (q.value % 2 ^ (8 * o.size)) o (laneAccess q.key s)
    ⟨r, [], s⟩

/-- The body of a READ_BLOCK response. -/
def blockBody (q : Request) (o : ObjInfo) (data : Bytes) : Bytes :=
  toLe 4 q.offset ++ toLe 4 data.length ++ toLe 4 o.size ++ toLe 4 0 ++ data

/-- A segment read from an open copy; the transfer closes at the object's end. -/
def readSegment (q : Request) (o : ObjInfo) (t : Transfer) (s : State) : Reply :=
  let n := min q.length (o.size - q.offset)
  let s := if o.size ≤ q.offset + n then closeTransfer t.who false s else keepTransfer { t with position := q.offset + n } s
  ⟨0, blockBody q o (slice t.data q.offset n), s⟩

/-- READ_BLOCK (R456, R493). -/
def runReadBlock (who : Requester) (q : Request) (o : ObjInfo) (isOpen : Bool) (s : State) : Reply :=
  if !isOpen then ⟨0, blockBody q o (List.replicate (min q.length (o.size - q.offset)) 0), refuseAccess s⟩
  else if !o.isBlock then ⟨2, [], s⟩
  else if q.offset = 0 then
    match openTransfer who false s with
    | none => ⟨5, [], s⟩
    | some s =>
      readSegment q o
        { who := who, writing := false, object := q.key, data := toLe o.size (s.objValue q.key q.staged), position := 0 } s
  else match s.transferOf who false with
    | some t => if t.object = q.key ∧ q.offset < o.size then readSegment q o t s else ⟨6, [], closeTransfer who false s⟩
    | none => ⟨6, [], s⟩

/-- A segment of a write: the whole value is written at the last one (R456). -/
def writeSegment (q : Request) (o : ObjInfo) (isOpen : Bool) (t : Transfer) (s : State) : Reply :=
  let data := t.data ++ q.data
  let ok := toLe 4 q.offset ++ toLe 4 q.length
  if o.size < data.length ∨ (q.last ∧ data.length ≠ o.size) then ⟨6, [], closeTransfer t.who true s⟩
  else if !q.last then ⟨0, ok, keepTransfer { t with data := data, position := data.length } s⟩
  else
    let s := closeTransfer t.who true s
    if !isOpen then ⟨0, ok, refuseAccess s⟩
    else
      let (r, s) := writeValue q.key (leNat data) o s
      ⟨r, ok, s⟩

/-- WRITE_BLOCK (R456, R493). -/
def runWriteBlock (who : Requester) (q : Request) (o : ObjInfo) (isOpen : Bool) (s : State) : Reply :=
  if isOpen && (!o.isBlock || o.access == 1) then ⟨2, [], s⟩
  else if q.offset = 0 then
    match openTransfer who true s with
    | none => ⟨5, [], s⟩
    | some s => writeSegment q o isOpen { who := who, writing := true, object := q.key, data := [], position := 0 } s
  else match s.transferOf who true with
    | some t =>
      if t.object = q.key ∧ q.offset = t.position then writeSegment q o isOpen t s else ⟨6, [], closeTransfer who true s⟩
    | none => ⟨6, [], s⟩

/-- ABORT (R457). -/
def runAbort (who : Requester) (q : Request) (s : State) : Reply :=
  let mine := fun (t : Transfer) => decide (t.who = who) && t.object == q.key
  if s.dict.transfers.any mine then
    ⟨0, [], { s with dict := { s.dict with transfers := s.dict.transfers.filter fun t => !mine t } }⟩
  else ⟨6, [], s⟩

/-- A request's commands that write. -/
def Request.writes (q : Request) : Bool := q.command == 2 || q.command == 4

/-- A well-formed request on an object (R453, R490 to R493). -/
def runObject (who : Requester) (q : Request) (o : ObjInfo) (isOpen : Bool) (s : State) : Reply :=
  match q.command with
  | 1 => runRead q o isOpen s
  | 2 => runWrite q o isOpen s
  | 3 => runReadBlock who q o isOpen s
  | 4 => runWriteBlock who q o isOpen s
  | _ => runAbort who q s

/-- What a malformed request on a closed object is answered: closure goes before every check of its layout (R493). -/
def closedBody (q : Request) (o : ObjInfo) : Bytes :=
  match q.command with
  | 1 => toLe 8 0
  | 3 => blockBody q o (List.replicate (min (min q.length 1024) (o.size - q.offset)) 0)
  | 4 => toLe 4 q.offset ++ toLe 4 q.length
  | _ => []

/-- A request on an object (R451, R453, R493): its response, or none while a wipe holds its write back (R488). -/
def runOn (a : Asker) (who : Requester) (m : Bytes) (q : Request) (o : ObjInfo) (s : State) : Option Bytes × State :=
  let isOpen := s.permits a o q.key q.writes
  let codes := codesOf o isOpen
  if !requestFormed m then
    if isOpen then (some (response q 7 codes []), countResult 7 s)
    else (some (response q 0 codes (closedBody q o)), refuseAccess s)
  else if isOpen && q.writes && s.writeWaits q.key then (none, s)
  else
    let r := runObject who q o isOpen s
    (some (response q r.result codes r.body), countResult r.result r.state)

/-- Runs a message; one too short for its header names no object. -/
def runMessage (a : Asker) (who : Requester) (m : Bytes) (s : State) : Option Bytes × State :=
  let q := Request.read m
  if m.length < 16 then (some (response q 7 0 []), countResult 7 s)
  else match objInfo q.key with
    | none => (some (response q 1 0 []), countResult 1 s)
    | some o => runOn a who m q o s

/-! ### The management mesh -/

/-- A message other than Set and Get Endpoint ID before an endpoint ID is assigned (R58). -/
def dropUnassigned (s : State) : State := raiseCount 0x0205 0x700003 0 0 0 s

/-- A dictionary message from an endpoint (R58, R455). -/
def meshRequest (eid : Byte) (m : Bytes) (s : State) : State :=
  if !s.managementUp then s
  else if s.dict.endpoint = 0 then dropUnassigned s
  else if !messageOurs m then count 0x700003 1 s
  else match runMessage (s.asker eid) (.endpoint eid) m s with
    | (some r, s) => sendMesh eid r s
    | (none, s) => s

/-- A row's message carries the row's command, or one no row has. -/
def commandFits (cmd : Nat) (m : Bytes) : Bool :=
  let c := fieldAt m 5 1 % 128
  !messageOurs m || c == cmd || c == 0 || decide (5 < c)

/-- WRITE. -/
def execWrite (eid : Byte) (msg : Bytes) (s : State) : Host.Outcome State Fault Refusal :=
  if commandFits 2 msg then .next (meshRequest eid msg s) else .fault .dictNotDue

/-- READ_BLOCK. -/
def execReadBlock (eid : Byte) (msg : Bytes) (s : State) : Host.Outcome State Fault Refusal :=
  if commandFits 3 msg then .next (meshRequest eid msg s) else .fault .dictNotDue

/-- WRITE_BLOCK. -/
def execWriteBlock (eid : Byte) (msg : Bytes) (s : State) : Host.Outcome State Fault Refusal :=
  if commandFits 4 msg then .next (meshRequest eid msg s) else .fault .dictNotDue

/-- ABORT. -/
def execAbort (eid : Byte) (msg : Bytes) (s : State) : Host.Outcome State Fault Refusal :=
  if commandFits 5 msg then .next (meshRequest eid msg s) else .fault .dictNotDue

/-- BLOCK_TRANSFER_TIMEOUT (R456). -/
def execBlockTransferTimeout (who : Requester) (writing : Bool) (s : State) : Host.Outcome State Fault Refusal :=
  if (s.transferOf who writing).isSome then .next (count 0x700005 1 (closeTransfer who writing s)) else .fault .dictNotDue

/-! ### MCTP control messages (R57; forms of DSP0236, log entry 17) -/

/-- A control response: command, completion code, data. -/
def controlResponse (cmd code : Nat) (data : Bytes) : Bytes := [0, 0] ++ toLe 1 cmd ++ toLe 1 code ++ data

/-- Set Endpoint ID: 0x00 and 0xFF are no endpoint's. -/
def setEndpoint (eid : Byte) (s : State) : State :=
  if !s.managementUp then s
  else if eid = 0x00 ∨ eid = 0xFF then sendMesh 0 (controlResponse 1 2 []) s
  else sendMesh 0 (controlResponse 1 0 ([0] ++ [eid] ++ [0])) { s with dict := { s.dict with endpoint := eid } }

/-- SET_ENDPOINT_ID. -/
def execSetEndpointId (eid : Byte) (s : State) : Host.Outcome State Fault Refusal := .next (setEndpoint eid s)

/-- Get Endpoint ID. -/
def getEndpoint (src : Byte) (s : State) : State :=
  if !s.managementUp then s else sendMesh src (controlResponse 2 0 ([s.dict.endpoint] ++ [0] ++ [0])) s

/-- GET_ENDPOINT_ID. -/
def execGetEndpointId (src : Byte) (s : State) : Host.Outcome State Fault Refusal := .next (getEndpoint src s)

/-- Get MCTP Version Support. -/
def getVersions (src msgType : Byte) (s : State) : State :=
  if !s.managementUp then s
  else if s.dict.endpoint = 0 then dropUnassigned s
  else if msgType = 0xFF ∨ msgType = 0x00 ∨ msgType = 0x7F then
    sendMesh src (controlResponse 4 0 ([1] ++ toLe 4 (Config.mctpVersion msgType).toNat)) s
  else sendMesh src (controlResponse 4 0x80 []) s

/-- GET_MCTP_VERSION_SUPPORT. -/
def execGetMctpVersionSupport (src msgType : Byte) (s : State) : Host.Outcome State Fault Refusal :=
  .next (getVersions src msgType s)

/-- Get Message Type Support: dictionary messages. -/
def getTypes (src : Byte) (s : State) : State :=
  if !s.managementUp then s
  else if s.dict.endpoint = 0 then dropUnassigned s
  else sendMesh src (controlResponse 5 0 [1, 0x7F]) s

/-- GET_MESSAGE_TYPE_SUPPORT. -/
def execGetMessageTypeSupport (src : Byte) (s : State) : Host.Outcome State Fault Refusal := .next (getTypes src s)

/-! ### The mirror -/

/-- Sets last_result and counts it. -/
def setLast (r : Nat) (s : State) : State := countResult r { s with mirror := { s.mirror with lastResult := r } }

/-- Any mirror access discards the halves held before it (R460). -/
def dropHalves (s : State) : State := { s with mirror := { s.mirror with heldLow := none, heldHigh := none } }

/-- The object of a direct-window offset. -/
def windowKey (offset : Nat) : Nat := offset / 2048 * 256 + offset % 2048 / 8

/-- A direct write of a whole value. -/
def directWrite (key v : Nat) (o : ObjInfo) (s : State) : State :=
  if !s.permits .operator o key true then setLast 0 (refuseAccess s)
  else if o.isBlock then setLast 2 s
  else if 2 ^ (8 * o.size) ≤ v then setLast (if o.access = 1 then 2 else 3) s
  else
    let (r, s) := writeValue key v o (laneAccess key s)
    setLast r s

/-- A write in the direct window; `low` is the word a write at +0 of the same slot has just left (R459, R460). -/
def windowWrite (offset word : Nat) (low : Option (Nat × Nat)) (s : State) : State :=
  let key := windowKey offset
  let upper := offset % 8 == 4
  match objInfo key with
  | none => setLast 1 s
  | some o =>
    if s.permits .operator o key true && s.writeWaits key then s
    else if o.isBlock || o.size ≠ 8 then (if upper && !o.isBlock then s else directWrite key word o s)
    else if !upper then { s with mirror := { s.mirror with heldLow := some (offset, word) } }
    else match low with
      | some (at_, w) =>
        if at_ + 4 = offset then directWrite key (w + word * 2 ^ 32) o s
        else if s.permits .operator o key true then setLast 6 s else setLast 0 (refuseAccess s)
      | none => if s.permits .operator o key true then setLast 6 s else setLast 0 (refuseAccess s)

/-- A read in the direct window; `high` is what the read at +0 just before it kept. -/
def windowRead (offset : Nat) (high : Option (Nat × Nat)) (s : State) : State :=
  let key := windowKey offset
  let upper := offset % 8 == 4
  match objInfo key with
  | none => mirrorData 0 (setLast 1 s)
  | some o =>
    if upper && !o.isBlock && o.size ≠ 8 then mirrorData 0 s
    else match high with
      | some (at_, w) =>
        if upper ∧ at_ + 4 = offset then mirrorData w s
        else windowValue key upper offset o s
      | none => windowValue key upper offset o s
where
  /-- A read of the object's value now. -/
  windowValue (key : Nat) (upper : Bool) (offset : Nat) (o : ObjInfo) (s : State) : State :=
    if !s.permits .operator o key false then mirrorData 0 (setLast 0 (refuseAccess s))
    else if o.isBlock then mirrorData 0 (setLast 2 s)
    else
      let s := laneAccess key s
      let v := s.objValue key s.mirror.stagedView
      let s := setLast 0 s
      if upper then mirrorData (v / 2 ^ 32) s
      else if o.size = 8 then
        mirrorData (v % 2 ^ 32) { s with mirror := { s.mirror with heldHigh := some (offset, v / 2 ^ 32) } }
      else mirrorData v s

/-- mailbox_go (R461): a request that no response answers leaves the mailbox idle. The response buffer reads 0 beyond the
response (the model's choice, log entry 91). -/
def goMailbox (word : Nat) (s : State) : State :=
  if word ≠ 0x4D424F58 ∨ s.mirror.mailboxState = 1 then s
  else if !between 16 s.mirror.requestLength 1056 then { s with mirror := { s.mirror with mailboxState := 3 } }
  else
    let m := padTo s.mirror.requestLength s.mirror.request
    let (r, s) := if messageOurs m then runMessage .operator .mailbox m s else (none, count 0x700003 1 s)
    match r with
    | some bs => { s with mirror := { s.mirror with response := bs, responseLength := bs.length, mailboxState := 2 } }
    | none => { s with mirror := { s.mirror with responseLength := 0, mailboxState := 0 } }

/-- A mirror write (tables 15.6, 15.7). -/
def mirrorWrite (offset word : Nat) (s : State) : State :=
  if !s.managementUp then s
  else
    let low := s.mirror.heldLow
    let s := dropHalves s
    if offset < 0x08000000 then windowWrite offset word low s
    else if offset = 0x08000000 then { s with mirror := { s.mirror with stagedView := bit word 0 } }
    else if offset = 0x08000008 then goMailbox word s
    else if offset = 0x0800000C then { s with mirror := { s.mirror with requestLength := word % 2048 } }
    else if between 0x08001000 offset 0x0800141C then
      { s with mirror := { s.mirror with
          request := overwrite (padTo 1056 s.mirror.request) (offset - 0x08001000) (toLe 4 word) } }
    else s

/-- A mirror read: isolated, it completes with data 0 (table 2.1). -/
def mirrorRead (offset : Nat) (s : State) : State :=
  if !s.managementUp then mirrorData 0 s
  else
    let high := s.mirror.heldHigh
    let s := dropHalves s
    let m := s.mirror
    if offset < 0x08000000 then windowRead offset high s
    else if offset = 0x08000000 then mirrorData (boolVal m.stagedView) s
    else if offset = 0x08000004 then mirrorData m.lastResult s
    else if offset = 0x0800000C then mirrorData m.requestLength s
    else if offset = 0x08000010 then mirrorData (m.responseLength * 2 ^ 16 + m.mailboxState) s
    else if between 0x08001000 offset 0x0800141C then mirrorData (fieldAt (padTo 1056 m.request) (offset - 0x08001000) 4) s
    else if between 0x08002000 offset 0x0800241C then mirrorData (fieldAt (padTo 1056 m.response) (offset - 0x08002000) 4) s
    else mirrorData 0 s

/-- READ: a mesh message or a mirror read. -/
def execRead (source : ReadFrom) (s : State) : Host.Outcome State Fault Refusal :=
  match source with
  | .mesh eid msg => if commandFits 1 msg then .next (meshRequest eid msg s) else .fault .dictNotDue
  | .mirror offset => .next (mirrorRead offset s)

/-- MAILBOX_GO. -/
def execMailboxGo (value : Word32) (s : State) : Host.Outcome State Fault Refusal :=
  .next (mirrorWrite 0x08000008 value.toNat s)

/-- MIRROR_UPPER_WRITE: a write at +4. -/
def execMirrorUpperWrite (offset : Nat) (word : Word32) (s : State) : Host.Outcome State Fault Refusal :=
  if offset % 8 = 4 then .next (mirrorWrite offset word.toNat s) else .fault .dictNotDue

/-- REGISTER_WRITE: a 32-bit mirror write. -/
def execRegisterWrite (offset : Nat) (word : Word32) (s : State) : Host.Outcome State Fault Refusal :=
  .next (mirrorWrite offset word.toNat s)

end Sys2Proof.Machine
end

