-- ==== Sys2Proof/Machine/Commands.lean ====
section
/-! DEFINITION. The rows that are a write of one object, over the mesh or through the mirror (R448, R454, R548). -/

namespace Sys2Proof.Machine

/-- The WRITE message of a value (tables 15.3, 15.4). -/
def writeMessage (tag : Byte) (key value : Nat) : Bytes :=
  [0x7F, 0x00, 0xF0, 0x5A, 0x2C, 0x02] ++ [tag] ++ [0] ++ toLe 2 (key / 256) ++ toLe 1 key ++ toLe 5 0 ++ toLe 8 value

/-- The direct-window offset of an object. -/
def slotOffset (key : Nat) : Nat := key / 256 * 2048 + key % 256 * 8

/-- A write of a scalar object of 4 bytes or fewer, the way it comes. -/
def writeObject (key : Nat) (via : Via) (value : Word32) (s : State) : State :=
  match via with
  | .mesh eid tag => meshRequest eid (writeMessage tag key value.toNat) s
  | .mirror => mirrorWrite (slotOffset key) value.toNat s

/-- UNIT_RESET (R72). -/
def execUnitReset (via : Via) (value : Word32) (s : State) : Host.Outcome State Fault Refusal :=
  .next (writeObject 0x1F3101 via value s)

/-- LANE_RESET (R72). -/
def execLaneReset (via : Via) (value : Word32) (s : State) : Host.Outcome State Fault Refusal :=
  .next (writeObject 0x1F3001 via value s)

/-- STEP_GO (R417). -/
def execStepGo (via : Via) (value : Word32) (s : State) : Host.Outcome State Fault Refusal :=
  .next (writeObject 0x207003 via value s)

/-- SWAP_GO (R172). -/
def execSwapGo (via : Via) (slot : Nat) (value : Word32) (s : State) : Host.Outcome State Fault Refusal :=
  .next (writeObject ((0x2020 + slot) * 256 + 0x0C) via value s)

/-- SWAP_ABORT (R176). -/
def execSwapAbort (via : Via) (slot : Nat) (value : Word32) (s : State) : Host.Outcome State Fault Refusal :=
  .next (writeObject ((0x2020 + slot) * 256 + 0x0D) via value s)

/-- INSTALL (R202). -/
def execInstall (via : Via) (value : Word32) (s : State) : Host.Outcome State Fault Refusal :=
  .next (writeObject 0x600102 via value s)

/-- FACTORY_RESTORE (R203). -/
def execFactoryRestore (via : Via) (value : Word32) (s : State) : Host.Outcome State Fault Refusal :=
  .next (writeObject 0x600103 via value s)

/-- CONTEXT_BATCH_GO (R388). -/
def execContextBatchGo (via : Via) (tenant : Nat) (value : Word32) (host : List Host.Cell) (s : State) : Host.Outcome State Fault Refusal :=
  .next (writeObject ((0x4000 + tenant) * 256 + 0x22) via value (hostWrites host s))

/-- FABRIC_ENABLE (R296, R298). -/
def execFabricEnable (via : Via) (value : Word32) (s : State) : Host.Outcome State Fault Refusal :=
  .next (writeObject 0x500002 via value s)

/-- COMMIT (R463). -/
def execCommit (via : Via) (value : Word32) (host : List Host.Cell) (s : State) : Host.Outcome State Fault Refusal :=
  .next (writeObject 0x200001 via value (hostWrites host s))

/-- DISCARD_STAGED (R466). -/
def execDiscardStaged (via : Via) (value : Word32) (s : State) : Host.Outcome State Fault Refusal :=
  .next (writeObject 0x200002 via value s)

/-- STORE (R471). -/
def execStore (via : Via) (value : Word32) (s : State) : Host.Outcome State Fault Refusal :=
  .next (writeObject 0x1F2001 via value s)

/-- RESTORE_DEFAULTS (R473). -/
def execRestoreDefaults (via : Via) (value : Word32) (s : State) : Host.Outcome State Fault Refusal :=
  .next (writeObject 0x1F2101 via value s)

/-- COUNTER_CLEAR (R476). -/
def execCounterClear (via : Via) (value : Word32) (s : State) : Host.Outcome State Fault Refusal :=
  .next (writeObject 0x700101 via value s)

/-- EVENT_POP (R500). -/
def execEventPop (via : Via) (value : Word32) (s : State) : Host.Outcome State Fault Refusal :=
  .next (writeObject 0x710003 via value s)

/-- CHALLENGE_REQUEST (R484). -/
def execChallengeRequest (via : Via) (value : Word32) (s : State) : Host.Outcome State Fault Refusal :=
  .next (writeObject 0x1E2001 via value s)

/-- TRANSITION_GO (R485). -/
def execTransitionGo (via : Via) (value : Word32) (s : State) : Host.Outcome State Fault Refusal :=
  .next (writeObject 0x1E3003 via value s)

/-- SNAPSHOT_GO (R511). -/
def execSnapshotGo (via : Via) (value : Word32) (s : State) : Host.Outcome State Fault Refusal :=
  .next (writeObject 0x800004 via value s)

/-- HOLD_CLEAR (R514). -/
def execHoldClear (via : Via) (value : Word32) (s : State) : Host.Outcome State Fault Refusal :=
  .next (writeObject 0x800105 via value s)

/-- HOLD_SEND_GO (R515). -/
def execHoldSendGo (via : Via) (value : Word32) (s : State) : Host.Outcome State Fault Refusal :=
  .next (writeObject 0x800108 via value s)

/-- RESTORE_GO (R516). -/
def execRestoreGo (via : Via) (value : Word32) (s : State) : Host.Outcome State Fault Refusal :=
  .next (writeObject 0x801006 via value s)

/-- BIST_GO (R535). -/
def execBistGo (via : Via) (value : Word32) (s : State) : Host.Outcome State Fault Refusal :=
  .next (writeObject 0x900002 via value s)

end Sys2Proof.Machine
end

