-- ==== Sys2Proof/Machine/Dispatch.lean ====
section
/-! DEFINITION. One arm per command: which meaning runs it. -/

namespace Sys2Proof.Machine

def exec (i : Instr) (s : State) : Host.Outcome State Fault Refusal :=
  match i with
  | .powerOnReset => Sys2Proof.Machine.execPowerOnReset s
  | .unitRstN => Sys2Proof.Machine.execUnitRstN s
  | .laneRstN => Sys2Proof.Machine.execLaneRstN s
  | .unitReset via value => Sys2Proof.Machine.execUnitReset via value s
  | .unitResetTakesEffect => Sys2Proof.Machine.execUnitResetTakesEffect s
  | .laneReset via value => Sys2Proof.Machine.execLaneReset via value s
  | .laneResetDrainEnd => Sys2Proof.Machine.execLaneResetDrainEnd s
  | .networkDrainTimeout => Sys2Proof.Machine.execNetworkDrainTimeout s
  | .laneStateResetEnd host => Sys2Proof.Machine.execLaneStateResetEnd host s
  | .resetRelease ecc => Sys2Proof.Machine.execResetRelease s ecc
  | .bringUpDone failures => Sys2Proof.Machine.execBringUpDone failures s
  | .unitDisable => Sys2Proof.Machine.execUnitDisable s
  | .powerOff => Sys2Proof.Machine.execPowerOff s
  | .stepSyncEdge time => Sys2Proof.Machine.execStepSyncEdge time s
  | .tsLoad value => Sys2Proof.Machine.execTsLoad value s
  | .wakeComplete => Sys2Proof.Machine.execWakeComplete s
  | .activeIdleExpiry => Sys2Proof.Machine.execActiveIdleExpiry s
  | .standbyIdleExpiry => Sys2Proof.Machine.execStandbyIdleExpiry s
  | .laneRailDroop east west => Sys2Proof.Machine.execLaneRailDroop east west s
  | .laneRailRecovery east west => Sys2Proof.Machine.execLaneRailRecovery east west s
  | .hsRailFault mv => Sys2Proof.Machine.execHsRailFault mv s
  | .aonRailFault mv => Sys2Proof.Machine.execAonRailFault mv s
  | .temperatureReading point milli => Sys2Proof.Machine.execTemperatureReading point milli s
  | .stepGo via value => Sys2Proof.Machine.execStepGo via value s
  | .stepBegin host => Sys2Proof.Machine.execStepBegin host s
  | .admission ecc => Sys2Proof.Machine.execAdmission s ecc
  | .intakeEnd group ecc => Sys2Proof.Machine.execIntakeEnd group s ecc
  | .tileExchange group latency ecc => Sys2Proof.Machine.execTileExchange group latency ecc s
  | .brickDrain group brick ecc => Sys2Proof.Machine.execBrickDrain group brick ecc s
  | .residualPass group ecc loads => Sys2Proof.Machine.execResidualPass group s ecc loads
  | .secondPass group ecc loads => Sys2Proof.Machine.execSecondPass group s ecc loads
  | .passGroupBloomsAcknowledged group => Sys2Proof.Machine.execPassGroupBloomsAcknowledged group s
  | .stepBoundary host ecc => Sys2Proof.Machine.execStepBoundary host s ecc
  | .swapGo via slot value => Sys2Proof.Machine.execSwapGo via slot value s
  | .swapAbort via slot value => Sys2Proof.Machine.execSwapAbort via slot value s
  | .swapDone slot host => Sys2Proof.Machine.execSwapDone slot host s
  | .install via value => Sys2Proof.Machine.execInstall via value s
  | .factoryRestore via value => Sys2Proof.Machine.execFactoryRestore via value s
  | .imageInstalled ok => Sys2Proof.Machine.execImageInstalled ok s
  | .contextBatchGo via tenant value host => Sys2Proof.Machine.execContextBatchGo via tenant value host s
  | .openCtx tenant ecc => Sys2Proof.Machine.execOpenCtx tenant s ecc
  | .fork tenant ecc => Sys2Proof.Machine.execFork tenant s ecc
  | .append tenant ecc => Sys2Proof.Machine.execAppend tenant s ecc
  | .pause tenant ecc => Sys2Proof.Machine.execPause tenant s ecc
  | .resume tenant ecc => Sys2Proof.Machine.execResume tenant s ecc
  | .cancel tenant ecc => Sys2Proof.Machine.execCancel tenant s ecc
  | .pauseCopyDone slot => Sys2Proof.Machine.execPauseCopyDone slot s
  | .resumeCopyDone slot => Sys2Proof.Machine.execResumeCopyDone slot s
  | .contextBatchDone tenant => Sys2Proof.Machine.execContextBatchDone tenant s
  | .contextExpired slot => Sys2Proof.Machine.execContextExpired slot s
  | .networkErrorResponse port what => Sys2Proof.Machine.execNetworkErrorResponse port what s
  | .discover msg => Sys2Proof.Machine.execDiscover msg s
  | .caps msg => Sys2Proof.Machine.execCaps msg s
  | .heartbeat msg => Sys2Proof.Machine.execHeartbeat msg s
  | .heartbeatTimer idle => Sys2Proof.Machine.execHeartbeatTimer idle s
  | .partialSum msg => Sys2Proof.Machine.execPartialSum msg s
  | .histogram msg => Sys2Proof.Machine.execHistogram msg s
  | .petalList msg => Sys2Proof.Machine.execPetalList msg s
  | .bloomClaim msg => Sys2Proof.Machine.execBloomClaim msg s
  | .bondUpdate msg => Sys2Proof.Machine.execBondUpdate msg s
  | .statePage msg => Sys2Proof.Machine.execStatePage msg s
  | .linkAck msg => Sys2Proof.Machine.execLinkAck msg s
  | .linkNak msg => Sys2Proof.Machine.execLinkNak msg s
  | .mortarResendTimeout peer sequence => Sys2Proof.Machine.execMortarResendTimeout peer sequence s
  | .peerSilenceTimeout peer => Sys2Proof.Machine.execPeerSilenceTimeout peer s
  | .absenceNotice peer => Sys2Proof.Machine.execAbsenceNotice peer s
  | .absentResponse peer => Sys2Proof.Machine.execAbsentResponse peer s
  | .fabricEnable via value => Sys2Proof.Machine.execFabricEnable via value s
  | .setEndpointId eid => Sys2Proof.Machine.execSetEndpointId eid s
  | .getEndpointId src => Sys2Proof.Machine.execGetEndpointId src s
  | .getMctpVersionSupport src msgType => Sys2Proof.Machine.execGetMctpVersionSupport src msgType s
  | .getMessageTypeSupport src => Sys2Proof.Machine.execGetMessageTypeSupport src s
  | .read source => Sys2Proof.Machine.execRead source s
  | .write eid msg => Sys2Proof.Machine.execWrite eid msg s
  | .readBlock eid msg => Sys2Proof.Machine.execReadBlock eid msg s
  | .writeBlock eid msg => Sys2Proof.Machine.execWriteBlock eid msg s
  | .abort eid msg => Sys2Proof.Machine.execAbort eid msg s
  | .blockTransferTimeout who writing => Sys2Proof.Machine.execBlockTransferTimeout who writing s
  | .mailboxGo value => Sys2Proof.Machine.execMailboxGo value s
  | .mirrorUpperWrite offset word => Sys2Proof.Machine.execMirrorUpperWrite offset word s
  | .registerWrite offset word => Sys2Proof.Machine.execRegisterWrite offset word s
  | .commit via value host => Sys2Proof.Machine.execCommit via value host s
  | .discardStaged via value => Sys2Proof.Machine.execDiscardStaged via value s
  | .store via value => Sys2Proof.Machine.execStore via value s
  | .storeDone ok => Sys2Proof.Machine.execStoreDone ok s
  | .restoreDefaults via value => Sys2Proof.Machine.execRestoreDefaults via value s
  | .counterClear via value => Sys2Proof.Machine.execCounterClear via value s
  | .eventPop via value => Sys2Proof.Machine.execEventPop via value s
  | .eventReadable => Sys2Proof.Machine.execEventReadable s
  | .challengeRequest via value => Sys2Proof.Machine.execChallengeRequest via value s
  | .challengeExpiry => Sys2Proof.Machine.execChallengeExpiry s
  | .challengeLockoutEnd => Sys2Proof.Machine.execChallengeLockoutEnd s
  | .transitionGo via value => Sys2Proof.Machine.execTransitionGo via value s
  | .transitionVerified => Sys2Proof.Machine.execTransitionVerified s
  | .lifecycleChanged => Sys2Proof.Machine.execLifecycleChanged s
  | .wipeDone => Sys2Proof.Machine.execWipeDone s
  | .scrubRead found => Sys2Proof.Machine.execScrubRead found s
  | .snapshotGo via value => Sys2Proof.Machine.execSnapshotGo via value s
  | .holdClear via value => Sys2Proof.Machine.execHoldClear via value s
  | .holdSendGo via value => Sys2Proof.Machine.execHoldSendGo via value s
  | .restoreGo via value => Sys2Proof.Machine.execRestoreGo via value s
  | .restoreChunkRead host => Sys2Proof.Machine.execRestoreChunkRead host s
  | .restoreChunkTimeout => Sys2Proof.Machine.execRestoreChunkTimeout s
  | .leadConflict west => Sys2Proof.Machine.execLeadConflict west s
  | .bistGo via value => Sys2Proof.Machine.execBistGo via value s
  | .bistDone failures => Sys2Proof.Machine.execBistDone failures s
  | .tierLatencyWindow tierA tierB => Sys2Proof.Machine.execTierLatencyWindow tierA tierB s
  | .snapshotChunkRead ecc => Sys2Proof.Machine.execSnapshotChunkRead s ecc
  | .holdChunkPlaced => Sys2Proof.Machine.execHoldChunkPlaced s
  | .holdSendChunkRead => Sys2Proof.Machine.execHoldSendChunkRead s

end Sys2Proof.Machine
end

