-- ==== Sys2Proof/Safety.lean ====
section
/-! DEFINITION. What every state of a safe run holds: the chip memory in canonical form, four head slots, eight
temperature points, the event queue within its room, UNIT_PRESENT only where the ports are connected, a legal
life-cycle state. Then the parts of the state, which of them each command may change, and the words the statements use. -/

namespace Sys2Proof.Machine

/-- A life-cycle state of table 16.1. -/
def legalState (n : Nat) : Bool := decide (1 ≤ n) && decide (n ≤ 6)

/-- Every record copy in non-volatile memory holds a legal state (R479). -/
def NonVolatile.legal (n : NonVolatile) : Bool :=
  n.copyA.all (fun r => legalState r.state) && n.copyB.all (fun r => legalState r.state)

/-- The record in service, and one being written, hold a legal state (R479, R485). -/
def LifeCycle.legal (l : LifeCycle) : Bool := legalState l.record.state && l.writing.all (fun r => legalState r.state)

/-- A lane reset is under way (table 2.6, R545). -/
def ResetPhase.lane : ResetPhase → Bool
  | .draining => true
  | .laneState => true
  | _ => false

/-- UNIT_PRESENT is 1 only where no reset is under way, the unit is powered and not disabled (R56, R77, table 2.6);
the power state a lane reset returns to is a powered one (table 2.3), and the unit is powered while it runs. -/
def Boundary.sound (b : Boundary) (p : Power) : Bool :=
  (!b.unitPresent || (b.phase == .idle && !b.unitDisable && p != .off)) && (b.laneReturn != .off && (!b.phase.lane || p != .off))

/-- The invariant of the machine. -/
structure State.Inv (s : State) : Prop where
  /-- the chip memory is in canonical form -/
  memory : Memory.wf s.mem = true
  /-- four head slots (R166) -/
  heads : s.heads.length = 4
  /-- eight points (R103) -/
  temps : s.sensing.temps.length = 8
  /-- 256 event records at most (R499) -/
  queue : s.events.events.length ≤ 256
  /-- R56 -/
  present : s.boundary.sound s.sensing.power = true
  /-- table 16.1 -/
  record : s.life.legal = true
  /-- table 16.1, in both copies -/
  copies : s.nvm.legal = true

/-- The parts of the state that a command may change. -/
inductive Part where
  /-- UNIT_PRESENT -/
  | present
  /-- TS_REQ -/
  | tsReq
  /-- UNIT_DISABLE -/
  | disable
  /-- the last detected STEP_SYNC edge -/
  | edge
  /-- the reset under way -/
  | reset
  /-- the time-stamp copy -/
  | clock
  /-- power state and wake -/
  | power
  /-- the four rail readings -/
  | rails
  /-- temperatures and what they hold back -/
  | heat
  /-- row of table 3.2 -/
  | laneRow
  /-- the Head Store powered down -/
  | hsOff
  /-- measured latencies -/
  | latency
  /-- the event queue -/
  | events
  /-- current values of RW objects -/
  | rw
  /-- applied values of RWS objects -/
  | applied
  /-- the staged set -/
  | staged
  /-- counters -/
  | counters
  /-- write-only objects -/
  | held
  /-- Commit State and Commit Time -/
  | commit
  /-- Store State and Settings Source -/
  | store
  /-- open block transfers -/
  | transfers
  /-- the endpoint ID -/
  | endpoint
  /-- the mirror's registers and buffers -/
  | mirror
  /-- the settings image -/
  | settings
  /-- the copies of the life-cycle record -/
  | copies
  /-- the persistent image -/
  | image
  /-- the life-cycle record in service -/
  | record
  /-- Owner Public Key held in MAKER -/
  | ownerBuffer
  /-- the challenge -/
  | challenge
  /-- the transition under way -/
  | transition
  /-- the head slots -/
  | heads
  /-- the weight sets and sum columns -/
  | lanes
  /-- the microprogram images -/
  | fseq
  /-- the context slots -/
  | slots
  /-- history nodes and pages -/
  | pages
  /-- context batches -/
  | batches
  /-- tenant budgets -/
  | budgets
  /-- the automaton directory in force -/
  | directory
  /-- the automaton cache -/
  | cache
  /-- the running step -/
  | run
  /-- starts latched or held -/
  | starts
  /-- step numbers -/
  | numbers
  /-- what the last step left -/
  | lastStep
  /-- the peer table and its links -/
  | peers
  /-- Bond Digest, Bond Refuse Reason -/
  | bond
  /-- trees of BOND_UPDATE -/
  | tree
  /-- messages held while the lanes stand -/
  | late
  /-- the snapshot engine -/
  | snapshot
  /-- the hold area -/
  | hold
  /-- restore and quiesce -/
  | restore
  /-- the scrub position -/
  | scrub
  /-- ECC windows -/
  | corrected
  /-- the Head Store pass -/
  | hsPass
  /-- the west fence -/
  | fence
  /-- built-in tests -/
  | tests
  /-- Mode Refuse Reason -/
  | mode
  /-- chip memory -/
  | mem
  /-- the outputs -/
  | out
  /-- the queue -/
  | pending
  /-- slow cycles passed -/
  | slow
  /-- the free-value counter -/
  | fresh
deriving DecidableEq, Repr

/-- A part is the same in two states. -/
def Part.same (p : Part) (s t : State) : Prop :=
  match p with
  | .present => t.boundary.unitPresent = s.boundary.unitPresent
  | .tsReq => t.boundary.tsReq = s.boundary.tsReq
  | .disable => t.boundary.unitDisable = s.boundary.unitDisable
  | .edge => t.boundary.lastEdge = s.boundary.lastEdge
  | .reset => t.boundary.phase = s.boundary.phase ∧ t.boundary.unitResetDue = s.boundary.unitResetDue ∧
    t.boundary.laneReturn = s.boundary.laneReturn ∧ t.boundary.laneWoke = s.boundary.laneWoke ∧
    t.boundary.abandoned = s.boundary.abandoned
  | .clock => t.ts = s.ts
  | .power => t.sensing.power = s.sensing.power ∧ t.sensing.waking = s.sensing.waking
  | .rails => t.sensing.railE = s.sensing.railE ∧ t.sensing.railW = s.sensing.railW ∧
    t.sensing.railsRead = s.sensing.railsRead ∧ t.sensing.railHs = s.sensing.railHs ∧ t.sensing.railAon = s.sensing.railAon
  | .heat => t.sensing.temps = s.sensing.temps ∧ t.sensing.nextPoint = s.sensing.nextPoint ∧
    t.sensing.thermalCap = s.sensing.thermalCap ∧ t.sensing.thermalHold = s.sensing.thermalHold ∧
    t.sensing.warned = s.sensing.warned
  | .laneRow => t.sensing.laneRow = s.sensing.laneRow
  | .hsOff => t.sensing.hsOff = s.sensing.hsOff
  | .latency => t.sensing.headLatency = s.sensing.headLatency ∧ t.sensing.slowLoads = s.sensing.slowLoads ∧
    t.sensing.tierA = s.sensing.tierA ∧ t.sensing.tierB = s.sensing.tierB
  | .events => t.events = s.events
  | .rw => t.dict.rw = s.dict.rw
  | .applied => t.dict.applied = s.dict.applied
  | .staged => t.dict.staged = s.dict.staged
  | .counters => t.dict.counters = s.dict.counters
  | .held => t.dict.held = s.dict.held
  | .commit => t.dict.commitState = s.dict.commitState ∧ t.dict.commitTime = s.dict.commitTime
  | .store => t.dict.storeState = s.dict.storeState ∧ t.dict.settingsSource = s.dict.settingsSource ∧
    t.dict.storing = s.dict.storing
  | .transfers => t.dict.transfers = s.dict.transfers
  | .endpoint => t.dict.endpoint = s.dict.endpoint
  | .mirror => t.mirror = s.mirror
  | .settings => t.nvm.settings = s.nvm.settings ∧ t.nvm.storeCount = s.nvm.storeCount
  | .copies => t.nvm.copyA = s.nvm.copyA ∧ t.nvm.copyB = s.nvm.copyB
  | .image => t.nvm.image = s.nvm.image
  | .record => t.life.record = s.life.record
  | .ownerBuffer => t.life.ownerBuffer = s.life.ownerBuffer
  | .challenge => t.life.challenge = s.life.challenge ∧ t.life.draws = s.life.draws
  | .transition => t.life.transition = s.life.transition ∧ t.life.reason = s.life.reason ∧
    t.life.lockout = s.life.lockout ∧ t.life.verifying = s.life.verifying ∧ t.life.writing = s.life.writing ∧
    t.life.wiping = s.life.wiping ∧ t.life.ownWipe = s.life.ownWipe
  | .heads => t.heads = s.heads
  | .lanes => t.lanes = s.lanes
  | .fseq => t.fseq = s.fseq
  | .slots => t.contexts.slots = s.contexts.slots
  | .pages => t.contexts.nodes = s.contexts.nodes ∧ t.contexts.nextNode = s.contexts.nextNode ∧
    t.contexts.reservedPages = s.contexts.reservedPages
  | .batches => t.contexts.batches = s.contexts.batches
  | .budgets => t.contexts.budgets = s.contexts.budgets
  | .directory => t.contexts.directory = s.contexts.directory ∧ t.contexts.usable = s.contexts.usable ∧
    t.contexts.refuseReason = s.contexts.refuseReason
  | .cache => t.contexts.cache = s.contexts.cache
  | .run => t.steps.run = s.steps.run
  | .starts => t.steps.latched = s.steps.latched ∧ t.steps.held = s.steps.held
  | .numbers => t.steps.lastNumber = s.steps.lastNumber ∧ t.steps.anyNumber = s.steps.anyNumber
  | .lastStep => t.steps.lastStatus = s.steps.lastStatus ∧ t.steps.spillPeak = s.steps.spillPeak ∧
    t.steps.sinceCapture = s.steps.sinceCapture
  | .peers => t.mortar.peers = s.mortar.peers
  | .bond => t.mortar.refuseReason = s.mortar.refuseReason ∧ t.mortar.bondDigest = s.mortar.bondDigest
  | .tree => t.mortar.tree = s.mortar.tree ∧ t.mortar.trees = s.mortar.trees
  | .late => t.mortar.late = s.mortar.late
  | .snapshot => t.snapshot = s.snapshot
  | .hold => t.hold = s.hold
  | .restore => t.restore = s.restore
  | .scrub => t.upkeep.memory = s.upkeep.memory ∧ t.upkeep.line = s.upkeep.line
  | .corrected => t.upkeep.corrected = s.upkeep.corrected
  | .hsPass => t.upkeep.hsPass = s.upkeep.hsPass
  | .fence => t.upkeep.westFenced = s.upkeep.westFenced
  | .tests => t.upkeep.bistState = s.upkeep.bistState ∧ t.upkeep.bistFailures = s.upkeep.bistFailures ∧
    t.upkeep.bistTime = s.upkeep.bistTime ∧ t.upkeep.bistRun = s.upkeep.bistRun ∧
    t.upkeep.bistWaiting = s.upkeep.bistWaiting ∧ t.upkeep.marchDue = s.upkeep.marchDue
  | .mode => t.upkeep.heirloomFell = s.upkeep.heirloomFell ∧ t.upkeep.modeReason = s.upkeep.modeReason
  | .mem => t.mem = s.mem
  | .out => t.out = s.out
  | .pending => t.pending = s.pending
  | .slow => t.slow = s.slow
  | .fresh => t.fresh = s.fresh

/-- What an access through the dictionary or the mirror may change whatever it names: counters of refused and dropped
accesses, the event of a drop, the response. -/
def accessParts : List Part := [.events, .counters, .mirror, .out]

/-- The parts that a write of some object may change. -/
def writeParts : List Part :=
  [.present, .reset, .clock, .power, .hsOff, .events, .rw, .applied, .staged, .counters, .held, .commit, .store,
    .transfers, .mirror, .image, .ownerBuffer, .challenge, .transition, .heads, .lanes, .fseq, .slots, .pages,
    .batches, .budgets, .directory, .cache, .run, .starts, .numbers, .lastStep, .peers, .bond, .tree, .late,
    .snapshot, .hold, .restore, .fence, .tests, .mode, .out, .slow, .fresh]

/-- The parts of a received mortar frame. -/
def frameParts : List Part :=
  [.events, .counters, .slots, .pages, .batches, .budgets, .run, .starts, .numbers, .lastStep, .peers, .tree, .late,
    .snapshot, .hold, .restore, .mem, .out]

/-- The parts of a peer that ends. -/
def peerParts : List Part :=
  [.events, .counters, .slots, .pages, .batches, .budgets, .run, .starts, .lastStep, .peers, .late, .snapshot, .hold,
    .restore, .mem, .out]

/-- The parts of table 2.4: all but the settings memory, the chip memory, the outputs and the queue. -/
def resetParts : List Part :=
  [.present, .tsReq, .edge, .reset, .clock, .power, .rails, .heat, .laneRow, .hsOff, .latency, .events, .rw, .applied,
    .staged, .counters, .held, .commit, .store, .transfers, .endpoint, .mirror, .copies, .image, .record,
    .ownerBuffer, .challenge, .transition, .heads, .lanes, .fseq, .slots, .pages, .batches, .budgets, .directory,
    .cache, .run, .starts, .numbers, .lastStep, .peers, .bond, .tree, .late, .snapshot, .hold, .restore, .scrub,
    .corrected, .hsPass, .fence, .tests, .mode, .fresh]

/-- The parts of the state that a command may change when it answers a next state. -/
def mayChange : Instr → List Part
  | .powerOnReset | .unitRstN | .unitResetTakesEffect | .powerOff => resetParts
  | .laneRstN => [.present, .reset, .clock, .power, .events, .counters, .transfers, .image, .ownerBuffer, .challenge,
    .heads, .lanes, .fseq, .slots, .pages, .batches, .budgets, .cache, .run, .starts, .numbers, .peers, .late,
    .snapshot, .hold, .restore, .fence, .tests, .slow, .fresh]
  | .unitReset _ _ => accessParts ++ [.reset]
  | .laneReset _ _ => accessParts ++ [.present, .reset, .clock, .power, .transfers, .image, .ownerBuffer, .challenge,
    .heads, .lanes, .fseq, .slots, .pages, .batches, .budgets, .cache, .run, .starts, .numbers, .peers, .late,
    .snapshot, .hold, .restore, .fence, .tests, .slow, .fresh]
  | .laneResetDrainEnd => [.reset, .clock, .counters, .run, .slow]
  | .networkDrainTimeout => [.reset, .clock, .events, .counters, .run, .slow]
  | .laneStateResetEnd _ => [.present, .reset, .clock, .power, .hsOff, .events, .applied, .staged, .counters, .commit,
    .heads, .lanes, .fseq, .slots, .pages, .batches, .budgets, .directory, .cache, .run, .starts, .peers, .bond,
    .tree, .late, .snapshot, .restore, .tests, .mode, .mem, .out, .slow, .fresh]
  | .resetRelease _ => [.present, .tsReq, .reset, .power, .events, .rw, .applied, .staged, .counters, .store,
    .settings, .record, .heads, .fseq, .bond, .corrected]
  | .bringUpDone _ => [.present, .reset, .clock, .power, .laneRow, .hsOff, .events, .counters, .transition, .heads,
    .lanes, .cache, .run, .late, .tests, .out, .slow]
  | .unitDisable => [.present, .tsReq, .disable, .reset, .clock, .power, .hsOff, .counters, .heads, .lanes, .cache,
    .run, .peers, .late, .slow]
  | .stepSyncEdge _ => [.edge, .power, .events, .counters, .starts]
  | .tsLoad _ => [.tsReq, .clock, .events, .counters, .run, .slow]
  | .wakeComplete => [.power, .laneRow, .hsOff, .events, .counters]
  | .activeIdleExpiry => [.clock, .power, .counters, .run, .peers, .late, .out, .slow]
  | .standbyIdleExpiry => [.power, .hsOff, .heads, .lanes, .cache]
  | .laneRailDroop _ _ => [.clock, .rails, .laneRow, .events, .counters, .run, .slow]
  | .laneRailRecovery _ _ => [.clock, .rails, .laneRow, .events, .counters, .run, .lastStep, .peers, .late, .mem,
    .out, .slow]
  | .hsRailFault _ => [.rails, .events, .counters, .hsPass]
  | .aonRailFault _ => [.rails, .events, .counters]
  | .temperatureReading _ _ => [.clock, .power, .heat, .events, .counters, .run, .starts, .slow]
  | .stepGo _ _ => accessParts ++ [.power, .starts]
  | .stepBegin _ => [.run, .starts, .tree, .mem]
  | .admission _ => [.present, .reset, .clock, .power, .events, .counters, .transfers, .settings, .image, .ownerBuffer,
    .challenge, .heads, .lanes, .fseq, .slots, .pages, .batches, .budgets, .cache, .run, .starts, .numbers,
    .lastStep, .peers, .late, .snapshot, .hold, .restore, .corrected, .fence, .tests, .mem, .out, .slow, .fresh]
  | .intakeEnd _ _ => [.events, .counters, .settings, .heads, .fseq, .slots, .pages, .batches, .cache, .run, .snapshot,
    .corrected, .mem, .fresh]
  | .secondPass _ _ _ => [.latency, .events, .counters, .settings, .heads, .fseq, .slots, .pages, .batches, .cache,
    .run, .snapshot, .corrected, .mem, .fresh]
  | .tileExchange _ _ _ => [.latency, .events, .counters, .settings, .heads, .lanes, .fseq, .slots, .pages, .batches,
    .cache, .run, .snapshot, .corrected, .mem, .fresh]
  | .brickDrain _ _ _ => [.events, .counters, .settings, .heads, .lanes, .fseq, .slots, .pages, .batches, .cache,
    .run, .lastStep, .peers, .late, .snapshot, .corrected, .mem, .out, .fresh]
  | .residualPass _ _ _ => [.latency, .events, .counters, .settings, .heads, .fseq, .slots, .pages, .batches, .cache, .run,
    .lastStep, .peers, .late, .snapshot, .corrected, .mem, .out, .fresh]
  | .passGroupBloomsAcknowledged _ => [.run, .mem]
  | .stepBoundary _ _ => [.clock, .power, .heat, .events, .applied, .staged, .counters, .commit, .heads, .lanes,
    .fseq, .slots, .pages, .batches, .budgets, .directory, .cache, .run, .starts, .lastStep, .peers, .bond, .tree,
    .late, .snapshot, .restore, .corrected, .tests, .mode, .mem, .out, .slow, .fresh]
  | .swapGo _ _ _ => accessParts ++ [.power, .heads]
  | .swapAbort _ _ _ | .bistGo _ _ => accessParts ++ [.heads, .tests]
  | .swapDone _ _ => [.events, .counters, .heads, .tests, .mem]
  | .install _ _ | .factoryRestore _ _ => accessParts ++ [.image, .fseq]
  | .imageInstalled _ => [.events, .counters, .image, .fseq]
  | .contextBatchGo _ _ _ _ => accessParts ++ [.batches, .mem]
  | .openCtx _ _ | .fork _ _ | .append _ _ | .cancel _ _ => [.events, .counters, .slots, .pages, .batches, .cache,
    .run, .snapshot, .corrected, .mem, .fresh]
  | .pause _ _ | .resume _ _ => [.power, .events, .counters, .slots, .pages, .batches, .cache, .run, .snapshot,
    .corrected, .mem, .fresh]
  | .pauseCopyDone _ | .resumeCopyDone _ => [.counters, .slots, .pages, .batches, .snapshot, .mem]
  | .contextBatchDone _ => [.events, .counters, .batches]
  | .contextExpired _ => [.events, .counters, .slots, .pages, .snapshot]
  | .networkErrorResponse _ _ => [.present, .reset, .clock, .power, .events, .counters, .transfers, .image,
    .ownerBuffer, .challenge, .heads, .lanes, .fseq, .slots, .pages, .batches, .budgets, .cache, .run, .starts,
    .numbers, .lastStep, .peers, .late, .snapshot, .hold, .restore, .fence, .tests, .mem, .slow, .fresh]
  | .discover _ | .caps _ | .heartbeat _ | .partialSum _ | .histogram _ | .petalList _ | .bloomClaim _ | .bondUpdate _
    | .statePage _ => frameParts
  | .heartbeatTimer _ => [.events, .counters, .run, .lastStep, .peers, .late, .mem, .out]
  | .linkAck _ => [.peers, .late, .out]
  | .linkNak _ | .mortarResendTimeout _ _ | .peerSilenceTimeout _ | .absenceNotice _ | .absentResponse _ => peerParts
  | .fabricEnable _ _ => accessParts ++ [.rw, .late]
  | .setEndpointId _ => [.endpoint, .out]
  | .getEndpointId _ => [.out]
  | .getMctpVersionSupport _ _ | .getMessageTypeSupport _ => [.events, .counters, .out]
  | .read _ => accessParts ++ [.hsOff, .heads, .lanes, .cache]
  | .write _ _ | .writeBlock _ _ | .mailboxGo _ | .mirrorUpperWrite _ _ | .registerWrite _ _ => writeParts
  | .readBlock _ _ | .abort _ _ => [.events, .counters, .transfers, .out]
  | .blockTransferTimeout _ _ => [.counters, .transfers]
  | .commit _ _ _ => accessParts ++ [.power, .applied, .staged, .commit, .heads, .budgets, .directory, .peers, .bond,
    .tree, .late, .mode, .mem]
  | .discardStaged _ _ => accessParts ++ [.staged]
  | .store _ _ => accessParts ++ [.store]
  | .storeDone _ => [.events, .counters, .store, .settings]
  | .restoreDefaults _ _ => accessParts ++ [.rw, .staged, .ownerBuffer]
  | .counterClear _ _ | .eventPop _ _ => accessParts
  | .eventReadable => [.events]
  | .challengeRequest _ _ | .transitionGo _ _ => accessParts ++ [.challenge, .transition]
  | .challengeExpiry => [.challenge]
  | .challengeLockoutEnd => [.transition]
  | .transitionVerified => [.events, .rw, .counters, .copies, .record, .transition, .starts]
  | .lifecycleChanged => [.events, .counters, .copies, .record, .transition, .run, .starts, .lastStep, .peers, .late,
    .mem, .out]
  | .wipeDone => [.present, .tsReq, .edge, .reset, .clock, .power, .rails, .heat, .laneRow, .hsOff, .latency, .events,
    .rw, .applied, .staged, .counters, .held, .commit, .store, .transfers, .endpoint, .mirror, .settings, .copies,
    .image, .record, .ownerBuffer, .challenge, .transition, .heads, .lanes, .fseq, .slots, .pages, .batches,
    .budgets, .directory, .cache, .run, .starts, .numbers, .lastStep, .peers, .bond, .tree, .late, .snapshot, .hold,
    .restore, .scrub, .corrected, .hsPass, .fence, .tests, .mode, .mem, .fresh]
  | .scrubRead _ => [.events, .applied, .counters, .settings, .heads, .fseq, .slots, .pages, .batches, .cache, .run,
    .peers, .late, .snapshot, .scrub, .corrected, .hsPass, .tests, .mode, .mem, .out, .fresh]
  | .snapshotGo _ _ => accessParts ++ [.power, .lastStep, .snapshot]
  | .holdClear _ _ | .holdSendGo _ _ => accessParts ++ [.hold]
  | .restoreGo _ _ => accessParts ++ [.power, .slots, .pages, .batches, .budgets, .starts, .snapshot, .restore]
  | .restoreChunkRead _ => [.events, .counters, .slots, .pages, .batches, .budgets, .starts, .numbers, .late,
    .snapshot, .restore, .mem, .out]
  | .restoreChunkTimeout => [.events, .counters, .slots, .pages, .batches, .budgets, .starts, .snapshot, .restore]
  | .leadConflict _ => [.power, .events, .applied, .staged, .counters, .commit, .heads, .lanes, .fseq, .slots, .pages,
    .batches, .budgets, .directory, .run, .starts, .peers, .bond, .tree, .late, .snapshot, .restore, .fence, .tests,
    .mode, .mem, .out, .fresh]
  | .bistDone _ => [.power, .events, .counters, .cache, .starts, .tests]
  | .tierLatencyWindow _ _ => [.latency]
  | .snapshotChunkRead _ => [.events, .counters, .slots, .pages, .batches, .cache, .run, .peers, .late, .snapshot,
    .corrected, .mem, .out, .fresh]
  | .holdChunkPlaced | .holdSendChunkRead => [.counters, .peers, .late, .hold, .out]

/-! ### Words of the statements -/

/-- An event record of a code with its arguments is queued. -/
def State.queued (s : State) (code wide a b : Nat) : Prop :=
  ∃ e ∈ s.events.events, e.code = code ∧ e.argWide = wide ∧ e.argA = a ∧ e.argB = b

/-- A write of an object, the way it comes, reaches it: the management ports connected, the endpoint ID assigned, the
access open (R58, R490 to R492) and no pending wipe in its way (R488). -/
def State.takesWrite (s : State) (via : Via) (key : Nat) : Bool :=
  s.managementUp && !s.writeWaits key &&
    match objInfo key with
    | none => false
    | some o =>
      match via with
      | .mesh eid _ => s.dict.endpoint != 0 && s.permits (s.asker eid) o key true
      | .mirror => s.permits .operator o key true

/-- The response to such a write has left with a result of table 15.5, or `last_result` reads it. -/
def State.answered (t s : State) (via : Via) (key result : Nat) : Prop :=
  match via with
  | .mesh eid tag => ∃ m, t.out.mesh = s.out.mesh ++ [(eid, m)] ∧ fieldAt m 5 1 = 130 ∧ fieldAt m 6 1 = tag.toNat ∧
      fieldAt m 8 2 = key / 256 ∧ fieldAt m 10 1 = key % 256 ∧ fieldAt m 11 1 = result
  | .mirror => t.mirror.lastResult = result

/-- A dictionary request from an endpoint has its response: command, tag and object echoed, result, what follows (R453,
tables 15.3, 15.4). -/
def State.replied (s t : State) (eid : Byte) (m : Bytes) (result : Nat) (body : Bytes) : Prop :=
  ∃ r, t.out.mesh = s.out.mesh ++ [(eid, r)] ∧ r.take 5 = m.take 5 ∧ fieldAt r 5 1 = 128 + fieldAt m 5 1 % 128 ∧
    fieldAt r 6 1 = fieldAt m 6 1 ∧ fieldAt r 8 2 = fieldAt m 8 2 ∧ fieldAt r 10 1 = fieldAt m 10 1 ∧
    fieldAt r 11 1 = result ∧ r.drop 16 = body

/-- What an open write of a value to a scalar object that is no command comes to, with its result (R448, R449, R462,
R464, R469). -/
def State.takesValue (s t : State) (key v : Nat) (o : ObjInfo) (result : Nat) : Prop :=
  (o.access = 1 → result = 2) ∧
  (o.access ≠ 1 → (objRange key v && s.writeRange key v) = false → result = 3) ∧
  ((objRange key v && s.writeRange key v) = true →
    (o.access = 2 → result = 0 ∧ t.rwVal key = objMask key v ∧ t.dict.staged = s.dict.staged) ∧
    (o.access = 3 → s.dict.commitState = 1 → result = 4) ∧
    (o.access = 3 → s.dict.commitState ≠ 1 → result = 0 ∧ t.stagedVal key = objMask key v ∧ t.dict.rw = s.dict.rw) ∧
    (o.access = 4 → result = 0 ∧ Store.get t.dict.held key = v)) ∧
  t.dict.applied = s.dict.applied ∧
  (result ≠ 0 → t.dict.rw = s.dict.rw ∧ t.dict.staged = s.dict.staged ∧
    t.counter 0x700001 = bump 32 (s.counter 0x700001) 1)

/-- The write that a row of one command object makes: where it comes from, the object, the value (R448). -/
def commandWrite : Instr → Option (Via × Nat × Word32)
  | .unitReset via v => some (via, 0x1F3101, v)
  | .laneReset via v => some (via, 0x1F3001, v)
  | .stepGo via v => some (via, 0x207003, v)
  | .swapGo via i v => some (via, (0x2020 + i) * 256 + 0x0C, v)
  | .swapAbort via i v => some (via, (0x2020 + i) * 256 + 0x0D, v)
  | .install via v => some (via, 0x600102, v)
  | .factoryRestore via v => some (via, 0x600103, v)
  | .contextBatchGo via n v _ => some (via, (0x4000 + n) * 256 + 0x22, v)
  | .commit via v _ => some (via, 0x200001, v)
  | .discardStaged via v => some (via, 0x200002, v)
  | .store via v => some (via, 0x1F2001, v)
  | .restoreDefaults via v => some (via, 0x1F2101, v)
  | .counterClear via v => some (via, 0x700101, v)
  | .eventPop via v => some (via, 0x710003, v)
  | .challengeRequest via v => some (via, 0x1E2001, v)
  | .transitionGo via v => some (via, 0x1E3003, v)
  | .snapshotGo via v => some (via, 0x800004, v)
  | .holdClear via v => some (via, 0x800105, v)
  | .holdSendGo via v => some (via, 0x800108, v)
  | .restoreGo via v => some (via, 0x801006, v)
  | .bistGo via v => some (via, 0x900002, v)
  | _ => none

/-- A write that arrives at its object and is closed to it (R450, R490 to R492), before any wipe holds it back (R493). -/
def State.closedTo (s : State) (via : Via) (key : Nat) : Bool :=
  s.managementUp &&
    match objInfo key with
    | none => false
    | some o =>
      match via with
      | .mesh eid _ => s.dict.endpoint != 0 && !s.permits (s.asker eid) o key true
      | .mirror => !s.permits .operator o key true

/-- What a detected edge or a write of Step Go does to a sleeping unit: the wake of table 3.1 starts (R91, R92), unless
bring-up has failed or stopped at the record (R489, R533). -/
def State.wakes (s t : State) : Prop :=
  (s.sensing.waking = none → s.sensing.power = .dormant → s.boundary.phase.still = false →
    t.sensing.waking = some (s.slow + 1200) ∧ t.counter 0x702004 = bump 32 (s.counter 0x702004) 1) ∧
  (s.sensing.waking = none → s.sensing.power = .standby → s.boundary.phase.still = false →
    t.sensing.waking = some (s.slow + 2)) ∧
  ((s.sensing.waking ≠ none ∨ s.sensing.power = .active ∨ s.boundary.phase.still = true) → t.sensing = s.sensing)

/-- An access to the object finds the lane clock gated, and starts it for as long as it takes (R23, R92). -/
def State.gated (s : State) (key : Nat) : Bool :=
  laneObject key && s.portsUp && s.sensing.waking.isNone && s.sensing.power == .dormant

/-- What a read leaves as it was beside the counters, the mirror and the outputs: all, but for what the lane domain loses
with its power where the read started the lane clock (R23, R90). -/
def State.keptByRead (s t : State) (key : Nat) : Prop :=
  (s.gated key = false → ∀ p, p ∉ [Part.counters, .mirror, .out] → p.same s t) ∧
  (s.gated key = true → t.counter 0x702004 = bump 32 (s.counter 0x702004) 1 ∧
    ∀ p, p ∉ [Part.counters, .mirror, .out, .hsOff, .heads, .lanes, .cache] → p.same s t)

/-- What comes of a start (table 14.2, R96, R418, R535, R548) with time stamp `at_`. -/
def State.takesStart (s t : State) (at_ : Nat) (byGo : Bool) : Prop :=
  (s.refusesStarts = true → t.steps = s.steps ∧ t.counter 0x709003 = bump 32 (s.counter 0x709003) 1 ∧
    (byGo = true → t.counter 0x700001 = bump 32 (s.counter 0x700001) 1)) ∧
  (s.refusesStarts = false → s.startBusy = true ∨ s.sensing.thermalHold = true →
    (s.steps.latched = none → t.steps = { s.steps with latched := some (at_, byGo, t.wakeLeft) }) ∧
    (s.steps.latched ≠ none → t.steps = s.steps ∧ t.counter 0x709002 = bump 32 (s.counter 0x709002) 1 ∧
      (byGo = true → t.counter 0x700001 = bump 32 (s.counter 0x700001) 1))) ∧
  (s.refusesStarts = false → s.startBusy = false → s.sensing.thermalHold = false →
    t.steps = { s.steps with held := some (at_, byGo, t.wakeLeft) })

/-- The bytes of the record at an address that results are written to: status, result_slot, result_length (R389). -/
def resultField (record a : Nat) : Bool := between (record + 6) a (record + 7) || between (record + 22) a (record + 27)

/-- A byte that the results of some record of a batch, or of a copy under way, are written to (R389, R390). -/
def State.resultByte (s : State) (a : Nat) : Prop :=
  ∃ e ∈ s.contexts.batches, (∃ k, resultField (e.2.addr + 32 * k) a = true) ∨ ∃ c ∈ e.2.copies, resultField c.1 a = true

/-- The reasons of table 14.6 for a row on its own, in the order in which they are checked. -/
def State.refusals (s : State) (r : StepRun) (a : Adm) (c : Cand) : List (Bool × Nat) :=
  let d := c.d
  let tenant := fun (sub : Nat) => s.cfg (0x400000 + 256 * d.tenant + sub)
  let ctx := if d.noContext then none else s.contextOf d.tenant d.slot
  let cut := lookupKey a.cuts c.group
  let (ops, buf) := s.operandBytes r d
  let area := valueAt a.operands c.group + ops
  let store := 16 * (valueAt a.quotas c.group + c.held.score.listLength) + area + r.paramRegion +
    max (valueAt a.buffers c.group) buf
  [(a.late, 0x0E06),
   (c.reserved, 0x0E01), (d.invalid, 0x0E02), (tenant 1 == 0, 0x0E03), (s.vocab == 0, 0x0A06),
   (d.kind == 3 && r.heirloom, 0x0C05), (d.learning && r.rollout, 0x0C03), (d.learning && tenant 2 % 2 == 0, 0x0C02),
   (d.kind == 3 && s.teacherInvalid d, 0x0C01),
   (!d.noContext && ctx.isNone, 0x0D02), (ctx.any (·.state != 1), 0x0D03),
   (ctx.isSome && d.kind == 1 && a.holds d.slot, 0x0D0C),
   (ctx.any fun x => d.kind == 1 && d.position != s.lengthOf x, 0x0D0D),
   (ctx.any fun x => d.kind == 1 && decide (1048576 ≤ s.lengthOf x), 0x0D07),
   (ctx.any fun x => decide (64 < (s.chain x).length + (s.appendNeed x (List.replicate (if d.kind = 1 then 1 else 0) 0)).2),
     0x0D08),
   (d.slots.any fun k => (lookupKey r.blocks k).isNone, 0x0E04), (d.slots.any (s.paramChanged r), 0x0505),
   (r.blockError d, 0x0E07), (s.courseMismatch r d, 0x0504), (s.criticUnusable r d, 0x0605),
   (d.external && d.hidden % 4096 != 0, 0x0507), (d.source != a.source [c] c, 0x0503),
   (d.scoreBlock % 64 != 0 || !c.held.score.valid || (c.held.score.useAutomaton &&
     (d.noContext || ((s.contextOf d.tenant d.slot).bind fun x => s.automaton x.automaton).isNone)), 0x0701),
   (d.learning && !c.held.learn.valid d s.brickCount (s.layout d.primary), 0x0C06),
   (cut.getD 0 != 0, cut.getD 0), (cut.isNone && decide (2 ^ 24 < area), 0x0506), (cut.isNone && decide (2 ^ 25 < store), 0x0801),
   (decide (s.historyFree < a.pages + d.need.2), 0x0D09),
   (d.rider && r.rollout && decide (r.riderFraction * r.rows.length / 1024 < a.riders + 1), 0x0C04),
   (tenant 3 != 2 ^ 64 - 1 && decide (tenant 3 < (s.budget d.tenant).used + valueAt a.needs d.tenant + d.need.1), 0x0E05),
   (r.head.deadline != 0 && decide (4 * r.head.deadline < s.estimate4 r (a.admitted ++ [c])), 0x0E06)]

/-- What the second pass of a group writes (R373 to R379, table 12.5), in order: address and bytes. A row that did not end OK
has no gf, and a leaf of +0. -/
def View.gradientWrites (v : View) : List (Nat × Bytes) :=
  let rows := v.r.emitRows v.gr
  let ok := fun (x : Nat × RowRun) => x.2.status == 0 && (v.r.finals.find? (·.index == v.gr.start + x.1)).any (·.status == 0)
  ((v.s.course.filter v.s.owns).flatMap fun b => rows.flatMap fun x =>
    let d := x.2.desc
    let p := x.2.held.learn
    let l := v.s.layout d.primary
    let gf := if ok x then v.dlogits x b else []
    let base := p.dlogitBase + d.learnIndex * p.dlogitStride
    (if p.emitDlogit then [(base + 4096 * b, (encodeDlogits p.e5m2 gf).1),
      (base + 4096 * v.s.brickCount + 4 * b, toLe 4 (encodeDlogits p.e5m2 gf).2.toNat)] else []) ++
    (if p.emitDh then [(p.dhBase + d.learnIndex * p.dhStride + l.width * p.dhWidth * b,
      leafBytes p (if ok x then v.dhLeaf x b gf else List.replicate l.width 0))] else [])) ++
  rows.flatMap fun x =>
    if x.2.held.learn.emitOperand then [(x.2.held.learn.operandBase + x.2.desc.learnIndex * x.2.held.learn.operandStride,
      operandBytes (v.s.layout x.2.desc.primary).format x.2.main)] else []

/-- The bytes that other agents have written by a command (its `host` operand). -/
def hostBytes : Instr → List Host.Cell
  | .laneStateResetEnd h | .stepBegin h | .stepBoundary h _ | .swapDone _ h | .contextBatchGo _ _ _ h | .commit _ _ h
    | .restoreChunkRead h => h
  | _ => []

/-- A tenant's next record, at `addr`, is due, in order (R390) and not held under R392. -/
def State.takesRecord (s : State) (tenant addr : Nat) (r : CtxRecord) : Prop :=
  s.portsUp = true ∧ (s.batch tenant).state = 1 ∧ (s.batch tenant).done < (s.batch tenant).count ∧
    s.nextRecord tenant = (addr, r) ∧ r.valid = true ∧ s.recordHeld r = false

/-- Such a record runs on the slot it names as it stands: no time to live there has ended (R406). -/
def State.runsRecord (s : State) (tenant addr : Nat) (r : CtxRecord) : Prop :=
  s.takesRecord tenant addr r ∧ (r.op = 1 ∨ ∀ c, s.context r.slot = some c → c.state = 3 → s.now < c.expiry)

/-- The record's results are written (R389) and the batch goes on; no other byte of memory is. -/
def State.endedRecord (s t : State) (tenant addr status slot length : Nat) : Prop :=
  t.mem = writeMem (writeMem s.mem (addr + 6) (toLe 2 status)) (addr + 22) (toLe 2 slot ++ toLe 4 length) ∧
    t.batch tenant = { s.batch tenant with done := (s.batch tenant).done + 1, held := false, listError := false } ∧
    (∀ u, u ≠ tenant → t.batch u = s.batch u) ∧
    ∀ a, (a < addr + 6 ∨ addr + 8 ≤ a) → (a < addr + 22 ∨ addr + 28 ≤ a) → readCell t.mem a = readCell s.mem a

/-- What a full context table leaves of a command that needs a slot (R393): no slot, page or row changes; Open Refusals
advances, as does the count of refused commands (table 13.13). -/
def State.turnsContextAway (s t : State) : Prop :=
  t.contexts.slots = s.contexts.slots ∧ t.contexts.nodes = s.contexts.nodes ∧ t.steps = s.steps ∧
    t.counter 0x708002 = bump 32 (s.counter 0x708002) 1 ∧ t.counter 0x708003 = bump 32 (s.counter 0x708003) 1

/-- A tenant's next record is due as op `op`, or as one of an unknown op, and `u` is the state once the reads of the context
table and the automaton cache for it are made, with the words in error they meet (R504). -/
def State.readsRecord (s u : State) (tenant op : Nat) (ecc : List EccHit) : Prop :=
  s.recordDue tenant op = true ∧ u = readHits ecc s

/-- The records for which a slot's copy runs: tenant and address. -/
def State.copiesOf (s : State) (slot : Nat) : List (Nat × Nat) :=
  s.contexts.batches.flatMap fun e => (e.2.copies.filter (·.2 == slot)).map fun c => (e.1, c.1)

/-- The slot's copies have ended with a status (R389, R390): their records bear their results, with the length that each
tenant sees, and their batches hold them no more. -/
def State.endedCopies (s t : State) (slot status : Nat) : Prop :=
  t.mem = (s.copiesOf slot).foldl (fun m x => writeMem (writeMem m (x.2 + 6) (toLe 2 status)) (x.2 + 22)
    (toLe 2 slot ++ toLe 4 (t.lengthSeen x.1 slot))) s.mem ∧
  ∀ n, t.batch n = { s.batch n with copies := (s.batch n).copies.filter fun c => c.2 != slot }

/-- The step with the statuses of some rows merged with one (R443). -/
def StepRun.marked (r : StepRun) (rows : List Nat) (status : Nat) : StepRun :=
  { r with rows := r.rows.zipIdx.map fun x =>
      if x.2 ∈ rows then { x.1 with status := mergeStatus x.1.status status } else x.1 }

/-- The record of a batch that its tenant's last command ran wrote pages of a slot (R395, R396): its own, or as a FORK its
parent's; it is at `addr`, names `result` and has ended OK. -/
def State.lastServes (s : State) (tenant slot addr result : Nat) : Prop :=
  between 1 (s.batch tenant).state 2 = true ∧ 0 < (s.batch tenant).done ∧
    addr = (s.batch tenant).addr + 32 * ((s.batch tenant).done - 1) ∧ s.numAt (addr + 6) 2 = 0 ∧
    result = s.numAt (addr + 22) 2 ∧ between 1 (CtxRecord.parse (s.bytesAt addr 32)).op 3 = true ∧
    (result = slot ∨ ((CtxRecord.parse (s.bytesAt addr 32)).op = 2 ∧ (CtxRecord.parse (s.bytesAt addr 32)).slot = slot))

/-- A context slot's words in error have freed it (table 17.6): its rows in the running step end MEMORY_UNCORRECTABLE, and
CONTEXT_LOST names it. -/
def State.losesSlot (s t : State) (slot : Nat) : Prop :=
  t.context slot = none ∧ (∀ k, k ≠ slot → t.context k = s.context k) ∧ (s.portsUp = false → t.mem = s.mem) ∧
    t.steps.run = s.steps.run.map (·.marked (s.rowsOfSlot slot) 0x1120) ∧
    (s.context slot ≠ none → s.events.events.length < 254 → t.queued 0x0D13 0 slot 0)

/-- A partner has refused a chunk (R514): HOLD_REFUSED, the whole image discarded, chain and memory as they were. -/
def State.holdRefused (s t : State) (src epoch : Nat) : Prop :=
  t.hold = { s.hold with source := some src, receiving := none } ∧ t.mem = s.mem ∧
    (s.events.events.length < 255 → t.queued 0x1108 0 src (epoch % 65536))

/-- A restore has failed with a reason (R519, table 17.11): everything restored is cleared. -/
def State.restoreFailed (s t : State) (r : RestoreRun) (reason : Nat) : Prop :=
  t.restore.state = 4 ∧ t.restore.reason = reason ∧ t.restore.run = none ∧ t.contexts.slots = [] ∧ t.mem = s.mem ∧
    (s.events.events.length < 255 → t.queued 0x110A 0 r.epoch reason)

/-- The first check of table 17.11 that the last chunk of an image fails, 0 for none (R518): generation and silicon step,
pages, digest, chain. -/
def State.lastChunkReason (s : State) (r : RestoreRun) (payload : Bytes) : Nat :=
  if fieldAt payload 0 1 ≠ 2 ∨ fieldAt payload 1 1 ≠ Config.siliconStep.toNat then 7
  else if s.cfg 0x205002 / 4096 < fieldAt payload 20 4 ∨ s.cfg 0x205005 / 4096 < fieldAt payload 24 4 then 8
  else if slice payload 32 32 ≠ sha256 r.digests then 5
  else if (if r.image = 0 then !bit (fieldAt payload 2 2) 0
      else bit (fieldAt payload 2 2) 0 || fieldAt payload 16 4 != r.prevEpoch) = true then 6
  else 0

/-- What a restore under way makes of one chunk that should carry epoch `e` (R518, table 17.11). -/
def State.judgesChunk (s t : State) (r : RestoreRun) (h : ChunkHead) (payload : Bytes) (e : Nat) : Prop :=
  (h.epoch ≠ e ∨ h.chunk < r.next → t.restore = s.restore ∧ t.contexts = s.contexts ∧ t.mem = s.mem ∧
    t.counter 0x70A207 = bump 32 (s.counter 0x70A207) 1) ∧
  (h.epoch = e → r.next < h.chunk → s.restoreFailed t r 4) ∧
  (h.epoch = e → h.chunk = r.next → sha256 payload ≠ h.digest →
    (r.source ≠ 1 → r.reread = false →
      t.restore.run = some { r with reread := true } ∧ t.restore.state = s.restore.state ∧ t.mem = s.mem) ∧
    (r.source = 1 ∨ r.reread = true → s.restoreFailed t r 3)) ∧
  (h.epoch = e → h.chunk = r.next → sha256 payload = h.digest →
    (h.last ≠ decide (h.chunk + 1 = h.count) → s.restoreFailed t r 4) ∧
    (h.last = false → h.chunk + 1 ≠ h.count →
      t.restore.chunksDone = bump 32 s.restore.chunksDone 1 ∧ t.restore.state = s.restore.state ∧
      t.restore.run = some { r with next := r.next + 1, digests := r.digests ++ h.digest, reread := false } ∧
      t.contexts = (applyChunk h payload s).contexts ∧ t.mem = (applyChunk h payload s).mem ∧
      (h.kind ≠ 2 → t.mem = s.mem)) ∧
    (h.last = true → h.chunk + 1 = h.count →
      (s.lastChunkReason r payload ≠ 0 → s.restoreFailed t r (s.lastChunkReason r payload)) ∧
      (s.lastChunkReason r payload = 0 → t.restore.chunksDone = bump 32 s.restore.chunksDone 1 ∧
        t.contexts.slots = s.contexts.slots ∧ t.mem = s.mem) ∧
      (s.lastChunkReason r payload = 0 → r.image + 1 ≠ s.rwVal 0x801005 → t.restore.state = s.restore.state ∧
        t.restore.run = some { r with
          image := r.image + 1, next := 0, digests := [], prevEpoch := fieldAt payload 4 4, reread := false }) ∧
      (s.lastChunkReason r payload = 0 → r.image + 1 = s.rwVal 0x801005 → t.restore.state = 3 ∧ t.restore.run = none ∧
        t.restore.quiesced = (if s.restore.quiesced = 1 then 0 else s.restore.quiesced) ∧
        t.steps.lastNumber = fieldAt payload 8 8 ∧ t.steps.anyNumber = true ∧
        (∀ n < 64, t.budget n = { used := fieldAt payload (128 + 16 * n) 8, period := fieldAt payload (136 + 16 * n) 8,
                                  reserved := 0 }) ∧
        (s.events.events.length < 255 → t.queued 0x1109 (fieldAt payload 8 8) r.epoch 0 ∧
          ∀ k, k ≠ 0x70A205 → k ≠ 0x705001 →
            t.counter k = (lookupKey (readCounters (payload.drop 1152)) k).getD 0))))

/-- Messages leave on the fabric port, or while the lanes are stopped are held to go out late (R101). -/
def State.sends (s t : State) (ms : List Bytes) : Prop :=
  if s.lanesStopped then t.mortar.late = s.mortar.late ++ ms ∧ t.out.fabric = s.out.fabric
  else t.out.fabric = s.out.fabric ++ ms ∧ t.mortar.late = s.mortar.late

/-- The link takes message `m` in its turn: open, whole, from a unit not Silent, the sequence expected, ready (R303). -/
def State.takesTurn (s : State) (m : Bytes) (typ : Nat) : Prop :=
  s.fabricOpen = true ∧ s.quiesceAllows typ (msgSource m) = true ∧ frameGood m = true ∧ msgType m = typ ∧
    (typ ≤ 2 ∨ (s.peer (msgSource m)).state ≠ 3) ∧ (typ = 1 → bit (fieldAt m 1 1) 0 = false) ∧
    (s.peer (msgSource m)).rxNext.getD (msgSequence m) = msgSequence m ∧ s.notReady m = false

end Sys2Proof.Machine
end

