-- ==== Sys2Proof/WellFormed.lean ====
section
/-! DEFINITION. Which commands can stand at the boundary: operands inside the ranges the manual gives
the thing they name (slots, tenants, groups, ports, addresses, message lengths). -/

namespace Sys2Proof

/-- A word found in error lies in a memory of table 17.5, and its rows in a pass group (R421). -/
def EccHit.wf (e : EccHit) : Bool :=
  decide (1 ≤ e.memory) && decide (e.memory ≤ 7) && decide (e.slot < 4) && (!e.region || e.memory == 3) && e.rows.all (· < 512)

/-- Written bytes have 64-bit addresses (R47, R48). -/
def cellsWf (cs : List Host.Cell) : Bool := cs.all fun c => decide (c.1 < 2 ^ 64)

/-- A mortar message is 1 to 1,026 whole flits (table 10.2). -/
def frameWf (m : Bytes) : Bool :=
  decide (m.length % 64 = 0) && decide (64 ≤ m.length) && decide (m.length ≤ 64 * 1026)

/-- A message body is at most 1,056 bytes (R451). -/
def bodyWf (m : Bytes) : Bool := decide (m.length ≤ 1056)

/-- Peer addresses have 12 bits (R295). -/
def peerWf (p : Nat) : Bool := decide (p < 4096)

/-- Descriptors and slots named by a transaction. -/
def Transaction.wf : Transaction → Bool
  | .headParams s | .swapParams s => decide (s < 4)
  | .swapRead s b => decide (s < 4) && decide (b < 393216)
  | .scoreParams a | .learnParams a | .bloomWrite a | .gradientWrite a | .restoreWrite a | .holdWrite a
  | .wipeWrite a =>
    decide (a < 2 ^ 64)
  | .rowData r | .historyRead r | .spillRead r => r.all (· < 16384)
  | .spillWrite r a => r.all (· < 16384) && decide (a < 2 ^ 64)
  | .historyWrite s a => decide (s < 8192) && decide (a < 2 ^ 64)
  | .resumeRead s => decide (s < 8192)
  | .commandRead t | .tokenList t => decide (t < 64)
  | .commandWrite t a => decide (t < 64) && decide (a < 2 ^ 64)
  | .manifest | .snapshotRead | .restoreRead | .holdRead | .directoryRead => true

/-- A 32-bit mirror access is aligned to 4 bytes (R458). -/
def mirrorWf (offset : Nat) : Bool := decide (offset % 4 = 0) && decide (offset < 2 ^ 32)

/-- Well-formed commands. -/
def Instr.wf : Instr → Bool
  | .laneStateResetEnd h | .stepBegin h | .commit _ _ h | .restoreChunkRead h => cellsWf h
  | .stepBoundary h e => cellsWf h && e.all EccHit.wf
  | .bringUpDone f | .bistDone f => decide (f < 2 ^ 11)
  | .laneRailDroop e w | .laneRailRecovery e w => decide (e ≤ 1000) && decide (w ≤ 1000)
  | .hsRailFault m | .aonRailFault m => decide (m ≤ 1000)
  | .temperatureReading p t => decide (p < 8) && decide (-40000 ≤ t) && decide (t ≤ 150000)
  | .intakeEnd g e => decide (g < 32) && e.all EccHit.wf
  | .residualPass g e l | .secondPass g e l => decide (g < 32) && e.all EccHit.wf && l.all (· < 2 ^ 16)
  | .passGroupBloomsAcknowledged g => decide (g < 32)
  | .admission e | .resetRelease e | .snapshotChunkRead e => e.all EccHit.wf
  | .tileExchange g l e => decide (g < 32) && decide (l < 2 ^ 16) && e.all EccHit.wf
  | .brickDrain g b e => decide (g < 32) && decide (b ≤ 256) && e.all EccHit.wf
  | .swapGo _ s _ | .swapAbort _ s _ => decide (s < 4)
  | .swapDone s h => decide (s < 4) && cellsWf h
  | .contextBatchGo _ t _ h => decide (t < 64) && cellsWf h
  | .openCtx t e | .fork t e | .append t e | .pause t e | .resume t e | .cancel t e => decide (t < 64) && e.all EccHit.wf
  | .contextBatchDone t => decide (t < 64)
  | .pauseCopyDone s | .resumeCopyDone s | .contextExpired s => decide (s < 8192)
  | .networkErrorResponse p w => decide (p < 4) && w.wf
  | .discover m | .caps m | .heartbeat m | .partialSum m | .histogram m | .petalList m | .bloomClaim m
  | .bondUpdate m | .statePage m | .linkAck m | .linkNak m => frameWf m
  | .mortarResendTimeout p q => peerWf p && decide (q < 2 ^ 32)
  | .peerSilenceTimeout p | .absenceNotice p | .absentResponse p => peerWf p
  | .read (.mesh _ m) | .write _ m | .readBlock _ m | .writeBlock _ m | .abort _ m => bodyWf m
  | .read (.mirror o) => mirrorWf o
  | .mirrorUpperWrite o _ => mirrorWf o && decide (o % 8 = 4)
  | .registerWrite o _ => mirrorWf o
  | .scrubRead f => f.all EccHit.wf
  | .tierLatencyWindow a b => decide (a < 2 ^ 32) && decide (b < 2 ^ 32)
  | .powerOnReset | .unitRstN | .laneRstN | .unitReset _ _ | .unitResetTakesEffect | .laneReset _ _
  | .laneResetDrainEnd | .networkDrainTimeout | .unitDisable | .powerOff | .stepSyncEdge _
  | .tsLoad _ | .wakeComplete | .activeIdleExpiry | .standbyIdleExpiry | .stepGo _ _ | .install _ _
  | .factoryRestore _ _ | .imageInstalled _ | .heartbeatTimer _ | .fabricEnable _ _ | .setEndpointId _
  | .getEndpointId _ | .getMctpVersionSupport _ _ | .getMessageTypeSupport _ | .blockTransferTimeout _ _
  | .mailboxGo _ | .discardStaged _ _ | .store _ _ | .storeDone _ | .restoreDefaults _ _ | .counterClear _ _
  | .eventPop _ _ | .eventReadable | .challengeRequest _ _ | .challengeExpiry | .challengeLockoutEnd
  | .transitionGo _ _ | .transitionVerified | .lifecycleChanged | .wipeDone | .snapshotGo _ _ | .holdClear _ _
  | .holdSendGo _ _ | .restoreGo _ _ | .restoreChunkTimeout | .leadConflict _ | .bistGo _ _
  | .holdChunkPlaced | .holdSendChunkRead => true

end Sys2Proof
end

