-- ==== Sys2Proof/Certificates/Slice0/Obligations.lean ====
section
/-! DEFINITION. The statements of slice 0. -/

section

open Sys2Proof Sys2Proof.Machine

/-! ### The machine -/

/-- A step takes the command at the front of the queue and runs it with the queue's rest. -/
def Obligations.StepRunsFrontCommand : Prop :=
  ∀ (s : State) (i : Instr) (rest : List Instr),
    step { s with pending := i :: rest } = exec i { s with pending := rest }

/-- On an empty queue time passes: the model's choice (log entry 1). While the lane clock runs at 4.0 GHz 1 ns passes
(R64) until the slow cycle is whole; else one slow cycle: the valid time-stamp copy advances by 10 (R62, R63: not while
it owes what it stands ahead), the time in the power state by 10 ns; an unpowered unit idles. Then a test 10 whose turn has
come begins, once no swap runs: every head slot is Empty (R535; its time is the model's choice, log entry 38). -/
def Obligations.IdleStepPassesOneSlowCycle : Prop :=
  ∀ s : State, s.pending = [] →
    (s.sensing.power = .off → step s = .next (beginMarch s)) ∧
    (s.fullSpeed = true → s.ts.phase < 9 →
      step s = .next (beginMarch { s with ts := { s.ts with phase := s.ts.phase + 1 } })) ∧
    (∀ u : State, (u.marchTime = false ∨ (∃ h ∈ u.heads, h.state = 1) → beginMarch u = u) ∧
      (u.marchTime = true → u.heads.length = 4 → (∀ h ∈ u.heads, h.state ≠ 1) →
        (beginMarch u).upkeep.marchDue = none ∧
        (∀ j < 4, ((beginMarch u).head j).state = 0 ∧ ((beginMarch u).head j).frames = 0) ∧
        ∀ p, p ∉ [Part.heads, .tests] → p.same u (beginMarch u))) ∧
    (s.sensing.power ≠ .off → s.fullSpeed = false ∨ 9 ≤ s.ts.phase → ∃ t, step s = .next (beginMarch t) ∧ t.slow = s.slow + 1 ∧
      t.ts.phase = 0 ∧ t.ts.valid = s.ts.valid ∧
      (s.ts.valid = false → t.ts.value = s.ts.value ∧ t.ts.hold = s.ts.hold) ∧
      (s.ts.valid = true → s.ts.hold = 0 → t.ts.value = (s.ts.value + 10) % 2 ^ 64) ∧
      (s.ts.valid = true → 10 ≤ s.ts.hold → t.ts.value = s.ts.value ∧ t.ts.hold = s.ts.hold - 10) ∧
      (s.sensing.power = .dormant → t.counter 0x702003 = bump 64 (s.counter 0x702003) 10) ∧
      (s.sensing.power = .standby → t.counter 0x702002 = bump 64 (s.counter 0x702002) 10) ∧
      (s.sensing.power = .active → t.counter 0x702001 = bump 64 (s.counter 0x702001) 10) ∧
      ∀ p, p ∉ [Part.clock, .counters, .run, .slow] → p.same s t)

/-- The invariant holds right after reset. -/
def Obligations.InvariantAtReset : Prop :=
  State.reset.Inv

/-- Every step keeps the invariant, from every state that has it. -/
def Obligations.StepKeepsInvariant : Prop :=
  ∀ s t : State, s.Inv → step s = .next t → t.Inv

/-- No command changes a part of the state that is not among those `mayChange` lists for it: registers, queues, the
chip memory and the outputs each by name. Of the chip memory a commit, a Context Batch Go, STEP_BEGIN and SWAP_DONE change
only what other agents wrote; the boundary, the end of a lane reset, the context commands and their copies, error
responses, scrub and image reads and conflicts of the lead token write besides only the result fields of context records
(R389, R390); WIPE_DONE only the areas of the record (R487). -/
def Obligations.CommandsChangeOnlyTheirParts : Prop :=
  (∀ (i : Instr) (s t : State), i.wf = true → exec i s = .next t → ∀ p, p ∉ mayChange i → p.same s t) ∧
  (∀ (s t : State) (via : Via) (tenant slot : Nat) (v : Word32) (host : List Host.Cell) (i : Instr),
     i ∈ [.commit via v host, .contextBatchGo via tenant v host, .stepBegin host, .swapDone slot host] →
     exec i s = .next t → t.mem = overlay s.mem host) ∧
  (∀ (s t : State) (tenant slot : Nat) (west : Bool) (port : Nat) (what : Transaction) (found ecc : List EccHit)
       (host : List Host.Cell) (i : Instr),
     i ∈ [.stepBoundary host ecc, .laneStateResetEnd host, .openCtx tenant ecc, .fork tenant ecc, .append tenant ecc,
       .pause tenant ecc, .resume tenant ecc, .cancel tenant ecc, .pauseCopyDone slot, .resumeCopyDone slot,
       .networkErrorResponse port what, .scrubRead found, .snapshotChunkRead ecc, .leadConflict west] →
     exec i s = .next t →
     ∀ a, ¬ s.resultByte a → readCell t.mem a = readCell (overlay s.mem (hostBytes i)) a) ∧
  (∀ s t : State, exec .wipeDone s = .next t → ∀ a,
     (∀ area ∈ s.life.record.areas, a < area.1 ∨ area.1 + area.2 ≤ a) → readCell t.mem a = readCell s.mem a)

/-! ### Resets and bring-up -/

/-- The unit with its power-on reset asserted: table 2.4, and the isolation of table 2.6. The model's choices: the memory
lists nothing (log entry 5), and what a reset leaves is in force from its assertion (log entry 26). -/
def Obligations.ResetStateIsIsolatedAndEmpty : Prop :=
  State.reset.managementUp = false ∧ State.reset.portsUp = false ∧ State.reset.evtIrq = false ∧
  State.reset.boundary.tsReq = false ∧ State.reset.boundary.phase = .asserted .powerOn ∧
  State.reset.sensing.power = .dormant ∧ State.reset.ts.valid = false ∧ State.reset.now = 0 ∧
  (∀ k, State.reset.rwVal k = objDefault k ∧ State.reset.cfg k = objDefault k) ∧
  State.reset.dict.staged = [] ∧ State.reset.events.events = [] ∧ State.reset.mortar.peers = [] ∧
  State.reset.steps.run = none ∧ State.reset.upkeep.westFenced = false ∧
  (∀ k, State.reset.counter k = 0) ∧ (∀ slot, State.reset.context slot = none) ∧
  (∀ i, (State.reset.head i).state = 0) ∧ (∀ t, (State.reset.budget t).used = 0) ∧ State.reset.mem = []

/-- A power-on reset (`deep`) or a unit reset, by its pin or after a write of Unit Reset, leaves the unit as table 2.4
says, with every port isolated (table 2.6) and every RW and RWS object at its default; a unit reset under a power-on reset
is absorbed (R67). The model's choices (log entry 26): what is held is taken when the reset is asserted, the endpoint ID
becomes 0, and a unit reset in Off is absorbed; a head slot's remains are those of log entry 59. With UNIT_DISABLE at 1 the
Head Store stays powered down (R77). -/
def Obligations.PowerOnAndUnitResetReach : Prop :=
  ∀ (s : State) (i : Instr) (deep : Bool),
    (i = .powerOnReset ∧ deep = true) ∨
      ((i = .unitRstN ∨ (i = .unitResetTakesEffect ∧ s.boundary.unitResetDue = true)) ∧ deep = false) →
    (deep = true ∨ (s.boundary.phase ≠ .asserted .powerOn ∧ s.sensing.power ≠ .off) →
      ∃ t, exec i s = .next t ∧
        t.boundary.phase = .asserted (if deep then .powerOn else .unit) ∧
        t.portsUp = false ∧ t.managementUp = false ∧ t.boundary.tsReq = false ∧ t.boundary.unitResetDue = false ∧
        t.sensing.power = .dormant ∧ t.sensing.hsOff = (s.boundary.unitDisable || (!deep && s.sensing.hsOff)) ∧
        t.ts.valid = false ∧
        (∀ k, t.rwVal k = objDefault k ∧ t.cfg k = objDefault k) ∧
        t.dict.staged = [] ∧ t.dict.commitState = 0 ∧ t.dict.transfers = [] ∧ t.dict.endpoint = 0 ∧
        t.events.events = [] ∧ (∀ slot, t.context slot = none) ∧ (∀ tenant, (t.budget tenant).used = 0) ∧
        t.historyFree = t.cfg 0x205002 / 4096 ∧ t.mortar.peers = [] ∧ t.upkeep.westFenced = false ∧
        t.steps.run = none ∧ t.steps.latched = none ∧ t.fseq.loaded = none ∧ t.lanes = .initial ∧ t.contexts.cache = [] ∧
        (s.life.writing = none → t.life.record = s.life.record) ∧ t.nvm.settings = s.nvm.settings ∧ t.mem = s.mem ∧
        (deep = true → (∀ k, t.counter k = 0) ∧ ∀ j, (t.head j).state = 0) ∧
        (deep = false → (s.steps.latched = none → s.steps.held = none → t.dict.counters = s.dict.counters) ∧
          (∀ j, t.head j = (s.head j).afterReset) ∧
          ∀ j, (s.head j).state = 5 → (t.head j).state = 0)) ∧
    (deep = false → (s.boundary.phase = .asserted .powerOn ∨ s.sensing.power = .off) → exec i s = .next s)

/-- POWER_OFF leaves every port isolated, the counters and every head slot lost, non-volatile memory as it was (R88,
tables 2.4 and 2.6). With UNIT_DISABLE at 1 every port is isolated and the lane and Head Store rails are off, the step
and the head slots lost (R54, R77). The model's choices (log entry 27): a disabled unit reads Dormant, and a reset's release
brings nothing up. -/
def Obligations.PowerOffAndDisableIsolate : Prop :=
  (∀ s : State, ∃ t, exec .powerOff s = .next t ∧ t.sensing.power = .off ∧ t.portsUp = false ∧ t.managementUp = false ∧
     t.steps.run = none ∧ (∀ k, t.counter k = 0) ∧ (∀ j, (t.head j).state = 0) ∧ (∀ slot, t.context slot = none) ∧
     t.nvm.settings = s.nvm.settings ∧ (s.life.writing = none → t.life.record = s.life.record) ∧
     t.mem = s.mem) ∧
  (∀ s : State,
     (∃ t, exec .unitDisable s = .next t ∧ t.boundary.unitDisable = true ∧ t.portsUp = false ∧ t.managementUp = false ∧
       t.boundary.tsReq = false ∧ t.evtIrq = false ∧ t.laneRails = false ∧ t.steps.run = none ∧ t.lanes = .initial ∧
       (∀ j < 4, (t.head j).state = 0 ∧ (t.head j).frames = 0) ∧
       (s.sensing.power ≠ .off → t.sensing.power = .dormant ∧ t.sensing.hsOff = true ∧ t.sensing.waking = none) ∧
       (s.sensing.power = .off → t.sensing = s.sensing) ∧
       t.life = s.life ∧ t.dict.rw = s.dict.rw ∧ t.dict.applied = s.dict.applied ∧ t.dict.staged = s.dict.staged ∧
       t.mem = s.mem) ∧
     (s.boundary.unitDisable = true → s.sensing.power ≠ .off →
       (s.boundary.phase = .asserted .powerOn ∨ s.boundary.phase = .asserted .unit) →
       ∀ ecc, exec (.resetRelease ecc) s = .next s))

/-- A lane reset by its pin: the ports isolated, the management ports not, the step abandoned (R66 to R69, R72), the lane
clock started where it does not run (R74, R92), what table 2.4 calls held as it was. One that has no reach is absorbed: R67
says so under a deeper reset; in bring-up, in a failed and in a SCRAPPED unit it is the model's choice (log entry 25). It is
accepted on a slow edge (R545): the slow cycle under way ends. A test 10 whose turn has come and that waits for the swaps
dropped empties every slot (R535). -/
def Obligations.LaneResetReach : Prop :=
  ∀ s : State,
    (s.laneResettable = false → exec .laneRstN s = .next s) ∧
    (s.laneResettable = true → ∃ t, exec .laneRstN s = .next t ∧
      t.boundary.phase = .draining ∧ t.portsUp = false ∧ t.managementUp = true ∧ t.steps.run = none ∧
      t.steps.latched = none ∧ t.steps.held = none ∧
      (s.steps.run.isSome = true → t.boundary.abandoned = true) ∧
      (s.boundary.phase = .idle → s.sensing.waking = none → s.sensing.power = .active →
        t.boundary.laneReturn = .standby) ∧
      (s.boundary.phase = .idle → s.sensing.waking = none → s.sensing.power = .dormant →
        t.boundary.laneReturn = .dormant) ∧
      (slowEdge s).wakes t ∧ t.lanes = .initial ∧
      t.upkeep.westFenced = false ∧ t.dict.transfers = [] ∧ t.life.challenge = none ∧
      (∀ j < 4, (s.head j).state = 1 → (t.head j).state = 0 ∧ (t.head j).frames = 0) ∧
      ((slowEdge s).marchTime = false → ∀ j, (s.head j).state ≠ 1 → t.head j = s.head j) ∧
      ((slowEdge s).marchTime = true → s.heads.length = 4 → ∀ j < 4, (t.head j).state = 0 ∧ (t.head j).frames = 0) ∧
      t.life.record = s.life.record ∧ t.nvm.settings = s.nvm.settings ∧ t.dict.rw = s.dict.rw ∧
      t.dict.applied = s.dict.applied ∧ t.dict.staged = s.dict.staged ∧ t.dict.commitState = s.dict.commitState ∧
      t.fseq.loaded = s.fseq.loaded ∧ t.ts = (slowEdge s).ts ∧ t.slow = (slowEdge s).slow ∧
      (s.restore.run = none → t.contexts.budgets = s.contexts.budgets) ∧
      ∀ p, (t.peer p).state = (s.peer p).state)

/-- A lane reset drains, until the last response or for 1,000 slow cycles (R83: NETWORK_DRAIN_TIMEOUT, counted), on a slow
edge, a wake under way ending first (R98); then its lane-domain state reset runs (R545). At the end of a lane reset (R70)
LANE_RESET_DONE is raised, provisional pages and reserved budget are returned, UNIT_PRESENT is 1 and the unit, once nothing of R92 runs (R95), is
in the power state it goes back to (table 2.3). -/
def Obligations.LaneResetRunsToItsEnd : Prop :=
  (∀ s : State, s.boundary.phase = .draining → s.sensing.waking = none →
     exec .laneResetDrainEnd s = .next { slowEdge s with boundary := { s.boundary with phase := .laneState } } ∧
     (∃ t, exec .networkDrainTimeout s = .next t ∧ t.boundary.phase = .laneState ∧
       t.boundary.unitPresent = s.boundary.unitPresent ∧
       (s.events.events.length < 255 → t.counter 0x70000D = bump 32 (s.counter 0x70000D) 1 ∧ t.queued 0x0203 0 0 0) ∧
       ∀ p, p ∉ [Part.reset, .events, .counters] → p.same (slowEdge s) t)) ∧
  (∀ (s : State) (host : List Host.Cell), s.boundary.phase = .laneState →
     ∃ t, exec (.laneStateResetEnd host) s = .next t ∧ t.boundary.phase = .idle ∧
       t.portsUp = !s.boundary.unitDisable ∧ t.boundary.abandoned = false ∧ t.boundary.laneWoke = false ∧
       (s.steps.run = none → t.steps.run = none) ∧
       (s.sensing.power ≠ .active → t.sensing.power = s.sensing.power) ∧
       t.contexts.reservedPages = 0 ∧ (∀ e ∈ t.contexts.slots, e.2.provisional = 0) ∧
       (∀ e ∈ t.contexts.budgets, e.2.reserved = 0) ∧
       (s.contexts.batches = [] → (∀ e ∈ s.contexts.slots, e.2.cancelPending = false) → s.dict.commitState ≠ 1 →
         s.restore.requested = false → s.upkeep.heirloomFell = false →
         t.mem = overlay s.mem host ∧ (s.events.events.length < 240 → t.queued 0x0204 0 0 0) ∧
         (s.sensing.power = .active → s.nothingPending = true → (∀ h ∈ s.heads, h.state ≠ 2) →
           s.upkeep.bistWaiting = false →
           t.sensing.power = (if s.boundary.laneReturn = .dormant then .dormant else .standby))))

/-- RESET_RELEASE of a power-on or unit reset: TS_REQ rises (R62), the life-cycle record is the one held over a unit
reset, after a power-on reset that of the valid copy, SCRAPPED where there is none (R479, R528); but for SCRAPPED
(R489) the settings memory is loaded, or where it holds no image, or a word of it is uncorrectable (table 17.6), the objects
stand as the reset left them, at their defaults (R468, R472); UNIT_PRESENT stays 0. BRING_UP_DONE (R533): with tests 1 to 9
passed the ports are connected and the unit is Active, the lane clock at the row that the readings give (R99); with one
failed, or with UNIT_DISABLE at 1 (R77; log entry 27), the unit stays isolated in Dormant, BIST Failures naming the tests,
the Head Store powered down unless it is retained (R90). The model's choices: the words in error that the load meets come
with RESET_RELEASE (log entry 84), a settings memory that holds nothing is no image (log entry 30), the row of the readings
is taken at the end of bring-up's wake and only once one has been taken (log entry 24), and that wake ends at the latest
with the tests (log entry 26). -/
def Obligations.ReleaseLoadsAndBringUpEnds : Prop :=
  (∀ (s : State) (k : ResetKind) (rec : Option LifeRecord) (ecc : List EccHit) (lost : Bool), s.sensing.power ≠ .off →
     s.boundary.unitDisable = false → s.boundary.phase = .asserted k →
     rec = (if k = .powerOn then s.nvm.record else some s.life.record) →
     lost = ecc.any (fun e => e.memory == 7 && e.uncorrectable) →
     ((∀ r, rec = some r → r.state = 6) → ∃ t, exec (.resetRelease ecc) s = .next t ∧ t.boundary.phase = .scrapped ∧
       t.portsUp = false ∧ t.managementUp = true ∧ t.boundary.tsReq = true ∧ t.life.record.state = 6) ∧
     (∀ r, rec = some r → r.state ≠ 6 → ∃ t, exec (.resetRelease ecc) s = .next t ∧ t.boundary.phase = .bringUp ∧
       t.portsUp = false ∧ t.managementUp = true ∧ t.boundary.tsReq = true ∧ t.life.record = r ∧
       (∀ rw rws, s.nvm.settings = some (rw, rws) → lost = false →
         t.dict.rw = rw ∧ t.dict.applied = rws ∧ t.dict.staged = rws ∧ t.dict.settingsSource = 1) ∧
       (s.nvm.settings = none ∨ lost = true → t.dict.rw = s.dict.rw ∧ t.dict.applied = s.dict.applied ∧
         t.dict.settingsSource = 2 ∧
         (s.dict.rw = [] → s.dict.applied = [] → ∀ k, t.rwVal k = objDefault k ∧ t.cfg k = objDefault k)) ∧
       (s.nvm.image.fails = 0 → t.fseq.loaded = some s.nvm.image ∧ t.fseq.source = 1) ∧
       (s.nvm.image.fails ≠ 0 → t.fseq.loaded = some .factory ∧ t.fseq.source = 2))) ∧
  (∀ (s : State) (failures : Nat), s.boundary.phase = .bringUp →
     (failures &&& 0x3FE = 0 → s.boundary.unitDisable = false →
       ∃ t, exec (.bringUpDone failures) s = .next t ∧ t.boundary.phase = .idle ∧
       t.portsUp = true ∧ t.sensing.power = .active ∧
       (s.sensing.power ≠ .active → t.sensing.hsOff = false ∧ t.sensing.waking = none ∧
         (s.sensing.railsRead = true →
           t.sensing.laneRow = max s.sensing.laneRow (railRow (min s.sensing.railE s.sensing.railW)))) ∧
       (s.sensing.power = .active → t.sensing = s.sensing) ∧
       t.upkeep.bistState = 2 ∧ t.upkeep.bistFailures = 0 ∧ t.life.record = s.life.record ∧
       t.dict.applied = s.dict.applied ∧ t.heads = s.heads) ∧
     (failures &&& 0x3FE ≠ 0 ∨ s.boundary.unitDisable = true →
       ∃ t, exec (.bringUpDone failures) s = .next t ∧ t.boundary.phase = .failed ∧
       t.portsUp = false ∧ t.upkeep.bistState = (if failures &&& 0x3FE = 0 then 2 else 3) ∧
       t.upkeep.bistFailures = failures &&& 0x3FE ∧
       t.sensing.power = .dormant ∧
       (s.rwVal 0x300005 = 1 → t.heads = s.heads ∧
         t.sensing.hsOff = if s.sensing.power = .active then s.sensing.hsOff else false) ∧
       (s.rwVal 0x300005 ≠ 1 → t.sensing.hsOff = true ∧ ∀ j < 4, (t.head j).state = 0 ∧ (t.head j).frames = 0)))

/-! ### Clocks, power and sensing -/

/-- A STEP_SYNC edge: ignored while isolated (R61), lost within 40 ns of the last detected one and counted (R59),
otherwise a wake cause (R92) and, with Start Source 1, a start whose time is that of the edge at the pin (R60: 1 ns
before it is seen while the lane clock runs, else 20 ns); with another source it is refused (R417). TS_LOAD (R62,
R63): the first load sets the copy and TS_REQ falls; later a copy behind TS_VALUE is set to it, one ahead is held
until it is made good, and each difference is counted, on a slow edge. That TS_VALUE is taken rounded down to the copy's
10 ns is the model's choice (log entry 21). -/
def Obligations.ClockInputsAct : Prop :=
  (∀ (s : State) (time : Nat),
     (s.portsUp = false → exec (.stepSyncEdge time) s = .next s) ∧
     (∀ e, s.portsUp = true → s.boundary.lastEdge = some e → time < e + 40 →
       ∃ t, exec (.stepSyncEdge time) s = .next t ∧ t.boundary = s.boundary ∧ t.steps = s.steps ∧ t.sensing = s.sensing ∧
         t.counter 0x700006 = bump 32 (s.counter 0x700006) 1) ∧
     (s.portsUp = true → (∀ e, s.boundary.lastEdge = some e → e + 40 ≤ time) →
       ∃ t, exec (.stepSyncEdge time) s = .next t ∧ t.boundary = { s.boundary with lastEdge := some time } ∧
         s.wakes t ∧
         (s.rwVal 0x207002 = 1 → s.takesStart t (s.now -
           if s.sensing.power = .active ∧ s.sensing.laneRow < 4 then 1 else 20) false) ∧
         (s.rwVal 0x207002 ≠ 1 → t.steps = s.steps ∧ t.counter 0x709003 = bump 32 (s.counter 0x709003) 1))) ∧
  (∀ (s : State) (v : Word64),
     (s.managementUp = false → exec (.tsLoad v) s = .next s) ∧
     (s.managementUp = true → ∃ t, exec (.tsLoad v) s = .next t ∧ t.ts.valid = true ∧ t.ts.phase = 0 ∧
       (s.ts.valid = false → t.ts.value = v.toNat / 10 * 10 ∧ t.ts.hold = 0 ∧ t.boundary.tsReq = false ∧
         t.counter 0x700007 = s.counter 0x700007) ∧
       (s.ts.valid = true → s.ts.phase = 0 →
         (s.ts.value = v.toNat / 10 * 10 → t.ts.value = s.ts.value ∧ t.ts.hold = 0 ∧ t.dict.counters = s.dict.counters) ∧
         (s.ts.value < v.toNat / 10 * 10 → t.ts.value = v.toNat / 10 * 10 ∧ t.ts.hold = 0 ∧
           t.counter 0x700007 = bump 32 (s.counter 0x700007) 1) ∧
         (v.toNat / 10 * 10 < s.ts.value → t.ts.value = s.ts.value ∧
           t.ts.hold = s.ts.value - v.toNat / 10 * 10 ∧ t.counter 0x700007 = bump 32 (s.counter 0x700007) 1))))

/-- The end of a wake (R91): Active, or Standby where a lane reset waits for one that was under way (R98); the lane
clock runs at the row that the readings held give, once one has been taken (R99, R100; that it is so at the end of the wake
and not before a first reading is the model's choice, log entry 24). Active falls to Standby (R93), what is held for stopped
lanes going out with the time it is sent at, as far as the link still sends it (the model's choice, log entry 50); Standby to Dormant where Power Floor allows (R94), the lanes holding
nothing (R89); without retention the Head Store powers down and every slot is Empty, with retention it keeps its
contents (R90). -/
def Obligations.PowerStatesChange : Prop :=
  (∀ s : State, s.sensing.waking ≠ none →
     ∃ t, exec .wakeComplete s = .next t ∧ t.sensing.waking = none ∧ t.sensing.hsOff = false ∧
       (s.boundary.phase = .draining ∧ s.boundary.laneWoke = false → t.sensing.power = .standby) ∧
       (s.boundary.phase ≠ .draining ∨ s.boundary.laneWoke = true → t.sensing.power = .active) ∧
       (s.sensing.railsRead = false → t.sensing.laneRow = s.sensing.laneRow ∧ t.dict.counters = s.dict.counters) ∧
       (s.sensing.railsRead = true →
         t.sensing.laneRow = max s.sensing.laneRow (railRow (min s.sensing.railE s.sensing.railW)))) ∧
  (∀ s : State, s.portsUp = true → s.nothingPending = true →
     (s.sensing.power = .active → ∃ t, exec .activeIdleExpiry s = .next t ∧
       t.sensing = { s.sensing with power := .standby } ∧ t.ts.phase = 0 ∧ t.mortar.late = [] ∧
       t.out.fabric = s.out.fabric ++ ((s.mortar.late.filter s.sendsHeld).map fun m => sealed m (msgSequence m) t.now) ∧
       t.heads = s.heads ∧ t.lanes = s.lanes) ∧
     (s.sensing.power = .standby → s.rwVal 0x300002 = 1 →
       ∃ t, exec .standbyIdleExpiry s = .next t ∧ t.sensing.power = .dormant ∧ t.lanes = .initial ∧ t.contexts.cache = [] ∧
         (s.rwVal 0x300005 = 1 → t.heads = s.heads ∧ t.sensing.hsOff = s.sensing.hsOff) ∧
         (s.rwVal 0x300005 ≠ 1 → t.sensing.hsOff = true ∧ ∀ j < 4, (t.head j).state = 0 ∧ (t.head j).frames = 0)))

/-- A lane-rail reading (R99, R100): the lower one decides; down at once and over several rows, counted (R101), up one
row, what is held for stopped lanes going out (R101). The model's choices: it bears the time it is sent at and goes only as
far as the link still sends it (log entry 50), and the row stays where the rails are off, one row up per recovery
command (log entry 58). VDD_HS outside 0.700 V to 0.800 V starts a Head Store scrub pass
(R102, R505), VDD_AON outside 0.720 V to 0.780 V raises its event (R102); a reading inside changes only the reading.
-/
def Obligations.RailReadingsAct : Prop :=
  (∀ (s : State) (e w : Nat), s.sensing.power ≠ .off →
     (∃ t, exec (.laneRailDroop e w) s = .next t ∧ t.sensing.railE = e ∧ t.sensing.railW = w ∧
       (s.laneRails = true → s.sensing.laneRow < railRow (min e w) →
         t.sensing.laneRow = railRow (min e w) ∧ t.counter 0x700008 = bump 32 (s.counter 0x700008) 1 ∧
         (s.events.events.length < 254 → t.queued 0x0301 0 0 0 ∧ (min e w < 650 → t.queued 0x0302 0 0 0))) ∧
       (s.laneRails = false ∨ railRow (min e w) ≤ s.sensing.laneRow →
         t.sensing.laneRow = s.sensing.laneRow ∧ t.counter 0x700008 = s.counter 0x700008)) ∧
     (∃ u, exec (.laneRailRecovery e w) s = .next (stepDown u) ∧ u.sensing.railE = e ∧ u.sensing.railW = w ∧
       (s.laneRails = true → 0 < s.sensing.laneRow → stepUp s.sensing.laneRow ≤ min e w →
         u.sensing.laneRow = s.sensing.laneRow - 1 ∧ (stepDown u).sensing.laneRow = s.sensing.laneRow - 1 ∧
         (s.steps.run = none → u.mortar.late = [] ∧ u.out.fabric = s.out.fabric ++
           ((s.mortar.late.filter s.sendsHeld).map fun m => sealed m (msgSequence m) u.now))) ∧
       (s.laneRails = false ∨ s.sensing.laneRow = 0 ∨ min e w < stepUp s.sensing.laneRow →
         u.sensing.laneRow = s.sensing.laneRow))) ∧
  (∀ (s : State) (mv : Nat), s.sensing.power ≠ .off →
     (∃ t, exec (.hsRailFault mv) s = .next t ∧ t.sensing.railHs = mv ∧
       (700 ≤ mv ∧ mv ≤ 800 → t.upkeep = s.upkeep ∧ t.events = s.events) ∧
       (mv < 700 ∨ 800 < mv → t.upkeep.hsPass = some (scrubLines 1) ∧
         (s.events.events.length < 255 → t.queued 0x0303 0 0 0))) ∧
     (∃ t, exec (.aonRailFault mv) s = .next t ∧ t.sensing.railAon = mv ∧ t.upkeep = s.upkeep ∧
       (720 ≤ mv ∧ mv ≤ 780 → t.events = s.events) ∧
       (mv < 720 ∨ 780 < mv → s.events.events.length < 255 → t.queued 0x0304 0 0 0)))

/-- A temperature reading of the next point of the rotation (R103, R104): the point holds it, Peak Temperature never
falls, the highest of the eight caps the lane clock at Thermal Hold and frees a held start 5 °C below it. The window's
mean latencies stand in Tier A Latency and Tier B Latency (table 3.4). -/
def Obligations.TemperaturesAndLatenciesAct : Prop :=
  (∀ (s : State) (p : Nat) (c : Int), s.sensing.power ≠ .off → p < 8 →
     (∀ n, s.sensing.nextPoint = some n → n = p) →
     ∃ t, exec (.temperatureReading p c) s = .next t ∧ t.sensing.temps = s.sensing.temps.set p c ∧
       t.sensing.nextPoint = some ((p + 1) % 8) ∧
       t.sensing.thermalCap = decide (s.holdAt ≤ t.hottest) ∧ t.sensing.warned = decide (s.warnAt ≤ t.hottest) ∧
       t.sensing.thermalHold = (s.sensing.thermalHold && decide (s.holdAt - 5000 < t.hottest)) ∧
       (s.steps.latched = none → t.steps.latched = none ∧ t.steps.held = s.steps.held ∧
         (signed32 (s.counter 0x702006) < c → t.counter 0x702006 = unsigned32 c) ∧
         (c ≤ signed32 (s.counter 0x702006) → t.counter 0x702006 = s.counter 0x702006) ∧
         (s.warnAt ≤ t.hottest → s.sensing.warned = false → s.events.events.length < 255 → t.queued 0x0305 0 0 0))) ∧
  (∀ (s : State) (a b : Nat), s.sensing.power ≠ .off → a < 2 ^ 32 → b < 2 ^ 32 →
     exec (.tierLatencyWindow a b) s = .next { s with sensing := { s.sensing with tierA := a, tierB := b } })

/-! ### Steps -/

/-- STEP_BEGIN (R419): the held start's step reads the manifest at Manifest Address, with its time, its wake time and the
record unit and run mode now in force, and the blocks and lists each row names are held as they stand (R214, R219); a
header that R420 or R421 refuses leaves it without rows. -/
def Obligations.StepBeginReadsTheManifest : Prop :=
  ∀ (s : State) (host : List Host.Cell) (time wake : Nat) (go : Bool),
    s.steps.held = some (time, go, wake) → s.beginDue = true →
    ∃ t r, exec (.stepBegin host) s = .next t ∧ t.mem = overlay s.mem host ∧ t.steps.held = none ∧
      t.steps.run = some r ∧ t.steps.latched = s.steps.latched ∧ t.steps.lastNumber = s.steps.lastNumber ∧
      r.admitted = false ∧ r.lost = [] ∧ r.manifest = s.rwVal 0x207001 ∧ r.begun = time ∧ r.byGo = go ∧ r.wake = wake ∧
      r.mode = s.cfg 0x200020 ∧ r.record = s.cfg 0x501003 ∧ r.finals = [] ∧
      r.head = StepHead.parse (t.bytesAt r.manifest 256) ∧
      (headerValid (t.bytesAt r.manifest 256) = true → r.rows.length = r.head.rowCount ∧
        r.groups.map (·.count) = r.head.groups) ∧
      (∀ x ∈ r.rows, x.held = (hostWrites host s).readBlocks x.desc) ∧
      (headerValid (t.bytesAt r.manifest 256) = false → r.rows = [] ∧ r.groups = [])

/-- ADMISSION of a manifest that a read error, its header or its step number (R422, table 14.11) refuses, whatever
words in error its reads met: a lane reset, Last Step Status naming the cause. ADMISSION of an accepted manifest
(R422, R428, R431, R433): the step is placed in its tenants' budget periods, its number is the last one, every row has
the outcome its unit of admission got; then everything that can go on does (R36, R322). A row on its own has the reason of
the first check of table 14.6 that fails, in the order listed; the rows of a chain have one reason, that of a malformed or
conflicting one after orders 1 to 3 of all its rows. The model's choices: the order inside the list and the unit of admission
(log entry 39), the chain judged at its first row and alt_base ahead of the step number (log entry 40), the operand area and
the row buffers (log entries 76 and 86). -/
def Obligations.AdmissionRefusesOrSettles : Prop :=
  (∀ (s : State) (r : StepRun) (ecc : List EccHit), s.steps.run = some r → r.admitted = false → s.working = true →
     s.laneResettable = true →
     r.readErrors.contains .manifest = true ∨ r.rows = [] ∨
       (r.head.alternatives = 0 ∧ ∃ x ∈ r.rows, 0 < x.desc.alternatives) ∨ (s.steps.anyNumber = false ∧ r.head.number ≠ (s.steps.lastNumber + 1) % 2 ^ 64) →
     ∃ t, exec (.admission ecc) s = .next t ∧ t.steps.run = none ∧ t.portsUp = false ∧ t.boundary.phase = .draining ∧
       t.boundary.abandoned = true ∧ t.steps.lastNumber = s.steps.lastNumber ∧ t.steps.anyNumber = true ∧
       t.lanes = .initial ∧ (s.restore.run = none → t.contexts.budgets = s.contexts.budgets) ∧
       (r.readErrors.contains .manifest = true → t.steps.lastStatus = 0x0E22) ∧
       (r.readErrors.contains .manifest = false → r.rows = [] → t.steps.lastStatus = 0x0E20) ∧
       (r.readErrors.contains .manifest = false → r.head.alternatives = 0 → (∃ x ∈ r.rows, 0 < x.desc.alternatives) →
         t.steps.lastStatus = 0x0E20) ∧
       (r.readErrors.contains .manifest = false → r.rows ≠ [] → r.head.alternatives ≠ 0 → t.steps.lastStatus = 0x0E21)) ∧
  (∀ (s : State) (r : StepRun) (ecc : List EccHit), s.steps.run = some r → r.admitted = false → s.working = true →
     s.manifestStatus r = 0 →
     ∃ u q, exec (.admission ecc) s = .next (pump u) ∧ u.steps.run = some q ∧ u.steps.lastNumber = r.head.number ∧
       u.steps.anyNumber = false ∧ q.admitted = true ∧ q.head = r.head ∧ q.admittedTime = s.now ∧
       q.rows.map (·.desc) = r.rows.map (·.desc) ∧
       (∀ t < 64, (u.budget t).period = r.head.time / s.cfg (0x400004 + 256 * t) ∧
         (u.budget t).used = if (s.budget t).period = r.head.time / s.cfg (0x400004 + 256 * t) then (s.budget t).used else 0) ∧
       (∀ i why y, (i, why) ∈ ((placeBudgets r.head.time s).admitAll r).done →
         (∀ w, (i, w) ∈ ((placeBudgets r.head.time s).admitAll r).done → w = why) →
         q.rows[i]? = some y → y.refusal = why)) ∧
  (∀ (s : State) (r : StepRun) (a : Adm) (c : Cand), c.d.kind ≠ 2 →
     (s.admitUnit r a [c]).done = a.done ++ [(c.index, firstFailing (s.refusals r a c))]) ∧
  (∀ (s : State) (r : StepRun) (a : Adm) (unit : List Cand) (f : Cand), unit.head? = some f →
     ∃ why, (s.admitUnit r a unit).done = a.done ++ unit.map (fun c => (c.index, why)) ∧
       (a.late = true → why = 0x0E06) ∧
       (a.late = false → f.d.kind = 2 → s.checkForm r f = 0 → s.chainMalformed unit = true →
         why = firstFailing (unit.map (fun c => (s.checkForm r c != 0, s.checkForm r c)) ++ [(true, 0x0B01)])) ∧
       (a.late = false → f.d.kind = 2 → s.checkForm r f = 0 → s.chainMalformed unit = false → a.holds f.d.slot = true →
         why = firstFailing (unit.map (fun c => (s.checkForm r c != 0, s.checkForm r c)) ++ [(true, 0x0B02)])))

/-- INTAKE_END (R143 to R151, R160, R191): the rows of the group get their operands, whatever words in error its reads
met; without any, rows of other groups, refused rows and rows with external scores stay as they were. TILE_EXCHANGE
(R28, R155, R156, table 3.4): the latency is read; the 16th successive load above 40 lane cycles raises
HEAD_STORE_SLOW; without words in error the lanes take the tile loaded, which adds to the sums of every row of the
group, and the shadow set loads the next. A tile read while the pass of HS_RAIL_FAULT runs is uncorrectable (R505): the
group's rows end MEMORY_UNCORRECTABLE and its slot is to fail at action 4 (table 17.6). The model's choices: the run of slow
loads begins again at the 16th (log entry 67), and a tile is judged as it is read into the shadow set (log entry 57). -/
def Obligations.IntakeAndTilesGoOn : Prop :=
  (∀ (s : State) (g : Nat) (ecc : List EccHit) (r : StepRun) (gr : GroupRun),
     s.steps.run = some r → s.group g = some gr → s.intakeDue g = true →
     ∃ t q, exec (.intakeEnd g ecc) s = .next t ∧ t.steps.run = some q ∧ q.rows.length = r.rows.length ∧
       t.group g = some { gr with intake := true } ∧
       ∀ i x, r.rows[i]? = some x → ∃ y, q.rows[i]? = some y ∧
         (gr.start ≤ i ∧ i < gr.start + gr.count → y.main = (intakeRow s r x).main ∧
           y.second = (intakeRow s r x).second ∧ y.criticOp = (intakeRow s r x).criticOp ∧ (ecc = [] → y = intakeRow s r x)) ∧
         (i < gr.start ∨ gr.start + gr.count ≤ i ∨ x.refusal ≠ 0 ∨ x.desc.external = true →
           y.main = x.main ∧ y.second = x.second ∧ y.criticOp = x.criticOp ∧ (ecc = [] → y = x))) ∧
  (∀ (s : State) (g latency : Nat) (ecc : List EccHit) (r : StepRun) (gr : GroupRun),
     s.steps.run = some r → s.group g = some gr → s.exchangeDue g = true →
     ∃ t p, exec (.tileExchange g latency ecc) s = .next t ∧ (s.passes r gr)[gr.filled]? = some p ∧
       t.sensing.headLatency = min latency 65535 ∧
       (latency ≤ 40 → t.sensing.slowLoads = 0) ∧
       (40 < latency → s.sensing.slowLoads ≠ 15 → t.sensing.slowLoads = s.sensing.slowLoads + 1) ∧
       (40 < latency → s.sensing.slowLoads = 15 → t.sensing.slowLoads = 0) ∧
       (ecc = [] → (∀ sh, s.lanes.shadow = some sh → sh.slot = p.slot → sh.frame = s.frameOf p gr.tiles → sh.bad = true →
         (∀ i x, gr.start ≤ i → i < gr.start + gr.count → r.rows[i]? = some x →
           ∃ y, t.stepRows[i]? = some y ∧ y.status = mergeStatus x.status 0x1120) ∧
         (p.slot < s.heads.length → (t.head p.slot).failing = true))) ∧
       (ecc = [] → s.upkeep.hsPass = none → (∀ sh, s.lanes.shadow = some sh → sh.bad = false) →
         t.group g = some (gr.tileDone (s.layout p.slot).tiles) ∧ t.heads = s.heads ∧ t.mem = s.mem ∧
         t.lanes.shadow = t.nextTile.map (fun n => t.readTile n.1 n.2) ∧
         (40 < latency → s.sensing.slowLoads = 15 → s.events.events.length < 255 → t.queued 0x0307 0 0 0) ∧
         ∀ tile, tile = s.readTile p.slot (s.frameOf p gr.tiles) → s.lanes.shadow = none ∨ s.lanes.shadow = some tile →
           t.lanes.active = some tile ∧ t.lanes.buffers = s.fillBuffers r g gr p tile))

/-- BRICK_DRAIN of a brick of the course without words in error (R34, R210 to R240): every admitted row keeps the
values its sum columns, or its external scores, give for the brick; the columns are free, and the petals that rows must
place stand in the spill area one row behind the other (R265, R269; their places are the model's choice, log entry 79); then
everything that can go on does. The first of an Heirloom group's two passes over its course keeps no values (R541).
BRICK_DRAIN of the critic pair (R192), whatever words are in error: the group's critic is done and its
columns are free; without any, each admitted row that names a critic has the value its columns give. -/
def Obligations.BricksAndCriticDrain : Prop :=
  (∀ (s s' : State) (g b : Nat) (r : StepRun) (gr : GroupRun),
     s.steps.run = some r → s.group g = some gr → s.drainDue g b = true → b ≠ 256 → s' = cacheMasks gr b s →
     ∃ u, exec (.brickDrain g b []) s = .next (pump u) ∧ u.heads = s.heads ∧
       (s.maximumDue r gr = true → u.mem = s.mem ∧ u.group g = some { gr with firstPass := gr.firstPass + 1 } ∧
         u.lanes.buffers = s.lanes.buffers.eraseP (fun y => y.group == g && y.brick == b)) ∧
       (s.maximumDue r gr = false → ∃ done,
         done = { gr with
           drained := gr.drained ++ [(b, (r.groupRows gr).map fun x =>
             if x.2.refusal ≠ 0 then RowBrick.none
             else if x.2.desc.external then
               (s'.rowBrick r (gr.start + x.1) x.2 b (s'.externalScores x.2.desc b) none).1
             else (s'.rowBrick r (gr.start + x.1) x.2 b (((s.columns g b).headD []).getD x.1 [])
               (((s.columns g b)[1]?).map fun y => y.getD x.1 [])).1)] } ∧
         u.group g = some done ∧
         u.lanes.buffers = s.lanes.buffers.filter (fun y => !(y.group == g && y.brick == b)) ∧
         u.mem = writeMem s.mem (s.cfg 0x203001)
           (((placeAll (s.cfg 0x203002) { r with groups := r.groups.set g done }.spillRows).2.flatMap (·.2)).flatMap
             Petal.encode))) ∧
  (∀ (s : State) (g : Nat) (ecc : List EccHit) (r : StepRun) (gr : GroupRun),
     s.steps.run = some r → s.group g = some gr → s.drainDue g 256 = true →
     ∃ u q, exec (.brickDrain g 256 ecc) s = .next (pump u) ∧ u.steps.run = some q ∧
       u.group g = some { gr with criticDone := true } ∧
       u.lanes.buffers = s.lanes.buffers.filter (fun y => !(y.group == g && y.brick == 256)) ∧
       (ecc = [] → ∀ c ∈ s.critics r gr (s.columns g 256), (∀ d ∈ s.critics r gr (s.columns g 256), d.1 = c.1 → d = c) →
         ∃ x, r.rows[c.1]? = some x ∧ q.rows[c.1]? = some { x with critic := c.2.1 }))

/-- The end of a pass group (R331, R436, R438): every row has its record, a bloom of 128 bytes that bears its status and
row, alternatives only where it ended OK; the record unit writes every row's bloom, and the alternatives of every row that
ended OK, at their places and nothing else, another unit writes nothing. -/
def Obligations.GroupsEndWithTheirBlooms : Prop :=
  ∀ (v : View) (cs cs2 : List Claim) (s : State),
    (∀ x ∈ v.rows, (v.finalOf cs cs2 x).index = v.gr.start + x.1 ∧ (v.finalOf cs cs2 x).bloom.length = 128 ∧
      fieldAt (v.finalOf cs cs2 x).bloom 0 2 = (v.finalOf cs cs2 x).status % 65536 ∧
      fieldAt (v.finalOf cs cs2 x).bloom 8 2 = (v.gr.start + x.1) % 65536 ∧
      ((v.finalOf cs cs2 x).status ≠ 0 → (v.finalOf cs cs2 x).alternatives = []) ∧
      ((v.finalOf cs cs2 x).status = 0 → (v.finalOf cs cs2 x).alternatives.length = 16 * x.2.desc.alternatives)) ∧
    (∀ r, s.steps.run = some r → ∃ q, (finishGroup v cs cs2 s).steps.run = some q ∧ q.rows = r.rows ∧
      q.finals = r.finals ++ v.rows.map (v.finalOf cs cs2)) ∧
    (v.r.record = v.me → ∀ x, v.rows = [x] → (v.finalOf cs cs2 x).status ≠ 0 → (finishGroup v cs cs2 s).mem =
      writeMem s.mem (v.r.head.bouquet + 128 * (v.gr.start + x.1)) (v.finalOf cs cs2 x).bloom) ∧
    (v.r.record = v.me → Memory.wf s.mem = true → ∀ n, (∀ x ∈ v.rows, v.gr.start + x.1 < n ∧ x.2.desc.alternatives ≤ 64) →
      v.r.head.bouquet + 128 * n ≤ v.r.head.alternatives ∨ v.r.head.alternatives + 1024 * n ≤ v.r.head.bouquet →
      ∀ x ∈ v.rows,
        readMem (finishGroup v cs cs2 s).mem (v.r.head.bouquet + 128 * (v.gr.start + x.1)) 128 = (v.finalOf cs cs2 x).bloom ∧
        ((v.finalOf cs cs2 x).status = 0 →
          readMem (finishGroup v cs cs2 s).mem (v.r.head.alternatives + 1024 * (v.gr.start + x.1))
            (16 * x.2.desc.alternatives) = (v.finalOf cs cs2 x).alternatives)) ∧
    ∀ a, (v.r.record = v.me → ∀ x ∈ v.rows,
        (a < v.r.head.bouquet + 128 * (v.gr.start + x.1) ∨ v.r.head.bouquet + 128 * (v.gr.start + x.1) + 128 ≤ a) ∧
        (a < v.r.head.alternatives + 1024 * (v.gr.start + x.1) ∨
          v.r.head.alternatives + 1024 * (v.gr.start + x.1) + 16 * x.2.desc.alternatives ≤ a)) →
      readCell (finishGroup v cs cs2 s).mem a = readCell s.mem a

/-- RESIDUAL_PASS and SECOND_PASS (R346, R371): each due pass of a group runs, once, whatever words in error its reads met.
Without any, the residual pass leaves the claims of the group's residual rows, and the second pass writes, brick by brick
and row by row, the dlogits with their scales, the dh leaves and the operands at the places of table 12.5 (R373 to R379),
and no other byte: 4,096 codes a brick, all +0 for a row that did not end OK. Without a KL term an entry's gf is
A·φ·(p − u) (R373); a learning row's loss is formed from its own logprobs and KL (R370). The tiles a pass loads again have
their latencies read (R105): the last one's stands, the 16th slow one in a row raises HEAD_STORE_SLOW; that they come as an
operand of the pass is the model's choice (log entry 67). -/
def Obligations.LanePassesRunOnce : Prop :=
  (∀ (s : State) (g : Nat) (ecc : List EccHit) (loads : List Nat),
    (s.residualDue g = true → ∃ u gr, exec (.residualPass g ecc loads) s = .next (noteLoads loads (pump u)) ∧ u.group g = some gr ∧
      gr.residual.isSome = true ∧ u.residualDue g = false ∧
      (ecc = [] → s.upkeep.hsPass = none → ∀ v, s.view g = some v → gr.residual = some
        ((v.rows.filter fun x => (v.residualRows (v.finalClaims.getD [])).any (·.1 == x.1)).map v.residualClaim))) ∧
    (s.secondDue g = true → ∃ u gr, exec (.secondPass g ecc loads) s = .next (noteLoads loads (endStepWork u)) ∧
      u.group g = some gr ∧
      gr.secondPass = true ∧ u.secondDue g = false ∧
      (ecc = [] → s.upkeep.hsPass = none → ∀ v, s.view g = some v →
        u.mem = v.gradientWrites.foldl (fun m w => writeMem m w.1 w.2) s.mem))) ∧
  (∀ (u : State) (loads : List Nat) (l : Nat), (noteLoads (loads ++ [l]) u).sensing.headLatency = min l 65535 ∧
    (l ≤ 40 → (noteLoads (loads ++ [l]) u).sensing.slowLoads = 0) ∧
    (loads.length = 16 → (∀ x ∈ loads, 40 < x) → u.sensing.slowLoads = 0 → u.events.events.length < 255 →
      (noteLoads loads u).queued 0x0307 0 0 0) ∧
    ∀ p, p ∉ [Part.latency, .events, .counters] → p.same u (noteLoads loads u)) ∧
  (∀ (e5m2 : Bool) (gf : List (Nat × F32)), (encodeDlogits e5m2 gf).1.length = 4096 ∧
    (encodeDlogits e5m2 []).1 = List.replicate 4096 0) ∧
  (∀ (g : GradIn) (p : PipeRow) (t : Nat) (a : F32) (y : Piped) (r2 : Option F32), f32Eq g.params.klCoef 0 = true →
    g.params.sampling = false →
    dlogit g p t a y r2 = w40ToF32 (w40Mul
      (w40Mul (f32ToW40 g.weight) (f32ToW40 (chainFactors p ((lookupKey p.counts t).getD 0) a y).2.1))
      (w40Sub (probOf true g.raw y.r) (if t = g.target then w40One else w40Zero)))) ∧
  (∀ (v : View) (c : Claim) (x : Nat × RowRun) (b : Bloom), c.status = 0 → b = (v.endTeacher c x).bloom →
    b.loss = if x.2.desc.learning then
      f32Add (f32Mul (f32Neg x.2.desc.weight) (if x.2.held.learn.sampling then b.logprob else b.rawLogprob))
        (f32Mul x.2.held.learn.klCoef (if f32Eq x.2.held.learn.klCoef 0 then 0 else b.kl)) else 0)

/-- PASS_GROUP_BLOOMS_ACKNOWLEDGED at the record unit (R441, R524): blooms_ready in the summary moves past the group,
never back, and no other byte is written before the summary's end. The last group's acknowledgement writes the whole
summary (R441): the step waits for its boundary. -/
def Obligations.BloomsAreReadyAndSummaryEnds : Prop :=
  (∀ (s : State) (g : Nat) (r : StepRun) (gr : GroupRun),
     s.steps.run = some r → s.group g = some gr → s.working = true → r.record = s.address →
     gr.written = true → gr.acknowledged = false → (∀ x ∈ r.groups.take g, x.acknowledged = true) →
     ∃ u q, exec (.passGroupBloomsAcknowledged g) s = .next (endStepWork u) ∧ u.steps.run = some q ∧
       u.group g = some { gr with acknowledged := true } ∧ q.bloomsReady = max r.bloomsReady (gr.start + gr.count) ∧
       q.endTime = s.now ∧
       u.mem = writeMem s.mem r.head.summary (toLe 4 q.bloomsReady)) ∧
  (∀ (s : State) (r : StepRun), s.steps.run = some r → r.admitted = true → r.summaryDone = false →
     ((∀ x ∈ r.groups, x.written = true ∧ (x.acknowledged = true ∨ r.record ≠ s.address) ∧
         (x.secondPass = true ∨ r.emitRows x = [])) →
       (endStepWork s).steps.run = some { r with summaryDone := true } ∧ (endStepWork s).stepState = 3 ∧
       (endStepWork s).mem = writeMem s.mem r.head.summary (r.summary s)) ∧
     ((∃ x ∈ r.groups, x.written = false) → endStepWork s = s))

/-- STEP_BOUNDARY (R40, R51, table 1.6), whatever words in error its reads met: after actions 1 to 7 no step runs, the slow
cycle under way has ended, Last Step Status is the step's and no row's reservation is left. Action 1 raises the step's end
with its number, its rows and its status (R442); action 2 appends the tokens of the final rows (R350) and charges them to
their tenants (R430); action 3 frees the slots with a cancel pending (R392); action 4 loads Finished slots (R174); action 6
begins a held swap, or refuses it (R42, R172). -/
def Obligations.StepBoundaryEndsTheStep : Prop :=
  ∀ (s : State) (host : List Host.Cell) (ecc : List EccHit) (r : StepRun), s.steps.run = some r → r.summaryDone = true →
    s.working = true →
    ∃ t, exec (.stepBoundary host ecc) s = .next t ∧ t.steps.run = none ∧ t.ts.phase = 0 ∧ t.steps.lastStatus = r.stepStatus ∧
      t.steps.lastNumber = s.steps.lastNumber ∧ t.steps.anyNumber = s.steps.anyNumber ∧ t.lanes = .initial ∧
      (s.restore.requested = false → s.steps.latched = none → t.steps.latched = none ∧ t.steps.held = s.steps.held) ∧
      t.contexts.reservedPages = 0 ∧ (∀ e ∈ t.contexts.slots, e.2.provisional = 0) ∧
      (∀ e ∈ t.contexts.budgets, e.2.reserved = 0) ∧
      (s.contexts.batches = [] → t.mem = overlay s.mem host) ∧
      (ecc = [] → s.events.events.length < 255 →
        t.queued 0x0E10 r.head.number (if r.record = s.address then r.finals.length else 0) r.stepStatus) ∧
      (s.restore.requested = false → s.dict.commitState ≠ 1 → ∀ tenant, (s.budget tenant).used < 2 ^ 64 →
        (t.budget tenant).used = min ((s.budget tenant).used + (r.finals.map fun f =>
          if (r.rows[f.index]?).any (·.desc.tenant == tenant) then f.appended.length else 0).sum) (2 ^ 64 - 1)) ∧
      (ecc = [] → s.restore.requested = false → s.contexts.batches = [] →
        (∀ e ∈ s.contexts.slots, e.2.cancelPending = false) →
        ∀ slot c f, s.context slot = some c → c.automatonState = noState → c.leaf < s.contexts.nextNode →
          (∀ k d, k ≠ slot → s.context k = some d → d.leaf ≠ c.leaf) →
          (r.finals.filter fun f => (r.rows[f.index]?).any fun x => !x.desc.noContext && x.desc.slot == slot) = [f] →
          (s.node c.leaf).tokens.length + f.appended.length ≤ 65536 →
          t.context slot = some { c with
            provisional := 0, lastStep := if f.appended = [] then c.lastStep else r.head.number } ∧
          (t.node c.leaf).tokens = (s.node c.leaf).tokens ++ f.appended.map fun w => (w, noState)) ∧
      ((∀ e ∈ s.contexts.batches, e.2.held = false) →
        ∀ slot c, s.context slot = some c → c.cancelPending = true → t.context slot = none) ∧
      (s.heads.length = 4 → s.upkeep.bistWaiting = false → (∀ k, (s.head k).failing = false) → ∀ j < 4,
        ((s.head j).state = 3 → t.head j = { s.head j with state := 4, layout := (s.head j).next }) ∧
        ((s.head j).state = 2 → (∀ k, k ≠ j → (s.head k).state ≠ 2) →
          ((s.head j).next.swapValid (s.otherFrames j) = true → (t.head j).state = 1 ∧ (t.head j).next = (s.head j).next ∧
            (t.head j).frames = (s.head j).next.framesNeeded) ∧
          ((s.head j).next.swapValid (s.otherFrames j) = false → t.head j = { s.head j with state := 4 })))

/-! ### Head swaps and images -/

/-- SWAP_GO (R172, table 5.7) that reaches its slot: refused while it loads, is Finished or held; held where the
running step reads a Loaded slot (R42); otherwise the captured values are checked and the swap starts, or is refused;
outside MAKER and FIELD no such write reaches it (R491). SWAP_ABORT (table 5.7) that reaches its slot: Loading or
Finished becomes Empty with its frames freed, a held swap is given up, any other state refuses it; a test 10 that has waited
for the swap given up alone then empties every slot (R535). SWAP_DONE (R173, R174): the slot's frames hold the bytes at its
Source Address, its parameter CRC is taken; Finished while a step runs, else Loaded with its new layout; the other slots are
as they were. Where test 10 has waited for this swap alone, every slot is Empty (R535); a swap begun while test 10 marches
ends behind it (the model's choice, log entry 38). -/
def Obligations.SwapCommandsAct : Prop :=
  (∀ (s : State) (via : Via) (i : Nat), i < 4 → s.heads.length = 4 →
     s.takesWrite via ((0x2020 + i) * 256 + 0x0C) = true →
     ∃ t, exec (.swapGo via i 0x53574150) s = .next t ∧ t.answered s via ((0x2020 + i) * 256 + 0x0C) 0 ∧
       (∀ j, j ≠ i → t.head j = s.head j) ∧
       (1 ≤ (s.head i).state ∧ (s.head i).state ≤ 3 →
         t.heads = s.heads ∧ t.counter 0x700001 = bump 32 (s.counter 0x700001) 1) ∧
       ((s.head i).state = 4 → s.stepReads i = true →
         t.head i = { s.head i with state := 2, next := s.captureLayout i }) ∧
       ((s.head i).state ≠ 4 ∨ s.stepReads i = false → ¬ (1 ≤ (s.head i).state ∧ (s.head i).state ≤ 3) →
         s.runsSteps = true ∧
         ((s.captureLayout i).swapValid (s.otherFrames i) = true →
           (t.head i).state = 1 ∧ (t.head i).next = s.captureLayout i ∧
           (t.head i).frames = (s.captureLayout i).framesNeeded ∧ (t.head i).layout = (s.head i).layout ∧
           (t.head i).weights = [] ∧ s.wakes t) ∧
         ((s.captureLayout i).swapValid (s.otherFrames i) = false →
           t.heads = s.heads ∧ t.counter 0x700001 = bump 32 (s.counter 0x700001) 1 ∧
           (s.events.events.length < 255 → t.queued 0x0508 0 i 0)))) ∧
  (∀ (s : State) (via : Via) (i : Nat), i < 4 → s.heads.length = 4 →
     s.takesWrite via ((0x2020 + i) * 256 + 0x0D) = true →
     ∃ t, exec (.swapAbort via i 0x41425254) s = .next t ∧ t.answered s via ((0x2020 + i) * 256 + 0x0D) 0 ∧
       (s.marchTime = false ∨ ((s.head i).state ≠ 1 ∧ (s.head i).state ≠ 3) ∨ (∃ j, j ≠ i ∧ (s.head j).state = 1) →
         ∀ j, j ≠ i → t.head j = s.head j) ∧
       (s.marchTime = true → (s.head i).state = 1 ∨ (s.head i).state = 3 → (∀ j, j ≠ i → (s.head j).state ≠ 1) →
         ∀ j < 4, (t.head j).state = 0 ∧ (t.head j).frames = 0) ∧
       ((s.head i).state = 1 ∨ (s.head i).state = 3 → (t.head i).state = 0 ∧ (t.head i).frames = 0 ∧
         (s.events.events.length < 255 → t.queued 0x050C 0 i 0)) ∧
       ((s.head i).state = 2 → t.head i = { s.head i with state := 4 } ∧
         (s.events.events.length < 255 → t.queued 0x050C 0 i 0)) ∧
       ((s.head i).state = 0 ∨ 4 ≤ (s.head i).state → t.heads = s.heads ∧
         t.counter 0x700001 = bump 32 (s.counter 0x700001) 1)) ∧
  (∀ (s : State) (i : Nat) (host : List Host.Cell), (s.head i).state = 1 → s.working = true → s.marching = false →
     ∃ t, exec (.swapDone i host) s = .next t ∧ t.mem = overlay s.mem host ∧
       (s.events.events.length < 255 → t.queued 0x0509 0 i 0) ∧
       (s.marchTime = true → s.heads.length = 4 → (∀ j, j ≠ i → (s.head j).state ≠ 1) →
         ∀ j < 4, (t.head j).state = 0 ∧ (t.head j).frames = 0) ∧
       (s.marchTime = false ∨ (∃ j, j ≠ i ∧ (s.head j).state = 1) →
       (t.head i).weights = window t.mem (s.head i).next.source ((s.head i).next.framesNeeded * 524288) ∧
       (t.head i).bytesDone = (s.head i).next.framesNeeded * 524288 ∧
       (t.head i).paramCrc = (crc32 (paramBlock t.mem (s.head i).next)).toNat ∧
       (s.steps.run ≠ none → (t.head i).state = 3 ∧ (t.head i).layout = (s.head i).layout) ∧
       (s.steps.run = none → (t.head i).state = 4 ∧ (t.head i).layout = (s.head i).next) ∧
       (∀ j, j ≠ i → t.head j = s.head j)))

/-- INSTALL and FACTORY_RESTORE (R202 to R205) that reach their object: BUSY while a Store or an install writes; a
buffer that fails a check of table 6.11 (R200) is refused with its reason; otherwise the write starts. IMAGE_INSTALLED (R202, R204): the image stands in the persistent store, or none does after a write
error. The model's choices: the stored image is broken from the start of the write (log entry 31), and Reject Reason
becomes 0 where the checks pass (log entry 78). -/
def Obligations.InstallsAreCheckedAndEnd : Prop :=
  (∀ (s : State) (via : Via),
     (s.takesWrite via 0x600102 = true → ∃ t, exec (.install via 0x494E5354) s = .next t ∧
       (s.writerBusy = true → t.answered s via 0x600102 5 ∧ t.fseq = s.fseq ∧ t.nvm = s.nvm) ∧
       (s.writerBusy = false → s.fseq.buffer.fails = 0 → t.answered s via 0x600102 0 ∧ t.nvm.image = .zeros ∧
         t.fseq = { s.fseq with installing := some s.fseq.buffer, installState := 1, rejectReason := 0 }) ∧
       (s.writerBusy = false → s.fseq.buffer.fails ≠ 0 → t.answered s via 0x600102 0 ∧ t.nvm = s.nvm ∧
         t.fseq = { s.fseq with installState := 3, rejectReason := s.fseq.buffer.fails } ∧
         t.counter 0x700001 = bump 32 (s.counter 0x700001) 1)) ∧
     (s.takesWrite via 0x600103 = true → ∃ t, exec (.factoryRestore via 0x46414354) s = .next t ∧
       (s.writerBusy = true → t.answered s via 0x600103 5 ∧ t.fseq = s.fseq ∧ t.nvm = s.nvm) ∧
       (s.writerBusy = false → t.answered s via 0x600103 0 ∧ t.nvm.image = .zeros ∧
         t.fseq = { s.fseq with installing := some .factory, installState := 1, rejectReason := 0 }))) ∧
  (∀ (s : State) (m : MicroImage) (ok : Bool), s.fseq.installing = some m →
     ∃ t, exec (.imageInstalled ok) s = .next t ∧ t.nvm.image = (if ok then m else .zeros) ∧
       t.fseq = { s.fseq with installing := none, installState := if ok then 2 else 4 } ∧
       (s.events.events.length < 255 → t.queued (if ok then 0x0603 else 0x0604) 0 0 0))

/-! ### Contexts -/

/-- CONTEXT_BATCH_GO (R388) that reaches its object: BUSY while the tenant's batch runs or is held; a batch out of its
layout, or on a quiesced unit, is rejected; otherwise the batch runs from its first record. CONTEXT_BATCH_DONE once
every record's status is written (R390); CONTEXT_EXPIRED frees a Paused slot at its expiry_time, and a command that
names it from then on finds it freed (R406). -/
def Obligations.ContextBatchesStartAndEnd : Prop :=
  (∀ (s : State) (via : Via) (n : Nat) (host : List Host.Cell), n < 64 →
     s.takesWrite via ((0x4000 + n) * 256 + 0x22) = true →
     ∃ t, exec (.contextBatchGo via n 0x43545842 host) s = .next t ∧ t.mem = overlay s.mem host ∧
       (∀ k, k ≠ n → t.batch k = s.batch k) ∧
       ((s.batch n).state = 1 ∨ (s.batch n).state = 2 →
         t.answered s via ((0x4000 + n) * 256 + 0x22) 5 ∧ t.batch n = s.batch n) ∧
       ((s.batch n).state ≠ 1 → (s.batch n).state ≠ 2 → t.answered s via ((0x4000 + n) * 256 + 0x22) 0 ∧
         (s.restore.quiesced = 0 → s.rwVal ((0x4000 + n) * 256 + 0x20) % 64 = 0 →
           1 ≤ s.rwVal ((0x4000 + n) * 256 + 0x21) → s.rwVal ((0x4000 + n) * 256 + 0x21) ≤ 4096 →
           (t.batch n).state = 1 ∧ (t.batch n).addr = s.rwVal ((0x4000 + n) * 256 + 0x20) ∧
           (t.batch n).count = s.rwVal ((0x4000 + n) * 256 + 0x21) ∧ (t.batch n).done = 0) ∧
         (s.restore.quiesced ≠ 0 ∨ s.rwVal ((0x4000 + n) * 256 + 0x20) % 64 ≠ 0 ∨
           s.rwVal ((0x4000 + n) * 256 + 0x21) = 0 ∨ 4096 < s.rwVal ((0x4000 + n) * 256 + 0x21) →
           t.batch n = { s.batch n with state := 4 } ∧ t.counter 0x700001 = bump 32 (s.counter 0x700001) 1))) ∧
  (∀ (s : State) (n : Nat),
     ((s.batch n).state = 1 → (s.batch n).done = (s.batch n).count →
       (∀ c ∈ (s.batch n).copies, (s.batch n).owns c.1 = false) →
       ∃ t, exec (.contextBatchDone n) s = .next t ∧ t.batch n = { s.batch n with state := 3 } ∧
         (s.events.events.length < 255 → t.queued 0x0D14 0 n 0)) ∧
     (∀ c, s.context n = some c → c.state = 3 → c.expiry ≤ s.now →
       ∃ t, exec (.contextExpired n) s = .next t ∧ t.context n = none ∧
         (∀ k, k ≠ n → t.context k = s.context k) ∧ t.counter 0x708006 = bump 32 (s.counter 0x708006) 1 ∧
         (s.events.events.length < 255 → t.queued 0x0D12 0 n 0)) ∧
     ∀ (addr : Nat) (r : CtxRecord) (c : Context) (ecc : List EccHit) (i : Instr) (u : State),
       s.readsRecord u n r.op ecc → u.takesRecord n addr r → u.context r.slot = some c → c.state = 3 → c.expiry ≤ u.now →
       (i, r.op) ∈ [(.fork n ecc, 2), (.pause n ecc, 4), (.resume n ecc, 5), (.cancel n ecc, 6)] →
       ∃ t, exec i s = .next t ∧ u.endedRecord t n addr 0x0D02 r.slot 0 ∧ t.context r.slot = none ∧
         t.counter 0x708006 = bump 32 (u.counter 0x708006) 1)

/-- A record that is due but names a slot the running step names is held, and its batch with it (R392). A command of a
slot that is not the tenant's ends with CONTEXT_NOT_OPEN and changes no context (table 13.7, R390). Both hold of the state as
the command's own reads leave it, whatever words in error they meet (R504; log entry 84, the model's choice). -/
def Obligations.HeldAndForeignRecords : Prop :=
  (∀ (s u : State) (n op : Nat) (ecc : List EccHit) (i : Instr), s.readsRecord u n op ecc →
     (i, op) ∈ [(.fork n ecc, 2), (.append n ecc, 3), (.pause n ecc, 4), (.resume n ecc, 5)] →
     u.recordHeld (u.nextRecord n).2 = true →
     exec i s = .next (setBatch n { u.batch n with state := 2, held := true } u)) ∧
  (∀ (s u : State) (n addr : Nat) (r : CtxRecord) (ecc : List EccHit) (i : Instr), s.readsRecord u n r.op ecc →
     u.runsRecord n addr r → u.contextOf n r.slot = none →
     (i, r.op) ∈ [(.fork n ecc, 2), (.append n ecc, 3), (.pause n ecc, 4), (.resume n ecc, 5), (.cancel n ecc, 6)] →
     (r.op = 3 → (u.batch n).listError = true ∨ ∀ w ∈ wordList u.mem r.arg r.count, w < u.vocab ∧ w < 2 ^ 20) →
     ∃ t, exec i s = .next t ∧ u.endedRecord t n addr 0x0D02 r.slot 0 ∧ t.contexts.slots = u.contexts.slots ∧
       t.contexts.nodes = u.contexts.nodes ∧ t.counter 0x708003 = bump 32 (u.counter 0x708003) 1)

/-- An OPEN or FORK that finds no Free slot (R393) ends with CONTEXT_TABLE_FULL: no context, node or row changes, and Open
Refusals advances, when its turn in the batch comes as when, held for the running step, it runs at a boundary. -/
def Obligations.FullTableRefusesNewContexts : Prop :=
  (∀ (s u : State) (n addr : Nat) (r : CtxRecord) (ecc : List EccHit), s.readsRecord u n r.op ecc → u.takesRecord n addr r →
     u.freeSlotNumber = none →
     (r.op = 1 → ∃ t, exec (.openCtx n ecc) s = .next t ∧ u.endedRecord t n addr 0x0D01 0 0 ∧ u.turnsContextAway t) ∧
     (∀ c, r.op = 2 → u.contextOf n r.slot = some c → c.cancelPending = false → c.state = 1 →
       ∃ t, exec (.fork n ecc) s = .next t ∧ u.endedRecord t n addr 0x0D01 r.slot (u.lengthOf c) ∧ u.turnsContextAway t)) ∧
  (∀ (s : State) (n addr : Nat) (r : CtxRecord) (c : Context), r.valid = true → r.op = 2 → s.freeSlotNumber = none →
     s.contextOf n r.slot = some c → c.cancelPending = false → c.state = 1 →
     s.turnsContextAway (runOp n addr r s) ∧
       (runOp n addr r s).mem = writeMem (writeMem s.mem (addr + 6) (toLe 2 0x0D01)) (addr + 22)
         (toLe 2 r.slot ++ toLe 4 (s.lengthOf c)))

/-- OPEN (table 13.5): the lowest Free slot becomes the tenant's Open context with its seed, its automaton at the
start state and an empty history; the record names it. FORK (R396): the lowest Free slot becomes an Open context with
the record's seed and the parent's tenant, automaton and automaton state; the parent stays Open. -/
def Obligations.OpenAndForkMakeContexts : Prop :=
  (∀ (s u : State) (n addr slot : Nat) (r : CtxRecord) (ecc : List EccHit), s.readsRecord u n r.op ecc →
     u.runsRecord n addr r → r.op = 1 →
     u.freeSlotNumber = some slot → (r.automaton = 0 ∨ u.automaton r.automaton ≠ none) → 1 ≤ u.historyFree →
     ∃ t c, exec (.openCtx n ecc) s = .next t ∧ u.endedRecord t n addr 0 slot 0 ∧ t.context slot = some c ∧
       c.state = 1 ∧ c.tenant = n ∧ c.seed = r.arg ∧ c.automaton = r.automaton ∧ c.cancelPending = false ∧
       (∀ a, u.automaton r.automaton = some a → c.automatonState = a.start) ∧
       (u.automaton r.automaton = none → c.automatonState = noState) ∧
       c.opened = u.now ∧ (t.node c.leaf).tokens = [] ∧ (t.node c.leaf).parent = none ∧
       (∀ k, k ≠ slot → t.context k = u.context k) ∧ t.counter 0x708001 = bump 64 (u.counter 0x708001) 1) ∧
  (∀ (s u : State) (n addr slot : Nat) (r : CtxRecord) (c : Context) (ecc : List EccHit), s.readsRecord u n r.op ecc →
     u.runsRecord n addr r → r.op = 2 →
     u.contextOf n r.slot = some c → c.cancelPending = false → c.state = 1 → u.freeSlotNumber = some slot → r.slot ≠ slot →
     (u.forkNeed c).2 ≤ 64 → (u.forkNeed c).1 ≤ u.historyFree →
     ∃ t d e, exec (.fork n ecc) s = .next t ∧ u.endedRecord t n addr 0 slot (u.lengthOf c) ∧ t.context slot = some d ∧
       t.context r.slot = some e ∧ e.state = 1 ∧ e.seed = c.seed ∧ e.automatonState = c.automatonState ∧
       d.state = 1 ∧ d.tenant = n ∧ d.seed = r.arg ∧ d.automaton = c.automaton ∧
       d.automatonState = c.automatonState ∧ d.opened = u.now ∧ d.cancelPending = false ∧
       (t.node d.leaf).tokens = [] ∧ (∀ k, k ≠ slot → k ≠ r.slot → t.context k = u.context k))

/-- APPEND to a context without an automaton whose leaf has room (R395, table 13.5): the list's tokens stand behind
those of its leaf, in order. -/
def Obligations.AppendAddsTheTokens : Prop :=
  ∀ (s u : State) (n addr : Nat) (r : CtxRecord) (c : Context) (ecc : List EccHit), s.readsRecord u n r.op ecc →
    u.runsRecord n addr r → r.op = 3 →
    u.contextOf n r.slot = some c → c.cancelPending = false → c.state = 1 → (u.batch n).listError = false →
    (∀ w ∈ wordList u.mem r.arg r.count, w < u.vocab ∧ w < 2 ^ 20) → u.lengthOf c + r.count ≤ 1048576 →
    c.automatonState = noState → (u.node c.leaf).tokens.length + r.count ≤ 65536 →
    (u.appendNeed c (wordList u.mem r.arg r.count)).2 = 0 →
    (u.appendNeed c (wordList u.mem r.arg r.count)).1 ≤ u.historyFree →
    ∃ t, exec (.append n ecc) s = .next t ∧ u.endedRecord t n addr 0 r.slot (t.lengthSeen n r.slot) ∧
      t.context r.slot = some c ∧
      (t.node c.leaf).tokens = (u.node c.leaf).tokens ++ (wordList u.mem r.arg r.count).map (fun w => (w, noState)) ∧
      (∀ k, k ≠ r.slot → t.context k = u.context k)

/-- PAUSE and RESUME (R404, R405): the slot is Pausing or Resuming, its copy runs for the record, whose results are
written when it ends; the start of the transfer wakes the unit (R92). The ends of a pause and of a resume (R404,
R405): Paused until its time to live is over, or Open again; counted, and the records of the copy end: each bears status OK,
the slot and the length its tenant sees, its batch holds the copy no more, and no other byte of memory is written. The
model's choices: a copy moves the nodes only the slot references (log entry 47), and RESUME takes an Open slot too (log
entry 48). -/
def Obligations.PauseAndResumeCopies : Prop :=
  (∀ (s u : State) (n addr : Nat) (r : CtxRecord) (c : Context) (ecc : List EccHit), s.readsRecord u n r.op ecc →
     u.runsRecord n addr r → u.contextOf n r.slot = some c → c.cancelPending = false →
     (r.op = 4 → c.state = 1 → u.privatePages c ≤ u.pauseFree → ∃ t, exec (.pause n ecc) s = .next t ∧
       t.context r.slot = some { c with state := 2, timeToLive := r.arg, copying := u.toMove c true } ∧ t.mem = u.mem ∧
       (∀ k, k ≠ r.slot → t.context k = u.context k) ∧ (t.batch n).done = (u.batch n).done + 1 ∧
       (t.batch n).copies = (u.batch n).copies ++ [(addr, r.slot)] ∧ u.wakes t) ∧
     (r.op = 5 → c.state = 1 ∨ c.state = 3 → u.privatePages c ≤ u.historyFree → ∃ t, exec (.resume n ecc) s = .next t ∧
       t.context r.slot = some { c with state := 4, copying := u.toMove c false } ∧ t.mem = u.mem ∧
       (∀ k, k ≠ r.slot → t.context k = u.context k) ∧ (t.batch n).done = (u.batch n).done + 1 ∧
       (t.batch n).copies = (u.batch n).copies ++ [(addr, r.slot)] ∧ u.wakes t)) ∧
  (∀ (s : State) (slot : Nat) (c : Context), s.context slot = some c → s.portsUp = true →
     s.laneRuns = true →
     (c.state = 2 → ∃ t, exec (.pauseCopyDone slot) s = .next t ∧
       t.context slot = some { c with state := 3, copying := [], expiry := (s.now + c.timeToLive) % 2 ^ 64 } ∧
       (∀ k, k ≠ slot → t.context k = s.context k) ∧ t.counter 0x708004 = bump 32 (s.counter 0x708004) 1 ∧
       s.endedCopies t slot 0) ∧
     (c.state = 4 → ∃ t, exec (.resumeCopyDone slot) s = .next t ∧
       t.context slot = some { c with state := 1, copying := [], expiry := 0 } ∧
       (∀ k, k ≠ slot → t.context k = s.context k) ∧ t.counter 0x708005 = bump 32 (s.counter 0x708005) 1 ∧
       s.endedCopies t slot 0))

/-- CANCEL (R392): the slot is Free at once while no step runs, the records of a copy of it ending with a status the manual
does not state (a free value, log entry 6); while one runs the cancel is pending, and STEP_BOUNDARY frees the slot and
ends its copies at action 3. -/
def Obligations.CancelFreesTheSlot : Prop :=
  (∀ (s u : State) (n addr : Nat) (r : CtxRecord) (c : Context) (ecc : List EccHit), s.readsRecord u n r.op ecc →
    u.runsRecord n addr r → r.op = 6 → u.contextOf n r.slot = some c → c.cancelPending = false →
    ∃ t, exec (.cancel n ecc) s = .next t ∧ (t.batch n).done = (u.batch n).done + 1 ∧
      (∀ k, k ≠ r.slot → t.context k = u.context k) ∧
      (u.steps.run = none → t.context r.slot = none ∧
        (u.copiesOf r.slot = [] → u.endedRecord t n addr 0 r.slot 0) ∧
        ∃ v status, u.endedCopies v r.slot status ∧ v.context r.slot = none ∧
          t.mem = writeMem (writeMem v.mem (addr + 6) (toLe 2 0)) (addr + 22) (toLe 2 r.slot ++ toLe 4 0) ∧
          ∀ k, (t.batch k).copies = (v.batch k).copies) ∧
      (u.steps.run ≠ none → t.context r.slot = some { c with cancelPending := true } ∧
        u.endedRecord t n addr 0 r.slot (t.lengthSeen n r.slot))) ∧
  (∀ (s : State) (host : List Host.Cell) (ecc : List EccHit) (slot : Nat) (c : Context), s.boundaryDue = true →
    (∀ e ∈ s.contexts.batches, e.2.held = false) → s.context slot = some c → c.cancelPending = true →
    ∃ t, exec (.stepBoundary host ecc) s = .next t ∧ t.context slot = none ∧
      ∀ n, ∀ x ∈ (t.batch n).copies, x.2 ≠ slot)

/-! ### Network and mortar -/

/-- An error response at a network port (R76, R83, R176, R506, table 17.7): discarded while isolated, and where it answers no
transaction outstanding at that port, as far as the model tells (log entry 55, the model's choice); else counted for its
port, a failed write with its event, with the outcome the table gives the transaction. Reads of a begun step are judged by
its admission; from then on their rows end NETWORK_READ_ERROR, and those of a petal spill SPILL_ERROR; the manifest read of
a rerun has the outcome of R422. A command whose history write fails ends CONTEXT_NOT_OPEN with the results of R390, an OPEN
or FORK is not counted (table 13.13), and a FORK leaves its other slot as it found it (R391). That hold, directory and wipe
transactions have no outcome of their own, and that the command a history write serves is its tenant's last, are the model's
choices (log entry 82). -/
def Obligations.NetworkErrorsHaveTheirOutcome : Prop :=
  ∀ (s : State) (port : Nat) (w : Transaction),
    (s.portsUp = false ∨ portFits port w = false ∨ s.outstanding w = false →
      exec (.networkErrorResponse port w) s = .next s) ∧
    (s.portsUp = true → portFits port w = true → s.outstanding w = true →
      ∃ t, exec (.networkErrorResponse port w) s = .next t ∧
        t.counter (0x700009 + port) = bump 32 (s.counter (0x700009 + port)) 1 ∧
        (∀ a, writtenAt w = some a → t.counter 0x70A209 = bump 32 (s.counter 0x70A209) 1 ∧
          (s.events.events.length < 255 → t.queued 0x1105 a port 0)) ∧
        (∀ r, s.steps.run = some r → r.admitted = false →
          w = .manifest ∨ (∃ k, w = .headParams k) ∨ (∃ a, w = .scoreParams a) ∨ (∃ a, w = .learnParams a) ∨
            (∃ rows, w = .rowData rows) ∨ (∃ rows, w = .historyRead rows) →
          t.steps.run = some { r with readErrors := r.readErrors ++ [w] }) ∧
        (∀ r, s.steps.run = some r → r.admitted = true → w = .manifest → s.laneResettable = true →
          t.steps.run = none ∧ t.boundary.phase = .draining ∧ t.steps.lastStatus = 0x0E22 ∧
          t.counter 0x709004 = bump 32 (s.counter 0x709004) 1 ∧
          (s.events.events.length < 254 → t.queued 0x0E13 0 0 0x0E22)) ∧
        (∀ r rows, s.steps.run = some r → r.admitted = true → w = .rowData rows ∨ w = .historyRead rows →
          t.steps.run = some (r.marked rows 0x1121)) ∧
        (∀ r rows, s.steps.run = some r → (∃ a, w = .spillWrite rows a) ∨ w = .spillRead rows →
          t.steps.run = some (r.marked rows 0x0803)) ∧
        (∀ r a, s.steps.run = some r → w = .bloomWrite a ∨ w = .gradientWrite a →
          t.steps.run = some { r with stepStatus := 0x1130 }) ∧
        (∀ n, w = .commandRead n ∨ (∃ a, w = .commandWrite n a) → (t.batch n).state = 4) ∧
        (∀ n, w = .tokenList n → t.batch n = { s.batch n with listError := true }) ∧
        (∀ k, (∃ b, w = .swapRead k b) ∨ w = .swapParams k →
          (s.marchTime = false ∨ (∃ j, j ≠ k ∧ (s.head j).state = 1) →
            (t.head k).state = 5 ∧ (t.head k).frames = 0 ∧ (t.head k).layout = (s.head k).layout) ∧
          (s.marchTime = true → (∀ j, j ≠ k → (s.head j).state ≠ 1) →
            ∀ j < 4, (t.head j).state = 0 ∧ (t.head j).frames = 0)) ∧
        (∀ k, w = .resumeRead k → t.context k = none ∧ s.endedCopies t k 0x0D02 ∧
          (s.events.events.length < 255 → t.queued 0x0D13 0 k 0)) ∧
        (∀ k a, w = .historyWrite k a → t.context k = none ∧
          t.steps.run = s.steps.run.map (·.marked (s.rowsOfSlot k) 0x1120) ∧
          (s.events.events.length < 254 → t.queued 0x0D13 0 k 0) ∧
          ∀ n addr result r, Memory.wf s.mem = true → s.lastServes n k addr result → s.copiesOf k = [] →
            (s.contexts.batches.filter fun e => between 1 e.2.state 2) = [(n, s.batch n)] →
            r = CtxRecord.parse (s.bytesAt addr 32) →
            t.mem = writeMem (writeMem s.mem (addr + 6) (toLe 2 0x0D02)) (addr + 22)
              (toLe 2 (if r.op = 1 then 0 else r.slot) ++ toLe 4 (if r.op = 1 then 0 else t.lengthSeen n r.slot)) ∧
            t.counter 0x708001 = (if r.op = 3 then s.counter 0x708001 else s.counter 0x708001 - 1) ∧
            (r.op = 2 → result ≠ k → t.context result = none) ∧
            (r.op = 2 → result = k → ∀ c d above, r.slot ≠ k → s.context r.slot = some c → s.context k = some d →
              d.leaf = c.leaf + 1 → above ≠ c.leaf → above ≠ d.leaf → (s.node d.leaf).refs ≤ 1 → (s.node above).refs = 2 →
              (s.node c.leaf).tokens = [] → (s.node c.leaf).parent = some above → (s.node d.leaf).parent = some above →
              t.context r.slot = some { c with leaf := above })) ∧
        (w = .snapshotRead → t.snapshot.state = 3 ∧ t.snapshot.run = none ∧
          t.counter 0x70A203 = bump 32 (s.counter 0x70A203) 1) ∧
        (w = .restoreRead ∨ (∃ a, w = .restoreWrite a) → t.restore.state = 4 ∧ t.restore.reason = 2 ∧
          t.restore.run = none ∧ t.contexts.slots = []) ∧
        (w = .holdRead ∨ w = .directoryRead ∨ (∃ a, w = .holdWrite a) ∨ (∃ a, w = .wipeWrite a) →
          ∀ p, p ∉ [Part.events, .counters] → p.same s t))

/-- What the link does with a message it does not pass on (R46, R296, R303, R517): isolated, nothing; closed,
acknowledged and discarded, in the closed life-cycle states (R491) as with Fabric Enable 0; damaged, LINK_NAK 1; repeated,
LINK_ACK; far ahead, LINK_NAK 1; ahead, held; of the step after the last, LINK_NAK 2. The model's choices: a Silent peer's
frame has its turn in the sequence, so one ahead of it is held and one far ahead refused (log entry 12; R307 has it
acknowledged and discarded); a closed unit acknowledges damaged frames too (log entry 50); a link flit bears step 0, and a
message of the begun step is refused until its admission (log entry 77). -/
def Obligations.LinkAnswersWhatItDoesNotPassOn : Prop :=
  ∀ (s : State) (m : Bytes) (i : Instr) (typ : Nat),
    (i, typ) ∈ [(Instr.discover m, 1), (.caps m, 2), (.heartbeat m, 3), (.partialSum m, 4), (.histogram m, 5),
      (.petalList m, 6), (.bloomClaim m, 7), (.bondUpdate m, 8), (.statePage m, 9)] →
    typeFits typ m = true →
    (s.portsUp = false → exec i s = .next s) ∧
    (s.portsUp = true → s.fabricOpen = false → exec i s = .next (linkFlit 0xE0 0 (msgSource m) (msgSequence m) s)) ∧
    (s.fabricOpen = true → s.quiesceAllows (msgType m) (msgSource m) = false → exec i s = .next s) ∧
    (s.fabricOpen = true → s.quiesceAllows (msgType m) (msgSource m) = true →
      (frameGood m = false →
        exec i s = .next (linkFlit 0xE1 1 (msgSource m) (msgSequence m) (count 0x705003 1 s))) ∧
      (frameGood m = true → (typ = 1 → bit (fieldAt m 1 1) 0 = false) →
        ∀ e, (s.peer (msgSource m)).rxNext = some e → e < 2 ^ 32 →
          (2 ^ 31 ≤ (msgSequence m + 2 ^ 32 - e) % 2 ^ 32 →
            exec i s = .next (linkFlit 0xE0 0 (msgSource m) (msgSequence m) s)) ∧
          (64 < (msgSequence m + 2 ^ 32 - e) % 2 ^ 32 → (msgSequence m + 2 ^ 32 - e) % 2 ^ 32 < 2 ^ 31 →
            exec i s = .next (linkFlit 0xE1 1 (msgSource m) (msgSequence m) s)) ∧
          (1 ≤ (msgSequence m + 2 ^ 32 - e) % 2 ^ 32 → (msgSequence m + 2 ^ 32 - e) % 2 ^ 32 ≤ 64 →
            ∃ t, exec i s = .next t ∧ t.out = s.out ∧
              (t.peer (msgSource m)).rxHeld = insertKey (s.peer (msgSource m)).rxHeld (msgSequence m) m) ∧
          (msgSequence m = e → s.notReady m = true →
            exec i s = .next (linkFlit 0xE1 2 (msgSource m) (msgSequence m) s))))

/-- A message in its turn (R303): acknowledged, counted, passed on by its type; then those held for theirs. One of a Silent
peer other than DISCOVER and CAPS is acknowledged and discarded (R307). The model's choices (log entry 12): where no sequence
is expected the first message is taken whatever it carries, and a Silent peer's message has its turn in the sequence. -/
def Obligations.MessagesInTurnArePassedOn : Prop :=
  ∀ (s : State) (m : Bytes) (i : Instr) (typ : Nat),
    (i, typ) ∈ [(Instr.discover m, 1), (.caps m, 2), (.heartbeat m, 3), (.partialSum m, 4), (.histogram m, 5),
      (.petalList m, 6), (.bloomClaim m, 7), (.bondUpdate m, 8), (.statePage m, 9)] →
    (s.takesTurn m typ →
      ∃ u, exec i s = .next (takeHeld (msgSource m) 64 (deliver m u)) ∧
        s.sends u [frame 0xE0 0 s.address (msgSource m) (msgSequence m) (s.cfg 0x501001) 0 s.now [0]] ∧
        (u.peer (msgSource m)).rxNext = some ((msgSequence m + 1) % 2 ^ 32) ∧
        u.counter 0x705002 = bump 64 (s.counter 0x705002) 1 ∧ ∀ p, p ∉ [Part.peers, .counters, .out, .late] → p.same s u) ∧
    (s.fabricOpen = true → s.quiesceAllows typ (msgSource m) = true → frameGood m = true → msgType m = typ → 3 ≤ typ →
      (s.peer (msgSource m)).state = 3 → (s.peer (msgSource m)).rxNext.getD (msgSequence m) = msgSequence m →
      ∃ u, exec i s = .next (takeHeld (msgSource m) 64 u) ∧
        s.sends u [frame 0xE0 0 s.address (msgSource m) (msgSequence m) (s.cfg 0x501001) 0 s.now [0]] ∧
        (u.peer (msgSource m)).rxNext = some ((msgSequence m + 1) % 2 ^ 32) ∧
        ∀ p, p ∉ [Part.peers, .out, .late] → p.same s u)

/-- A broadcast DISCOVER makes an Unknown peer Pending, and this unit's CAPS goes to it (R298, table 10.1); that it is
answered whatever sequence it carries and takes no place in the sequence is the model's choice (log entries 12, 50). CAPS makes a
peer Present with the record it carries (R298, R306), the first one answered with CAPS; a HEARTBEAT answer from a
Present peer is a round-trip sample (R106, R301), a request is answered. R106's rule for the smoothed round trip.
HEARTBEAT_TIMER (R299, R301), to one known peer: a request to a Present one, DISCOVER to a Silent one, nothing to an
Absent one, nor while the fabric is closed; that of a running step's interval sends its request to every member that is not
Absent, also a Silent one (log entry 53, the model's choice). -/
def Obligations.PeerTableIsKept : Prop :=
  (∀ (s : State) (m : Bytes), s.fabricOpen = true → s.restore.quiesced = 0 → frameGood m = true → msgType m = 1 →
     bit (fieldAt m 1 1) 0 = true → headerClear m = true → fieldAt (msgPayload m) 0 1 = 2 →
     zeroBytes (msgPayload m) 1 8 = true → (s.peer (msgSource m)).unacked.length < 64 →
     ∃ t, exec (.discover m) s = .next t ∧
       (t.peer (msgSource m)).state = (if (s.peer (msgSource m)).state = 0 then 1 else (s.peer (msgSource m)).state) ∧
       (∀ p, p ≠ msgSource m → t.peer p = s.peer p) ∧
       s.sends t
         [frame 0xE0 0 s.address (msgSource m) (msgSequence m) (s.cfg 0x501001) 0 s.now [0],
           frame 2 0 s.address (msgSource m) (s.peer (msgSource m)).txNext (s.cfg 0x501001) 0 s.now s.capsPayload]) ∧
  (∀ (s : State) (m : Bytes), s.restore.quiesced = 0 → headerClear m = true → (s.peer (msgSource m)).rxHeld = [] →
     (s.takesTurn m 2 → fieldAt (msgPayload m) 2 2 < 64 → fieldAt (msgPayload m) 44 2 < 4096 →
       zeroBytes (msgPayload m) 46 48 = true →
       ∃ t, exec (.caps m) s = .next t ∧ (t.peer (msgSource m)).state = 2 ∧
         (t.peer (msgSource m)).caps = slice (msgPayload m) 0 80 ∧ (t.peer (msgSource m)).capsTaken = true ∧
         ((s.peer (msgSource m)).capsTaken = true → s.sends t
           [frame 0xE0 0 s.address (msgSource m) (msgSequence m) (s.cfg 0x501001) 0 s.now [0]]) ∧
         ((s.peer (msgSource m)).capsTaken = false → (s.peer (msgSource m)).unacked.length < 64 → s.sends t
           [frame 0xE0 0 s.address (msgSource m) (msgSequence m) (s.cfg 0x501001) 0 s.now [0],
             frame 2 0 s.address (msgSource m) (s.peer (msgSource m)).txNext (s.cfg 0x501001) 0 s.now s.capsPayload]) ∧
         ((s.peer (msgSource m)).state ≠ 2 → (t.peer (msgSource m)).roundTrip = none ∧
           (s.events.events.length < 255 → t.queued 0x0A09 0 (msgSource m) 0))) ∧
     (s.takesTurn m 3 → zeroBytes (msgPayload m) 1 8 = true → fieldAt (msgPayload m) 0 1 = 1 →
       (s.peer (msgSource m)).state = 2 →
       ∃ t, exec (.heartbeat m) s = .next t ∧ (t.peer (msgSource m)).roundTrip =
         some (smooth (s.peer (msgSource m)).roundTrip (min (s.now - fieldAt (msgPayload m) 8 8) (2 ^ 32 - 1)))) ∧
     (s.takesTurn m 3 → zeroBytes (msgPayload m) 1 8 = true → fieldAt (msgPayload m) 0 1 = 0 →
       fieldAt (msgPayload m) 8 8 = 0 → (s.peer (msgSource m)).unacked.length < 64 →
       ∃ t, exec (.heartbeat m) s = .next t ∧ s.sends t
         [frame 0xE0 0 s.address (msgSource m) (msgSequence m) (s.cfg 0x501001) 0 s.now [0],
           frame 3 0 s.address (msgSource m) (s.peer (msgSource m)).txNext (s.cfg 0x501001) 0 s.now
             (toLe 8 1 ++ toLe 8 (msgSent m))])) ∧
  (∀ s x : Nat, smooth none x = x ∧ (s ≤ x → smooth (some s) x = s + (x - s) / 8) ∧
     (x < s → smooth (some s) x = s - (s - x) / 8)) ∧
  (∀ (s : State) (p : Nat) (x : Peer), s.mortar.peers = [(p, x)] → s.restore.quiesced = 0 → x.unacked.length < 64 →
     (s.fabricOpen = false ∨ x.state = 4 → exec (.heartbeatTimer true) s = .next s) ∧
     (s.fabricOpen = true → x.state = 3 → ∃ t, exec (.heartbeatTimer true) s = .next t ∧
       s.sends t [frame 1 0 s.address p x.txNext (s.cfg 0x501001) 0 s.now (toLe 8 2)] ∧
       (t.peer p).state = 3) ∧
     (s.fabricOpen = true → x.state = 2 → s.steps.run = none → ∃ t, exec (.heartbeatTimer true) s = .next t ∧
       s.sends t [frame 3 0 s.address p x.txNext (s.cfg 0x501001) 0 s.now (toLe 16 0)] ∧
       (t.peer p).state = 2 ∧ (t.peer p).txNext = (x.txNext + 1) % 2 ^ 32) ∧
     (∀ r, s.fabricOpen = true → s.steps.run = some r → r.takeover = false →
       (s.members.filter fun m => m != s.address) = [p] → x.state ≠ 4 →
       ∃ t, exec (.heartbeatTimer false) s = .next t ∧
         s.sends t [frame 3 0 s.address p x.txNext (s.cfg 0x501001) 0 s.now (toLe 16 0)] ∧
         (t.peer p).state = x.state ∧ (t.peer p).txNext = (x.txNext + 1) % 2 ^ 32))

/-- A contribution to the running step (R307, R313, R315, R328): one that breaks its layout is stale, whoever sent it; from
a member, of the current step, under the applied bond version, it joins its pass group; of another step or another unit it is
stale; under another bond version the step ends BOND_SPLIT; of a member that takes no part in reductions (R297) nothing comes
of it. BOND_UPDATE (R312, R320): a tree is taken from the record unit alone, behind those that wait for their steps; the
peer's record keeps its bond fields. The model's choices: a member that is Present again within the step in which it was lost
adds nothing (log entry 80), what one not Present sends is taken with no effect, and the layout is judged first (log entry
51); the record unit is the applied one (log entry 52). -/
def Obligations.ContributionsAndTreesArrive : Prop :=
  (∀ (s : State) (m : Bytes) (i : Instr) (typ : Nat),
     (i, typ) ∈ [(Instr.partialSum m, 4), (.histogram m, 5), (.petalList m, 6), (.bloomClaim m, 7)] →
     s.takesTurn m typ → headerClear m = true →
     ∃ u, (u.steps = s.steps ∧ u.counter 0x705005 = s.counter 0x705005 ∧ u.counter 0x705009 = s.counter 0x705009) ∧
       (s.members.contains (msgSource m) = false ∨ msgStep m ≠ s.steps.lastNumber →
         exec i s = .next (takeHeld (msgSource m) 64 (count 0x705005 1 u))) ∧
       (readStepBound typ (msgSource m) (msgPayload m) = none →
         exec i s = .next (takeHeld (msgSource m) 64 (count 0x705005 1 u))) ∧
       (∀ r g x odd, s.steps.run = some r → r.admitted = true → s.members.contains (msgSource m) = true →
         msgStep m = s.steps.lastNumber → readStepBound typ (msgSource m) (msgPayload m) = some (g, x, odd) →
         (s.tauFits g x = false → exec i s = .next (takeHeld (msgSource m) 64 (count 0x705005 1 u))) ∧
         (s.tauFits g x = true → msgVersion m ≠ s.cfg 0x501001 → r.split = false →
           exec i s = .next (takeHeld (msgSource m) 64 (splitStep u)) ∧
           ∃ w q, splitStep u = pump w ∧ w.steps.run = some q ∧
             q.split = true ∧ q.rows = r.rows ∧ w.counter 0x705009 = bump 32 (s.counter 0x705009) 1 ∧
             ((∀ x ∈ r.groups, x.written = false) → q = { r with split := true })) ∧
         (s.tauFits g x = true → msgVersion m = s.cfg 0x501001 → s.present (msgSource m) = false →
           exec i s = .next (takeHeld (msgSource m) 64 u)) ∧
         (s.tauFits g x = true → msgVersion m = s.cfg 0x501001 → s.present (msgSource m) = true →
           (s.laid x = true → odd = 0 → exec i s = .next (takeHeld (msgSource m) 64
             (pump (withGroup g (fun gr => { gr with inbox := gr.inbox ++ [x] }) (hearMember (msgSource m) u))))) ∧
           (s.laid x = false → exec i s = .next (takeHeld (msgSource m) 64 (count 0x705005 1 u)))))) ∧
  (∀ (s : State) (m : Bytes), s.takesTurn m 8 → headerClear m = true → (s.peer (msgSource m)).rxHeld = [] →
     fieldAt (msgPayload m) 4 4 ≠ 0 → 1 ≤ fieldAt (msgPayload m) 48 2 → fieldAt (msgPayload m) 48 2 ≤ 256 →
     zeroBytes (msgPayload m) 50 56 = true → 56 + 4 * fieldAt (msgPayload m) 48 2 ≤ (msgPayload m).length →
     (∀ k < fieldAt (msgPayload m) 48 2, fieldAt (msgPayload m) (56 + 4 * k) 4 &&& 0xF000F000 = 0) →
     ∃ t, exec (.bondUpdate m) s = .next t ∧ t.mortar.tree = s.mortar.tree ∧ t.dict.applied = s.dict.applied ∧
       (msgSource m ≠ s.cfg 0x501003 → t.mortar.trees = s.mortar.trees) ∧
       (msgSource m = s.cfg 0x501003 → ∃ x, t.mortar.trees = s.mortar.trees ++ [x] ∧ x.version = fieldAt (msgPayload m) 4 4 ∧
         x.fromStep = fieldAt (msgPayload m) 8 8 ∧ x.order.length = fieldAt (msgPayload m) 48 2))

/-- A LINK_ACK ends the message it names, and the first that waits behind 64 takes its place with the next sequence (R304);
one that names none, or that does not reach the link, does nothing. A LINK_NAK, or R304's time without an acknowledgement,
sends the message again with its retransmit bit: after the fourth send that reason 1 or the time counts, a Present peer is
Silent (R304), and everything that can go on without it does; the model's choices: the sends to another peer then end with nothing else and a message sent again
keeps the time of its first sending (log entry 50), and one that waits takes its sequence and its time as it leaves (log
entry 12). -/
def Obligations.MessagesAreAcknowledgedOrSentAgain : Prop :=
  (∀ (s : State) (m : Bytes), (frameGood m = true → msgType m = 0xE0) →
     (s.hearsFlit m = false ∨ s.isUnacked (msgSource m) (msgSequence m) = false → exec (.linkAck m) s = .next s) ∧
     (s.hearsFlit m = true → s.isUnacked (msgSource m) (msgSequence m) = true →
       (s.peer (msgSource m)).waiting = [] →
       ∃ t, exec (.linkAck m) s = .next t ∧ t.out = s.out ∧ t.peer (msgSource m) = { s.peer (msgSource m) with
         unacked := (s.peer (msgSource m)).unacked.filter (·.sequence != msgSequence m) }) ∧
     (∀ w rest, s.hearsFlit m = true → s.isUnacked (msgSource m) (msgSequence m) = true →
       (s.peer (msgSource m)).waiting = w :: rest → s.quiesceAllows (msgType w) (msgSource m) = true →
       ((s.peer (msgSource m)).unacked.filter (·.sequence != msgSequence m)).length = 63 →
       ∃ t, exec (.linkAck m) s = .next t ∧ s.sends t [sealed w (s.peer (msgSource m)).txNext s.now] ∧
         (t.peer (msgSource m)).waiting = rest ∧ (t.peer (msgSource m)).unacked.length = 64 ∧
         (t.peer (msgSource m)).txNext = ((s.peer (msgSource m)).txNext + 1) % 2 ^ 32)) ∧
  (∀ (s : State) (p q : Nat) (x : Unacked), s.fabricOpen = true → s.isLate p q = false → (s.peer p).state ≠ 4 →
     (s.peer p).unacked.find? (·.sequence == q) = some x →
     (x.sends < 4 → s.quiesceAllows (msgType x.bytes) p = true → ∃ t, exec (.mortarResendTimeout p q) s = .next t ∧
       s.sends t [resent x.bytes] ∧ t.counter 0x705004 = bump 32 (s.counter 0x705004) 1 ∧
       (t.peer p).state = (s.peer p).state ∧
       ∀ y, (t.peer p).unacked.find? (·.sequence == q) = some y → y.sends = x.sends + 1) ∧
     (4 ≤ x.sends → (s.peer p).state = 2 → ∃ u, exec (.mortarResendTimeout p q) s = .next (pump u) ∧
       (u.peer p).state = 3 ∧ (u.peer p).unacked = []) ∧
     (4 ≤ x.sends → (s.peer p).state ≠ 2 → ∃ t, exec (.mortarResendTimeout p q) s = .next t ∧
       (t.peer p).state = (s.peer p).state ∧ (t.peer p).unacked = [] ∧ t.out = s.out) ∧
     (∀ m, frameGood m = true → msgType m = 0xE1 → s.hearsFlit m = true → msgSource m = p → msgSequence m = q →
       (fieldAt m 32 1 = 1 → 4 ≤ x.sends → (s.peer p).state = 2 → ∃ u, exec (.linkNak m) s = .next (pump u) ∧
         (u.peer p).state = 3 ∧ (u.peer p).unacked = []) ∧
       (fieldAt m 32 1 = 2 → s.quiesceAllows (msgType x.bytes) p = true → ∃ t, exec (.linkNak m) s = .next t ∧ s.sends t [resent x.bytes] ∧
         ∀ y, (t.peer p).unacked.find? (·.sequence == q) = some y → y.sends = x.sends) ∧
       (fieldAt m 32 1 = 1 → x.sends < 4 → s.quiesceAllows (msgType x.bytes) p = true → ∃ t, exec (.linkNak m) s = .next t ∧
         s.sends t [resent x.bytes] ∧
         ∀ y, (t.peer p).unacked.find? (·.sequence == q) = some y → y.sends = x.sends + 1)))

/-- A peer that is lost (R79, R305, R306): Silent after its timeout, Absent by the fabric's notice or response; sends to
it end, and everything that can go on without it does. The model's choices: the sends to a Silent peer end as those to an
Absent one do (log entries 12, 50), and a notice for an Unknown peer resets its link (log entry 53). -/
def Obligations.LostPeersEndTheirSends : Prop :=
  ∀ (s : State) (p : Nat), s.portsUp = true → p ≠ s.address →
    ((s.peer p).state = 2 → ∃ u, exec (.peerSilenceTimeout p) s = .next (pump u) ∧ (u.peer p).state = 3 ∧
      (u.peer p).unacked = [] ∧ (u.peer p).waiting = []) ∧
    (1 ≤ (s.peer p).state → (s.peer p).state ≤ 3 → ∃ u, exec (.absenceNotice p) s = .next (pump u) ∧
      (u.peer p).state = 4 ∧ (u.peer p).unacked = [] ∧ (u.peer p).waiting = []) ∧
    ((s.peer p).state = 0 → ∃ t, exec (.absenceNotice p) s = .next t ∧ (t.peer p).state = 0 ∧
      (t.peer p).unacked = []) ∧
    ((s.peer p).state ≠ 4 → ∃ u, exec (.absentResponse p) s = .next (pump u) ∧ (u.peer p).state = 4 ∧
      (u.peer p).unacked = [] ∧ (u.peer p).waiting = []) ∧
    ((s.peer p).state = 4 → ∃ t, exec (.absentResponse p) s = .next t ∧ (t.peer p).state = 4 ∧
      (t.peer p).unacked = [] ∧ (t.peer p).waiting = [])

/-- A receipt from the partner for a chunk of the image being sent (R513): placed and checked off, the image complete
with its last one, failed by a refusal, after which the next is a full one (R512). -/
def Obligations.ReceiptsEndTheSnapshot : Prop :=
  ∀ (s : State) (m : Bytes) (r : SnapRun) (c : Chunk), s.takesTurn m 9 → headerClear m = true →
    (s.peer (msgSource m)).rxHeld = [] → chunkClear (msgPayload m) = true → (ChunkHead.read (msgPayload m)).bytes = 0 →
    s.snapshot.run = some r → msgSource m = r.partner → (ChunkHead.read (msgPayload m)).epoch = r.epoch →
    (ChunkHead.read (msgPayload m)).count = r.chunks.length →
    r.chunks[(ChunkHead.read (msgPayload m)).chunk]? = some c →
    (leNat (ChunkHead.read (msgPayload m)).digest = 0 → ∃ t, exec (.statePage m) s = .next t ∧ t.snapshot.state = 3 ∧
      t.snapshot.run = none ∧ t.snapshot.refused = true) ∧
    ((ChunkHead.read (msgPayload m)).digest = sha256 c.payload → leNat (sha256 c.payload) ≠ 0 →
      ∃ t, exec (.statePage m) s = .next t ∧
        ((addMarks r.placed [(ChunkHead.read (msgPayload m)).chunk]).length ≠ r.chunks.length →
          t.snapshot.state = s.snapshot.state ∧ ∃ q, t.snapshot.run = some q ∧ q.chunks = r.chunks ∧
            q.placed = addMarks r.placed [(ChunkHead.read (msgPayload m)).chunk]) ∧
        ((addMarks r.placed [(ChunkHead.read (msgPayload m)).chunk]).length = r.chunks.length →
          t.snapshot.state = 2 ∧ t.snapshot.run = none ∧ t.snapshot.lastEpoch = r.epoch ∧
          t.snapshot.lastStep = r.step ∧ t.snapshot.lastPartner = some r.partner ∧ t.snapshot.refused = false))

/-! ### The dictionary -/

/-- MCTP control messages (R57, R58; their bodies are the model's reading of DSP0236, log entry 17): before an endpoint
ID is assigned the last two are dropped and counted. -/
def Obligations.ControlMessagesAreAnswered : Prop :=
  ∀ (s : State) (src eid typ : Byte),
    (s.managementUp = false → exec (.setEndpointId eid) s = .next s ∧ exec (.getEndpointId src) s = .next s ∧
      exec (.getMctpVersionSupport src typ) s = .next s ∧ exec (.getMessageTypeSupport src) s = .next s) ∧
    (s.managementUp = true →
      (∃ t, exec (.setEndpointId eid) s = .next t ∧
        (eid ≠ 0x00 → eid ≠ 0xFF → t.dict = { s.dict with endpoint := eid } ∧
          t.out.mesh = s.out.mesh ++ [(0, [0, 0, 1, 0, 0, eid, 0])]) ∧
        (eid = 0x00 ∨ eid = 0xFF → t.dict = s.dict ∧ t.out.mesh = s.out.mesh ++ [(0, [0, 0, 1, 2])])) ∧
      (∃ t, exec (.getEndpointId src) s = .next t ∧ t.dict = s.dict ∧
        t.out.mesh = s.out.mesh ++ [(src, [0, 0, 2, 0, s.dict.endpoint, 0, 0])]) ∧
      (s.dict.endpoint = 0 → ∃ t, exec (.getMctpVersionSupport src typ) s = .next t ∧
        exec (.getMessageTypeSupport src) s = .next t ∧ t.out = s.out ∧
        t.counter 0x700003 = bump 32 (s.counter 0x700003) 1 ∧ (s.events.events.length < 255 → t.queued 0x0205 0 0 0)) ∧
      (s.dict.endpoint ≠ 0 →
        (∃ t r, exec (.getMctpVersionSupport src typ) s = .next t ∧ t.dict = s.dict ∧
          t.out.mesh = s.out.mesh ++ [(src, r)] ∧
          (typ = 0xFF ∨ typ = 0x00 ∨ typ = 0x7F → r.take 5 = [0, 0, 4, 0, 1] ∧ r.length = 9) ∧
          (typ ≠ 0xFF → typ ≠ 0x00 → typ ≠ 0x7F → r = [0, 0, 4, 0x80])) ∧
        (∃ t, exec (.getMessageTypeSupport src) s = .next t ∧ t.dict = s.dict ∧
          t.out.mesh = s.out.mesh ++ [(src, [0, 0, 5, 0, 1, 0x7F])])))

/-- A READ over the mesh (R448 to R451, R453, R455, R493): an open scalar's current or staged value, 0 for a closed
one whatever the request's form, the results of table 15.5 for the rest; it changes nothing but counters, and where
its object's block sleeps it starts the lane clock (R23). The model's choices: which objects R23 wakes for (log entry 71), and
that the object is judged before the form (log entry 33). A mirror read (R459, R460, table 15.6): isolated it
completes with 0; in the direct window an open scalar's low word, the upper word of an 8-byte one from what the read
at +0 just before it kept; last_result beside it. -/
def Obligations.ReadsAreAnswered : Prop :=
  (∀ (s : State) (eid : Byte) (m : Bytes) (key : Nat), s.managementUp = true → commandFits 1 m = true →
     key = fieldAt m 8 2 * 256 + fieldAt m 10 1 →
     (s.dict.endpoint = 0 ∨ messageOurs m = false → ∃ t, exec (.read (.mesh eid m)) s = .next t ∧ t.out = s.out ∧
       t.counter 0x700003 = bump 32 (s.counter 0x700003) 1) ∧
     (s.dict.endpoint ≠ 0 → messageOurs m = true →
       (m.length < 16 → ∃ t, exec (.read (.mesh eid m)) s = .next t ∧ s.replied t eid m 7 [] ∧
         t.counter 0x700004 = bump 32 (s.counter 0x700004) 1) ∧
       (16 ≤ m.length → objInfo key = none → ∃ t, exec (.read (.mesh eid m)) s = .next t ∧ s.replied t eid m 1 [] ∧
         t.counter 0x700001 = bump 32 (s.counter 0x700001) 1) ∧
       (∀ o, 16 ≤ m.length → objInfo key = some o →
         ∃ t, exec (.read (.mesh eid m)) s = .next t ∧
           (s.permits (s.asker eid) o key false = false →
             s.replied t eid m 0 (if fieldAt m 5 1 % 128 = 1 then toLe 8 0 else []) ∧
             t.counter 0x700002 = bump 32 (s.counter 0x700002) 1 ∧ ∀ p, p ∉ [Part.counters, .out] → p.same s t) ∧
           (s.permits (s.asker eid) o key false = true → requestFormed m = false → s.replied t eid m 7 [] ∧
             t.counter 0x700004 = bump 32 (s.counter 0x700004) 1 ∧ ∀ p, p ∉ [Part.counters, .out] → p.same s t) ∧
           (s.permits (s.asker eid) o key false = true → requestFormed m = true →
             (o.isBlock = true → s.replied t eid m 2 [] ∧ t.counter 0x700001 = bump 32 (s.counter 0x700001) 1) ∧
             (o.isBlock = false → s.replied t eid m 0 (toLe 8 (s.objValue key (bit (fieldAt m 7 1) 0))) ∧
               s.keptByRead t key ∧ t.mirror = s.mirror ∧ (s.gated key = false → t.dict = s.dict)))))) ∧
  (∀ (s : State) (offset : Nat),
     (s.managementUp = false → ∃ t, exec (.read (.mirror offset)) s = .next t ∧ t.out.mirror = 0 ∧ t.dict = s.dict ∧
       t.mirror = s.mirror) ∧
     (∀ key o, s.managementUp = true → objInfo key = some o → o.isBlock = false → key < 2 ^ 16 * 256 →
       s.permits .operator o key false = true →
       (offset = slotOffset key → ∃ t, exec (.read (.mirror offset)) s = .next t ∧
         t.out.mirror = BitVec.ofNat 32 (s.objValue key s.mirror.stagedView) ∧ t.mirror.lastResult = 0 ∧
         (o.size = 8 → t.mirror.heldHigh = some (offset, s.objValue key s.mirror.stagedView / 2 ^ 32)) ∧
         s.keptByRead t key ∧ (s.gated key = false → t.dict = s.dict)) ∧
       (∀ w, o.size = 8 → offset = slotOffset key + 4 → s.mirror.heldHigh = some (slotOffset key, w) →
         ∃ t, exec (.read (.mirror offset)) s = .next t ∧ t.out.mirror = BitVec.ofNat 32 w ∧ t.mirror.heldHigh = none ∧
           ∀ p, p ∉ [Part.mirror, .out] → p.same s t)) ∧
     (∀ key o, s.managementUp = true → objInfo key = some o → o.isBlock = false → key < 2 ^ 16 * 256 →
       s.permits .operator o key false = false → offset = slotOffset key →
       ∃ t, exec (.read (.mirror offset)) s = .next t ∧ t.out.mirror = 0 ∧ t.mirror.lastResult = 0 ∧
         t.counter 0x700002 = bump 32 (s.counter 0x700002) 1) ∧
     (s.managementUp = true → offset < 0x08000000 → objInfo (windowKey offset) = none →
       ∃ t, exec (.read (.mirror offset)) s = .next t ∧ t.out.mirror = 0 ∧ t.mirror.lastResult = 1))

/-- An open write of a scalar object that is no command, by a WRITE message or a direct write of the mirror, takes its
value or is refused (R448, R449, R452, R459, R462, R464); an 8-byte one only whole, its lower half first (R460). The model's
choices (log entry 33): Unit Address with the fabric enabled and a thermal limit that crosses its pair are OUT_OF_RANGE, and
the range is judged before COMMIT_PENDING.
Writes of the mirror's own registers (tables 15.6, 15.7) and MAILBOX_GO (R461): a request in the buffer that writes an
open scalar is run and its response placed; a wrong length is an error. -/
def Obligations.WritesAndMailboxTakeTheirValue : Prop :=
  (∀ (s : State) (eid tag : Byte) (m : Bytes) (key : Nat) (o : ObjInfo) (word : Word32),
     objInfo key = some o → o.isBlock = false → o.access ≠ 5 → key < 2 ^ 16 * 256 →
     (s.takesWrite (.mesh eid tag) key = true → commandFits 2 m = true → messageOurs m = true → requestFormed m = true →
       fieldAt m 5 1 = 2 → fieldAt m 8 2 * 256 + fieldAt m 10 1 = key →
       ∃ t r, exec (.write eid m) s = .next t ∧ s.replied t eid m r [] ∧
         s.takesValue t key (fieldAt m 16 8 % 2 ^ (8 * o.size)) o r) ∧
     (s.takesWrite .mirror key = true →
       (o.size ≠ 8 → word.toNat < 2 ^ (8 * o.size) → ∃ t, exec (.registerWrite (slotOffset key) word) s = .next t ∧
         s.takesValue t key word.toNat o t.mirror.lastResult) ∧
       (o.size = 8 → (∃ t, exec (.registerWrite (slotOffset key) word) s = .next t ∧ t.dict = s.dict ∧
           t.mirror.heldLow = some (slotOffset key, word.toNat)) ∧
         (∀ w, s.mirror.heldLow = some (slotOffset key, w) → w < 2 ^ 32 →
           ∃ t, exec (.mirrorUpperWrite (slotOffset key + 4) word) s = .next t ∧
             s.takesValue t key (w + word.toNat * 2 ^ 32) o t.mirror.lastResult) ∧
         (s.mirror.heldLow = none → ∃ t, exec (.mirrorUpperWrite (slotOffset key + 4) word) s = .next t ∧
           t.mirror.lastResult = 6 ∧ t.dict.rw = s.dict.rw ∧ t.dict.staged = s.dict.staged ∧
           t.counter 0x700001 = bump 32 (s.counter 0x700001) 1)))) ∧
  (∀ (s : State) (word : Word32), s.managementUp = true →
     (∃ t, exec (.registerWrite 0x08000000 word) s = .next t ∧ t.mirror.stagedView = bit word.toNat 0 ∧ t.dict = s.dict) ∧
     (∃ t, exec (.registerWrite 0x0800000C word) s = .next t ∧ t.mirror.requestLength = word.toNat % 2048 ∧
       t.dict = s.dict) ∧
     (word ≠ 0x4D424F58 ∨ s.mirror.mailboxState = 1 → ∃ t, exec (.mailboxGo word) s = .next t ∧
       t.mirror.mailboxState = s.mirror.mailboxState ∧ t.mirror.response = s.mirror.response ∧ t.dict = s.dict) ∧
     (s.mirror.mailboxState ≠ 1 → between 16 s.mirror.requestLength 1056 = false →
       ∃ t, exec (.mailboxGo 0x4D424F58) s = .next t ∧ t.mirror.mailboxState = 3 ∧ t.dict = s.dict) ∧
     (∀ m key o, s.mirror.mailboxState ≠ 1 → between 16 s.mirror.requestLength 1056 = true →
       m = padTo s.mirror.requestLength s.mirror.request → messageOurs m = true → requestFormed m = true →
       fieldAt m 5 1 = 2 → fieldAt m 8 2 * 256 + fieldAt m 10 1 = key → objInfo key = some o → o.isBlock = false →
       o.access ≠ 5 → s.takesWrite .mirror key = true →
       ∃ t, exec (.mailboxGo 0x4D424F58) s = .next t ∧ t.mirror.mailboxState = 2 ∧
         t.mirror.responseLength = t.mirror.response.length ∧ fieldAt t.mirror.response 5 1 = 130 ∧
         s.takesValue t key (fieldAt m 16 8 % 2 ^ (8 * o.size)) o (fieldAt t.mirror.response 11 1)))

/-- Block transfers (R456): a read with offset 0 opens a copy, clipped and closed at the object's end, and replaces one that
is open, counted; a later segment reads from the copy. A write's first segment that is not its last is kept and writes
nothing; a later one at the offset of the bytes so far is kept with them, and the last, which must end at the object's size,
writes the value whole (R448, R449, R464). A segment of another object or offset, or one past the size, is TRANSFER_ERROR and
closes the transfer, nothing written; so is one without a transfer; a ninth transfer is BUSY; a transfer without a segment
for 100 ms closes. -/
def Obligations.BlockTransfersRun : Prop :=
  (∀ (s : State) (eid : Byte) (m : Bytes) (o : ObjInfo) (key off len : Nat), s.managementUp = true →
    s.dict.endpoint ≠ 0 → messageOurs m = true → requestFormed m = true → key = fieldAt m 8 2 * 256 + fieldAt m 10 1 →
    objInfo key = some o → o.isBlock = true → off = fieldAt m 16 4 → len = fieldAt m 20 4 →
    (fieldAt m 5 1 = 3 → s.permits (s.asker eid) o key false = true →
      ∃ t, exec (.readBlock eid m) s = .next t ∧ t.dict.rw = s.dict.rw ∧ t.dict.applied = s.dict.applied ∧
        (off = 0 → s.transferOf (.endpoint eid) false = none →
          (s.dict.transfers.filter fun x => x.writing == false).length < 8 →
          s.replied t eid m 0 (toLe 4 0 ++ toLe 4 (min len o.size) ++ toLe 4 o.size ++ toLe 4 0 ++
            slice (toLe o.size (s.objValue key (bit (fieldAt m 7 1) 0))) 0 (min len o.size)) ∧
          ((t.transferOf (.endpoint eid) false).isSome = decide (len < o.size))) ∧
        (off = 0 → s.transferOf (.endpoint eid) false = none →
          8 ≤ (s.dict.transfers.filter fun x => x.writing == false).length → s.replied t eid m 5 [] ∧
          t.dict.transfers = s.dict.transfers) ∧
        (off ≠ 0 → s.transferOf (.endpoint eid) false = none → s.replied t eid m 6 []) ∧
        (∀ x, s.transferOf (.endpoint eid) false = some x →
          (off = 0 → t.counter 0x700005 = bump 32 (s.counter 0x700005) 1 ∧
            s.replied t eid m 0 (toLe 4 0 ++ toLe 4 (min len o.size) ++ toLe 4 o.size ++ toLe 4 0 ++
              slice (toLe o.size (s.objValue key (bit (fieldAt m 7 1) 0))) 0 (min len o.size))) ∧
          (off ≠ 0 → x.object = key → off < o.size → x.data.length = o.size →
            s.replied t eid m 0 (toLe 4 off ++ toLe 4 (min len (o.size - off)) ++ toLe 4 o.size ++ toLe 4 0 ++
              slice x.data off (min len (o.size - off))) ∧
            t.transferOf (.endpoint eid) false =
              if off + len < o.size then some { x with position := off + len } else none) ∧
          (off ≠ 0 → x.object ≠ key ∨ o.size ≤ off → s.replied t eid m 6 [] ∧
            t.transferOf (.endpoint eid) false = none))) ∧
    (fieldAt m 5 1 = 4 → s.permits (s.asker eid) o key true = true → s.writeWaits key = false → o.access ≠ 1 →
      ∃ t, exec (.writeBlock eid m) s = .next t ∧
        (off = 0 → bit (fieldAt m 7 1) 1 = false → len ≤ o.size → s.transferOf (.endpoint eid) true = none →
          (s.dict.transfers.filter fun x => x.writing == true).length < 8 →
          s.replied t eid m 0 (toLe 4 0 ++ toLe 4 len) ∧ t.dict.rw = s.dict.rw ∧ t.dict.staged = s.dict.staged ∧
          t.transferOf (.endpoint eid) true =
            some { who := .endpoint eid, writing := true, object := key, data := m.drop 32, position := len }) ∧
        (off = 0 → bit (fieldAt m 7 1) 1 = true → len = o.size → o.access = 3 → s.dict.commitState ≠ 1 →
          objRange key (leNat (m.drop 32)) = true → s.writeRange key (leNat (m.drop 32)) = true →
          s.transferOf (.endpoint eid) true = none →
          (s.dict.transfers.filter fun x => x.writing == true).length < 8 →
          s.replied t eid m 0 (toLe 4 0 ++ toLe 4 len) ∧ t.stagedVal key = objMask key (leNat (m.drop 32)) ∧
          t.transferOf (.endpoint eid) true = none) ∧
        (off ≠ 0 → s.transferOf (.endpoint eid) true = none → s.replied t eid m 6 [] ∧ t.dict.rw = s.dict.rw ∧
          t.dict.staged = s.dict.staged) ∧
        (∀ x, s.transferOf (.endpoint eid) true = some x →
          (off = 0 → bit (fieldAt m 7 1) 1 = false → len ≤ o.size → s.replied t eid m 0 (toLe 4 0 ++ toLe 4 len) ∧
            t.counter 0x700005 = bump 32 (s.counter 0x700005) 1 ∧ t.transferOf (.endpoint eid) true =
              some { who := .endpoint eid, writing := true, object := key, data := m.drop 32, position := len }) ∧
          (off ≠ 0 → x.object ≠ key ∨ off ≠ x.position ∨ o.size < x.data.length + len ∨
              (bit (fieldAt m 7 1) 1 = true ∧ x.data.length + len ≠ o.size) →
            s.replied t eid m 6 [] ∧ t.transferOf (.endpoint eid) true = none ∧ t.dict.rw = s.dict.rw ∧
            t.dict.staged = s.dict.staged ∧ t.dict.held = s.dict.held ∧ t.fseq = s.fseq ∧ t.life = s.life) ∧
          (off ≠ 0 → x.object = key → off = x.position → x.data.length + len ≤ o.size → bit (fieldAt m 7 1) 1 = false →
            s.replied t eid m 0 (toLe 4 off ++ toLe 4 len) ∧ t.dict.rw = s.dict.rw ∧ t.dict.staged = s.dict.staged ∧
            t.transferOf (.endpoint eid) true =
              some { x with data := x.data ++ m.drop 32, position := x.data.length + len }) ∧
          (∀ v, off ≠ 0 → x.object = key → off = x.position → x.data.length + len = o.size → bit (fieldAt m 7 1) 1 = true →
            v = leNat (x.data ++ m.drop 32) →
            t.transferOf (.endpoint eid) true = none ∧
            ((objRange key v && s.writeRange key v) = false → s.replied t eid m 3 [] ∧ t.dict.rw = s.dict.rw ∧
              t.dict.staged = s.dict.staged) ∧
            ((objRange key v && s.writeRange key v) = true →
              (o.access = 3 → s.dict.commitState = 1 → s.replied t eid m 4 [] ∧ t.dict.staged = s.dict.staged) ∧
              (o.access = 3 → s.dict.commitState ≠ 1 → s.replied t eid m 0 (toLe 4 off ++ toLe 4 len) ∧
                t.stagedVal key = objMask key v) ∧
              (key = 0x600101 → s.replied t eid m 0 (toLe 4 off ++ toLe 4 len) ∧
                t.fseq.buffer = .written (toLe 58176 v)) ∧
              (key = 0x1E1002 → s.replied t eid m 0 (toLe 4 off ++ toLe 4 len) ∧ t.life.ownerBuffer = some v) ∧
              (key = 0x1E3002 → s.replied t eid m 0 (toLe 4 off ++ toLe 4 len) ∧
                Store.get t.dict.held key = v)))))) ∧
  (∀ (s : State) (who : Requester) (writing : Bool), (s.transferOf who writing).isSome = true →
    ∃ t, exec (.blockTransferTimeout who writing) s = .next t ∧ t.transferOf who writing = none ∧
      (∀ w b, ¬ (w = who ∧ b = writing) → t.transferOf w b = s.transferOf w b) ∧
      t.counter 0x700005 = bump 32 (s.counter 0x700005) 1 ∧ ∀ p, p ∉ [Part.transfers, .counters] → p.same s t)

/-- ABORT (R457): the requester's open transfers on the object close and nothing is written; with none open there it is
TRANSFER_ERROR. -/
def Obligations.AbortClosesTransfers : Prop :=
  ∀ (s : State) (eid : Byte) (m : Bytes) (key : Nat), s.managementUp = true → messageOurs m = true →
    requestFormed m = true → fieldAt m 5 1 = 5 → key = fieldAt m 8 2 * 256 + fieldAt m 10 1 → (objInfo key).isSome = true →
    (s.dict.endpoint ≠ 0 →
      ∃ t, exec (.abort eid m) s = .next t ∧ (∀ p, p ∉ [Part.transfers, .counters, .out] → p.same s t) ∧
        t.dict.transfers = s.dict.transfers.filter (fun x => !(decide (x.who = .endpoint eid) && x.object == key)) ∧
        ((∃ x ∈ s.dict.transfers, x.who = .endpoint eid ∧ x.object = key) → s.replied t eid m 0 [] ∧
          t.dict.counters = s.dict.counters) ∧
        ((∀ x ∈ s.dict.transfers, x.who = .endpoint eid → x.object ≠ key) → s.replied t eid m 6 [] ∧
          t.counter 0x700001 = bump 32 (s.counter 0x700001) 1)) ∧
    (s.mirror.mailboxState ≠ 1 → between 16 s.mirror.requestLength 1056 = true →
      m = padTo s.mirror.requestLength s.mirror.request →
      ∃ t, exec (.mailboxGo 0x4D424F58) s = .next t ∧ (∀ p, p ∉ [Part.transfers, .counters, .mirror] → p.same s t) ∧
        t.mirror.mailboxState = 2 ∧
        t.dict.transfers = s.dict.transfers.filter (fun x => !(decide (x.who = .mailbox) && x.object == key)) ∧
        fieldAt t.mirror.response 11 1 =
          if s.dict.transfers.any (fun x => decide (x.who = .mailbox) && x.object == key) then 0 else 6)

/-- A write of a command object that is closed completes OK and does nothing but advance Access Refusals (R450); one with
a value out of Range answers OUT_OF_RANGE and advances Command Rejects (R449). Of the chip memory only what other agents
wrote has changed (the `host` operand of COMMIT and CONTEXT_BATCH_GO). -/
def Obligations.ClosedAndWrongCommandsDoNothing : Prop :=
  ∀ (s : State) (i : Instr) (via : Via) (key : Nat) (v : Word32), i.wf = true → commandWrite i = some (via, key, v) →
    (s.closedTo via key = true → v.toNat < 2 ^ 16 ∨ key ≠ 0x710003 →
      ∃ t, exec i s = .next t ∧ t.answered s via key 0 ∧ t.counter 0x700002 = bump 32 (s.counter 0x700002) 1 ∧
        t.mem = overlay s.mem (hostBytes i) ∧ ∀ p, p ∉ [Part.counters, .mirror, .mem, .out] → p.same s t) ∧
    (s.takesWrite via key = true → v.toNat < 2 ^ 16 ∨ key ≠ 0x710003 → commandInRange key v.toNat = false →
      ∃ t, exec i s = .next t ∧ t.answered s via key 3 ∧ t.counter 0x700001 = bump 32 (s.counter 0x700001) 1 ∧
        t.mem = overlay s.mem (hostBytes i) ∧ ∀ p, p ∉ [Part.counters, .mirror, .mem, .out] → p.same s t)

/-- Unit Reset (R72) that reaches its object is answered and due; Lane Reset begins a lane reset, or where it has no reach is
ignored with Command Rejects advanced (the model's choice, log entry 25);
Step Go is a start with Step Start Source 2, else refused (R417, table 14.2, R418, R548), and wakes the unit (R92), but while
UNIT_PRESENT is 0 it wakes nothing, an exception that R92 does not make (the model's choice, log entry 35, as are its counters).
Fabric Enable (R296, R298)
that reaches its object: written, and at 1 DISCOVER goes out where the fabric is open. -/
def Obligations.ResetStartAndFabricCommandsAct : Prop :=
  (∀ (s : State) (via : Via),
     (s.takesWrite via 0x1F3101 = true → ∃ t, exec (.unitReset via 0x554E4954) s = .next t ∧ t.answered s via 0x1F3101 0 ∧
       t.boundary = { s.boundary with unitResetDue := true } ∧ t.steps = s.steps ∧ t.dict.counters = s.dict.counters) ∧
     (s.takesWrite via 0x1F3001 = true → ∃ t, exec (.laneReset via 0x4C414E45) s = .next t ∧ t.answered s via 0x1F3001 0 ∧
       (s.laneResettable = true → t.boundary.phase = .draining ∧ t.portsUp = false ∧ t.steps.run = none ∧
         t.steps.latched = none ∧ t.dict.transfers = [] ∧ t.life.challenge = none) ∧
       (s.laneResettable = false → t.boundary = s.boundary ∧ t.steps = s.steps ∧
         t.counter 0x700001 = bump 32 (s.counter 0x700001) 1)) ∧
     (s.takesWrite via 0x207003 = true → ∃ t, exec (.stepGo via 0x5354474F) s = .next t ∧ t.answered s via 0x207003 0 ∧
       (s.portsUp = true → s.wakes t) ∧ (s.portsUp = false → t.sensing = s.sensing) ∧
       (s.rwVal 0x207002 = 2 → s.takesStart t s.now true) ∧
       (s.rwVal 0x207002 ≠ 2 → t.steps = s.steps ∧ t.counter 0x709003 = bump 32 (s.counter 0x709003) 1 ∧
         t.counter 0x700001 = bump 32 (s.counter 0x700001) 1))) ∧
  (∀ (s : State) (via : Via) (v : Word32), s.takesWrite via 0x500002 = true → v.toNat ≤ 1 →
     ∃ t, exec (.fabricEnable via v) s = .next t ∧ t.answered s via 0x500002 0 ∧ t.rwVal 0x500002 = v.toNat ∧
       (v.toNat = 0 ∨ t.fabricOpen = false ∨ s.restore.quiesced ≠ 0 → s.sends t []) ∧
       (v.toNat = 1 → t.fabricOpen = true → s.restore.quiesced = 0 → s.sends t
         [frame 1 1 s.address 0 0 (s.cfg 0x501001) 0 s.now (toLe 8 2)]))

/-- Discard Staged (R466) that reaches its object: the staged values are the applied ones again; COMMIT_PENDING, with nothing
changed, while a commit is pending (R464, table 15.5). -/
def Obligations.DiscardStagedRestages : Prop :=
  ∀ (s : State) (via : Via), s.takesWrite via 0x200002 = true →
    ∃ t, exec (.discardStaged via 0x44495343) s = .next t ∧ t.dict.applied = s.dict.applied ∧
      t.dict.commitState = s.dict.commitState ∧
      (s.dict.commitState ≠ 1 → t.answered s via 0x200002 0 ∧ ∀ k, t.stagedVal k = t.cfg k) ∧
      (s.dict.commitState = 1 → t.answered s via 0x200002 4 ∧ t.dict.staged = s.dict.staged ∧
        t.counter 0x700001 = bump 32 (s.counter 0x700001) 1)

/-- Store and its end (R471), and Restore Defaults (R473), that reach their objects; that the last is BUSY before it is
COMMIT_PENDING is the model's choice (log entry 33). -/
def Obligations.SettingsAreKeptAndDefaulted : Prop :=
  ∀ (s : State),
    (∀ via, s.takesWrite via 0x1F2001 = true → ∃ t, exec (.store via 0x53544F52) s = .next t ∧ t.nvm = s.nvm ∧
      (s.writerBusy = true → t.answered s via 0x1F2001 5 ∧ t.dict.storing = s.dict.storing) ∧
      (s.writerBusy = false → t.answered s via 0x1F2001 0 ∧ t.dict.storeState = 1 ∧
        t.dict.storing = some (persisted s.dict.rw, persisted s.dict.applied))) ∧
    (∀ img ok, s.dict.storing = some img → ∃ t, exec (.storeDone ok) s = .next t ∧ t.dict.storing = none ∧
      t.dict.storeState = (if ok then 2 else 3) ∧
      (ok = true → t.nvm = { s.nvm with settings := some img, storeCount := bump 32 s.nvm.storeCount 1 }) ∧
      (ok = false → t.nvm = s.nvm) ∧ (s.events.events.length < 255 → t.queued (if ok then 0x0F02 else 0x0F03) 0 0 0)) ∧
    (∀ via, s.takesWrite via 0x1F2101 = true → ∃ t, exec (.restoreDefaults via 0x44464C54) s = .next t ∧
      t.dict.applied = s.dict.applied ∧ t.nvm = s.nvm ∧
      (s.stepState ≠ 0 → t.answered s via 0x1F2101 5 ∧ t.dict.rw = s.dict.rw ∧ t.dict.staged = s.dict.staged) ∧
      (s.stepState = 0 → s.dict.commitState = 1 → t.answered s via 0x1F2101 4 ∧ t.dict.rw = s.dict.rw ∧
        t.dict.staged = s.dict.staged) ∧
      (s.stepState = 0 → s.dict.commitState ≠ 1 → t.answered s via 0x1F2101 0 ∧
        ∀ k, t.rwVal k = objDefault k ∧ t.stagedVal k = objDefault k))

/-- Commit (R463 to R465, table 15.10) that reaches its object: pending while a step runs; else at once: a bond set that
fails a check of table 10.5 refuses the whole; else it is applied with every other staged value, but for the areas while a
slot is not Free (R398), the directory where R409 refuses it and Run Mode 2 where a check of table 18.5 fails (R538). Commit
State is 3 where areas or directory were refused, else 2. -/
def Obligations.CommitAppliesTheStagedSet : Prop :=
  ∀ (s : State) (via : Via) (host : List Host.Cell), s.takesWrite via 0x200001 = true →
    ∃ t, exec (.commit via 0x434F4D54 host) s = .next t ∧ t.answered s via 0x200001 0 ∧ t.mem = overlay s.mem host ∧
      (s.stepState ≠ 0 → t.dict.commitState = 1 ∧ t.dict.applied = s.dict.applied ∧ t.dict.staged = s.dict.staged) ∧
      (s.stepState = 0 → s.boundary.phase = .idle → s.dict.commitState ≠ 1 → s.upkeep.heirloomFell = false →
        t.dict.staged = t.dict.applied ∧ t.dict.commitTime = s.now ∧
        (s.changes bondKeys = true → s.bondReason ≠ 0 → t.dict.commitState = 4 ∧ t.dict.applied = s.dict.applied ∧
          t.mortar.refuseReason = s.bondReason) ∧
        (s.changes bondKeys = false ∨ s.bondReason = 0 → s.contexts.slots = [] → s.stagedVal 0x200020 ≠ 2 →
          t.dict.commitState = 2 ∧ ∀ k ∈ stagedKeys, t.cfg k = s.stagedVal k) ∧
        (∀ why, s.changes bondKeys = false ∨ s.bondReason = 0 → why = (hostWrites host s).directoryReason →
          (∀ k ∈ stagedKeys, k ∉ areaKeys → k ≠ 0x206001 → k ≠ 0x206002 → k ≠ 0x200020 → t.cfg k = s.stagedVal k) ∧
          t.dict.commitState =
            (if (s.changes areaKeys = true ∧ s.contexts.slots ≠ []) ∨ why ≠ 0 then 3 else 2) ∧
          (s.changes areaKeys = true → s.contexts.slots ≠ [] → (∀ k ∈ areaKeys, t.cfg k = s.cfg k) ∧
            (s.events.events.length < 240 → t.queued 0x0D11 0 0 0)) ∧
          (s.changes areaKeys = false ∨ s.contexts.slots = [] → ∀ k ∈ areaKeys, t.cfg k = s.stagedVal k) ∧
          t.contexts.refuseReason = why ∧
          (why ≠ 0 → t.cfg 0x206001 = s.cfg 0x206001 ∧ t.cfg 0x206002 = s.cfg 0x206002 ∧
            t.contexts.directory = s.contexts.directory ∧ t.contexts.usable = s.contexts.usable ∧
            (s.events.events.length < 240 → t.queued 0x0D10 0 0 0)) ∧
          (why = 0 → t.cfg 0x206001 = s.stagedVal 0x206001 ∧ t.cfg 0x206002 = s.stagedVal 0x206002) ∧
          (s.stagedVal 0x200020 ≠ 2 → t.cfg 0x200020 = s.stagedVal 0x200020 ∧ t.upkeep.modeReason = 0) ∧
          (∀ no, s.stagedVal 0x200020 = 2 →
            no = (if s.fseq.heirloom = false then 1
              else if t.members ≠ [s.address] ∨ t.cfg 0x501003 ≠ s.address then 2
              else if t.cfg 0x501004 = 0 ∨ 262144 < t.cfg 0x501004 then 3 else 0) →
            t.upkeep.modeReason = no ∧ t.cfg 0x200020 = (if no = 0 then 2 else 0))))

/-- Events and counters: an event that finds 255 queued is replaced, one that finds 256 is lost (R499); EVENT_READABLE,
Event Pop (table 17.4) and Counter Clear (R476). -/
def Obligations.EventsAndCountersAreKept : Prop :=
  ∀ (s : State),
    (∀ mv, s.sensing.power ≠ .off → mv < 720 → ∃ t, exec (.aonRailFault mv) s = .next t ∧
      (s.events.events.length = 255 → t.queued 0x1104 0 0 0 ∧ t.events.events.length = 256 ∧
        t.counter 0x70A201 = bump 32 (s.counter 0x70A201) 1) ∧
      (256 ≤ s.events.events.length → t.events.events = s.events.events ∧
        t.events.nextSequence = (s.events.nextSequence + 1) % 2 ^ 32 ∧
        t.counter 0x70A201 = bump 32 (s.counter 0x70A201) 1)) ∧
    ((∃ e ∈ s.events.events, e.readable = false) → ∃ t, exec .eventReadable s = .next t ∧
      t.eventCount = s.eventCount + 1 ∧ (∀ p, p ≠ Part.events → p.same s t) ∧
      t.events.events.map (fun e => { e with readable := true }) =
        s.events.events.map (fun e => { e with readable := true })) ∧
    (∀ via (v : Word32), s.takesWrite via 0x710003 = true → 1 ≤ v.toNat → v.toNat ≤ 256 →
      ∃ t, exec (.eventPop via v) s = .next t ∧ t.answered s via 0x710003 0 ∧
        t.events.events.filter (·.readable) = (s.events.events.filter (·.readable)).drop v.toNat ∧
        t.events.events.filter (!·.readable) = s.events.events.filter (!·.readable)) ∧
    (∀ via, s.takesWrite via 0x700101 = true → ∃ t, exec (.counterClear via 0x434C5243) s = .next t ∧
      t.answered s via 0x700101 0 ∧ (∀ k, t.counter k = 0) ∧ t.events = s.events ∧ t.dict.rw = s.dict.rw)

/-! ### Life cycle -/

/-- Challenges (R484): drawn afresh unless the lockout holds, ended by Transition Go, whatever its outcome, or 60 s;
Transition Go takes what it needs and verification begins (R485); while a transition is under way it ends the challenge and
advances Command Rejects alone (the model's choice, log entry 28). -/
def Obligations.ChallengesAndTransitionGo : Prop :=
  ∀ (s : State),
    (∀ via, s.takesWrite via 0x1E2001 = true → ∃ t, exec (.challengeRequest via 0x4348414C) s = .next t ∧
      t.answered s via 0x1E2001 0 ∧
      (s.life.lockout = true → t.life = s.life ∧ t.counter 0x700001 = bump 32 (s.counter 0x700001) 1) ∧
      (s.life.lockout = false → ∃ c, c < 2 ^ 128 ∧
        t.life = { s.life with challenge := some c, draws := s.life.draws + 1, transition := 1 })) ∧
    (∀ via, s.takesWrite via 0x1E3003 = true → ∃ t, exec (.transitionGo via 0x4C43474F) s = .next t ∧
      t.answered s via 0x1E3003 0 ∧ t.nvm = s.nvm ∧
      (s.life.verifying.isSome = true ∨ s.life.writing.isSome = true ∨ s.life.wiping = true →
        t.life = { s.life with challenge := none } ∧
        t.counter 0x700001 = bump 32 (s.counter 0x700001) 1) ∧
      (s.life.verifying = none → s.life.writing = none → s.life.wiping = false →
        ∃ v, t.life = { s.life with verifying := some v, challenge := none, transition := 2 } ∧
          v.challenge = s.life.challenge ∧ v.target = Store.get s.dict.held 0x1E3001 ∧
          v.signature = Store.get s.dict.held 0x1E3002 ∧
          (v.busy = true ↔ s.stepState ≠ 0 ∨ s.dict.commitState = 1 ∨ s.writerBusy = true))) ∧
    (s.life.challenge ≠ none → exec .challengeExpiry s = .next { s with life := { s.life with challenge := none } }) ∧
    (s.life.lockout = true → exec .challengeLockoutEnd s = .next { s with life := { s.life with lockout := false } })

/-- TRANSITION_VERIFIED (R485, R486, R487): the first check of table 16.5 that fails refuses it; with all passed the
record's new state is being written, or the wipe has begun. The model's choices: both copies hold what is written at once
(R479) and a refusal advances Command Rejects (R548; log entry 28), and the starts that wait are refused as a wipe begins (log
entry 81). -/
def Obligations.TransitionsAreJudged : Prop :=
  ∀ (s : State) (v : Verifying), s.life.verifying = some v →
    (v.busy = true → s.transitionReason v = 1) ∧
    (v.busy = false → v.challenge = none → s.transitionReason v = 2) ∧
    (v.busy = false → v.challenge ≠ none → transitionRow s.life.record.state v.target = none → s.transitionReason v = 3) ∧
    (s.transitionReason v ≠ 0 → ∃ t, exec .transitionVerified s = .next t ∧ t.life.transition = 5 ∧
      t.life.reason = s.transitionReason v ∧ t.life.verifying = none ∧ t.life.writing = s.life.writing ∧
      t.life.record.state = s.life.record.state ∧ t.life.record.transitions = s.life.record.transitions ∧
      t.counter 0x700001 = bump 32 (s.counter 0x700001) 1 ∧
      (s.transitionReason v = 5 → t.life.record.failures = bump 32 s.life.record.failures 1 ∧ t.life.lockout = true ∧
        t.nvm.copyA = some t.life.record ∧ t.nvm.copyB = some t.life.record) ∧
      (s.transitionReason v ≠ 5 → t.life.record = s.life.record ∧ t.nvm = s.nvm ∧ t.life.lockout = s.life.lockout) ∧
      (s.events.events.length < 255 → t.queued 0x1002 0 s.life.record.state (s.transitionReason v))) ∧
    (s.transitionReason v = 0 → ∃ t, exec .transitionVerified s = .next t ∧ t.life.transition = 3 ∧
      t.life.verifying = none ∧
      ((transitionRow s.life.record.state v.target).any (·.2) = false → t.life.record = s.life.record ∧ t.nvm = s.nvm ∧
        ∃ r, t.life.writing = some r ∧ r.state = v.target ∧
          r.transitions = bump 32 s.life.record.transitions 1) ∧
      ((transitionRow s.life.record.state v.target).any (·.2) = true → t.life.wiping = true ∧
        t.life.record.state = v.target ∧ t.life.record.wipePending = true ∧ t.life.record.areas = s.wipeAreas ∧
        t.nvm.copyA = some t.life.record ∧ t.nvm.copyB = some t.life.record ∧ t.rwVal 0x500002 = 0 ∧
        t.steps.latched = none ∧ t.steps.held = none))

/-- LIFECYCLE_CHANGED (R486), no start waiting in a state that runs no step (R491), and WIPE_DONE with the ports connected
(R45, R487, table 16.6): contexts, head slots, owner key and settings are gone, the record's areas are zero and stay in it, the
image is the factory image also where an install was writing, and a unit reset follows. The model's choices: both copies hold
what is written at once (R479; log entry 28), the wipe is whole at WIPE_DONE and an install it meets is dropped (log entry
29), and waiting starts are refused as the state changes (R548; log entry 81). -/
def Obligations.StatesChangeAndWipesEnd : Prop :=
  ∀ (s : State),
    (∀ r, s.life.writing = some r → ∃ t, exec .lifecycleChanged s = .next t ∧ t.life.record.state = r.state ∧
      t.life.record.transitions = r.transitions ∧ t.life.record.ownerKey = r.ownerKey ∧ t.life.writing = none ∧
      t.life.transition = 4 ∧ t.nvm.copyA = some t.life.record ∧ t.nvm.copyB = some t.life.record ∧
      (r.state ≠ 2 → r.state ≠ 4 → t.steps.latched = none ∧ t.steps.held = none) ∧
      (s.events.events.length < 253 → t.queued 0x1001 0 r.state 0)) ∧
    (s.life.wiping = true → s.portsUp = true → s.life.writing = none →
      ∃ t, exec .wipeDone s = .next t ∧ t.boundary.phase = .asserted .unit ∧ t.portsUp = false ∧ t.life.transition = 4 ∧
        t.life.record.state = s.life.record.state ∧ t.life.record.ownerKey = 0 ∧ t.life.record.wipePending = false ∧
        t.life.record.areas = s.life.record.areas ∧ t.nvm.copyA = some t.life.record ∧ t.nvm.copyB = some t.life.record ∧ t.nvm.settings = none ∧
        t.nvm.image = .factory ∧ (∀ slot, t.context slot = none) ∧ (∀ j < 4, (t.head j).state = 0) ∧
        (∀ a, (∃ x ∈ s.life.record.areas, x.1 ≤ a ∧ a < x.1 + x.2) → readCell t.mem a = 0) ∧
        (∀ a, (∀ x ∈ s.life.record.areas, ¬ (x.1 ≤ a ∧ a < x.1 + x.2)) → readCell t.mem a = readCell s.mem a))

/-! ### Reliability, restore and tests -/

/-- SCRUB_READ (R502, R505): the rotation reads the next line, a Head Store pass ahead of it, whatever words in error it
finds; a corrected word is counted for its memory (R503), an uncorrectable one in any of the seven memories has the
outcome of table 17.6 for the scrub. Off or held in reset, nothing is read. An uncorrectable word that a read for work meets
has the outcome of the table's other column (R504). A reload of the microprogram RAM takes the stored image only where its
digest is the loaded one's. -/
def Obligations.ScrubReadsFindErrors : Prop :=
  (∀ (s : State) (found : List EccHit),
    (s.scrubRuns = false → exec (.scrubRead found) s = .next s) ∧
    (∀ left, s.scrubRuns = true → s.upkeep.hsPass = some left → s.sensing.hsOff = false →
      ∃ t, exec (.scrubRead found) s = .next t ∧
        t.upkeep.memory = s.upkeep.memory ∧ t.upkeep.line = s.upkeep.line ∧ (found = [] → t.heads = s.heads) ∧
        (1 < left → t.upkeep.hsPass = some (left - 1)) ∧
        (left ≤ 1 → t.upkeep.hsPass = none ∧ t.counter 0x70A20A = bump 32 (s.counter 0x70A20A) 1 ∧
          (found = [] → s.events.events.length < 255 → t.queued 0x1103 0 0 0))) ∧
    (s.scrubRuns = true → s.upkeep.hsPass = none ∨ s.sensing.hsOff = true → s.scrubbed s.upkeep.memory = true →
      1 ≤ s.upkeep.memory → s.upkeep.memory ≤ 7 →
      ∃ t, exec (.scrubRead found) s = .next t ∧
        (s.upkeep.line + 1 < t.memoryLines s.upkeep.memory →
          t.upkeep.memory = s.upkeep.memory ∧ t.upkeep.line = s.upkeep.line + 1) ∧
        (t.memoryLines s.upkeep.memory ≤ s.upkeep.line + 1 →
          t.upkeep.memory = (if s.upkeep.memory = 7 then 1 else s.upkeep.memory + 1) ∧ t.upkeep.line = 0) ∧
        (found = [] → t.heads = s.heads ∧ t.mem = s.mem ∧ t.contexts = s.contexts) ∧
        (∀ e : EccHit, found = [e] → e.memory = s.upkeep.memory → e.word / 8 = s.upkeep.line →
          (e.uncorrectable = false → t.heads = s.heads ∧ t.mem = s.mem ∧
            t.counter (0x70A000 + e.memory) = bump 32 (s.counter (0x70A000 + e.memory)) 1) ∧
          (e.uncorrectable = true →
            t.counter (0x70A100 + e.memory) = bump 32 (s.counter (0x70A100 + e.memory)) 1 ∧
            (s.events.events.length < 255 → t.queued 0x1102 e.word e.memory 2) ∧
            (e.memory = 1 → s.stepReads e.slot = false → (s.head e.slot).state = 0 → t.heads = s.heads) ∧
            (e.memory = 1 → s.stepReads e.slot = false → (s.head e.slot).state ≠ 0 →
              (s.marchTime = false ∨ (∃ j, j ≠ e.slot ∧ (s.head j).state = 1) →
                (t.head e.slot).state = 5 ∧ (t.head e.slot).frames = 0 ∧ ∀ j, j ≠ e.slot → t.head j = s.head j) ∧
              (s.marchTime = true → (∀ j, j ≠ e.slot → (s.head j).state ≠ 1) →
                ∀ j < 4, (t.head j).state = 0 ∧ (t.head j).frames = 0)) ∧
            (e.memory = 1 → s.stepReads e.slot = true → e.slot < s.heads.length →
              t.head e.slot = { s.head e.slot with failing := true }) ∧
            (e.memory = 2 ∨ e.memory = 3 → t.heads = s.heads ∧ t.mem = s.mem ∧ t.contexts = s.contexts ∧
              t.steps = s.steps ∧ t.fseq = s.fseq ∧ t.nvm = s.nvm ∧ t.lanes = s.lanes) ∧
            (e.memory = 4 → s.losesSlot t (e.word / 32) ∧ t.heads = s.heads) ∧
            (e.memory = 5 → t.contexts = { s.contexts with cache := s.contexts.cache.eraseIdx (e.word / 64) } ∧
              t.mem = s.mem ∧ t.heads = s.heads ∧ t.steps = s.steps) ∧
            (e.memory = 6 → t.heads = s.heads ∧ t.mem = s.mem ∧
              (s.stepRunning = true → t.fseq = { s.fseq with reload := true }) ∧
              (s.stepRunning = false → s.fseq.loaded ≠ none → imageDigest s.nvm.image = s.fseq.digest →
                t.fseq = { s.fseq with reload := false, loaded := some s.nvm.image }) ∧
              (s.stepRunning = false → s.fseq.loaded = none ∨ imageDigest s.nvm.image ≠ s.fseq.digest →
                t.fseq = { s.fseq with reload := false, loaded := none })) ∧
            (e.memory = 7 → t.nvm = { s.nvm with settings := none } ∧ t.heads = s.heads ∧ t.mem = s.mem))))) ∧
  (∀ (s : State) (e : EccHit) (rows group : List Nat) (t : State), t = uncorrectableWork e rows group s →
     t.counter (0x70A100 + e.memory) = bump 32 (s.counter (0x70A100 + e.memory)) 1 ∧
     (s.events.events.length < 255 → t.queued 0x1102 e.word e.memory 1) ∧
     (e.memory = 1 → t.steps.run = s.steps.run.map (·.marked group 0x1120) ∧
       (e.slot < s.heads.length → t.head e.slot = { s.head e.slot with failing := true })) ∧
     (e.memory = 2 → t.steps.run = s.steps.run.map (·.marked rows 0x1120)) ∧
     (e.memory = 3 → t.steps.run =
       s.steps.run.map (·.marked (if e.region then s.rowsOfHead e.slot else rows) 0x1120)) ∧
     (e.memory = 4 → s.losesSlot t (e.word / 32)) ∧
     (e.memory = 5 → t.contexts = { s.contexts with cache := s.contexts.cache.eraseIdx (e.word / 64) } ∧
       t.steps = s.steps) ∧
     (e.memory = 6 → t.steps.run = s.steps.run.map (·.marked rows 0x1120) ∧ t.fseq = { s.fseq with reload := true }) ∧
     (e.memory = 7 → t.nvm = { s.nvm with settings := none }))

/-- Snapshot Go (R511, R513, R517) that reaches its object: refused without a partner or on a quiesced unit, due while a
step runs, else captured; each chunk of the frozen image is then read and sent (R513, table 10.12). An uncorrectable word of
the context table that a read for the image meets ends it with reason 3 (the model's choice, log entry 84). -/
def Obligations.SnapshotsAreCapturedAndSent : Prop :=
  ∀ (s : State),
    (∀ via, s.takesWrite via 0x800004 = true → ∃ t, exec (.snapshotGo via 0x534E4150) s = .next t ∧
      t.answered s via 0x800004 0 ∧ t.mem = s.mem ∧
      (s.restore.quiesced ≠ 0 ∨ s.partner = s.address → t.snapshot = s.snapshot ∧
        t.counter 0x700001 = bump 32 (s.counter 0x700001) 1) ∧
      (s.restore.quiesced = 0 → s.partner ≠ s.address →
        (s.stepRunning = true → t.snapshot = { s.snapshot with requested := true }) ∧
        (s.stepRunning = false → s.snapshot.run.isSome = true → t.counter 0x70A204 = bump 32 (s.counter 0x70A204) 1 ∧
          t.snapshot.run = s.snapshot.run) ∧
        (s.stepRunning = false → s.snapshot.run = none → (s.peer s.partner).state = 2 →
          t.snapshot.state = 1 ∧ t.snapshot.requested = false ∧ s.wakes t ∧ ∃ r, t.snapshot.run = some r ∧
            r.partner = s.partner ∧ r.epoch = s.steps.lastNumber % 2 ^ 32 ∧ r.sent = 0 ∧ r.placed = [] ∧
            r.chunks.getLast?.map (·.kind) = some 5) ∧
        (s.stepRunning = false → s.snapshot.run = none → (s.peer s.partner).state ≠ 2 →
          t.snapshot.state = 3 ∧ t.snapshot.run = none ∧
          (s.events.events.length < 255 →
            t.queued 0x1107 s.steps.lastNumber (s.steps.lastNumber % 2 ^ 32) 1)))) ∧
    (∀ r (ecc : List EccHit), s.snapshot.run = some r → (∃ e ∈ ecc, e.memory = 4 ∧ e.uncorrectable = true) →
      ∃ t, exec (.snapshotChunkRead ecc) s = .next t ∧ t.snapshot.state = 3 ∧ t.snapshot.run = none ∧
        t.counter 0x70A203 = bump 32 (s.counter 0x70A203) 1 ∧ t.out = s.out) ∧
    (∀ r c (ecc : List EccHit), s.snapshot.run = some r → r.chunks[r.sent]? = some c → s.portsUp = true →
      (∀ e ∈ ecc, e.memory = 4 → e.uncorrectable = false) →
      ∃ t, exec (.snapshotChunkRead ecc) s = .next t ∧ t.snapshot.run = some { r with sent := r.sent + 1 } ∧
        (s.fabricOpen = true → s.quiesceAllows 9 r.partner = true → (s.peer r.partner).unacked.length < 64 →
          s.sends t [frame 9 0 s.address r.partner (s.peer r.partner).txNext (s.cfg 0x501001) 0 s.now
            (chunkHeader r.epoch r.sent r.chunks.length c.payload.length c.kind (sha256 c.payload) ++ c.payload)]))

/-- The hold area of a partner (R514), from the first source alone: a chunk 0, and each that follows it in order, that fits
its half is written there and nowhere else; the last one of an increment of the newest image goes behind the chain with the
chunks before it. A chunk out of its order, one that does not fit, and the last one of an increment with another prev_epoch, or
an epoch not above it, is refused (HOLD_REFUSED) and the whole image discarded. The placing receipt goes when the write is
acknowledged. Hold Clear (R514)
forgets the source and the chain; Hold Send Go (R515) sends the chain's chunks, one after another, to a Present target
with Hold Send Epoch in each, else it is refused. The model's choices: the half a chunk 0 goes into, and that an increment is
written there too (log entry 15), and that target and epoch are read at each chunk (log entry 37). -/
def Obligations.HoldAreaKeepsAndSends : Prop :=
  (∀ (s : State),
     (∀ m h, s.takesTurn m 9 → headerClear m = true → (s.peer (msgSource m)).rxHeld = [] →
       chunkClear (msgPayload m) = true → h = ChunkHead.read (msgPayload m) → h.bytes ≠ 0 → s.restore.quiesced = 0 →
       s.rwVal 0x800102 ≠ 0 →
       ∃ t, exec (.statePage m) s = .next t ∧
         (s.hold.source = none ∨ s.hold.source = some (msgSource m) → h.chunk = 0 → h.last = false →
           chunkStride ≤ s.holdHalf → ∃ r, t.hold.source = some (msgSource m) ∧ t.hold.receiving = some r ∧
             t.hold.chain = s.hold.chain ∧ r.epoch = h.epoch ∧ r.count = h.count ∧ r.next = 1 ∧
             r.writing = [(msgPayload m).take 64] ∧ r.base = s.halfAddr (s.hold.chain == []) ∧
             t.mem = writeMem s.mem r.base ((msgPayload m).take (64 + h.bytes)) ∧
             ∀ a, (a < r.base ∨ r.base + (64 + h.bytes) ≤ a) → readCell t.mem a = readCell s.mem a) ∧
         (∀ x, s.hold.source = some x → x ≠ msgSource m → t.hold = s.hold ∧ t.mem = s.mem ∧
           (s.events.events.length < 255 → t.queued 0x1108 0 (msgSource m) (h.epoch % 65536))) ∧
         (s.hold.source = none ∨ s.hold.source = some (msgSource m) →
           (h.chunk ≠ 0 → (∀ r, s.hold.receiving = some r → r.epoch ≠ h.epoch ∨ r.next ≠ h.chunk) →
             s.holdRefused t (msgSource m) h.epoch) ∧
           ∀ r, (h.chunk = 0 ∧ r = { epoch := h.epoch, full := true, base := s.halfAddr (s.hold.chain == []), next := 0,
                                     count := h.count, writing := [] }) ∨
               (h.chunk ≠ 0 ∧ s.hold.receiving = some r ∧ r.epoch = h.epoch ∧ r.next = h.chunk) →
             (s.holdHalf < chunkStride * (h.chunk + 1) → s.holdRefused t (msgSource m) h.epoch) ∧
             (chunkStride * (h.chunk + 1) ≤ s.holdHalf → h.last = false ∨ bit (fieldAt (msgPayload m) 66 2) 0 = true →
               t.hold = { s.hold with source := some (msgSource m), receiving := some { r with
                 next := r.next + 1, writing := r.writing ++ [(msgPayload m).take 64] } } ∧
               t.mem = writeMem s.mem (r.base + chunkStride * h.chunk) ((msgPayload m).take (64 + h.bytes))) ∧
             (chunkStride * (h.chunk + 1) ≤ s.holdHalf → h.last = true → bit (fieldAt (msgPayload m) 66 2) 0 = false →
               (s.hold.chain.getLast?.map (·.epoch) ≠ some (fieldAt (msgPayload m) 80 4) ∨
                   fieldAt (msgPayload m) 68 4 ≤ fieldAt (msgPayload m) 80 4 ∨
                   s.halfAddr true + s.holdHalf < s.appendAddr + chunkStride * (h.chunk + 1) →
                 s.holdRefused t (msgSource m) h.epoch) ∧
               (s.hold.chain.getLast?.map (·.epoch) = some (fieldAt (msgPayload m) 80 4) →
                 fieldAt (msgPayload m) 80 4 < fieldAt (msgPayload m) 68 4 →
                 s.appendAddr + chunkStride * (h.chunk + 1) ≤ s.halfAddr true + s.holdHalf →
                 t.hold = { s.hold with source := some (msgSource m), receiving := some { r with
                   base := s.appendAddr, full := false, next := r.next + 1,
                   writing := r.writing ++ [(msgPayload m).take 64] } } ∧
                 t.mem = writeMem (if r.base = s.appendAddr then s.mem
                     else writeMem s.mem s.appendAddr (readMem s.mem r.base (chunkStride * h.chunk)))
                   (s.appendAddr + chunkStride * h.chunk) ((msgPayload m).take (64 + h.bytes)))))) ∧
     (∀ r x rest, s.hold.receiving = some r → r.writing = x :: rest → s.portsUp = true →
       ∃ t, exec .holdChunkPlaced s = .next t ∧ t.mem = s.mem ∧ t.hold.source = s.hold.source ∧
         ((ChunkHead.read x).last = false → t.hold.receiving = some { r with writing := rest } ∧
           t.hold.chain = s.hold.chain) ∧
         ((ChunkHead.read x).last = true → t.hold.receiving = none ∧
           t.hold.chain = (if r.full then [] else s.hold.chain) ++
             [{ addr := r.base, epoch := (ChunkHead.read x).epoch, chunks := (ChunkHead.read x).count }]))) ∧
  (∀ (s : State),
     (∀ via, s.takesWrite via 0x800105 = true → ∃ t, exec (.holdClear via 0x484C4443) s = .next t ∧
       t.answered s via 0x800105 0 ∧ t.hold.source = none ∧ t.hold.chain = [] ∧ t.hold.receiving = none ∧ t.mem = s.mem) ∧
     (∀ via, s.takesWrite via 0x800108 = true → ∃ t, exec (.holdSendGo via 0x53454E44) s = .next t ∧
       t.answered s via 0x800108 0 ∧ t.hold.chain = s.hold.chain ∧
       ((s.peer (s.rwVal 0x800106)).state ≠ 2 → t.hold = s.hold ∧ t.counter 0x700001 = bump 32 (s.counter 0x700001) 1) ∧
       ((s.peer (s.rwVal 0x800106)).state = 2 → s.hold.chain ≠ [] → t.hold.sending = some (0, 0))) ∧
     (∀ i c im at_, s.hold.sending = some (i, c) → s.hold.chain[i]? = some im → s.portsUp = true →
       at_ = im.addr + chunkStride * c →
       ∃ t, exec .holdSendChunkRead s = .next t ∧ t.mem = s.mem ∧ t.hold.chain = s.hold.chain ∧
         (c + 1 < im.chunks → t.hold.sending = some (i, c + 1)) ∧
         (im.chunks ≤ c + 1 → s.hold.chain.length ≤ i + 1 → t.hold.sending = none) ∧
         (s.fabricOpen = true → s.quiesceAllows 9 (s.rwVal 0x800106) = true →
           (s.peer (s.rwVal 0x800106)).unacked.length < 64 →
           s.sends t [frame 9 0 s.address (s.rwVal 0x800106) (s.peer (s.rwVal 0x800106)).txNext
             (s.cfg 0x501001) 0 s.now
             (overwrite (readMem s.mem at_ (64 + leNat (readMem s.mem (at_ + 12) 4))) 0 (toLe 4 (s.rwVal 0x800107)))])))

/-- Restore Go (R516, R519, R520) that reaches its object: an epoch not above every one used is ignored with Command Rejects
advanced; otherwise, at once or at the running step's boundary, nothing is held, the unit is quiesced and the restore runs, or
fails at once where its partner is lost (the first and the last are the model's choices, log entry 36). Each chunk of R518
and table 17.11, by RESTORE_CHUNK_READ from flash or the shared store, or with source 1 by STATE_PAGE from the source unit: one
of another epoch or already taken is discarded, a hole fails the restore, a damaged one is read once more where the unit reads
itself and then fails it, the next one is taken, a last flag that disagrees fails it; the last of an image is checked
(reasons 5 to 8), then the next image follows, or the restore is COMPLETE: budgets, counters and Last Step Number are the
image's, and the unit leaves quiesced. RESTORE_CHUNK_TIMEOUT fails it (R519). -/
def Obligations.RestorePreparesAndJudges : Prop :=
  (∀ (s : State) (via : Via), s.takesWrite via 0x801006 = true →
     ∃ t, exec (.restoreGo via 0x52455354) s = .next t ∧ t.answered s via 0x801006 0 ∧ t.mem = s.mem ∧
       (∀ m, s.restore.maxEpoch = some m → s.rwVal 0x801001 ≤ m → t.restore = s.restore ∧ t.contexts = s.contexts ∧
         t.counter 0x700001 = bump 32 (s.counter 0x700001) 1) ∧
       ((∀ m, s.restore.maxEpoch = some m → m < s.rwVal 0x801001) → t.restore.maxEpoch = some (s.rwVal 0x801001) ∧
         (s.stepRunning = true → t.restore.requested = true ∧ t.steps = s.steps ∧
           (s.restore.run = none → t.contexts = s.contexts)) ∧
         (s.stepRunning = false → t.contexts.slots = [] ∧ t.contexts.nodes = [] ∧ t.contexts.batches = [] ∧
           t.restore.quiesced = (if s.restore.quiesced = 2 then 2 else 1) ∧ t.snapshot.run = none ∧
           (s.rwVal 0x801002 ≠ 1 → t.restore.state = 1 ∧ t.restore.chunksDone = 0 ∧ ∃ r, t.restore.run = some r ∧
             r.source = s.rwVal 0x801002 ∧ r.epoch = s.rwVal 0x801001 ∧ r.image = 0 ∧ r.next = 0) ∧
           (s.rwVal 0x801002 = 1 → (s.peer (s.rwVal 0x801003)).state = 3 ∨ (s.peer (s.rwVal 0x801003)).state = 4 →
             t.restore.state = 4 ∧ t.restore.reason = 1 ∧ t.restore.run = none)))) ∧
  (∀ (s : State) (r : RestoreRun), s.restore.run = some r →
     (∀ host u h at_ payload, s.portsUp = true → r.source ≠ 1 → u = overlay s.mem host →
       at_ = (s.restoreEntry r.image).1 + chunkStride * r.next → h = ChunkHead.read (readMem u at_ 64) →
       payload = readMem u (at_ + 64) (min h.bytes 65488) →
       ∃ t, exec (.restoreChunkRead host) s = .next t ∧
         ({ s with mem := u } : State).judgesChunk t r h payload (s.restoreEntry r.image).2) ∧
     (∀ m h, s.takesTurn m 9 → headerClear m = true → (s.peer (msgSource m)).rxHeld = [] →
       chunkClear (msgPayload m) = true → h = ChunkHead.read (msgPayload m) → h.bytes ≠ 0 → s.restore.quiesced ≠ 0 →
       s.rwVal 0x801002 = 1 → msgSource m = s.rwVal 0x801003 → r.source = 1 →
       ∃ t, exec (.statePage m) s = .next t ∧ s.judgesChunk t r h (slice (msgPayload m) 64 h.bytes) r.epoch) ∧
     (∃ t, exec .restoreChunkTimeout s = .next t ∧ t.restore.state = 4 ∧ t.restore.reason = 9 ∧ t.restore.run = none ∧
       t.contexts.slots = [] ∧ 1 ≤ t.restore.quiesced ∧ t.mem = s.mem ∧
       (s.events.events.length < 255 → t.queued 0x110A 0 r.epoch 9)))

/-- LEAD_CONFLICT (R522 to R525): the west half is fenced and the running step's work is done again with its admission
outcomes, its manifest read again (R524); that the rows keep the statuses and values they had is the model's choice (log entry
56); a conflict while it is fenced abandons the step and quiesces the unit. -/
def Obligations.LeadConflictsFenceTheWest : Prop :=
  ∀ (s : State) (west : Bool), s.sensing.power = .active → s.sensing.laneRow < 4 →
    ∃ t, exec (.leadConflict west) s = .next t ∧
      (s.upkeep.westFenced = false → t.upkeep.westFenced = true ∧ t.restore = s.restore ∧ t.contexts = s.contexts ∧
        (s.steps.run = none → t.steps = s.steps) ∧
        (∀ r, s.steps.run = some r → ∃ q, t.steps.run = some q ∧
          q.rows = r.rows.map (fun x => { x with full := false }) ∧ q.head = r.head ∧ q.finals = [] ∧
          q.summaryDone = false ∧ q.rerun = true ∧ q.admitted = r.admitted ∧ q.groups.length = r.groups.length ∧
          t.lanes = .initial ∧ ∀ g ∈ q.groups, g.intake = false ∧ g.filled = 0 ∧ g.drained = [] ∧ g.written = false) ∧
        (s.events.events.length < 255 → t.queued 0x110B s.runningNumber (if west then 1 else 2) 0)) ∧
      (s.upkeep.westFenced = true → t.steps.run = none ∧ t.lanes = .initial ∧ t.restore.quiesced = 2 ∧ t.upkeep.westFenced = true ∧
        (s.events.events.length < 255 → t.queued 0x110B s.runningNumber 3 0))

/-- BIST Go (R534, R535) that reaches its object: refused without reach, waiting while a step or a lane reset runs, else the
selected tests begin in ascending order; test 10 leaves every head slot Empty from the start of its march, which comes behind
the tests before it and waits for running swaps (R535; the time the tests take, at 4.0 GHz, is the model's choice, log entry
38). BIST_DONE: the failures among the selected tests; test 6 leaves no valid line of the automaton cache. -/
def Obligations.TestsRunOnDemand : Prop :=
  ∀ (s : State),
    (∀ via, s.takesWrite via 0x900002 = true → ∃ t, exec (.bistGo via 0x42495354) s = .next t ∧
      t.answered s via 0x900002 0 ∧
      (s.upkeep.bistState = 1 → t.upkeep = s.upkeep ∧ t.heads = s.heads) ∧
      (s.upkeep.bistState ≠ 1 → s.laneResettable = false → t.upkeep = s.upkeep ∧ t.heads = s.heads ∧
        t.counter 0x700001 = bump 32 (s.counter 0x700001) 1) ∧
      (s.upkeep.bistState ≠ 1 → s.laneResettable = true → s.stepState = 0 → s.boundary.phase = .idle →
        t.upkeep = { s.upkeep with bistWaiting := false, bistRun := some s.bistMask, bistState := 1,
                                   marchDue := t.upkeep.marchDue } ∧
        (bit s.bistMask 10 = false → t.upkeep.marchDue = none) ∧
        (bit s.bistMask 10 = true → cyclesBefore10 s.bistMask = 0 → (∀ h ∈ s.heads, h.state ≠ 1) →
          t.upkeep.marchDue = none ∧ ∀ j < 4, (t.head j).state = 0 ∧ (t.head j).frames = 0) ∧
        (bit s.bistMask 10 = true → 0 < cyclesBefore10 s.bistMask ∨ (∃ h ∈ s.heads, h.state = 1) →
          t.upkeep.marchDue = some (s.slow + cyclesBefore10 s.bistMask)) ∧
        (bit s.bistMask 10 = false ∨ 0 < cyclesBefore10 s.bistMask ∨ (∃ h ∈ s.heads, h.state = 1) → t.heads = s.heads)) ∧
      (s.upkeep.bistState ≠ 1 → s.laneResettable = true → s.stepState ≠ 0 ∨ s.boundary.phase ≠ .idle →
        t.upkeep = { s.upkeep with bistWaiting := true } ∧ t.heads = s.heads)) ∧
    (∀ mask failures, s.upkeep.bistRun = some mask → s.upkeep.marchDue = none →
      ∃ t, exec (.bistDone failures) s = .next t ∧ t.upkeep.bistRun = none ∧
        t.upkeep.bistFailures = failures &&& mask ∧
        t.upkeep.bistState = (if failures &&& mask = 0 then 2 else 3) ∧ t.upkeep.bistTime = s.now ∧
        t.heads = s.heads ∧ (bit mask 6 = true → t.contexts.cache = []) ∧ (s.steps.latched = none → t.steps = s.steps) ∧
        (failures &&& mask = 0 → s.events.events.length < 255 → t.queued 0x1141 0 0 0))

end
end

