-- ==== Sys2Proof/Laws/Memory.lean ====
section
/-! SUPPORT. The chip memory: every operation keeps the canonical form, a read after a write gives the byte written,
a write leaves every other byte alone. -/

namespace Sys2Proof.Machine

set_option linter.all false

/-- Every address of a memory lies above `a`. -/
def Above (a : Nat) (m : List Host.Cell) : Prop := ∀ c ∈ m, a < c.1

/-- The canonical form, one entry at a time. -/
theorem wf_cons {k : Nat} {b : Byte} {m : List Host.Cell} :
    Memory.wf ((k, b) :: m) = true ↔ b ≠ unlistedByte ∧ Above k m ∧ Memory.wf m = true := by
  induction m generalizing k b with
  | nil => simp [Memory.wf, Above]
  | cons x xs ih =>
    obtain ⟨j, c⟩ := x
    simp only [Memory.wf, Bool.and_eq_true, bne_iff_ne, decide_eq_true_eq, ih, Above, List.mem_cons,
      forall_eq_or_imp]
    constructor
    · rintro ⟨⟨hb, hk⟩, hc, hj, hw⟩
      exact ⟨hb, ⟨hk, fun y hy => Nat.lt_trans hk (hj y hy)⟩, hc, hj, hw⟩
    · rintro ⟨hb, ⟨hk, _⟩, hc, hj, hw⟩
      exact ⟨⟨hb, hk⟩, hc, hj, hw⟩

/-- An entry after a write is an entry from before, or the one written. -/
theorem mem_writeCell {a : Nat} {b : Byte} {m : List Host.Cell} {y : Host.Cell} (h : y ∈ writeCell m a b) :
    y ∈ m ∨ y = (a, b) := by
  induction m with
  | nil =>
    unfold writeCell at h
    split at h
    · exact .inl h
    · exact .inr (by simpa using h)
  | cons x xs ih =>
    obtain ⟨j, c⟩ := x
    unfold writeCell at h
    split at h
    · split at h
      · exact .inl h
      · rcases List.mem_cons.1 h with h | h
        · exact .inr h
        · exact .inl h
    · split at h
      · split at h
        · exact .inl (List.mem_cons_of_mem _ h)
        · rcases List.mem_cons.1 h with h | h
          · exact .inr h
          · exact .inl (List.mem_cons_of_mem _ h)
      · rcases List.mem_cons.1 h with h | h
        · exact .inl (h ▸ List.mem_cons_self ..)
        · rcases ih h with h | h
          · exact .inl (List.mem_cons_of_mem _ h)
          · exact .inr h

theorem above_writeCell {a k : Nat} {b : Byte} {m : List Host.Cell} (h : Above k m) (hk : k < a) :
    Above k (writeCell m a b) := by
  intro y hy
  rcases mem_writeCell hy with hy | rfl
  · exact h y hy
  · exact hk

theorem wf_writeCell {m : List Host.Cell} (h : Memory.wf m = true) (a : Nat) (b : Byte) :
    Memory.wf (writeCell m a b) = true := by
  induction m with
  | nil => unfold writeCell; split <;> simp_all [Memory.wf]
  | cons x xs ih =>
    obtain ⟨j, c⟩ := x
    obtain ⟨hc, ha, hw⟩ := wf_cons.1 h
    have hr := ih hw
    unfold writeCell
    split
    · rename_i hlt
      split
      · exact h
      · rename_i hb
        refine wf_cons.2 ⟨hb, ?_, h⟩
        intro y hy
        rcases List.mem_cons.1 hy with rfl | hy
        · exact hlt
        · exact Nat.lt_trans hlt (ha y hy)
    · split
      · rename_i hge he
        subst he
        split
        · exact hw
        · rename_i hb
          exact wf_cons.2 ⟨hb, ha, hw⟩
      · rename_i hge hne
        exact wf_cons.2 ⟨hc, above_writeCell ha (by omega), hr⟩

theorem wf_writeMem {m : List Host.Cell} (h : Memory.wf m = true) (a : Nat) (bs : Bytes) :
    Memory.wf (writeMem m a bs) = true := by
  induction bs generalizing m a with
  | nil => exact h
  | cons b bs ih => exact ih (wf_writeCell h a b) (a + 1)

theorem wf_overlay {m : List Host.Cell} (h : Memory.wf m = true) (ws : List Host.Cell) :
    Memory.wf (overlay m ws) = true := by
  unfold overlay
  induction ws generalizing m with
  | nil => exact h
  | cons w ws ih => exact ih (wf_writeCell h w.1 w.2)

theorem wf_filter {m : List Host.Cell} (h : Memory.wf m = true) (p : Host.Cell → Bool) :
    Memory.wf (m.filter p) = true := by
  induction m with
  | nil => rfl
  | cons x xs ih =>
    obtain ⟨j, c⟩ := x
    obtain ⟨hc, ha, hw⟩ := wf_cons.1 h
    rw [List.filter_cons]
    split
    · exact wf_cons.2 ⟨hc, fun y hy => ha y (List.mem_filter.1 hy).1, ih hw⟩
    · exact ih hw

theorem wf_zeroArea {m : List Host.Cell} (h : Memory.wf m = true) (a : Nat × Nat) :
    Memory.wf (zeroArea m a) = true := wf_filter h _

theorem wf_zeroAreas {m : List Host.Cell} (h : Memory.wf m = true) (as : List (Nat × Nat)) :
    Memory.wf (as.foldl zeroArea m) = true := by
  induction as generalizing m with
  | nil => exact h
  | cons a as ih => exact ih (wf_zeroArea h a)

/-- A byte below every entry reads as unlisted. -/
theorem readCell_above {a : Nat} {m : List Host.Cell} (h : Above a m) : readCell m a = unlistedByte := by
  induction m with
  | nil => rfl
  | cons x xs ih =>
    obtain ⟨j, c⟩ := x
    have hj : a < j := h (j, c) (List.mem_cons_self ..)
    unfold readCell
    rw [if_neg (by omega)]
    exact ih fun y hy => h y (List.mem_cons_of_mem _ hy)

theorem readCell_writeCell_self {m : List Host.Cell} (h : Memory.wf m = true) (a : Nat) (b : Byte) :
    readCell (writeCell m a b) a = b := by
  induction m with
  | nil => unfold writeCell; split <;> simp_all [readCell]
  | cons x xs ih =>
    obtain ⟨j, c⟩ := x
    obtain ⟨hc, ha, hw⟩ := wf_cons.1 h
    unfold writeCell
    split
    · rename_i hlt
      split
      · rename_i hb
        rw [hb]
        refine readCell_above ?_
        intro y hy
        rcases List.mem_cons.1 hy with rfl | hy
        · exact hlt
        · exact Nat.lt_trans hlt (ha y hy)
      · simp [readCell]
    · split
      · rename_i hge he
        subst he
        split
        · rename_i hb
          rw [hb]
          exact readCell_above ha
        · simp [readCell]
      · rename_i hge hne
        unfold readCell
        rw [if_neg (fun e => hne e.symm)]
        exact ih hw

theorem readCell_writeCell_other {a c : Nat} (hac : c ≠ a) (m : List Host.Cell) (b : Byte) :
    readCell (writeCell m a b) c = readCell m c := by
  induction m with
  | nil => unfold writeCell; split <;> simp [readCell, Ne.symm hac]
  | cons x xs ih =>
    obtain ⟨j, d⟩ := x
    unfold writeCell
    split
    · split
      · rfl
      · rw [readCell, if_neg (Ne.symm hac)]
    · split
      · rename_i he
        subst he
        split
        · rw [readCell.eq_2, if_neg (Ne.symm hac)]
        · rw [readCell, if_neg (Ne.symm hac), readCell, if_neg (Ne.symm hac)]
      · rw [readCell, readCell, ih]

/-- A byte below the first byte written keeps its value. -/
theorem readCell_writeMem_below {c : Nat} (bs : Bytes) (m : List Host.Cell) (a : Nat) (h : c < a) :
    readCell (writeMem m a bs) c = readCell m c := by
  induction bs generalizing m a with
  | nil => rfl
  | cons b bs ih =>
    rw [writeMem, ih _ _ (by omega), readCell_writeCell_other (by omega)]

/-- A byte outside the bytes written keeps its value. -/
theorem readCell_writeMem_outside {c : Nat} (bs : Bytes) (m : List Host.Cell) (a : Nat)
    (h : c < a ∨ a + bs.length ≤ c) : readCell (writeMem m a bs) c = readCell m c := by
  induction bs generalizing m a with
  | nil => rfl
  | cons b bs ih =>
    rw [List.length_cons] at h
    rw [writeMem, ih _ _ (by omega), readCell_writeCell_other (by omega)]

/-- A byte written reads back. -/
theorem readCell_writeMem_inside {m : List Host.Cell} (h : Memory.wf m = true) (bs : Bytes) (a i : Nat)
    (hi : i < bs.length) : readCell (writeMem m a bs) (a + i) = bs[i] := by
  induction bs generalizing m a i with
  | nil => exact absurd hi (Nat.not_lt_zero _)
  | cons b bs ih =>
    cases i with
    | zero =>
      rw [writeMem, readCell_writeMem_below _ _ _ (by omega)]
      exact readCell_writeCell_self h a b
    | succ i =>
      have hi' : i < bs.length := by simpa using hi
      have := ih (wf_writeCell h a b) (a + 1) i hi'
      rw [writeMem, show a + (i + 1) = a + 1 + i by omega, this]
      rfl

end Sys2Proof.Machine
end

