-- ==== Sys2Proof/Laws/State.lean ====
section
/-! SUPPORT. The shared updates of the state: what each leaves, field by field, and what it sets. -/

namespace Sys2Proof.Machine

/-! ### Lists by key -/

@[simp] theorem lookupKey_insertKey_self {α : Type} (m : List (Nat × α)) (k : Nat) (v : α) :
    lookupKey (insertKey m k v) k = some v := by
  induction m with
  | nil => simp [insertKey, lookupKey]
  | cons e m ih =>
    obtain ⟨j, w⟩ := e
    unfold insertKey
    split
    · simp [lookupKey]
    · split
      · simp [lookupKey]
      · rename_i h
        simp [lookupKey, Ne.symm h, ih]

theorem lookupKey_insertKey_other {α : Type} (m : List (Nat × α)) {k j : Nat} (v : α) (h : j ≠ k) :
    lookupKey (insertKey m k v) j = lookupKey m j := by
  induction m with
  | nil => simp [insertKey, lookupKey, Ne.symm h]
  | cons e m ih =>
    obtain ⟨i, w⟩ := e
    unfold insertKey
    split
    · rw [lookupKey]
      simp [Ne.symm h]
    · split
      · rename_i e
        subst e
        simp [lookupKey, Ne.symm h]
      · simp only [lookupKey]
        split
        · rfl
        · exact ih

/-! ### Fields an update leaves -/

@[simp] theorem setRw_boundary (key v : Nat) (s : State) : (setRw key v s).boundary = s.boundary := rfl
@[simp] theorem setRw_ts (key v : Nat) (s : State) : (setRw key v s).ts = s.ts := rfl
@[simp] theorem setRw_sensing (key v : Nat) (s : State) : (setRw key v s).sensing = s.sensing := rfl
@[simp] theorem setRw_events (key v : Nat) (s : State) : (setRw key v s).events = s.events := rfl
@[simp] theorem setRw_dict_applied (key v : Nat) (s : State) : (setRw key v s).dict.applied = s.dict.applied := rfl
@[simp] theorem setRw_dict_staged (key v : Nat) (s : State) : (setRw key v s).dict.staged = s.dict.staged := rfl
@[simp] theorem setRw_dict_counters (key v : Nat) (s : State) : (setRw key v s).dict.counters = s.dict.counters := rfl
@[simp] theorem setRw_dict_held (key v : Nat) (s : State) : (setRw key v s).dict.held = s.dict.held := rfl
@[simp] theorem setRw_dict_commitState (key v : Nat) (s : State) : (setRw key v s).dict.commitState = s.dict.commitState :=
    rfl
@[simp] theorem setRw_dict_commitTime (key v : Nat) (s : State) : (setRw key v s).dict.commitTime = s.dict.commitTime :=
    rfl
@[simp] theorem setRw_dict_storeState (key v : Nat) (s : State) : (setRw key v s).dict.storeState = s.dict.storeState :=
    rfl
@[simp] theorem setRw_dict_settingsSource (key v : Nat) (s : State) : (setRw key v s).dict.settingsSource = s.dict.settingsSource :=
    rfl
@[simp] theorem setRw_dict_storing (key v : Nat) (s : State) : (setRw key v s).dict.storing = s.dict.storing := rfl
@[simp] theorem setRw_dict_transfers (key v : Nat) (s : State) : (setRw key v s).dict.transfers = s.dict.transfers :=
    rfl
@[simp] theorem setRw_dict_endpoint (key v : Nat) (s : State) : (setRw key v s).dict.endpoint = s.dict.endpoint := rfl
@[simp] theorem setRw_mirror (key v : Nat) (s : State) : (setRw key v s).mirror = s.mirror := rfl
@[simp] theorem setRw_nvm (key v : Nat) (s : State) : (setRw key v s).nvm = s.nvm := rfl
@[simp] theorem setRw_life (key v : Nat) (s : State) : (setRw key v s).life = s.life := rfl
@[simp] theorem setRw_heads (key v : Nat) (s : State) : (setRw key v s).heads = s.heads := rfl
@[simp] theorem setRw_lanes (key v : Nat) (s : State) : (setRw key v s).lanes = s.lanes := rfl
@[simp] theorem setRw_fseq (key v : Nat) (s : State) : (setRw key v s).fseq = s.fseq := rfl
@[simp] theorem setRw_contexts (key v : Nat) (s : State) : (setRw key v s).contexts = s.contexts := rfl
@[simp] theorem setRw_steps (key v : Nat) (s : State) : (setRw key v s).steps = s.steps := rfl
@[simp] theorem setRw_mortar (key v : Nat) (s : State) : (setRw key v s).mortar = s.mortar := rfl
@[simp] theorem setRw_snapshot (key v : Nat) (s : State) : (setRw key v s).snapshot = s.snapshot := rfl
@[simp] theorem setRw_hold (key v : Nat) (s : State) : (setRw key v s).hold = s.hold := rfl
@[simp] theorem setRw_restore (key v : Nat) (s : State) : (setRw key v s).restore = s.restore := rfl
@[simp] theorem setRw_upkeep (key v : Nat) (s : State) : (setRw key v s).upkeep = s.upkeep := rfl
@[simp] theorem setRw_mem (key v : Nat) (s : State) : (setRw key v s).mem = s.mem := rfl
@[simp] theorem setRw_out (key v : Nat) (s : State) : (setRw key v s).out = s.out := rfl
@[simp] theorem setRw_pending (key v : Nat) (s : State) : (setRw key v s).pending = s.pending := rfl
@[simp] theorem setRw_slow (key v : Nat) (s : State) : (setRw key v s).slow = s.slow := rfl
@[simp] theorem setRw_fresh (key v : Nat) (s : State) : (setRw key v s).fresh = s.fresh := rfl

@[simp] theorem setStaged_boundary (key v : Nat) (s : State) : (setStaged key v s).boundary = s.boundary := rfl
@[simp] theorem setStaged_ts (key v : Nat) (s : State) : (setStaged key v s).ts = s.ts := rfl
@[simp] theorem setStaged_sensing (key v : Nat) (s : State) : (setStaged key v s).sensing = s.sensing := rfl
@[simp] theorem setStaged_events (key v : Nat) (s : State) : (setStaged key v s).events = s.events := rfl
@[simp] theorem setStaged_dict_rw (key v : Nat) (s : State) : (setStaged key v s).dict.rw = s.dict.rw := rfl
@[simp] theorem setStaged_dict_applied (key v : Nat) (s : State) : (setStaged key v s).dict.applied = s.dict.applied :=
    rfl
@[simp] theorem setStaged_dict_counters (key v : Nat) (s : State) : (setStaged key v s).dict.counters = s.dict.counters :=
    rfl
@[simp] theorem setStaged_dict_held (key v : Nat) (s : State) : (setStaged key v s).dict.held = s.dict.held := rfl
@[simp] theorem setStaged_dict_commitState (key v : Nat) (s : State) : (setStaged key v s).dict.commitState = s.dict.commitState :=
    rfl
@[simp] theorem setStaged_dict_commitTime (key v : Nat) (s : State) : (setStaged key v s).dict.commitTime = s.dict.commitTime :=
    rfl
@[simp] theorem setStaged_dict_storeState (key v : Nat) (s : State) : (setStaged key v s).dict.storeState = s.dict.storeState :=
    rfl
@[simp] theorem setStaged_dict_settingsSource (key v : Nat) (s : State) : (setStaged key v s).dict.settingsSource = s.dict.settingsSource :=
    rfl
@[simp] theorem setStaged_dict_storing (key v : Nat) (s : State) : (setStaged key v s).dict.storing = s.dict.storing :=
    rfl
@[simp] theorem setStaged_dict_transfers (key v : Nat) (s : State) : (setStaged key v s).dict.transfers = s.dict.transfers :=
    rfl
@[simp] theorem setStaged_dict_endpoint (key v : Nat) (s : State) : (setStaged key v s).dict.endpoint = s.dict.endpoint :=
    rfl
@[simp] theorem setStaged_mirror (key v : Nat) (s : State) : (setStaged key v s).mirror = s.mirror := rfl
@[simp] theorem setStaged_nvm (key v : Nat) (s : State) : (setStaged key v s).nvm = s.nvm := rfl
@[simp] theorem setStaged_life (key v : Nat) (s : State) : (setStaged key v s).life = s.life := rfl
@[simp] theorem setStaged_heads (key v : Nat) (s : State) : (setStaged key v s).heads = s.heads := rfl
@[simp] theorem setStaged_lanes (key v : Nat) (s : State) : (setStaged key v s).lanes = s.lanes := rfl
@[simp] theorem setStaged_fseq (key v : Nat) (s : State) : (setStaged key v s).fseq = s.fseq := rfl
@[simp] theorem setStaged_contexts (key v : Nat) (s : State) : (setStaged key v s).contexts = s.contexts := rfl
@[simp] theorem setStaged_steps (key v : Nat) (s : State) : (setStaged key v s).steps = s.steps := rfl
@[simp] theorem setStaged_mortar (key v : Nat) (s : State) : (setStaged key v s).mortar = s.mortar := rfl
@[simp] theorem setStaged_snapshot (key v : Nat) (s : State) : (setStaged key v s).snapshot = s.snapshot := rfl
@[simp] theorem setStaged_hold (key v : Nat) (s : State) : (setStaged key v s).hold = s.hold := rfl
@[simp] theorem setStaged_restore (key v : Nat) (s : State) : (setStaged key v s).restore = s.restore := rfl
@[simp] theorem setStaged_upkeep (key v : Nat) (s : State) : (setStaged key v s).upkeep = s.upkeep := rfl
@[simp] theorem setStaged_mem (key v : Nat) (s : State) : (setStaged key v s).mem = s.mem := rfl
@[simp] theorem setStaged_out (key v : Nat) (s : State) : (setStaged key v s).out = s.out := rfl
@[simp] theorem setStaged_pending (key v : Nat) (s : State) : (setStaged key v s).pending = s.pending := rfl
@[simp] theorem setStaged_slow (key v : Nat) (s : State) : (setStaged key v s).slow = s.slow := rfl
@[simp] theorem setStaged_fresh (key v : Nat) (s : State) : (setStaged key v s).fresh = s.fresh := rfl

@[simp] theorem setCounter_boundary (key v : Nat) (s : State) : (setCounter key v s).boundary = s.boundary := rfl
@[simp] theorem setCounter_ts (key v : Nat) (s : State) : (setCounter key v s).ts = s.ts := rfl
@[simp] theorem setCounter_sensing (key v : Nat) (s : State) : (setCounter key v s).sensing = s.sensing := rfl
@[simp] theorem setCounter_events (key v : Nat) (s : State) : (setCounter key v s).events = s.events := rfl
@[simp] theorem setCounter_dict_rw (key v : Nat) (s : State) : (setCounter key v s).dict.rw = s.dict.rw := rfl
@[simp] theorem setCounter_dict_applied (key v : Nat) (s : State) : (setCounter key v s).dict.applied = s.dict.applied :=
    rfl
@[simp] theorem setCounter_dict_staged (key v : Nat) (s : State) : (setCounter key v s).dict.staged = s.dict.staged :=
    rfl
@[simp] theorem setCounter_dict_held (key v : Nat) (s : State) : (setCounter key v s).dict.held = s.dict.held := rfl
@[simp] theorem setCounter_dict_commitState (key v : Nat) (s : State) : (setCounter key v s).dict.commitState = s.dict.commitState :=
    rfl
@[simp] theorem setCounter_dict_commitTime (key v : Nat) (s : State) : (setCounter key v s).dict.commitTime = s.dict.commitTime :=
    rfl
@[simp] theorem setCounter_dict_storeState (key v : Nat) (s : State) : (setCounter key v s).dict.storeState = s.dict.storeState :=
    rfl
@[simp] theorem setCounter_dict_settingsSource (key v : Nat) (s : State) : (setCounter key v s).dict.settingsSource = s.dict.settingsSource :=
    rfl
@[simp] theorem setCounter_dict_storing (key v : Nat) (s : State) : (setCounter key v s).dict.storing = s.dict.storing :=
    rfl
@[simp] theorem setCounter_dict_transfers (key v : Nat) (s : State) : (setCounter key v s).dict.transfers = s.dict.transfers :=
    rfl
@[simp] theorem setCounter_dict_endpoint (key v : Nat) (s : State) : (setCounter key v s).dict.endpoint = s.dict.endpoint :=
    rfl
@[simp] theorem setCounter_mirror (key v : Nat) (s : State) : (setCounter key v s).mirror = s.mirror := rfl
@[simp] theorem setCounter_nvm (key v : Nat) (s : State) : (setCounter key v s).nvm = s.nvm := rfl
@[simp] theorem setCounter_life (key v : Nat) (s : State) : (setCounter key v s).life = s.life := rfl
@[simp] theorem setCounter_heads (key v : Nat) (s : State) : (setCounter key v s).heads = s.heads := rfl
@[simp] theorem setCounter_lanes (key v : Nat) (s : State) : (setCounter key v s).lanes = s.lanes := rfl
@[simp] theorem setCounter_fseq (key v : Nat) (s : State) : (setCounter key v s).fseq = s.fseq := rfl
@[simp] theorem setCounter_contexts (key v : Nat) (s : State) : (setCounter key v s).contexts = s.contexts := rfl
@[simp] theorem setCounter_steps (key v : Nat) (s : State) : (setCounter key v s).steps = s.steps := rfl
@[simp] theorem setCounter_mortar (key v : Nat) (s : State) : (setCounter key v s).mortar = s.mortar := rfl
@[simp] theorem setCounter_snapshot (key v : Nat) (s : State) : (setCounter key v s).snapshot = s.snapshot := rfl
@[simp] theorem setCounter_hold (key v : Nat) (s : State) : (setCounter key v s).hold = s.hold := rfl
@[simp] theorem setCounter_restore (key v : Nat) (s : State) : (setCounter key v s).restore = s.restore := rfl
@[simp] theorem setCounter_upkeep (key v : Nat) (s : State) : (setCounter key v s).upkeep = s.upkeep := rfl
@[simp] theorem setCounter_mem (key v : Nat) (s : State) : (setCounter key v s).mem = s.mem := rfl
@[simp] theorem setCounter_out (key v : Nat) (s : State) : (setCounter key v s).out = s.out := rfl
@[simp] theorem setCounter_pending (key v : Nat) (s : State) : (setCounter key v s).pending = s.pending := rfl
@[simp] theorem setCounter_slow (key v : Nat) (s : State) : (setCounter key v s).slow = s.slow := rfl
@[simp] theorem setCounter_fresh (key v : Nat) (s : State) : (setCounter key v s).fresh = s.fresh := rfl

@[simp] theorem count_boundary (key k : Nat) (s : State) : (count key k s).boundary = s.boundary := rfl
@[simp] theorem count_ts (key k : Nat) (s : State) : (count key k s).ts = s.ts := rfl
@[simp] theorem count_sensing (key k : Nat) (s : State) : (count key k s).sensing = s.sensing := rfl
@[simp] theorem count_events (key k : Nat) (s : State) : (count key k s).events = s.events := rfl
@[simp] theorem count_dict_rw (key k : Nat) (s : State) : (count key k s).dict.rw = s.dict.rw := rfl
@[simp] theorem count_dict_applied (key k : Nat) (s : State) : (count key k s).dict.applied = s.dict.applied := rfl
@[simp] theorem count_dict_staged (key k : Nat) (s : State) : (count key k s).dict.staged = s.dict.staged := rfl
@[simp] theorem count_dict_held (key k : Nat) (s : State) : (count key k s).dict.held = s.dict.held := rfl
@[simp] theorem count_dict_commitState (key k : Nat) (s : State) : (count key k s).dict.commitState = s.dict.commitState :=
    rfl
@[simp] theorem count_dict_commitTime (key k : Nat) (s : State) : (count key k s).dict.commitTime = s.dict.commitTime :=
    rfl
@[simp] theorem count_dict_storeState (key k : Nat) (s : State) : (count key k s).dict.storeState = s.dict.storeState :=
    rfl
@[simp] theorem count_dict_settingsSource (key k : Nat) (s : State) : (count key k s).dict.settingsSource = s.dict.settingsSource :=
    rfl
@[simp] theorem count_dict_storing (key k : Nat) (s : State) : (count key k s).dict.storing = s.dict.storing := rfl
@[simp] theorem count_dict_transfers (key k : Nat) (s : State) : (count key k s).dict.transfers = s.dict.transfers :=
    rfl
@[simp] theorem count_dict_endpoint (key k : Nat) (s : State) : (count key k s).dict.endpoint = s.dict.endpoint := rfl
@[simp] theorem count_mirror (key k : Nat) (s : State) : (count key k s).mirror = s.mirror := rfl
@[simp] theorem count_nvm (key k : Nat) (s : State) : (count key k s).nvm = s.nvm := rfl
@[simp] theorem count_life (key k : Nat) (s : State) : (count key k s).life = s.life := rfl
@[simp] theorem count_heads (key k : Nat) (s : State) : (count key k s).heads = s.heads := rfl
@[simp] theorem count_lanes (key k : Nat) (s : State) : (count key k s).lanes = s.lanes := rfl
@[simp] theorem count_fseq (key k : Nat) (s : State) : (count key k s).fseq = s.fseq := rfl
@[simp] theorem count_contexts (key k : Nat) (s : State) : (count key k s).contexts = s.contexts := rfl
@[simp] theorem count_steps (key k : Nat) (s : State) : (count key k s).steps = s.steps := rfl
@[simp] theorem count_mortar (key k : Nat) (s : State) : (count key k s).mortar = s.mortar := rfl
@[simp] theorem count_snapshot (key k : Nat) (s : State) : (count key k s).snapshot = s.snapshot := rfl
@[simp] theorem count_hold (key k : Nat) (s : State) : (count key k s).hold = s.hold := rfl
@[simp] theorem count_restore (key k : Nat) (s : State) : (count key k s).restore = s.restore := rfl
@[simp] theorem count_upkeep (key k : Nat) (s : State) : (count key k s).upkeep = s.upkeep := rfl
@[simp] theorem count_mem (key k : Nat) (s : State) : (count key k s).mem = s.mem := rfl
@[simp] theorem count_out (key k : Nat) (s : State) : (count key k s).out = s.out := rfl
@[simp] theorem count_pending (key k : Nat) (s : State) : (count key k s).pending = s.pending := rfl
@[simp] theorem count_slow (key k : Nat) (s : State) : (count key k s).slow = s.slow := rfl
@[simp] theorem count_fresh (key k : Nat) (s : State) : (count key k s).fresh = s.fresh := rfl

@[simp] theorem reject_boundary (s : State) : (reject s).boundary = s.boundary := rfl
@[simp] theorem reject_ts (s : State) : (reject s).ts = s.ts := rfl
@[simp] theorem reject_sensing (s : State) : (reject s).sensing = s.sensing := rfl
@[simp] theorem reject_events (s : State) : (reject s).events = s.events := rfl
@[simp] theorem reject_dict_rw (s : State) : (reject s).dict.rw = s.dict.rw := rfl
@[simp] theorem reject_dict_applied (s : State) : (reject s).dict.applied = s.dict.applied := rfl
@[simp] theorem reject_dict_staged (s : State) : (reject s).dict.staged = s.dict.staged := rfl
@[simp] theorem reject_dict_held (s : State) : (reject s).dict.held = s.dict.held := rfl
@[simp] theorem reject_dict_commitState (s : State) : (reject s).dict.commitState = s.dict.commitState := rfl
@[simp] theorem reject_dict_commitTime (s : State) : (reject s).dict.commitTime = s.dict.commitTime := rfl
@[simp] theorem reject_dict_storeState (s : State) : (reject s).dict.storeState = s.dict.storeState := rfl
@[simp] theorem reject_dict_settingsSource (s : State) : (reject s).dict.settingsSource = s.dict.settingsSource := rfl
@[simp] theorem reject_dict_storing (s : State) : (reject s).dict.storing = s.dict.storing := rfl
@[simp] theorem reject_dict_transfers (s : State) : (reject s).dict.transfers = s.dict.transfers := rfl
@[simp] theorem reject_dict_endpoint (s : State) : (reject s).dict.endpoint = s.dict.endpoint := rfl
@[simp] theorem reject_mirror (s : State) : (reject s).mirror = s.mirror := rfl
@[simp] theorem reject_nvm (s : State) : (reject s).nvm = s.nvm := rfl
@[simp] theorem reject_life (s : State) : (reject s).life = s.life := rfl
@[simp] theorem reject_heads (s : State) : (reject s).heads = s.heads := rfl
@[simp] theorem reject_lanes (s : State) : (reject s).lanes = s.lanes := rfl
@[simp] theorem reject_fseq (s : State) : (reject s).fseq = s.fseq := rfl
@[simp] theorem reject_contexts (s : State) : (reject s).contexts = s.contexts := rfl
@[simp] theorem reject_steps (s : State) : (reject s).steps = s.steps := rfl
@[simp] theorem reject_mortar (s : State) : (reject s).mortar = s.mortar := rfl
@[simp] theorem reject_snapshot (s : State) : (reject s).snapshot = s.snapshot := rfl
@[simp] theorem reject_hold (s : State) : (reject s).hold = s.hold := rfl
@[simp] theorem reject_restore (s : State) : (reject s).restore = s.restore := rfl
@[simp] theorem reject_upkeep (s : State) : (reject s).upkeep = s.upkeep := rfl
@[simp] theorem reject_mem (s : State) : (reject s).mem = s.mem := rfl
@[simp] theorem reject_out (s : State) : (reject s).out = s.out := rfl
@[simp] theorem reject_pending (s : State) : (reject s).pending = s.pending := rfl
@[simp] theorem reject_slow (s : State) : (reject s).slow = s.slow := rfl
@[simp] theorem reject_fresh (s : State) : (reject s).fresh = s.fresh := rfl

@[simp] theorem sendMesh_boundary (eid : Byte) (msg : Bytes) (s : State) : (sendMesh eid msg s).boundary = s.boundary :=
    rfl
@[simp] theorem sendMesh_ts (eid : Byte) (msg : Bytes) (s : State) : (sendMesh eid msg s).ts = s.ts := rfl
@[simp] theorem sendMesh_sensing (eid : Byte) (msg : Bytes) (s : State) : (sendMesh eid msg s).sensing = s.sensing :=
    rfl
@[simp] theorem sendMesh_events (eid : Byte) (msg : Bytes) (s : State) : (sendMesh eid msg s).events = s.events := rfl
@[simp] theorem sendMesh_dict (eid : Byte) (msg : Bytes) (s : State) : (sendMesh eid msg s).dict = s.dict := rfl
@[simp] theorem sendMesh_mirror (eid : Byte) (msg : Bytes) (s : State) : (sendMesh eid msg s).mirror = s.mirror := rfl
@[simp] theorem sendMesh_nvm (eid : Byte) (msg : Bytes) (s : State) : (sendMesh eid msg s).nvm = s.nvm := rfl
@[simp] theorem sendMesh_life (eid : Byte) (msg : Bytes) (s : State) : (sendMesh eid msg s).life = s.life := rfl
@[simp] theorem sendMesh_heads (eid : Byte) (msg : Bytes) (s : State) : (sendMesh eid msg s).heads = s.heads := rfl
@[simp] theorem sendMesh_lanes (eid : Byte) (msg : Bytes) (s : State) : (sendMesh eid msg s).lanes = s.lanes := rfl
@[simp] theorem sendMesh_fseq (eid : Byte) (msg : Bytes) (s : State) : (sendMesh eid msg s).fseq = s.fseq := rfl
@[simp] theorem sendMesh_contexts (eid : Byte) (msg : Bytes) (s : State) : (sendMesh eid msg s).contexts = s.contexts :=
    rfl
@[simp] theorem sendMesh_steps (eid : Byte) (msg : Bytes) (s : State) : (sendMesh eid msg s).steps = s.steps := rfl
@[simp] theorem sendMesh_mortar (eid : Byte) (msg : Bytes) (s : State) : (sendMesh eid msg s).mortar = s.mortar := rfl
@[simp] theorem sendMesh_snapshot (eid : Byte) (msg : Bytes) (s : State) : (sendMesh eid msg s).snapshot = s.snapshot :=
    rfl
@[simp] theorem sendMesh_hold (eid : Byte) (msg : Bytes) (s : State) : (sendMesh eid msg s).hold = s.hold := rfl
@[simp] theorem sendMesh_restore (eid : Byte) (msg : Bytes) (s : State) : (sendMesh eid msg s).restore = s.restore :=
    rfl
@[simp] theorem sendMesh_upkeep (eid : Byte) (msg : Bytes) (s : State) : (sendMesh eid msg s).upkeep = s.upkeep := rfl
@[simp] theorem sendMesh_mem (eid : Byte) (msg : Bytes) (s : State) : (sendMesh eid msg s).mem = s.mem := rfl
@[simp] theorem sendMesh_pending (eid : Byte) (msg : Bytes) (s : State) : (sendMesh eid msg s).pending = s.pending :=
    rfl
@[simp] theorem sendMesh_slow (eid : Byte) (msg : Bytes) (s : State) : (sendMesh eid msg s).slow = s.slow := rfl
@[simp] theorem sendMesh_fresh (eid : Byte) (msg : Bytes) (s : State) : (sendMesh eid msg s).fresh = s.fresh := rfl

@[simp] theorem mirrorData_boundary (w : Nat) (s : State) : (mirrorData w s).boundary = s.boundary := rfl
@[simp] theorem mirrorData_ts (w : Nat) (s : State) : (mirrorData w s).ts = s.ts := rfl
@[simp] theorem mirrorData_sensing (w : Nat) (s : State) : (mirrorData w s).sensing = s.sensing := rfl
@[simp] theorem mirrorData_events (w : Nat) (s : State) : (mirrorData w s).events = s.events := rfl
@[simp] theorem mirrorData_dict (w : Nat) (s : State) : (mirrorData w s).dict = s.dict := rfl
@[simp] theorem mirrorData_mirror (w : Nat) (s : State) : (mirrorData w s).mirror = s.mirror := rfl
@[simp] theorem mirrorData_nvm (w : Nat) (s : State) : (mirrorData w s).nvm = s.nvm := rfl
@[simp] theorem mirrorData_life (w : Nat) (s : State) : (mirrorData w s).life = s.life := rfl
@[simp] theorem mirrorData_heads (w : Nat) (s : State) : (mirrorData w s).heads = s.heads := rfl
@[simp] theorem mirrorData_lanes (w : Nat) (s : State) : (mirrorData w s).lanes = s.lanes := rfl
@[simp] theorem mirrorData_fseq (w : Nat) (s : State) : (mirrorData w s).fseq = s.fseq := rfl
@[simp] theorem mirrorData_contexts (w : Nat) (s : State) : (mirrorData w s).contexts = s.contexts := rfl
@[simp] theorem mirrorData_steps (w : Nat) (s : State) : (mirrorData w s).steps = s.steps := rfl
@[simp] theorem mirrorData_mortar (w : Nat) (s : State) : (mirrorData w s).mortar = s.mortar := rfl
@[simp] theorem mirrorData_snapshot (w : Nat) (s : State) : (mirrorData w s).snapshot = s.snapshot := rfl
@[simp] theorem mirrorData_hold (w : Nat) (s : State) : (mirrorData w s).hold = s.hold := rfl
@[simp] theorem mirrorData_restore (w : Nat) (s : State) : (mirrorData w s).restore = s.restore := rfl
@[simp] theorem mirrorData_upkeep (w : Nat) (s : State) : (mirrorData w s).upkeep = s.upkeep := rfl
@[simp] theorem mirrorData_mem (w : Nat) (s : State) : (mirrorData w s).mem = s.mem := rfl
@[simp] theorem mirrorData_pending (w : Nat) (s : State) : (mirrorData w s).pending = s.pending := rfl
@[simp] theorem mirrorData_slow (w : Nat) (s : State) : (mirrorData w s).slow = s.slow := rfl
@[simp] theorem mirrorData_fresh (w : Nat) (s : State) : (mirrorData w s).fresh = s.fresh := rfl

@[simp] theorem writeBytes_boundary (a : Nat) (bs : Bytes) (s : State) : (writeBytes a bs s).boundary = s.boundary :=
    rfl
@[simp] theorem writeBytes_ts (a : Nat) (bs : Bytes) (s : State) : (writeBytes a bs s).ts = s.ts := rfl
@[simp] theorem writeBytes_sensing (a : Nat) (bs : Bytes) (s : State) : (writeBytes a bs s).sensing = s.sensing := rfl
@[simp] theorem writeBytes_events (a : Nat) (bs : Bytes) (s : State) : (writeBytes a bs s).events = s.events := rfl
@[simp] theorem writeBytes_dict (a : Nat) (bs : Bytes) (s : State) : (writeBytes a bs s).dict = s.dict := rfl
@[simp] theorem writeBytes_mirror (a : Nat) (bs : Bytes) (s : State) : (writeBytes a bs s).mirror = s.mirror := rfl
@[simp] theorem writeBytes_nvm (a : Nat) (bs : Bytes) (s : State) : (writeBytes a bs s).nvm = s.nvm := rfl
@[simp] theorem writeBytes_life (a : Nat) (bs : Bytes) (s : State) : (writeBytes a bs s).life = s.life := rfl
@[simp] theorem writeBytes_heads (a : Nat) (bs : Bytes) (s : State) : (writeBytes a bs s).heads = s.heads := rfl
@[simp] theorem writeBytes_lanes (a : Nat) (bs : Bytes) (s : State) : (writeBytes a bs s).lanes = s.lanes := rfl
@[simp] theorem writeBytes_fseq (a : Nat) (bs : Bytes) (s : State) : (writeBytes a bs s).fseq = s.fseq := rfl
@[simp] theorem writeBytes_contexts (a : Nat) (bs : Bytes) (s : State) : (writeBytes a bs s).contexts = s.contexts :=
    rfl
@[simp] theorem writeBytes_steps (a : Nat) (bs : Bytes) (s : State) : (writeBytes a bs s).steps = s.steps := rfl
@[simp] theorem writeBytes_mortar (a : Nat) (bs : Bytes) (s : State) : (writeBytes a bs s).mortar = s.mortar := rfl
@[simp] theorem writeBytes_snapshot (a : Nat) (bs : Bytes) (s : State) : (writeBytes a bs s).snapshot = s.snapshot :=
    rfl
@[simp] theorem writeBytes_hold (a : Nat) (bs : Bytes) (s : State) : (writeBytes a bs s).hold = s.hold := rfl
@[simp] theorem writeBytes_restore (a : Nat) (bs : Bytes) (s : State) : (writeBytes a bs s).restore = s.restore := rfl
@[simp] theorem writeBytes_upkeep (a : Nat) (bs : Bytes) (s : State) : (writeBytes a bs s).upkeep = s.upkeep := rfl
@[simp] theorem writeBytes_out (a : Nat) (bs : Bytes) (s : State) : (writeBytes a bs s).out = s.out := rfl
@[simp] theorem writeBytes_pending (a : Nat) (bs : Bytes) (s : State) : (writeBytes a bs s).pending = s.pending := rfl
@[simp] theorem writeBytes_slow (a : Nat) (bs : Bytes) (s : State) : (writeBytes a bs s).slow = s.slow := rfl
@[simp] theorem writeBytes_fresh (a : Nat) (bs : Bytes) (s : State) : (writeBytes a bs s).fresh = s.fresh := rfl

@[simp] theorem hostWrites_boundary (ws : List Host.Cell) (s : State) : (hostWrites ws s).boundary = s.boundary := rfl
@[simp] theorem hostWrites_ts (ws : List Host.Cell) (s : State) : (hostWrites ws s).ts = s.ts := rfl
@[simp] theorem hostWrites_sensing (ws : List Host.Cell) (s : State) : (hostWrites ws s).sensing = s.sensing := rfl
@[simp] theorem hostWrites_events (ws : List Host.Cell) (s : State) : (hostWrites ws s).events = s.events := rfl
@[simp] theorem hostWrites_dict (ws : List Host.Cell) (s : State) : (hostWrites ws s).dict = s.dict := rfl
@[simp] theorem hostWrites_mirror (ws : List Host.Cell) (s : State) : (hostWrites ws s).mirror = s.mirror := rfl
@[simp] theorem hostWrites_nvm (ws : List Host.Cell) (s : State) : (hostWrites ws s).nvm = s.nvm := rfl
@[simp] theorem hostWrites_life (ws : List Host.Cell) (s : State) : (hostWrites ws s).life = s.life := rfl
@[simp] theorem hostWrites_heads (ws : List Host.Cell) (s : State) : (hostWrites ws s).heads = s.heads := rfl
@[simp] theorem hostWrites_lanes (ws : List Host.Cell) (s : State) : (hostWrites ws s).lanes = s.lanes := rfl
@[simp] theorem hostWrites_fseq (ws : List Host.Cell) (s : State) : (hostWrites ws s).fseq = s.fseq := rfl
@[simp] theorem hostWrites_contexts (ws : List Host.Cell) (s : State) : (hostWrites ws s).contexts = s.contexts := rfl
@[simp] theorem hostWrites_steps (ws : List Host.Cell) (s : State) : (hostWrites ws s).steps = s.steps := rfl
@[simp] theorem hostWrites_mortar (ws : List Host.Cell) (s : State) : (hostWrites ws s).mortar = s.mortar := rfl
@[simp] theorem hostWrites_snapshot (ws : List Host.Cell) (s : State) : (hostWrites ws s).snapshot = s.snapshot := rfl
@[simp] theorem hostWrites_hold (ws : List Host.Cell) (s : State) : (hostWrites ws s).hold = s.hold := rfl
@[simp] theorem hostWrites_restore (ws : List Host.Cell) (s : State) : (hostWrites ws s).restore = s.restore := rfl
@[simp] theorem hostWrites_upkeep (ws : List Host.Cell) (s : State) : (hostWrites ws s).upkeep = s.upkeep := rfl
@[simp] theorem hostWrites_out (ws : List Host.Cell) (s : State) : (hostWrites ws s).out = s.out := rfl
@[simp] theorem hostWrites_pending (ws : List Host.Cell) (s : State) : (hostWrites ws s).pending = s.pending := rfl
@[simp] theorem hostWrites_slow (ws : List Host.Cell) (s : State) : (hostWrites ws s).slow = s.slow := rfl
@[simp] theorem hostWrites_fresh (ws : List Host.Cell) (s : State) : (hostWrites ws s).fresh = s.fresh := rfl

@[simp] theorem setHead_boundary (i : Nat) (h : HeadSlot) (s : State) : (setHead i h s).boundary = s.boundary := rfl
@[simp] theorem setHead_ts (i : Nat) (h : HeadSlot) (s : State) : (setHead i h s).ts = s.ts := rfl
@[simp] theorem setHead_sensing (i : Nat) (h : HeadSlot) (s : State) : (setHead i h s).sensing = s.sensing := rfl
@[simp] theorem setHead_events (i : Nat) (h : HeadSlot) (s : State) : (setHead i h s).events = s.events := rfl
@[simp] theorem setHead_dict (i : Nat) (h : HeadSlot) (s : State) : (setHead i h s).dict = s.dict := rfl
@[simp] theorem setHead_mirror (i : Nat) (h : HeadSlot) (s : State) : (setHead i h s).mirror = s.mirror := rfl
@[simp] theorem setHead_nvm (i : Nat) (h : HeadSlot) (s : State) : (setHead i h s).nvm = s.nvm := rfl
@[simp] theorem setHead_life (i : Nat) (h : HeadSlot) (s : State) : (setHead i h s).life = s.life := rfl
@[simp] theorem setHead_lanes (i : Nat) (h : HeadSlot) (s : State) : (setHead i h s).lanes = s.lanes := rfl
@[simp] theorem setHead_fseq (i : Nat) (h : HeadSlot) (s : State) : (setHead i h s).fseq = s.fseq := rfl
@[simp] theorem setHead_contexts (i : Nat) (h : HeadSlot) (s : State) : (setHead i h s).contexts = s.contexts := rfl
@[simp] theorem setHead_steps (i : Nat) (h : HeadSlot) (s : State) : (setHead i h s).steps = s.steps := rfl
@[simp] theorem setHead_mortar (i : Nat) (h : HeadSlot) (s : State) : (setHead i h s).mortar = s.mortar := rfl
@[simp] theorem setHead_snapshot (i : Nat) (h : HeadSlot) (s : State) : (setHead i h s).snapshot = s.snapshot := rfl
@[simp] theorem setHead_hold (i : Nat) (h : HeadSlot) (s : State) : (setHead i h s).hold = s.hold := rfl
@[simp] theorem setHead_restore (i : Nat) (h : HeadSlot) (s : State) : (setHead i h s).restore = s.restore := rfl
@[simp] theorem setHead_upkeep (i : Nat) (h : HeadSlot) (s : State) : (setHead i h s).upkeep = s.upkeep := rfl
@[simp] theorem setHead_mem (i : Nat) (h : HeadSlot) (s : State) : (setHead i h s).mem = s.mem := rfl
@[simp] theorem setHead_out (i : Nat) (h : HeadSlot) (s : State) : (setHead i h s).out = s.out := rfl
@[simp] theorem setHead_pending (i : Nat) (h : HeadSlot) (s : State) : (setHead i h s).pending = s.pending := rfl
@[simp] theorem setHead_slow (i : Nat) (h : HeadSlot) (s : State) : (setHead i h s).slow = s.slow := rfl
@[simp] theorem setHead_fresh (i : Nat) (h : HeadSlot) (s : State) : (setHead i h s).fresh = s.fresh := rfl

@[simp] theorem setPeer_boundary (p : Nat) (x : Peer) (s : State) : (setPeer p x s).boundary = s.boundary := rfl
@[simp] theorem setPeer_ts (p : Nat) (x : Peer) (s : State) : (setPeer p x s).ts = s.ts := rfl
@[simp] theorem setPeer_sensing (p : Nat) (x : Peer) (s : State) : (setPeer p x s).sensing = s.sensing := rfl
@[simp] theorem setPeer_events (p : Nat) (x : Peer) (s : State) : (setPeer p x s).events = s.events := rfl
@[simp] theorem setPeer_dict (p : Nat) (x : Peer) (s : State) : (setPeer p x s).dict = s.dict := rfl
@[simp] theorem setPeer_mirror (p : Nat) (x : Peer) (s : State) : (setPeer p x s).mirror = s.mirror := rfl
@[simp] theorem setPeer_nvm (p : Nat) (x : Peer) (s : State) : (setPeer p x s).nvm = s.nvm := rfl
@[simp] theorem setPeer_life (p : Nat) (x : Peer) (s : State) : (setPeer p x s).life = s.life := rfl
@[simp] theorem setPeer_heads (p : Nat) (x : Peer) (s : State) : (setPeer p x s).heads = s.heads := rfl
@[simp] theorem setPeer_lanes (p : Nat) (x : Peer) (s : State) : (setPeer p x s).lanes = s.lanes := rfl
@[simp] theorem setPeer_fseq (p : Nat) (x : Peer) (s : State) : (setPeer p x s).fseq = s.fseq := rfl
@[simp] theorem setPeer_contexts (p : Nat) (x : Peer) (s : State) : (setPeer p x s).contexts = s.contexts := rfl
@[simp] theorem setPeer_steps (p : Nat) (x : Peer) (s : State) : (setPeer p x s).steps = s.steps := rfl
@[simp] theorem setPeer_mortar_refuseReason (p : Nat) (x : Peer) (s : State) : (setPeer p x s).mortar.refuseReason = s.mortar.refuseReason :=
    rfl
@[simp] theorem setPeer_mortar_bondDigest (p : Nat) (x : Peer) (s : State) : (setPeer p x s).mortar.bondDigest = s.mortar.bondDigest :=
    rfl
@[simp] theorem setPeer_mortar_tree (p : Nat) (x : Peer) (s : State) : (setPeer p x s).mortar.tree = s.mortar.tree :=
    rfl
@[simp] theorem setPeer_mortar_trees (p : Nat) (x : Peer) (s : State) : (setPeer p x s).mortar.trees = s.mortar.trees :=
    rfl
@[simp] theorem setPeer_mortar_late (p : Nat) (x : Peer) (s : State) : (setPeer p x s).mortar.late = s.mortar.late :=
    rfl
@[simp] theorem setPeer_snapshot (p : Nat) (x : Peer) (s : State) : (setPeer p x s).snapshot = s.snapshot := rfl
@[simp] theorem setPeer_hold (p : Nat) (x : Peer) (s : State) : (setPeer p x s).hold = s.hold := rfl
@[simp] theorem setPeer_restore (p : Nat) (x : Peer) (s : State) : (setPeer p x s).restore = s.restore := rfl
@[simp] theorem setPeer_upkeep (p : Nat) (x : Peer) (s : State) : (setPeer p x s).upkeep = s.upkeep := rfl
@[simp] theorem setPeer_mem (p : Nat) (x : Peer) (s : State) : (setPeer p x s).mem = s.mem := rfl
@[simp] theorem setPeer_out (p : Nat) (x : Peer) (s : State) : (setPeer p x s).out = s.out := rfl
@[simp] theorem setPeer_pending (p : Nat) (x : Peer) (s : State) : (setPeer p x s).pending = s.pending := rfl
@[simp] theorem setPeer_slow (p : Nat) (x : Peer) (s : State) : (setPeer p x s).slow = s.slow := rfl
@[simp] theorem setPeer_fresh (p : Nat) (x : Peer) (s : State) : (setPeer p x s).fresh = s.fresh := rfl

@[simp] theorem setBatch_boundary (b : Nat) (x : Batch) (s : State) : (setBatch b x s).boundary = s.boundary := rfl
@[simp] theorem setBatch_ts (b : Nat) (x : Batch) (s : State) : (setBatch b x s).ts = s.ts := rfl
@[simp] theorem setBatch_sensing (b : Nat) (x : Batch) (s : State) : (setBatch b x s).sensing = s.sensing := rfl
@[simp] theorem setBatch_events (b : Nat) (x : Batch) (s : State) : (setBatch b x s).events = s.events := rfl
@[simp] theorem setBatch_dict (b : Nat) (x : Batch) (s : State) : (setBatch b x s).dict = s.dict := rfl
@[simp] theorem setBatch_mirror (b : Nat) (x : Batch) (s : State) : (setBatch b x s).mirror = s.mirror := rfl
@[simp] theorem setBatch_nvm (b : Nat) (x : Batch) (s : State) : (setBatch b x s).nvm = s.nvm := rfl
@[simp] theorem setBatch_life (b : Nat) (x : Batch) (s : State) : (setBatch b x s).life = s.life := rfl
@[simp] theorem setBatch_heads (b : Nat) (x : Batch) (s : State) : (setBatch b x s).heads = s.heads := rfl
@[simp] theorem setBatch_lanes (b : Nat) (x : Batch) (s : State) : (setBatch b x s).lanes = s.lanes := rfl
@[simp] theorem setBatch_fseq (b : Nat) (x : Batch) (s : State) : (setBatch b x s).fseq = s.fseq := rfl
@[simp] theorem setBatch_contexts_slots (b : Nat) (x : Batch) (s : State) : (setBatch b x s).contexts.slots = s.contexts.slots :=
    rfl
@[simp] theorem setBatch_contexts_nodes (b : Nat) (x : Batch) (s : State) : (setBatch b x s).contexts.nodes = s.contexts.nodes :=
    rfl
@[simp] theorem setBatch_contexts_nextNode (b : Nat) (x : Batch) (s : State) : (setBatch b x s).contexts.nextNode = s.contexts.nextNode :=
    rfl
@[simp] theorem setBatch_contexts_reservedPages (b : Nat) (x : Batch) (s : State) : (setBatch b x s).contexts.reservedPages = s.contexts.reservedPages :=
    rfl
@[simp] theorem setBatch_contexts_budgets (b : Nat) (x : Batch) (s : State) : (setBatch b x s).contexts.budgets = s.contexts.budgets :=
    rfl
@[simp] theorem setBatch_contexts_directory (b : Nat) (x : Batch) (s : State) : (setBatch b x s).contexts.directory = s.contexts.directory :=
    rfl
@[simp] theorem setBatch_contexts_usable (b : Nat) (x : Batch) (s : State) : (setBatch b x s).contexts.usable = s.contexts.usable :=
    rfl
@[simp] theorem setBatch_contexts_refuseReason (b : Nat) (x : Batch) (s : State) : (setBatch b x s).contexts.refuseReason = s.contexts.refuseReason :=
    rfl
@[simp] theorem setBatch_contexts_cache (b : Nat) (x : Batch) (s : State) : (setBatch b x s).contexts.cache = s.contexts.cache :=
    rfl
@[simp] theorem setBatch_steps (b : Nat) (x : Batch) (s : State) : (setBatch b x s).steps = s.steps := rfl
@[simp] theorem setBatch_mortar (b : Nat) (x : Batch) (s : State) : (setBatch b x s).mortar = s.mortar := rfl
@[simp] theorem setBatch_snapshot (b : Nat) (x : Batch) (s : State) : (setBatch b x s).snapshot = s.snapshot := rfl
@[simp] theorem setBatch_hold (b : Nat) (x : Batch) (s : State) : (setBatch b x s).hold = s.hold := rfl
@[simp] theorem setBatch_restore (b : Nat) (x : Batch) (s : State) : (setBatch b x s).restore = s.restore := rfl
@[simp] theorem setBatch_upkeep (b : Nat) (x : Batch) (s : State) : (setBatch b x s).upkeep = s.upkeep := rfl
@[simp] theorem setBatch_mem (b : Nat) (x : Batch) (s : State) : (setBatch b x s).mem = s.mem := rfl
@[simp] theorem setBatch_out (b : Nat) (x : Batch) (s : State) : (setBatch b x s).out = s.out := rfl
@[simp] theorem setBatch_pending (b : Nat) (x : Batch) (s : State) : (setBatch b x s).pending = s.pending := rfl
@[simp] theorem setBatch_slow (b : Nat) (x : Batch) (s : State) : (setBatch b x s).slow = s.slow := rfl
@[simp] theorem setBatch_fresh (b : Nat) (x : Batch) (s : State) : (setBatch b x s).fresh = s.fresh := rfl

@[simp] theorem setContext_boundary (slot : Nat) (c : Context) (s : State) : (setContext slot c s).boundary = s.boundary :=
    rfl
@[simp] theorem setContext_ts (slot : Nat) (c : Context) (s : State) : (setContext slot c s).ts = s.ts := rfl
@[simp] theorem setContext_sensing (slot : Nat) (c : Context) (s : State) : (setContext slot c s).sensing = s.sensing :=
    rfl
@[simp] theorem setContext_events (slot : Nat) (c : Context) (s : State) : (setContext slot c s).events = s.events :=
    rfl
@[simp] theorem setContext_dict (slot : Nat) (c : Context) (s : State) : (setContext slot c s).dict = s.dict := rfl
@[simp] theorem setContext_mirror (slot : Nat) (c : Context) (s : State) : (setContext slot c s).mirror = s.mirror :=
    rfl
@[simp] theorem setContext_nvm (slot : Nat) (c : Context) (s : State) : (setContext slot c s).nvm = s.nvm := rfl
@[simp] theorem setContext_life (slot : Nat) (c : Context) (s : State) : (setContext slot c s).life = s.life := rfl
@[simp] theorem setContext_heads (slot : Nat) (c : Context) (s : State) : (setContext slot c s).heads = s.heads := rfl
@[simp] theorem setContext_lanes (slot : Nat) (c : Context) (s : State) : (setContext slot c s).lanes = s.lanes := rfl
@[simp] theorem setContext_fseq (slot : Nat) (c : Context) (s : State) : (setContext slot c s).fseq = s.fseq := rfl
@[simp] theorem setContext_contexts_nodes (slot : Nat) (c : Context) (s : State) : (setContext slot c s).contexts.nodes = s.contexts.nodes :=
    rfl
@[simp] theorem setContext_contexts_nextNode (slot : Nat) (c : Context) (s : State) : (setContext slot c s).contexts.nextNode = s.contexts.nextNode :=
    rfl
@[simp] theorem setContext_contexts_reservedPages (slot : Nat) (c : Context) (s : State) : (setContext slot c s).contexts.reservedPages = s.contexts.reservedPages :=
    rfl
@[simp] theorem setContext_contexts_batches (slot : Nat) (c : Context) (s : State) : (setContext slot c s).contexts.batches = s.contexts.batches :=
    rfl
@[simp] theorem setContext_contexts_budgets (slot : Nat) (c : Context) (s : State) : (setContext slot c s).contexts.budgets = s.contexts.budgets :=
    rfl
@[simp] theorem setContext_contexts_directory (slot : Nat) (c : Context) (s : State) : (setContext slot c s).contexts.directory = s.contexts.directory :=
    rfl
@[simp] theorem setContext_contexts_usable (slot : Nat) (c : Context) (s : State) : (setContext slot c s).contexts.usable = s.contexts.usable :=
    rfl
@[simp] theorem setContext_contexts_refuseReason (slot : Nat) (c : Context) (s : State) : (setContext slot c s).contexts.refuseReason = s.contexts.refuseReason :=
    rfl
@[simp] theorem setContext_contexts_cache (slot : Nat) (c : Context) (s : State) : (setContext slot c s).contexts.cache = s.contexts.cache :=
    rfl
@[simp] theorem setContext_steps (slot : Nat) (c : Context) (s : State) : (setContext slot c s).steps = s.steps := rfl
@[simp] theorem setContext_mortar (slot : Nat) (c : Context) (s : State) : (setContext slot c s).mortar = s.mortar :=
    rfl
@[simp] theorem setContext_snapshot (slot : Nat) (c : Context) (s : State) : (setContext slot c s).snapshot = s.snapshot :=
    rfl
@[simp] theorem setContext_hold (slot : Nat) (c : Context) (s : State) : (setContext slot c s).hold = s.hold := rfl
@[simp] theorem setContext_restore (slot : Nat) (c : Context) (s : State) : (setContext slot c s).restore = s.restore :=
    rfl
@[simp] theorem setContext_upkeep (slot : Nat) (c : Context) (s : State) : (setContext slot c s).upkeep = s.upkeep :=
    rfl
@[simp] theorem setContext_mem (slot : Nat) (c : Context) (s : State) : (setContext slot c s).mem = s.mem := rfl
@[simp] theorem setContext_out (slot : Nat) (c : Context) (s : State) : (setContext slot c s).out = s.out := rfl
@[simp] theorem setContext_pending (slot : Nat) (c : Context) (s : State) : (setContext slot c s).pending = s.pending :=
    rfl
@[simp] theorem setContext_slow (slot : Nat) (c : Context) (s : State) : (setContext slot c s).slow = s.slow := rfl
@[simp] theorem setContext_fresh (slot : Nat) (c : Context) (s : State) : (setContext slot c s).fresh = s.fresh := rfl

@[simp] theorem withRun_boundary (f : StepRun → StepRun) (s : State) : (withRun f s).boundary = s.boundary := rfl
@[simp] theorem withRun_ts (f : StepRun → StepRun) (s : State) : (withRun f s).ts = s.ts := rfl
@[simp] theorem withRun_sensing (f : StepRun → StepRun) (s : State) : (withRun f s).sensing = s.sensing := rfl
@[simp] theorem withRun_events (f : StepRun → StepRun) (s : State) : (withRun f s).events = s.events := rfl
@[simp] theorem withRun_dict (f : StepRun → StepRun) (s : State) : (withRun f s).dict = s.dict := rfl
@[simp] theorem withRun_mirror (f : StepRun → StepRun) (s : State) : (withRun f s).mirror = s.mirror := rfl
@[simp] theorem withRun_nvm (f : StepRun → StepRun) (s : State) : (withRun f s).nvm = s.nvm := rfl
@[simp] theorem withRun_life (f : StepRun → StepRun) (s : State) : (withRun f s).life = s.life := rfl
@[simp] theorem withRun_heads (f : StepRun → StepRun) (s : State) : (withRun f s).heads = s.heads := rfl
@[simp] theorem withRun_lanes (f : StepRun → StepRun) (s : State) : (withRun f s).lanes = s.lanes := rfl
@[simp] theorem withRun_fseq (f : StepRun → StepRun) (s : State) : (withRun f s).fseq = s.fseq := rfl
@[simp] theorem withRun_contexts (f : StepRun → StepRun) (s : State) : (withRun f s).contexts = s.contexts := rfl
@[simp] theorem withRun_steps_latched (f : StepRun → StepRun) (s : State) : (withRun f s).steps.latched = s.steps.latched :=
    rfl
@[simp] theorem withRun_steps_held (f : StepRun → StepRun) (s : State) : (withRun f s).steps.held = s.steps.held :=
    rfl
@[simp] theorem withRun_steps_lastNumber (f : StepRun → StepRun) (s : State) : (withRun f s).steps.lastNumber = s.steps.lastNumber :=
    rfl
@[simp] theorem withRun_steps_anyNumber (f : StepRun → StepRun) (s : State) : (withRun f s).steps.anyNumber = s.steps.anyNumber :=
    rfl
@[simp] theorem withRun_steps_lastStatus (f : StepRun → StepRun) (s : State) : (withRun f s).steps.lastStatus = s.steps.lastStatus :=
    rfl
@[simp] theorem withRun_steps_spillPeak (f : StepRun → StepRun) (s : State) : (withRun f s).steps.spillPeak = s.steps.spillPeak :=
    rfl
@[simp] theorem withRun_steps_sinceCapture (f : StepRun → StepRun) (s : State) : (withRun f s).steps.sinceCapture = s.steps.sinceCapture :=
    rfl
@[simp] theorem withRun_mortar (f : StepRun → StepRun) (s : State) : (withRun f s).mortar = s.mortar := rfl
@[simp] theorem withRun_snapshot (f : StepRun → StepRun) (s : State) : (withRun f s).snapshot = s.snapshot := rfl
@[simp] theorem withRun_hold (f : StepRun → StepRun) (s : State) : (withRun f s).hold = s.hold := rfl
@[simp] theorem withRun_restore (f : StepRun → StepRun) (s : State) : (withRun f s).restore = s.restore := rfl
@[simp] theorem withRun_upkeep (f : StepRun → StepRun) (s : State) : (withRun f s).upkeep = s.upkeep := rfl
@[simp] theorem withRun_mem (f : StepRun → StepRun) (s : State) : (withRun f s).mem = s.mem := rfl
@[simp] theorem withRun_out (f : StepRun → StepRun) (s : State) : (withRun f s).out = s.out := rfl
@[simp] theorem withRun_pending (f : StepRun → StepRun) (s : State) : (withRun f s).pending = s.pending := rfl
@[simp] theorem withRun_slow (f : StepRun → StepRun) (s : State) : (withRun f s).slow = s.slow := rfl
@[simp] theorem withRun_fresh (f : StepRun → StepRun) (s : State) : (withRun f s).fresh = s.fresh := rfl

/-- Raising an event changes the queue and the counters alone. -/
theorem raiseArgs_frame (code w a b : Nat) (s : State) :
    ∃ ev c, raiseArgs code w a b s = { s with events := ev, dict := { s.dict with counters := c } } := by
  unfold raiseArgs
  split
  · exact ⟨_, _, rfl⟩
  · split
    · exact ⟨_, _, rfl⟩
    · exact ⟨_, _, rfl⟩

@[simp] theorem raiseArgs_boundary (code w a b : Nat) (s : State) : (raiseArgs code w a b s).boundary = s.boundary :=
    by
  obtain ⟨ev, c, h⟩ := raiseArgs_frame code w a b s
  rw [h]
@[simp] theorem raiseArgs_ts (code w a b : Nat) (s : State) : (raiseArgs code w a b s).ts = s.ts := by
  obtain ⟨ev, c, h⟩ := raiseArgs_frame code w a b s
  rw [h]
@[simp] theorem raiseArgs_sensing (code w a b : Nat) (s : State) : (raiseArgs code w a b s).sensing = s.sensing := by
  obtain ⟨ev, c, h⟩ := raiseArgs_frame code w a b s
  rw [h]
@[simp] theorem raiseArgs_dict_rw (code w a b : Nat) (s : State) : (raiseArgs code w a b s).dict.rw = s.dict.rw := by
  obtain ⟨ev, c, h⟩ := raiseArgs_frame code w a b s
  rw [h]
@[simp] theorem raiseArgs_dict_applied (code w a b : Nat) (s : State) : (raiseArgs code w a b s).dict.applied = s.dict.applied :=
    by
  obtain ⟨ev, c, h⟩ := raiseArgs_frame code w a b s
  rw [h]
@[simp] theorem raiseArgs_dict_staged (code w a b : Nat) (s : State) : (raiseArgs code w a b s).dict.staged = s.dict.staged :=
    by
  obtain ⟨ev, c, h⟩ := raiseArgs_frame code w a b s
  rw [h]
@[simp] theorem raiseArgs_dict_held (code w a b : Nat) (s : State) : (raiseArgs code w a b s).dict.held = s.dict.held :=
    by
  obtain ⟨ev, c, h⟩ := raiseArgs_frame code w a b s
  rw [h]
@[simp] theorem raiseArgs_dict_commitState (code w a b : Nat) (s : State) : (raiseArgs code w a b s).dict.commitState = s.dict.commitState :=
    by
  obtain ⟨ev, c, h⟩ := raiseArgs_frame code w a b s
  rw [h]
@[simp] theorem raiseArgs_dict_commitTime (code w a b : Nat) (s : State) : (raiseArgs code w a b s).dict.commitTime = s.dict.commitTime :=
    by
  obtain ⟨ev, c, h⟩ := raiseArgs_frame code w a b s
  rw [h]
@[simp] theorem raiseArgs_dict_storeState (code w a b : Nat) (s : State) : (raiseArgs code w a b s).dict.storeState = s.dict.storeState :=
    by
  obtain ⟨ev, c, h⟩ := raiseArgs_frame code w a b s
  rw [h]
@[simp] theorem raiseArgs_dict_settingsSource (code w a b : Nat) (s : State) : (raiseArgs code w a b s).dict.settingsSource = s.dict.settingsSource :=
    by
  obtain ⟨ev, c, h⟩ := raiseArgs_frame code w a b s
  rw [h]
@[simp] theorem raiseArgs_dict_storing (code w a b : Nat) (s : State) : (raiseArgs code w a b s).dict.storing = s.dict.storing :=
    by
  obtain ⟨ev, c, h⟩ := raiseArgs_frame code w a b s
  rw [h]
@[simp] theorem raiseArgs_dict_transfers (code w a b : Nat) (s : State) : (raiseArgs code w a b s).dict.transfers = s.dict.transfers :=
    by
  obtain ⟨ev, c, h⟩ := raiseArgs_frame code w a b s
  rw [h]
@[simp] theorem raiseArgs_dict_endpoint (code w a b : Nat) (s : State) : (raiseArgs code w a b s).dict.endpoint = s.dict.endpoint :=
    by
  obtain ⟨ev, c, h⟩ := raiseArgs_frame code w a b s
  rw [h]
@[simp] theorem raiseArgs_mirror (code w a b : Nat) (s : State) : (raiseArgs code w a b s).mirror = s.mirror := by
  obtain ⟨ev, c, h⟩ := raiseArgs_frame code w a b s
  rw [h]
@[simp] theorem raiseArgs_nvm (code w a b : Nat) (s : State) : (raiseArgs code w a b s).nvm = s.nvm := by
  obtain ⟨ev, c, h⟩ := raiseArgs_frame code w a b s
  rw [h]
@[simp] theorem raiseArgs_life (code w a b : Nat) (s : State) : (raiseArgs code w a b s).life = s.life := by
  obtain ⟨ev, c, h⟩ := raiseArgs_frame code w a b s
  rw [h]
@[simp] theorem raiseArgs_heads (code w a b : Nat) (s : State) : (raiseArgs code w a b s).heads = s.heads := by
  obtain ⟨ev, c, h⟩ := raiseArgs_frame code w a b s
  rw [h]
@[simp] theorem raiseArgs_lanes (code w a b : Nat) (s : State) : (raiseArgs code w a b s).lanes = s.lanes := by
  obtain ⟨ev, c, h⟩ := raiseArgs_frame code w a b s
  rw [h]
@[simp] theorem raiseArgs_fseq (code w a b : Nat) (s : State) : (raiseArgs code w a b s).fseq = s.fseq := by
  obtain ⟨ev, c, h⟩ := raiseArgs_frame code w a b s
  rw [h]
@[simp] theorem raiseArgs_contexts (code w a b : Nat) (s : State) : (raiseArgs code w a b s).contexts = s.contexts :=
    by
  obtain ⟨ev, c, h⟩ := raiseArgs_frame code w a b s
  rw [h]
@[simp] theorem raiseArgs_steps (code w a b : Nat) (s : State) : (raiseArgs code w a b s).steps = s.steps := by
  obtain ⟨ev, c, h⟩ := raiseArgs_frame code w a b s
  rw [h]
@[simp] theorem raiseArgs_mortar (code w a b : Nat) (s : State) : (raiseArgs code w a b s).mortar = s.mortar := by
  obtain ⟨ev, c, h⟩ := raiseArgs_frame code w a b s
  rw [h]
@[simp] theorem raiseArgs_snapshot (code w a b : Nat) (s : State) : (raiseArgs code w a b s).snapshot = s.snapshot :=
    by
  obtain ⟨ev, c, h⟩ := raiseArgs_frame code w a b s
  rw [h]
@[simp] theorem raiseArgs_hold (code w a b : Nat) (s : State) : (raiseArgs code w a b s).hold = s.hold := by
  obtain ⟨ev, c, h⟩ := raiseArgs_frame code w a b s
  rw [h]
@[simp] theorem raiseArgs_restore (code w a b : Nat) (s : State) : (raiseArgs code w a b s).restore = s.restore := by
  obtain ⟨ev, c, h⟩ := raiseArgs_frame code w a b s
  rw [h]
@[simp] theorem raiseArgs_upkeep (code w a b : Nat) (s : State) : (raiseArgs code w a b s).upkeep = s.upkeep := by
  obtain ⟨ev, c, h⟩ := raiseArgs_frame code w a b s
  rw [h]
@[simp] theorem raiseArgs_mem (code w a b : Nat) (s : State) : (raiseArgs code w a b s).mem = s.mem := by
  obtain ⟨ev, c, h⟩ := raiseArgs_frame code w a b s
  rw [h]
@[simp] theorem raiseArgs_out (code w a b : Nat) (s : State) : (raiseArgs code w a b s).out = s.out := by
  obtain ⟨ev, c, h⟩ := raiseArgs_frame code w a b s
  rw [h]
@[simp] theorem raiseArgs_pending (code w a b : Nat) (s : State) : (raiseArgs code w a b s).pending = s.pending := by
  obtain ⟨ev, c, h⟩ := raiseArgs_frame code w a b s
  rw [h]
@[simp] theorem raiseArgs_slow (code w a b : Nat) (s : State) : (raiseArgs code w a b s).slow = s.slow := by
  obtain ⟨ev, c, h⟩ := raiseArgs_frame code w a b s
  rw [h]
@[simp] theorem raiseArgs_fresh (code w a b : Nat) (s : State) : (raiseArgs code w a b s).fresh = s.fresh := by
  obtain ⟨ev, c, h⟩ := raiseArgs_frame code w a b s
  rw [h]

@[simp] theorem raiseCount_boundary (code key w a b : Nat) (s : State) : (raiseCount code key w a b s).boundary = s.boundary :=
    raiseArgs_boundary code w a b _
@[simp] theorem raiseCount_ts (code key w a b : Nat) (s : State) : (raiseCount code key w a b s).ts = s.ts :=
    raiseArgs_ts code w a b _
@[simp] theorem raiseCount_sensing (code key w a b : Nat) (s : State) : (raiseCount code key w a b s).sensing = s.sensing :=
    raiseArgs_sensing code w a b _
@[simp] theorem raiseCount_dict_rw (code key w a b : Nat) (s : State) : (raiseCount code key w a b s).dict.rw = s.dict.rw :=
    raiseArgs_dict_rw code w a b _
@[simp] theorem raiseCount_dict_applied (code key w a b : Nat) (s : State) : (raiseCount code key w a b s).dict.applied = s.dict.applied :=
    raiseArgs_dict_applied code w a b _
@[simp] theorem raiseCount_dict_staged (code key w a b : Nat) (s : State) : (raiseCount code key w a b s).dict.staged = s.dict.staged :=
    raiseArgs_dict_staged code w a b _
@[simp] theorem raiseCount_dict_held (code key w a b : Nat) (s : State) : (raiseCount code key w a b s).dict.held = s.dict.held :=
    raiseArgs_dict_held code w a b _
@[simp] theorem raiseCount_dict_commitState (code key w a b : Nat) (s : State) : (raiseCount code key w a b s).dict.commitState = s.dict.commitState :=
    raiseArgs_dict_commitState code w a b _
@[simp] theorem raiseCount_dict_commitTime (code key w a b : Nat) (s : State) : (raiseCount code key w a b s).dict.commitTime = s.dict.commitTime :=
    raiseArgs_dict_commitTime code w a b _
@[simp] theorem raiseCount_dict_storeState (code key w a b : Nat) (s : State) : (raiseCount code key w a b s).dict.storeState = s.dict.storeState :=
    raiseArgs_dict_storeState code w a b _
@[simp] theorem raiseCount_dict_settingsSource (code key w a b : Nat) (s : State) : (raiseCount code key w a b s).dict.settingsSource = s.dict.settingsSource :=
    raiseArgs_dict_settingsSource code w a b _
@[simp] theorem raiseCount_dict_storing (code key w a b : Nat) (s : State) : (raiseCount code key w a b s).dict.storing = s.dict.storing :=
    raiseArgs_dict_storing code w a b _
@[simp] theorem raiseCount_dict_transfers (code key w a b : Nat) (s : State) : (raiseCount code key w a b s).dict.transfers = s.dict.transfers :=
    raiseArgs_dict_transfers code w a b _
@[simp] theorem raiseCount_dict_endpoint (code key w a b : Nat) (s : State) : (raiseCount code key w a b s).dict.endpoint = s.dict.endpoint :=
    raiseArgs_dict_endpoint code w a b _
@[simp] theorem raiseCount_mirror (code key w a b : Nat) (s : State) : (raiseCount code key w a b s).mirror = s.mirror :=
    raiseArgs_mirror code w a b _
@[simp] theorem raiseCount_nvm (code key w a b : Nat) (s : State) : (raiseCount code key w a b s).nvm = s.nvm :=
    raiseArgs_nvm code w a b _
@[simp] theorem raiseCount_life (code key w a b : Nat) (s : State) : (raiseCount code key w a b s).life = s.life :=
    raiseArgs_life code w a b _
@[simp] theorem raiseCount_heads (code key w a b : Nat) (s : State) : (raiseCount code key w a b s).heads = s.heads :=
    raiseArgs_heads code w a b _
@[simp] theorem raiseCount_lanes (code key w a b : Nat) (s : State) : (raiseCount code key w a b s).lanes = s.lanes :=
    raiseArgs_lanes code w a b _
@[simp] theorem raiseCount_fseq (code key w a b : Nat) (s : State) : (raiseCount code key w a b s).fseq = s.fseq :=
    raiseArgs_fseq code w a b _
@[simp] theorem raiseCount_contexts (code key w a b : Nat) (s : State) : (raiseCount code key w a b s).contexts = s.contexts :=
    raiseArgs_contexts code w a b _
@[simp] theorem raiseCount_steps (code key w a b : Nat) (s : State) : (raiseCount code key w a b s).steps = s.steps :=
    raiseArgs_steps code w a b _
@[simp] theorem raiseCount_mortar (code key w a b : Nat) (s : State) : (raiseCount code key w a b s).mortar = s.mortar :=
    raiseArgs_mortar code w a b _
@[simp] theorem raiseCount_snapshot (code key w a b : Nat) (s : State) : (raiseCount code key w a b s).snapshot = s.snapshot :=
    raiseArgs_snapshot code w a b _
@[simp] theorem raiseCount_hold (code key w a b : Nat) (s : State) : (raiseCount code key w a b s).hold = s.hold :=
    raiseArgs_hold code w a b _
@[simp] theorem raiseCount_restore (code key w a b : Nat) (s : State) : (raiseCount code key w a b s).restore = s.restore :=
    raiseArgs_restore code w a b _
@[simp] theorem raiseCount_upkeep (code key w a b : Nat) (s : State) : (raiseCount code key w a b s).upkeep = s.upkeep :=
    raiseArgs_upkeep code w a b _
@[simp] theorem raiseCount_mem (code key w a b : Nat) (s : State) : (raiseCount code key w a b s).mem = s.mem :=
    raiseArgs_mem code w a b _
@[simp] theorem raiseCount_out (code key w a b : Nat) (s : State) : (raiseCount code key w a b s).out = s.out :=
    raiseArgs_out code w a b _
@[simp] theorem raiseCount_pending (code key w a b : Nat) (s : State) : (raiseCount code key w a b s).pending = s.pending :=
    raiseArgs_pending code w a b _
@[simp] theorem raiseCount_slow (code key w a b : Nat) (s : State) : (raiseCount code key w a b s).slow = s.slow :=
    raiseArgs_slow code w a b _
@[simp] theorem raiseCount_fresh (code key w a b : Nat) (s : State) : (raiseCount code key w a b s).fresh = s.fresh :=
    raiseArgs_fresh code w a b _

@[simp] theorem raise_boundary (code : Nat) (s : State) : (raise code s).boundary = s.boundary :=
    raiseArgs_boundary code 0 0 0 s
@[simp] theorem raise_ts (code : Nat) (s : State) : (raise code s).ts = s.ts := raiseArgs_ts code 0 0 0 s
@[simp] theorem raise_sensing (code : Nat) (s : State) : (raise code s).sensing = s.sensing :=
    raiseArgs_sensing code 0 0 0 s
@[simp] theorem raise_dict_rw (code : Nat) (s : State) : (raise code s).dict.rw = s.dict.rw :=
    raiseArgs_dict_rw code 0 0 0 s
@[simp] theorem raise_dict_applied (code : Nat) (s : State) : (raise code s).dict.applied = s.dict.applied :=
    raiseArgs_dict_applied code 0 0 0 s
@[simp] theorem raise_dict_staged (code : Nat) (s : State) : (raise code s).dict.staged = s.dict.staged :=
    raiseArgs_dict_staged code 0 0 0 s
@[simp] theorem raise_dict_held (code : Nat) (s : State) : (raise code s).dict.held = s.dict.held :=
    raiseArgs_dict_held code 0 0 0 s
@[simp] theorem raise_dict_commitState (code : Nat) (s : State) : (raise code s).dict.commitState = s.dict.commitState :=
    raiseArgs_dict_commitState code 0 0 0 s
@[simp] theorem raise_dict_commitTime (code : Nat) (s : State) : (raise code s).dict.commitTime = s.dict.commitTime :=
    raiseArgs_dict_commitTime code 0 0 0 s
@[simp] theorem raise_dict_storeState (code : Nat) (s : State) : (raise code s).dict.storeState = s.dict.storeState :=
    raiseArgs_dict_storeState code 0 0 0 s
@[simp] theorem raise_dict_settingsSource (code : Nat) (s : State) : (raise code s).dict.settingsSource = s.dict.settingsSource :=
    raiseArgs_dict_settingsSource code 0 0 0 s
@[simp] theorem raise_dict_storing (code : Nat) (s : State) : (raise code s).dict.storing = s.dict.storing :=
    raiseArgs_dict_storing code 0 0 0 s
@[simp] theorem raise_dict_transfers (code : Nat) (s : State) : (raise code s).dict.transfers = s.dict.transfers :=
    raiseArgs_dict_transfers code 0 0 0 s
@[simp] theorem raise_dict_endpoint (code : Nat) (s : State) : (raise code s).dict.endpoint = s.dict.endpoint :=
    raiseArgs_dict_endpoint code 0 0 0 s
@[simp] theorem raise_mirror (code : Nat) (s : State) : (raise code s).mirror = s.mirror :=
    raiseArgs_mirror code 0 0 0 s
@[simp] theorem raise_nvm (code : Nat) (s : State) : (raise code s).nvm = s.nvm := raiseArgs_nvm code 0 0 0 s
@[simp] theorem raise_life (code : Nat) (s : State) : (raise code s).life = s.life := raiseArgs_life code 0 0 0 s
@[simp] theorem raise_heads (code : Nat) (s : State) : (raise code s).heads = s.heads := raiseArgs_heads code 0 0 0 s
@[simp] theorem raise_lanes (code : Nat) (s : State) : (raise code s).lanes = s.lanes := raiseArgs_lanes code 0 0 0 s
@[simp] theorem raise_fseq (code : Nat) (s : State) : (raise code s).fseq = s.fseq := raiseArgs_fseq code 0 0 0 s
@[simp] theorem raise_contexts (code : Nat) (s : State) : (raise code s).contexts = s.contexts :=
    raiseArgs_contexts code 0 0 0 s
@[simp] theorem raise_steps (code : Nat) (s : State) : (raise code s).steps = s.steps := raiseArgs_steps code 0 0 0 s
@[simp] theorem raise_mortar (code : Nat) (s : State) : (raise code s).mortar = s.mortar :=
    raiseArgs_mortar code 0 0 0 s
@[simp] theorem raise_snapshot (code : Nat) (s : State) : (raise code s).snapshot = s.snapshot :=
    raiseArgs_snapshot code 0 0 0 s
@[simp] theorem raise_hold (code : Nat) (s : State) : (raise code s).hold = s.hold := raiseArgs_hold code 0 0 0 s
@[simp] theorem raise_restore (code : Nat) (s : State) : (raise code s).restore = s.restore :=
    raiseArgs_restore code 0 0 0 s
@[simp] theorem raise_upkeep (code : Nat) (s : State) : (raise code s).upkeep = s.upkeep :=
    raiseArgs_upkeep code 0 0 0 s
@[simp] theorem raise_mem (code : Nat) (s : State) : (raise code s).mem = s.mem := raiseArgs_mem code 0 0 0 s
@[simp] theorem raise_out (code : Nat) (s : State) : (raise code s).out = s.out := raiseArgs_out code 0 0 0 s
@[simp] theorem raise_pending (code : Nat) (s : State) : (raise code s).pending = s.pending :=
    raiseArgs_pending code 0 0 0 s
@[simp] theorem raise_slow (code : Nat) (s : State) : (raise code s).slow = s.slow := raiseArgs_slow code 0 0 0 s
@[simp] theorem raise_fresh (code : Nat) (s : State) : (raise code s).fresh = s.fresh := raiseArgs_fresh code 0 0 0 s

/-! ### What an update sets -/

@[simp] theorem rwVal_setRw (key v : Nat) (s : State) :
    (setRw key v s).rwVal key = v := by
  simp [State.rwVal, setRw, Store.get]

theorem rwVal_setRw_other {key k : Nat} (v : Nat) (s : State) (h : k ≠ key) : (setRw key v s).rwVal k = s.rwVal k := by
  simp [State.rwVal, setRw, Store.get, lookupKey_insertKey_other _ _ h]

@[simp] theorem counter_setCounter (key v : Nat) (s : State) : (setCounter key v s).counter key = v := by
  simp [State.counter, setCounter]

theorem counter_setCounter_other {key k : Nat} (v : Nat) (s : State) (h : k ≠ key) :
    (setCounter key v s).counter k = s.counter k := by
  simp [State.counter, setCounter, lookupKey_insertKey_other _ _ h]

@[simp] theorem counter_count (key k : Nat) (s : State) :
    (count key k s).counter key = bump (counterWidth key) (s.counter key) k := counter_setCounter ..

theorem counter_count_other {key j : Nat} (k : Nat) (s : State) (h : j ≠ key) : (count key k s).counter j = s.counter j :=
  counter_setCounter_other _ _ h

@[simp] theorem sendMesh_mesh (eid : Byte) (msg : Bytes) (s : State) :
    (sendMesh eid msg s).out.mesh = s.out.mesh ++ [(eid, msg)] := rfl

@[simp] theorem sendMesh_mirrorOut (eid : Byte) (msg : Bytes) (s : State) :
    (sendMesh eid msg s).out.mirror = s.out.mirror := rfl

@[simp] theorem mirrorData_mirrorOut (w : Nat) (s : State) : (mirrorData w s).out.mirror = BitVec.ofNat 32 w := rfl

@[simp] theorem batch_setBatch (t : Nat) (b : Batch) (s : State) : (setBatch t b s).batch t = b := by
  simp [State.batch, setBatch]

theorem batch_setBatch_other {t u : Nat} (b : Batch) (s : State) (h : u ≠ t) : (setBatch t b s).batch u = s.batch u := by
  simp [State.batch, setBatch, lookupKey_insertKey_other _ _ h]

@[simp] theorem context_setContext (slot : Nat) (c : Context) (s : State) :
    (setContext slot c s).context slot = some c := lookupKey_insertKey_self ..

theorem context_setContext_other {slot k : Nat} (c : Context) (s : State) (h : k ≠ slot) :
    (setContext slot c s).context k = s.context k := lookupKey_insertKey_other _ _ h

@[simp] theorem peer_setPeer (p : Nat) (x : Peer) (s : State) : (setPeer p x s).peer p = x := by
  simp [State.peer, setPeer]

theorem peer_setPeer_other {p q : Nat} (x : Peer) (s : State) (h : q ≠ p) : (setPeer p x s).peer q = s.peer q := by
  simp [State.peer, setPeer, lookupKey_insertKey_other _ _ h]

theorem head_setHead {i : Nat} (h : HeadSlot) (s : State) (hi : i < s.heads.length) : (setHead i h s).head i = h := by
  simp [State.head, setHead, hi]

theorem head_setHead_other {i j : Nat} (h : HeadSlot) (s : State) (hj : j ≠ i) : (setHead i h s).head j = s.head j := by
  simp [State.head, setHead, Ne.symm hj]

/-! ### Events -/

theorem mem_insertEvent (e x : Event) (l : List Event) : x ∈ insertEvent e l ↔ x = e ∨ x ∈ l := by
  induction l with
  | nil => simp [insertEvent]
  | cons y ys ih =>
    unfold insertEvent
    split
    · simp
    · simp only [List.mem_cons, ih]
      constructor
      · rintro (h | h | h) <;> simp [h]
      · rintro (h | h | h) <;> simp [h]

theorem events_enqueue (code w a b : Nat) (s : State) :
    (enqueue code w a b s).events.events =
      insertEvent ⟨code, s.address * 16 + subSource code, s.events.nextSequence, s.now, w, a, b, false⟩
        s.events.events := rfl

/-- An event raised with room in the queue is queued. -/
theorem queued_raiseArgs {code w a b : Nat} {s : State} (h : s.events.events.length < 255) :
    (raiseArgs code w a b s).queued code w a b := by
  unfold raiseArgs
  rw [if_pos h]
  exact ⟨_, (mem_insertEvent ..).2 (.inl rfl), rfl, rfl, rfl, rfl⟩

/-- Raising an event loses none that is queued. -/
theorem queued_of_queued {code w a b c x y z : Nat} {s : State} (h : s.queued code w a b) :
    (raiseArgs c x y z s).queued code w a b := by
  obtain ⟨e, he, h⟩ := h
  refine ⟨e, ?_, h⟩
  unfold raiseArgs
  split
  · exact (mem_insertEvent ..).2 (.inr he)
  · split
    · exact (mem_insertEvent ..).2 (.inr he)
    · exact he

/-- With room in the queue only the counters a caller counts change. -/
theorem counters_raiseArgs {code w a b : Nat} {s : State} (h : s.events.events.length < 255) :
    (raiseArgs code w a b s).dict.counters = s.dict.counters := by
  unfold raiseArgs
  rw [if_pos h]
  rfl

theorem counter_raiseArgs {code w a b k : Nat} {s : State} (h : s.events.events.length < 255) :
    (raiseArgs code w a b s).counter k = s.counter k := by
  rw [State.counter, counters_raiseArgs h, State.counter]

theorem counter_raiseCount {code key w a b : Nat} {s : State} (h : s.events.events.length < 255) :
    (raiseCount code key w a b s).counter key = bump (counterWidth key) (s.counter key) 1 := by
  rw [raiseCount, counter_raiseArgs (s := count key 1 s) h, counter_count]

theorem queued_raiseCount {code key w a b : Nat} {s : State} (h : s.events.events.length < 255) :
    (raiseCount code key w a b s).queued code w a b := queued_raiseArgs (s := count key 1 s) h

/-- Events Lost apart, raising an event advances no counter. -/
theorem counter_raiseArgs_other {code w a b k : Nat} {s : State} (h : k ≠ 0x70A201) :
    (raiseArgs code w a b s).counter k = s.counter k := by
  unfold raiseArgs
  split
  · rfl
  · split
    · exact counter_count_other 1 _ h
    · exact counter_count_other 1 _ h

theorem counter_raiseCount_self {code key w a b : Nat} {s : State} (h : key ≠ 0x70A201) :
    (raiseCount code key w a b s).counter key = bump (counterWidth key) (s.counter key) 1 := by
  rw [raiseCount, counter_raiseArgs_other h, counter_count]

end Sys2Proof.Machine
end

