-- ==== Sys2Proof/Laws/Heads.lean ====
section
/-! SUPPORT. What the operations on the head slots do to each slot. -/

namespace Sys2Proof.Machine

set_option linter.all false

/-- A slot beyond the list reads as an Empty one. -/
theorem head_beyond {s : State} {i : Nat} (h : s.heads.length ≤ i) : s.head i = .empty := by
  simp [State.head, h]

/-- A slot that is not in its first state is in the list. -/
theorem lt_of_head {s : State} {i : Nat} (h : (s.head i).state ≠ 0) : i < s.heads.length := by
  refine Nat.lt_of_not_le fun k => h ?_
  rw [head_beyond k]
  rfl

theorem head_emptySlot_other {s : State} {i j : Nat} (h : j ≠ i) : (emptySlot i s).head j = s.head j :=
  head_setHead_other _ s h

theorem head_emptySlot {s : State} {i : Nat} : ((emptySlot i s).head i).state = 0 ∧
    (i < s.heads.length → ((emptySlot i s).head i).frames = 0) := by
  refine ⟨?_, fun h => ?_⟩
  · by_cases h : i < s.heads.length
    · rw [emptySlot, clearSlot, head_setHead _ s h]
    · rw [head_beyond]
      · rfl
      · simpa [emptySlot, clearSlot, setHead] using h
  · rw [emptySlot, clearSlot, head_setHead _ s h]

/-- The slots a fold over slots touches one by one. -/
theorem head_foldl {f : State → Nat → State} (hf : ∀ s i j, j ≠ i → (f s i).head j = s.head j) (l : List Nat) (s : State)
    {j : Nat} (hj : j ∉ l) : (l.foldl f s).head j = s.head j := by
  induction l generalizing s with
  | nil => rfl
  | cons i l ih =>
    simp only [List.mem_cons, not_or] at hj
    rw [List.foldl_cons, ih _ hj.2, hf s i j hj.1]

/-- Without a test 10 that waits, no march begins. -/
theorem beginMarch_off {s : State} (h : s.marchTime = false) : beginMarch s = s := by
  rw [beginMarch, State.marchBegins, h, Bool.false_and]
  rfl

/-- The fold of dropped swaps leaves the tests as they were. -/
theorem marchTime_dropped (l : List Nat) (s : State) :
    (l.foldl (fun s i => if (s.head i).state = 1 then emptySlot i s else s) s).marchTime = s.marchTime := by
  induction l generalizing s with
  | nil => rfl
  | cons i l ih =>
    rw [List.foldl_cons, ih]
    split <;> rfl

/-- Without a test 10 that waits, Loading slots are emptied and every other slot is as it was. -/
theorem head_dropLoading (s : State) (j : Nat) (hm : s.marchTime = false) :
    ((s.head j).state ≠ 1 → (dropLoading s).head j = s.head j) ∧
    (j < 4 → (s.head j).state = 1 → ((dropLoading s).head j).state = 0 ∧ ((dropLoading s).head j).frames = 0) := by
  have hf : ∀ (s : State) (i j : Nat), j ≠ i → ((fun s i => if (s.head i).state = 1 then emptySlot i s else s) s i).head j =
      s.head j := by
    intro s i j h
    dsimp only
    split
    · exact head_emptySlot_other h
    · rfl
  have hd : dropLoading s = (List.range 4).foldl (fun s i => if (s.head i).state = 1 then emptySlot i s else s) s :=
    beginMarch_off ((marchTime_dropped _ s).trans hm)
  rw [hd]
  clear hd hm
  constructor
  · intro h
    generalize List.range 4 = l
    induction l generalizing s with
    | nil => rfl
    | cons i l ih =>
      rw [List.foldl_cons]
      have e : (if (s.head i).state = 1 then emptySlot i s else s).head j = s.head j := by
        by_cases hi : j = i
        · subst hi
          rw [if_neg h]
        · exact hf s i j hi
      rw [ih _ (e ▸ h), e]
  · intro hj h
    have key : ∀ (l : List Nat) (s : State), j ∈ l → l.Nodup → (s.head j).state = 1 →
        ((l.foldl (fun s i => if (s.head i).state = 1 then emptySlot i s else s) s).head j).state = 0 ∧
        ((l.foldl (fun s i => if (s.head i).state = 1 then emptySlot i s else s) s).head j).frames = 0 := by
      intro l
      induction l with
      | nil => intro s hm; simp at hm
      | cons i l ih =>
        intro s hm hn hs
        rw [List.nodup_cons] at hn
        rw [List.foldl_cons]
        by_cases hi : j = i
        · subst hi
          rw [head_foldl hf l _ hn.1, if_pos hs]
          exact ⟨head_emptySlot.1, head_emptySlot.2 (lt_of_head (by rw [hs]; decide))⟩
        · refine ih _ ((List.mem_cons.1 hm).resolve_left hi) hn.2 ?_
          have e := hf s i j hi
          dsimp only at e
          rw [e]
          exact hs
    exact key _ s (List.mem_range.2 hj) List.nodup_range h

end Sys2Proof.Machine
end

