-- ==== Sys2Proof/Laws/Keeps.lean ====
section
/-! SUPPORT. `Keeps s t`: what every command's effect does with the queue and the invariant, from a state `s` to a
state `t`; how record updates and folds carry it on. -/

namespace Sys2Proof.Machine

set_option linter.all false

/-- `t` has the queue of `s`, and the invariant if `s` has it. -/
structure Keeps (s t : State) : Prop where
  pending : t.pending = s.pending
  inv : s.Inv → t.Inv

theorem Keeps.refl (s : State) : Keeps s s := ⟨rfl, id⟩

theorem Keeps.trans {s t u : State} (h : Keeps s t) (k : Keeps t u) : Keeps s u :=
  ⟨k.pending.trans h.pending, fun i => k.inv (h.inv i)⟩

/-- An update of fields the invariant does not read. -/
theorem Keeps.inert {s t : State} (h : Keeps s t) (ts : TimeStamp) (dict : Dict) (mirror : Mirror) (lanes : Lanes) (fseq : Fseq)
    (contexts : Contexts) (steps : Steps) (mortar : Mortar) (snapshot : Snapshot) (hold : Hold) (restore : Restore)
    (upkeep : Upkeep) (out : Outputs) (slow fresh : Nat) :
    Keeps s { t with
      ts := ts, dict := dict, mirror := mirror, lanes := lanes, fseq := fseq, contexts := contexts, steps := steps, mortar := mortar
      snapshot := snapshot, hold := hold, restore := restore, upkeep := upkeep, out := out, slow := slow, fresh := fresh } :=
  ⟨h.pending, fun i => let j := h.inv i; ⟨j.memory, j.heads, j.temps, j.queue, j.present, j.record, j.copies⟩⟩

/-- An update of fields the invariant reads, which still meet it. -/
theorem Keeps.active {s t : State} (h : Keeps s t) (b : Boundary) (sens : Sensing) (ev : EventQueue) (nvm : NonVolatile)
    (life : LifeCycle) (heads : List HeadSlot) (mem : List Host.Cell)
    (hb : t.Inv → b.sound sens.power = true) (hs : t.Inv → sens.temps.length = 8) (he : t.Inv → ev.events.length ≤ 256)
    (hn : t.Inv → nvm.legal = true) (hl : t.Inv → life.legal = true) (hh : t.Inv → heads.length = 4)
    (hm : t.Inv → Memory.wf mem = true) (ts : TimeStamp) (dict : Dict) (mirror : Mirror) (lanes : Lanes) (fseq : Fseq)
    (contexts : Contexts) (steps : Steps) (mortar : Mortar) (snapshot : Snapshot) (hold : Hold) (restore : Restore)
    (upkeep : Upkeep) (out : Outputs) (slow fresh : Nat) :
    Keeps s { t with
      boundary := b, sensing := sens, events := ev, nvm := nvm, life := life, heads := heads, mem := mem
      ts := ts, dict := dict, mirror := mirror, lanes := lanes, fseq := fseq, contexts := contexts, steps := steps, mortar := mortar
      snapshot := snapshot, hold := hold, restore := restore, upkeep := upkeep, out := out, slow := slow, fresh := fresh } :=
  ⟨h.pending, fun i => let j := h.inv i; ⟨hm j, hh j, hs j, he j, hb j, hl j, hn j⟩⟩

/-- A change between powered states. -/
theorem sound_power {b : Boundary} {p q : Power} (h : b.sound p = true) (hq : (q != .off) = true) :
    b.sound q = true := by
  simp only [Boundary.sound, Bool.and_eq_true, Bool.or_eq_true] at h ⊢
  exact ⟨h.1.imp id fun k => ⟨k.1, hq⟩, h.2.1, .inr hq⟩

/-- UNIT_PRESENT at 0 is sound outside a lane reset. -/
theorem sound_absent {b : Boundary} {p : Power} (hu : b.unitPresent = false) (hl : (b.laneReturn != .off) = true)
    (hp : b.phase.lane = false) : b.sound p = true := by
  simp only [Boundary.sound, hu, hl, hp, Bool.not_false, Bool.true_or, Bool.and_self]

/-- UNIT_PRESENT at 0 is sound in a powered unit. -/
theorem sound_powered {b : Boundary} {p : Power} (hu : b.unitPresent = false) (hl : (b.laneReturn != .off) = true)
    (hp : (p != .off) = true) : b.sound p = true := by
  simp only [Boundary.sound, hu, hl, hp, Bool.not_false, Bool.true_or, Bool.or_true, Bool.and_self]

/-- A sound boundary stays sound when UNIT_PRESENT falls. -/
theorem sound_isolated {b c : Boundary} {p : Power} (h : b.sound p = true) (hu : c.unitPresent = false)
    (hl : c.laneReturn = b.laneReturn) (hp : c.phase = b.phase) : c.sound p = true := by
  simp only [Boundary.sound, Bool.and_eq_true] at h
  simp only [Boundary.sound, hu, hl, hp, h.2.1, h.2.2, Bool.not_false, Bool.true_or, Bool.and_self]

/-- A sound boundary returns to a powered state. -/
theorem sound_return {b : Boundary} {p : Power} (h : b.sound p = true) : (b.laneReturn != .off) = true := by
  simp only [Boundary.sound, Bool.and_eq_true] at h
  exact h.2.1

/-- The unit is powered while a lane reset runs. -/
theorem sound_lane {b : Boundary} {p : Power} (h : b.sound p = true) (hl : b.phase.lane = true) : (p != .off) = true := by
  simp only [Boundary.sound, Bool.and_eq_true, Bool.or_eq_true, hl, Bool.not_true, Bool.false_eq_true, false_or] at h
  exact h.2.2

theorem keeps_ite {c : Prop} [Decidable c] {s t u : State} (ht : Keeps s t) (hu : Keeps s u) :
    Keeps s (if c then t else u) := by
  split
  · exact ht
  · exact hu

theorem keeps_foldl {α : Type} {s t : State} (h : Keeps s t) (f : State → α → State) (l : List α)
    (hf : ∀ u x, Keeps s u → Keeps s (f u x)) : Keeps s (l.foldl f t) := by
  induction l generalizing t with
  | nil => exact h
  | cons x xs ih => exact ih (hf t x h)

end Sys2Proof.Machine
end

