-- ==== Sys2Proof/Laws/KeepsOps.lean ====
section
/-! SUPPORT. The effects of Machine/Ops.lean keep the queue and the invariant. -/

namespace Sys2Proof.Machine

theorem keeps_setRw {s₀ s : State} (hk : Keeps s₀ s) (key v : Nat) : Keeps s₀ (setRw key v s) := by
  refine hk.trans ?_
  unfold setRw
  try dsimp only
  repeat' first
    | with_reducible assumption
    | with_reducible exact Keeps.refl _
    | split
    | with_reducible apply Keeps.inert
    | (intro u x hu)
    | with_reducible apply Keeps.active
    | exact fun i => sound_power i.present rfl
    | exact fun i => have k := sound_return i.present; sound_absent rfl k rfl
    | exact fun i => i.present
    | exact fun i => i.temps
    | exact fun i => i.queue
    | exact fun i => i.copies
    | exact fun i => i.record
    | exact fun i => i.heads
    | exact fun i => i.memory

theorem keeps_setStaged {s₀ s : State} (hk : Keeps s₀ s) (key v : Nat) : Keeps s₀ (setStaged key v s) := by
  refine hk.trans ?_
  unfold setStaged
  try dsimp only
  repeat' first
    | with_reducible assumption
    | with_reducible exact Keeps.refl _
    | split
    | with_reducible apply Keeps.inert
    | (intro u x hu)
    | with_reducible apply Keeps.active
    | exact fun i => sound_power i.present rfl
    | exact fun i => have k := sound_return i.present; sound_absent rfl k rfl
    | exact fun i => i.present
    | exact fun i => i.temps
    | exact fun i => i.queue
    | exact fun i => i.copies
    | exact fun i => i.record
    | exact fun i => i.heads
    | exact fun i => i.memory

theorem keeps_setCounter {s₀ s : State} (hk : Keeps s₀ s) (key v : Nat) : Keeps s₀ (setCounter key v s) := by
  refine hk.trans ?_
  unfold setCounter
  try dsimp only
  repeat' first
    | with_reducible assumption
    | with_reducible exact Keeps.refl _
    | split
    | with_reducible apply Keeps.inert
    | (intro u x hu)
    | with_reducible apply Keeps.active
    | exact fun i => sound_power i.present rfl
    | exact fun i => have k := sound_return i.present; sound_absent rfl k rfl
    | exact fun i => i.present
    | exact fun i => i.temps
    | exact fun i => i.queue
    | exact fun i => i.copies
    | exact fun i => i.record
    | exact fun i => i.heads
    | exact fun i => i.memory

theorem keeps_count {s₀ s : State} (hk : Keeps s₀ s) (key k : Nat) : Keeps s₀ (count key k s) := by
  refine hk.trans ?_
  unfold count
  try dsimp only
  repeat' first
    | with_reducible assumption
    | with_reducible exact Keeps.refl _
    | split
    | with_reducible apply keeps_setCounter
    | with_reducible apply Keeps.inert
    | (intro u x hu)
    | with_reducible apply Keeps.active
    | exact fun i => sound_power i.present rfl
    | exact fun i => have k := sound_return i.present; sound_absent rfl k rfl
    | exact fun i => i.present
    | exact fun i => i.temps
    | exact fun i => i.queue
    | exact fun i => i.copies
    | exact fun i => i.record
    | exact fun i => i.heads
    | exact fun i => i.memory

theorem keeps_reject {s₀ s : State} (hk : Keeps s₀ s) : Keeps s₀ (reject s) := by
  refine hk.trans ?_
  unfold reject
  try dsimp only
  repeat' first
    | with_reducible assumption
    | with_reducible exact Keeps.refl _
    | split
    | with_reducible apply keeps_count
    | with_reducible apply Keeps.inert
    | (intro u x hu)
    | with_reducible apply Keeps.active
    | exact fun i => sound_power i.present rfl
    | exact fun i => have k := sound_return i.present; sound_absent rfl k rfl
    | exact fun i => i.present
    | exact fun i => i.temps
    | exact fun i => i.queue
    | exact fun i => i.copies
    | exact fun i => i.record
    | exact fun i => i.heads
    | exact fun i => i.memory

theorem length_insertEvent (e : Event) (l : List Event) : (insertEvent e l).length = l.length + 1 := by
  induction l with
  | nil => rfl
  | cons x xs ih =>
    unfold insertEvent
    split
    · rfl
    · rw [List.length_cons, ih, List.length_cons]

theorem keeps_enqueue {s₀ s : State} (h : Keeps s₀ s) (code wide a b : Nat) (hr : s.events.events.length < 256) :
    Keeps s₀ (enqueue code wide a b s) := by
  refine h.trans ⟨rfl, fun i => ⟨i.memory, i.heads, i.temps, ?_, i.present, i.record, i.copies⟩⟩
  show (insertEvent _ s.events.events).length ≤ 256
  rw [length_insertEvent]
  exact hr

theorem events_loseEvent (s : State) : (loseEvent s).events.events = s.events.events := rfl

theorem keeps_loseEvent {s₀ s : State} (h : Keeps s₀ s) : Keeps s₀ (loseEvent s) := by
  refine h.trans ⟨rfl, fun i => ⟨i.memory, i.heads, i.temps, ?_, i.present, i.record, i.copies⟩⟩
  rw [events_loseEvent]
  exact i.queue

theorem keeps_raiseArgs {s₀ s : State} (h : Keeps s₀ s) (code wide a b : Nat) : Keeps s₀ (raiseArgs code wide a b s) := by
  unfold raiseArgs
  split
  · exact keeps_enqueue h _ _ _ _ (by omega)
  · split
    · refine keeps_enqueue (keeps_loseEvent h) _ _ _ _ ?_
      rw [events_loseEvent]
      omega
    · exact keeps_loseEvent h

theorem keeps_raise {s₀ s : State} (hk : Keeps s₀ s) (code : Nat) : Keeps s₀ (raise code s) := by
  refine hk.trans ?_
  unfold raise
  try dsimp only
  repeat' first
    | with_reducible assumption
    | with_reducible exact Keeps.refl _
    | split
    | with_reducible apply keeps_raiseArgs
    | with_reducible apply Keeps.inert
    | (intro u x hu)
    | with_reducible apply Keeps.active
    | exact fun i => sound_power i.present rfl
    | exact fun i => have k := sound_return i.present; sound_absent rfl k rfl
    | exact fun i => i.present
    | exact fun i => i.temps
    | exact fun i => i.queue
    | exact fun i => i.copies
    | exact fun i => i.record
    | exact fun i => i.heads
    | exact fun i => i.memory

theorem keeps_raiseCount {s₀ s : State} (hk : Keeps s₀ s) (code key wide a b : Nat) : Keeps s₀ (raiseCount code key wide a b s) := by
  refine hk.trans ?_
  unfold raiseCount
  try dsimp only
  repeat' first
    | with_reducible assumption
    | with_reducible exact Keeps.refl _
    | split
    | with_reducible apply keeps_raiseArgs
    | with_reducible apply keeps_count
    | with_reducible apply Keeps.inert
    | (intro u x hu)
    | with_reducible apply Keeps.active
    | exact fun i => sound_power i.present rfl
    | exact fun i => have k := sound_return i.present; sound_absent rfl k rfl
    | exact fun i => i.present
    | exact fun i => i.temps
    | exact fun i => i.queue
    | exact fun i => i.copies
    | exact fun i => i.record
    | exact fun i => i.heads
    | exact fun i => i.memory

theorem keeps_sendMesh {s₀ s : State} (hk : Keeps s₀ s) (eid : Byte) (msg : Bytes) : Keeps s₀ (sendMesh eid msg s) := by
  refine hk.trans ?_
  unfold sendMesh
  try dsimp only
  repeat' first
    | with_reducible assumption
    | with_reducible exact Keeps.refl _
    | split
    | with_reducible apply Keeps.inert
    | (intro u x hu)
    | with_reducible apply Keeps.active
    | exact fun i => sound_power i.present rfl
    | exact fun i => have k := sound_return i.present; sound_absent rfl k rfl
    | exact fun i => i.present
    | exact fun i => i.temps
    | exact fun i => i.queue
    | exact fun i => i.copies
    | exact fun i => i.record
    | exact fun i => i.heads
    | exact fun i => i.memory

theorem keeps_mirrorData {s₀ s : State} (hk : Keeps s₀ s) (w : Nat) : Keeps s₀ (mirrorData w s) := by
  refine hk.trans ?_
  unfold mirrorData
  try dsimp only
  repeat' first
    | with_reducible assumption
    | with_reducible exact Keeps.refl _
    | split
    | with_reducible apply Keeps.inert
    | (intro u x hu)
    | with_reducible apply Keeps.active
    | exact fun i => sound_power i.present rfl
    | exact fun i => have k := sound_return i.present; sound_absent rfl k rfl
    | exact fun i => i.present
    | exact fun i => i.temps
    | exact fun i => i.queue
    | exact fun i => i.copies
    | exact fun i => i.record
    | exact fun i => i.heads
    | exact fun i => i.memory

theorem keeps_writeBytes {s₀ s : State} (h : Keeps s₀ s) (a : Nat) (bs : Bytes) : Keeps s₀ (writeBytes a bs s) :=
  h.trans ⟨rfl, fun i => ⟨wf_writeMem i.memory a bs, i.heads, i.temps, i.queue, i.present, i.record, i.copies⟩⟩

theorem keeps_hostWrites {s₀ s : State} (h : Keeps s₀ s) (ws : List Host.Cell) : Keeps s₀ (hostWrites ws s) :=
  h.trans ⟨rfl, fun i => ⟨wf_overlay i.memory ws, i.heads, i.temps, i.queue, i.present, i.record, i.copies⟩⟩

theorem keeps_clearLanes {s₀ s : State} (hk : Keeps s₀ s) : Keeps s₀ (clearLanes s) := by
  refine hk.trans ?_
  unfold clearLanes
  try dsimp only
  repeat' first
    | with_reducible assumption
    | with_reducible exact Keeps.refl _
    | split
    | with_reducible apply Keeps.inert
    | (intro u x hu)
    | with_reducible apply Keeps.active
    | exact fun i => sound_power i.present rfl
    | exact fun i => have k := sound_return i.present; sound_absent rfl k rfl
    | exact fun i => i.present
    | exact fun i => i.temps
    | exact fun i => i.queue
    | exact fun i => i.copies
    | exact fun i => i.record
    | exact fun i => i.heads
    | exact fun i => i.memory

theorem keeps_clearColumns {s₀ s : State} (hk : Keeps s₀ s) : Keeps s₀ (clearColumns s) := by
  refine hk.trans ?_
  unfold clearColumns
  try dsimp only
  repeat' first
    | with_reducible assumption
    | with_reducible exact Keeps.refl _
    | split
    | with_reducible apply Keeps.inert
    | (intro u x hu)
    | with_reducible apply Keeps.active
    | exact fun i => sound_power i.present rfl
    | exact fun i => have k := sound_return i.present; sound_absent rfl k rfl
    | exact fun i => i.present
    | exact fun i => i.temps
    | exact fun i => i.queue
    | exact fun i => i.copies
    | exact fun i => i.record
    | exact fun i => i.heads
    | exact fun i => i.memory

theorem keeps_countStep {s₀ s : State} (hk : Keeps s₀ s) (k : Nat) : Keeps s₀ (countStep k s) := by
  refine hk.trans ?_
  unfold countStep
  try dsimp only
  repeat' first
    | with_reducible assumption
    | with_reducible exact Keeps.refl _
    | split
    | with_reducible apply Keeps.inert
    | (intro u x hu)
    | with_reducible apply Keeps.active
    | exact fun i => sound_power i.present rfl
    | exact fun i => have k := sound_return i.present; sound_absent rfl k rfl
    | exact fun i => i.present
    | exact fun i => i.temps
    | exact fun i => i.queue
    | exact fun i => i.copies
    | exact fun i => i.record
    | exact fun i => i.heads
    | exact fun i => i.memory

theorem keeps_countPower {s₀ s : State} (hk : Keeps s₀ s) : Keeps s₀ (countPower s) := by
  refine hk.trans ?_
  unfold countPower
  try dsimp only
  repeat' first
    | with_reducible assumption
    | with_reducible exact Keeps.refl _
    | split
    | with_reducible apply keeps_count
    | with_reducible apply keeps_countStep
    | with_reducible apply Keeps.inert
    | (intro u x hu)
    | with_reducible apply Keeps.active
    | exact fun i => sound_power i.present rfl
    | exact fun i => have k := sound_return i.present; sound_absent rfl k rfl
    | exact fun i => i.present
    | exact fun i => i.temps
    | exact fun i => i.queue
    | exact fun i => i.copies
    | exact fun i => i.record
    | exact fun i => i.heads
    | exact fun i => i.memory

theorem keeps_slowCycle {s₀ s : State} (hk : Keeps s₀ s) : Keeps s₀ (slowCycle s) := by
  refine hk.trans ?_
  unfold slowCycle
  try dsimp only
  repeat' first
    | with_reducible assumption
    | with_reducible exact Keeps.refl _
    | split
    | with_reducible apply keeps_countPower
    | with_reducible apply Keeps.inert
    | (intro u x hu)
    | with_reducible apply Keeps.active
    | exact fun i => sound_power i.present rfl
    | exact fun i => have k := sound_return i.present; sound_absent rfl k rfl
    | exact fun i => i.present
    | exact fun i => i.temps
    | exact fun i => i.queue
    | exact fun i => i.copies
    | exact fun i => i.record
    | exact fun i => i.heads
    | exact fun i => i.memory

theorem keeps_slowEdge {s₀ s : State} (hk : Keeps s₀ s) : Keeps s₀ (slowEdge s) := by
  refine hk.trans ?_
  unfold slowEdge
  try dsimp only
  repeat' first
    | with_reducible assumption
    | with_reducible exact Keeps.refl _
    | split
    | with_reducible apply keeps_slowCycle
    | with_reducible apply Keeps.inert
    | (intro u x hu)
    | with_reducible apply Keeps.active
    | exact fun i => sound_power i.present rfl
    | exact fun i => have k := sound_return i.present; sound_absent rfl k rfl
    | exact fun i => i.present
    | exact fun i => i.temps
    | exact fun i => i.queue
    | exact fun i => i.copies
    | exact fun i => i.record
    | exact fun i => i.heads
    | exact fun i => i.memory

theorem keeps_idle {s₀ s : State} (hk : Keeps s₀ s) : Keeps s₀ (idle s) := by
  refine hk.trans ?_
  unfold idle
  try dsimp only
  repeat' first
    | with_reducible assumption
    | with_reducible exact Keeps.refl _
    | split
    | with_reducible apply keeps_slowCycle
    | with_reducible apply Keeps.inert
    | (intro u x hu)
    | with_reducible apply Keeps.active
    | exact fun i => sound_power i.present rfl
    | exact fun i => have k := sound_return i.present; sound_absent rfl k rfl
    | exact fun i => i.present
    | exact fun i => i.temps
    | exact fun i => i.queue
    | exact fun i => i.copies
    | exact fun i => i.record
    | exact fun i => i.heads
    | exact fun i => i.memory

end Sys2Proof.Machine
end

