-- ==== Sys2Proof/Laws/KeepsMortar.lean ====
section
/-! SUPPORT. The effects of Machine/Mortar.lean keep the queue and the invariant. -/

namespace Sys2Proof.Machine

theorem keeps_setPeer {s₀ s : State} (hk : Keeps s₀ s) (p : Nat) (x : Peer) : Keeps s₀ (setPeer p x s) := by
  refine hk.trans ?_
  unfold setPeer
  try dsimp only
  repeat' first
    | with_reducible assumption
    | with_reducible exact Keeps.refl _
    | split
    | with_reducible apply Keeps.inert
    | (intro u x hu)
    | with_reducible apply Keeps.active
    | exact fun i => sound_power i.present rfl
    | exact fun i => have k := sound_return i.present; sound_absent rfl k rfl
    | exact fun i => i.present
    | exact fun i => i.temps
    | exact fun i => i.queue
    | exact fun i => i.copies
    | exact fun i => i.record
    | exact fun i => i.heads
    | exact fun i => i.memory

theorem keeps_emit {s₀ s : State} (hk : Keeps s₀ s) (m : Bytes) : Keeps s₀ (emit m s) := by
  refine hk.trans ?_
  unfold emit
  try dsimp only
  repeat' first
    | with_reducible assumption
    | with_reducible exact Keeps.refl _
    | split
    | with_reducible apply Keeps.inert
    | (intro u x hu)
    | with_reducible apply Keeps.active
    | exact fun i => sound_power i.present rfl
    | exact fun i => have k := sound_return i.present; sound_absent rfl k rfl
    | exact fun i => i.present
    | exact fun i => i.temps
    | exact fun i => i.queue
    | exact fun i => i.copies
    | exact fun i => i.record
    | exact fun i => i.heads
    | exact fun i => i.memory

theorem keeps_linkFlit {s₀ s : State} (hk : Keeps s₀ s) (typ reason dst seq : Nat) : Keeps s₀ (linkFlit typ reason dst seq s) := by
  refine hk.trans ?_
  unfold linkFlit
  try dsimp only
  repeat' first
    | with_reducible assumption
    | with_reducible exact Keeps.refl _
    | split
    | with_reducible apply keeps_emit
    | with_reducible apply Keeps.inert
    | (intro u x hu)
    | with_reducible apply Keeps.active
    | exact fun i => sound_power i.present rfl
    | exact fun i => have k := sound_return i.present; sound_absent rfl k rfl
    | exact fun i => i.present
    | exact fun i => i.temps
    | exact fun i => i.queue
    | exact fun i => i.copies
    | exact fun i => i.record
    | exact fun i => i.heads
    | exact fun i => i.memory

theorem keeps_post {s₀ s : State} (hk : Keeps s₀ s) (dst : Nat) (m : Bytes) : Keeps s₀ (post dst m s) := by
  refine hk.trans ?_
  unfold post
  try dsimp only
  repeat' first
    | with_reducible assumption
    | with_reducible exact Keeps.refl _
    | split
    | with_reducible apply keeps_emit
    | with_reducible apply keeps_setPeer
    | with_reducible apply Keeps.inert
    | (intro u x hu)
    | with_reducible apply Keeps.active
    | exact fun i => sound_power i.present rfl
    | exact fun i => have k := sound_return i.present; sound_absent rfl k rfl
    | exact fun i => i.present
    | exact fun i => i.temps
    | exact fun i => i.queue
    | exact fun i => i.copies
    | exact fun i => i.record
    | exact fun i => i.heads
    | exact fun i => i.memory

theorem keeps_sendMsg {s₀ s : State} (hk : Keeps s₀ s) (typ dst : Nat) (payload : Bytes) : Keeps s₀ (sendMsg typ dst payload s) := by
  refine hk.trans ?_
  unfold sendMsg
  try dsimp only
  repeat' first
    | with_reducible assumption
    | with_reducible exact Keeps.refl _
    | split
    | with_reducible apply keeps_count
    | with_reducible apply keeps_post
    | with_reducible apply keeps_setPeer
    | with_reducible apply Keeps.inert
    | (intro u x hu)
    | with_reducible apply Keeps.active
    | exact fun i => sound_power i.present rfl
    | exact fun i => have k := sound_return i.present; sound_absent rfl k rfl
    | exact fun i => i.present
    | exact fun i => i.temps
    | exact fun i => i.queue
    | exact fun i => i.copies
    | exact fun i => i.record
    | exact fun i => i.heads
    | exact fun i => i.memory

theorem keeps_dropLate {s₀ s : State} (hk : Keeps s₀ s) (p : Nat) : Keeps s₀ (dropLate p s) := by
  refine hk.trans ?_
  unfold dropLate
  try dsimp only
  repeat' first
    | with_reducible assumption
    | with_reducible exact Keeps.refl _
    | split
    | with_reducible apply Keeps.inert
    | (intro u x hu)
    | with_reducible apply Keeps.active
    | exact fun i => sound_power i.present rfl
    | exact fun i => have k := sound_return i.present; sound_absent rfl k rfl
    | exact fun i => i.present
    | exact fun i => i.temps
    | exact fun i => i.queue
    | exact fun i => i.copies
    | exact fun i => i.record
    | exact fun i => i.heads
    | exact fun i => i.memory

theorem keeps_noteSent {s₀ s : State} (hk : Keeps s₀ s) (m : Bytes) : Keeps s₀ (noteSent m s) := by
  refine hk.trans ?_
  unfold noteSent
  try dsimp only
  repeat' first
    | with_reducible assumption
    | with_reducible exact Keeps.refl _
    | split
    | with_reducible apply keeps_setPeer
    | with_reducible apply Keeps.inert
    | (intro u x hu)
    | with_reducible apply Keeps.active
    | exact fun i => sound_power i.present rfl
    | exact fun i => have k := sound_return i.present; sound_absent rfl k rfl
    | exact fun i => i.present
    | exact fun i => i.temps
    | exact fun i => i.queue
    | exact fun i => i.copies
    | exact fun i => i.record
    | exact fun i => i.heads
    | exact fun i => i.memory

theorem keeps_sendHeld {s₀ s : State} (hk : Keeps s₀ s) (m : Bytes) : Keeps s₀ (sendHeld m s) := by
  refine hk.trans ?_
  unfold sendHeld
  try dsimp only
  repeat' first
    | with_reducible assumption
    | with_reducible exact Keeps.refl _
    | split
    | with_reducible apply keeps_noteSent
    | with_reducible apply Keeps.inert
    | (intro u x hu)
    | with_reducible apply Keeps.active
    | exact fun i => sound_power i.present rfl
    | exact fun i => have k := sound_return i.present; sound_absent rfl k rfl
    | exact fun i => i.present
    | exact fun i => i.temps
    | exact fun i => i.queue
    | exact fun i => i.copies
    | exact fun i => i.record
    | exact fun i => i.heads
    | exact fun i => i.memory

theorem keeps_sendLate {s₀ s : State} (hk : Keeps s₀ s) : Keeps s₀ (sendLate s) := by
  refine hk.trans ?_
  unfold sendLate
  try dsimp only
  repeat' first
    | with_reducible assumption
    | with_reducible exact Keeps.refl _
    | split
    | with_reducible apply keeps_sendHeld
    | (with_reducible apply keeps_foldl)
    | with_reducible apply Keeps.inert
    | (intro u x hu)
    | with_reducible apply Keeps.active
    | exact fun i => sound_power i.present rfl
    | exact fun i => have k := sound_return i.present; sound_absent rfl k rfl
    | exact fun i => i.present
    | exact fun i => i.temps
    | exact fun i => i.queue
    | exact fun i => i.copies
    | exact fun i => i.record
    | exact fun i => i.heads
    | exact fun i => i.memory

theorem keeps_broadcastDiscover {s₀ s : State} (hk : Keeps s₀ s) : Keeps s₀ (broadcastDiscover s) := by
  refine hk.trans ?_
  unfold broadcastDiscover
  try dsimp only
  repeat' first
    | with_reducible assumption
    | with_reducible exact Keeps.refl _
    | split
    | with_reducible apply keeps_count
    | with_reducible apply keeps_emit
    | with_reducible apply Keeps.inert
    | (intro u x hu)
    | with_reducible apply Keeps.active
    | exact fun i => sound_power i.present rfl
    | exact fun i => have k := sound_return i.present; sound_absent rfl k rfl
    | exact fun i => i.present
    | exact fun i => i.temps
    | exact fun i => i.queue
    | exact fun i => i.copies
    | exact fun i => i.record
    | exact fun i => i.heads
    | exact fun i => i.memory

theorem keeps_sendAll {s₀ s : State} (hk : Keeps s₀ s) (typ : Nat) (dsts : List Nat) (payload : Bytes) : Keeps s₀ (sendAll typ dsts payload s) := by
  refine hk.trans ?_
  unfold sendAll
  try dsimp only
  repeat' first
    | with_reducible assumption
    | with_reducible exact Keeps.refl _
    | split
    | with_reducible apply keeps_sendMsg
    | (with_reducible apply keeps_foldl)
    | with_reducible apply Keeps.inert
    | (intro u x hu)
    | with_reducible apply Keeps.active
    | exact fun i => sound_power i.present rfl
    | exact fun i => have k := sound_return i.present; sound_absent rfl k rfl
    | exact fun i => i.present
    | exact fun i => i.temps
    | exact fun i => i.queue
    | exact fun i => i.copies
    | exact fun i => i.record
    | exact fun i => i.heads
    | exact fun i => i.memory

theorem keeps_announceCaps {s₀ s : State} (hk : Keeps s₀ s) (old : State) : Keeps s₀ (announceCaps old s) := by
  refine hk.trans ?_
  unfold announceCaps
  try dsimp only
  repeat' first
    | with_reducible assumption
    | with_reducible exact Keeps.refl _
    | split
    | with_reducible apply keeps_sendAll
    | with_reducible apply Keeps.inert
    | (intro u x hu)
    | with_reducible apply Keeps.active
    | exact fun i => sound_power i.present rfl
    | exact fun i => have k := sound_return i.present; sound_absent rfl k rfl
    | exact fun i => i.present
    | exact fun i => i.temps
    | exact fun i => i.queue
    | exact fun i => i.copies
    | exact fun i => i.record
    | exact fun i => i.heads
    | exact fun i => i.memory

theorem keeps_takeTree {s₀ s : State} (hk : Keeps s₀ s) (number : Nat) : Keeps s₀ (takeTree number s) := by
  refine hk.trans ?_
  unfold takeTree
  try dsimp only
  repeat' first
    | with_reducible assumption
    | with_reducible exact Keeps.refl _
    | split
    | with_reducible apply Keeps.inert
    | (intro u x hu)
    | with_reducible apply Keeps.active
    | exact fun i => sound_power i.present rfl
    | exact fun i => have k := sound_return i.present; sound_absent rfl k rfl
    | exact fun i => i.present
    | exact fun i => i.temps
    | exact fun i => i.queue
    | exact fun i => i.copies
    | exact fun i => i.record
    | exact fun i => i.heads
    | exact fun i => i.memory

theorem keeps_reorderTree {s₀ s : State} (hk : Keeps s₀ s) : Keeps s₀ (reorderTree s) := by
  refine hk.trans ?_
  unfold reorderTree
  try dsimp only
  repeat' first
    | with_reducible assumption
    | with_reducible exact Keeps.refl _
    | split
    | with_reducible apply keeps_sendAll
    | (with_reducible apply keeps_foldl)
    | with_reducible apply Keeps.inert
    | (intro u x hu)
    | with_reducible apply Keeps.active
    | exact fun i => sound_power i.present rfl
    | exact fun i => have k := sound_return i.present; sound_absent rfl k rfl
    | exact fun i => i.present
    | exact fun i => i.temps
    | exact fun i => i.queue
    | exact fun i => i.copies
    | exact fun i => i.record
    | exact fun i => i.heads
    | exact fun i => i.memory

theorem keeps_peerDown {s₀ s : State} (hk : Keeps s₀ s) (p st : Nat) : Keeps s₀ (peerDown p st s) := by
  refine hk.trans ?_
  unfold peerDown
  try dsimp only
  repeat' first
    | with_reducible assumption
    | with_reducible exact Keeps.refl _
    | split
    | with_reducible apply keeps_dropLate
    | with_reducible apply keeps_setPeer
    | with_reducible apply keeps_raiseCount
    | with_reducible apply keeps_raiseArgs
    | with_reducible apply Keeps.inert
    | (intro u x hu)
    | with_reducible apply Keeps.active
    | exact fun i => sound_power i.present rfl
    | exact fun i => have k := sound_return i.present; sound_absent rfl k rfl
    | exact fun i => i.present
    | exact fun i => i.temps
    | exact fun i => i.queue
    | exact fun i => i.copies
    | exact fun i => i.record
    | exact fun i => i.heads
    | exact fun i => i.memory

theorem keeps_checkTakeover {s₀ s : State} (hk : Keeps s₀ s) : Keeps s₀ (checkTakeover s) := by
  refine hk.trans ?_
  unfold checkTakeover
  try dsimp only
  repeat' first
    | with_reducible assumption
    | with_reducible exact Keeps.refl _
    | split
    | with_reducible apply keeps_raiseArgs
    | (with_reducible apply keeps_foldl)
    | with_reducible apply Keeps.inert
    | (intro u x hu)
    | with_reducible apply Keeps.active
    | exact fun i => sound_power i.present rfl
    | exact fun i => have k := sound_return i.present; sound_absent rfl k rfl
    | exact fun i => i.present
    | exact fun i => i.temps
    | exact fun i => i.queue
    | exact fun i => i.copies
    | exact fun i => i.record
    | exact fun i => i.heads
    | exact fun i => i.memory

theorem keeps_stale {s₀ s : State} (hk : Keeps s₀ s) : Keeps s₀ (stale s) := by
  refine hk.trans ?_
  unfold stale
  try dsimp only
  repeat' first
    | with_reducible assumption
    | with_reducible exact Keeps.refl _
    | split
    | with_reducible apply keeps_count
    | with_reducible apply Keeps.inert
    | (intro u x hu)
    | with_reducible apply Keeps.active
    | exact fun i => sound_power i.present rfl
    | exact fun i => have k := sound_return i.present; sound_absent rfl k rfl
    | exact fun i => i.present
    | exact fun i => i.temps
    | exact fun i => i.queue
    | exact fun i => i.copies
    | exact fun i => i.record
    | exact fun i => i.heads
    | exact fun i => i.memory

theorem keeps_takeDiscover {s₀ s : State} (hk : Keeps s₀ s) (src : Nat) (pl : Bytes) : Keeps s₀ (takeDiscover src pl s) := by
  refine hk.trans ?_
  unfold takeDiscover
  try dsimp only
  repeat' first
    | with_reducible assumption
    | with_reducible exact Keeps.refl _
    | split
    | with_reducible apply keeps_stale
    | with_reducible apply keeps_sendMsg
    | with_reducible apply keeps_setPeer
    | with_reducible apply Keeps.inert
    | (intro u x hu)
    | with_reducible apply Keeps.active
    | exact fun i => sound_power i.present rfl
    | exact fun i => have k := sound_return i.present; sound_absent rfl k rfl
    | exact fun i => i.present
    | exact fun i => i.temps
    | exact fun i => i.queue
    | exact fun i => i.copies
    | exact fun i => i.record
    | exact fun i => i.heads
    | exact fun i => i.memory

theorem keeps_takeCaps {s₀ s : State} (hk : Keeps s₀ s) (src : Nat) (pl : Bytes) : Keeps s₀ (takeCaps src pl s) := by
  refine hk.trans ?_
  unfold takeCaps
  try dsimp only
  repeat' first
    | with_reducible assumption
    | with_reducible exact Keeps.refl _
    | split
    | with_reducible apply keeps_stale
    | with_reducible apply keeps_setPeer
    | with_reducible apply keeps_raiseArgs
    | with_reducible apply keeps_sendMsg
    | with_reducible apply Keeps.inert
    | (intro u x hu)
    | with_reducible apply Keeps.active
    | exact fun i => sound_power i.present rfl
    | exact fun i => have k := sound_return i.present; sound_absent rfl k rfl
    | exact fun i => i.present
    | exact fun i => i.temps
    | exact fun i => i.queue
    | exact fun i => i.copies
    | exact fun i => i.record
    | exact fun i => i.heads
    | exact fun i => i.memory

theorem keeps_takeHeartbeat {s₀ s : State} (hk : Keeps s₀ s) (src sent : Nat) (pl : Bytes) : Keeps s₀ (takeHeartbeat src sent pl s) := by
  refine hk.trans ?_
  unfold takeHeartbeat
  try dsimp only
  repeat' first
    | with_reducible assumption
    | with_reducible exact Keeps.refl _
    | split
    | with_reducible apply keeps_stale
    | with_reducible apply keeps_sendMsg
    | with_reducible apply keeps_setPeer
    | with_reducible apply Keeps.inert
    | (intro u x hu)
    | with_reducible apply Keeps.active
    | exact fun i => sound_power i.present rfl
    | exact fun i => have k := sound_return i.present; sound_absent rfl k rfl
    | exact fun i => i.present
    | exact fun i => i.temps
    | exact fun i => i.queue
    | exact fun i => i.copies
    | exact fun i => i.record
    | exact fun i => i.heads
    | exact fun i => i.memory

theorem keeps_takeBondUpdate {s₀ s : State} (hk : Keeps s₀ s) (src : Nat) (pl : Bytes) : Keeps s₀ (takeBondUpdate src pl s) := by
  refine hk.trans ?_
  unfold takeBondUpdate
  try dsimp only
  repeat' first
    | with_reducible assumption
    | with_reducible exact Keeps.refl _
    | split
    | with_reducible apply keeps_stale
    | with_reducible apply keeps_setPeer
    | with_reducible apply Keeps.inert
    | (intro u x hu)
    | with_reducible apply Keeps.active
    | exact fun i => sound_power i.present rfl
    | exact fun i => have k := sound_return i.present; sound_absent rfl k rfl
    | exact fun i => i.present
    | exact fun i => i.temps
    | exact fun i => i.queue
    | exact fun i => i.copies
    | exact fun i => i.record
    | exact fun i => i.heads
    | exact fun i => i.memory

theorem keeps_noteOdd {s₀ s : State} (h : Keeps s₀ s) (n : Nat) : Keeps s₀ (noteOdd n s) := by
  induction n generalizing s with
  | zero => exact h
  | succ n ih => exact ih (keeps_raiseCount h _ _ _ _ _)

end Sys2Proof.Machine
end

