-- ==== Sys2Proof/Laws/KeepsHeads.lean ====
section
/-! SUPPORT. The effects of Machine/Heads.lean keep the queue and the invariant. -/

namespace Sys2Proof.Machine

theorem keeps_refuseStart {s₀ s : State} (hk : Keeps s₀ s) : Keeps s₀ (refuseStart s) := by
  refine hk.trans ?_
  unfold refuseStart
  try dsimp only
  repeat' first
    | with_reducible assumption
    | with_reducible exact Keeps.refl _
    | split
    | with_reducible apply keeps_raiseCount
    | with_reducible apply Keeps.inert
    | (intro u x hu)
    | with_reducible apply Keeps.active
    | exact fun i => sound_power i.present rfl
    | exact fun i => have k := sound_return i.present; sound_absent rfl k rfl
    | exact fun i => i.present
    | exact fun i => i.temps
    | exact fun i => i.queue
    | exact fun i => i.copies
    | exact fun i => i.record
    | exact fun i => i.heads
    | exact fun i => i.memory

theorem keeps_refuseBy {s₀ s : State} (hk : Keeps s₀ s) (byGo : Bool) : Keeps s₀ (refuseBy byGo s) := by
  refine hk.trans ?_
  unfold refuseBy
  try dsimp only
  repeat' first
    | with_reducible assumption
    | with_reducible exact Keeps.refl _
    | split
    | with_reducible apply keeps_refuseStart
    | with_reducible apply keeps_reject
    | with_reducible apply Keeps.inert
    | (intro u x hu)
    | with_reducible apply Keeps.active
    | exact fun i => sound_power i.present rfl
    | exact fun i => have k := sound_return i.present; sound_absent rfl k rfl
    | exact fun i => i.present
    | exact fun i => i.temps
    | exact fun i => i.queue
    | exact fun i => i.copies
    | exact fun i => i.record
    | exact fun i => i.heads
    | exact fun i => i.memory

theorem keeps_clearStarts {s₀ s : State} (hk : Keeps s₀ s) : Keeps s₀ (clearStarts s) := by
  refine hk.trans ?_
  unfold clearStarts
  try dsimp only
  repeat' first
    | with_reducible assumption
    | with_reducible exact Keeps.refl _
    | split
    | with_reducible apply keeps_refuseBy
    | (with_reducible apply keeps_foldl)
    | with_reducible apply Keeps.inert
    | (intro u x hu)
    | with_reducible apply Keeps.active
    | exact fun i => sound_power i.present rfl
    | exact fun i => have k := sound_return i.present; sound_absent rfl k rfl
    | exact fun i => i.present
    | exact fun i => i.temps
    | exact fun i => i.queue
    | exact fun i => i.copies
    | exact fun i => i.record
    | exact fun i => i.heads
    | exact fun i => i.memory

theorem keeps_startWake {s₀ s : State} (hk : Keeps s₀ s) (cycles : Nat) : Keeps s₀ (startWake cycles s) := by
  refine hk.trans ?_
  unfold startWake
  try dsimp only
  repeat' first
    | with_reducible assumption
    | with_reducible exact Keeps.refl _
    | split
    | with_reducible apply Keeps.inert
    | (intro u x hu)
    | with_reducible apply Keeps.active
    | exact fun i => sound_power i.present rfl
    | exact fun i => have k := sound_return i.present; sound_absent rfl k rfl
    | exact fun i => i.present
    | exact fun i => i.temps
    | exact fun i => i.queue
    | exact fun i => i.copies
    | exact fun i => i.record
    | exact fun i => i.heads
    | exact fun i => i.memory

theorem keeps_wake {s₀ s : State} (hk : Keeps s₀ s) : Keeps s₀ (wake s) := by
  refine hk.trans ?_
  unfold wake
  try dsimp only
  repeat' first
    | with_reducible assumption
    | with_reducible exact Keeps.refl _
    | split
    | with_reducible apply keeps_count
    | with_reducible apply keeps_startWake
    | with_reducible apply Keeps.inert
    | (intro u x hu)
    | with_reducible apply Keeps.active
    | exact fun i => sound_power i.present rfl
    | exact fun i => have k := sound_return i.present; sound_absent rfl k rfl
    | exact fun i => i.present
    | exact fun i => i.temps
    | exact fun i => i.queue
    | exact fun i => i.copies
    | exact fun i => i.record
    | exact fun i => i.heads
    | exact fun i => i.memory

theorem keeps_setHead {s₀ s : State} (hk : Keeps s₀ s) (i : Nat) (h : HeadSlot) : Keeps s₀ (setHead i h s) :=
  hk.trans ⟨rfl, fun j => ⟨j.memory, (List.length_set ..).trans j.heads, j.temps, j.queue, j.present, j.record, j.copies⟩⟩

theorem keeps_startSwap {s₀ s : State} (hk : Keeps s₀ s) (i : Nat) (l : SlotLayout) : Keeps s₀ (startSwap i l s) := by
  refine hk.trans ?_
  unfold startSwap
  try dsimp only
  repeat' first
    | with_reducible assumption
    | with_reducible exact Keeps.refl _
    | split
    | with_reducible apply keeps_wake
    | with_reducible apply keeps_setHead
    | with_reducible apply keeps_raiseArgs
    | with_reducible apply keeps_reject
    | with_reducible apply Keeps.inert
    | (intro u x hu)
    | with_reducible apply Keeps.active
    | exact fun i => sound_power i.present rfl
    | exact fun i => have k := sound_return i.present; sound_absent rfl k rfl
    | exact fun i => i.present
    | exact fun i => i.temps
    | exact fun i => i.queue
    | exact fun i => i.copies
    | exact fun i => i.record
    | exact fun i => i.heads
    | exact fun i => i.memory

theorem keeps_clearSlot {s₀ s : State} (hk : Keeps s₀ s) (i state : Nat) : Keeps s₀ (clearSlot i state s) := by
  refine hk.trans ?_
  unfold clearSlot
  try dsimp only
  repeat' first
    | with_reducible assumption
    | with_reducible exact Keeps.refl _
    | split
    | with_reducible apply keeps_setHead
    | with_reducible apply Keeps.inert
    | (intro u x hu)
    | with_reducible apply Keeps.active
    | exact fun i => sound_power i.present rfl
    | exact fun i => have k := sound_return i.present; sound_absent rfl k rfl
    | exact fun i => i.present
    | exact fun i => i.temps
    | exact fun i => i.queue
    | exact fun i => i.copies
    | exact fun i => i.record
    | exact fun i => i.heads
    | exact fun i => i.memory

theorem keeps_emptySlot {s₀ s : State} (hk : Keeps s₀ s) (i : Nat) : Keeps s₀ (emptySlot i s) := by
  refine hk.trans ?_
  unfold emptySlot
  try dsimp only
  repeat' first
    | with_reducible assumption
    | with_reducible exact Keeps.refl _
    | split
    | with_reducible apply keeps_clearSlot
    | with_reducible apply Keeps.inert
    | (intro u x hu)
    | with_reducible apply Keeps.active
    | exact fun i => sound_power i.present rfl
    | exact fun i => have k := sound_return i.present; sound_absent rfl k rfl
    | exact fun i => i.present
    | exact fun i => i.temps
    | exact fun i => i.queue
    | exact fun i => i.copies
    | exact fun i => i.record
    | exact fun i => i.heads
    | exact fun i => i.memory

theorem keeps_emptyAllSlots {s₀ s : State} (hk : Keeps s₀ s) : Keeps s₀ (emptyAllSlots s) := by
  refine hk.trans ?_
  unfold emptyAllSlots
  try dsimp only
  repeat' first
    | with_reducible assumption
    | with_reducible exact Keeps.refl _
    | split
    | with_reducible apply keeps_emptySlot
    | (with_reducible apply keeps_foldl)
    | with_reducible apply Keeps.inert
    | (intro u x hu)
    | with_reducible apply Keeps.active
    | exact fun i => sound_power i.present rfl
    | exact fun i => have k := sound_return i.present; sound_absent rfl k rfl
    | exact fun i => i.present
    | exact fun i => i.temps
    | exact fun i => i.queue
    | exact fun i => i.copies
    | exact fun i => i.record
    | exact fun i => i.heads
    | exact fun i => i.memory

theorem keeps_loadSlot {s₀ s : State} (hk : Keeps s₀ s) (i : Nat) : Keeps s₀ (loadSlot i s) := by
  refine hk.trans ?_
  unfold loadSlot
  try dsimp only
  repeat' first
    | with_reducible assumption
    | with_reducible exact Keeps.refl _
    | split
    | with_reducible apply keeps_raiseArgs
    | with_reducible apply keeps_setHead
    | with_reducible apply Keeps.inert
    | (intro u x hu)
    | with_reducible apply Keeps.active
    | exact fun i => sound_power i.present rfl
    | exact fun i => have k := sound_return i.present; sound_absent rfl k rfl
    | exact fun i => i.present
    | exact fun i => i.temps
    | exact fun i => i.queue
    | exact fun i => i.copies
    | exact fun i => i.record
    | exact fun i => i.heads
    | exact fun i => i.memory

theorem keeps_loadFinished {s₀ s : State} (hk : Keeps s₀ s) : Keeps s₀ (loadFinished s) := by
  refine hk.trans ?_
  unfold loadFinished
  try dsimp only
  repeat' first
    | with_reducible assumption
    | with_reducible exact Keeps.refl _
    | split
    | with_reducible apply keeps_loadSlot
    | (with_reducible apply keeps_foldl)
    | with_reducible apply Keeps.inert
    | (intro u x hu)
    | with_reducible apply Keeps.active
    | exact fun i => sound_power i.present rfl
    | exact fun i => have k := sound_return i.present; sound_absent rfl k rfl
    | exact fun i => i.present
    | exact fun i => i.temps
    | exact fun i => i.queue
    | exact fun i => i.copies
    | exact fun i => i.record
    | exact fun i => i.heads
    | exact fun i => i.memory

theorem keeps_failSlots {s₀ s : State} (hk : Keeps s₀ s) : Keeps s₀ (failSlots s) := by
  refine hk.trans ?_
  unfold failSlots
  try dsimp only
  repeat' first
    | with_reducible assumption
    | with_reducible exact Keeps.refl _
    | split
    | with_reducible apply keeps_setHead
    | with_reducible apply keeps_clearSlot
    | (with_reducible apply keeps_foldl)
    | with_reducible apply Keeps.inert
    | (intro u x hu)
    | with_reducible apply Keeps.active
    | exact fun i => sound_power i.present rfl
    | exact fun i => have k := sound_return i.present; sound_absent rfl k rfl
    | exact fun i => i.present
    | exact fun i => i.temps
    | exact fun i => i.queue
    | exact fun i => i.copies
    | exact fun i => i.record
    | exact fun i => i.heads
    | exact fun i => i.memory

theorem keeps_beginMarch {s₀ s : State} (hk : Keeps s₀ s) : Keeps s₀ (beginMarch s) := by
  refine hk.trans ?_
  unfold beginMarch
  try dsimp only
  repeat' first
    | with_reducible assumption
    | with_reducible exact Keeps.refl _
    | split
    | with_reducible apply keeps_emptyAllSlots
    | with_reducible apply Keeps.inert
    | (intro u x hu)
    | with_reducible apply Keeps.active
    | exact fun i => sound_power i.present rfl
    | exact fun i => have k := sound_return i.present; sound_absent rfl k rfl
    | exact fun i => i.present
    | exact fun i => i.temps
    | exact fun i => i.queue
    | exact fun i => i.copies
    | exact fun i => i.record
    | exact fun i => i.heads
    | exact fun i => i.memory

theorem keeps_tick {s₀ s : State} (hk : Keeps s₀ s) : Keeps s₀ (tick s) := by
  refine hk.trans ?_
  unfold tick
  try dsimp only
  repeat' first
    | with_reducible assumption
    | with_reducible exact Keeps.refl _
    | split
    | with_reducible apply keeps_beginMarch
    | with_reducible apply keeps_idle
    | with_reducible apply Keeps.inert
    | (intro u x hu)
    | with_reducible apply Keeps.active
    | exact fun i => sound_power i.present rfl
    | exact fun i => have k := sound_return i.present; sound_absent rfl k rfl
    | exact fun i => i.present
    | exact fun i => i.temps
    | exact fun i => i.queue
    | exact fun i => i.copies
    | exact fun i => i.record
    | exact fun i => i.heads
    | exact fun i => i.memory

theorem keeps_startHeldSwaps {s₀ s : State} (hk : Keeps s₀ s) : Keeps s₀ (startHeldSwaps s) := by
  refine hk.trans ?_
  unfold startHeldSwaps
  try dsimp only
  repeat' first
    | with_reducible assumption
    | with_reducible exact Keeps.refl _
    | split
    | with_reducible apply keeps_startSwap
    | with_reducible apply keeps_setHead
    | (with_reducible apply keeps_foldl)
    | with_reducible apply Keeps.inert
    | (intro u x hu)
    | with_reducible apply Keeps.active
    | exact fun i => sound_power i.present rfl
    | exact fun i => have k := sound_return i.present; sound_absent rfl k rfl
    | exact fun i => i.present
    | exact fun i => i.temps
    | exact fun i => i.queue
    | exact fun i => i.copies
    | exact fun i => i.record
    | exact fun i => i.heads
    | exact fun i => i.memory

theorem keeps_swapGoEffect {s₀ s : State} (hk : Keeps s₀ s) (i : Nat) : Keeps s₀ (swapGoEffect i s) := by
  refine hk.trans ?_
  unfold swapGoEffect
  try dsimp only
  repeat' first
    | with_reducible assumption
    | with_reducible exact Keeps.refl _
    | split
    | with_reducible apply keeps_reject
    | with_reducible apply keeps_setHead
    | with_reducible apply keeps_startSwap
    | with_reducible apply Keeps.inert
    | (intro u x hu)
    | with_reducible apply Keeps.active
    | exact fun i => sound_power i.present rfl
    | exact fun i => have k := sound_return i.present; sound_absent rfl k rfl
    | exact fun i => i.present
    | exact fun i => i.temps
    | exact fun i => i.queue
    | exact fun i => i.copies
    | exact fun i => i.record
    | exact fun i => i.heads
    | exact fun i => i.memory

theorem keeps_swapAbortEffect {s₀ s : State} (hk : Keeps s₀ s) (i : Nat) : Keeps s₀ (swapAbortEffect i s) := by
  refine hk.trans ?_
  unfold swapAbortEffect
  try dsimp only
  repeat' first
    | with_reducible assumption
    | with_reducible exact Keeps.refl _
    | split
    | with_reducible apply keeps_beginMarch
    | with_reducible apply keeps_raiseArgs
    | with_reducible apply keeps_emptySlot
    | with_reducible apply keeps_setHead
    | with_reducible apply keeps_reject
    | with_reducible apply Keeps.inert
    | (intro u x hu)
    | with_reducible apply Keeps.active
    | exact fun i => sound_power i.present rfl
    | exact fun i => have k := sound_return i.present; sound_absent rfl k rfl
    | exact fun i => i.present
    | exact fun i => i.temps
    | exact fun i => i.queue
    | exact fun i => i.copies
    | exact fun i => i.record
    | exact fun i => i.heads
    | exact fun i => i.memory

theorem keeps_swapSourceError {s₀ s : State} (hk : Keeps s₀ s) (i : Nat) : Keeps s₀ (swapSourceError i s) := by
  refine hk.trans ?_
  unfold swapSourceError
  try dsimp only
  repeat' first
    | with_reducible assumption
    | with_reducible exact Keeps.refl _
    | split
    | with_reducible apply keeps_beginMarch
    | with_reducible apply keeps_raiseArgs
    | with_reducible apply keeps_clearSlot
    | with_reducible apply Keeps.inert
    | (intro u x hu)
    | with_reducible apply Keeps.active
    | exact fun i => sound_power i.present rfl
    | exact fun i => have k := sound_return i.present; sound_absent rfl k rfl
    | exact fun i => i.present
    | exact fun i => i.temps
    | exact fun i => i.queue
    | exact fun i => i.copies
    | exact fun i => i.record
    | exact fun i => i.heads
    | exact fun i => i.memory

theorem keeps_finishSwap {s₀ s : State} (hk : Keeps s₀ s) (i : Nat) : Keeps s₀ (finishSwap i s) := by
  refine hk.trans ?_
  unfold finishSwap
  try dsimp only
  repeat' first
    | with_reducible assumption
    | with_reducible exact Keeps.refl _
    | split
    | with_reducible apply keeps_raiseArgs
    | with_reducible apply keeps_setHead
    | with_reducible apply keeps_loadSlot
    | with_reducible apply Keeps.inert
    | (intro u x hu)
    | with_reducible apply Keeps.active
    | exact fun i => sound_power i.present rfl
    | exact fun i => have k := sound_return i.present; sound_absent rfl k rfl
    | exact fun i => i.present
    | exact fun i => i.temps
    | exact fun i => i.queue
    | exact fun i => i.copies
    | exact fun i => i.record
    | exact fun i => i.heads
    | exact fun i => i.memory

end Sys2Proof.Machine
end

