-- ==== Sys2Proof/Laws/KeepsHistory.lean ====
section
/-! SUPPORT. The effects of Machine/History.lean keep the queue and the invariant. -/

namespace Sys2Proof.Machine

theorem keeps_cacheLine {s₀ s : State} (hk : Keeps s₀ s) (line : Nat) : Keeps s₀ (cacheLine line s) := by
  refine hk.trans ?_
  unfold cacheLine
  try dsimp only
  repeat' first
    | with_reducible assumption
    | with_reducible exact Keeps.refl _
    | split
    | with_reducible apply Keeps.inert
    | (intro u x hu)
    | with_reducible apply Keeps.active
    | exact fun i => sound_power i.present rfl
    | exact fun i => have k := sound_return i.present; sound_absent rfl k rfl
    | exact fun i => i.present
    | exact fun i => i.temps
    | exact fun i => i.queue
    | exact fun i => i.copies
    | exact fun i => i.record
    | exact fun i => i.heads
    | exact fun i => i.memory

theorem keeps_cacheRange {s₀ s : State} (hk : Keeps s₀ s) (a n : Nat) : Keeps s₀ (cacheRange a n s) := by
  refine hk.trans ?_
  unfold cacheRange
  try dsimp only
  repeat' first
    | with_reducible assumption
    | with_reducible exact Keeps.refl _
    | split
    | with_reducible apply keeps_cacheLine
    | (with_reducible apply keeps_foldl)
    | with_reducible apply Keeps.inert
    | (intro u x hu)
    | with_reducible apply Keeps.active
    | exact fun i => sound_power i.present rfl
    | exact fun i => have k := sound_return i.present; sound_absent rfl k rfl
    | exact fun i => i.present
    | exact fun i => i.temps
    | exact fun i => i.queue
    | exact fun i => i.copies
    | exact fun i => i.record
    | exact fun i => i.heads
    | exact fun i => i.memory

theorem keeps_setContext {s₀ s : State} (hk : Keeps s₀ s) (slot : Nat) (c : Context) : Keeps s₀ (setContext slot c s) := by
  refine hk.trans ?_
  unfold setContext
  try dsimp only
  repeat' first
    | with_reducible assumption
    | with_reducible exact Keeps.refl _
    | split
    | with_reducible apply Keeps.inert
    | (intro u x hu)
    | with_reducible apply Keeps.active
    | exact fun i => sound_power i.present rfl
    | exact fun i => have k := sound_return i.present; sound_absent rfl k rfl
    | exact fun i => i.present
    | exact fun i => i.temps
    | exact fun i => i.queue
    | exact fun i => i.copies
    | exact fun i => i.record
    | exact fun i => i.heads
    | exact fun i => i.memory

theorem keeps_dirtySlot {s₀ s : State} (hk : Keeps s₀ s) (slot : Nat) : Keeps s₀ (dirtySlot slot s) := by
  refine hk.trans ?_
  unfold dirtySlot
  try dsimp only
  repeat' first
    | with_reducible assumption
    | with_reducible exact Keeps.refl _
    | split
    | with_reducible apply Keeps.inert
    | (intro u x hu)
    | with_reducible apply Keeps.active
    | exact fun i => sound_power i.present rfl
    | exact fun i => have k := sound_return i.present; sound_absent rfl k rfl
    | exact fun i => i.present
    | exact fun i => i.temps
    | exact fun i => i.queue
    | exact fun i => i.copies
    | exact fun i => i.record
    | exact fun i => i.heads
    | exact fun i => i.memory

theorem keeps_dirtyKeys {s₀ s : State} (hk : Keeps s₀ s) (keys : List Nat) : Keeps s₀ (dirtyKeys keys s) := by
  refine hk.trans ?_
  unfold dirtyKeys
  try dsimp only
  repeat' first
    | with_reducible assumption
    | with_reducible exact Keeps.refl _
    | split
    | with_reducible apply Keeps.inert
    | (intro u x hu)
    | with_reducible apply Keeps.active
    | exact fun i => sound_power i.present rfl
    | exact fun i => have k := sound_return i.present; sound_absent rfl k rfl
    | exact fun i => i.present
    | exact fun i => i.temps
    | exact fun i => i.queue
    | exact fun i => i.copies
    | exact fun i => i.record
    | exact fun i => i.heads
    | exact fun i => i.memory

theorem keeps_dirtyNode {s₀ s : State} (hk : Keeps s₀ s) (n : Node) : Keeps s₀ (dirtyNode n s) := by
  refine hk.trans ?_
  unfold dirtyNode
  try dsimp only
  repeat' first
    | with_reducible assumption
    | with_reducible exact Keeps.refl _
    | split
    | with_reducible apply keeps_dirtyKeys
    | with_reducible apply Keeps.inert
    | (intro u x hu)
    | with_reducible apply Keeps.active
    | exact fun i => sound_power i.present rfl
    | exact fun i => have k := sound_return i.present; sound_absent rfl k rfl
    | exact fun i => i.present
    | exact fun i => i.temps
    | exact fun i => i.queue
    | exact fun i => i.copies
    | exact fun i => i.record
    | exact fun i => i.heads
    | exact fun i => i.memory

theorem keeps_notePeak {s₀ s : State} (hk : Keeps s₀ s) : Keeps s₀ (notePeak s) := by
  refine hk.trans ?_
  unfold notePeak
  try dsimp only
  repeat' first
    | with_reducible assumption
    | with_reducible exact Keeps.refl _
    | split
    | with_reducible apply keeps_setCounter
    | with_reducible apply Keeps.inert
    | (intro u x hu)
    | with_reducible apply Keeps.active
    | exact fun i => sound_power i.present rfl
    | exact fun i => have k := sound_return i.present; sound_absent rfl k rfl
    | exact fun i => i.present
    | exact fun i => i.temps
    | exact fun i => i.queue
    | exact fun i => i.copies
    | exact fun i => i.record
    | exact fun i => i.heads
    | exact fun i => i.memory

theorem keeps_putNode {s₀ s : State} (hk : Keeps s₀ s) (id : Nat) (n : Node) : Keeps s₀ (putNode id n s) := by
  refine hk.trans ?_
  unfold putNode
  try dsimp only
  repeat' first
    | with_reducible assumption
    | with_reducible exact Keeps.refl _
    | split
    | with_reducible apply keeps_notePeak
    | with_reducible apply keeps_dirtyKeys
    | with_reducible apply Keeps.inert
    | (intro u x hu)
    | with_reducible apply Keeps.active
    | exact fun i => sound_power i.present rfl
    | exact fun i => have k := sound_return i.present; sound_absent rfl k rfl
    | exact fun i => i.present
    | exact fun i => i.temps
    | exact fun i => i.queue
    | exact fun i => i.copies
    | exact fun i => i.record
    | exact fun i => i.heads
    | exact fun i => i.memory

theorem keeps_newLeaf {s₀ s : State} (hk : Keeps s₀ s) (parent : Option Nat) : Keeps s₀ (newLeaf parent s) := by
  refine hk.trans ?_
  unfold newLeaf
  try dsimp only
  repeat' first
    | with_reducible assumption
    | with_reducible exact Keeps.refl _
    | split
    | with_reducible apply keeps_putNode
    | with_reducible apply Keeps.inert
    | (intro u x hu)
    | with_reducible apply Keeps.active
    | exact fun i => sound_power i.present rfl
    | exact fun i => have k := sound_return i.present; sound_absent rfl k rfl
    | exact fun i => i.present
    | exact fun i => i.temps
    | exact fun i => i.queue
    | exact fun i => i.copies
    | exact fun i => i.record
    | exact fun i => i.heads
    | exact fun i => i.memory

theorem keeps_addRef {s₀ s : State} (hk : Keeps s₀ s) (id : Nat) (k : Nat) : Keeps s₀ (addRef id k s) := by
  refine hk.trans ?_
  unfold addRef
  try dsimp only
  repeat' first
    | with_reducible assumption
    | with_reducible exact Keeps.refl _
    | split
    | with_reducible apply Keeps.inert
    | (intro u x hu)
    | with_reducible apply Keeps.active
    | exact fun i => sound_power i.present rfl
    | exact fun i => have k := sound_return i.present; sound_absent rfl k rfl
    | exact fun i => i.present
    | exact fun i => i.temps
    | exact fun i => i.queue
    | exact fun i => i.copies
    | exact fun i => i.record
    | exact fun i => i.heads
    | exact fun i => i.memory

theorem keeps_dropRef {s₀ s : State} (hk : Keeps s₀ s) (fuel id : Nat) : Keeps s₀ (dropRef fuel id s) := by
  induction fuel generalizing s id with
  | zero => exact hk
  | succ fuel ih =>
    unfold dropRef
    dsimp only
    split
    · exact hk.trans ⟨rfl, fun i => ⟨i.memory, i.heads, i.temps, i.queue, i.present, i.record, i.copies⟩⟩
    · split
      · with_reducible apply ih
        with_reducible apply keeps_dirtyNode
        with_reducible exact hk.inert ..
      · with_reducible apply keeps_dirtyNode
        with_reducible exact hk.inert ..

theorem keeps_freeSlot {s₀ s : State} (hk : Keeps s₀ s) (slot : Nat) : Keeps s₀ (freeSlot slot s) := by
  refine hk.trans ?_
  unfold freeSlot
  split
  · exact Keeps.refl s
  · exact keeps_dirtySlot (keeps_dropRef ((Keeps.refl s).inert ..) _ _) _

theorem keeps_appendRaw {s₀ s : State} (hk : Keeps s₀ s) (slot token st : Nat) : Keeps s₀ (appendRaw slot token st s) := by
  refine hk.trans ?_
  unfold appendRaw
  try dsimp only
  repeat' first
    | with_reducible assumption
    | with_reducible exact Keeps.refl _
    | split
    | with_reducible apply keeps_newLeaf
    | with_reducible apply keeps_putNode
    | with_reducible apply keeps_dirtySlot
    | with_reducible apply keeps_setContext
    | with_reducible apply Keeps.inert
    | (intro u x hu)
    | with_reducible apply Keeps.active
    | exact fun i => sound_power i.present rfl
    | exact fun i => have k := sound_return i.present; sound_absent rfl k rfl
    | exact fun i => i.present
    | exact fun i => i.temps
    | exact fun i => i.queue
    | exact fun i => i.copies
    | exact fun i => i.record
    | exact fun i => i.heads
    | exact fun i => i.memory

theorem keeps_appendToken {s₀ s : State} (hk : Keeps s₀ s) (slot token : Nat) : Keeps s₀ (appendToken slot token s) := by
  refine hk.trans ?_
  unfold appendToken
  try dsimp only
  repeat' first
    | with_reducible assumption
    | with_reducible exact Keeps.refl _
    | split
    | with_reducible apply keeps_appendRaw
    | with_reducible apply keeps_raiseCount
    | with_reducible apply Keeps.inert
    | (intro u x hu)
    | with_reducible apply Keeps.active
    | exact fun i => sound_power i.present rfl
    | exact fun i => have k := sound_return i.present; sound_absent rfl k rfl
    | exact fun i => i.present
    | exact fun i => i.temps
    | exact fun i => i.queue
    | exact fun i => i.copies
    | exact fun i => i.record
    | exact fun i => i.heads
    | exact fun i => i.memory

theorem keeps_forkSlot {s₀ s : State} (hk : Keeps s₀ s) (parent child : Nat) (seed : Nat) : Keeps s₀ (forkSlot parent child seed s) := by
  refine hk.trans ?_
  unfold forkSlot
  try dsimp only
  repeat' first
    | with_reducible assumption
    | with_reducible exact Keeps.refl _
    | split
    | with_reducible apply keeps_dirtySlot
    | with_reducible apply keeps_setContext
    | with_reducible apply keeps_newLeaf
    | with_reducible apply keeps_addRef
    | with_reducible apply Keeps.inert
    | (intro u x hu)
    | with_reducible apply Keeps.active
    | exact fun i => sound_power i.present rfl
    | exact fun i => have k := sound_return i.present; sound_absent rfl k rfl
    | exact fun i => i.present
    | exact fun i => i.temps
    | exact fun i => i.queue
    | exact fun i => i.copies
    | exact fun i => i.record
    | exact fun i => i.heads
    | exact fun i => i.memory

theorem keeps_movePages {s₀ s : State} (hk : Keeps s₀ s) (pause : Bool) (ids : List Nat) : Keeps s₀ (movePages pause ids s) := by
  refine hk.trans ?_
  unfold movePages
  try dsimp only
  repeat' first
    | with_reducible assumption
    | with_reducible exact Keeps.refl _
    | split
    | with_reducible apply keeps_putNode
    | with_reducible apply keeps_dirtyNode
    | (with_reducible apply keeps_foldl)
    | with_reducible apply Keeps.inert
    | (intro u x hu)
    | with_reducible apply Keeps.active
    | exact fun i => sound_power i.present rfl
    | exact fun i => have k := sound_return i.present; sound_absent rfl k rfl
    | exact fun i => i.present
    | exact fun i => i.temps
    | exact fun i => i.queue
    | exact fun i => i.copies
    | exact fun i => i.record
    | exact fun i => i.heads
    | exact fun i => i.memory

end Sys2Proof.Machine
end

