-- ==== Sys2Proof/Laws/KeepsContextCommands.lean ====
section
/-! SUPPORT. The effects of Machine/ContextCommands.lean keep the queue and the invariant. -/

namespace Sys2Proof.Machine

theorem keeps_free16 {s₀ s : State} (hk : Keeps s₀ s) : Keeps s₀ (free16 s).2 :=
  hk.trans ⟨rfl, fun i => ⟨i.memory, i.heads, i.temps, i.queue, i.present, i.record, i.copies⟩⟩

theorem keeps_free16_eq {s t : State} {v : Nat} (e : free16 s = (v, t)) : Keeps s t := by
  have := keeps_free16 (Keeps.refl s)
  rw [e] at this
  exact this

theorem keeps_setBatch {s₀ s : State} (hk : Keeps s₀ s) (t : Nat) (b : Batch) : Keeps s₀ (setBatch t b s) := by
  refine hk.trans ?_
  unfold setBatch
  try dsimp only
  repeat' first
    | with_reducible assumption
    | with_reducible exact Keeps.refl _
    | split
    | with_reducible apply Keeps.inert
    | (intro u x hu)
    | with_reducible apply Keeps.active
    | exact fun i => sound_power i.present rfl
    | exact fun i => have k := sound_return i.present; sound_absent rfl k rfl
    | exact fun i => i.present
    | exact fun i => i.temps
    | exact fun i => i.queue
    | exact fun i => i.copies
    | exact fun i => i.record
    | exact fun i => i.heads
    | exact fun i => i.memory

theorem keeps_writeResults {s₀ s : State} (hk : Keeps s₀ s) (addr status slot length : Nat) : Keeps s₀ (writeResults addr status slot length s) := by
  refine hk.trans ?_
  unfold writeResults
  try dsimp only
  repeat' first
    | with_reducible assumption
    | with_reducible exact Keeps.refl _
    | split
    | with_reducible apply keeps_writeBytes
    | with_reducible apply keeps_count
    | with_reducible apply Keeps.inert
    | (intro u x hu)
    | with_reducible apply Keeps.active
    | exact fun i => sound_power i.present rfl
    | exact fun i => have k := sound_return i.present; sound_absent rfl k rfl
    | exact fun i => i.present
    | exact fun i => i.temps
    | exact fun i => i.queue
    | exact fun i => i.copies
    | exact fun i => i.record
    | exact fun i => i.heads
    | exact fun i => i.memory

theorem keeps_advanceBatch {s₀ s : State} (hk : Keeps s₀ s) (t : Nat) : Keeps s₀ (advanceBatch t s) := by
  refine hk.trans ?_
  unfold advanceBatch
  try dsimp only
  repeat' first
    | with_reducible assumption
    | with_reducible exact Keeps.refl _
    | split
    | with_reducible apply keeps_setBatch
    | with_reducible apply Keeps.inert
    | (intro u x hu)
    | with_reducible apply Keeps.active
    | exact fun i => sound_power i.present rfl
    | exact fun i => have k := sound_return i.present; sound_absent rfl k rfl
    | exact fun i => i.present
    | exact fun i => i.temps
    | exact fun i => i.queue
    | exact fun i => i.copies
    | exact fun i => i.record
    | exact fun i => i.heads
    | exact fun i => i.memory

theorem keeps_endRecord {s₀ s : State} (hk : Keeps s₀ s) (t addr status slot length : Nat) : Keeps s₀ (endRecord t addr status slot length s) := by
  refine hk.trans ?_
  unfold endRecord
  try dsimp only
  repeat' first
    | with_reducible assumption
    | with_reducible exact Keeps.refl _
    | split
    | with_reducible apply keeps_advanceBatch
    | with_reducible apply keeps_writeResults
    | with_reducible apply Keeps.inert
    | (intro u x hu)
    | with_reducible apply Keeps.active
    | exact fun i => sound_power i.present rfl
    | exact fun i => have k := sound_return i.present; sound_absent rfl k rfl
    | exact fun i => i.present
    | exact fun i => i.temps
    | exact fun i => i.queue
    | exact fun i => i.copies
    | exact fun i => i.record
    | exact fun i => i.heads
    | exact fun i => i.memory

theorem keeps_failRecord {s₀ s : State} (hk : Keeps s₀ s) (t addr : Nat) (r : CtxRecord) (status : Nat) : Keeps s₀ (failRecord t addr r status s) := by
  refine hk.trans ?_
  unfold failRecord
  try dsimp only
  repeat' first
    | with_reducible assumption
    | with_reducible exact Keeps.refl _
    | split
    | with_reducible apply keeps_endRecord
    | with_reducible apply Keeps.inert
    | (intro u x hu)
    | with_reducible apply Keeps.active
    | exact fun i => sound_power i.present rfl
    | exact fun i => have k := sound_return i.present; sound_absent rfl k rfl
    | exact fun i => i.present
    | exact fun i => i.temps
    | exact fun i => i.queue
    | exact fun i => i.copies
    | exact fun i => i.record
    | exact fun i => i.heads
    | exact fun i => i.memory

theorem keeps_endCopy {s₀ s : State} (hk : Keeps s₀ s) (slot status : Nat) : Keeps s₀ (endCopy slot status s) := by
  refine hk.trans ?_
  unfold endCopy
  try dsimp only
  repeat' first
    | with_reducible assumption
    | with_reducible exact Keeps.refl _
    | split
    | with_reducible apply keeps_writeResults
    | with_reducible apply keeps_setBatch
    | (with_reducible apply keeps_foldl)
    | with_reducible apply Keeps.inert
    | (intro u x hu)
    | with_reducible apply Keeps.active
    | exact fun i => sound_power i.present rfl
    | exact fun i => have k := sound_return i.present; sound_absent rfl k rfl
    | exact fun i => i.present
    | exact fun i => i.temps
    | exact fun i => i.queue
    | exact fun i => i.copies
    | exact fun i => i.record
    | exact fun i => i.heads
    | exact fun i => i.memory

theorem keeps_freeContext {s₀ s : State} (hk : Keeps s₀ s) (slot : Nat) : Keeps s₀ (freeContext slot s) := by
  refine hk.trans ?_
  unfold freeContext
  try dsimp only
  repeat' first
    | with_reducible assumption
    | with_reducible exact Keeps.refl _
    | split
    | with_reducible apply keeps_freeSlot
    | with_reducible apply keeps_free16
    | with_reducible apply keeps_endCopy
    | with_reducible apply Keeps.inert
    | (intro u x hu)
    | with_reducible apply Keeps.active
    | exact fun i => sound_power i.present rfl
    | exact fun i => have k := sound_return i.present; sound_absent rfl k rfl
    | exact fun i => i.present
    | exact fun i => i.temps
    | exact fun i => i.queue
    | exact fun i => i.copies
    | exact fun i => i.record
    | exact fun i => i.heads
    | exact fun i => i.memory

theorem keeps_openBody {s₀ s : State} (hk : Keeps s₀ s) (t addr : Nat) (r : CtxRecord) : Keeps s₀ (openBody t addr r s) := by
  refine hk.trans ?_
  unfold openBody
  try dsimp only
  repeat' first
    | with_reducible assumption
    | with_reducible exact Keeps.refl _
    | split
    | with_reducible apply keeps_failRecord
    | with_reducible apply keeps_count
    | with_reducible apply keeps_endRecord
    | with_reducible apply keeps_dirtySlot
    | with_reducible apply keeps_setContext
    | with_reducible apply keeps_newLeaf
    | with_reducible apply Keeps.inert
    | (intro u x hu)
    | with_reducible apply Keeps.active
    | exact fun i => sound_power i.present rfl
    | exact fun i => have k := sound_return i.present; sound_absent rfl k rfl
    | exact fun i => i.present
    | exact fun i => i.temps
    | exact fun i => i.queue
    | exact fun i => i.copies
    | exact fun i => i.record
    | exact fun i => i.heads
    | exact fun i => i.memory

theorem keeps_forkBody {s₀ s : State} (hk : Keeps s₀ s) (t addr : Nat) (r : CtxRecord) : Keeps s₀ (forkBody t addr r s) := by
  refine hk.trans ?_
  unfold forkBody
  try dsimp only
  repeat' first
    | with_reducible assumption
    | with_reducible exact Keeps.refl _
    | split
    | with_reducible apply keeps_failRecord
    | with_reducible apply keeps_count
    | with_reducible apply keeps_endRecord
    | with_reducible apply keeps_forkSlot
    | with_reducible apply Keeps.inert
    | (intro u x hu)
    | with_reducible apply Keeps.active
    | exact fun i => sound_power i.present rfl
    | exact fun i => have k := sound_return i.present; sound_absent rfl k rfl
    | exact fun i => i.present
    | exact fun i => i.temps
    | exact fun i => i.queue
    | exact fun i => i.copies
    | exact fun i => i.record
    | exact fun i => i.heads
    | exact fun i => i.memory

theorem keeps_appendBody {s₀ s : State} (hk : Keeps s₀ s) (t addr : Nat) (r : CtxRecord) : Keeps s₀ (appendBody t addr r s) := by
  refine hk.trans ?_
  unfold appendBody
  try dsimp only
  repeat' first
    | with_reducible assumption
    | with_reducible exact Keeps.refl _
    | split
    | with_reducible apply keeps_failRecord
    | with_reducible apply keeps_appendToken
    | with_reducible apply keeps_endRecord
    | (with_reducible apply keeps_foldl)
    | with_reducible apply Keeps.inert
    | (intro u x hu)
    | with_reducible apply Keeps.active
    | exact fun i => sound_power i.present rfl
    | exact fun i => have k := sound_return i.present; sound_absent rfl k rfl
    | exact fun i => i.present
    | exact fun i => i.temps
    | exact fun i => i.queue
    | exact fun i => i.copies
    | exact fun i => i.record
    | exact fun i => i.heads
    | exact fun i => i.memory

theorem keeps_startCopy {s₀ s : State} (hk : Keeps s₀ s) (t addr slot : Nat) : Keeps s₀ (startCopy t addr slot s) := by
  refine hk.trans ?_
  unfold startCopy
  try dsimp only
  repeat' first
    | with_reducible assumption
    | with_reducible exact Keeps.refl _
    | split
    | with_reducible apply keeps_wake
    | with_reducible apply keeps_advanceBatch
    | with_reducible apply keeps_setBatch
    | with_reducible apply Keeps.inert
    | (intro u x hu)
    | with_reducible apply Keeps.active
    | exact fun i => sound_power i.present rfl
    | exact fun i => have k := sound_return i.present; sound_absent rfl k rfl
    | exact fun i => i.present
    | exact fun i => i.temps
    | exact fun i => i.queue
    | exact fun i => i.copies
    | exact fun i => i.record
    | exact fun i => i.heads
    | exact fun i => i.memory

theorem keeps_pauseBody {s₀ s : State} (hk : Keeps s₀ s) (t addr : Nat) (r : CtxRecord) : Keeps s₀ (pauseBody t addr r s) := by
  refine hk.trans ?_
  unfold pauseBody
  try dsimp only
  repeat' first
    | with_reducible assumption
    | with_reducible exact Keeps.refl _
    | split
    | with_reducible apply keeps_failRecord
    | with_reducible apply keeps_startCopy
    | with_reducible apply keeps_dirtySlot
    | with_reducible apply keeps_setContext
    | with_reducible apply Keeps.inert
    | (intro u x hu)
    | with_reducible apply Keeps.active
    | exact fun i => sound_power i.present rfl
    | exact fun i => have k := sound_return i.present; sound_absent rfl k rfl
    | exact fun i => i.present
    | exact fun i => i.temps
    | exact fun i => i.queue
    | exact fun i => i.copies
    | exact fun i => i.record
    | exact fun i => i.heads
    | exact fun i => i.memory

theorem keeps_resumeBody {s₀ s : State} (hk : Keeps s₀ s) (t addr : Nat) (r : CtxRecord) : Keeps s₀ (resumeBody t addr r s) := by
  refine hk.trans ?_
  unfold resumeBody
  try dsimp only
  repeat' first
    | with_reducible assumption
    | with_reducible exact Keeps.refl _
    | split
    | with_reducible apply keeps_failRecord
    | with_reducible apply keeps_startCopy
    | with_reducible apply keeps_notePeak
    | with_reducible apply keeps_dirtySlot
    | with_reducible apply keeps_setContext
    | with_reducible apply Keeps.inert
    | (intro u x hu)
    | with_reducible apply Keeps.active
    | exact fun i => sound_power i.present rfl
    | exact fun i => have k := sound_return i.present; sound_absent rfl k rfl
    | exact fun i => i.present
    | exact fun i => i.temps
    | exact fun i => i.queue
    | exact fun i => i.copies
    | exact fun i => i.record
    | exact fun i => i.heads
    | exact fun i => i.memory

theorem keeps_cancelBody {s₀ s : State} (hk : Keeps s₀ s) (t addr : Nat) (r : CtxRecord) : Keeps s₀ (cancelBody t addr r s) := by
  refine hk.trans ?_
  unfold cancelBody
  try dsimp only
  repeat' first
    | with_reducible assumption
    | with_reducible exact Keeps.refl _
    | split
    | with_reducible apply keeps_failRecord
    | with_reducible apply keeps_dirtySlot
    | with_reducible apply keeps_setContext
    | with_reducible apply keeps_freeContext
    | with_reducible apply keeps_endRecord
    | with_reducible apply Keeps.inert
    | (intro u x hu)
    | with_reducible apply Keeps.active
    | exact fun i => sound_power i.present rfl
    | exact fun i => have k := sound_return i.present; sound_absent rfl k rfl
    | exact fun i => i.present
    | exact fun i => i.temps
    | exact fun i => i.queue
    | exact fun i => i.copies
    | exact fun i => i.record
    | exact fun i => i.heads
    | exact fun i => i.memory

theorem keeps_expireSlot {s₀ s : State} (hk : Keeps s₀ s) (slot : Nat) : Keeps s₀ (expireSlot slot s) := by
  refine hk.trans ?_
  unfold expireSlot
  try dsimp only
  repeat' first
    | with_reducible assumption
    | with_reducible exact Keeps.refl _
    | split
    | with_reducible apply keeps_raiseCount
    | with_reducible apply keeps_freeSlot
    | with_reducible apply Keeps.inert
    | (intro u x hu)
    | with_reducible apply Keeps.active
    | exact fun i => sound_power i.present rfl
    | exact fun i => have k := sound_return i.present; sound_absent rfl k rfl
    | exact fun i => i.present
    | exact fun i => i.temps
    | exact fun i => i.queue
    | exact fun i => i.copies
    | exact fun i => i.record
    | exact fun i => i.heads
    | exact fun i => i.memory

theorem keeps_expireDue {s₀ s : State} (hk : Keeps s₀ s) (slot : Nat) : Keeps s₀ (expireDue slot s) := by
  refine hk.trans ?_
  unfold expireDue
  try dsimp only
  repeat' first
    | with_reducible assumption
    | with_reducible exact Keeps.refl _
    | split
    | with_reducible apply keeps_expireSlot
    | with_reducible apply Keeps.inert
    | (intro u x hu)
    | with_reducible apply Keeps.active
    | exact fun i => sound_power i.present rfl
    | exact fun i => have k := sound_return i.present; sound_absent rfl k rfl
    | exact fun i => i.present
    | exact fun i => i.temps
    | exact fun i => i.queue
    | exact fun i => i.copies
    | exact fun i => i.record
    | exact fun i => i.heads
    | exact fun i => i.memory

theorem keeps_runOp {s₀ s : State} (hk : Keeps s₀ s) (t addr : Nat) (r : CtxRecord) : Keeps s₀ (runOp t addr r s) := by
  refine hk.trans ?_
  unfold runOp
  try dsimp only
  repeat' first
    | with_reducible assumption
    | with_reducible exact Keeps.refl _
    | split
    | with_reducible apply keeps_failRecord
    | with_reducible apply keeps_openBody
    | with_reducible apply keeps_forkBody
    | with_reducible apply keeps_appendBody
    | with_reducible apply keeps_pauseBody
    | with_reducible apply keeps_resumeBody
    | with_reducible apply keeps_cancelBody
    | with_reducible apply Keeps.inert
    | (intro u x hu)
    | with_reducible apply Keeps.active
    | exact fun i => sound_power i.present rfl
    | exact fun i => have k := sound_return i.present; sound_absent rfl k rfl
    | exact fun i => i.present
    | exact fun i => i.temps
    | exact fun i => i.queue
    | exact fun i => i.copies
    | exact fun i => i.record
    | exact fun i => i.heads
    | exact fun i => i.memory

theorem keeps_runRecord {s₀ s : State} (hk : Keeps s₀ s) (t : Nat) (body : Nat → Nat → CtxRecord → State → State)
    (hb : ∀ u addr r, Keeps u (body t addr r u)) : Keeps s₀ (runRecord t body s) := by
  refine hk.trans ?_
  rw [runRecord]
  generalize s.nextRecord t = p
  obtain ⟨addr, r⟩ := p
  dsimp only
  split
  · exact keeps_setBatch (Keeps.refl s) ..
  · split
    · exact keeps_failRecord (Keeps.refl s) ..
    · refine Keeps.trans ?_ (hb _ _ _)
      split
      · exact Keeps.refl s
      · exact keeps_expireDue (Keeps.refl s) _

theorem keeps_finishPause {s₀ s : State} (hk : Keeps s₀ s) (slot : Nat) (c : Context) : Keeps s₀ (finishPause slot c s) := by
  refine hk.trans ?_
  unfold finishPause
  try dsimp only
  repeat' first
    | with_reducible assumption
    | with_reducible exact Keeps.refl _
    | split
    | with_reducible apply keeps_endCopy
    | with_reducible apply keeps_count
    | with_reducible apply keeps_dirtySlot
    | with_reducible apply keeps_movePages
    | with_reducible apply keeps_setContext
    | with_reducible apply Keeps.inert
    | (intro u x hu)
    | with_reducible apply Keeps.active
    | exact fun i => sound_power i.present rfl
    | exact fun i => have k := sound_return i.present; sound_absent rfl k rfl
    | exact fun i => i.present
    | exact fun i => i.temps
    | exact fun i => i.queue
    | exact fun i => i.copies
    | exact fun i => i.record
    | exact fun i => i.heads
    | exact fun i => i.memory

theorem keeps_finishResume {s₀ s : State} (hk : Keeps s₀ s) (slot : Nat) (c : Context) : Keeps s₀ (finishResume slot c s) := by
  refine hk.trans ?_
  unfold finishResume
  try dsimp only
  repeat' first
    | with_reducible assumption
    | with_reducible exact Keeps.refl _
    | split
    | with_reducible apply keeps_endCopy
    | with_reducible apply keeps_count
    | with_reducible apply keeps_dirtySlot
    | with_reducible apply keeps_movePages
    | with_reducible apply keeps_setContext
    | with_reducible apply Keeps.inert
    | (intro u x hu)
    | with_reducible apply Keeps.active
    | exact fun i => sound_power i.present rfl
    | exact fun i => have k := sound_return i.present; sound_absent rfl k rfl
    | exact fun i => i.present
    | exact fun i => i.temps
    | exact fun i => i.queue
    | exact fun i => i.copies
    | exact fun i => i.record
    | exact fun i => i.heads
    | exact fun i => i.memory

theorem keeps_batchGoEffect {s₀ s : State} (hk : Keeps s₀ s) (t : Nat) : Keeps s₀ (batchGoEffect t s) := by
  refine hk.trans ?_
  unfold batchGoEffect
  try dsimp only
  repeat' first
    | with_reducible assumption
    | with_reducible exact Keeps.refl _
    | split
    | with_reducible apply keeps_reject
    | with_reducible apply keeps_setBatch
    | with_reducible apply keeps_count
    | with_reducible apply Keeps.inert
    | (intro u x hu)
    | with_reducible apply Keeps.active
    | exact fun i => sound_power i.present rfl
    | exact fun i => have k := sound_return i.present; sound_absent rfl k rfl
    | exact fun i => i.present
    | exact fun i => i.temps
    | exact fun i => i.queue
    | exact fun i => i.copies
    | exact fun i => i.record
    | exact fun i => i.heads
    | exact fun i => i.memory

theorem keeps_applyCancels {s₀ s : State} (hk : Keeps s₀ s) : Keeps s₀ (applyCancels s) := by
  refine hk.trans ?_
  unfold applyCancels
  try dsimp only
  repeat' first
    | with_reducible assumption
    | with_reducible exact Keeps.refl _
    | split
    | with_reducible apply keeps_freeContext
    | with_reducible apply keeps_runOp
    | with_reducible apply keeps_expireDue
    | (with_reducible apply keeps_foldl)
    | with_reducible apply Keeps.inert
    | (intro u x hu)
    | with_reducible apply Keeps.active
    | exact fun i => sound_power i.present rfl
    | exact fun i => have k := sound_return i.present; sound_absent rfl k rfl
    | exact fun i => i.present
    | exact fun i => i.temps
    | exact fun i => i.queue
    | exact fun i => i.copies
    | exact fun i => i.record
    | exact fun i => i.heads
    | exact fun i => i.memory

theorem keeps_abandonCopies {s₀ s : State} (hk : Keeps s₀ s) : Keeps s₀ (abandonCopies s) := by
  refine hk.trans ?_
  unfold abandonCopies
  try dsimp only
  repeat' first
    | with_reducible assumption
    | with_reducible exact Keeps.refl _
    | split
    | with_reducible apply keeps_setContext
    | (with_reducible apply keeps_foldl)
    | with_reducible apply Keeps.inert
    | (intro u x hu)
    | with_reducible apply Keeps.active
    | exact fun i => sound_power i.present rfl
    | exact fun i => have k := sound_return i.present; sound_absent rfl k rfl
    | exact fun i => i.present
    | exact fun i => i.temps
    | exact fun i => i.queue
    | exact fun i => i.copies
    | exact fun i => i.record
    | exact fun i => i.heads
    | exact fun i => i.memory

theorem keeps_settleCopies {s₀ s : State} (hk : Keeps s₀ s) : Keeps s₀ (settleCopies s) := by
  refine hk.trans ?_
  unfold settleCopies
  try dsimp only
  repeat' first
    | with_reducible assumption
    | with_reducible exact Keeps.refl _
    | split
    | with_reducible apply keeps_free16
    | with_reducible apply keeps_endCopy
    | (with_reducible apply keeps_foldl)
    | with_reducible apply Keeps.inert
    | (intro u x hu)
    | with_reducible apply Keeps.active
    | exact fun i => sound_power i.present rfl
    | exact fun i => have k := sound_return i.present; sound_absent rfl k rfl
    | exact fun i => i.present
    | exact fun i => i.temps
    | exact fun i => i.queue
    | exact fun i => i.copies
    | exact fun i => i.record
    | exact fun i => i.heads
    | exact fun i => i.memory

theorem keeps_loseContext {s₀ s : State} (hk : Keeps s₀ s) (slot : Nat) : Keeps s₀ (loseContext slot s) := by
  refine hk.trans ?_
  unfold loseContext
  try dsimp only
  repeat' first
    | with_reducible assumption
    | with_reducible exact Keeps.refl _
    | split
    | with_reducible apply keeps_raiseArgs
    | with_reducible apply keeps_endCopy
    | with_reducible apply keeps_freeSlot
    | with_reducible apply Keeps.inert
    | (intro u x hu)
    | with_reducible apply Keeps.active
    | exact fun i => sound_power i.present rfl
    | exact fun i => have k := sound_return i.present; sound_absent rfl k rfl
    | exact fun i => i.present
    | exact fun i => i.temps
    | exact fun i => i.queue
    | exact fun i => i.copies
    | exact fun i => i.record
    | exact fun i => i.heads
    | exact fun i => i.memory

end Sys2Proof.Machine
end

