-- ==== Sys2Proof/Laws/KeepsEcc.lean ====
section
/-! SUPPORT. The effects of Machine/Ecc.lean keep the queue and the invariant. -/

namespace Sys2Proof.Machine

theorem keeps_withRun {s₀ s : State} (hk : Keeps s₀ s) (f : StepRun → StepRun) : Keeps s₀ (withRun f s) := by
  refine hk.trans ?_
  unfold withRun
  try dsimp only
  repeat' first
    | with_reducible assumption
    | with_reducible exact Keeps.refl _
    | split
    | with_reducible apply Keeps.inert
    | (intro u x hu)
    | with_reducible apply Keeps.active
    | exact fun i => sound_power i.present rfl
    | exact fun i => have k := sound_return i.present; sound_absent rfl k rfl
    | exact fun i => i.present
    | exact fun i => i.temps
    | exact fun i => i.queue
    | exact fun i => i.copies
    | exact fun i => i.record
    | exact fun i => i.heads
    | exact fun i => i.memory

theorem keeps_markRow {s₀ s : State} (hk : Keeps s₀ s) (i status : Nat) : Keeps s₀ (markRow i status s) := by
  refine hk.trans ?_
  unfold markRow
  try dsimp only
  repeat' first
    | with_reducible assumption
    | with_reducible exact Keeps.refl _
    | split
    | with_reducible apply keeps_withRun
    | with_reducible apply Keeps.inert
    | (intro u x hu)
    | with_reducible apply Keeps.active
    | exact fun i => sound_power i.present rfl
    | exact fun i => have k := sound_return i.present; sound_absent rfl k rfl
    | exact fun i => i.present
    | exact fun i => i.temps
    | exact fun i => i.queue
    | exact fun i => i.copies
    | exact fun i => i.record
    | exact fun i => i.heads
    | exact fun i => i.memory

theorem keeps_markRows {s₀ s : State} (hk : Keeps s₀ s) (is : List Nat) (status : Nat) : Keeps s₀ (markRows is status s) := by
  refine hk.trans ?_
  unfold markRows
  try dsimp only
  repeat' first
    | with_reducible assumption
    | with_reducible exact Keeps.refl _
    | split
    | with_reducible apply keeps_markRow
    | (with_reducible apply keeps_foldl)
    | with_reducible apply Keeps.inert
    | (intro u x hu)
    | with_reducible apply Keeps.active
    | exact fun i => sound_power i.present rfl
    | exact fun i => have k := sound_return i.present; sound_absent rfl k rfl
    | exact fun i => i.present
    | exact fun i => i.temps
    | exact fun i => i.queue
    | exact fun i => i.copies
    | exact fun i => i.record
    | exact fun i => i.heads
    | exact fun i => i.memory

theorem keeps_refuseMode {s₀ s : State} (hk : Keeps s₀ s) (reason : Nat) : Keeps s₀ (refuseMode reason s) := by
  refine hk.trans ?_
  unfold refuseMode
  try dsimp only
  repeat' first
    | with_reducible assumption
    | with_reducible exact Keeps.refl _
    | split
    | with_reducible apply keeps_raise
    | with_reducible apply Keeps.inert
    | (intro u x hu)
    | with_reducible apply Keeps.active
    | exact fun i => sound_power i.present rfl
    | exact fun i => have k := sound_return i.present; sound_absent rfl k rfl
    | exact fun i => i.present
    | exact fun i => i.temps
    | exact fun i => i.queue
    | exact fun i => i.copies
    | exact fun i => i.record
    | exact fun i => i.heads
    | exact fun i => i.memory

theorem keeps_noteHeirloom {s₀ s : State} (hk : Keeps s₀ s) (old : State) : Keeps s₀ (noteHeirloom old s) := by
  refine hk.trans ?_
  unfold noteHeirloom
  try dsimp only
  repeat' first
    | with_reducible assumption
    | with_reducible exact Keeps.refl _
    | split
    | with_reducible apply keeps_refuseMode
    | with_reducible apply Keeps.inert
    | (intro u x hu)
    | with_reducible apply Keeps.active
    | exact fun i => sound_power i.present rfl
    | exact fun i => have k := sound_return i.present; sound_absent rfl k rfl
    | exact fun i => i.present
    | exact fun i => i.temps
    | exact fun i => i.queue
    | exact fun i => i.copies
    | exact fun i => i.record
    | exact fun i => i.heads
    | exact fun i => i.memory

theorem keeps_correctedWord {s₀ s : State} (hk : Keeps s₀ s) (where_ : Nat) (e : EccHit) : Keeps s₀ (correctedWord where_ e s) := by
  refine hk.trans ?_
  unfold correctedWord
  try dsimp only
  repeat' first
    | with_reducible assumption
    | with_reducible exact Keeps.refl _
    | split
    | with_reducible apply keeps_count
    | with_reducible apply keeps_raiseArgs
    | with_reducible apply Keeps.inert
    | (intro u x hu)
    | with_reducible apply Keeps.active
    | exact fun i => sound_power i.present rfl
    | exact fun i => have k := sound_return i.present; sound_absent rfl k rfl
    | exact fun i => i.present
    | exact fun i => i.temps
    | exact fun i => i.queue
    | exact fun i => i.copies
    | exact fun i => i.record
    | exact fun i => i.heads
    | exact fun i => i.memory

theorem keeps_noteUncorrectable {s₀ s : State} (hk : Keeps s₀ s) (where_ : Nat) (e : EccHit) : Keeps s₀ (noteUncorrectable where_ e s) := by
  refine hk.trans ?_
  unfold noteUncorrectable
  try dsimp only
  repeat' first
    | with_reducible assumption
    | with_reducible exact Keeps.refl _
    | split
    | with_reducible apply keeps_raiseCount
    | with_reducible apply Keeps.inert
    | (intro u x hu)
    | with_reducible apply Keeps.active
    | exact fun i => sound_power i.present rfl
    | exact fun i => have k := sound_return i.present; sound_absent rfl k rfl
    | exact fun i => i.present
    | exact fun i => i.temps
    | exact fun i => i.queue
    | exact fun i => i.copies
    | exact fun i => i.record
    | exact fun i => i.heads
    | exact fun i => i.memory

theorem keeps_failLater {s₀ s : State} (hk : Keeps s₀ s) (i : Nat) : Keeps s₀ (failLater i s) := by
  refine hk.trans ?_
  unfold failLater
  try dsimp only
  repeat' first
    | with_reducible assumption
    | with_reducible exact Keeps.refl _
    | split
    | with_reducible apply keeps_setHead
    | with_reducible apply Keeps.inert
    | (intro u x hu)
    | with_reducible apply Keeps.active
    | exact fun i => sound_power i.present rfl
    | exact fun i => have k := sound_return i.present; sound_absent rfl k rfl
    | exact fun i => i.present
    | exact fun i => i.temps
    | exact fun i => i.queue
    | exact fun i => i.copies
    | exact fun i => i.record
    | exact fun i => i.heads
    | exact fun i => i.memory

theorem keeps_failNow {s₀ s : State} (hk : Keeps s₀ s) (i : Nat) : Keeps s₀ (failNow i s) := by
  refine hk.trans ?_
  unfold failNow
  try dsimp only
  repeat' first
    | with_reducible assumption
    | with_reducible exact Keeps.refl _
    | split
    | with_reducible apply keeps_clearSlot
    | with_reducible apply Keeps.inert
    | (intro u x hu)
    | with_reducible apply Keeps.active
    | exact fun i => sound_power i.present rfl
    | exact fun i => have k := sound_return i.present; sound_absent rfl k rfl
    | exact fun i => i.present
    | exact fun i => i.temps
    | exact fun i => i.queue
    | exact fun i => i.copies
    | exact fun i => i.record
    | exact fun i => i.heads
    | exact fun i => i.memory

theorem keeps_loseSlot {s₀ s : State} (hk : Keeps s₀ s) (slot : Nat) : Keeps s₀ (loseSlot slot s) := by
  refine hk.trans ?_
  unfold loseSlot
  try dsimp only
  repeat' first
    | with_reducible assumption
    | with_reducible exact Keeps.refl _
    | split
    | with_reducible apply keeps_markRows
    | with_reducible apply keeps_raiseArgs
    | with_reducible apply keeps_freeContext
    | with_reducible apply keeps_freeSlot
    | with_reducible apply Keeps.inert
    | (intro u x hu)
    | with_reducible apply Keeps.active
    | exact fun i => sound_power i.present rfl
    | exact fun i => have k := sound_return i.present; sound_absent rfl k rfl
    | exact fun i => i.present
    | exact fun i => i.temps
    | exact fun i => i.queue
    | exact fun i => i.copies
    | exact fun i => i.record
    | exact fun i => i.heads
    | exact fun i => i.memory

theorem keeps_reloadMicro {s₀ s : State} (hk : Keeps s₀ s) : Keeps s₀ (reloadMicro s) := by
  refine hk.trans ?_
  unfold reloadMicro
  try dsimp only
  repeat' first
    | with_reducible assumption
    | with_reducible exact Keeps.refl _
    | split
    | with_reducible apply keeps_announceCaps
    | with_reducible apply keeps_noteHeirloom
    | with_reducible apply Keeps.inert
    | (intro u x hu)
    | with_reducible apply Keeps.active
    | exact fun i => sound_power i.present rfl
    | exact fun i => have k := sound_return i.present; sound_absent rfl k rfl
    | exact fun i => i.present
    | exact fun i => i.temps
    | exact fun i => i.queue
    | exact fun i => i.copies
    | exact fun i => i.record
    | exact fun i => i.heads
    | exact fun i => i.memory

theorem keeps_dropLine {s₀ s : State} (hk : Keeps s₀ s) (word : Nat) : Keeps s₀ (dropLine word s) := by
  refine hk.trans ?_
  unfold dropLine
  try dsimp only
  repeat' first
    | with_reducible assumption
    | with_reducible exact Keeps.refl _
    | split
    | with_reducible apply Keeps.inert
    | (intro u x hu)
    | with_reducible apply Keeps.active
    | exact fun i => sound_power i.present rfl
    | exact fun i => have k := sound_return i.present; sound_absent rfl k rfl
    | exact fun i => i.present
    | exact fun i => i.temps
    | exact fun i => i.queue
    | exact fun i => i.copies
    | exact fun i => i.record
    | exact fun i => i.heads
    | exact fun i => i.memory

theorem keeps_uncorrectableWork {s₀ s : State} (hk : Keeps s₀ s) (e : EccHit) (rows group : List Nat) : Keeps s₀ (uncorrectableWork e rows group s) := by
  refine hk.trans ?_
  unfold uncorrectableWork
  try dsimp only
  repeat' first
    | with_reducible assumption
    | with_reducible exact Keeps.refl _
    | split
    | with_reducible apply keeps_noteUncorrectable
    | with_reducible apply keeps_failLater
    | with_reducible apply keeps_markRows
    | with_reducible apply keeps_loseSlot
    | with_reducible apply keeps_dropLine
    | with_reducible apply Keeps.inert
    | (intro u x hu)
    | with_reducible apply Keeps.active
    | exact fun i => sound_power i.present rfl
    | exact fun i => have k := sound_return i.present; sound_absent rfl k rfl
    | exact fun i => i.present
    | exact fun i => i.temps
    | exact fun i => i.queue
    | exact fun i => i.copies
    | exact fun i => i.record
    | exact fun i => i.heads
    | exact fun i => i.memory

theorem keeps_uncorrectableScrub {s₀ s : State} (hk : Keeps s₀ s) (e : EccHit) : Keeps s₀ (uncorrectableScrub e s) := by
  refine hk.trans ?_
  unfold uncorrectableScrub
  try dsimp only
  repeat' first
    | with_reducible assumption
    | with_reducible exact Keeps.refl _
    | split
    | with_reducible apply keeps_noteUncorrectable
    | with_reducible apply keeps_failLater
    | with_reducible apply keeps_beginMarch
    | with_reducible apply keeps_failNow
    | with_reducible apply keeps_loseSlot
    | with_reducible apply keeps_dropLine
    | with_reducible apply keeps_reloadMicro
    | with_reducible apply Keeps.inert
    | (intro u x hu)
    | with_reducible apply Keeps.active
    | exact fun i => sound_power i.present rfl
    | exact fun i => have k := sound_return i.present; sound_absent rfl k rfl
    | exact fun i => i.present
    | exact fun i => i.temps
    | exact fun i => i.queue
    | exact fun i => i.copies
    | exact fun i => i.record
    | exact fun i => i.heads
    | exact fun i => i.memory

theorem keeps_workHits {s₀ s : State} (hk : Keeps s₀ s) (start n : Nat) (es : List EccHit) : Keeps s₀ (workHits start n es s) := by
  refine hk.trans ?_
  unfold workHits
  try dsimp only
  repeat' first
    | with_reducible assumption
    | with_reducible exact Keeps.refl _
    | split
    | with_reducible apply keeps_uncorrectableWork
    | with_reducible apply keeps_correctedWord
    | (with_reducible apply keeps_foldl)
    | with_reducible apply Keeps.inert
    | (intro u x hu)
    | with_reducible apply Keeps.active
    | exact fun i => sound_power i.present rfl
    | exact fun i => have k := sound_return i.present; sound_absent rfl k rfl
    | exact fun i => i.present
    | exact fun i => i.temps
    | exact fun i => i.queue
    | exact fun i => i.copies
    | exact fun i => i.record
    | exact fun i => i.heads
    | exact fun i => i.memory

theorem keeps_groupHits {s₀ s : State} (hk : Keeps s₀ s) (g : Nat) (es : List EccHit) : Keeps s₀ (groupHits g es s) := by
  refine hk.trans ?_
  unfold groupHits
  try dsimp only
  repeat' first
    | with_reducible assumption
    | with_reducible exact Keeps.refl _
    | split
    | with_reducible apply keeps_workHits
    | with_reducible apply Keeps.inert
    | (intro u x hu)
    | with_reducible apply Keeps.active
    | exact fun i => sound_power i.present rfl
    | exact fun i => have k := sound_return i.present; sound_absent rfl k rfl
    | exact fun i => i.present
    | exact fun i => i.temps
    | exact fun i => i.queue
    | exact fun i => i.copies
    | exact fun i => i.record
    | exact fun i => i.heads
    | exact fun i => i.memory

theorem keeps_contextHit {s₀ s : State} (hk : Keeps s₀ s) (e : EccHit) : Keeps s₀ (contextHit e s) := by
  refine hk.trans ?_
  unfold contextHit
  try dsimp only
  repeat' first
    | with_reducible assumption
    | with_reducible exact Keeps.refl _
    | split
    | with_reducible apply keeps_correctedWord
    | with_reducible apply keeps_noteUncorrectable
    | with_reducible apply keeps_loseSlot
    | with_reducible apply keeps_dropLine
    | with_reducible apply Keeps.inert
    | (intro u x hu)
    | with_reducible apply Keeps.active
    | exact fun i => sound_power i.present rfl
    | exact fun i => have k := sound_return i.present; sound_absent rfl k rfl
    | exact fun i => i.present
    | exact fun i => i.temps
    | exact fun i => i.queue
    | exact fun i => i.copies
    | exact fun i => i.record
    | exact fun i => i.heads
    | exact fun i => i.memory

theorem keeps_readHits {s₀ s : State} (hk : Keeps s₀ s) (es : List EccHit) : Keeps s₀ (readHits es s) := by
  refine hk.trans ?_
  unfold readHits
  try dsimp only
  repeat' first
    | with_reducible assumption
    | with_reducible exact Keeps.refl _
    | split
    | with_reducible apply keeps_contextHit
    | (with_reducible apply keeps_foldl)
    | with_reducible apply Keeps.inert
    | (intro u x hu)
    | with_reducible apply Keeps.active
    | exact fun i => sound_power i.present rfl
    | exact fun i => have k := sound_return i.present; sound_absent rfl k rfl
    | exact fun i => i.present
    | exact fun i => i.temps
    | exact fun i => i.queue
    | exact fun i => i.copies
    | exact fun i => i.record
    | exact fun i => i.heads
    | exact fun i => i.memory

theorem keeps_readRecord {s₀ s : State} (hk : Keeps s₀ s) (t : Nat) (body : Nat → Nat → CtxRecord → State → State)
    (ecc : List EccHit) (hb : ∀ u addr r, Keeps u (body t addr r u)) : Keeps s₀ (readRecord t body ecc s) :=
  keeps_runRecord (keeps_readHits hk ecc) t body hb

end Sys2Proof.Machine
end

