-- ==== Sys2Proof/Laws/KeepsFinals.lean ====
section
/-! SUPPORT. The effects of Machine/Finals.lean keep the queue and the invariant. -/

namespace Sys2Proof.Machine

theorem keeps_countEnd {s₀ s : State} (hk : Keeps s₀ s) (v : View) (cs cs2 : List Claim) (x : Nat × RowRun) (f : RowFinal) : Keeps s₀ (countEnd v cs cs2 x f s) := by
  refine hk.trans ?_
  unfold countEnd
  try dsimp only
  repeat' first
    | with_reducible assumption
    | with_reducible exact Keeps.refl _
    | split
    | with_reducible apply keeps_count
    | with_reducible apply Keeps.inert
    | (intro u x hu)
    | with_reducible apply Keeps.active
    | exact fun i => sound_power i.present rfl
    | exact fun i => have k := sound_return i.present; sound_absent rfl k rfl
    | exact fun i => i.present
    | exact fun i => i.temps
    | exact fun i => i.queue
    | exact fun i => i.copies
    | exact fun i => i.record
    | exact fun i => i.heads
    | exact fun i => i.memory

theorem keeps_writeBloom {s₀ s : State} (hk : Keeps s₀ s) (h : StepHead) (f : RowFinal) : Keeps s₀ (writeBloom h f s) := by
  refine hk.trans ?_
  unfold writeBloom
  try dsimp only
  repeat' first
    | with_reducible assumption
    | with_reducible exact Keeps.refl _
    | split
    | with_reducible apply keeps_count
    | with_reducible apply keeps_writeBytes
    | with_reducible apply Keeps.inert
    | (intro u x hu)
    | with_reducible apply Keeps.active
    | exact fun i => sound_power i.present rfl
    | exact fun i => have k := sound_return i.present; sound_absent rfl k rfl
    | exact fun i => i.present
    | exact fun i => i.temps
    | exact fun i => i.queue
    | exact fun i => i.copies
    | exact fun i => i.record
    | exact fun i => i.heads
    | exact fun i => i.memory

theorem keeps_finishGroup {s₀ s : State} (hk : Keeps s₀ s) (v : View) (cs cs2 : List Claim) : Keeps s₀ (finishGroup v cs cs2 s) := by
  refine hk.trans ?_
  unfold finishGroup
  try dsimp only
  repeat' first
    | with_reducible assumption
    | with_reducible exact Keeps.refl _
    | split
    | with_reducible apply keeps_countEnd
    | with_reducible apply keeps_writeBloom
    | with_reducible apply keeps_count
    | with_reducible apply keeps_withGroup
    | with_reducible apply keeps_withRun
    | (with_reducible apply keeps_foldl)
    | with_reducible apply Keeps.inert
    | (intro u x hu)
    | with_reducible apply Keeps.active
    | exact fun i => sound_power i.present rfl
    | exact fun i => have k := sound_return i.present; sound_absent rfl k rfl
    | exact fun i => i.present
    | exact fun i => i.temps
    | exact fun i => i.queue
    | exact fun i => i.copies
    | exact fun i => i.record
    | exact fun i => i.heads
    | exact fun i => i.memory

end Sys2Proof.Machine
end

