-- ==== Sys2Proof/Laws/KeepsLearning.lean ====
section
/-! SUPPORT. The effects of Machine/Learning.lean keep the queue and the invariant. -/

namespace Sys2Proof.Machine

theorem keeps_writeGradients {s₀ s : State} (hk : Keeps s₀ s) (v : View) (x : Nat × RowRun) (ok : Bool) (b : Nat) : Keeps s₀ (writeGradients v x ok b s) := by
  refine hk.trans ?_
  unfold writeGradients
  try dsimp only
  repeat' first
    | with_reducible assumption
    | with_reducible exact Keeps.refl _
    | split
    | with_reducible apply keeps_count
    | with_reducible apply keeps_writeBytes
    | with_reducible apply Keeps.inert
    | (intro u x hu)
    | with_reducible apply Keeps.active
    | exact fun i => sound_power i.present rfl
    | exact fun i => have k := sound_return i.present; sound_absent rfl k rfl
    | exact fun i => i.present
    | exact fun i => i.temps
    | exact fun i => i.queue
    | exact fun i => i.copies
    | exact fun i => i.record
    | exact fun i => i.heads
    | exact fun i => i.memory

theorem keeps_writeOperand {s₀ s : State} (hk : Keeps s₀ s) (v : View) (x : Nat × RowRun) : Keeps s₀ (writeOperand v x s) := by
  refine hk.trans ?_
  unfold writeOperand
  try dsimp only
  repeat' first
    | with_reducible assumption
    | with_reducible exact Keeps.refl _
    | split
    | with_reducible apply keeps_writeBytes
    | with_reducible apply Keeps.inert
    | (intro u x hu)
    | with_reducible apply Keeps.active
    | exact fun i => sound_power i.present rfl
    | exact fun i => have k := sound_return i.present; sound_absent rfl k rfl
    | exact fun i => i.present
    | exact fun i => i.temps
    | exact fun i => i.queue
    | exact fun i => i.copies
    | exact fun i => i.record
    | exact fun i => i.heads
    | exact fun i => i.memory

theorem keeps_runSecondPass {s₀ s : State} (hk : Keeps s₀ s) (v : View) : Keeps s₀ (runSecondPass v s) := by
  refine hk.trans ?_
  unfold runSecondPass
  try dsimp only
  repeat' first
    | with_reducible assumption
    | with_reducible exact Keeps.refl _
    | split
    | with_reducible apply keeps_writeGradients
    | with_reducible apply keeps_writeOperand
    | with_reducible apply keeps_withGroup
    | (with_reducible apply keeps_foldl)
    | with_reducible apply Keeps.inert
    | (intro u x hu)
    | with_reducible apply Keeps.active
    | exact fun i => sound_power i.present rfl
    | exact fun i => have k := sound_return i.present; sound_absent rfl k rfl
    | exact fun i => i.present
    | exact fun i => i.temps
    | exact fun i => i.queue
    | exact fun i => i.copies
    | exact fun i => i.record
    | exact fun i => i.heads
    | exact fun i => i.memory

end Sys2Proof.Machine
end

