-- ==== Sys2Proof/Laws/KeepsPump.lean ====
section
/-! SUPPORT. The effects of Machine/Pump.lean keep the queue and the invariant. -/

namespace Sys2Proof.Machine

theorem keeps_noteFault {s₀ s : State} (hk : Keeps s₀ s) (g pos : Nat) : Keeps s₀ (noteFault g pos s) := by
  refine hk.trans ?_
  unfold noteFault
  try dsimp only
  repeat' first
    | with_reducible assumption
    | with_reducible exact Keeps.refl _
    | split
    | with_reducible apply keeps_raiseCount
    | with_reducible apply keeps_withGroup
    | with_reducible apply Keeps.inert
    | (intro u x hu)
    | with_reducible apply Keeps.active
    | exact fun i => sound_power i.present rfl
    | exact fun i => have k := sound_return i.present; sound_absent rfl k rfl
    | exact fun i => i.present
    | exact fun i => i.temps
    | exact fun i => i.queue
    | exact fun i => i.copies
    | exact fun i => i.record
    | exact fun i => i.heads
    | exact fun i => i.memory

theorem keeps_noteCompared {s₀ s : State} (hk : Keeps s₀ s) (g : Nat) (c : Compared) : Keeps s₀ (noteCompared g c s) := by
  refine hk.trans ?_
  unfold noteCompared
  try dsimp only
  repeat' first
    | with_reducible assumption
    | with_reducible exact Keeps.refl _
    | split
    | with_reducible apply keeps_noteFault
    | with_reducible apply keeps_count
    | (with_reducible apply keeps_foldl)
    | with_reducible apply Keeps.inert
    | (intro u x hu)
    | with_reducible apply Keeps.active
    | exact fun i => sound_power i.present rfl
    | exact fun i => have k := sound_return i.present; sound_absent rfl k rfl
    | exact fun i => i.present
    | exact fun i => i.temps
    | exact fun i => i.queue
    | exact fun i => i.copies
    | exact fun i => i.record
    | exact fun i => i.heads
    | exact fun i => i.memory

theorem keeps_mark {s₀ s : State} (hk : Keeps s₀ s) (g target : Nat) (m : Mark) : Keeps s₀ (mark g target m s) := by
  refine hk.trans ?_
  unfold mark
  try dsimp only
  repeat' first
    | with_reducible assumption
    | with_reducible exact Keeps.refl _
    | split
    | with_reducible apply keeps_withGroup
    | with_reducible apply Keeps.inert
    | (intro u x hu)
    | with_reducible apply Keeps.active
    | exact fun i => sound_power i.present rfl
    | exact fun i => have k := sound_return i.present; sound_absent rfl k rfl
    | exact fun i => i.present
    | exact fun i => i.temps
    | exact fun i => i.queue
    | exact fun i => i.copies
    | exact fun i => i.record
    | exact fun i => i.heads
    | exact fun i => i.memory

theorem keeps_compareCopies {s₀ s : State} (hk : Keeps s₀ s) (g : Nat) : Keeps s₀ (compareCopies g s) := by
  refine hk.trans ?_
  unfold compareCopies
  try dsimp only
  repeat' first
    | with_reducible assumption
    | with_reducible exact Keeps.refl _
    | split
    | with_reducible apply keeps_noteCompared
    | with_reducible apply keeps_mark
    | (with_reducible apply keeps_foldl)
    | with_reducible apply Keeps.inert
    | (intro u x hu)
    | with_reducible apply Keeps.active
    | exact fun i => sound_power i.present rfl
    | exact fun i => have k := sound_return i.present; sound_absent rfl k rfl
    | exact fun i => i.present
    | exact fun i => i.temps
    | exact fun i => i.queue
    | exact fun i => i.copies
    | exact fun i => i.record
    | exact fun i => i.heads
    | exact fun i => i.memory

theorem keeps_compareLists {s₀ s : State} (hk : Keeps s₀ s) (g : Nat) : Keeps s₀ (compareLists g s) := by
  refine hk.trans ?_
  unfold compareLists
  try dsimp only
  repeat' first
    | with_reducible assumption
    | with_reducible exact Keeps.refl _
    | split
    | with_reducible apply keeps_noteOdd
    | with_reducible apply keeps_noteCompared
    | with_reducible apply keeps_mark
    | (with_reducible apply keeps_foldl)
    | with_reducible apply Keeps.inert
    | (intro u x hu)
    | with_reducible apply Keeps.active
    | exact fun i => sound_power i.present rfl
    | exact fun i => have k := sound_return i.present; sound_absent rfl k rfl
    | exact fun i => i.present
    | exact fun i => i.temps
    | exact fun i => i.queue
    | exact fun i => i.copies
    | exact fun i => i.record
    | exact fun i => i.heads
    | exact fun i => i.memory

theorem keeps_compareClaims {s₀ s : State} (hk : Keeps s₀ s) (g n : Nat) : Keeps s₀ (compareClaims g n s) := by
  refine hk.trans ?_
  unfold compareClaims
  try dsimp only
  repeat' first
    | with_reducible assumption
    | with_reducible exact Keeps.refl _
    | split
    | with_reducible apply keeps_noteCompared
    | with_reducible apply keeps_mark
    | with_reducible apply Keeps.inert
    | (intro u x hu)
    | with_reducible apply Keeps.active
    | exact fun i => sound_power i.present rfl
    | exact fun i => have k := sound_return i.present; sound_absent rfl k rfl
    | exact fun i => i.present
    | exact fun i => i.temps
    | exact fun i => i.queue
    | exact fun i => i.copies
    | exact fun i => i.record
    | exact fun i => i.heads
    | exact fun i => i.memory

theorem keeps_holdWalks {s₀ s : State} (hk : Keeps s₀ s) (g : Nat) : Keeps s₀ (holdWalks g s) := by
  refine hk.trans ?_
  unfold holdWalks
  try dsimp only
  repeat' first
    | with_reducible assumption
    | with_reducible exact Keeps.refl _
    | split
    | with_reducible apply keeps_placeWalk
    | with_reducible apply keeps_mark
    | (with_reducible apply keeps_foldl)
    | with_reducible apply Keeps.inert
    | (intro u x hu)
    | with_reducible apply Keeps.active
    | exact fun i => sound_power i.present rfl
    | exact fun i => have k := sound_return i.present; sound_absent rfl k rfl
    | exact fun i => i.present
    | exact fun i => i.temps
    | exact fun i => i.queue
    | exact fun i => i.copies
    | exact fun i => i.record
    | exact fun i => i.heads
    | exact fun i => i.memory

theorem keeps_noteEnd {s₀ s : State} (hk : Keeps s₀ s) : Keeps s₀ (noteEnd s) := by
  refine hk.trans ?_
  unfold noteEnd
  try dsimp only
  repeat' first
    | with_reducible assumption
    | with_reducible exact Keeps.refl _
    | split
    | with_reducible apply keeps_withRun
    | with_reducible apply Keeps.inert
    | (intro u x hu)
    | with_reducible apply Keeps.active
    | exact fun i => sound_power i.present rfl
    | exact fun i => have k := sound_return i.present; sound_absent rfl k rfl
    | exact fun i => i.present
    | exact fun i => i.temps
    | exact fun i => i.queue
    | exact fun i => i.copies
    | exact fun i => i.record
    | exact fun i => i.heads
    | exact fun i => i.memory

theorem keeps_sendGroup {s₀ s : State} (hk : Keeps s₀ s) (g : Nat) : Keeps s₀ (sendGroup g s) := by
  refine hk.trans ?_
  unfold sendGroup
  try dsimp only
  repeat' first
    | with_reducible assumption
    | with_reducible exact Keeps.refl _
    | split
    | with_reducible apply keeps_noteEnd
    | with_reducible apply keeps_sendMsg
    | with_reducible apply keeps_mark
    | (with_reducible apply keeps_foldl)
    | with_reducible apply Keeps.inert
    | (intro u x hu)
    | with_reducible apply Keeps.active
    | exact fun i => sound_power i.present rfl
    | exact fun i => have k := sound_return i.present; sound_absent rfl k rfl
    | exact fun i => i.present
    | exact fun i => i.temps
    | exact fun i => i.queue
    | exact fun i => i.copies
    | exact fun i => i.record
    | exact fun i => i.heads
    | exact fun i => i.memory

theorem keeps_keepFinals {s₀ s : State} (hk : Keeps s₀ s) (g : Nat) : Keeps s₀ (keepFinals g s) := by
  refine hk.trans ?_
  unfold keepFinals
  try dsimp only
  repeat' first
    | with_reducible assumption
    | with_reducible exact Keeps.refl _
    | split
    | with_reducible apply keeps_withGroup
    | with_reducible apply Keeps.inert
    | (intro u x hu)
    | with_reducible apply Keeps.active
    | exact fun i => sound_power i.present rfl
    | exact fun i => have k := sound_return i.present; sound_absent rfl k rfl
    | exact fun i => i.present
    | exact fun i => i.temps
    | exact fun i => i.queue
    | exact fun i => i.copies
    | exact fun i => i.record
    | exact fun i => i.heads
    | exact fun i => i.memory

theorem keeps_endGroup {s₀ s : State} (hk : Keeps s₀ s) (g : Nat) : Keeps s₀ (endGroup g s) := by
  refine hk.trans ?_
  unfold endGroup
  try dsimp only
  repeat' first
    | with_reducible assumption
    | with_reducible exact Keeps.refl _
    | split
    | with_reducible apply keeps_finishGroup
    | with_reducible apply keeps_withGroup
    | with_reducible apply Keeps.inert
    | (intro u x hu)
    | with_reducible apply Keeps.active
    | exact fun i => sound_power i.present rfl
    | exact fun i => have k := sound_return i.present; sound_absent rfl k rfl
    | exact fun i => i.present
    | exact fun i => i.temps
    | exact fun i => i.queue
    | exact fun i => i.copies
    | exact fun i => i.record
    | exact fun i => i.heads
    | exact fun i => i.memory

theorem keeps_endStepWork {s₀ s : State} (hk : Keeps s₀ s) : Keeps s₀ (endStepWork s) := by
  refine hk.trans ?_
  unfold endStepWork
  try dsimp only
  repeat' first
    | with_reducible assumption
    | with_reducible exact Keeps.refl _
    | split
    | with_reducible apply keeps_withRun
    | with_reducible apply keeps_writeBytes
    | with_reducible apply Keeps.inert
    | (intro u x hu)
    | with_reducible apply Keeps.active
    | exact fun i => sound_power i.present rfl
    | exact fun i => have k := sound_return i.present; sound_absent rfl k rfl
    | exact fun i => i.present
    | exact fun i => i.temps
    | exact fun i => i.queue
    | exact fun i => i.copies
    | exact fun i => i.record
    | exact fun i => i.heads
    | exact fun i => i.memory

theorem keeps_exchangeGroup {s₀ s : State} (hk : Keeps s₀ s) (g : Nat) : Keeps s₀ (exchangeGroup g s) := by
  refine hk.trans ?_
  unfold exchangeGroup
  try dsimp only
  repeat' first
    | with_reducible assumption
    | with_reducible exact Keeps.refl _
    | split
    | with_reducible apply keeps_sendGroup
    | with_reducible apply keeps_keepFinals
    | with_reducible apply keeps_compareClaims
    | with_reducible apply keeps_holdWalks
    | with_reducible apply keeps_compareLists
    | with_reducible apply keeps_compareCopies
    | with_reducible apply Keeps.inert
    | (intro u x hu)
    | with_reducible apply Keeps.active
    | exact fun i => sound_power i.present rfl
    | exact fun i => have k := sound_return i.present; sound_absent rfl k rfl
    | exact fun i => i.present
    | exact fun i => i.temps
    | exact fun i => i.queue
    | exact fun i => i.copies
    | exact fun i => i.record
    | exact fun i => i.heads
    | exact fun i => i.memory

theorem keeps_pumpGroup {s₀ s : State} (hk : Keeps s₀ s) (g : Nat) : Keeps s₀ (pumpGroup g s) := by
  refine hk.trans ?_
  unfold pumpGroup
  try dsimp only
  repeat' first
    | with_reducible assumption
    | with_reducible exact Keeps.refl _
    | split
    | with_reducible apply keeps_sendGroup
    | with_reducible apply keeps_compareCopies
    | with_reducible apply keeps_endGroup
    | with_reducible apply keeps_exchangeGroup
    | with_reducible apply Keeps.inert
    | (intro u x hu)
    | with_reducible apply Keeps.active
    | exact fun i => sound_power i.present rfl
    | exact fun i => have k := sound_return i.present; sound_absent rfl k rfl
    | exact fun i => i.present
    | exact fun i => i.temps
    | exact fun i => i.queue
    | exact fun i => i.copies
    | exact fun i => i.record
    | exact fun i => i.heads
    | exact fun i => i.memory

theorem keeps_pump {s₀ s : State} (hk : Keeps s₀ s) : Keeps s₀ (pump s) := by
  refine hk.trans ?_
  unfold pump
  try dsimp only
  repeat' first
    | with_reducible assumption
    | with_reducible exact Keeps.refl _
    | split
    | with_reducible apply keeps_endStepWork
    | with_reducible apply keeps_pumpGroup
    | (with_reducible apply keeps_foldl)
    | with_reducible apply Keeps.inert
    | (intro u x hu)
    | with_reducible apply Keeps.active
    | exact fun i => sound_power i.present rfl
    | exact fun i => have k := sound_return i.present; sound_absent rfl k rfl
    | exact fun i => i.present
    | exact fun i => i.temps
    | exact fun i => i.queue
    | exact fun i => i.copies
    | exact fun i => i.record
    | exact fun i => i.heads
    | exact fun i => i.memory

theorem keeps_takeOver {s₀ s : State} (hk : Keeps s₀ s) (old : State) : Keeps s₀ (takeOver old s) := by
  refine hk.trans ?_
  unfold takeOver
  try dsimp only
  repeat' first
    | with_reducible assumption
    | with_reducible exact Keeps.refl _
    | split
    | with_reducible apply keeps_withRun
    | with_reducible apply keeps_writeBloom
    | (with_reducible apply keeps_foldl)
    | with_reducible apply Keeps.inert
    | (intro u x hu)
    | with_reducible apply Keeps.active
    | exact fun i => sound_power i.present rfl
    | exact fun i => have k := sound_return i.present; sound_absent rfl k rfl
    | exact fun i => i.present
    | exact fun i => i.temps
    | exact fun i => i.queue
    | exact fun i => i.copies
    | exact fun i => i.record
    | exact fun i => i.heads
    | exact fun i => i.memory

theorem keeps_noteMissed {s₀ s : State} (hk : Keeps s₀ s) : Keeps s₀ (noteMissed s) := by
  refine hk.trans ?_
  unfold noteMissed
  try dsimp only
  repeat' first
    | with_reducible assumption
    | with_reducible exact Keeps.refl _
    | split
    | with_reducible apply keeps_withGroup
    | (with_reducible apply keeps_foldl)
    | with_reducible apply Keeps.inert
    | (intro u x hu)
    | with_reducible apply Keeps.active
    | exact fun i => sound_power i.present rfl
    | exact fun i => have k := sound_return i.present; sound_absent rfl k rfl
    | exact fun i => i.present
    | exact fun i => i.temps
    | exact fun i => i.queue
    | exact fun i => i.copies
    | exact fun i => i.record
    | exact fun i => i.heads
    | exact fun i => i.memory

theorem keeps_runDrain {s₀ s : State} (hk : Keeps s₀ s) (g brick : Nat) (ecc : List EccHit) : Keeps s₀ (runDrain g brick ecc s) := by
  refine hk.trans ?_
  unfold runDrain
  try dsimp only
  repeat' first
    | with_reducible assumption
    | with_reducible exact Keeps.refl _
    | split
    | with_reducible apply keeps_groupHits
    | with_reducible apply keeps_pump
    | with_reducible apply keeps_drainCritic
    | with_reducible apply keeps_drainBrick
    | with_reducible apply Keeps.inert
    | (intro u x hu)
    | with_reducible apply Keeps.active
    | exact fun i => sound_power i.present rfl
    | exact fun i => have k := sound_return i.present; sound_absent rfl k rfl
    | exact fun i => i.present
    | exact fun i => i.temps
    | exact fun i => i.queue
    | exact fun i => i.copies
    | exact fun i => i.record
    | exact fun i => i.heads
    | exact fun i => i.memory

theorem keeps_runResidual {s₀ s : State} (hk : Keeps s₀ s) (g : Nat) (ecc : List EccHit) : Keeps s₀ (runResidual g ecc s) := by
  refine hk.trans ?_
  unfold runResidual
  try dsimp only
  repeat' first
    | with_reducible assumption
    | with_reducible exact Keeps.refl _
    | split
    | with_reducible apply keeps_groupHits
    | with_reducible apply keeps_railReads
    | with_reducible apply keeps_pump
    | with_reducible apply keeps_withGroup
    | with_reducible apply Keeps.inert
    | (intro u x hu)
    | with_reducible apply Keeps.active
    | exact fun i => sound_power i.present rfl
    | exact fun i => have k := sound_return i.present; sound_absent rfl k rfl
    | exact fun i => i.present
    | exact fun i => i.temps
    | exact fun i => i.queue
    | exact fun i => i.copies
    | exact fun i => i.record
    | exact fun i => i.heads
    | exact fun i => i.memory

theorem keeps_secondReads {s₀ s : State} (hk : Keeps s₀ s) (g : Nat) (ecc : List EccHit) (v : View) : Keeps s₀ (secondReads g ecc v s) := by
  refine hk.trans ?_
  unfold secondReads
  try dsimp only
  repeat' first
    | with_reducible assumption
    | with_reducible exact Keeps.refl _
    | split
    | with_reducible apply keeps_groupHits
    | with_reducible apply keeps_railReads
    | with_reducible apply Keeps.inert
    | (intro u x hu)
    | with_reducible apply Keeps.active
    | exact fun i => sound_power i.present rfl
    | exact fun i => have k := sound_return i.present; sound_absent rfl k rfl
    | exact fun i => i.present
    | exact fun i => i.temps
    | exact fun i => i.queue
    | exact fun i => i.copies
    | exact fun i => i.record
    | exact fun i => i.heads
    | exact fun i => i.memory

theorem keeps_doSecondPass {s₀ s : State} (hk : Keeps s₀ s) (g : Nat) (ecc : List EccHit) : Keeps s₀ (doSecondPass g ecc s) := by
  refine hk.trans ?_
  unfold doSecondPass
  try dsimp only
  repeat' first
    | with_reducible assumption
    | with_reducible exact Keeps.refl _
    | split
    | with_reducible apply keeps_secondReads
    | with_reducible apply keeps_endStepWork
    | with_reducible apply keeps_runSecondPass
    | with_reducible apply Keeps.inert
    | (intro u x hu)
    | with_reducible apply Keeps.active
    | exact fun i => sound_power i.present rfl
    | exact fun i => have k := sound_return i.present; sound_absent rfl k rfl
    | exact fun i => i.present
    | exact fun i => i.temps
    | exact fun i => i.queue
    | exact fun i => i.copies
    | exact fun i => i.record
    | exact fun i => i.heads
    | exact fun i => i.memory

theorem keeps_acknowledgeGroup {s₀ s : State} (hk : Keeps s₀ s) (g : Nat) : Keeps s₀ (acknowledgeGroup g s) := by
  refine hk.trans ?_
  unfold acknowledgeGroup
  try dsimp only
  repeat' first
    | with_reducible assumption
    | with_reducible exact Keeps.refl _
    | split
    | with_reducible apply keeps_noteEnd
    | with_reducible apply keeps_withRun
    | with_reducible apply keeps_withGroup
    | with_reducible apply keeps_endStepWork
    | with_reducible apply keeps_writeBytes
    | with_reducible apply Keeps.inert
    | (intro u x hu)
    | with_reducible apply Keeps.active
    | exact fun i => sound_power i.present rfl
    | exact fun i => have k := sound_return i.present; sound_absent rfl k rfl
    | exact fun i => i.present
    | exact fun i => i.temps
    | exact fun i => i.queue
    | exact fun i => i.copies
    | exact fun i => i.record
    | exact fun i => i.heads
    | exact fun i => i.memory

end Sys2Proof.Machine
end

