-- ==== Sys2Proof/Laws/KeepsReliability.lean ====
section
/-! SUPPORT. The effects of Machine/Reliability.lean keep the queue and the invariant. -/

namespace Sys2Proof.Machine

theorem keeps_scrubLine {s₀ s : State} (hk : Keeps s₀ s) (m line : Nat) (found : List EccHit) : Keeps s₀ (scrubLine m line found s) := by
  refine hk.trans ?_
  unfold scrubLine
  try dsimp only
  repeat' first
    | with_reducible assumption
    | with_reducible exact Keeps.refl _
    | split
    | with_reducible apply keeps_uncorrectableScrub
    | with_reducible apply keeps_correctedWord
    | (with_reducible apply keeps_foldl)
    | with_reducible apply Keeps.inert
    | (intro u x hu)
    | with_reducible apply Keeps.active
    | exact fun i => sound_power i.present rfl
    | exact fun i => have k := sound_return i.present; sound_absent rfl k rfl
    | exact fun i => i.present
    | exact fun i => i.temps
    | exact fun i => i.queue
    | exact fun i => i.copies
    | exact fun i => i.record
    | exact fun i => i.heads
    | exact fun i => i.memory

theorem keeps_scrubAdvance {s₀ s : State} (hk : Keeps s₀ s) (m line : Nat) : Keeps s₀ (scrubAdvance m line s) := by
  refine hk.trans ?_
  unfold scrubAdvance
  try dsimp only
  repeat' first
    | with_reducible assumption
    | with_reducible exact Keeps.refl _
    | split
    | with_reducible apply keeps_count
    | with_reducible apply Keeps.inert
    | (intro u x hu)
    | with_reducible apply Keeps.active
    | exact fun i => sound_power i.present rfl
    | exact fun i => have k := sound_return i.present; sound_absent rfl k rfl
    | exact fun i => i.present
    | exact fun i => i.temps
    | exact fun i => i.queue
    | exact fun i => i.copies
    | exact fun i => i.record
    | exact fun i => i.heads
    | exact fun i => i.memory

theorem keeps_scrubRead {s₀ s : State} (hk : Keeps s₀ s) (found : List EccHit) : Keeps s₀ (scrubRead found s) := by
  refine hk.trans ?_
  unfold scrubRead
  try dsimp only
  repeat' first
    | with_reducible assumption
    | with_reducible exact Keeps.refl _
    | split
    | with_reducible apply keeps_scrubLine
    | with_reducible apply keeps_raise
    | with_reducible apply keeps_count
    | with_reducible apply keeps_scrubAdvance
    | with_reducible apply Keeps.inert
    | (intro u x hu)
    | with_reducible apply Keeps.active
    | exact fun i => sound_power i.present rfl
    | exact fun i => have k := sound_return i.present; sound_absent rfl k rfl
    | exact fun i => i.present
    | exact fun i => i.temps
    | exact fun i => i.queue
    | exact fun i => i.copies
    | exact fun i => i.record
    | exact fun i => i.heads
    | exact fun i => i.memory

theorem keeps_failSnapshot {s₀ s : State} (hk : Keeps s₀ s) (reason : Nat) : Keeps s₀ (failSnapshot reason s) := by
  refine hk.trans ?_
  unfold failSnapshot
  try dsimp only
  repeat' first
    | with_reducible assumption
    | with_reducible exact Keeps.refl _
    | split
    | with_reducible apply keeps_raiseCount
    | with_reducible apply Keeps.inert
    | (intro u x hu)
    | with_reducible apply Keeps.active
    | exact fun i => sound_power i.present rfl
    | exact fun i => have k := sound_return i.present; sound_absent rfl k rfl
    | exact fun i => i.present
    | exact fun i => i.temps
    | exact fun i => i.queue
    | exact fun i => i.copies
    | exact fun i => i.record
    | exact fun i => i.heads
    | exact fun i => i.memory

theorem keeps_capture {s₀ s : State} (hk : Keeps s₀ s) : Keeps s₀ (capture s) := by
  refine hk.trans ?_
  unfold capture
  try dsimp only
  repeat' first
    | with_reducible assumption
    | with_reducible exact Keeps.refl _
    | split
    | with_reducible apply keeps_count
    | with_reducible apply keeps_wake
    | with_reducible apply keeps_failSnapshot
    | with_reducible apply Keeps.inert
    | (intro u x hu)
    | with_reducible apply Keeps.active
    | exact fun i => sound_power i.present rfl
    | exact fun i => have k := sound_return i.present; sound_absent rfl k rfl
    | exact fun i => i.present
    | exact fun i => i.temps
    | exact fun i => i.queue
    | exact fun i => i.copies
    | exact fun i => i.record
    | exact fun i => i.heads
    | exact fun i => i.memory

theorem keeps_snapshotGoEffect {s₀ s : State} (hk : Keeps s₀ s) : Keeps s₀ (snapshotGoEffect s) := by
  refine hk.trans ?_
  unfold snapshotGoEffect
  try dsimp only
  repeat' first
    | with_reducible assumption
    | with_reducible exact Keeps.refl _
    | split
    | with_reducible apply keeps_reject
    | with_reducible apply keeps_capture
    | with_reducible apply Keeps.inert
    | (intro u x hu)
    | with_reducible apply Keeps.active
    | exact fun i => sound_power i.present rfl
    | exact fun i => have k := sound_return i.present; sound_absent rfl k rfl
    | exact fun i => i.present
    | exact fun i => i.temps
    | exact fun i => i.queue
    | exact fun i => i.copies
    | exact fun i => i.record
    | exact fun i => i.heads
    | exact fun i => i.memory

theorem keeps_sendChunk {s₀ s : State} (hk : Keeps s₀ s) (r : SnapRun) (c : Chunk) : Keeps s₀ (sendChunk r c s) := by
  refine hk.trans ?_
  unfold sendChunk
  try dsimp only
  repeat' first
    | with_reducible assumption
    | with_reducible exact Keeps.refl _
    | split
    | with_reducible apply keeps_sendMsg
    | with_reducible apply Keeps.inert
    | (intro u x hu)
    | with_reducible apply Keeps.active
    | exact fun i => sound_power i.present rfl
    | exact fun i => have k := sound_return i.present; sound_absent rfl k rfl
    | exact fun i => i.present
    | exact fun i => i.temps
    | exact fun i => i.queue
    | exact fun i => i.copies
    | exact fun i => i.record
    | exact fun i => i.heads
    | exact fun i => i.memory

theorem keeps_snapshotChunkRead {s₀ s : State} (hk : Keeps s₀ s) : Keeps s₀ (snapshotChunkRead s) := by
  refine hk.trans ?_
  unfold snapshotChunkRead
  try dsimp only
  repeat' first
    | with_reducible assumption
    | with_reducible exact Keeps.refl _
    | split
    | with_reducible apply keeps_sendChunk
    | with_reducible apply Keeps.inert
    | (intro u x hu)
    | with_reducible apply Keeps.active
    | exact fun i => sound_power i.present rfl
    | exact fun i => have k := sound_return i.present; sound_absent rfl k rfl
    | exact fun i => i.present
    | exact fun i => i.temps
    | exact fun i => i.queue
    | exact fun i => i.copies
    | exact fun i => i.record
    | exact fun i => i.heads
    | exact fun i => i.memory

theorem keeps_captureHits {s₀ s : State} (hk : Keeps s₀ s) (ecc : List EccHit) : Keeps s₀ (captureHits ecc s) := by
  refine hk.trans ?_
  unfold captureHits
  try dsimp only
  repeat' first
    | with_reducible assumption
    | with_reducible exact Keeps.refl _
    | split
    | with_reducible apply keeps_readHits
    | with_reducible apply keeps_failSnapshot
    | with_reducible apply Keeps.inert
    | (intro u x hu)
    | with_reducible apply Keeps.active
    | exact fun i => sound_power i.present rfl
    | exact fun i => have k := sound_return i.present; sound_absent rfl k rfl
    | exact fun i => i.present
    | exact fun i => i.temps
    | exact fun i => i.queue
    | exact fun i => i.copies
    | exact fun i => i.record
    | exact fun i => i.heads
    | exact fun i => i.memory

theorem keeps_finishSnapshot {s₀ s : State} (hk : Keeps s₀ s) (r : SnapRun) : Keeps s₀ (finishSnapshot r s) := by
  refine hk.trans ?_
  unfold finishSnapshot
  try dsimp only
  repeat' first
    | with_reducible assumption
    | with_reducible exact Keeps.refl _
    | split
    | with_reducible apply keeps_raiseCount
    | with_reducible apply Keeps.inert
    | (intro u x hu)
    | with_reducible apply Keeps.active
    | exact fun i => sound_power i.present rfl
    | exact fun i => have k := sound_return i.present; sound_absent rfl k rfl
    | exact fun i => i.present
    | exact fun i => i.temps
    | exact fun i => i.queue
    | exact fun i => i.copies
    | exact fun i => i.record
    | exact fun i => i.heads
    | exact fun i => i.memory

theorem keeps_takeReceipt {s₀ s : State} (hk : Keeps s₀ s) (src : Nat) (h : ChunkHead) : Keeps s₀ (takeReceipt src h s) := by
  refine hk.trans ?_
  unfold takeReceipt
  try dsimp only
  repeat' first
    | with_reducible assumption
    | with_reducible exact Keeps.refl _
    | split
    | with_reducible apply keeps_failSnapshot
    | with_reducible apply keeps_finishSnapshot
    | with_reducible apply Keeps.inert
    | (intro u x hu)
    | with_reducible apply Keeps.active
    | exact fun i => sound_power i.present rfl
    | exact fun i => have k := sound_return i.present; sound_absent rfl k rfl
    | exact fun i => i.present
    | exact fun i => i.temps
    | exact fun i => i.queue
    | exact fun i => i.copies
    | exact fun i => i.record
    | exact fun i => i.heads
    | exact fun i => i.memory

theorem keeps_sendReceipt {s₀ s : State} (hk : Keeps s₀ s) (dst : Nat) (header : Bytes) (placing : Bool) : Keeps s₀ (sendReceipt dst header placing s) := by
  refine hk.trans ?_
  unfold sendReceipt
  try dsimp only
  repeat' first
    | with_reducible assumption
    | with_reducible exact Keeps.refl _
    | split
    | with_reducible apply keeps_sendMsg
    | with_reducible apply Keeps.inert
    | (intro u x hu)
    | with_reducible apply Keeps.active
    | exact fun i => sound_power i.present rfl
    | exact fun i => have k := sound_return i.present; sound_absent rfl k rfl
    | exact fun i => i.present
    | exact fun i => i.temps
    | exact fun i => i.queue
    | exact fun i => i.copies
    | exact fun i => i.record
    | exact fun i => i.heads
    | exact fun i => i.memory

theorem keeps_refuseChunk {s₀ s : State} (hk : Keeps s₀ s) (src : Nat) (header : Bytes) (own : Bool) : Keeps s₀ (refuseChunk src header own s) := by
  refine hk.trans ?_
  unfold refuseChunk
  try dsimp only
  repeat' first
    | with_reducible assumption
    | with_reducible exact Keeps.refl _
    | split
    | with_reducible apply keeps_sendReceipt
    | with_reducible apply keeps_raiseArgs
    | with_reducible apply Keeps.inert
    | (intro u x hu)
    | with_reducible apply Keeps.active
    | exact fun i => sound_power i.present rfl
    | exact fun i => have k := sound_return i.present; sound_absent rfl k rfl
    | exact fun i => i.present
    | exact fun i => i.temps
    | exact fun i => i.queue
    | exact fun i => i.copies
    | exact fun i => i.record
    | exact fun i => i.heads
    | exact fun i => i.memory

theorem keeps_copyBytes {s₀ s : State} (hk : Keeps s₀ s) (src dst n : Nat) : Keeps s₀ (copyBytes src dst n s) := by
  refine hk.trans ?_
  unfold copyBytes
  try dsimp only
  repeat' first
    | with_reducible assumption
    | with_reducible exact Keeps.refl _
    | split
    | with_reducible apply keeps_writeBytes
    | with_reducible apply Keeps.inert
    | (intro u x hu)
    | with_reducible apply Keeps.active
    | exact fun i => sound_power i.present rfl
    | exact fun i => have k := sound_return i.present; sound_absent rfl k rfl
    | exact fun i => i.present
    | exact fun i => i.temps
    | exact fun i => i.queue
    | exact fun i => i.copies
    | exact fun i => i.record
    | exact fun i => i.heads
    | exact fun i => i.memory

theorem keeps_placeChunk {s₀ s : State} (hk : Keeps s₀ s) (r : HoldIn) (header : Bytes) (pl : Bytes) : Keeps s₀ (placeChunk r header pl s) := by
  refine hk.trans ?_
  unfold placeChunk
  try dsimp only
  repeat' first
    | with_reducible assumption
    | with_reducible exact Keeps.refl _
    | split
    | with_reducible apply keeps_writeBytes
    | with_reducible apply Keeps.inert
    | (intro u x hu)
    | with_reducible apply Keeps.active
    | exact fun i => sound_power i.present rfl
    | exact fun i => have k := sound_return i.present; sound_absent rfl k rfl
    | exact fun i => i.present
    | exact fun i => i.temps
    | exact fun i => i.queue
    | exact fun i => i.copies
    | exact fun i => i.record
    | exact fun i => i.heads
    | exact fun i => i.memory

theorem keeps_takeHold {s₀ s : State} (hk : Keeps s₀ s) (src : Nat) (pl : Bytes) : Keeps s₀ (takeHold src pl s) := by
  refine hk.trans ?_
  unfold takeHold
  try dsimp only
  repeat' first
    | with_reducible assumption
    | with_reducible exact Keeps.refl _
    | split
    | with_reducible apply keeps_refuseChunk
    | with_reducible apply keeps_placeChunk
    | with_reducible apply keeps_copyBytes
    | with_reducible apply Keeps.inert
    | (intro u x hu)
    | with_reducible apply Keeps.active
    | exact fun i => sound_power i.present rfl
    | exact fun i => have k := sound_return i.present; sound_absent rfl k rfl
    | exact fun i => i.present
    | exact fun i => i.temps
    | exact fun i => i.queue
    | exact fun i => i.copies
    | exact fun i => i.record
    | exact fun i => i.heads
    | exact fun i => i.memory

theorem keeps_holdPlaced {s₀ s : State} (hk : Keeps s₀ s) : Keeps s₀ (holdPlaced s) := by
  refine hk.trans ?_
  unfold holdPlaced
  try dsimp only
  repeat' first
    | with_reducible assumption
    | with_reducible exact Keeps.refl _
    | split
    | with_reducible apply keeps_sendReceipt
    | with_reducible apply Keeps.inert
    | (intro u x hu)
    | with_reducible apply Keeps.active
    | exact fun i => sound_power i.present rfl
    | exact fun i => have k := sound_return i.present; sound_absent rfl k rfl
    | exact fun i => i.present
    | exact fun i => i.temps
    | exact fun i => i.queue
    | exact fun i => i.copies
    | exact fun i => i.record
    | exact fun i => i.heads
    | exact fun i => i.memory

theorem keeps_holdClearEffect {s₀ s : State} (hk : Keeps s₀ s) : Keeps s₀ (holdClearEffect s) := by
  refine hk.trans ?_
  unfold holdClearEffect
  try dsimp only
  repeat' first
    | with_reducible assumption
    | with_reducible exact Keeps.refl _
    | split
    | with_reducible apply Keeps.inert
    | (intro u x hu)
    | with_reducible apply Keeps.active
    | exact fun i => sound_power i.present rfl
    | exact fun i => have k := sound_return i.present; sound_absent rfl k rfl
    | exact fun i => i.present
    | exact fun i => i.temps
    | exact fun i => i.queue
    | exact fun i => i.copies
    | exact fun i => i.record
    | exact fun i => i.heads
    | exact fun i => i.memory

theorem keeps_holdSendGoEffect {s₀ s : State} (hk : Keeps s₀ s) : Keeps s₀ (holdSendGoEffect s) := by
  refine hk.trans ?_
  unfold holdSendGoEffect
  try dsimp only
  repeat' first
    | with_reducible assumption
    | with_reducible exact Keeps.refl _
    | split
    | with_reducible apply keeps_reject
    | with_reducible apply Keeps.inert
    | (intro u x hu)
    | with_reducible apply Keeps.active
    | exact fun i => sound_power i.present rfl
    | exact fun i => have k := sound_return i.present; sound_absent rfl k rfl
    | exact fun i => i.present
    | exact fun i => i.temps
    | exact fun i => i.queue
    | exact fun i => i.copies
    | exact fun i => i.record
    | exact fun i => i.heads
    | exact fun i => i.memory

theorem keeps_holdSend {s₀ s : State} (hk : Keeps s₀ s) (i c : Nat) : Keeps s₀ (holdSend i c s) := by
  refine hk.trans ?_
  unfold holdSend
  try dsimp only
  repeat' first
    | with_reducible assumption
    | with_reducible exact Keeps.refl _
    | split
    | with_reducible apply keeps_sendMsg
    | with_reducible apply Keeps.inert
    | (intro u x hu)
    | with_reducible apply Keeps.active
    | exact fun i => sound_power i.present rfl
    | exact fun i => have k := sound_return i.present; sound_absent rfl k rfl
    | exact fun i => i.present
    | exact fun i => i.temps
    | exact fun i => i.queue
    | exact fun i => i.copies
    | exact fun i => i.record
    | exact fun i => i.heads
    | exact fun i => i.memory

theorem keeps_holdChunkRead {s₀ s : State} (hk : Keeps s₀ s) : Keeps s₀ (holdChunkRead s) := by
  refine hk.trans ?_
  unfold holdChunkRead
  try dsimp only
  repeat' first
    | with_reducible assumption
    | with_reducible exact Keeps.refl _
    | split
    | with_reducible apply keeps_holdSend
    | with_reducible apply Keeps.inert
    | (intro u x hu)
    | with_reducible apply Keeps.active
    | exact fun i => sound_power i.present rfl
    | exact fun i => have k := sound_return i.present; sound_absent rfl k rfl
    | exact fun i => i.present
    | exact fun i => i.temps
    | exact fun i => i.queue
    | exact fun i => i.copies
    | exact fun i => i.record
    | exact fun i => i.heads
    | exact fun i => i.memory

theorem keeps_markAll {s₀ s : State} (hk : Keeps s₀ s) : Keeps s₀ (markAll s) := by
  refine hk.trans ?_
  unfold markAll
  try dsimp only
  repeat' first
    | with_reducible assumption
    | with_reducible exact Keeps.refl _
    | split
    | with_reducible apply keeps_dirtyKeys
    | with_reducible apply Keeps.inert
    | (intro u x hu)
    | with_reducible apply Keeps.active
    | exact fun i => sound_power i.present rfl
    | exact fun i => have k := sound_return i.present; sound_absent rfl k rfl
    | exact fun i => i.present
    | exact fun i => i.temps
    | exact fun i => i.queue
    | exact fun i => i.copies
    | exact fun i => i.record
    | exact fun i => i.heads
    | exact fun i => i.memory

theorem keeps_prepareRestore {s₀ s : State} (hk : Keeps s₀ s) : Keeps s₀ (prepareRestore s) := by
  refine hk.trans ?_
  unfold prepareRestore
  try dsimp only
  repeat' first
    | with_reducible assumption
    | with_reducible exact Keeps.refl _
    | split
    | with_reducible apply keeps_markAll
    | with_reducible apply keeps_clearStarts
    | with_reducible apply Keeps.inert
    | (intro u x hu)
    | with_reducible apply Keeps.active
    | exact fun i => sound_power i.present rfl
    | exact fun i => have k := sound_return i.present; sound_absent rfl k rfl
    | exact fun i => i.present
    | exact fun i => i.temps
    | exact fun i => i.queue
    | exact fun i => i.copies
    | exact fun i => i.record
    | exact fun i => i.heads
    | exact fun i => i.memory

theorem keeps_failRestore {s₀ s : State} (hk : Keeps s₀ s) (reason : Nat) : Keeps s₀ (failRestore reason s) := by
  refine hk.trans ?_
  unfold failRestore
  try dsimp only
  repeat' first
    | with_reducible assumption
    | with_reducible exact Keeps.refl _
    | split
    | with_reducible apply keeps_prepareRestore
    | with_reducible apply keeps_raiseCount
    | with_reducible apply Keeps.inert
    | (intro u x hu)
    | with_reducible apply Keeps.active
    | exact fun i => sound_power i.present rfl
    | exact fun i => have k := sound_return i.present; sound_absent rfl k rfl
    | exact fun i => i.present
    | exact fun i => i.temps
    | exact fun i => i.queue
    | exact fun i => i.copies
    | exact fun i => i.record
    | exact fun i => i.heads
    | exact fun i => i.memory

theorem keeps_startRestore {s₀ s : State} (hk : Keeps s₀ s) : Keeps s₀ (startRestore s) := by
  refine hk.trans ?_
  unfold startRestore
  try dsimp only
  repeat' first
    | with_reducible assumption
    | with_reducible exact Keeps.refl _
    | split
    | with_reducible apply keeps_prepareRestore
    | with_reducible apply keeps_wake
    | with_reducible apply keeps_failRestore
    | with_reducible apply Keeps.inert
    | (intro u x hu)
    | with_reducible apply Keeps.active
    | exact fun i => sound_power i.present rfl
    | exact fun i => have k := sound_return i.present; sound_absent rfl k rfl
    | exact fun i => i.present
    | exact fun i => i.temps
    | exact fun i => i.queue
    | exact fun i => i.copies
    | exact fun i => i.record
    | exact fun i => i.heads
    | exact fun i => i.memory

theorem keeps_restoreGoEffect {s₀ s : State} (hk : Keeps s₀ s) : Keeps s₀ (restoreGoEffect s) := by
  refine hk.trans ?_
  unfold restoreGoEffect
  try dsimp only
  repeat' first
    | with_reducible assumption
    | with_reducible exact Keeps.refl _
    | split
    | with_reducible apply keeps_reject
    | with_reducible apply keeps_failRestore
    | with_reducible apply keeps_startRestore
    | with_reducible apply Keeps.inert
    | (intro u x hu)
    | with_reducible apply Keeps.active
    | exact fun i => sound_power i.present rfl
    | exact fun i => have k := sound_return i.present; sound_absent rfl k rfl
    | exact fun i => i.present
    | exact fun i => i.temps
    | exact fun i => i.queue
    | exact fun i => i.copies
    | exact fun i => i.record
    | exact fun i => i.heads
    | exact fun i => i.memory

theorem keeps_applyRecord {s₀ s : State} (hk : Keeps s₀ s) (kind : Nat) (r : Bytes) : Keeps s₀ (applyRecord kind r s) := by
  refine hk.trans ?_
  unfold applyRecord
  try dsimp only
  repeat' first
    | with_reducible assumption
    | with_reducible exact Keeps.refl _
    | split
    | with_reducible apply keeps_dirtySlot
    | with_reducible apply keeps_dirtyKeys
    | with_reducible apply keeps_setContext
    | with_reducible apply keeps_writeBytes
    | with_reducible apply Keeps.inert
    | (intro u x hu)
    | with_reducible apply Keeps.active
    | exact fun i => sound_power i.present rfl
    | exact fun i => have k := sound_return i.present; sound_absent rfl k rfl
    | exact fun i => i.present
    | exact fun i => i.temps
    | exact fun i => i.queue
    | exact fun i => i.copies
    | exact fun i => i.record
    | exact fun i => i.heads
    | exact fun i => i.memory

theorem keeps_applyRecords {s₀ s : State} (hk : Keeps s₀ s) (kind fuel : Nat) (bs : Bytes) :
    Keeps s₀ (applyRecords kind fuel bs s) := by
  induction fuel generalizing s bs with
  | zero => exact hk
  | succ fuel ih =>
    rw [applyRecords]
    split
    · exact hk
    · exact ih (keeps_applyRecord hk ..) _

theorem keeps_applyChunk {s₀ s : State} (hk : Keeps s₀ s) (h : ChunkHead) (payload : Bytes) :
    Keeps s₀ (applyChunk h payload s) := keeps_applyRecords hk ..

theorem keeps_rebuildNodes {s₀ s : State} (hk : Keeps s₀ s) : Keeps s₀ (rebuildNodes s) := by
  refine hk.trans ?_
  unfold rebuildNodes
  try dsimp only
  repeat' first
    | with_reducible assumption
    | with_reducible exact Keeps.refl _
    | split
    | with_reducible apply keeps_count
    | (with_reducible apply keeps_foldl)
    | with_reducible apply Keeps.inert
    | (intro u x hu)
    | with_reducible apply Keeps.active
    | exact fun i => sound_power i.present rfl
    | exact fun i => have k := sound_return i.present; sound_absent rfl k rfl
    | exact fun i => i.present
    | exact fun i => i.temps
    | exact fun i => i.queue
    | exact fun i => i.copies
    | exact fun i => i.record
    | exact fun i => i.heads
    | exact fun i => i.memory

theorem keeps_completeRestore {s₀ s : State} (hk : Keeps s₀ s) (r : RestoreRun) (h : Bytes) : Keeps s₀ (completeRestore r h s) := by
  refine hk.trans ?_
  unfold completeRestore
  try dsimp only
  repeat' first
    | with_reducible assumption
    | with_reducible exact Keeps.refl _
    | split
    | with_reducible apply keeps_rebuildNodes
    | with_reducible apply keeps_broadcastDiscover
    | with_reducible apply keeps_raiseCount
    | with_reducible apply Keeps.inert
    | (intro u x hu)
    | with_reducible apply Keeps.active
    | exact fun i => sound_power i.present rfl
    | exact fun i => have k := sound_return i.present; sound_absent rfl k rfl
    | exact fun i => i.present
    | exact fun i => i.temps
    | exact fun i => i.queue
    | exact fun i => i.copies
    | exact fun i => i.record
    | exact fun i => i.heads
    | exact fun i => i.memory

theorem keeps_discardChunk {s₀ s : State} (hk : Keeps s₀ s) : Keeps s₀ (discardChunk s) := by
  refine hk.trans ?_
  unfold discardChunk
  try dsimp only
  repeat' first
    | with_reducible assumption
    | with_reducible exact Keeps.refl _
    | split
    | with_reducible apply keeps_count
    | with_reducible apply Keeps.inert
    | (intro u x hu)
    | with_reducible apply Keeps.active
    | exact fun i => sound_power i.present rfl
    | exact fun i => have k := sound_return i.present; sound_absent rfl k rfl
    | exact fun i => i.present
    | exact fun i => i.temps
    | exact fun i => i.queue
    | exact fun i => i.copies
    | exact fun i => i.record
    | exact fun i => i.heads
    | exact fun i => i.memory

theorem keeps_chunkDone {s₀ s : State} (hk : Keeps s₀ s) (r : RestoreRun) : Keeps s₀ (chunkDone r s) := by
  refine hk.trans ?_
  unfold chunkDone
  try dsimp only
  repeat' first
    | with_reducible assumption
    | with_reducible exact Keeps.refl _
    | split
    | with_reducible apply Keeps.inert
    | (intro u x hu)
    | with_reducible apply Keeps.active
    | exact fun i => sound_power i.present rfl
    | exact fun i => have k := sound_return i.present; sound_absent rfl k rfl
    | exact fun i => i.present
    | exact fun i => i.temps
    | exact fun i => i.queue
    | exact fun i => i.copies
    | exact fun i => i.record
    | exact fun i => i.heads
    | exact fun i => i.memory

theorem keeps_endImage {s₀ s : State} (hk : Keeps s₀ s) (r : RestoreRun) (payload : Bytes) (n : Nat) : Keeps s₀ (endImage r payload n s) := by
  refine hk.trans ?_
  unfold endImage
  try dsimp only
  repeat' first
    | with_reducible assumption
    | with_reducible exact Keeps.refl _
    | split
    | with_reducible apply keeps_completeRestore
    | with_reducible apply keeps_chunkDone
    | with_reducible apply Keeps.inert
    | (intro u x hu)
    | with_reducible apply Keeps.active
    | exact fun i => sound_power i.present rfl
    | exact fun i => have k := sound_return i.present; sound_absent rfl k rfl
    | exact fun i => i.present
    | exact fun i => i.temps
    | exact fun i => i.queue
    | exact fun i => i.copies
    | exact fun i => i.record
    | exact fun i => i.heads
    | exact fun i => i.memory

theorem keeps_takeLastChunk {s₀ s : State} (hk : Keeps s₀ s) (r : RestoreRun) (payload : Bytes) (n : Nat) :
    Keeps s₀ (takeLastChunk r payload n s) :=
  keeps_ite (keeps_failRestore hk _) (keeps_ite (keeps_failRestore hk _) (keeps_ite (keeps_failRestore hk _)
    (keeps_ite (keeps_failRestore hk _) (keeps_endImage hk ..))))

theorem keeps_damagedChunk {s₀ s : State} (hk : Keeps s₀ s) (r : RestoreRun) : Keeps s₀ (damagedChunk r s) := by
  refine hk.trans ?_
  unfold damagedChunk
  try dsimp only
  repeat' first
    | with_reducible assumption
    | with_reducible exact Keeps.refl _
    | split
    | with_reducible apply keeps_failRestore
    | with_reducible apply Keeps.inert
    | (intro u x hu)
    | with_reducible apply Keeps.active
    | exact fun i => sound_power i.present rfl
    | exact fun i => have k := sound_return i.present; sound_absent rfl k rfl
    | exact fun i => i.present
    | exact fun i => i.temps
    | exact fun i => i.queue
    | exact fun i => i.copies
    | exact fun i => i.record
    | exact fun i => i.heads
    | exact fun i => i.memory

theorem keeps_takeChunk {s₀ s : State} (hk : Keeps s₀ s) (r : RestoreRun) (h : ChunkHead) (payload : Bytes)
    (e n : Nat) : Keeps s₀ (takeChunk r h payload e n s) :=
  keeps_ite (keeps_discardChunk hk) (keeps_ite (keeps_discardChunk hk) (keeps_ite (keeps_failRestore hk _)
    (keeps_ite (keeps_damagedChunk hk _) (keeps_ite (keeps_failRestore hk _) (keeps_ite (keeps_takeLastChunk hk ..)
      (keeps_chunkDone (keeps_applyChunk hk ..) _))))))

theorem keeps_takeStatePage {s₀ s : State} (hk : Keeps s₀ s) (src : Nat) (pl : Bytes) : Keeps s₀ (takeStatePage src pl s) := by
  refine hk.trans ?_
  unfold takeStatePage
  try dsimp only
  repeat' first
    | with_reducible assumption
    | with_reducible exact Keeps.refl _
    | split
    | with_reducible apply keeps_stale
    | with_reducible apply keeps_takeReceipt
    | with_reducible apply keeps_takeChunk
    | with_reducible apply keeps_discardChunk
    | with_reducible apply keeps_takeHold
    | with_reducible apply Keeps.inert
    | (intro u x hu)
    | with_reducible apply Keeps.active
    | exact fun i => sound_power i.present rfl
    | exact fun i => have k := sound_return i.present; sound_absent rfl k rfl
    | exact fun i => i.present
    | exact fun i => i.temps
    | exact fun i => i.queue
    | exact fun i => i.copies
    | exact fun i => i.record
    | exact fun i => i.heads
    | exact fun i => i.memory

theorem keeps_restoreRead {s₀ s : State} (hk : Keeps s₀ s) (r : RestoreRun) : Keeps s₀ (restoreRead r s) := by
  refine hk.trans ?_
  unfold restoreRead
  try dsimp only
  repeat' first
    | with_reducible assumption
    | with_reducible exact Keeps.refl _
    | split
    | with_reducible apply keeps_takeChunk
    | with_reducible apply Keeps.inert
    | (intro u x hu)
    | with_reducible apply Keeps.active
    | exact fun i => sound_power i.present rfl
    | exact fun i => have k := sound_return i.present; sound_absent rfl k rfl
    | exact fun i => i.present
    | exact fun i => i.temps
    | exact fun i => i.queue
    | exact fun i => i.copies
    | exact fun i => i.record
    | exact fun i => i.heads
    | exact fun i => i.memory

theorem keeps_restoreChunkRead {s₀ s : State} (hk : Keeps s₀ s) : Keeps s₀ (restoreChunkRead s) := by
  refine hk.trans ?_
  unfold restoreChunkRead
  try dsimp only
  repeat' first
    | with_reducible assumption
    | with_reducible exact Keeps.refl _
    | split
    | with_reducible apply keeps_restoreRead
    | with_reducible apply Keeps.inert
    | (intro u x hu)
    | with_reducible apply Keeps.active
    | exact fun i => sound_power i.present rfl
    | exact fun i => have k := sound_return i.present; sound_absent rfl k rfl
    | exact fun i => i.present
    | exact fun i => i.temps
    | exact fun i => i.queue
    | exact fun i => i.copies
    | exact fun i => i.record
    | exact fun i => i.heads
    | exact fun i => i.memory

theorem keeps_losePeer {s₀ s : State} (hk : Keeps s₀ s) (p : Nat) : Keeps s₀ (losePeer p s) := by
  refine hk.trans ?_
  unfold losePeer
  try dsimp only
  repeat' first
    | with_reducible assumption
    | with_reducible exact Keeps.refl _
    | split
    | with_reducible apply keeps_failSnapshot
    | with_reducible apply keeps_failRestore
    | with_reducible apply Keeps.inert
    | (intro u x hu)
    | with_reducible apply Keeps.active
    | exact fun i => sound_power i.present rfl
    | exact fun i => have k := sound_return i.present; sound_absent rfl k rfl
    | exact fun i => i.present
    | exact fun i => i.temps
    | exact fun i => i.queue
    | exact fun i => i.copies
    | exact fun i => i.record
    | exact fun i => i.heads
    | exact fun i => i.memory

end Sys2Proof.Machine
end

