-- ==== Sys2Proof/Laws/KeepsCommit.lean ====
section
/-! SUPPORT. The effects of Machine/Commit.lean keep the queue and the invariant. -/

namespace Sys2Proof.Machine

theorem keeps_applyKeys {s₀ s : State} (hk : Keeps s₀ s) (keys : List Nat) : Keeps s₀ (applyKeys keys s) := by
  refine hk.trans ?_
  unfold applyKeys
  try dsimp only
  repeat' first
    | with_reducible assumption
    | with_reducible exact Keeps.refl _
    | split
    | (with_reducible apply keeps_foldl)
    | with_reducible apply Keeps.inert
    | (intro u x hu)
    | with_reducible apply Keeps.active
    | exact fun i => sound_power i.present rfl
    | exact fun i => have k := sound_return i.present; sound_absent rfl k rfl
    | exact fun i => i.present
    | exact fun i => i.temps
    | exact fun i => i.queue
    | exact fun i => i.copies
    | exact fun i => i.record
    | exact fun i => i.heads
    | exact fun i => i.memory

theorem keeps_restage {s₀ s : State} (hk : Keeps s₀ s) : Keeps s₀ (restage s) := by
  refine hk.trans ?_
  unfold restage
  try dsimp only
  repeat' first
    | with_reducible assumption
    | with_reducible exact Keeps.refl _
    | split
    | with_reducible apply Keeps.inert
    | (intro u x hu)
    | with_reducible apply Keeps.active
    | exact fun i => sound_power i.present rfl
    | exact fun i => have k := sound_return i.present; sound_absent rfl k rfl
    | exact fun i => i.present
    | exact fun i => i.temps
    | exact fun i => i.queue
    | exact fun i => i.copies
    | exact fun i => i.record
    | exact fun i => i.heads
    | exact fun i => i.memory

theorem keeps_applyBond {s₀ s : State} (hk : Keeps s₀ s) : Keeps s₀ (applyBond s) := by
  refine hk.trans ?_
  unfold applyBond
  try dsimp only
  repeat' first
    | with_reducible assumption
    | with_reducible exact Keeps.refl _
    | split
    | with_reducible apply keeps_applyKeys
    | with_reducible apply keeps_announceCaps
    | with_reducible apply keeps_sendAll
    | with_reducible apply Keeps.inert
    | (intro u x hu)
    | with_reducible apply Keeps.active
    | exact fun i => sound_power i.present rfl
    | exact fun i => have k := sound_return i.present; sound_absent rfl k rfl
    | exact fun i => i.present
    | exact fun i => i.temps
    | exact fun i => i.queue
    | exact fun i => i.copies
    | exact fun i => i.record
    | exact fun i => i.heads
    | exact fun i => i.memory

theorem keeps_applyTenants {s₀ s : State} (hk : Keeps s₀ s) : Keeps s₀ (applyTenants s) := by
  refine hk.trans ?_
  unfold applyTenants
  try dsimp only
  repeat' first
    | with_reducible assumption
    | with_reducible exact Keeps.refl _
    | split
    | with_reducible apply keeps_applyKeys
    | (with_reducible apply keeps_foldl)
    | with_reducible apply Keeps.inert
    | (intro u x hu)
    | with_reducible apply Keeps.active
    | exact fun i => sound_power i.present rfl
    | exact fun i => have k := sound_return i.present; sound_absent rfl k rfl
    | exact fun i => i.present
    | exact fun i => i.temps
    | exact fun i => i.queue
    | exact fun i => i.copies
    | exact fun i => i.record
    | exact fun i => i.heads
    | exact fun i => i.memory

theorem keeps_applyAreas {s₀ s : State} (hk : Keeps s₀ s) : Keeps s₀ (applyAreas s).1 := by
  unfold applyAreas
  split
  · exact keeps_raise (keeps_reject hk) _
  · exact keeps_applyKeys hk _

theorem keeps_applyDirectory {s₀ s : State} (hk : Keeps s₀ s) : Keeps s₀ (applyDirectory s).1 := by
  unfold applyDirectory
  dsimp only
  split
  · exact keeps_raise (hk.inert ..) _
  · exact (keeps_applyKeys hk _).inert ..

theorem keeps_applyMode {s₀ s : State} (hk : Keeps s₀ s) : Keeps s₀ (applyMode s) := by
  refine hk.trans ?_
  unfold applyMode
  try dsimp only
  repeat' first
    | with_reducible assumption
    | with_reducible exact Keeps.refl _
    | split
    | with_reducible apply keeps_refuseMode
    | with_reducible apply keeps_applyKeys
    | with_reducible apply Keeps.inert
    | (intro u x hu)
    | with_reducible apply Keeps.active
    | exact fun i => sound_power i.present rfl
    | exact fun i => have k := sound_return i.present; sound_absent rfl k rfl
    | exact fun i => i.present
    | exact fun i => i.temps
    | exact fun i => i.queue
    | exact fun i => i.copies
    | exact fun i => i.record
    | exact fun i => i.heads
    | exact fun i => i.memory

theorem keeps_endCommit {s₀ s : State} (hk : Keeps s₀ s) (state : Nat) : Keeps s₀ (endCommit state s) := by
  refine hk.trans ?_
  unfold endCommit
  try dsimp only
  repeat' first
    | with_reducible assumption
    | with_reducible exact Keeps.refl _
    | split
    | with_reducible apply keeps_restage
    | with_reducible apply keeps_raise
    | with_reducible apply Keeps.inert
    | (intro u x hu)
    | with_reducible apply Keeps.active
    | exact fun i => sound_power i.present rfl
    | exact fun i => have k := sound_return i.present; sound_absent rfl k rfl
    | exact fun i => i.present
    | exact fun i => i.temps
    | exact fun i => i.queue
    | exact fun i => i.copies
    | exact fun i => i.record
    | exact fun i => i.heads
    | exact fun i => i.memory

theorem keeps_setBondReason {s₀ s : State} (hk : Keeps s₀ s) (reason : Nat) : Keeps s₀ (setBondReason reason s) := by
  refine hk.trans ?_
  unfold setBondReason
  try dsimp only
  repeat' first
    | with_reducible assumption
    | with_reducible exact Keeps.refl _
    | split
    | with_reducible apply Keeps.inert
    | (intro u x hu)
    | with_reducible apply Keeps.active
    | exact fun i => sound_power i.present rfl
    | exact fun i => have k := sound_return i.present; sound_absent rfl k rfl
    | exact fun i => i.present
    | exact fun i => i.temps
    | exact fun i => i.queue
    | exact fun i => i.copies
    | exact fun i => i.record
    | exact fun i => i.heads
    | exact fun i => i.memory

theorem keeps_applySets {s₀ s : State} (hk : Keeps s₀ s) (changed : Bool) : Keeps s₀ (applySets changed s) := by
  have h1 : Keeps s₀ (applyTenants (if changed then applyBond s else s)) :=
    keeps_applyTenants (keeps_ite (keeps_applyBond hk) hk)
  have h2 := keeps_applyDirectory (keeps_applyAreas (keeps_applyKeys h1 [0x203001, 0x203002]))
  rw [applySets]
  with_reducible apply keeps_endCommit
  with_reducible apply keeps_applyMode
  exact h2

theorem keeps_handleCommit {s₀ s : State} (hk : Keeps s₀ s) : Keeps s₀ (handleCommit s) := by
  refine hk.trans ?_
  unfold handleCommit
  try dsimp only
  repeat' first
    | with_reducible assumption
    | with_reducible exact Keeps.refl _
    | split
    | with_reducible apply keeps_setBondReason
    | with_reducible apply keeps_endCommit
    | with_reducible apply keeps_raiseArgs
    | with_reducible apply keeps_applySets
    | with_reducible apply Keeps.inert
    | (intro u x hu)
    | with_reducible apply Keeps.active
    | exact fun i => sound_power i.present rfl
    | exact fun i => have k := sound_return i.present; sound_absent rfl k rfl
    | exact fun i => i.present
    | exact fun i => i.temps
    | exact fun i => i.queue
    | exact fun i => i.copies
    | exact fun i => i.record
    | exact fun i => i.heads
    | exact fun i => i.memory

theorem keeps_actionFive {s₀ s : State} (hk : Keeps s₀ s) (commits : Bool) : Keeps s₀ (actionFive commits s) := by
  refine hk.trans ?_
  unfold actionFive
  try dsimp only
  repeat' first
    | with_reducible assumption
    | with_reducible exact Keeps.refl _
    | split
    | with_reducible apply keeps_refuseMode
    | with_reducible apply keeps_handleCommit
    | with_reducible apply Keeps.inert
    | (intro u x hu)
    | with_reducible apply Keeps.active
    | exact fun i => sound_power i.present rfl
    | exact fun i => have k := sound_return i.present; sound_absent rfl k rfl
    | exact fun i => i.present
    | exact fun i => i.temps
    | exact fun i => i.queue
    | exact fun i => i.copies
    | exact fun i => i.record
    | exact fun i => i.heads
    | exact fun i => i.memory

theorem keeps_idleCommit {s₀ s : State} (hk : Keeps s₀ s) : Keeps s₀ (idleCommit s) := by
  refine hk.trans ?_
  unfold idleCommit
  try dsimp only
  repeat' first
    | with_reducible assumption
    | with_reducible exact Keeps.refl _
    | split
    | with_reducible apply keeps_startHeldSwaps
    | with_reducible apply keeps_actionFive
    | with_reducible apply keeps_loadFinished
    | with_reducible apply Keeps.inert
    | (intro u x hu)
    | with_reducible apply Keeps.active
    | exact fun i => sound_power i.present rfl
    | exact fun i => have k := sound_return i.present; sound_absent rfl k rfl
    | exact fun i => i.present
    | exact fun i => i.temps
    | exact fun i => i.queue
    | exact fun i => i.copies
    | exact fun i => i.record
    | exact fun i => i.heads
    | exact fun i => i.memory

end Sys2Proof.Machine
end

