-- ==== Sys2Proof/Laws/KeepsBoundary.lean ====
section
/-! SUPPORT. The effects of Machine/Boundary.lean keep the queue and the invariant. -/

namespace Sys2Proof.Machine

theorem keeps_completeStep {s₀ s : State} (hk : Keeps s₀ s) (r : StepRun) : Keeps s₀ (completeStep r s) := by
  refine hk.trans ?_
  unfold completeStep
  try dsimp only
  repeat' first
    | with_reducible assumption
    | with_reducible exact Keeps.refl _
    | split
    | with_reducible apply keeps_raiseArgs
    | with_reducible apply Keeps.inert
    | (intro u x hu)
    | with_reducible apply Keeps.active
    | exact fun i => sound_power i.present rfl
    | exact fun i => have k := sound_return i.present; sound_absent rfl k rfl
    | exact fun i => i.present
    | exact fun i => i.temps
    | exact fun i => i.queue
    | exact fun i => i.copies
    | exact fun i => i.record
    | exact fun i => i.heads
    | exact fun i => i.memory

theorem keeps_appendRow {s₀ s : State} (hk : Keeps s₀ s) (number : Nat) (slot : Nat) (tokens : List Nat) : Keeps s₀ (appendRow number slot tokens s) := by
  refine hk.trans ?_
  unfold appendRow
  try dsimp only
  repeat' first
    | with_reducible assumption
    | with_reducible exact Keeps.refl _
    | split
    | with_reducible apply keeps_appendToken
    | with_reducible apply keeps_setContext
    | (with_reducible apply keeps_foldl)
    | with_reducible apply Keeps.inert
    | (intro u x hu)
    | with_reducible apply Keeps.active
    | exact fun i => sound_power i.present rfl
    | exact fun i => have k := sound_return i.present; sound_absent rfl k rfl
    | exact fun i => i.present
    | exact fun i => i.temps
    | exact fun i => i.queue
    | exact fun i => i.copies
    | exact fun i => i.record
    | exact fun i => i.heads
    | exact fun i => i.memory

theorem keeps_charge {s₀ s : State} (hk : Keeps s₀ s) (tenant n : Nat) : Keeps s₀ (charge tenant n s) := by
  refine hk.trans ?_
  unfold charge
  try dsimp only
  repeat' first
    | with_reducible assumption
    | with_reducible exact Keeps.refl _
    | split
    | with_reducible apply keeps_count
    | with_reducible apply Keeps.inert
    | (intro u x hu)
    | with_reducible apply Keeps.active
    | exact fun i => sound_power i.present rfl
    | exact fun i => have k := sound_return i.present; sound_absent rfl k rfl
    | exact fun i => i.present
    | exact fun i => i.temps
    | exact fun i => i.queue
    | exact fun i => i.copies
    | exact fun i => i.record
    | exact fun i => i.heads
    | exact fun i => i.memory

theorem keeps_releaseReserved {s₀ s : State} (hk : Keeps s₀ s) : Keeps s₀ (releaseReserved s) := by
  refine hk.trans ?_
  unfold releaseReserved
  try dsimp only
  repeat' first
    | with_reducible assumption
    | with_reducible exact Keeps.refl _
    | split
    | with_reducible apply Keeps.inert
    | (intro u x hu)
    | with_reducible apply Keeps.active
    | exact fun i => sound_power i.present rfl
    | exact fun i => have k := sound_return i.present; sound_absent rfl k rfl
    | exact fun i => i.present
    | exact fun i => i.temps
    | exact fun i => i.queue
    | exact fun i => i.copies
    | exact fun i => i.record
    | exact fun i => i.heads
    | exact fun i => i.memory

theorem keeps_resolveRows {s₀ s : State} (hk : Keeps s₀ s) (r : StepRun) : Keeps s₀ (resolveRows r s) := by
  refine hk.trans ?_
  unfold resolveRows
  try dsimp only
  repeat' first
    | with_reducible assumption
    | with_reducible exact Keeps.refl _
    | split
    | with_reducible apply keeps_appendRow
    | with_reducible apply keeps_charge
    | with_reducible apply keeps_count
    | with_reducible apply keeps_releaseReserved
    | (with_reducible apply keeps_foldl)
    | with_reducible apply Keeps.inert
    | (intro u x hu)
    | with_reducible apply Keeps.active
    | exact fun i => sound_power i.present rfl
    | exact fun i => have k := sound_return i.present; sound_absent rfl k rfl
    | exact fun i => i.present
    | exact fun i => i.temps
    | exact fun i => i.queue
    | exact fun i => i.copies
    | exact fun i => i.record
    | exact fun i => i.heads
    | exact fun i => i.memory

theorem keeps_actionFour {s₀ s : State} (hk : Keeps s₀ s) : Keeps s₀ (actionFour s) := by
  refine hk.trans ?_
  unfold actionFour
  try dsimp only
  repeat' first
    | with_reducible assumption
    | with_reducible exact Keeps.refl _
    | split
    | with_reducible apply keeps_loadFinished
    | with_reducible apply keeps_failSlots
    | with_reducible apply Keeps.inert
    | (intro u x hu)
    | with_reducible apply Keeps.active
    | exact fun i => sound_power i.present rfl
    | exact fun i => have k := sound_return i.present; sound_absent rfl k rfl
    | exact fun i => i.present
    | exact fun i => i.temps
    | exact fun i => i.queue
    | exact fun i => i.copies
    | exact fun i => i.record
    | exact fun i => i.heads
    | exact fun i => i.memory

theorem keeps_settle {s₀ s : State} (hk : Keeps s₀ s) : Keeps s₀ (settle s) := by
  refine hk.trans ?_
  unfold settle
  try dsimp only
  repeat' first
    | with_reducible assumption
    | with_reducible exact Keeps.refl _
    | split
    | with_reducible apply keeps_reloadMicro
    | with_reducible apply keeps_reorderTree
    | with_reducible apply keeps_holdForHeat
    | with_reducible apply keeps_capture
    | with_reducible apply keeps_startRestore
    | with_reducible apply keeps_startWaitingTests
    | with_reducible apply Keeps.inert
    | (intro u x hu)
    | with_reducible apply Keeps.active
    | exact fun i => sound_power i.present rfl
    | exact fun i => have k := sound_return i.present; sound_absent rfl k rfl
    | exact fun i => i.present
    | exact fun i => i.temps
    | exact fun i => i.queue
    | exact fun i => i.copies
    | exact fun i => i.record
    | exact fun i => i.heads
    | exact fun i => i.memory

theorem keeps_actionSeven {s₀ s : State} (hk : Keeps s₀ s) : Keeps s₀ (actionSeven s) := by
  refine hk.trans ?_
  unfold actionSeven
  try dsimp only
  repeat' first
    | with_reducible assumption
    | with_reducible exact Keeps.refl _
    | split
    | with_reducible apply keeps_clearColumns
    | with_reducible apply keeps_loadFinished
    | with_reducible apply keeps_beginLatched
    | with_reducible apply keeps_settle
    | with_reducible apply Keeps.inert
    | (intro u x hu)
    | with_reducible apply Keeps.active
    | exact fun i => sound_power i.present rfl
    | exact fun i => have k := sound_return i.present; sound_absent rfl k rfl
    | exact fun i => i.present
    | exact fun i => i.temps
    | exact fun i => i.queue
    | exact fun i => i.copies
    | exact fun i => i.record
    | exact fun i => i.heads
    | exact fun i => i.memory

theorem keeps_runBoundary {s₀ s : State} (hk : Keeps s₀ s) (r : StepRun) : Keeps s₀ (runBoundary r s) := by
  refine hk.trans ?_
  unfold runBoundary
  try dsimp only
  repeat' first
    | with_reducible assumption
    | with_reducible exact Keeps.refl _
    | split
    | with_reducible apply keeps_actionSeven
    | with_reducible apply keeps_startHeldSwaps
    | with_reducible apply keeps_actionFive
    | with_reducible apply keeps_actionFour
    | with_reducible apply keeps_applyCancels
    | with_reducible apply keeps_resolveRows
    | with_reducible apply keeps_completeStep
    | with_reducible apply Keeps.inert
    | (intro u x hu)
    | with_reducible apply Keeps.active
    | exact fun i => sound_power i.present rfl
    | exact fun i => have k := sound_return i.present; sound_absent rfl k rfl
    | exact fun i => i.present
    | exact fun i => i.temps
    | exact fun i => i.queue
    | exact fun i => i.copies
    | exact fun i => i.record
    | exact fun i => i.heads
    | exact fun i => i.memory

theorem keeps_boundaryNow {s₀ s : State} (hk : Keeps s₀ s) : Keeps s₀ (boundaryNow s) := by
  refine hk.trans ?_
  unfold boundaryNow
  try dsimp only
  repeat' first
    | with_reducible assumption
    | with_reducible exact Keeps.refl _
    | split
    | with_reducible apply keeps_runBoundary
    | with_reducible apply Keeps.inert
    | (intro u x hu)
    | with_reducible apply Keeps.active
    | exact fun i => sound_power i.present rfl
    | exact fun i => have k := sound_return i.present; sound_absent rfl k rfl
    | exact fun i => i.present
    | exact fun i => i.temps
    | exact fun i => i.queue
    | exact fun i => i.copies
    | exact fun i => i.record
    | exact fun i => i.heads
    | exact fun i => i.memory

end Sys2Proof.Machine
end

