-- ==== Sys2Proof/Laws/Leaves.lean ====
section
/-! SUPPORT. `Leaves W s t`: from `s` to `t` only the parts listed in `W` differ; how record updates and folds carry it
on. -/

namespace Sys2Proof.Machine

set_option linter.all false

/-- Every part not in `W` is the same. -/
structure Leaves (W : List Part) (s t : State) : Prop where
  same : ∀ p, p ∉ W → p.same s t

theorem Part.same_refl (p : Part) (s : State) : p.same s s := by
  cases p <;> simp only [Part.same, and_self]

theorem Part.same_trans {p : Part} {s t u : State} (h : p.same s t) (k : p.same t u) : p.same s u := by
  cases p <;> simp_all only [Part.same, and_self]

theorem Leaves.refl (W : List Part) (s : State) : Leaves W s s :=
  ⟨fun p _ => p.same_refl s⟩

theorem Leaves.trans {W V : List Part} {s t u : State} (h : Leaves W s t) (k : Leaves V t u) (hV : V ⊆ W) :
    Leaves W s u := ⟨fun p hp => Part.same_trans (h.same p hp) (k.same p fun hq => hp (hV hq))⟩

theorem Leaves.mono {W V : List Part} {s t : State} (h : Leaves V s t) (hV : V ⊆ W) : Leaves W s t :=
  ⟨fun p hp => h.same p fun hq => hp (hV hq)⟩

theorem leaves_ite {W : List Part} {c : Prop} [Decidable c] {s t u : State} (ht : Leaves W s t) (hu : Leaves W s u) :
    Leaves W s (if c then t else u) := by
  split
  · exact ht
  · exact hu

theorem leaves_foldl {W : List Part} {α : Type} {s t : State} (h : Leaves W s t) (f : State → α → State) (l : List α)
    (hf : ∀ u x, Leaves W s u → Leaves W s (f u x)) : Leaves W s (l.foldl f t) := by
  induction l generalizing t with
  | nil => exact h
  | cons x xs ih => exact ih (hf t x h)

/-- A part may change, or does not. -/
def Kept (W : List Part) (p : Part) {α : Type} (a b : α) : Prop := p ∈ W ∨ b = a

theorem Kept.refl {W : List Part} {p : Part} {α : Type} {a : α} : Kept W p a a := .inr rfl

theorem Kept.mem {W : List Part} {p : Part} {α : Type} {a b : α} (h : p ∈ W) : Kept W p a b := .inl h

/-- `Kept`, field by field. -/
structure Boundary.Like (W : List Part) (a b : Boundary) : Prop where
  unitPresent : Kept W .present a.unitPresent b.unitPresent
  tsReq : Kept W .tsReq a.tsReq b.tsReq
  unitDisable : Kept W .disable a.unitDisable b.unitDisable
  lastEdge : Kept W .edge a.lastEdge b.lastEdge
  phase : Kept W .reset a.phase b.phase
  unitResetDue : Kept W .reset a.unitResetDue b.unitResetDue
  laneReturn : Kept W .reset a.laneReturn b.laneReturn
  laneWoke : Kept W .reset a.laneWoke b.laneWoke
  abandoned : Kept W .reset a.abandoned b.abandoned

theorem Boundary.Like.refl (W : List Part) (a : Boundary) : Boundary.Like W a a := by
  constructor <;> exact .inr rfl

/-- `Kept`, field by field. -/
structure Sensing.Like (W : List Part) (a b : Sensing) : Prop where
  power : Kept W .power a.power b.power
  waking : Kept W .power a.waking b.waking
  railE : Kept W .rails a.railE b.railE
  railW : Kept W .rails a.railW b.railW
  railsRead : Kept W .rails a.railsRead b.railsRead
  railHs : Kept W .rails a.railHs b.railHs
  railAon : Kept W .rails a.railAon b.railAon
  temps : Kept W .heat a.temps b.temps
  nextPoint : Kept W .heat a.nextPoint b.nextPoint
  laneRow : Kept W .laneRow a.laneRow b.laneRow
  thermalCap : Kept W .heat a.thermalCap b.thermalCap
  thermalHold : Kept W .heat a.thermalHold b.thermalHold
  warned : Kept W .heat a.warned b.warned
  hsOff : Kept W .hsOff a.hsOff b.hsOff
  headLatency : Kept W .latency a.headLatency b.headLatency
  slowLoads : Kept W .latency a.slowLoads b.slowLoads
  tierA : Kept W .latency a.tierA b.tierA
  tierB : Kept W .latency a.tierB b.tierB

theorem Sensing.Like.refl (W : List Part) (a : Sensing) : Sensing.Like W a a := by
  constructor <;> exact .inr rfl

/-- `Kept`, field by field. -/
structure Dict.Like (W : List Part) (a b : Dict) : Prop where
  rw : Kept W .rw a.rw b.rw
  applied : Kept W .applied a.applied b.applied
  staged : Kept W .staged a.staged b.staged
  counters : Kept W .counters a.counters b.counters
  held : Kept W .held a.held b.held
  commitState : Kept W .commit a.commitState b.commitState
  commitTime : Kept W .commit a.commitTime b.commitTime
  storeState : Kept W .store a.storeState b.storeState
  settingsSource : Kept W .store a.settingsSource b.settingsSource
  storing : Kept W .store a.storing b.storing
  transfers : Kept W .transfers a.transfers b.transfers
  endpoint : Kept W .endpoint a.endpoint b.endpoint

theorem Dict.Like.refl (W : List Part) (a : Dict) : Dict.Like W a a := by
  constructor <;> exact .inr rfl

/-- `Kept`, field by field. -/
structure NonVolatile.Like (W : List Part) (a b : NonVolatile) : Prop where
  settings : Kept W .settings a.settings b.settings
  storeCount : Kept W .settings a.storeCount b.storeCount
  copyA : Kept W .copies a.copyA b.copyA
  copyB : Kept W .copies a.copyB b.copyB
  image : Kept W .image a.image b.image

theorem NonVolatile.Like.refl (W : List Part) (a : NonVolatile) : NonVolatile.Like W a a := by
  constructor <;> exact .inr rfl

/-- `Kept`, field by field. -/
structure LifeCycle.Like (W : List Part) (a b : LifeCycle) : Prop where
  record : Kept W .record a.record b.record
  ownerBuffer : Kept W .ownerBuffer a.ownerBuffer b.ownerBuffer
  challenge : Kept W .challenge a.challenge b.challenge
  draws : Kept W .challenge a.draws b.draws
  transition : Kept W .transition a.transition b.transition
  reason : Kept W .transition a.reason b.reason
  lockout : Kept W .transition a.lockout b.lockout
  verifying : Kept W .transition a.verifying b.verifying
  writing : Kept W .transition a.writing b.writing
  wiping : Kept W .transition a.wiping b.wiping
  ownWipe : Kept W .transition a.ownWipe b.ownWipe

theorem LifeCycle.Like.refl (W : List Part) (a : LifeCycle) : LifeCycle.Like W a a := by
  constructor <;> exact .inr rfl

/-- `Kept`, field by field. -/
structure Contexts.Like (W : List Part) (a b : Contexts) : Prop where
  slots : Kept W .slots a.slots b.slots
  nodes : Kept W .pages a.nodes b.nodes
  nextNode : Kept W .pages a.nextNode b.nextNode
  reservedPages : Kept W .pages a.reservedPages b.reservedPages
  batches : Kept W .batches a.batches b.batches
  budgets : Kept W .budgets a.budgets b.budgets
  directory : Kept W .directory a.directory b.directory
  usable : Kept W .directory a.usable b.usable
  refuseReason : Kept W .directory a.refuseReason b.refuseReason
  cache : Kept W .cache a.cache b.cache

theorem Contexts.Like.refl (W : List Part) (a : Contexts) : Contexts.Like W a a := by
  constructor <;> exact .inr rfl

/-- `Kept`, field by field. -/
structure Steps.Like (W : List Part) (a b : Steps) : Prop where
  run : Kept W .run a.run b.run
  latched : Kept W .starts a.latched b.latched
  held : Kept W .starts a.held b.held
  lastNumber : Kept W .numbers a.lastNumber b.lastNumber
  anyNumber : Kept W .numbers a.anyNumber b.anyNumber
  lastStatus : Kept W .lastStep a.lastStatus b.lastStatus
  spillPeak : Kept W .lastStep a.spillPeak b.spillPeak
  sinceCapture : Kept W .lastStep a.sinceCapture b.sinceCapture

theorem Steps.Like.refl (W : List Part) (a : Steps) : Steps.Like W a a := by
  constructor <;> exact .inr rfl

/-- `Kept`, field by field. -/
structure Mortar.Like (W : List Part) (a b : Mortar) : Prop where
  peers : Kept W .peers a.peers b.peers
  refuseReason : Kept W .bond a.refuseReason b.refuseReason
  bondDigest : Kept W .bond a.bondDigest b.bondDigest
  tree : Kept W .tree a.tree b.tree
  trees : Kept W .tree a.trees b.trees
  late : Kept W .late a.late b.late

theorem Mortar.Like.refl (W : List Part) (a : Mortar) : Mortar.Like W a a := by
  constructor <;> exact .inr rfl

/-- `Kept`, field by field. -/
structure Upkeep.Like (W : List Part) (a b : Upkeep) : Prop where
  memory : Kept W .scrub a.memory b.memory
  line : Kept W .scrub a.line b.line
  corrected : Kept W .corrected a.corrected b.corrected
  hsPass : Kept W .hsPass a.hsPass b.hsPass
  westFenced : Kept W .fence a.westFenced b.westFenced
  bistState : Kept W .tests a.bistState b.bistState
  bistFailures : Kept W .tests a.bistFailures b.bistFailures
  bistTime : Kept W .tests a.bistTime b.bistTime
  bistRun : Kept W .tests a.bistRun b.bistRun
  bistWaiting : Kept W .tests a.bistWaiting b.bistWaiting
  marchDue : Kept W .tests a.marchDue b.marchDue
  heirloomFell : Kept W .mode a.heirloomFell b.heirloomFell
  modeReason : Kept W .mode a.modeReason b.modeReason

theorem Upkeep.Like.refl (W : List Part) (a : Upkeep) : Upkeep.Like W a a := by
  constructor <;> exact .inr rfl

theorem Leaves.upd {W : List Part} {s₀ s : State}
    (boundary : Boundary) (h_boundary : Boundary.Like W s.boundary boundary)
    (ts : TimeStamp) (h_ts : Kept W .clock s.ts ts)
    (sensing : Sensing) (h_sensing : Sensing.Like W s.sensing sensing)
    (events : EventQueue) (h_events : Kept W .events s.events events)
    (dict : Dict) (h_dict : Dict.Like W s.dict dict)
    (mirror : Mirror) (h_mirror : Kept W .mirror s.mirror mirror)
    (nvm : NonVolatile) (h_nvm : NonVolatile.Like W s.nvm nvm)
    (life : LifeCycle) (h_life : LifeCycle.Like W s.life life)
    (heads : List HeadSlot) (h_heads : Kept W .heads s.heads heads)
    (lanes : Lanes) (h_lanes : Kept W .lanes s.lanes lanes)
    (fseq : Fseq) (h_fseq : Kept W .fseq s.fseq fseq)
    (contexts : Contexts) (h_contexts : Contexts.Like W s.contexts contexts)
    (steps : Steps) (h_steps : Steps.Like W s.steps steps)
    (mortar : Mortar) (h_mortar : Mortar.Like W s.mortar mortar)
    (snapshot : Snapshot) (h_snapshot : Kept W .snapshot s.snapshot snapshot)
    (hold : Hold) (h_hold : Kept W .hold s.hold hold)
    (restore : Restore) (h_restore : Kept W .restore s.restore restore)
    (upkeep : Upkeep) (h_upkeep : Upkeep.Like W s.upkeep upkeep)
    (mem : List Host.Cell) (h_mem : Kept W .mem s.mem mem)
    (out : Outputs) (h_out : Kept W .out s.out out)
    (pending : List Instr) (h_pending : Kept W .pending s.pending pending)
    (slow : Nat) (h_slow : Kept W .slow s.slow slow)
    (fresh : Nat) (h_fresh : Kept W .fresh s.fresh fresh)
    (hk : Leaves W s₀ s) : Leaves W s₀ ⟨boundary, ts, sensing, events, dict, mirror, nvm, life, heads, lanes, fseq, contexts, steps, mortar, snapshot, hold, restore, upkeep, mem, out, pending, slow, fresh⟩ := by
  refine ⟨fun p hp => Part.same_trans (hk.same p hp) ?_⟩
  cases p
  case present => exact h_boundary.unitPresent.resolve_left hp
  case tsReq => exact h_boundary.tsReq.resolve_left hp
  case disable => exact h_boundary.unitDisable.resolve_left hp
  case edge => exact h_boundary.lastEdge.resolve_left hp
  case reset => exact ⟨h_boundary.phase.resolve_left hp, h_boundary.unitResetDue.resolve_left hp, h_boundary.laneReturn.resolve_left hp, h_boundary.laneWoke.resolve_left hp, h_boundary.abandoned.resolve_left hp⟩
  case clock => exact h_ts.resolve_left hp
  case power => exact ⟨h_sensing.power.resolve_left hp, h_sensing.waking.resolve_left hp⟩
  case rails => exact ⟨h_sensing.railE.resolve_left hp, h_sensing.railW.resolve_left hp, h_sensing.railsRead.resolve_left hp, h_sensing.railHs.resolve_left hp, h_sensing.railAon.resolve_left hp⟩
  case heat => exact ⟨h_sensing.temps.resolve_left hp, h_sensing.nextPoint.resolve_left hp, h_sensing.thermalCap.resolve_left hp, h_sensing.thermalHold.resolve_left hp, h_sensing.warned.resolve_left hp⟩
  case laneRow => exact h_sensing.laneRow.resolve_left hp
  case hsOff => exact h_sensing.hsOff.resolve_left hp
  case latency => exact ⟨h_sensing.headLatency.resolve_left hp, h_sensing.slowLoads.resolve_left hp, h_sensing.tierA.resolve_left hp, h_sensing.tierB.resolve_left hp⟩
  case events => exact h_events.resolve_left hp
  case rw => exact h_dict.rw.resolve_left hp
  case applied => exact h_dict.applied.resolve_left hp
  case staged => exact h_dict.staged.resolve_left hp
  case counters => exact h_dict.counters.resolve_left hp
  case held => exact h_dict.held.resolve_left hp
  case commit => exact ⟨h_dict.commitState.resolve_left hp, h_dict.commitTime.resolve_left hp⟩
  case store => exact ⟨h_dict.storeState.resolve_left hp, h_dict.settingsSource.resolve_left hp, h_dict.storing.resolve_left hp⟩
  case transfers => exact h_dict.transfers.resolve_left hp
  case endpoint => exact h_dict.endpoint.resolve_left hp
  case mirror => exact h_mirror.resolve_left hp
  case settings => exact ⟨h_nvm.settings.resolve_left hp, h_nvm.storeCount.resolve_left hp⟩
  case copies => exact ⟨h_nvm.copyA.resolve_left hp, h_nvm.copyB.resolve_left hp⟩
  case image => exact h_nvm.image.resolve_left hp
  case record => exact h_life.record.resolve_left hp
  case ownerBuffer => exact h_life.ownerBuffer.resolve_left hp
  case challenge => exact ⟨h_life.challenge.resolve_left hp, h_life.draws.resolve_left hp⟩
  case transition => exact ⟨h_life.transition.resolve_left hp, h_life.reason.resolve_left hp, h_life.lockout.resolve_left hp, h_life.verifying.resolve_left hp, h_life.writing.resolve_left hp, h_life.wiping.resolve_left hp, h_life.ownWipe.resolve_left hp⟩
  case heads => exact h_heads.resolve_left hp
  case lanes => exact h_lanes.resolve_left hp
  case fseq => exact h_fseq.resolve_left hp
  case slots => exact h_contexts.slots.resolve_left hp
  case pages => exact ⟨h_contexts.nodes.resolve_left hp, h_contexts.nextNode.resolve_left hp, h_contexts.reservedPages.resolve_left hp⟩
  case batches => exact h_contexts.batches.resolve_left hp
  case budgets => exact h_contexts.budgets.resolve_left hp
  case directory => exact ⟨h_contexts.directory.resolve_left hp, h_contexts.usable.resolve_left hp, h_contexts.refuseReason.resolve_left hp⟩
  case cache => exact h_contexts.cache.resolve_left hp
  case run => exact h_steps.run.resolve_left hp
  case starts => exact ⟨h_steps.latched.resolve_left hp, h_steps.held.resolve_left hp⟩
  case numbers => exact ⟨h_steps.lastNumber.resolve_left hp, h_steps.anyNumber.resolve_left hp⟩
  case lastStep => exact ⟨h_steps.lastStatus.resolve_left hp, h_steps.spillPeak.resolve_left hp, h_steps.sinceCapture.resolve_left hp⟩
  case peers => exact h_mortar.peers.resolve_left hp
  case bond => exact ⟨h_mortar.refuseReason.resolve_left hp, h_mortar.bondDigest.resolve_left hp⟩
  case tree => exact ⟨h_mortar.tree.resolve_left hp, h_mortar.trees.resolve_left hp⟩
  case late => exact h_mortar.late.resolve_left hp
  case snapshot => exact h_snapshot.resolve_left hp
  case hold => exact h_hold.resolve_left hp
  case restore => exact h_restore.resolve_left hp
  case scrub => exact ⟨h_upkeep.memory.resolve_left hp, h_upkeep.line.resolve_left hp⟩
  case corrected => exact h_upkeep.corrected.resolve_left hp
  case hsPass => exact h_upkeep.hsPass.resolve_left hp
  case fence => exact h_upkeep.westFenced.resolve_left hp
  case tests => exact ⟨h_upkeep.bistState.resolve_left hp, h_upkeep.bistFailures.resolve_left hp, h_upkeep.bistTime.resolve_left hp, h_upkeep.bistRun.resolve_left hp, h_upkeep.bistWaiting.resolve_left hp, h_upkeep.marchDue.resolve_left hp⟩
  case mode => exact ⟨h_upkeep.heirloomFell.resolve_left hp, h_upkeep.modeReason.resolve_left hp⟩
  case mem => exact h_mem.resolve_left hp
  case out => exact h_out.resolve_left hp
  case pending => exact h_pending.resolve_left hp
  case slow => exact h_slow.resolve_left hp
  case fresh => exact h_fresh.resolve_left hp

theorem Leaves.setMirror {W : List Part} {s₀ s : State} (hW : .mirror ∈ W) (m : Mirror) (hk : Leaves W s₀ s) :
    Leaves W s₀ { s with mirror := m } := by
  with_reducible apply Leaves.upd
  case h_mirror => exact .inl hW
  case hk => exact hk
  all_goals first
    | exact Kept.refl
    | exact Boundary.Like.refl _ _
    | exact Sensing.Like.refl _ _
    | exact Dict.Like.refl _ _
    | exact NonVolatile.Like.refl _ _
    | exact LifeCycle.Like.refl _ _
    | exact Contexts.Like.refl _ _
    | exact Steps.Like.refl _ _
    | exact Mortar.Like.refl _ _
    | exact Upkeep.Like.refl _ _

end Sys2Proof.Machine
end

