-- ==== Sys2Proof/Laws/LeavesOps.lean ====
section
/-! SUPPORT. What the effects of Machine/Ops.lean leave as it was. -/

namespace Sys2Proof.Machine

theorem leaves_setRw {W : List Part} {s₀ s : State} (hW : [.rw] ⊆ W) (hk : Leaves W s₀ s) (key v : Nat) : Leaves W
    s₀ (setRw key v s) := by
  refine hk.trans ?_ hW
  unfold setRw
  try dsimp only
  repeat' first
    | with_reducible assumption
    | with_reducible exact Leaves.refl _ _
    | split
    | (intro u x hu)
    | with_reducible exact Kept.refl
    | decide
    | (with_reducible apply Leaves.upd)
    | (with_reducible apply Kept.mem)
    | with_reducible exact Boundary.Like.refl _ _
    | with_reducible exact Sensing.Like.refl _ _
    | with_reducible exact Dict.Like.refl _ _
    | with_reducible exact NonVolatile.Like.refl _ _
    | with_reducible exact LifeCycle.Like.refl _ _
    | with_reducible exact Contexts.Like.refl _ _
    | with_reducible exact Steps.Like.refl _ _
    | with_reducible exact Mortar.Like.refl _ _
    | with_reducible exact Upkeep.Like.refl _ _
    | (with_reducible apply Dict.Like.mk)

theorem leaves_setStaged {W : List Part} {s₀ s : State} (hW : [.staged] ⊆ W) (hk : Leaves W s₀ s) (key v : Nat) :
    Leaves W s₀ (setStaged key v s) := by
  refine hk.trans ?_ hW
  unfold setStaged
  try dsimp only
  repeat' first
    | with_reducible assumption
    | with_reducible exact Leaves.refl _ _
    | split
    | (intro u x hu)
    | with_reducible exact Kept.refl
    | decide
    | (with_reducible apply Leaves.upd)
    | (with_reducible apply Kept.mem)
    | with_reducible exact Boundary.Like.refl _ _
    | with_reducible exact Sensing.Like.refl _ _
    | with_reducible exact Dict.Like.refl _ _
    | with_reducible exact NonVolatile.Like.refl _ _
    | with_reducible exact LifeCycle.Like.refl _ _
    | with_reducible exact Contexts.Like.refl _ _
    | with_reducible exact Steps.Like.refl _ _
    | with_reducible exact Mortar.Like.refl _ _
    | with_reducible exact Upkeep.Like.refl _ _
    | (with_reducible apply Dict.Like.mk)

theorem leaves_setCounter {W : List Part} {s₀ s : State} (hW : [.counters] ⊆ W) (hk : Leaves W s₀ s) (key v : Nat)
    : Leaves W s₀ (setCounter key v s) := by
  refine hk.trans ?_ hW
  unfold setCounter
  try dsimp only
  repeat' first
    | with_reducible assumption
    | with_reducible exact Leaves.refl _ _
    | split
    | (intro u x hu)
    | with_reducible exact Kept.refl
    | decide
    | (with_reducible apply Leaves.upd)
    | (with_reducible apply Kept.mem)
    | with_reducible exact Boundary.Like.refl _ _
    | with_reducible exact Sensing.Like.refl _ _
    | with_reducible exact Dict.Like.refl _ _
    | with_reducible exact NonVolatile.Like.refl _ _
    | with_reducible exact LifeCycle.Like.refl _ _
    | with_reducible exact Contexts.Like.refl _ _
    | with_reducible exact Steps.Like.refl _ _
    | with_reducible exact Mortar.Like.refl _ _
    | with_reducible exact Upkeep.Like.refl _ _
    | (with_reducible apply Dict.Like.mk)

theorem leaves_count {W : List Part} {s₀ s : State} (hW : [.counters] ⊆ W) (hk : Leaves W s₀ s) (key k : Nat) :
    Leaves W s₀ (count key k s) := by
  refine hk.trans ?_ hW
  unfold count
  try dsimp only
  repeat' first
    | with_reducible assumption
    | with_reducible exact Leaves.refl _ _
    | split
    | with_reducible apply leaves_setCounter
    | (intro u x hu)
    | with_reducible exact Kept.refl
    | decide
    | (with_reducible apply Leaves.upd)
    | (with_reducible apply Kept.mem)
    | with_reducible exact Boundary.Like.refl _ _
    | with_reducible exact Sensing.Like.refl _ _
    | with_reducible exact Dict.Like.refl _ _
    | with_reducible exact NonVolatile.Like.refl _ _
    | with_reducible exact LifeCycle.Like.refl _ _
    | with_reducible exact Contexts.Like.refl _ _
    | with_reducible exact Steps.Like.refl _ _
    | with_reducible exact Mortar.Like.refl _ _
    | with_reducible exact Upkeep.Like.refl _ _

theorem leaves_reject {W : List Part} {s₀ s : State} (hW : [.counters] ⊆ W) (hk : Leaves W s₀ s) : Leaves W s₀
    (reject s) := by
  refine hk.trans ?_ hW
  unfold reject
  try dsimp only
  repeat' first
    | with_reducible assumption
    | with_reducible exact Leaves.refl _ _
    | split
    | with_reducible apply leaves_count
    | (intro u x hu)
    | with_reducible exact Kept.refl
    | decide
    | (with_reducible apply Leaves.upd)
    | (with_reducible apply Kept.mem)
    | with_reducible exact Boundary.Like.refl _ _
    | with_reducible exact Sensing.Like.refl _ _
    | with_reducible exact Dict.Like.refl _ _
    | with_reducible exact NonVolatile.Like.refl _ _
    | with_reducible exact LifeCycle.Like.refl _ _
    | with_reducible exact Contexts.Like.refl _ _
    | with_reducible exact Steps.Like.refl _ _
    | with_reducible exact Mortar.Like.refl _ _
    | with_reducible exact Upkeep.Like.refl _ _

theorem leaves_enqueue {W : List Part} {s₀ s : State} (hW : [.events] ⊆ W) (hk : Leaves W s₀ s) (code wide a b :
    Nat) : Leaves W s₀ (enqueue code wide a b s) := by
  refine hk.trans ?_ hW
  unfold enqueue
  try dsimp only
  repeat' first
    | with_reducible assumption
    | with_reducible exact Leaves.refl _ _
    | split
    | (intro u x hu)
    | with_reducible exact Kept.refl
    | decide
    | (with_reducible apply Leaves.upd)
    | (with_reducible apply Kept.mem)
    | with_reducible exact Boundary.Like.refl _ _
    | with_reducible exact Sensing.Like.refl _ _
    | with_reducible exact Dict.Like.refl _ _
    | with_reducible exact NonVolatile.Like.refl _ _
    | with_reducible exact LifeCycle.Like.refl _ _
    | with_reducible exact Contexts.Like.refl _ _
    | with_reducible exact Steps.Like.refl _ _
    | with_reducible exact Mortar.Like.refl _ _
    | with_reducible exact Upkeep.Like.refl _ _

theorem leaves_loseEvent {W : List Part} {s₀ s : State} (hW : [.events, .counters] ⊆ W) (hk : Leaves W s₀ s) :
    Leaves W s₀ (loseEvent s) := by
  refine hk.trans ?_ hW
  unfold loseEvent
  try dsimp only
  repeat' first
    | with_reducible assumption
    | with_reducible exact Leaves.refl _ _
    | split
    | with_reducible apply leaves_count
    | (intro u x hu)
    | with_reducible exact Kept.refl
    | decide
    | (with_reducible apply Leaves.upd)
    | (with_reducible apply Kept.mem)
    | with_reducible exact Boundary.Like.refl _ _
    | with_reducible exact Sensing.Like.refl _ _
    | with_reducible exact Dict.Like.refl _ _
    | with_reducible exact NonVolatile.Like.refl _ _
    | with_reducible exact LifeCycle.Like.refl _ _
    | with_reducible exact Contexts.Like.refl _ _
    | with_reducible exact Steps.Like.refl _ _
    | with_reducible exact Mortar.Like.refl _ _
    | with_reducible exact Upkeep.Like.refl _ _

theorem leaves_raiseArgs {W : List Part} {s₀ s : State} (hW : [.events, .counters] ⊆ W) (hk : Leaves W s₀ s) (code
    wide a b : Nat) : Leaves W s₀ (raiseArgs code wide a b s) := by
  refine hk.trans ?_ hW
  unfold raiseArgs
  try dsimp only
  repeat' first
    | with_reducible assumption
    | with_reducible exact Leaves.refl _ _
    | split
    | with_reducible apply leaves_enqueue
    | with_reducible apply leaves_loseEvent
    | (intro u x hu)
    | with_reducible exact Kept.refl
    | decide
    | (with_reducible apply Leaves.upd)
    | (with_reducible apply Kept.mem)
    | with_reducible exact Boundary.Like.refl _ _
    | with_reducible exact Sensing.Like.refl _ _
    | with_reducible exact Dict.Like.refl _ _
    | with_reducible exact NonVolatile.Like.refl _ _
    | with_reducible exact LifeCycle.Like.refl _ _
    | with_reducible exact Contexts.Like.refl _ _
    | with_reducible exact Steps.Like.refl _ _
    | with_reducible exact Mortar.Like.refl _ _
    | with_reducible exact Upkeep.Like.refl _ _

theorem leaves_raise {W : List Part} {s₀ s : State} (hW : [.events, .counters] ⊆ W) (hk : Leaves W s₀ s) (code :
    Nat) : Leaves W s₀ (raise code s) := by
  refine hk.trans ?_ hW
  unfold raise
  try dsimp only
  repeat' first
    | with_reducible assumption
    | with_reducible exact Leaves.refl _ _
    | split
    | with_reducible apply leaves_raiseArgs
    | (intro u x hu)
    | with_reducible exact Kept.refl
    | decide
    | (with_reducible apply Leaves.upd)
    | (with_reducible apply Kept.mem)
    | with_reducible exact Boundary.Like.refl _ _
    | with_reducible exact Sensing.Like.refl _ _
    | with_reducible exact Dict.Like.refl _ _
    | with_reducible exact NonVolatile.Like.refl _ _
    | with_reducible exact LifeCycle.Like.refl _ _
    | with_reducible exact Contexts.Like.refl _ _
    | with_reducible exact Steps.Like.refl _ _
    | with_reducible exact Mortar.Like.refl _ _
    | with_reducible exact Upkeep.Like.refl _ _

theorem leaves_raiseCount {W : List Part} {s₀ s : State} (hW : [.events, .counters] ⊆ W) (hk : Leaves W s₀ s) (code
    key wide a b : Nat) : Leaves W s₀ (raiseCount code key wide a b s) := by
  refine hk.trans ?_ hW
  unfold raiseCount
  try dsimp only
  repeat' first
    | with_reducible assumption
    | with_reducible exact Leaves.refl _ _
    | split
    | with_reducible apply leaves_raiseArgs
    | with_reducible apply leaves_count
    | (intro u x hu)
    | with_reducible exact Kept.refl
    | decide
    | (with_reducible apply Leaves.upd)
    | (with_reducible apply Kept.mem)
    | with_reducible exact Boundary.Like.refl _ _
    | with_reducible exact Sensing.Like.refl _ _
    | with_reducible exact Dict.Like.refl _ _
    | with_reducible exact NonVolatile.Like.refl _ _
    | with_reducible exact LifeCycle.Like.refl _ _
    | with_reducible exact Contexts.Like.refl _ _
    | with_reducible exact Steps.Like.refl _ _
    | with_reducible exact Mortar.Like.refl _ _
    | with_reducible exact Upkeep.Like.refl _ _

theorem leaves_sendMesh {W : List Part} {s₀ s : State} (hW : [.out] ⊆ W) (hk : Leaves W s₀ s) (eid : Byte) (msg :
    Bytes) : Leaves W s₀ (sendMesh eid msg s) := by
  refine hk.trans ?_ hW
  unfold sendMesh
  try dsimp only
  repeat' first
    | with_reducible assumption
    | with_reducible exact Leaves.refl _ _
    | split
    | (intro u x hu)
    | with_reducible exact Kept.refl
    | decide
    | (with_reducible apply Leaves.upd)
    | (with_reducible apply Kept.mem)
    | with_reducible exact Boundary.Like.refl _ _
    | with_reducible exact Sensing.Like.refl _ _
    | with_reducible exact Dict.Like.refl _ _
    | with_reducible exact NonVolatile.Like.refl _ _
    | with_reducible exact LifeCycle.Like.refl _ _
    | with_reducible exact Contexts.Like.refl _ _
    | with_reducible exact Steps.Like.refl _ _
    | with_reducible exact Mortar.Like.refl _ _
    | with_reducible exact Upkeep.Like.refl _ _

theorem leaves_mirrorData {W : List Part} {s₀ s : State} (hW : [.out] ⊆ W) (hk : Leaves W s₀ s) (w : Nat) : Leaves
    W s₀ (mirrorData w s) := by
  refine hk.trans ?_ hW
  unfold mirrorData
  try dsimp only
  repeat' first
    | with_reducible assumption
    | with_reducible exact Leaves.refl _ _
    | split
    | (intro u x hu)
    | with_reducible exact Kept.refl
    | decide
    | (with_reducible apply Leaves.upd)
    | (with_reducible apply Kept.mem)
    | with_reducible exact Boundary.Like.refl _ _
    | with_reducible exact Sensing.Like.refl _ _
    | with_reducible exact Dict.Like.refl _ _
    | with_reducible exact NonVolatile.Like.refl _ _
    | with_reducible exact LifeCycle.Like.refl _ _
    | with_reducible exact Contexts.Like.refl _ _
    | with_reducible exact Steps.Like.refl _ _
    | with_reducible exact Mortar.Like.refl _ _
    | with_reducible exact Upkeep.Like.refl _ _

theorem leaves_writeBytes {W : List Part} {s₀ s : State} (hW : [.mem] ⊆ W) (hk : Leaves W s₀ s) (a : Nat) (bs :
    Bytes) : Leaves W s₀ (writeBytes a bs s) := by
  refine hk.trans ?_ hW
  unfold writeBytes
  try dsimp only
  repeat' first
    | with_reducible assumption
    | with_reducible exact Leaves.refl _ _
    | split
    | (intro u x hu)
    | with_reducible exact Kept.refl
    | decide
    | (with_reducible apply Leaves.upd)
    | (with_reducible apply Kept.mem)
    | with_reducible exact Boundary.Like.refl _ _
    | with_reducible exact Sensing.Like.refl _ _
    | with_reducible exact Dict.Like.refl _ _
    | with_reducible exact NonVolatile.Like.refl _ _
    | with_reducible exact LifeCycle.Like.refl _ _
    | with_reducible exact Contexts.Like.refl _ _
    | with_reducible exact Steps.Like.refl _ _
    | with_reducible exact Mortar.Like.refl _ _
    | with_reducible exact Upkeep.Like.refl _ _

theorem leaves_hostWrites {W : List Part} {s₀ s : State} (hW : [.mem] ⊆ W) (hk : Leaves W s₀ s) (ws : List
    Host.Cell) : Leaves W s₀ (hostWrites ws s) := by
  refine hk.trans ?_ hW
  unfold hostWrites
  try dsimp only
  repeat' first
    | with_reducible assumption
    | with_reducible exact Leaves.refl _ _
    | split
    | (intro u x hu)
    | with_reducible exact Kept.refl
    | decide
    | (with_reducible apply Leaves.upd)
    | (with_reducible apply Kept.mem)
    | with_reducible exact Boundary.Like.refl _ _
    | with_reducible exact Sensing.Like.refl _ _
    | with_reducible exact Dict.Like.refl _ _
    | with_reducible exact NonVolatile.Like.refl _ _
    | with_reducible exact LifeCycle.Like.refl _ _
    | with_reducible exact Contexts.Like.refl _ _
    | with_reducible exact Steps.Like.refl _ _
    | with_reducible exact Mortar.Like.refl _ _
    | with_reducible exact Upkeep.Like.refl _ _

theorem leaves_clearLanes {W : List Part} {s₀ s : State} (hW : [.lanes, .cache] ⊆ W) (hk : Leaves W s₀ s) : Leaves
    W s₀ (clearLanes s) := by
  refine hk.trans ?_ hW
  unfold clearLanes
  try dsimp only
  repeat' first
    | with_reducible assumption
    | with_reducible exact Leaves.refl _ _
    | split
    | (intro u x hu)
    | with_reducible exact Kept.refl
    | decide
    | (with_reducible apply Leaves.upd)
    | (with_reducible apply Kept.mem)
    | with_reducible exact Boundary.Like.refl _ _
    | with_reducible exact Sensing.Like.refl _ _
    | with_reducible exact Dict.Like.refl _ _
    | with_reducible exact NonVolatile.Like.refl _ _
    | with_reducible exact LifeCycle.Like.refl _ _
    | with_reducible exact Contexts.Like.refl _ _
    | with_reducible exact Steps.Like.refl _ _
    | with_reducible exact Mortar.Like.refl _ _
    | with_reducible exact Upkeep.Like.refl _ _
    | (with_reducible apply Contexts.Like.mk)

theorem leaves_clearColumns {W : List Part} {s₀ s : State} (hW : [.lanes] ⊆ W) (hk : Leaves W s₀ s) : Leaves W s₀
    (clearColumns s) := by
  refine hk.trans ?_ hW
  unfold clearColumns
  try dsimp only
  repeat' first
    | with_reducible assumption
    | with_reducible exact Leaves.refl _ _
    | split
    | (intro u x hu)
    | with_reducible exact Kept.refl
    | decide
    | (with_reducible apply Leaves.upd)
    | (with_reducible apply Kept.mem)
    | with_reducible exact Boundary.Like.refl _ _
    | with_reducible exact Sensing.Like.refl _ _
    | with_reducible exact Dict.Like.refl _ _
    | with_reducible exact NonVolatile.Like.refl _ _
    | with_reducible exact LifeCycle.Like.refl _ _
    | with_reducible exact Contexts.Like.refl _ _
    | with_reducible exact Steps.Like.refl _ _
    | with_reducible exact Mortar.Like.refl _ _
    | with_reducible exact Upkeep.Like.refl _ _

theorem leaves_countStep {W : List Part} {s₀ s : State} (hW : [.run] ⊆ W) (hk : Leaves W s₀ s) (k : Nat) : Leaves W
    s₀ (countStep k s) := by
  refine hk.trans ?_ hW
  unfold countStep
  try dsimp only
  repeat' first
    | with_reducible assumption
    | with_reducible exact Leaves.refl _ _
    | split
    | (intro u x hu)
    | with_reducible exact Kept.refl
    | decide
    | (with_reducible apply Leaves.upd)
    | (with_reducible apply Kept.mem)
    | with_reducible exact Boundary.Like.refl _ _
    | with_reducible exact Sensing.Like.refl _ _
    | with_reducible exact Dict.Like.refl _ _
    | with_reducible exact NonVolatile.Like.refl _ _
    | with_reducible exact LifeCycle.Like.refl _ _
    | with_reducible exact Contexts.Like.refl _ _
    | with_reducible exact Steps.Like.refl _ _
    | with_reducible exact Mortar.Like.refl _ _
    | with_reducible exact Upkeep.Like.refl _ _
    | (with_reducible apply Steps.Like.mk)

theorem leaves_countPower {W : List Part} {s₀ s : State} (hW : [.counters, .run] ⊆ W) (hk : Leaves W s₀ s) : Leaves
    W s₀ (countPower s) := by
  refine hk.trans ?_ hW
  unfold countPower
  try dsimp only
  repeat' first
    | with_reducible assumption
    | with_reducible exact Leaves.refl _ _
    | split
    | with_reducible apply leaves_count
    | with_reducible apply leaves_countStep
    | (intro u x hu)
    | with_reducible exact Kept.refl
    | decide
    | (with_reducible apply Leaves.upd)
    | (with_reducible apply Kept.mem)
    | with_reducible exact Boundary.Like.refl _ _
    | with_reducible exact Sensing.Like.refl _ _
    | with_reducible exact Dict.Like.refl _ _
    | with_reducible exact NonVolatile.Like.refl _ _
    | with_reducible exact LifeCycle.Like.refl _ _
    | with_reducible exact Contexts.Like.refl _ _
    | with_reducible exact Steps.Like.refl _ _
    | with_reducible exact Mortar.Like.refl _ _
    | with_reducible exact Upkeep.Like.refl _ _

theorem leaves_slowCycle {W : List Part} {s₀ s : State} (hW : [.clock, .counters, .run, .slow] ⊆ W) (hk : Leaves W
    s₀ s) : Leaves W s₀ (slowCycle s) := by
  refine hk.trans ?_ hW
  unfold slowCycle
  try dsimp only
  repeat' first
    | with_reducible assumption
    | with_reducible exact Leaves.refl _ _
    | split
    | with_reducible apply leaves_countPower
    | (intro u x hu)
    | with_reducible exact Kept.refl
    | decide
    | (with_reducible apply Leaves.upd)
    | (with_reducible apply Kept.mem)
    | with_reducible exact Boundary.Like.refl _ _
    | with_reducible exact Sensing.Like.refl _ _
    | with_reducible exact Dict.Like.refl _ _
    | with_reducible exact NonVolatile.Like.refl _ _
    | with_reducible exact LifeCycle.Like.refl _ _
    | with_reducible exact Contexts.Like.refl _ _
    | with_reducible exact Steps.Like.refl _ _
    | with_reducible exact Mortar.Like.refl _ _
    | with_reducible exact Upkeep.Like.refl _ _

theorem leaves_slowEdge {W : List Part} {s₀ s : State} (hW : [.clock, .counters, .run, .slow] ⊆ W) (hk : Leaves W
    s₀ s) : Leaves W s₀ (slowEdge s) := by
  refine hk.trans ?_ hW
  unfold slowEdge
  try dsimp only
  repeat' first
    | with_reducible assumption
    | with_reducible exact Leaves.refl _ _
    | split
    | with_reducible apply leaves_slowCycle
    | (intro u x hu)
    | with_reducible exact Kept.refl
    | decide
    | (with_reducible apply Leaves.upd)
    | (with_reducible apply Kept.mem)
    | with_reducible exact Boundary.Like.refl _ _
    | with_reducible exact Sensing.Like.refl _ _
    | with_reducible exact Dict.Like.refl _ _
    | with_reducible exact NonVolatile.Like.refl _ _
    | with_reducible exact LifeCycle.Like.refl _ _
    | with_reducible exact Contexts.Like.refl _ _
    | with_reducible exact Steps.Like.refl _ _
    | with_reducible exact Mortar.Like.refl _ _
    | with_reducible exact Upkeep.Like.refl _ _

theorem power_slowEdge (s : State) : (slowEdge s).sensing.power = s.sensing.power :=
  ((leaves_slowEdge (W := [.clock, .counters, .run, .slow]) (by decide) (Leaves.refl _ s)).same .power (by decide)).1

theorem phase_slowEdge (s : State) : (slowEdge s).boundary.phase = s.boundary.phase :=
  ((leaves_slowEdge (W := [.clock, .counters, .run, .slow]) (by decide) (Leaves.refl _ s)).same .reset (by decide)).1

theorem leaves_idle {W : List Part} {s₀ s : State} (hW : [.clock, .counters, .run, .slow] ⊆ W) (hk : Leaves W s₀ s)
    : Leaves W s₀ (idle s) := by
  refine hk.trans ?_ hW
  unfold idle
  try dsimp only
  repeat' first
    | with_reducible assumption
    | with_reducible exact Leaves.refl _ _
    | split
    | with_reducible apply leaves_slowCycle
    | (intro u x hu)
    | with_reducible exact Kept.refl
    | decide
    | (with_reducible apply Leaves.upd)
    | (with_reducible apply Kept.mem)
    | with_reducible exact Boundary.Like.refl _ _
    | with_reducible exact Sensing.Like.refl _ _
    | with_reducible exact Dict.Like.refl _ _
    | with_reducible exact NonVolatile.Like.refl _ _
    | with_reducible exact LifeCycle.Like.refl _ _
    | with_reducible exact Contexts.Like.refl _ _
    | with_reducible exact Steps.Like.refl _ _
    | with_reducible exact Mortar.Like.refl _ _
    | with_reducible exact Upkeep.Like.refl _ _

end Sys2Proof.Machine
end

