-- ==== Sys2Proof/Laws/LeavesMortar.lean ====
section
/-! SUPPORT. What the effects of Machine/Mortar.lean leave as it was. -/

namespace Sys2Proof.Machine

theorem leaves_setPeer {W : List Part} {s₀ s : State} (hW : [.peers] ⊆ W) (hk : Leaves W s₀ s) (p : Nat) (x : Peer)
    : Leaves W s₀ (setPeer p x s) := by
  refine hk.trans ?_ hW
  unfold setPeer
  try dsimp only
  repeat' first
    | with_reducible assumption
    | with_reducible exact Leaves.refl _ _
    | split
    | (intro u x hu)
    | with_reducible exact Kept.refl
    | decide
    | (with_reducible apply Leaves.upd)
    | (with_reducible apply Kept.mem)
    | with_reducible exact Boundary.Like.refl _ _
    | with_reducible exact Sensing.Like.refl _ _
    | with_reducible exact Dict.Like.refl _ _
    | with_reducible exact NonVolatile.Like.refl _ _
    | with_reducible exact LifeCycle.Like.refl _ _
    | with_reducible exact Contexts.Like.refl _ _
    | with_reducible exact Steps.Like.refl _ _
    | with_reducible exact Mortar.Like.refl _ _
    | with_reducible exact Upkeep.Like.refl _ _
    | (with_reducible apply Mortar.Like.mk)

theorem leaves_emit {W : List Part} {s₀ s : State} (hW : [.late, .out] ⊆ W) (hk : Leaves W s₀ s) (m : Bytes) :
    Leaves W s₀ (emit m s) := by
  refine hk.trans ?_ hW
  unfold emit
  try dsimp only
  repeat' first
    | with_reducible assumption
    | with_reducible exact Leaves.refl _ _
    | split
    | (intro u x hu)
    | with_reducible exact Kept.refl
    | decide
    | (with_reducible apply Leaves.upd)
    | (with_reducible apply Kept.mem)
    | with_reducible exact Boundary.Like.refl _ _
    | with_reducible exact Sensing.Like.refl _ _
    | with_reducible exact Dict.Like.refl _ _
    | with_reducible exact NonVolatile.Like.refl _ _
    | with_reducible exact LifeCycle.Like.refl _ _
    | with_reducible exact Contexts.Like.refl _ _
    | with_reducible exact Steps.Like.refl _ _
    | with_reducible exact Mortar.Like.refl _ _
    | with_reducible exact Upkeep.Like.refl _ _
    | (with_reducible apply Mortar.Like.mk)

theorem leaves_linkFlit {W : List Part} {s₀ s : State} (hW : [.late, .out] ⊆ W) (hk : Leaves W s₀ s) (typ reason
    dst seq : Nat) : Leaves W s₀ (linkFlit typ reason dst seq s) := by
  refine hk.trans ?_ hW
  unfold linkFlit
  try dsimp only
  repeat' first
    | with_reducible assumption
    | with_reducible exact Leaves.refl _ _
    | split
    | with_reducible apply leaves_emit
    | (intro u x hu)
    | with_reducible exact Kept.refl
    | decide
    | (with_reducible apply Leaves.upd)
    | (with_reducible apply Kept.mem)
    | with_reducible exact Boundary.Like.refl _ _
    | with_reducible exact Sensing.Like.refl _ _
    | with_reducible exact Dict.Like.refl _ _
    | with_reducible exact NonVolatile.Like.refl _ _
    | with_reducible exact LifeCycle.Like.refl _ _
    | with_reducible exact Contexts.Like.refl _ _
    | with_reducible exact Steps.Like.refl _ _
    | with_reducible exact Mortar.Like.refl _ _
    | with_reducible exact Upkeep.Like.refl _ _

theorem leaves_post {W : List Part} {s₀ s : State} (hW : [.peers, .late, .out] ⊆ W) (hk : Leaves W s₀ s) (dst :
    Nat) (m : Bytes) : Leaves W s₀ (post dst m s) := by
  refine hk.trans ?_ hW
  unfold post
  try dsimp only
  repeat' first
    | with_reducible assumption
    | with_reducible exact Leaves.refl _ _
    | split
    | with_reducible apply leaves_emit
    | with_reducible apply leaves_setPeer
    | (intro u x hu)
    | with_reducible exact Kept.refl
    | decide
    | (with_reducible apply Leaves.upd)
    | (with_reducible apply Kept.mem)
    | with_reducible exact Boundary.Like.refl _ _
    | with_reducible exact Sensing.Like.refl _ _
    | with_reducible exact Dict.Like.refl _ _
    | with_reducible exact NonVolatile.Like.refl _ _
    | with_reducible exact LifeCycle.Like.refl _ _
    | with_reducible exact Contexts.Like.refl _ _
    | with_reducible exact Steps.Like.refl _ _
    | with_reducible exact Mortar.Like.refl _ _
    | with_reducible exact Upkeep.Like.refl _ _

theorem leaves_sendMsg {W : List Part} {s₀ s : State} (hW : [.counters, .peers, .late, .out] ⊆ W) (hk : Leaves W s₀
    s) (typ dst : Nat) (payload : Bytes) : Leaves W s₀ (sendMsg typ dst payload s) := by
  refine hk.trans ?_ hW
  unfold sendMsg
  try dsimp only
  repeat' first
    | with_reducible assumption
    | with_reducible exact Leaves.refl _ _
    | split
    | with_reducible apply leaves_count
    | with_reducible apply leaves_post
    | with_reducible apply leaves_setPeer
    | (intro u x hu)
    | with_reducible exact Kept.refl
    | decide
    | (with_reducible apply Leaves.upd)
    | (with_reducible apply Kept.mem)
    | with_reducible exact Boundary.Like.refl _ _
    | with_reducible exact Sensing.Like.refl _ _
    | with_reducible exact Dict.Like.refl _ _
    | with_reducible exact NonVolatile.Like.refl _ _
    | with_reducible exact LifeCycle.Like.refl _ _
    | with_reducible exact Contexts.Like.refl _ _
    | with_reducible exact Steps.Like.refl _ _
    | with_reducible exact Mortar.Like.refl _ _
    | with_reducible exact Upkeep.Like.refl _ _

theorem leaves_dropLate {W : List Part} {s₀ s : State} (hW : [.late] ⊆ W) (hk : Leaves W s₀ s) (p : Nat) : Leaves W
    s₀ (dropLate p s) := by
  refine hk.trans ?_ hW
  unfold dropLate
  try dsimp only
  repeat' first
    | with_reducible assumption
    | with_reducible exact Leaves.refl _ _
    | split
    | (intro u x hu)
    | with_reducible exact Kept.refl
    | decide
    | (with_reducible apply Leaves.upd)
    | (with_reducible apply Kept.mem)
    | with_reducible exact Boundary.Like.refl _ _
    | with_reducible exact Sensing.Like.refl _ _
    | with_reducible exact Dict.Like.refl _ _
    | with_reducible exact NonVolatile.Like.refl _ _
    | with_reducible exact LifeCycle.Like.refl _ _
    | with_reducible exact Contexts.Like.refl _ _
    | with_reducible exact Steps.Like.refl _ _
    | with_reducible exact Mortar.Like.refl _ _
    | with_reducible exact Upkeep.Like.refl _ _
    | (with_reducible apply Mortar.Like.mk)

theorem leaves_noteSent {W : List Part} {s₀ s : State} (hW : [.peers] ⊆ W) (hk : Leaves W s₀ s) (m : Bytes) :
    Leaves W s₀ (noteSent m s) := by
  refine hk.trans ?_ hW
  unfold noteSent
  try dsimp only
  repeat' first
    | with_reducible assumption
    | with_reducible exact Leaves.refl _ _
    | split
    | with_reducible apply leaves_setPeer
    | (intro u x hu)
    | with_reducible exact Kept.refl
    | decide
    | (with_reducible apply Leaves.upd)
    | (with_reducible apply Kept.mem)
    | with_reducible exact Boundary.Like.refl _ _
    | with_reducible exact Sensing.Like.refl _ _
    | with_reducible exact Dict.Like.refl _ _
    | with_reducible exact NonVolatile.Like.refl _ _
    | with_reducible exact LifeCycle.Like.refl _ _
    | with_reducible exact Contexts.Like.refl _ _
    | with_reducible exact Steps.Like.refl _ _
    | with_reducible exact Mortar.Like.refl _ _
    | with_reducible exact Upkeep.Like.refl _ _

theorem leaves_sendHeld {W : List Part} {s₀ s : State} (hW : [.peers, .out] ⊆ W) (hk : Leaves W s₀ s) (m : Bytes) :
    Leaves W s₀ (sendHeld m s) := by
  refine hk.trans ?_ hW
  unfold sendHeld
  try dsimp only
  repeat' first
    | with_reducible assumption
    | with_reducible exact Leaves.refl _ _
    | split
    | with_reducible apply leaves_noteSent
    | (intro u x hu)
    | with_reducible exact Kept.refl
    | decide
    | (with_reducible apply Leaves.upd)
    | (with_reducible apply Kept.mem)
    | with_reducible exact Boundary.Like.refl _ _
    | with_reducible exact Sensing.Like.refl _ _
    | with_reducible exact Dict.Like.refl _ _
    | with_reducible exact NonVolatile.Like.refl _ _
    | with_reducible exact LifeCycle.Like.refl _ _
    | with_reducible exact Contexts.Like.refl _ _
    | with_reducible exact Steps.Like.refl _ _
    | with_reducible exact Mortar.Like.refl _ _
    | with_reducible exact Upkeep.Like.refl _ _

theorem leaves_sendLate {W : List Part} {s₀ s : State} (hW : [.peers, .late, .out] ⊆ W) (hk : Leaves W s₀ s) :
    Leaves W s₀ (sendLate s) := by
  refine hk.trans ?_ hW
  unfold sendLate
  try dsimp only
  repeat' first
    | with_reducible assumption
    | with_reducible exact Leaves.refl _ _
    | split
    | with_reducible apply leaves_sendHeld
    | (with_reducible apply leaves_foldl)
    | (intro u x hu)
    | with_reducible exact Kept.refl
    | decide
    | (with_reducible apply Leaves.upd)
    | (with_reducible apply Kept.mem)
    | with_reducible exact Boundary.Like.refl _ _
    | with_reducible exact Sensing.Like.refl _ _
    | with_reducible exact Dict.Like.refl _ _
    | with_reducible exact NonVolatile.Like.refl _ _
    | with_reducible exact LifeCycle.Like.refl _ _
    | with_reducible exact Contexts.Like.refl _ _
    | with_reducible exact Steps.Like.refl _ _
    | with_reducible exact Mortar.Like.refl _ _
    | with_reducible exact Upkeep.Like.refl _ _
    | (with_reducible apply Mortar.Like.mk)

theorem leaves_broadcastDiscover {W : List Part} {s₀ s : State} (hW : [.counters, .late, .out] ⊆ W) (hk : Leaves W
    s₀ s) : Leaves W s₀ (broadcastDiscover s) := by
  refine hk.trans ?_ hW
  unfold broadcastDiscover
  try dsimp only
  repeat' first
    | with_reducible assumption
    | with_reducible exact Leaves.refl _ _
    | split
    | with_reducible apply leaves_count
    | with_reducible apply leaves_emit
    | (intro u x hu)
    | with_reducible exact Kept.refl
    | decide
    | (with_reducible apply Leaves.upd)
    | (with_reducible apply Kept.mem)
    | with_reducible exact Boundary.Like.refl _ _
    | with_reducible exact Sensing.Like.refl _ _
    | with_reducible exact Dict.Like.refl _ _
    | with_reducible exact NonVolatile.Like.refl _ _
    | with_reducible exact LifeCycle.Like.refl _ _
    | with_reducible exact Contexts.Like.refl _ _
    | with_reducible exact Steps.Like.refl _ _
    | with_reducible exact Mortar.Like.refl _ _
    | with_reducible exact Upkeep.Like.refl _ _

theorem leaves_sendAll {W : List Part} {s₀ s : State} (hW : [.counters, .peers, .late, .out] ⊆ W) (hk : Leaves W s₀
    s) (typ : Nat) (dsts : List Nat) (payload : Bytes) : Leaves W s₀ (sendAll typ dsts payload s) := by
  refine hk.trans ?_ hW
  unfold sendAll
  try dsimp only
  repeat' first
    | with_reducible assumption
    | with_reducible exact Leaves.refl _ _
    | split
    | with_reducible apply leaves_sendMsg
    | (with_reducible apply leaves_foldl)
    | (intro u x hu)
    | with_reducible exact Kept.refl
    | decide
    | (with_reducible apply Leaves.upd)
    | (with_reducible apply Kept.mem)
    | with_reducible exact Boundary.Like.refl _ _
    | with_reducible exact Sensing.Like.refl _ _
    | with_reducible exact Dict.Like.refl _ _
    | with_reducible exact NonVolatile.Like.refl _ _
    | with_reducible exact LifeCycle.Like.refl _ _
    | with_reducible exact Contexts.Like.refl _ _
    | with_reducible exact Steps.Like.refl _ _
    | with_reducible exact Mortar.Like.refl _ _
    | with_reducible exact Upkeep.Like.refl _ _

theorem leaves_announceCaps {W : List Part} {s₀ s : State} (hW : [.counters, .peers, .late, .out] ⊆ W) (hk : Leaves
    W s₀ s) (old : State) : Leaves W s₀ (announceCaps old s) := by
  refine hk.trans ?_ hW
  unfold announceCaps
  try dsimp only
  repeat' first
    | with_reducible assumption
    | with_reducible exact Leaves.refl _ _
    | split
    | with_reducible apply leaves_sendAll
    | (intro u x hu)
    | with_reducible exact Kept.refl
    | decide
    | (with_reducible apply Leaves.upd)
    | (with_reducible apply Kept.mem)
    | with_reducible exact Boundary.Like.refl _ _
    | with_reducible exact Sensing.Like.refl _ _
    | with_reducible exact Dict.Like.refl _ _
    | with_reducible exact NonVolatile.Like.refl _ _
    | with_reducible exact LifeCycle.Like.refl _ _
    | with_reducible exact Contexts.Like.refl _ _
    | with_reducible exact Steps.Like.refl _ _
    | with_reducible exact Mortar.Like.refl _ _
    | with_reducible exact Upkeep.Like.refl _ _

theorem leaves_takeTree {W : List Part} {s₀ s : State} (hW : [.tree] ⊆ W) (hk : Leaves W s₀ s) (number : Nat) :
    Leaves W s₀ (takeTree number s) := by
  refine hk.trans ?_ hW
  unfold takeTree
  try dsimp only
  repeat' first
    | with_reducible assumption
    | with_reducible exact Leaves.refl _ _
    | split
    | (intro u x hu)
    | with_reducible exact Kept.refl
    | decide
    | (with_reducible apply Leaves.upd)
    | (with_reducible apply Kept.mem)
    | with_reducible exact Boundary.Like.refl _ _
    | with_reducible exact Sensing.Like.refl _ _
    | with_reducible exact Dict.Like.refl _ _
    | with_reducible exact NonVolatile.Like.refl _ _
    | with_reducible exact LifeCycle.Like.refl _ _
    | with_reducible exact Contexts.Like.refl _ _
    | with_reducible exact Steps.Like.refl _ _
    | with_reducible exact Mortar.Like.refl _ _
    | with_reducible exact Upkeep.Like.refl _ _
    | (with_reducible apply Mortar.Like.mk)

theorem leaves_reorderTree {W : List Part} {s₀ s : State} (hW : [.counters, .peers, .tree, .late, .out] ⊆ W) (hk :
    Leaves W s₀ s) : Leaves W s₀ (reorderTree s) := by
  refine hk.trans ?_ hW
  unfold reorderTree
  try dsimp only
  repeat' first
    | with_reducible assumption
    | with_reducible exact Leaves.refl _ _
    | split
    | with_reducible apply leaves_sendAll
    | (with_reducible apply leaves_foldl)
    | (intro u x hu)
    | with_reducible exact Kept.refl
    | decide
    | (with_reducible apply Leaves.upd)
    | (with_reducible apply Kept.mem)
    | with_reducible exact Boundary.Like.refl _ _
    | with_reducible exact Sensing.Like.refl _ _
    | with_reducible exact Dict.Like.refl _ _
    | with_reducible exact NonVolatile.Like.refl _ _
    | with_reducible exact LifeCycle.Like.refl _ _
    | with_reducible exact Contexts.Like.refl _ _
    | with_reducible exact Steps.Like.refl _ _
    | with_reducible exact Mortar.Like.refl _ _
    | with_reducible exact Upkeep.Like.refl _ _
    | (with_reducible apply Mortar.Like.mk)

theorem leaves_peerDown {W : List Part} {s₀ s : State} (hW : [.events, .counters, .peers, .late] ⊆ W) (hk : Leaves
    W s₀ s) (p st : Nat) : Leaves W s₀ (peerDown p st s) := by
  refine hk.trans ?_ hW
  unfold peerDown
  try dsimp only
  repeat' first
    | with_reducible assumption
    | with_reducible exact Leaves.refl _ _
    | split
    | with_reducible apply leaves_dropLate
    | with_reducible apply leaves_setPeer
    | with_reducible apply leaves_raiseCount
    | with_reducible apply leaves_raiseArgs
    | (intro u x hu)
    | with_reducible exact Kept.refl
    | decide
    | (with_reducible apply Leaves.upd)
    | (with_reducible apply Kept.mem)
    | with_reducible exact Boundary.Like.refl _ _
    | with_reducible exact Sensing.Like.refl _ _
    | with_reducible exact Dict.Like.refl _ _
    | with_reducible exact NonVolatile.Like.refl _ _
    | with_reducible exact LifeCycle.Like.refl _ _
    | with_reducible exact Contexts.Like.refl _ _
    | with_reducible exact Steps.Like.refl _ _
    | with_reducible exact Mortar.Like.refl _ _
    | with_reducible exact Upkeep.Like.refl _ _

theorem leaves_checkTakeover {W : List Part} {s₀ s : State} (hW : [.events, .counters, .run] ⊆ W) (hk : Leaves W s₀
    s) : Leaves W s₀ (checkTakeover s) := by
  refine hk.trans ?_ hW
  unfold checkTakeover
  try dsimp only
  repeat' first
    | with_reducible assumption
    | with_reducible exact Leaves.refl _ _
    | split
    | with_reducible apply leaves_raiseArgs
    | (with_reducible apply leaves_foldl)
    | (intro u x hu)
    | with_reducible exact Kept.refl
    | decide
    | (with_reducible apply Leaves.upd)
    | (with_reducible apply Kept.mem)
    | with_reducible exact Boundary.Like.refl _ _
    | with_reducible exact Sensing.Like.refl _ _
    | with_reducible exact Dict.Like.refl _ _
    | with_reducible exact NonVolatile.Like.refl _ _
    | with_reducible exact LifeCycle.Like.refl _ _
    | with_reducible exact Contexts.Like.refl _ _
    | with_reducible exact Steps.Like.refl _ _
    | with_reducible exact Mortar.Like.refl _ _
    | with_reducible exact Upkeep.Like.refl _ _
    | (with_reducible apply Steps.Like.mk)

theorem leaves_stale {W : List Part} {s₀ s : State} (hW : [.counters] ⊆ W) (hk : Leaves W s₀ s) : Leaves W s₀
    (stale s) := by
  refine hk.trans ?_ hW
  unfold stale
  try dsimp only
  repeat' first
    | with_reducible assumption
    | with_reducible exact Leaves.refl _ _
    | split
    | with_reducible apply leaves_count
    | (intro u x hu)
    | with_reducible exact Kept.refl
    | decide
    | (with_reducible apply Leaves.upd)
    | (with_reducible apply Kept.mem)
    | with_reducible exact Boundary.Like.refl _ _
    | with_reducible exact Sensing.Like.refl _ _
    | with_reducible exact Dict.Like.refl _ _
    | with_reducible exact NonVolatile.Like.refl _ _
    | with_reducible exact LifeCycle.Like.refl _ _
    | with_reducible exact Contexts.Like.refl _ _
    | with_reducible exact Steps.Like.refl _ _
    | with_reducible exact Mortar.Like.refl _ _
    | with_reducible exact Upkeep.Like.refl _ _

theorem leaves_takeDiscover {W : List Part} {s₀ s : State} (hW : [.counters, .peers, .late, .out] ⊆ W) (hk : Leaves
    W s₀ s) (src : Nat) (pl : Bytes) : Leaves W s₀ (takeDiscover src pl s) := by
  refine hk.trans ?_ hW
  unfold takeDiscover
  try dsimp only
  repeat' first
    | with_reducible assumption
    | with_reducible exact Leaves.refl _ _
    | split
    | with_reducible apply leaves_stale
    | with_reducible apply leaves_sendMsg
    | with_reducible apply leaves_setPeer
    | (intro u x hu)
    | with_reducible exact Kept.refl
    | decide
    | (with_reducible apply Leaves.upd)
    | (with_reducible apply Kept.mem)
    | with_reducible exact Boundary.Like.refl _ _
    | with_reducible exact Sensing.Like.refl _ _
    | with_reducible exact Dict.Like.refl _ _
    | with_reducible exact NonVolatile.Like.refl _ _
    | with_reducible exact LifeCycle.Like.refl _ _
    | with_reducible exact Contexts.Like.refl _ _
    | with_reducible exact Steps.Like.refl _ _
    | with_reducible exact Mortar.Like.refl _ _
    | with_reducible exact Upkeep.Like.refl _ _

theorem leaves_takeCaps {W : List Part} {s₀ s : State} (hW : [.events, .counters, .peers, .late, .out] ⊆ W) (hk :
    Leaves W s₀ s) (src : Nat) (pl : Bytes) : Leaves W s₀ (takeCaps src pl s) := by
  refine hk.trans ?_ hW
  unfold takeCaps
  try dsimp only
  repeat' first
    | with_reducible assumption
    | with_reducible exact Leaves.refl _ _
    | split
    | with_reducible apply leaves_stale
    | with_reducible apply leaves_setPeer
    | with_reducible apply leaves_raiseArgs
    | with_reducible apply leaves_sendMsg
    | (intro u x hu)
    | with_reducible exact Kept.refl
    | decide
    | (with_reducible apply Leaves.upd)
    | (with_reducible apply Kept.mem)
    | with_reducible exact Boundary.Like.refl _ _
    | with_reducible exact Sensing.Like.refl _ _
    | with_reducible exact Dict.Like.refl _ _
    | with_reducible exact NonVolatile.Like.refl _ _
    | with_reducible exact LifeCycle.Like.refl _ _
    | with_reducible exact Contexts.Like.refl _ _
    | with_reducible exact Steps.Like.refl _ _
    | with_reducible exact Mortar.Like.refl _ _
    | with_reducible exact Upkeep.Like.refl _ _

theorem leaves_takeHeartbeat {W : List Part} {s₀ s : State} (hW : [.counters, .peers, .late, .out] ⊆ W) (hk :
    Leaves W s₀ s) (src sent : Nat) (pl : Bytes) : Leaves W s₀ (takeHeartbeat src sent pl s) := by
  refine hk.trans ?_ hW
  unfold takeHeartbeat
  try dsimp only
  repeat' first
    | with_reducible assumption
    | with_reducible exact Leaves.refl _ _
    | split
    | with_reducible apply leaves_stale
    | with_reducible apply leaves_sendMsg
    | with_reducible apply leaves_setPeer
    | (intro u x hu)
    | with_reducible exact Kept.refl
    | decide
    | (with_reducible apply Leaves.upd)
    | (with_reducible apply Kept.mem)
    | with_reducible exact Boundary.Like.refl _ _
    | with_reducible exact Sensing.Like.refl _ _
    | with_reducible exact Dict.Like.refl _ _
    | with_reducible exact NonVolatile.Like.refl _ _
    | with_reducible exact LifeCycle.Like.refl _ _
    | with_reducible exact Contexts.Like.refl _ _
    | with_reducible exact Steps.Like.refl _ _
    | with_reducible exact Mortar.Like.refl _ _
    | with_reducible exact Upkeep.Like.refl _ _

theorem leaves_takeBondUpdate {W : List Part} {s₀ s : State} (hW : [.counters, .peers, .tree] ⊆ W) (hk : Leaves W
    s₀ s) (src : Nat) (pl : Bytes) : Leaves W s₀ (takeBondUpdate src pl s) := by
  refine hk.trans ?_ hW
  unfold takeBondUpdate
  try dsimp only
  repeat' first
    | with_reducible assumption
    | with_reducible exact Leaves.refl _ _
    | split
    | with_reducible apply leaves_stale
    | with_reducible apply leaves_setPeer
    | (intro u x hu)
    | with_reducible exact Kept.refl
    | decide
    | (with_reducible apply Leaves.upd)
    | (with_reducible apply Kept.mem)
    | with_reducible exact Boundary.Like.refl _ _
    | with_reducible exact Sensing.Like.refl _ _
    | with_reducible exact Dict.Like.refl _ _
    | with_reducible exact NonVolatile.Like.refl _ _
    | with_reducible exact LifeCycle.Like.refl _ _
    | with_reducible exact Contexts.Like.refl _ _
    | with_reducible exact Steps.Like.refl _ _
    | with_reducible exact Mortar.Like.refl _ _
    | with_reducible exact Upkeep.Like.refl _ _
    | (with_reducible apply Mortar.Like.mk)

theorem leaves_noteOdd_own {s₀ s : State} (hk : Leaves [.events, .counters] s₀ s) (n : Nat) : Leaves [.events,
    .counters] s₀ (noteOdd n s) := by
  induction n generalizing s  with
  | zero => exact hk
  | succ n ih =>
    rw [noteOdd]
    try dsimp only
    repeat' first
      | with_reducible assumption
      | with_reducible exact Leaves.refl _ _
      | split
      | (with_reducible apply ih)
      | with_reducible apply leaves_raiseCount
      | (intro u x hu)
      | with_reducible exact Kept.refl
      | decide
      | (with_reducible apply Leaves.upd)
      | (with_reducible apply Kept.mem)
      | with_reducible exact Boundary.Like.refl _ _
      | with_reducible exact Sensing.Like.refl _ _
      | with_reducible exact Dict.Like.refl _ _
      | with_reducible exact NonVolatile.Like.refl _ _
      | with_reducible exact LifeCycle.Like.refl _ _
      | with_reducible exact Contexts.Like.refl _ _
      | with_reducible exact Steps.Like.refl _ _
      | with_reducible exact Mortar.Like.refl _ _
      | with_reducible exact Upkeep.Like.refl _ _

theorem leaves_noteOdd {W : List Part} {s₀ s : State} (hW : [.events, .counters] ⊆ W) (hk : Leaves W s₀ s) (n :
    Nat) : Leaves W s₀ (noteOdd n s) :=
  hk.trans (leaves_noteOdd_own (Leaves.refl _ _) n) hW

end Sys2Proof.Machine
end

