-- ==== Sys2Proof/Laws/LeavesHeads.lean ====
section
/-! SUPPORT. What the effects of Machine/Heads.lean leave as it was. -/

namespace Sys2Proof.Machine

theorem leaves_refuseStart {W : List Part} {s₀ s : State} (hW : [.events, .counters] ⊆ W) (hk : Leaves W s₀ s) :
    Leaves W s₀ (refuseStart s) := by
  refine hk.trans ?_ hW
  unfold refuseStart
  try dsimp only
  repeat' first
    | with_reducible assumption
    | with_reducible exact Leaves.refl _ _
    | split
    | with_reducible apply leaves_raiseCount
    | (intro u x hu)
    | with_reducible exact Kept.refl
    | decide
    | (with_reducible apply Leaves.upd)
    | (with_reducible apply Kept.mem)
    | with_reducible exact Boundary.Like.refl _ _
    | with_reducible exact Sensing.Like.refl _ _
    | with_reducible exact Dict.Like.refl _ _
    | with_reducible exact NonVolatile.Like.refl _ _
    | with_reducible exact LifeCycle.Like.refl _ _
    | with_reducible exact Contexts.Like.refl _ _
    | with_reducible exact Steps.Like.refl _ _
    | with_reducible exact Mortar.Like.refl _ _
    | with_reducible exact Upkeep.Like.refl _ _

theorem leaves_refuseBy {W : List Part} {s₀ s : State} (hW : [.events, .counters] ⊆ W) (hk : Leaves W s₀ s) (byGo :
    Bool) : Leaves W s₀ (refuseBy byGo s) := by
  refine hk.trans ?_ hW
  unfold refuseBy
  try dsimp only
  repeat' first
    | with_reducible assumption
    | with_reducible exact Leaves.refl _ _
    | split
    | with_reducible apply leaves_refuseStart
    | with_reducible apply leaves_reject
    | (intro u x hu)
    | with_reducible exact Kept.refl
    | decide
    | (with_reducible apply Leaves.upd)
    | (with_reducible apply Kept.mem)
    | with_reducible exact Boundary.Like.refl _ _
    | with_reducible exact Sensing.Like.refl _ _
    | with_reducible exact Dict.Like.refl _ _
    | with_reducible exact NonVolatile.Like.refl _ _
    | with_reducible exact LifeCycle.Like.refl _ _
    | with_reducible exact Contexts.Like.refl _ _
    | with_reducible exact Steps.Like.refl _ _
    | with_reducible exact Mortar.Like.refl _ _
    | with_reducible exact Upkeep.Like.refl _ _

theorem leaves_clearStarts {W : List Part} {s₀ s : State} (hW : [.events, .counters, .starts] ⊆ W) (hk : Leaves W
    s₀ s) : Leaves W s₀ (clearStarts s) := by
  refine hk.trans ?_ hW
  unfold clearStarts
  try dsimp only
  repeat' first
    | with_reducible assumption
    | with_reducible exact Leaves.refl _ _
    | split
    | with_reducible apply leaves_refuseBy
    | (with_reducible apply leaves_foldl)
    | (intro u x hu)
    | with_reducible exact Kept.refl
    | decide
    | (with_reducible apply Leaves.upd)
    | (with_reducible apply Kept.mem)
    | with_reducible exact Boundary.Like.refl _ _
    | with_reducible exact Sensing.Like.refl _ _
    | with_reducible exact Dict.Like.refl _ _
    | with_reducible exact NonVolatile.Like.refl _ _
    | with_reducible exact LifeCycle.Like.refl _ _
    | with_reducible exact Contexts.Like.refl _ _
    | with_reducible exact Steps.Like.refl _ _
    | with_reducible exact Mortar.Like.refl _ _
    | with_reducible exact Upkeep.Like.refl _ _
    | (with_reducible apply Steps.Like.mk)

theorem leaves_startWake {W : List Part} {s₀ s : State} (hW : [.power] ⊆ W) (hk : Leaves W s₀ s) (cycles : Nat) :
    Leaves W s₀ (startWake cycles s) := by
  refine hk.trans ?_ hW
  unfold startWake
  try dsimp only
  repeat' first
    | with_reducible assumption
    | with_reducible exact Leaves.refl _ _
    | split
    | (intro u x hu)
    | with_reducible exact Kept.refl
    | decide
    | (with_reducible apply Leaves.upd)
    | (with_reducible apply Kept.mem)
    | with_reducible exact Boundary.Like.refl _ _
    | with_reducible exact Sensing.Like.refl _ _
    | with_reducible exact Dict.Like.refl _ _
    | with_reducible exact NonVolatile.Like.refl _ _
    | with_reducible exact LifeCycle.Like.refl _ _
    | with_reducible exact Contexts.Like.refl _ _
    | with_reducible exact Steps.Like.refl _ _
    | with_reducible exact Mortar.Like.refl _ _
    | with_reducible exact Upkeep.Like.refl _ _
    | (with_reducible apply Sensing.Like.mk)

theorem leaves_wake {W : List Part} {s₀ s : State} (hW : [.power, .counters] ⊆ W) (hk : Leaves W s₀ s) : Leaves W
    s₀ (wake s) := by
  refine hk.trans ?_ hW
  unfold wake
  try dsimp only
  repeat' first
    | with_reducible assumption
    | with_reducible exact Leaves.refl _ _
    | split
    | with_reducible apply leaves_count
    | with_reducible apply leaves_startWake
    | (intro u x hu)
    | with_reducible exact Kept.refl
    | decide
    | (with_reducible apply Leaves.upd)
    | (with_reducible apply Kept.mem)
    | with_reducible exact Boundary.Like.refl _ _
    | with_reducible exact Sensing.Like.refl _ _
    | with_reducible exact Dict.Like.refl _ _
    | with_reducible exact NonVolatile.Like.refl _ _
    | with_reducible exact LifeCycle.Like.refl _ _
    | with_reducible exact Contexts.Like.refl _ _
    | with_reducible exact Steps.Like.refl _ _
    | with_reducible exact Mortar.Like.refl _ _
    | with_reducible exact Upkeep.Like.refl _ _

theorem leaves_setHead {W : List Part} {s₀ s : State} (hW : [.heads] ⊆ W) (hk : Leaves W s₀ s) (i : Nat) (h :
    HeadSlot) : Leaves W s₀ (setHead i h s) := by
  refine hk.trans ?_ hW
  unfold setHead
  try dsimp only
  repeat' first
    | with_reducible assumption
    | with_reducible exact Leaves.refl _ _
    | split
    | (intro u x hu)
    | with_reducible exact Kept.refl
    | decide
    | (with_reducible apply Leaves.upd)
    | (with_reducible apply Kept.mem)
    | with_reducible exact Boundary.Like.refl _ _
    | with_reducible exact Sensing.Like.refl _ _
    | with_reducible exact Dict.Like.refl _ _
    | with_reducible exact NonVolatile.Like.refl _ _
    | with_reducible exact LifeCycle.Like.refl _ _
    | with_reducible exact Contexts.Like.refl _ _
    | with_reducible exact Steps.Like.refl _ _
    | with_reducible exact Mortar.Like.refl _ _
    | with_reducible exact Upkeep.Like.refl _ _

theorem leaves_startSwap {W : List Part} {s₀ s : State} (hW : [.power, .events, .counters, .heads] ⊆ W) (hk :
    Leaves W s₀ s) (i : Nat) (l : SlotLayout) : Leaves W s₀ (startSwap i l s) := by
  refine hk.trans ?_ hW
  unfold startSwap
  try dsimp only
  repeat' first
    | with_reducible assumption
    | with_reducible exact Leaves.refl _ _
    | split
    | with_reducible apply leaves_wake
    | with_reducible apply leaves_setHead
    | with_reducible apply leaves_raiseArgs
    | with_reducible apply leaves_reject
    | (intro u x hu)
    | with_reducible exact Kept.refl
    | decide
    | (with_reducible apply Leaves.upd)
    | (with_reducible apply Kept.mem)
    | with_reducible exact Boundary.Like.refl _ _
    | with_reducible exact Sensing.Like.refl _ _
    | with_reducible exact Dict.Like.refl _ _
    | with_reducible exact NonVolatile.Like.refl _ _
    | with_reducible exact LifeCycle.Like.refl _ _
    | with_reducible exact Contexts.Like.refl _ _
    | with_reducible exact Steps.Like.refl _ _
    | with_reducible exact Mortar.Like.refl _ _
    | with_reducible exact Upkeep.Like.refl _ _

theorem leaves_clearSlot {W : List Part} {s₀ s : State} (hW : [.heads] ⊆ W) (hk : Leaves W s₀ s) (i state : Nat) :
    Leaves W s₀ (clearSlot i state s) := by
  refine hk.trans ?_ hW
  unfold clearSlot
  try dsimp only
  repeat' first
    | with_reducible assumption
    | with_reducible exact Leaves.refl _ _
    | split
    | with_reducible apply leaves_setHead
    | (intro u x hu)
    | with_reducible exact Kept.refl
    | decide
    | (with_reducible apply Leaves.upd)
    | (with_reducible apply Kept.mem)
    | with_reducible exact Boundary.Like.refl _ _
    | with_reducible exact Sensing.Like.refl _ _
    | with_reducible exact Dict.Like.refl _ _
    | with_reducible exact NonVolatile.Like.refl _ _
    | with_reducible exact LifeCycle.Like.refl _ _
    | with_reducible exact Contexts.Like.refl _ _
    | with_reducible exact Steps.Like.refl _ _
    | with_reducible exact Mortar.Like.refl _ _
    | with_reducible exact Upkeep.Like.refl _ _

theorem leaves_emptySlot {W : List Part} {s₀ s : State} (hW : [.heads] ⊆ W) (hk : Leaves W s₀ s) (i : Nat) : Leaves
    W s₀ (emptySlot i s) := by
  refine hk.trans ?_ hW
  unfold emptySlot
  try dsimp only
  repeat' first
    | with_reducible assumption
    | with_reducible exact Leaves.refl _ _
    | split
    | with_reducible apply leaves_clearSlot
    | (intro u x hu)
    | with_reducible exact Kept.refl
    | decide
    | (with_reducible apply Leaves.upd)
    | (with_reducible apply Kept.mem)
    | with_reducible exact Boundary.Like.refl _ _
    | with_reducible exact Sensing.Like.refl _ _
    | with_reducible exact Dict.Like.refl _ _
    | with_reducible exact NonVolatile.Like.refl _ _
    | with_reducible exact LifeCycle.Like.refl _ _
    | with_reducible exact Contexts.Like.refl _ _
    | with_reducible exact Steps.Like.refl _ _
    | with_reducible exact Mortar.Like.refl _ _
    | with_reducible exact Upkeep.Like.refl _ _

theorem leaves_emptyAllSlots {W : List Part} {s₀ s : State} (hW : [.heads] ⊆ W) (hk : Leaves W s₀ s) : Leaves W s₀
    (emptyAllSlots s) := by
  refine hk.trans ?_ hW
  unfold emptyAllSlots
  try dsimp only
  repeat' first
    | with_reducible assumption
    | with_reducible exact Leaves.refl _ _
    | split
    | with_reducible apply leaves_emptySlot
    | (with_reducible apply leaves_foldl)
    | (intro u x hu)
    | with_reducible exact Kept.refl
    | decide
    | (with_reducible apply Leaves.upd)
    | (with_reducible apply Kept.mem)
    | with_reducible exact Boundary.Like.refl _ _
    | with_reducible exact Sensing.Like.refl _ _
    | with_reducible exact Dict.Like.refl _ _
    | with_reducible exact NonVolatile.Like.refl _ _
    | with_reducible exact LifeCycle.Like.refl _ _
    | with_reducible exact Contexts.Like.refl _ _
    | with_reducible exact Steps.Like.refl _ _
    | with_reducible exact Mortar.Like.refl _ _
    | with_reducible exact Upkeep.Like.refl _ _

theorem leaves_loadSlot {W : List Part} {s₀ s : State} (hW : [.events, .counters, .heads] ⊆ W) (hk : Leaves W s₀ s)
    (i : Nat) : Leaves W s₀ (loadSlot i s) := by
  refine hk.trans ?_ hW
  unfold loadSlot
  try dsimp only
  repeat' first
    | with_reducible assumption
    | with_reducible exact Leaves.refl _ _
    | split
    | with_reducible apply leaves_raiseArgs
    | with_reducible apply leaves_setHead
    | (intro u x hu)
    | with_reducible exact Kept.refl
    | decide
    | (with_reducible apply Leaves.upd)
    | (with_reducible apply Kept.mem)
    | with_reducible exact Boundary.Like.refl _ _
    | with_reducible exact Sensing.Like.refl _ _
    | with_reducible exact Dict.Like.refl _ _
    | with_reducible exact NonVolatile.Like.refl _ _
    | with_reducible exact LifeCycle.Like.refl _ _
    | with_reducible exact Contexts.Like.refl _ _
    | with_reducible exact Steps.Like.refl _ _
    | with_reducible exact Mortar.Like.refl _ _
    | with_reducible exact Upkeep.Like.refl _ _

theorem leaves_loadFinished {W : List Part} {s₀ s : State} (hW : [.events, .counters, .heads] ⊆ W) (hk : Leaves W
    s₀ s) : Leaves W s₀ (loadFinished s) := by
  refine hk.trans ?_ hW
  unfold loadFinished
  try dsimp only
  repeat' first
    | with_reducible assumption
    | with_reducible exact Leaves.refl _ _
    | split
    | with_reducible apply leaves_loadSlot
    | (with_reducible apply leaves_foldl)
    | (intro u x hu)
    | with_reducible exact Kept.refl
    | decide
    | (with_reducible apply Leaves.upd)
    | (with_reducible apply Kept.mem)
    | with_reducible exact Boundary.Like.refl _ _
    | with_reducible exact Sensing.Like.refl _ _
    | with_reducible exact Dict.Like.refl _ _
    | with_reducible exact NonVolatile.Like.refl _ _
    | with_reducible exact LifeCycle.Like.refl _ _
    | with_reducible exact Contexts.Like.refl _ _
    | with_reducible exact Steps.Like.refl _ _
    | with_reducible exact Mortar.Like.refl _ _
    | with_reducible exact Upkeep.Like.refl _ _

theorem leaves_failSlots {W : List Part} {s₀ s : State} (hW : [.heads] ⊆ W) (hk : Leaves W s₀ s) : Leaves W s₀
    (failSlots s) := by
  refine hk.trans ?_ hW
  unfold failSlots
  try dsimp only
  repeat' first
    | with_reducible assumption
    | with_reducible exact Leaves.refl _ _
    | split
    | with_reducible apply leaves_setHead
    | with_reducible apply leaves_clearSlot
    | (with_reducible apply leaves_foldl)
    | (intro u x hu)
    | with_reducible exact Kept.refl
    | decide
    | (with_reducible apply Leaves.upd)
    | (with_reducible apply Kept.mem)
    | with_reducible exact Boundary.Like.refl _ _
    | with_reducible exact Sensing.Like.refl _ _
    | with_reducible exact Dict.Like.refl _ _
    | with_reducible exact NonVolatile.Like.refl _ _
    | with_reducible exact LifeCycle.Like.refl _ _
    | with_reducible exact Contexts.Like.refl _ _
    | with_reducible exact Steps.Like.refl _ _
    | with_reducible exact Mortar.Like.refl _ _
    | with_reducible exact Upkeep.Like.refl _ _

theorem leaves_beginMarch {W : List Part} {s₀ s : State} (hW : [.heads, .tests] ⊆ W) (hk : Leaves W s₀ s) : Leaves
    W s₀ (beginMarch s) := by
  refine hk.trans ?_ hW
  unfold beginMarch
  try dsimp only
  repeat' first
    | with_reducible assumption
    | with_reducible exact Leaves.refl _ _
    | split
    | with_reducible apply leaves_emptyAllSlots
    | (intro u x hu)
    | with_reducible exact Kept.refl
    | decide
    | (with_reducible apply Leaves.upd)
    | (with_reducible apply Kept.mem)
    | with_reducible exact Boundary.Like.refl _ _
    | with_reducible exact Sensing.Like.refl _ _
    | with_reducible exact Dict.Like.refl _ _
    | with_reducible exact NonVolatile.Like.refl _ _
    | with_reducible exact LifeCycle.Like.refl _ _
    | with_reducible exact Contexts.Like.refl _ _
    | with_reducible exact Steps.Like.refl _ _
    | with_reducible exact Mortar.Like.refl _ _
    | with_reducible exact Upkeep.Like.refl _ _
    | (with_reducible apply Upkeep.Like.mk)

theorem leaves_tick {W : List Part} {s₀ s : State} (hW : [.clock, .counters, .heads, .run, .slow, .tests] ⊆ W) (hk :
    Leaves W s₀ s) : Leaves W s₀ (tick s) := by
  refine hk.trans ?_ hW
  unfold tick
  try dsimp only
  repeat' first
    | with_reducible assumption
    | with_reducible exact Leaves.refl _ _
    | split
    | with_reducible apply leaves_beginMarch
    | with_reducible apply leaves_idle
    | (intro u x hu)
    | with_reducible exact Kept.refl
    | decide
    | (with_reducible apply Leaves.upd)
    | (with_reducible apply Kept.mem)
    | with_reducible exact Boundary.Like.refl _ _
    | with_reducible exact Sensing.Like.refl _ _
    | with_reducible exact Dict.Like.refl _ _
    | with_reducible exact NonVolatile.Like.refl _ _
    | with_reducible exact LifeCycle.Like.refl _ _
    | with_reducible exact Contexts.Like.refl _ _
    | with_reducible exact Steps.Like.refl _ _
    | with_reducible exact Mortar.Like.refl _ _
    | with_reducible exact Upkeep.Like.refl _ _

theorem leaves_startHeldSwaps {W : List Part} {s₀ s : State} (hW : [.power, .events, .counters, .heads] ⊆ W) (hk :
    Leaves W s₀ s) : Leaves W s₀ (startHeldSwaps s) := by
  refine hk.trans ?_ hW
  unfold startHeldSwaps
  try dsimp only
  repeat' first
    | with_reducible assumption
    | with_reducible exact Leaves.refl _ _
    | split
    | with_reducible apply leaves_startSwap
    | with_reducible apply leaves_setHead
    | (with_reducible apply leaves_foldl)
    | (intro u x hu)
    | with_reducible exact Kept.refl
    | decide
    | (with_reducible apply Leaves.upd)
    | (with_reducible apply Kept.mem)
    | with_reducible exact Boundary.Like.refl _ _
    | with_reducible exact Sensing.Like.refl _ _
    | with_reducible exact Dict.Like.refl _ _
    | with_reducible exact NonVolatile.Like.refl _ _
    | with_reducible exact LifeCycle.Like.refl _ _
    | with_reducible exact Contexts.Like.refl _ _
    | with_reducible exact Steps.Like.refl _ _
    | with_reducible exact Mortar.Like.refl _ _
    | with_reducible exact Upkeep.Like.refl _ _

theorem leaves_swapGoEffect {W : List Part} {s₀ s : State} (hW : [.power, .events, .counters, .heads] ⊆ W) (hk :
    Leaves W s₀ s) (i : Nat) : Leaves W s₀ (swapGoEffect i s) := by
  refine hk.trans ?_ hW
  unfold swapGoEffect
  try dsimp only
  repeat' first
    | with_reducible assumption
    | with_reducible exact Leaves.refl _ _
    | split
    | with_reducible apply leaves_reject
    | with_reducible apply leaves_setHead
    | with_reducible apply leaves_startSwap
    | (intro u x hu)
    | with_reducible exact Kept.refl
    | decide
    | (with_reducible apply Leaves.upd)
    | (with_reducible apply Kept.mem)
    | with_reducible exact Boundary.Like.refl _ _
    | with_reducible exact Sensing.Like.refl _ _
    | with_reducible exact Dict.Like.refl _ _
    | with_reducible exact NonVolatile.Like.refl _ _
    | with_reducible exact LifeCycle.Like.refl _ _
    | with_reducible exact Contexts.Like.refl _ _
    | with_reducible exact Steps.Like.refl _ _
    | with_reducible exact Mortar.Like.refl _ _
    | with_reducible exact Upkeep.Like.refl _ _

theorem leaves_swapAbortEffect {W : List Part} {s₀ s : State} (hW : [.events, .counters, .heads, .tests] ⊆ W) (hk :
    Leaves W s₀ s) (i : Nat) : Leaves W s₀ (swapAbortEffect i s) := by
  refine hk.trans ?_ hW
  unfold swapAbortEffect
  try dsimp only
  repeat' first
    | with_reducible assumption
    | with_reducible exact Leaves.refl _ _
    | split
    | with_reducible apply leaves_beginMarch
    | with_reducible apply leaves_raiseArgs
    | with_reducible apply leaves_emptySlot
    | with_reducible apply leaves_setHead
    | with_reducible apply leaves_reject
    | (intro u x hu)
    | with_reducible exact Kept.refl
    | decide
    | (with_reducible apply Leaves.upd)
    | (with_reducible apply Kept.mem)
    | with_reducible exact Boundary.Like.refl _ _
    | with_reducible exact Sensing.Like.refl _ _
    | with_reducible exact Dict.Like.refl _ _
    | with_reducible exact NonVolatile.Like.refl _ _
    | with_reducible exact LifeCycle.Like.refl _ _
    | with_reducible exact Contexts.Like.refl _ _
    | with_reducible exact Steps.Like.refl _ _
    | with_reducible exact Mortar.Like.refl _ _
    | with_reducible exact Upkeep.Like.refl _ _

theorem leaves_swapSourceError {W : List Part} {s₀ s : State} (hW : [.events, .counters, .heads, .tests] ⊆ W) (hk :
    Leaves W s₀ s) (i : Nat) : Leaves W s₀ (swapSourceError i s) := by
  refine hk.trans ?_ hW
  unfold swapSourceError
  try dsimp only
  repeat' first
    | with_reducible assumption
    | with_reducible exact Leaves.refl _ _
    | split
    | with_reducible apply leaves_beginMarch
    | with_reducible apply leaves_raiseArgs
    | with_reducible apply leaves_clearSlot
    | (intro u x hu)
    | with_reducible exact Kept.refl
    | decide
    | (with_reducible apply Leaves.upd)
    | (with_reducible apply Kept.mem)
    | with_reducible exact Boundary.Like.refl _ _
    | with_reducible exact Sensing.Like.refl _ _
    | with_reducible exact Dict.Like.refl _ _
    | with_reducible exact NonVolatile.Like.refl _ _
    | with_reducible exact LifeCycle.Like.refl _ _
    | with_reducible exact Contexts.Like.refl _ _
    | with_reducible exact Steps.Like.refl _ _
    | with_reducible exact Mortar.Like.refl _ _
    | with_reducible exact Upkeep.Like.refl _ _

theorem leaves_finishSwap {W : List Part} {s₀ s : State} (hW : [.events, .counters, .heads] ⊆ W) (hk : Leaves W s₀
    s) (i : Nat) : Leaves W s₀ (finishSwap i s) := by
  refine hk.trans ?_ hW
  unfold finishSwap
  try dsimp only
  repeat' first
    | with_reducible assumption
    | with_reducible exact Leaves.refl _ _
    | split
    | with_reducible apply leaves_raiseArgs
    | with_reducible apply leaves_setHead
    | with_reducible apply leaves_loadSlot
    | (intro u x hu)
    | with_reducible exact Kept.refl
    | decide
    | (with_reducible apply Leaves.upd)
    | (with_reducible apply Kept.mem)
    | with_reducible exact Boundary.Like.refl _ _
    | with_reducible exact Sensing.Like.refl _ _
    | with_reducible exact Dict.Like.refl _ _
    | with_reducible exact NonVolatile.Like.refl _ _
    | with_reducible exact LifeCycle.Like.refl _ _
    | with_reducible exact Contexts.Like.refl _ _
    | with_reducible exact Steps.Like.refl _ _
    | with_reducible exact Mortar.Like.refl _ _
    | with_reducible exact Upkeep.Like.refl _ _

end Sys2Proof.Machine
end

