-- ==== Sys2Proof/Laws/LeavesHistory.lean ====
section
/-! SUPPORT. What the effects of Machine/History.lean leave as it was. -/

namespace Sys2Proof.Machine

theorem leaves_cacheLine {W : List Part} {s₀ s : State} (hW : [.cache] ⊆ W) (hk : Leaves W s₀ s) (line : Nat) :
    Leaves W s₀ (cacheLine line s) := by
  refine hk.trans ?_ hW
  unfold cacheLine
  try dsimp only
  repeat' first
    | with_reducible assumption
    | with_reducible exact Leaves.refl _ _
    | split
    | (intro u x hu)
    | with_reducible exact Kept.refl
    | decide
    | (with_reducible apply Leaves.upd)
    | (with_reducible apply Kept.mem)
    | with_reducible exact Boundary.Like.refl _ _
    | with_reducible exact Sensing.Like.refl _ _
    | with_reducible exact Dict.Like.refl _ _
    | with_reducible exact NonVolatile.Like.refl _ _
    | with_reducible exact LifeCycle.Like.refl _ _
    | with_reducible exact Contexts.Like.refl _ _
    | with_reducible exact Steps.Like.refl _ _
    | with_reducible exact Mortar.Like.refl _ _
    | with_reducible exact Upkeep.Like.refl _ _
    | (with_reducible apply Contexts.Like.mk)

theorem leaves_cacheRange {W : List Part} {s₀ s : State} (hW : [.cache] ⊆ W) (hk : Leaves W s₀ s) (a n : Nat) :
    Leaves W s₀ (cacheRange a n s) := by
  refine hk.trans ?_ hW
  unfold cacheRange
  try dsimp only
  repeat' first
    | with_reducible assumption
    | with_reducible exact Leaves.refl _ _
    | split
    | with_reducible apply leaves_cacheLine
    | (with_reducible apply leaves_foldl)
    | (intro u x hu)
    | with_reducible exact Kept.refl
    | decide
    | (with_reducible apply Leaves.upd)
    | (with_reducible apply Kept.mem)
    | with_reducible exact Boundary.Like.refl _ _
    | with_reducible exact Sensing.Like.refl _ _
    | with_reducible exact Dict.Like.refl _ _
    | with_reducible exact NonVolatile.Like.refl _ _
    | with_reducible exact LifeCycle.Like.refl _ _
    | with_reducible exact Contexts.Like.refl _ _
    | with_reducible exact Steps.Like.refl _ _
    | with_reducible exact Mortar.Like.refl _ _
    | with_reducible exact Upkeep.Like.refl _ _

theorem leaves_setContext {W : List Part} {s₀ s : State} (hW : [.slots] ⊆ W) (hk : Leaves W s₀ s) (slot : Nat) (c :
    Context) : Leaves W s₀ (setContext slot c s) := by
  refine hk.trans ?_ hW
  unfold setContext
  try dsimp only
  repeat' first
    | with_reducible assumption
    | with_reducible exact Leaves.refl _ _
    | split
    | (intro u x hu)
    | with_reducible exact Kept.refl
    | decide
    | (with_reducible apply Leaves.upd)
    | (with_reducible apply Kept.mem)
    | with_reducible exact Boundary.Like.refl _ _
    | with_reducible exact Sensing.Like.refl _ _
    | with_reducible exact Dict.Like.refl _ _
    | with_reducible exact NonVolatile.Like.refl _ _
    | with_reducible exact LifeCycle.Like.refl _ _
    | with_reducible exact Contexts.Like.refl _ _
    | with_reducible exact Steps.Like.refl _ _
    | with_reducible exact Mortar.Like.refl _ _
    | with_reducible exact Upkeep.Like.refl _ _
    | (with_reducible apply Contexts.Like.mk)

theorem leaves_dirtySlot {W : List Part} {s₀ s : State} (hW : [.snapshot] ⊆ W) (hk : Leaves W s₀ s) (slot : Nat) :
    Leaves W s₀ (dirtySlot slot s) := by
  refine hk.trans ?_ hW
  unfold dirtySlot
  try dsimp only
  repeat' first
    | with_reducible assumption
    | with_reducible exact Leaves.refl _ _
    | split
    | (intro u x hu)
    | with_reducible exact Kept.refl
    | decide
    | (with_reducible apply Leaves.upd)
    | (with_reducible apply Kept.mem)
    | with_reducible exact Boundary.Like.refl _ _
    | with_reducible exact Sensing.Like.refl _ _
    | with_reducible exact Dict.Like.refl _ _
    | with_reducible exact NonVolatile.Like.refl _ _
    | with_reducible exact LifeCycle.Like.refl _ _
    | with_reducible exact Contexts.Like.refl _ _
    | with_reducible exact Steps.Like.refl _ _
    | with_reducible exact Mortar.Like.refl _ _
    | with_reducible exact Upkeep.Like.refl _ _

theorem leaves_dirtyKeys {W : List Part} {s₀ s : State} (hW : [.snapshot] ⊆ W) (hk : Leaves W s₀ s) (keys : List
    Nat) : Leaves W s₀ (dirtyKeys keys s) := by
  refine hk.trans ?_ hW
  unfold dirtyKeys
  try dsimp only
  repeat' first
    | with_reducible assumption
    | with_reducible exact Leaves.refl _ _
    | split
    | (intro u x hu)
    | with_reducible exact Kept.refl
    | decide
    | (with_reducible apply Leaves.upd)
    | (with_reducible apply Kept.mem)
    | with_reducible exact Boundary.Like.refl _ _
    | with_reducible exact Sensing.Like.refl _ _
    | with_reducible exact Dict.Like.refl _ _
    | with_reducible exact NonVolatile.Like.refl _ _
    | with_reducible exact LifeCycle.Like.refl _ _
    | with_reducible exact Contexts.Like.refl _ _
    | with_reducible exact Steps.Like.refl _ _
    | with_reducible exact Mortar.Like.refl _ _
    | with_reducible exact Upkeep.Like.refl _ _

theorem leaves_dirtyNode {W : List Part} {s₀ s : State} (hW : [.snapshot] ⊆ W) (hk : Leaves W s₀ s) (n : Node) :
    Leaves W s₀ (dirtyNode n s) := by
  refine hk.trans ?_ hW
  unfold dirtyNode
  try dsimp only
  repeat' first
    | with_reducible assumption
    | with_reducible exact Leaves.refl _ _
    | split
    | with_reducible apply leaves_dirtyKeys
    | (intro u x hu)
    | with_reducible exact Kept.refl
    | decide
    | (with_reducible apply Leaves.upd)
    | (with_reducible apply Kept.mem)
    | with_reducible exact Boundary.Like.refl _ _
    | with_reducible exact Sensing.Like.refl _ _
    | with_reducible exact Dict.Like.refl _ _
    | with_reducible exact NonVolatile.Like.refl _ _
    | with_reducible exact LifeCycle.Like.refl _ _
    | with_reducible exact Contexts.Like.refl _ _
    | with_reducible exact Steps.Like.refl _ _
    | with_reducible exact Mortar.Like.refl _ _
    | with_reducible exact Upkeep.Like.refl _ _

theorem leaves_notePeak {W : List Part} {s₀ s : State} (hW : [.counters] ⊆ W) (hk : Leaves W s₀ s) : Leaves W s₀
    (notePeak s) := by
  refine hk.trans ?_ hW
  unfold notePeak
  try dsimp only
  repeat' first
    | with_reducible assumption
    | with_reducible exact Leaves.refl _ _
    | split
    | with_reducible apply leaves_setCounter
    | (intro u x hu)
    | with_reducible exact Kept.refl
    | decide
    | (with_reducible apply Leaves.upd)
    | (with_reducible apply Kept.mem)
    | with_reducible exact Boundary.Like.refl _ _
    | with_reducible exact Sensing.Like.refl _ _
    | with_reducible exact Dict.Like.refl _ _
    | with_reducible exact NonVolatile.Like.refl _ _
    | with_reducible exact LifeCycle.Like.refl _ _
    | with_reducible exact Contexts.Like.refl _ _
    | with_reducible exact Steps.Like.refl _ _
    | with_reducible exact Mortar.Like.refl _ _
    | with_reducible exact Upkeep.Like.refl _ _

theorem leaves_putNode {W : List Part} {s₀ s : State} (hW : [.counters, .pages, .snapshot] ⊆ W) (hk : Leaves W s₀
    s) (id : Nat) (n : Node) : Leaves W s₀ (putNode id n s) := by
  refine hk.trans ?_ hW
  unfold putNode
  try dsimp only
  repeat' first
    | with_reducible assumption
    | with_reducible exact Leaves.refl _ _
    | split
    | with_reducible apply leaves_notePeak
    | with_reducible apply leaves_dirtyKeys
    | (intro u x hu)
    | with_reducible exact Kept.refl
    | decide
    | (with_reducible apply Leaves.upd)
    | (with_reducible apply Kept.mem)
    | with_reducible exact Boundary.Like.refl _ _
    | with_reducible exact Sensing.Like.refl _ _
    | with_reducible exact Dict.Like.refl _ _
    | with_reducible exact NonVolatile.Like.refl _ _
    | with_reducible exact LifeCycle.Like.refl _ _
    | with_reducible exact Contexts.Like.refl _ _
    | with_reducible exact Steps.Like.refl _ _
    | with_reducible exact Mortar.Like.refl _ _
    | with_reducible exact Upkeep.Like.refl _ _
    | (with_reducible apply Contexts.Like.mk)

theorem leaves_newLeaf {W : List Part} {s₀ s : State} (hW : [.counters, .pages, .snapshot] ⊆ W) (hk : Leaves W s₀
    s) (parent : Option Nat) : Leaves W s₀ (newLeaf parent s) := by
  refine hk.trans ?_ hW
  unfold newLeaf
  try dsimp only
  repeat' first
    | with_reducible assumption
    | with_reducible exact Leaves.refl _ _
    | split
    | with_reducible apply leaves_putNode
    | (intro u x hu)
    | with_reducible exact Kept.refl
    | decide
    | (with_reducible apply Leaves.upd)
    | (with_reducible apply Kept.mem)
    | with_reducible exact Boundary.Like.refl _ _
    | with_reducible exact Sensing.Like.refl _ _
    | with_reducible exact Dict.Like.refl _ _
    | with_reducible exact NonVolatile.Like.refl _ _
    | with_reducible exact LifeCycle.Like.refl _ _
    | with_reducible exact Contexts.Like.refl _ _
    | with_reducible exact Steps.Like.refl _ _
    | with_reducible exact Mortar.Like.refl _ _
    | with_reducible exact Upkeep.Like.refl _ _
    | (with_reducible apply Contexts.Like.mk)

theorem leaves_addRef {W : List Part} {s₀ s : State} (hW : [.pages] ⊆ W) (hk : Leaves W s₀ s) (id : Nat) (k : Nat)
    : Leaves W s₀ (addRef id k s) := by
  refine hk.trans ?_ hW
  unfold addRef
  try dsimp only
  repeat' first
    | with_reducible assumption
    | with_reducible exact Leaves.refl _ _
    | split
    | (intro u x hu)
    | with_reducible exact Kept.refl
    | decide
    | (with_reducible apply Leaves.upd)
    | (with_reducible apply Kept.mem)
    | with_reducible exact Boundary.Like.refl _ _
    | with_reducible exact Sensing.Like.refl _ _
    | with_reducible exact Dict.Like.refl _ _
    | with_reducible exact NonVolatile.Like.refl _ _
    | with_reducible exact LifeCycle.Like.refl _ _
    | with_reducible exact Contexts.Like.refl _ _
    | with_reducible exact Steps.Like.refl _ _
    | with_reducible exact Mortar.Like.refl _ _
    | with_reducible exact Upkeep.Like.refl _ _
    | (with_reducible apply Contexts.Like.mk)

theorem leaves_dropRef_own {s₀ s : State} (hk : Leaves [.pages, .snapshot] s₀ s) (fuel id : Nat) : Leaves [.pages,
    .snapshot] s₀ (dropRef fuel id s) := by
  induction fuel generalizing s id with
  | zero => exact hk
  | succ fuel ih =>
    rw [dropRef]
    try dsimp only
    repeat' first
      | with_reducible assumption
      | with_reducible exact Leaves.refl _ _
      | split
      | (with_reducible apply ih)
      | with_reducible apply leaves_dirtyNode
      | (intro u x hu)
      | with_reducible exact Kept.refl
      | decide
      | (with_reducible apply Leaves.upd)
      | (with_reducible apply Kept.mem)
      | with_reducible exact Boundary.Like.refl _ _
      | with_reducible exact Sensing.Like.refl _ _
      | with_reducible exact Dict.Like.refl _ _
      | with_reducible exact NonVolatile.Like.refl _ _
      | with_reducible exact LifeCycle.Like.refl _ _
      | with_reducible exact Contexts.Like.refl _ _
      | with_reducible exact Steps.Like.refl _ _
      | with_reducible exact Mortar.Like.refl _ _
      | with_reducible exact Upkeep.Like.refl _ _
      | (with_reducible apply Contexts.Like.mk)

theorem leaves_dropRef {W : List Part} {s₀ s : State} (hW : [.pages, .snapshot] ⊆ W) (hk : Leaves W s₀ s) (fuel id
    : Nat) : Leaves W s₀ (dropRef fuel id s) :=
  hk.trans (leaves_dropRef_own (Leaves.refl _ _) fuel id) hW

theorem leaves_freeSlot {W : List Part} {s₀ s : State} (hW : [.slots, .pages, .snapshot] ⊆ W) (hk : Leaves W s₀ s)
    (slot : Nat) : Leaves W s₀ (freeSlot slot s) := by
  refine hk.trans ?_ hW
  unfold freeSlot
  try dsimp only
  repeat' first
    | with_reducible assumption
    | with_reducible exact Leaves.refl _ _
    | split
    | with_reducible apply leaves_dirtySlot
    | with_reducible apply leaves_dropRef
    | (intro u x hu)
    | with_reducible exact Kept.refl
    | decide
    | (with_reducible apply Leaves.upd)
    | (with_reducible apply Kept.mem)
    | with_reducible exact Boundary.Like.refl _ _
    | with_reducible exact Sensing.Like.refl _ _
    | with_reducible exact Dict.Like.refl _ _
    | with_reducible exact NonVolatile.Like.refl _ _
    | with_reducible exact LifeCycle.Like.refl _ _
    | with_reducible exact Contexts.Like.refl _ _
    | with_reducible exact Steps.Like.refl _ _
    | with_reducible exact Mortar.Like.refl _ _
    | with_reducible exact Upkeep.Like.refl _ _
    | (with_reducible apply Contexts.Like.mk)

theorem leaves_appendRaw {W : List Part} {s₀ s : State} (hW : [.counters, .slots, .pages, .snapshot] ⊆ W) (hk :
    Leaves W s₀ s) (slot token st : Nat) : Leaves W s₀ (appendRaw slot token st s) := by
  refine hk.trans ?_ hW
  unfold appendRaw
  try dsimp only
  repeat' first
    | with_reducible assumption
    | with_reducible exact Leaves.refl _ _
    | split
    | with_reducible apply leaves_newLeaf
    | with_reducible apply leaves_putNode
    | with_reducible apply leaves_dirtySlot
    | with_reducible apply leaves_setContext
    | (intro u x hu)
    | with_reducible exact Kept.refl
    | decide
    | (with_reducible apply Leaves.upd)
    | (with_reducible apply Kept.mem)
    | with_reducible exact Boundary.Like.refl _ _
    | with_reducible exact Sensing.Like.refl _ _
    | with_reducible exact Dict.Like.refl _ _
    | with_reducible exact NonVolatile.Like.refl _ _
    | with_reducible exact LifeCycle.Like.refl _ _
    | with_reducible exact Contexts.Like.refl _ _
    | with_reducible exact Steps.Like.refl _ _
    | with_reducible exact Mortar.Like.refl _ _
    | with_reducible exact Upkeep.Like.refl _ _

theorem leaves_appendToken {W : List Part} {s₀ s : State} (hW : [.events, .counters, .slots, .pages, .snapshot] ⊆
    W) (hk : Leaves W s₀ s) (slot token : Nat) : Leaves W s₀ (appendToken slot token s) := by
  refine hk.trans ?_ hW
  unfold appendToken
  try dsimp only
  repeat' first
    | with_reducible assumption
    | with_reducible exact Leaves.refl _ _
    | split
    | with_reducible apply leaves_appendRaw
    | with_reducible apply leaves_raiseCount
    | (intro u x hu)
    | with_reducible exact Kept.refl
    | decide
    | (with_reducible apply Leaves.upd)
    | (with_reducible apply Kept.mem)
    | with_reducible exact Boundary.Like.refl _ _
    | with_reducible exact Sensing.Like.refl _ _
    | with_reducible exact Dict.Like.refl _ _
    | with_reducible exact NonVolatile.Like.refl _ _
    | with_reducible exact LifeCycle.Like.refl _ _
    | with_reducible exact Contexts.Like.refl _ _
    | with_reducible exact Steps.Like.refl _ _
    | with_reducible exact Mortar.Like.refl _ _
    | with_reducible exact Upkeep.Like.refl _ _

theorem leaves_forkSlot {W : List Part} {s₀ s : State} (hW : [.counters, .slots, .pages, .snapshot] ⊆ W) (hk :
    Leaves W s₀ s) (parent child : Nat) (seed : Nat) : Leaves W s₀ (forkSlot parent child seed s) := by
  refine hk.trans ?_ hW
  unfold forkSlot
  try dsimp only
  repeat' first
    | with_reducible assumption
    | with_reducible exact Leaves.refl _ _
    | split
    | with_reducible apply leaves_dirtySlot
    | with_reducible apply leaves_setContext
    | with_reducible apply leaves_newLeaf
    | with_reducible apply leaves_addRef
    | (intro u x hu)
    | with_reducible exact Kept.refl
    | decide
    | (with_reducible apply Leaves.upd)
    | (with_reducible apply Kept.mem)
    | with_reducible exact Boundary.Like.refl _ _
    | with_reducible exact Sensing.Like.refl _ _
    | with_reducible exact Dict.Like.refl _ _
    | with_reducible exact NonVolatile.Like.refl _ _
    | with_reducible exact LifeCycle.Like.refl _ _
    | with_reducible exact Contexts.Like.refl _ _
    | with_reducible exact Steps.Like.refl _ _
    | with_reducible exact Mortar.Like.refl _ _
    | with_reducible exact Upkeep.Like.refl _ _

theorem leaves_movePages {W : List Part} {s₀ s : State} (hW : [.counters, .pages, .snapshot] ⊆ W) (hk : Leaves W s₀
    s) (pause : Bool) (ids : List Nat) : Leaves W s₀ (movePages pause ids s) := by
  refine hk.trans ?_ hW
  unfold movePages
  try dsimp only
  repeat' first
    | with_reducible assumption
    | with_reducible exact Leaves.refl _ _
    | split
    | with_reducible apply leaves_putNode
    | with_reducible apply leaves_dirtyNode
    | (with_reducible apply leaves_foldl)
    | (intro u x hu)
    | with_reducible exact Kept.refl
    | decide
    | (with_reducible apply Leaves.upd)
    | (with_reducible apply Kept.mem)
    | with_reducible exact Boundary.Like.refl _ _
    | with_reducible exact Sensing.Like.refl _ _
    | with_reducible exact Dict.Like.refl _ _
    | with_reducible exact NonVolatile.Like.refl _ _
    | with_reducible exact LifeCycle.Like.refl _ _
    | with_reducible exact Contexts.Like.refl _ _
    | with_reducible exact Steps.Like.refl _ _
    | with_reducible exact Mortar.Like.refl _ _
    | with_reducible exact Upkeep.Like.refl _ _

end Sys2Proof.Machine
end

