-- ==== Sys2Proof/Laws/LeavesContextCommands.lean ====
section
/-! SUPPORT. What the effects of Machine/ContextCommands.lean leave as it was. -/

namespace Sys2Proof.Machine

theorem leaves_free16 {W : List Part} {s₀ s : State} (hW : [.fresh] ⊆ W) (hk : Leaves W s₀ s) :
    Leaves W s₀ (free16 s).2 := by
  refine hk.trans (V := [.fresh]) ⟨fun p hp => ?_⟩ hW
  cases p
  case fresh => exact absurd (List.mem_singleton.2 rfl) hp
  all_goals (repeat' apply And.intro) <;> rfl

theorem leaves_free16_eq {s t : State} {v : Nat} (e : free16 s = (v, t)) : Leaves [.fresh] s t := by
  have h := leaves_free16 (W := [.fresh]) (by decide) (Leaves.refl _ s)
  rw [e] at h
  exact h

theorem leaves_setBatch {W : List Part} {s₀ s : State} (hW : [.batches] ⊆ W) (hk : Leaves W s₀ s) (t : Nat) (b :
    Batch) : Leaves W s₀ (setBatch t b s) := by
  refine hk.trans ?_ hW
  unfold setBatch
  try dsimp only
  repeat' first
    | with_reducible assumption
    | with_reducible exact Leaves.refl _ _
    | split
    | (intro u x hu)
    | with_reducible exact Kept.refl
    | decide
    | (with_reducible apply Leaves.upd)
    | (with_reducible apply Kept.mem)
    | with_reducible exact Boundary.Like.refl _ _
    | with_reducible exact Sensing.Like.refl _ _
    | with_reducible exact Dict.Like.refl _ _
    | with_reducible exact NonVolatile.Like.refl _ _
    | with_reducible exact LifeCycle.Like.refl _ _
    | with_reducible exact Contexts.Like.refl _ _
    | with_reducible exact Steps.Like.refl _ _
    | with_reducible exact Mortar.Like.refl _ _
    | with_reducible exact Upkeep.Like.refl _ _
    | (with_reducible apply Contexts.Like.mk)

theorem leaves_writeResults {W : List Part} {s₀ s : State} (hW : [.counters, .mem] ⊆ W) (hk : Leaves W s₀ s) (addr
    status slot length : Nat) : Leaves W s₀ (writeResults addr status slot length s) := by
  refine hk.trans ?_ hW
  unfold writeResults
  try dsimp only
  repeat' first
    | with_reducible assumption
    | with_reducible exact Leaves.refl _ _
    | split
    | with_reducible apply leaves_writeBytes
    | with_reducible apply leaves_count
    | (intro u x hu)
    | with_reducible exact Kept.refl
    | decide
    | (with_reducible apply Leaves.upd)
    | (with_reducible apply Kept.mem)
    | with_reducible exact Boundary.Like.refl _ _
    | with_reducible exact Sensing.Like.refl _ _
    | with_reducible exact Dict.Like.refl _ _
    | with_reducible exact NonVolatile.Like.refl _ _
    | with_reducible exact LifeCycle.Like.refl _ _
    | with_reducible exact Contexts.Like.refl _ _
    | with_reducible exact Steps.Like.refl _ _
    | with_reducible exact Mortar.Like.refl _ _
    | with_reducible exact Upkeep.Like.refl _ _

theorem leaves_advanceBatch {W : List Part} {s₀ s : State} (hW : [.batches] ⊆ W) (hk : Leaves W s₀ s) (t : Nat) :
    Leaves W s₀ (advanceBatch t s) := by
  refine hk.trans ?_ hW
  unfold advanceBatch
  try dsimp only
  repeat' first
    | with_reducible assumption
    | with_reducible exact Leaves.refl _ _
    | split
    | with_reducible apply leaves_setBatch
    | (intro u x hu)
    | with_reducible exact Kept.refl
    | decide
    | (with_reducible apply Leaves.upd)
    | (with_reducible apply Kept.mem)
    | with_reducible exact Boundary.Like.refl _ _
    | with_reducible exact Sensing.Like.refl _ _
    | with_reducible exact Dict.Like.refl _ _
    | with_reducible exact NonVolatile.Like.refl _ _
    | with_reducible exact LifeCycle.Like.refl _ _
    | with_reducible exact Contexts.Like.refl _ _
    | with_reducible exact Steps.Like.refl _ _
    | with_reducible exact Mortar.Like.refl _ _
    | with_reducible exact Upkeep.Like.refl _ _

theorem leaves_endRecord {W : List Part} {s₀ s : State} (hW : [.counters, .batches, .mem] ⊆ W) (hk : Leaves W s₀ s)
    (t addr status slot length : Nat) : Leaves W s₀ (endRecord t addr status slot length s) := by
  refine hk.trans ?_ hW
  unfold endRecord
  try dsimp only
  repeat' first
    | with_reducible assumption
    | with_reducible exact Leaves.refl _ _
    | split
    | with_reducible apply leaves_advanceBatch
    | with_reducible apply leaves_writeResults
    | (intro u x hu)
    | with_reducible exact Kept.refl
    | decide
    | (with_reducible apply Leaves.upd)
    | (with_reducible apply Kept.mem)
    | with_reducible exact Boundary.Like.refl _ _
    | with_reducible exact Sensing.Like.refl _ _
    | with_reducible exact Dict.Like.refl _ _
    | with_reducible exact NonVolatile.Like.refl _ _
    | with_reducible exact LifeCycle.Like.refl _ _
    | with_reducible exact Contexts.Like.refl _ _
    | with_reducible exact Steps.Like.refl _ _
    | with_reducible exact Mortar.Like.refl _ _
    | with_reducible exact Upkeep.Like.refl _ _

theorem leaves_failRecord {W : List Part} {s₀ s : State} (hW : [.counters, .batches, .mem] ⊆ W) (hk : Leaves W s₀
    s) (t addr : Nat) (r : CtxRecord) (status : Nat) : Leaves W s₀ (failRecord t addr r status s) := by
  refine hk.trans ?_ hW
  unfold failRecord
  try dsimp only
  repeat' first
    | with_reducible assumption
    | with_reducible exact Leaves.refl _ _
    | split
    | with_reducible apply leaves_endRecord
    | (intro u x hu)
    | with_reducible exact Kept.refl
    | decide
    | (with_reducible apply Leaves.upd)
    | (with_reducible apply Kept.mem)
    | with_reducible exact Boundary.Like.refl _ _
    | with_reducible exact Sensing.Like.refl _ _
    | with_reducible exact Dict.Like.refl _ _
    | with_reducible exact NonVolatile.Like.refl _ _
    | with_reducible exact LifeCycle.Like.refl _ _
    | with_reducible exact Contexts.Like.refl _ _
    | with_reducible exact Steps.Like.refl _ _
    | with_reducible exact Mortar.Like.refl _ _
    | with_reducible exact Upkeep.Like.refl _ _

theorem leaves_endCopy {W : List Part} {s₀ s : State} (hW : [.counters, .batches, .mem] ⊆ W) (hk : Leaves W s₀ s)
    (slot status : Nat) : Leaves W s₀ (endCopy slot status s) := by
  refine hk.trans ?_ hW
  unfold endCopy
  try dsimp only
  repeat' first
    | with_reducible assumption
    | with_reducible exact Leaves.refl _ _
    | split
    | with_reducible apply leaves_writeResults
    | with_reducible apply leaves_setBatch
    | (with_reducible apply leaves_foldl)
    | (intro u x hu)
    | with_reducible exact Kept.refl
    | decide
    | (with_reducible apply Leaves.upd)
    | (with_reducible apply Kept.mem)
    | with_reducible exact Boundary.Like.refl _ _
    | with_reducible exact Sensing.Like.refl _ _
    | with_reducible exact Dict.Like.refl _ _
    | with_reducible exact NonVolatile.Like.refl _ _
    | with_reducible exact LifeCycle.Like.refl _ _
    | with_reducible exact Contexts.Like.refl _ _
    | with_reducible exact Steps.Like.refl _ _
    | with_reducible exact Mortar.Like.refl _ _
    | with_reducible exact Upkeep.Like.refl _ _

theorem leaves_freeContext {W : List Part} {s₀ s : State} (hW : [.counters, .slots, .pages, .batches, .snapshot,
    .mem, .fresh] ⊆ W) (hk : Leaves W s₀ s) (slot : Nat) : Leaves W s₀ (freeContext slot s) := by
  refine hk.trans ?_ hW
  unfold freeContext
  try dsimp only
  repeat' first
    | with_reducible assumption
    | with_reducible exact Leaves.refl _ _
    | split
    | with_reducible apply leaves_freeSlot
    | with_reducible apply leaves_free16
    | with_reducible apply leaves_endCopy
    | (intro u x hu)
    | with_reducible exact Kept.refl
    | decide
    | (with_reducible apply Leaves.upd)
    | (with_reducible apply Kept.mem)
    | with_reducible exact Boundary.Like.refl _ _
    | with_reducible exact Sensing.Like.refl _ _
    | with_reducible exact Dict.Like.refl _ _
    | with_reducible exact NonVolatile.Like.refl _ _
    | with_reducible exact LifeCycle.Like.refl _ _
    | with_reducible exact Contexts.Like.refl _ _
    | with_reducible exact Steps.Like.refl _ _
    | with_reducible exact Mortar.Like.refl _ _
    | with_reducible exact Upkeep.Like.refl _ _

theorem leaves_openBody {W : List Part} {s₀ s : State} (hW : [.counters, .slots, .pages, .batches, .snapshot, .mem]
    ⊆ W) (hk : Leaves W s₀ s) (t addr : Nat) (r : CtxRecord) : Leaves W s₀ (openBody t addr r s) := by
  refine hk.trans ?_ hW
  unfold openBody
  try dsimp only
  repeat' first
    | with_reducible assumption
    | with_reducible exact Leaves.refl _ _
    | split
    | with_reducible apply leaves_failRecord
    | with_reducible apply leaves_count
    | with_reducible apply leaves_endRecord
    | with_reducible apply leaves_dirtySlot
    | with_reducible apply leaves_setContext
    | with_reducible apply leaves_newLeaf
    | (intro u x hu)
    | with_reducible exact Kept.refl
    | decide
    | (with_reducible apply Leaves.upd)
    | (with_reducible apply Kept.mem)
    | with_reducible exact Boundary.Like.refl _ _
    | with_reducible exact Sensing.Like.refl _ _
    | with_reducible exact Dict.Like.refl _ _
    | with_reducible exact NonVolatile.Like.refl _ _
    | with_reducible exact LifeCycle.Like.refl _ _
    | with_reducible exact Contexts.Like.refl _ _
    | with_reducible exact Steps.Like.refl _ _
    | with_reducible exact Mortar.Like.refl _ _
    | with_reducible exact Upkeep.Like.refl _ _

theorem leaves_forkBody {W : List Part} {s₀ s : State} (hW : [.counters, .slots, .pages, .batches, .snapshot, .mem]
    ⊆ W) (hk : Leaves W s₀ s) (t addr : Nat) (r : CtxRecord) : Leaves W s₀ (forkBody t addr r s) := by
  refine hk.trans ?_ hW
  unfold forkBody
  try dsimp only
  repeat' first
    | with_reducible assumption
    | with_reducible exact Leaves.refl _ _
    | split
    | with_reducible apply leaves_failRecord
    | with_reducible apply leaves_count
    | with_reducible apply leaves_endRecord
    | with_reducible apply leaves_forkSlot
    | (intro u x hu)
    | with_reducible exact Kept.refl
    | decide
    | (with_reducible apply Leaves.upd)
    | (with_reducible apply Kept.mem)
    | with_reducible exact Boundary.Like.refl _ _
    | with_reducible exact Sensing.Like.refl _ _
    | with_reducible exact Dict.Like.refl _ _
    | with_reducible exact NonVolatile.Like.refl _ _
    | with_reducible exact LifeCycle.Like.refl _ _
    | with_reducible exact Contexts.Like.refl _ _
    | with_reducible exact Steps.Like.refl _ _
    | with_reducible exact Mortar.Like.refl _ _
    | with_reducible exact Upkeep.Like.refl _ _

theorem leaves_appendBody {W : List Part} {s₀ s : State} (hW : [.events, .counters, .slots, .pages, .batches,
    .snapshot, .mem] ⊆ W) (hk : Leaves W s₀ s) (t addr : Nat) (r : CtxRecord) : Leaves W s₀ (appendBody t addr r s)
    := by
  refine hk.trans ?_ hW
  unfold appendBody
  try dsimp only
  repeat' first
    | with_reducible assumption
    | with_reducible exact Leaves.refl _ _
    | split
    | with_reducible apply leaves_failRecord
    | with_reducible apply leaves_appendToken
    | with_reducible apply leaves_endRecord
    | (with_reducible apply leaves_foldl)
    | (intro u x hu)
    | with_reducible exact Kept.refl
    | decide
    | (with_reducible apply Leaves.upd)
    | (with_reducible apply Kept.mem)
    | with_reducible exact Boundary.Like.refl _ _
    | with_reducible exact Sensing.Like.refl _ _
    | with_reducible exact Dict.Like.refl _ _
    | with_reducible exact NonVolatile.Like.refl _ _
    | with_reducible exact LifeCycle.Like.refl _ _
    | with_reducible exact Contexts.Like.refl _ _
    | with_reducible exact Steps.Like.refl _ _
    | with_reducible exact Mortar.Like.refl _ _
    | with_reducible exact Upkeep.Like.refl _ _

theorem leaves_startCopy {W : List Part} {s₀ s : State} (hW : [.power, .counters, .batches] ⊆ W) (hk : Leaves W s₀
    s) (t addr slot : Nat) : Leaves W s₀ (startCopy t addr slot s) := by
  refine hk.trans ?_ hW
  unfold startCopy
  try dsimp only
  repeat' first
    | with_reducible assumption
    | with_reducible exact Leaves.refl _ _
    | split
    | with_reducible apply leaves_wake
    | with_reducible apply leaves_advanceBatch
    | with_reducible apply leaves_setBatch
    | (intro u x hu)
    | with_reducible exact Kept.refl
    | decide
    | (with_reducible apply Leaves.upd)
    | (with_reducible apply Kept.mem)
    | with_reducible exact Boundary.Like.refl _ _
    | with_reducible exact Sensing.Like.refl _ _
    | with_reducible exact Dict.Like.refl _ _
    | with_reducible exact NonVolatile.Like.refl _ _
    | with_reducible exact LifeCycle.Like.refl _ _
    | with_reducible exact Contexts.Like.refl _ _
    | with_reducible exact Steps.Like.refl _ _
    | with_reducible exact Mortar.Like.refl _ _
    | with_reducible exact Upkeep.Like.refl _ _

theorem leaves_pauseBody {W : List Part} {s₀ s : State} (hW : [.power, .counters, .slots, .batches, .snapshot,
    .mem] ⊆ W) (hk : Leaves W s₀ s) (t addr : Nat) (r : CtxRecord) : Leaves W s₀ (pauseBody t addr r s) := by
  refine hk.trans ?_ hW
  unfold pauseBody
  try dsimp only
  repeat' first
    | with_reducible assumption
    | with_reducible exact Leaves.refl _ _
    | split
    | with_reducible apply leaves_failRecord
    | with_reducible apply leaves_startCopy
    | with_reducible apply leaves_dirtySlot
    | with_reducible apply leaves_setContext
    | (intro u x hu)
    | with_reducible exact Kept.refl
    | decide
    | (with_reducible apply Leaves.upd)
    | (with_reducible apply Kept.mem)
    | with_reducible exact Boundary.Like.refl _ _
    | with_reducible exact Sensing.Like.refl _ _
    | with_reducible exact Dict.Like.refl _ _
    | with_reducible exact NonVolatile.Like.refl _ _
    | with_reducible exact LifeCycle.Like.refl _ _
    | with_reducible exact Contexts.Like.refl _ _
    | with_reducible exact Steps.Like.refl _ _
    | with_reducible exact Mortar.Like.refl _ _
    | with_reducible exact Upkeep.Like.refl _ _

theorem leaves_resumeBody {W : List Part} {s₀ s : State} (hW : [.power, .counters, .slots, .batches, .snapshot,
    .mem] ⊆ W) (hk : Leaves W s₀ s) (t addr : Nat) (r : CtxRecord) : Leaves W s₀ (resumeBody t addr r s) := by
  refine hk.trans ?_ hW
  unfold resumeBody
  try dsimp only
  repeat' first
    | with_reducible assumption
    | with_reducible exact Leaves.refl _ _
    | split
    | with_reducible apply leaves_failRecord
    | with_reducible apply leaves_startCopy
    | with_reducible apply leaves_notePeak
    | with_reducible apply leaves_dirtySlot
    | with_reducible apply leaves_setContext
    | (intro u x hu)
    | with_reducible exact Kept.refl
    | decide
    | (with_reducible apply Leaves.upd)
    | (with_reducible apply Kept.mem)
    | with_reducible exact Boundary.Like.refl _ _
    | with_reducible exact Sensing.Like.refl _ _
    | with_reducible exact Dict.Like.refl _ _
    | with_reducible exact NonVolatile.Like.refl _ _
    | with_reducible exact LifeCycle.Like.refl _ _
    | with_reducible exact Contexts.Like.refl _ _
    | with_reducible exact Steps.Like.refl _ _
    | with_reducible exact Mortar.Like.refl _ _
    | with_reducible exact Upkeep.Like.refl _ _

theorem leaves_cancelBody {W : List Part} {s₀ s : State} (hW : [.counters, .slots, .pages, .batches, .snapshot,
    .mem, .fresh] ⊆ W) (hk : Leaves W s₀ s) (t addr : Nat) (r : CtxRecord) : Leaves W s₀ (cancelBody t addr r s) := by
  refine hk.trans ?_ hW
  unfold cancelBody
  try dsimp only
  repeat' first
    | with_reducible assumption
    | with_reducible exact Leaves.refl _ _
    | split
    | with_reducible apply leaves_failRecord
    | with_reducible apply leaves_dirtySlot
    | with_reducible apply leaves_setContext
    | with_reducible apply leaves_freeContext
    | with_reducible apply leaves_endRecord
    | (intro u x hu)
    | with_reducible exact Kept.refl
    | decide
    | (with_reducible apply Leaves.upd)
    | (with_reducible apply Kept.mem)
    | with_reducible exact Boundary.Like.refl _ _
    | with_reducible exact Sensing.Like.refl _ _
    | with_reducible exact Dict.Like.refl _ _
    | with_reducible exact NonVolatile.Like.refl _ _
    | with_reducible exact LifeCycle.Like.refl _ _
    | with_reducible exact Contexts.Like.refl _ _
    | with_reducible exact Steps.Like.refl _ _
    | with_reducible exact Mortar.Like.refl _ _
    | with_reducible exact Upkeep.Like.refl _ _

theorem leaves_expireSlot {W : List Part} {s₀ s : State} (hW : [.events, .counters, .slots, .pages, .snapshot] ⊆ W)
    (hk : Leaves W s₀ s) (slot : Nat) : Leaves W s₀ (expireSlot slot s) := by
  refine hk.trans ?_ hW
  unfold expireSlot
  try dsimp only
  repeat' first
    | with_reducible assumption
    | with_reducible exact Leaves.refl _ _
    | split
    | with_reducible apply leaves_raiseCount
    | with_reducible apply leaves_freeSlot
    | (intro u x hu)
    | with_reducible exact Kept.refl
    | decide
    | (with_reducible apply Leaves.upd)
    | (with_reducible apply Kept.mem)
    | with_reducible exact Boundary.Like.refl _ _
    | with_reducible exact Sensing.Like.refl _ _
    | with_reducible exact Dict.Like.refl _ _
    | with_reducible exact NonVolatile.Like.refl _ _
    | with_reducible exact LifeCycle.Like.refl _ _
    | with_reducible exact Contexts.Like.refl _ _
    | with_reducible exact Steps.Like.refl _ _
    | with_reducible exact Mortar.Like.refl _ _
    | with_reducible exact Upkeep.Like.refl _ _

theorem leaves_expireDue {W : List Part} {s₀ s : State} (hW : [.events, .counters, .slots, .pages, .snapshot] ⊆ W)
    (hk : Leaves W s₀ s) (slot : Nat) : Leaves W s₀ (expireDue slot s) := by
  refine hk.trans ?_ hW
  unfold expireDue
  try dsimp only
  repeat' first
    | with_reducible assumption
    | with_reducible exact Leaves.refl _ _
    | split
    | with_reducible apply leaves_expireSlot
    | (intro u x hu)
    | with_reducible exact Kept.refl
    | decide
    | (with_reducible apply Leaves.upd)
    | (with_reducible apply Kept.mem)
    | with_reducible exact Boundary.Like.refl _ _
    | with_reducible exact Sensing.Like.refl _ _
    | with_reducible exact Dict.Like.refl _ _
    | with_reducible exact NonVolatile.Like.refl _ _
    | with_reducible exact LifeCycle.Like.refl _ _
    | with_reducible exact Contexts.Like.refl _ _
    | with_reducible exact Steps.Like.refl _ _
    | with_reducible exact Mortar.Like.refl _ _
    | with_reducible exact Upkeep.Like.refl _ _

theorem leaves_runOp {W : List Part} {s₀ s : State} (hW : [.power, .events, .counters, .slots, .pages, .batches,
    .snapshot, .mem, .fresh] ⊆ W) (hk : Leaves W s₀ s) (t addr : Nat) (r : CtxRecord) : Leaves W s₀ (runOp t addr r
    s) := by
  refine hk.trans ?_ hW
  unfold runOp
  try dsimp only
  repeat' first
    | with_reducible assumption
    | with_reducible exact Leaves.refl _ _
    | split
    | with_reducible apply leaves_failRecord
    | with_reducible apply leaves_openBody
    | with_reducible apply leaves_forkBody
    | with_reducible apply leaves_appendBody
    | with_reducible apply leaves_pauseBody
    | with_reducible apply leaves_resumeBody
    | with_reducible apply leaves_cancelBody
    | (intro u x hu)
    | with_reducible exact Kept.refl
    | decide
    | (with_reducible apply Leaves.upd)
    | (with_reducible apply Kept.mem)
    | with_reducible exact Boundary.Like.refl _ _
    | with_reducible exact Sensing.Like.refl _ _
    | with_reducible exact Dict.Like.refl _ _
    | with_reducible exact NonVolatile.Like.refl _ _
    | with_reducible exact LifeCycle.Like.refl _ _
    | with_reducible exact Contexts.Like.refl _ _
    | with_reducible exact Steps.Like.refl _ _
    | with_reducible exact Mortar.Like.refl _ _
    | with_reducible exact Upkeep.Like.refl _ _

theorem leaves_runRecord {W : List Part} {s₀ s : State} (hW : [.events, .counters, .slots, .pages, .batches, .snapshot, .mem] ⊆ W)
    (hk : Leaves W s₀ s) (t : Nat) (body : Nat → Nat → CtxRecord → State → State) (hb : ∀ u addr r, Leaves W u (body t addr r u)) :
    Leaves W s₀ (runRecord t body s) := by
  refine hk.trans ?_ (List.Subset.refl _)
  rw [runRecord]
  generalize s.nextRecord t = p
  obtain ⟨addr, r⟩ := p
  dsimp only
  split
  · exact leaves_setBatch (List.Subset.trans (by decide) hW) (Leaves.refl _ s) ..
  · split
    · exact leaves_failRecord (List.Subset.trans (by decide) hW) (Leaves.refl _ s) ..
    · refine Leaves.trans ?_ (hb _ _ _) (List.Subset.refl _)
      split
      · exact Leaves.refl _ s
      · exact leaves_expireDue (List.Subset.trans (by decide) hW) (Leaves.refl _ s) _

theorem leaves_finishPause {W : List Part} {s₀ s : State} (hW : [.counters, .slots, .pages, .batches, .snapshot,
    .mem] ⊆ W) (hk : Leaves W s₀ s) (slot : Nat) (c : Context) : Leaves W s₀ (finishPause slot c s) := by
  refine hk.trans ?_ hW
  unfold finishPause
  try dsimp only
  repeat' first
    | with_reducible assumption
    | with_reducible exact Leaves.refl _ _
    | split
    | with_reducible apply leaves_endCopy
    | with_reducible apply leaves_count
    | with_reducible apply leaves_dirtySlot
    | with_reducible apply leaves_movePages
    | with_reducible apply leaves_setContext
    | (intro u x hu)
    | with_reducible exact Kept.refl
    | decide
    | (with_reducible apply Leaves.upd)
    | (with_reducible apply Kept.mem)
    | with_reducible exact Boundary.Like.refl _ _
    | with_reducible exact Sensing.Like.refl _ _
    | with_reducible exact Dict.Like.refl _ _
    | with_reducible exact NonVolatile.Like.refl _ _
    | with_reducible exact LifeCycle.Like.refl _ _
    | with_reducible exact Contexts.Like.refl _ _
    | with_reducible exact Steps.Like.refl _ _
    | with_reducible exact Mortar.Like.refl _ _
    | with_reducible exact Upkeep.Like.refl _ _

theorem leaves_finishResume {W : List Part} {s₀ s : State} (hW : [.counters, .slots, .pages, .batches, .snapshot,
    .mem] ⊆ W) (hk : Leaves W s₀ s) (slot : Nat) (c : Context) : Leaves W s₀ (finishResume slot c s) := by
  refine hk.trans ?_ hW
  unfold finishResume
  try dsimp only
  repeat' first
    | with_reducible assumption
    | with_reducible exact Leaves.refl _ _
    | split
    | with_reducible apply leaves_endCopy
    | with_reducible apply leaves_count
    | with_reducible apply leaves_dirtySlot
    | with_reducible apply leaves_movePages
    | with_reducible apply leaves_setContext
    | (intro u x hu)
    | with_reducible exact Kept.refl
    | decide
    | (with_reducible apply Leaves.upd)
    | (with_reducible apply Kept.mem)
    | with_reducible exact Boundary.Like.refl _ _
    | with_reducible exact Sensing.Like.refl _ _
    | with_reducible exact Dict.Like.refl _ _
    | with_reducible exact NonVolatile.Like.refl _ _
    | with_reducible exact LifeCycle.Like.refl _ _
    | with_reducible exact Contexts.Like.refl _ _
    | with_reducible exact Steps.Like.refl _ _
    | with_reducible exact Mortar.Like.refl _ _
    | with_reducible exact Upkeep.Like.refl _ _

theorem leaves_batchGoEffect {W : List Part} {s₀ s : State} (hW : [.counters, .batches] ⊆ W) (hk : Leaves W s₀ s)
    (t : Nat) : Leaves W s₀ (batchGoEffect t s) := by
  refine hk.trans ?_ hW
  unfold batchGoEffect
  try dsimp only
  repeat' first
    | with_reducible assumption
    | with_reducible exact Leaves.refl _ _
    | split
    | with_reducible apply leaves_reject
    | with_reducible apply leaves_setBatch
    | with_reducible apply leaves_count
    | (intro u x hu)
    | with_reducible exact Kept.refl
    | decide
    | (with_reducible apply Leaves.upd)
    | (with_reducible apply Kept.mem)
    | with_reducible exact Boundary.Like.refl _ _
    | with_reducible exact Sensing.Like.refl _ _
    | with_reducible exact Dict.Like.refl _ _
    | with_reducible exact NonVolatile.Like.refl _ _
    | with_reducible exact LifeCycle.Like.refl _ _
    | with_reducible exact Contexts.Like.refl _ _
    | with_reducible exact Steps.Like.refl _ _
    | with_reducible exact Mortar.Like.refl _ _
    | with_reducible exact Upkeep.Like.refl _ _

theorem leaves_applyCancels {W : List Part} {s₀ s : State} (hW : [.power, .events, .counters, .slots, .pages,
    .batches, .snapshot, .mem, .fresh] ⊆ W) (hk : Leaves W s₀ s) : Leaves W s₀ (applyCancels s) := by
  refine hk.trans ?_ hW
  unfold applyCancels
  try dsimp only
  repeat' first
    | with_reducible assumption
    | with_reducible exact Leaves.refl _ _
    | split
    | with_reducible apply leaves_freeContext
    | with_reducible apply leaves_runOp
    | with_reducible apply leaves_expireDue
    | (with_reducible apply leaves_foldl)
    | (intro u x hu)
    | with_reducible exact Kept.refl
    | decide
    | (with_reducible apply Leaves.upd)
    | (with_reducible apply Kept.mem)
    | with_reducible exact Boundary.Like.refl _ _
    | with_reducible exact Sensing.Like.refl _ _
    | with_reducible exact Dict.Like.refl _ _
    | with_reducible exact NonVolatile.Like.refl _ _
    | with_reducible exact LifeCycle.Like.refl _ _
    | with_reducible exact Contexts.Like.refl _ _
    | with_reducible exact Steps.Like.refl _ _
    | with_reducible exact Mortar.Like.refl _ _
    | with_reducible exact Upkeep.Like.refl _ _

theorem leaves_abandonCopies {W : List Part} {s₀ s : State} (hW : [.slots] ⊆ W) (hk : Leaves W s₀ s) : Leaves W s₀
    (abandonCopies s) := by
  refine hk.trans ?_ hW
  unfold abandonCopies
  try dsimp only
  repeat' first
    | with_reducible assumption
    | with_reducible exact Leaves.refl _ _
    | split
    | with_reducible apply leaves_setContext
    | (with_reducible apply leaves_foldl)
    | (intro u x hu)
    | with_reducible exact Kept.refl
    | decide
    | (with_reducible apply Leaves.upd)
    | (with_reducible apply Kept.mem)
    | with_reducible exact Boundary.Like.refl _ _
    | with_reducible exact Sensing.Like.refl _ _
    | with_reducible exact Dict.Like.refl _ _
    | with_reducible exact NonVolatile.Like.refl _ _
    | with_reducible exact LifeCycle.Like.refl _ _
    | with_reducible exact Contexts.Like.refl _ _
    | with_reducible exact Steps.Like.refl _ _
    | with_reducible exact Mortar.Like.refl _ _
    | with_reducible exact Upkeep.Like.refl _ _

theorem leaves_settleCopies {W : List Part} {s₀ s : State} (hW : [.counters, .batches, .mem, .fresh] ⊆ W) (hk :
    Leaves W s₀ s) : Leaves W s₀ (settleCopies s) := by
  refine hk.trans ?_ hW
  unfold settleCopies
  try dsimp only
  repeat' first
    | with_reducible assumption
    | with_reducible exact Leaves.refl _ _
    | split
    | with_reducible apply leaves_free16
    | with_reducible apply leaves_endCopy
    | (with_reducible apply leaves_foldl)
    | (intro u x hu)
    | with_reducible exact Kept.refl
    | decide
    | (with_reducible apply Leaves.upd)
    | (with_reducible apply Kept.mem)
    | with_reducible exact Boundary.Like.refl _ _
    | with_reducible exact Sensing.Like.refl _ _
    | with_reducible exact Dict.Like.refl _ _
    | with_reducible exact NonVolatile.Like.refl _ _
    | with_reducible exact LifeCycle.Like.refl _ _
    | with_reducible exact Contexts.Like.refl _ _
    | with_reducible exact Steps.Like.refl _ _
    | with_reducible exact Mortar.Like.refl _ _
    | with_reducible exact Upkeep.Like.refl _ _

theorem leaves_loseContext {W : List Part} {s₀ s : State} (hW : [.events, .counters, .slots, .pages, .batches,
    .snapshot, .mem] ⊆ W) (hk : Leaves W s₀ s) (slot : Nat) : Leaves W s₀ (loseContext slot s) := by
  refine hk.trans ?_ hW
  unfold loseContext
  try dsimp only
  repeat' first
    | with_reducible assumption
    | with_reducible exact Leaves.refl _ _
    | split
    | with_reducible apply leaves_raiseArgs
    | with_reducible apply leaves_endCopy
    | with_reducible apply leaves_freeSlot
    | (intro u x hu)
    | with_reducible exact Kept.refl
    | decide
    | (with_reducible apply Leaves.upd)
    | (with_reducible apply Kept.mem)
    | with_reducible exact Boundary.Like.refl _ _
    | with_reducible exact Sensing.Like.refl _ _
    | with_reducible exact Dict.Like.refl _ _
    | with_reducible exact NonVolatile.Like.refl _ _
    | with_reducible exact LifeCycle.Like.refl _ _
    | with_reducible exact Contexts.Like.refl _ _
    | with_reducible exact Steps.Like.refl _ _
    | with_reducible exact Mortar.Like.refl _ _
    | with_reducible exact Upkeep.Like.refl _ _

end Sys2Proof.Machine
end

