-- ==== Sys2Proof/Laws/LeavesEcc.lean ====
section
/-! SUPPORT. What the effects of Machine/Ecc.lean leave as it was. -/

namespace Sys2Proof.Machine

theorem leaves_withRun {W : List Part} {s₀ s : State} (hW : [.run] ⊆ W) (hk : Leaves W s₀ s) (f : StepRun →
    StepRun) : Leaves W s₀ (withRun f s) := by
  refine hk.trans ?_ hW
  unfold withRun
  try dsimp only
  repeat' first
    | with_reducible assumption
    | with_reducible exact Leaves.refl _ _
    | split
    | (intro u x hu)
    | with_reducible exact Kept.refl
    | decide
    | (with_reducible apply Leaves.upd)
    | (with_reducible apply Kept.mem)
    | with_reducible exact Boundary.Like.refl _ _
    | with_reducible exact Sensing.Like.refl _ _
    | with_reducible exact Dict.Like.refl _ _
    | with_reducible exact NonVolatile.Like.refl _ _
    | with_reducible exact LifeCycle.Like.refl _ _
    | with_reducible exact Contexts.Like.refl _ _
    | with_reducible exact Steps.Like.refl _ _
    | with_reducible exact Mortar.Like.refl _ _
    | with_reducible exact Upkeep.Like.refl _ _
    | (with_reducible apply Steps.Like.mk)

theorem leaves_markRow {W : List Part} {s₀ s : State} (hW : [.run] ⊆ W) (hk : Leaves W s₀ s) (i status : Nat) :
    Leaves W s₀ (markRow i status s) := by
  refine hk.trans ?_ hW
  unfold markRow
  try dsimp only
  repeat' first
    | with_reducible assumption
    | with_reducible exact Leaves.refl _ _
    | split
    | with_reducible apply leaves_withRun
    | (intro u x hu)
    | with_reducible exact Kept.refl
    | decide
    | (with_reducible apply Leaves.upd)
    | (with_reducible apply Kept.mem)
    | with_reducible exact Boundary.Like.refl _ _
    | with_reducible exact Sensing.Like.refl _ _
    | with_reducible exact Dict.Like.refl _ _
    | with_reducible exact NonVolatile.Like.refl _ _
    | with_reducible exact LifeCycle.Like.refl _ _
    | with_reducible exact Contexts.Like.refl _ _
    | with_reducible exact Steps.Like.refl _ _
    | with_reducible exact Mortar.Like.refl _ _
    | with_reducible exact Upkeep.Like.refl _ _

theorem leaves_markRows {W : List Part} {s₀ s : State} (hW : [.run] ⊆ W) (hk : Leaves W s₀ s) (is : List Nat)
    (status : Nat) : Leaves W s₀ (markRows is status s) := by
  refine hk.trans ?_ hW
  unfold markRows
  try dsimp only
  repeat' first
    | with_reducible assumption
    | with_reducible exact Leaves.refl _ _
    | split
    | with_reducible apply leaves_markRow
    | (with_reducible apply leaves_foldl)
    | (intro u x hu)
    | with_reducible exact Kept.refl
    | decide
    | (with_reducible apply Leaves.upd)
    | (with_reducible apply Kept.mem)
    | with_reducible exact Boundary.Like.refl _ _
    | with_reducible exact Sensing.Like.refl _ _
    | with_reducible exact Dict.Like.refl _ _
    | with_reducible exact NonVolatile.Like.refl _ _
    | with_reducible exact LifeCycle.Like.refl _ _
    | with_reducible exact Contexts.Like.refl _ _
    | with_reducible exact Steps.Like.refl _ _
    | with_reducible exact Mortar.Like.refl _ _
    | with_reducible exact Upkeep.Like.refl _ _

theorem leaves_refuseMode {W : List Part} {s₀ s : State} (hW : [.events, .applied, .counters, .mode] ⊆ W) (hk :
    Leaves W s₀ s) (reason : Nat) : Leaves W s₀ (refuseMode reason s) := by
  refine hk.trans ?_ hW
  unfold refuseMode
  try dsimp only
  repeat' first
    | with_reducible assumption
    | with_reducible exact Leaves.refl _ _
    | split
    | with_reducible apply leaves_raise
    | (intro u x hu)
    | with_reducible exact Kept.refl
    | decide
    | (with_reducible apply Leaves.upd)
    | (with_reducible apply Kept.mem)
    | with_reducible exact Boundary.Like.refl _ _
    | with_reducible exact Sensing.Like.refl _ _
    | with_reducible exact Dict.Like.refl _ _
    | with_reducible exact NonVolatile.Like.refl _ _
    | with_reducible exact LifeCycle.Like.refl _ _
    | with_reducible exact Contexts.Like.refl _ _
    | with_reducible exact Steps.Like.refl _ _
    | with_reducible exact Mortar.Like.refl _ _
    | with_reducible exact Upkeep.Like.refl _ _
    | (with_reducible apply Dict.Like.mk)
    | (with_reducible apply Upkeep.Like.mk)

theorem leaves_noteHeirloom {W : List Part} {s₀ s : State} (hW : [.events, .applied, .counters, .mode] ⊆ W) (hk :
    Leaves W s₀ s) (old : State) : Leaves W s₀ (noteHeirloom old s) := by
  refine hk.trans ?_ hW
  unfold noteHeirloom
  try dsimp only
  repeat' first
    | with_reducible assumption
    | with_reducible exact Leaves.refl _ _
    | split
    | with_reducible apply leaves_refuseMode
    | (intro u x hu)
    | with_reducible exact Kept.refl
    | decide
    | (with_reducible apply Leaves.upd)
    | (with_reducible apply Kept.mem)
    | with_reducible exact Boundary.Like.refl _ _
    | with_reducible exact Sensing.Like.refl _ _
    | with_reducible exact Dict.Like.refl _ _
    | with_reducible exact NonVolatile.Like.refl _ _
    | with_reducible exact LifeCycle.Like.refl _ _
    | with_reducible exact Contexts.Like.refl _ _
    | with_reducible exact Steps.Like.refl _ _
    | with_reducible exact Mortar.Like.refl _ _
    | with_reducible exact Upkeep.Like.refl _ _
    | (with_reducible apply Upkeep.Like.mk)

theorem leaves_correctedWord {W : List Part} {s₀ s : State} (hW : [.events, .counters, .corrected] ⊆ W) (hk :
    Leaves W s₀ s) (where_ : Nat) (e : EccHit) : Leaves W s₀ (correctedWord where_ e s) := by
  refine hk.trans ?_ hW
  unfold correctedWord
  try dsimp only
  repeat' first
    | with_reducible assumption
    | with_reducible exact Leaves.refl _ _
    | split
    | with_reducible apply leaves_count
    | with_reducible apply leaves_raiseArgs
    | (intro u x hu)
    | with_reducible exact Kept.refl
    | decide
    | (with_reducible apply Leaves.upd)
    | (with_reducible apply Kept.mem)
    | with_reducible exact Boundary.Like.refl _ _
    | with_reducible exact Sensing.Like.refl _ _
    | with_reducible exact Dict.Like.refl _ _
    | with_reducible exact NonVolatile.Like.refl _ _
    | with_reducible exact LifeCycle.Like.refl _ _
    | with_reducible exact Contexts.Like.refl _ _
    | with_reducible exact Steps.Like.refl _ _
    | with_reducible exact Mortar.Like.refl _ _
    | with_reducible exact Upkeep.Like.refl _ _
    | (with_reducible apply Upkeep.Like.mk)

theorem leaves_noteUncorrectable {W : List Part} {s₀ s : State} (hW : [.events, .counters] ⊆ W) (hk : Leaves W s₀
    s) (where_ : Nat) (e : EccHit) : Leaves W s₀ (noteUncorrectable where_ e s) := by
  refine hk.trans ?_ hW
  unfold noteUncorrectable
  try dsimp only
  repeat' first
    | with_reducible assumption
    | with_reducible exact Leaves.refl _ _
    | split
    | with_reducible apply leaves_raiseCount
    | (intro u x hu)
    | with_reducible exact Kept.refl
    | decide
    | (with_reducible apply Leaves.upd)
    | (with_reducible apply Kept.mem)
    | with_reducible exact Boundary.Like.refl _ _
    | with_reducible exact Sensing.Like.refl _ _
    | with_reducible exact Dict.Like.refl _ _
    | with_reducible exact NonVolatile.Like.refl _ _
    | with_reducible exact LifeCycle.Like.refl _ _
    | with_reducible exact Contexts.Like.refl _ _
    | with_reducible exact Steps.Like.refl _ _
    | with_reducible exact Mortar.Like.refl _ _
    | with_reducible exact Upkeep.Like.refl _ _

theorem leaves_failLater {W : List Part} {s₀ s : State} (hW : [.heads] ⊆ W) (hk : Leaves W s₀ s) (i : Nat) : Leaves
    W s₀ (failLater i s) := by
  refine hk.trans ?_ hW
  unfold failLater
  try dsimp only
  repeat' first
    | with_reducible assumption
    | with_reducible exact Leaves.refl _ _
    | split
    | with_reducible apply leaves_setHead
    | (intro u x hu)
    | with_reducible exact Kept.refl
    | decide
    | (with_reducible apply Leaves.upd)
    | (with_reducible apply Kept.mem)
    | with_reducible exact Boundary.Like.refl _ _
    | with_reducible exact Sensing.Like.refl _ _
    | with_reducible exact Dict.Like.refl _ _
    | with_reducible exact NonVolatile.Like.refl _ _
    | with_reducible exact LifeCycle.Like.refl _ _
    | with_reducible exact Contexts.Like.refl _ _
    | with_reducible exact Steps.Like.refl _ _
    | with_reducible exact Mortar.Like.refl _ _
    | with_reducible exact Upkeep.Like.refl _ _

theorem leaves_failNow {W : List Part} {s₀ s : State} (hW : [.heads] ⊆ W) (hk : Leaves W s₀ s) (i : Nat) : Leaves W
    s₀ (failNow i s) := by
  refine hk.trans ?_ hW
  unfold failNow
  try dsimp only
  repeat' first
    | with_reducible assumption
    | with_reducible exact Leaves.refl _ _
    | split
    | with_reducible apply leaves_clearSlot
    | (intro u x hu)
    | with_reducible exact Kept.refl
    | decide
    | (with_reducible apply Leaves.upd)
    | (with_reducible apply Kept.mem)
    | with_reducible exact Boundary.Like.refl _ _
    | with_reducible exact Sensing.Like.refl _ _
    | with_reducible exact Dict.Like.refl _ _
    | with_reducible exact NonVolatile.Like.refl _ _
    | with_reducible exact LifeCycle.Like.refl _ _
    | with_reducible exact Contexts.Like.refl _ _
    | with_reducible exact Steps.Like.refl _ _
    | with_reducible exact Mortar.Like.refl _ _
    | with_reducible exact Upkeep.Like.refl _ _

theorem leaves_loseSlot {W : List Part} {s₀ s : State} (hW : [.events, .counters, .slots, .pages, .batches, .run,
    .snapshot, .mem, .fresh] ⊆ W) (hk : Leaves W s₀ s) (slot : Nat) : Leaves W s₀ (loseSlot slot s) := by
  refine hk.trans ?_ hW
  unfold loseSlot
  try dsimp only
  repeat' first
    | with_reducible assumption
    | with_reducible exact Leaves.refl _ _
    | split
    | with_reducible apply leaves_markRows
    | with_reducible apply leaves_raiseArgs
    | with_reducible apply leaves_freeContext
    | with_reducible apply leaves_freeSlot
    | (intro u x hu)
    | with_reducible exact Kept.refl
    | decide
    | (with_reducible apply Leaves.upd)
    | (with_reducible apply Kept.mem)
    | with_reducible exact Boundary.Like.refl _ _
    | with_reducible exact Sensing.Like.refl _ _
    | with_reducible exact Dict.Like.refl _ _
    | with_reducible exact NonVolatile.Like.refl _ _
    | with_reducible exact LifeCycle.Like.refl _ _
    | with_reducible exact Contexts.Like.refl _ _
    | with_reducible exact Steps.Like.refl _ _
    | with_reducible exact Mortar.Like.refl _ _
    | with_reducible exact Upkeep.Like.refl _ _

theorem leaves_reloadMicro {W : List Part} {s₀ s : State} (hW : [.events, .applied, .counters, .fseq, .peers,
    .late, .mode, .out] ⊆ W) (hk : Leaves W s₀ s) : Leaves W s₀ (reloadMicro s) := by
  refine hk.trans ?_ hW
  unfold reloadMicro
  try dsimp only
  repeat' first
    | with_reducible assumption
    | with_reducible exact Leaves.refl _ _
    | split
    | with_reducible apply leaves_announceCaps
    | with_reducible apply leaves_noteHeirloom
    | (intro u x hu)
    | with_reducible exact Kept.refl
    | decide
    | (with_reducible apply Leaves.upd)
    | (with_reducible apply Kept.mem)
    | with_reducible exact Boundary.Like.refl _ _
    | with_reducible exact Sensing.Like.refl _ _
    | with_reducible exact Dict.Like.refl _ _
    | with_reducible exact NonVolatile.Like.refl _ _
    | with_reducible exact LifeCycle.Like.refl _ _
    | with_reducible exact Contexts.Like.refl _ _
    | with_reducible exact Steps.Like.refl _ _
    | with_reducible exact Mortar.Like.refl _ _
    | with_reducible exact Upkeep.Like.refl _ _

theorem leaves_dropLine {W : List Part} {s₀ s : State} (hW : [.cache] ⊆ W) (hk : Leaves W s₀ s) (word : Nat) :
    Leaves W s₀ (dropLine word s) := by
  refine hk.trans ?_ hW
  unfold dropLine
  try dsimp only
  repeat' first
    | with_reducible assumption
    | with_reducible exact Leaves.refl _ _
    | split
    | (intro u x hu)
    | with_reducible exact Kept.refl
    | decide
    | (with_reducible apply Leaves.upd)
    | (with_reducible apply Kept.mem)
    | with_reducible exact Boundary.Like.refl _ _
    | with_reducible exact Sensing.Like.refl _ _
    | with_reducible exact Dict.Like.refl _ _
    | with_reducible exact NonVolatile.Like.refl _ _
    | with_reducible exact LifeCycle.Like.refl _ _
    | with_reducible exact Contexts.Like.refl _ _
    | with_reducible exact Steps.Like.refl _ _
    | with_reducible exact Mortar.Like.refl _ _
    | with_reducible exact Upkeep.Like.refl _ _
    | (with_reducible apply Contexts.Like.mk)

theorem leaves_uncorrectableWork {W : List Part} {s₀ s : State} (hW : [.events, .counters, .settings, .heads,
    .fseq, .slots, .pages, .batches, .cache, .run, .snapshot, .mem, .fresh] ⊆ W) (hk : Leaves W s₀ s) (e : EccHit)
    (rows group : List Nat) : Leaves W s₀ (uncorrectableWork e rows group s) := by
  refine hk.trans ?_ hW
  unfold uncorrectableWork
  try dsimp only
  repeat' first
    | with_reducible assumption
    | with_reducible exact Leaves.refl _ _
    | split
    | with_reducible apply leaves_noteUncorrectable
    | with_reducible apply leaves_failLater
    | with_reducible apply leaves_markRows
    | with_reducible apply leaves_loseSlot
    | with_reducible apply leaves_dropLine
    | (intro u x hu)
    | with_reducible exact Kept.refl
    | decide
    | (with_reducible apply Leaves.upd)
    | (with_reducible apply Kept.mem)
    | with_reducible exact Boundary.Like.refl _ _
    | with_reducible exact Sensing.Like.refl _ _
    | with_reducible exact Dict.Like.refl _ _
    | with_reducible exact NonVolatile.Like.refl _ _
    | with_reducible exact LifeCycle.Like.refl _ _
    | with_reducible exact Contexts.Like.refl _ _
    | with_reducible exact Steps.Like.refl _ _
    | with_reducible exact Mortar.Like.refl _ _
    | with_reducible exact Upkeep.Like.refl _ _
    | (with_reducible apply NonVolatile.Like.mk)

theorem leaves_uncorrectableScrub {W : List Part} {s₀ s : State} (hW : [.events, .applied, .counters, .settings,
    .heads, .fseq, .slots, .pages, .batches, .cache, .run, .peers, .late, .snapshot, .tests, .mode, .mem, .out,
    .fresh] ⊆ W) (hk : Leaves W s₀ s) (e : EccHit) : Leaves W s₀ (uncorrectableScrub e s) := by
  refine hk.trans ?_ hW
  unfold uncorrectableScrub
  try dsimp only
  repeat' first
    | with_reducible assumption
    | with_reducible exact Leaves.refl _ _
    | split
    | with_reducible apply leaves_noteUncorrectable
    | with_reducible apply leaves_failLater
    | with_reducible apply leaves_beginMarch
    | with_reducible apply leaves_failNow
    | with_reducible apply leaves_loseSlot
    | with_reducible apply leaves_dropLine
    | with_reducible apply leaves_reloadMicro
    | (intro u x hu)
    | with_reducible exact Kept.refl
    | decide
    | (with_reducible apply Leaves.upd)
    | (with_reducible apply Kept.mem)
    | with_reducible exact Boundary.Like.refl _ _
    | with_reducible exact Sensing.Like.refl _ _
    | with_reducible exact Dict.Like.refl _ _
    | with_reducible exact NonVolatile.Like.refl _ _
    | with_reducible exact LifeCycle.Like.refl _ _
    | with_reducible exact Contexts.Like.refl _ _
    | with_reducible exact Steps.Like.refl _ _
    | with_reducible exact Mortar.Like.refl _ _
    | with_reducible exact Upkeep.Like.refl _ _
    | (with_reducible apply NonVolatile.Like.mk)

theorem leaves_workHits {W : List Part} {s₀ s : State} (hW : [.events, .counters, .settings, .heads, .fseq, .slots,
    .pages, .batches, .cache, .run, .snapshot, .corrected, .mem, .fresh] ⊆ W) (hk : Leaves W s₀ s) (start n : Nat)
    (es : List EccHit) : Leaves W s₀ (workHits start n es s) := by
  refine hk.trans ?_ hW
  unfold workHits
  try dsimp only
  repeat' first
    | with_reducible assumption
    | with_reducible exact Leaves.refl _ _
    | split
    | with_reducible apply leaves_uncorrectableWork
    | with_reducible apply leaves_correctedWord
    | (with_reducible apply leaves_foldl)
    | (intro u x hu)
    | with_reducible exact Kept.refl
    | decide
    | (with_reducible apply Leaves.upd)
    | (with_reducible apply Kept.mem)
    | with_reducible exact Boundary.Like.refl _ _
    | with_reducible exact Sensing.Like.refl _ _
    | with_reducible exact Dict.Like.refl _ _
    | with_reducible exact NonVolatile.Like.refl _ _
    | with_reducible exact LifeCycle.Like.refl _ _
    | with_reducible exact Contexts.Like.refl _ _
    | with_reducible exact Steps.Like.refl _ _
    | with_reducible exact Mortar.Like.refl _ _
    | with_reducible exact Upkeep.Like.refl _ _

theorem leaves_groupHits {W : List Part} {s₀ s : State} (hW : [.events, .counters, .settings, .heads, .fseq,
    .slots, .pages, .batches, .cache, .run, .snapshot, .corrected, .mem, .fresh] ⊆ W) (hk : Leaves W s₀ s) (g :
    Nat) (es : List EccHit) : Leaves W s₀ (groupHits g es s) := by
  refine hk.trans ?_ hW
  unfold groupHits
  try dsimp only
  repeat' first
    | with_reducible assumption
    | with_reducible exact Leaves.refl _ _
    | split
    | with_reducible apply leaves_workHits
    | (intro u x hu)
    | with_reducible exact Kept.refl
    | decide
    | (with_reducible apply Leaves.upd)
    | (with_reducible apply Kept.mem)
    | with_reducible exact Boundary.Like.refl _ _
    | with_reducible exact Sensing.Like.refl _ _
    | with_reducible exact Dict.Like.refl _ _
    | with_reducible exact NonVolatile.Like.refl _ _
    | with_reducible exact LifeCycle.Like.refl _ _
    | with_reducible exact Contexts.Like.refl _ _
    | with_reducible exact Steps.Like.refl _ _
    | with_reducible exact Mortar.Like.refl _ _
    | with_reducible exact Upkeep.Like.refl _ _

theorem leaves_contextHit {W : List Part} {s₀ s : State} (hW : [.events, .counters, .slots, .pages, .batches,
    .cache, .run, .snapshot, .corrected, .mem, .fresh] ⊆ W) (hk : Leaves W s₀ s) (e : EccHit) : Leaves W s₀
    (contextHit e s) := by
  refine hk.trans ?_ hW
  unfold contextHit
  try dsimp only
  repeat' first
    | with_reducible assumption
    | with_reducible exact Leaves.refl _ _
    | split
    | with_reducible apply leaves_correctedWord
    | with_reducible apply leaves_noteUncorrectable
    | with_reducible apply leaves_loseSlot
    | with_reducible apply leaves_dropLine
    | (intro u x hu)
    | with_reducible exact Kept.refl
    | decide
    | (with_reducible apply Leaves.upd)
    | (with_reducible apply Kept.mem)
    | with_reducible exact Boundary.Like.refl _ _
    | with_reducible exact Sensing.Like.refl _ _
    | with_reducible exact Dict.Like.refl _ _
    | with_reducible exact NonVolatile.Like.refl _ _
    | with_reducible exact LifeCycle.Like.refl _ _
    | with_reducible exact Contexts.Like.refl _ _
    | with_reducible exact Steps.Like.refl _ _
    | with_reducible exact Mortar.Like.refl _ _
    | with_reducible exact Upkeep.Like.refl _ _

theorem leaves_readHits {W : List Part} {s₀ s : State} (hW : [.events, .counters, .slots, .pages, .batches, .cache,
    .run, .snapshot, .corrected, .mem, .fresh] ⊆ W) (hk : Leaves W s₀ s) (es : List EccHit) : Leaves W s₀ (readHits
    es s) := by
  refine hk.trans ?_ hW
  unfold readHits
  try dsimp only
  repeat' first
    | with_reducible assumption
    | with_reducible exact Leaves.refl _ _
    | split
    | with_reducible apply leaves_contextHit
    | (with_reducible apply leaves_foldl)
    | (intro u x hu)
    | with_reducible exact Kept.refl
    | decide
    | (with_reducible apply Leaves.upd)
    | (with_reducible apply Kept.mem)
    | with_reducible exact Boundary.Like.refl _ _
    | with_reducible exact Sensing.Like.refl _ _
    | with_reducible exact Dict.Like.refl _ _
    | with_reducible exact NonVolatile.Like.refl _ _
    | with_reducible exact LifeCycle.Like.refl _ _
    | with_reducible exact Contexts.Like.refl _ _
    | with_reducible exact Steps.Like.refl _ _
    | with_reducible exact Mortar.Like.refl _ _
    | with_reducible exact Upkeep.Like.refl _ _

theorem leaves_readRecord {W : List Part} {s₀ s : State}
    (hW : [.events, .counters, .slots, .pages, .batches, .cache, .run, .snapshot, .corrected, .mem, .fresh] ⊆ W)
    (hk : Leaves W s₀ s) (t : Nat) (body : Nat → Nat → CtxRecord → State → State) (ecc : List EccHit)
    (hb : ∀ u addr r, Leaves W u (body t addr r u)) : Leaves W s₀ (readRecord t body ecc s) :=
  leaves_runRecord (List.Subset.trans (by decide) hW) (leaves_readHits (List.Subset.trans (by decide) hW) hk ecc) t body hb

end Sys2Proof.Machine
end

