-- ==== Sys2Proof/Laws/LeavesFinals.lean ====
section
/-! SUPPORT. What the effects of Machine/Finals.lean leave as it was. -/

namespace Sys2Proof.Machine

theorem leaves_countEnd {W : List Part} {s₀ s : State} (hW : [.counters] ⊆ W) (hk : Leaves W s₀ s) (v : View) (cs
    cs2 : List Claim) (x : Nat × RowRun) (f : RowFinal) : Leaves W s₀ (countEnd v cs cs2 x f s) := by
  refine hk.trans ?_ hW
  unfold countEnd
  try dsimp only
  repeat' first
    | with_reducible assumption
    | with_reducible exact Leaves.refl _ _
    | split
    | with_reducible apply leaves_count
    | (intro u x hu)
    | with_reducible exact Kept.refl
    | decide
    | (with_reducible apply Leaves.upd)
    | (with_reducible apply Kept.mem)
    | with_reducible exact Boundary.Like.refl _ _
    | with_reducible exact Sensing.Like.refl _ _
    | with_reducible exact Dict.Like.refl _ _
    | with_reducible exact NonVolatile.Like.refl _ _
    | with_reducible exact LifeCycle.Like.refl _ _
    | with_reducible exact Contexts.Like.refl _ _
    | with_reducible exact Steps.Like.refl _ _
    | with_reducible exact Mortar.Like.refl _ _
    | with_reducible exact Upkeep.Like.refl _ _

theorem leaves_writeBloom {W : List Part} {s₀ s : State} (hW : [.counters, .mem] ⊆ W) (hk : Leaves W s₀ s) (h :
    StepHead) (f : RowFinal) : Leaves W s₀ (writeBloom h f s) := by
  refine hk.trans ?_ hW
  unfold writeBloom
  try dsimp only
  repeat' first
    | with_reducible assumption
    | with_reducible exact Leaves.refl _ _
    | split
    | with_reducible apply leaves_count
    | with_reducible apply leaves_writeBytes
    | (intro u x hu)
    | with_reducible exact Kept.refl
    | decide
    | (with_reducible apply Leaves.upd)
    | (with_reducible apply Kept.mem)
    | with_reducible exact Boundary.Like.refl _ _
    | with_reducible exact Sensing.Like.refl _ _
    | with_reducible exact Dict.Like.refl _ _
    | with_reducible exact NonVolatile.Like.refl _ _
    | with_reducible exact LifeCycle.Like.refl _ _
    | with_reducible exact Contexts.Like.refl _ _
    | with_reducible exact Steps.Like.refl _ _
    | with_reducible exact Mortar.Like.refl _ _
    | with_reducible exact Upkeep.Like.refl _ _

theorem leaves_finishGroup {W : List Part} {s₀ s : State} (hW : [.counters, .run, .mem] ⊆ W) (hk : Leaves W s₀ s)
    (v : View) (cs cs2 : List Claim) : Leaves W s₀ (finishGroup v cs cs2 s) := by
  refine hk.trans ?_ hW
  unfold finishGroup
  try dsimp only
  repeat' first
    | with_reducible assumption
    | with_reducible exact Leaves.refl _ _
    | split
    | with_reducible apply leaves_countEnd
    | with_reducible apply leaves_writeBloom
    | with_reducible apply leaves_count
    | with_reducible apply leaves_withGroup
    | with_reducible apply leaves_withRun
    | (with_reducible apply leaves_foldl)
    | (intro u x hu)
    | with_reducible exact Kept.refl
    | decide
    | (with_reducible apply Leaves.upd)
    | (with_reducible apply Kept.mem)
    | with_reducible exact Boundary.Like.refl _ _
    | with_reducible exact Sensing.Like.refl _ _
    | with_reducible exact Dict.Like.refl _ _
    | with_reducible exact NonVolatile.Like.refl _ _
    | with_reducible exact LifeCycle.Like.refl _ _
    | with_reducible exact Contexts.Like.refl _ _
    | with_reducible exact Steps.Like.refl _ _
    | with_reducible exact Mortar.Like.refl _ _
    | with_reducible exact Upkeep.Like.refl _ _

end Sys2Proof.Machine
end

