-- ==== Sys2Proof/Laws/LeavesLearning.lean ====
section
/-! SUPPORT. What the effects of Machine/Learning.lean leave as it was. -/

namespace Sys2Proof.Machine

theorem leaves_writeGradients {W : List Part} {s₀ s : State} (hW : [.counters, .mem] ⊆ W) (hk : Leaves W s₀ s) (v :
    View) (x : Nat × RowRun) (ok : Bool) (b : Nat) : Leaves W s₀ (writeGradients v x ok b s) := by
  refine hk.trans ?_ hW
  unfold writeGradients
  try dsimp only
  repeat' first
    | with_reducible assumption
    | with_reducible exact Leaves.refl _ _
    | split
    | with_reducible apply leaves_count
    | with_reducible apply leaves_writeBytes
    | (intro u x hu)
    | with_reducible exact Kept.refl
    | decide
    | (with_reducible apply Leaves.upd)
    | (with_reducible apply Kept.mem)
    | with_reducible exact Boundary.Like.refl _ _
    | with_reducible exact Sensing.Like.refl _ _
    | with_reducible exact Dict.Like.refl _ _
    | with_reducible exact NonVolatile.Like.refl _ _
    | with_reducible exact LifeCycle.Like.refl _ _
    | with_reducible exact Contexts.Like.refl _ _
    | with_reducible exact Steps.Like.refl _ _
    | with_reducible exact Mortar.Like.refl _ _
    | with_reducible exact Upkeep.Like.refl _ _

theorem leaves_writeOperand {W : List Part} {s₀ s : State} (hW : [.mem] ⊆ W) (hk : Leaves W s₀ s) (v : View) (x :
    Nat × RowRun) : Leaves W s₀ (writeOperand v x s) := by
  refine hk.trans ?_ hW
  unfold writeOperand
  try dsimp only
  repeat' first
    | with_reducible assumption
    | with_reducible exact Leaves.refl _ _
    | split
    | with_reducible apply leaves_writeBytes
    | (intro u x hu)
    | with_reducible exact Kept.refl
    | decide
    | (with_reducible apply Leaves.upd)
    | (with_reducible apply Kept.mem)
    | with_reducible exact Boundary.Like.refl _ _
    | with_reducible exact Sensing.Like.refl _ _
    | with_reducible exact Dict.Like.refl _ _
    | with_reducible exact NonVolatile.Like.refl _ _
    | with_reducible exact LifeCycle.Like.refl _ _
    | with_reducible exact Contexts.Like.refl _ _
    | with_reducible exact Steps.Like.refl _ _
    | with_reducible exact Mortar.Like.refl _ _
    | with_reducible exact Upkeep.Like.refl _ _

theorem leaves_runSecondPass {W : List Part} {s₀ s : State} (hW : [.counters, .run, .mem] ⊆ W) (hk : Leaves W s₀ s)
    (v : View) : Leaves W s₀ (runSecondPass v s) := by
  refine hk.trans ?_ hW
  unfold runSecondPass
  try dsimp only
  repeat' first
    | with_reducible assumption
    | with_reducible exact Leaves.refl _ _
    | split
    | with_reducible apply leaves_writeGradients
    | with_reducible apply leaves_writeOperand
    | with_reducible apply leaves_withGroup
    | (with_reducible apply leaves_foldl)
    | (intro u x hu)
    | with_reducible exact Kept.refl
    | decide
    | (with_reducible apply Leaves.upd)
    | (with_reducible apply Kept.mem)
    | with_reducible exact Boundary.Like.refl _ _
    | with_reducible exact Sensing.Like.refl _ _
    | with_reducible exact Dict.Like.refl _ _
    | with_reducible exact NonVolatile.Like.refl _ _
    | with_reducible exact LifeCycle.Like.refl _ _
    | with_reducible exact Contexts.Like.refl _ _
    | with_reducible exact Steps.Like.refl _ _
    | with_reducible exact Mortar.Like.refl _ _
    | with_reducible exact Upkeep.Like.refl _ _

end Sys2Proof.Machine
end

