-- ==== Sys2Proof/Laws/LeavesPump.lean ====
section
/-! SUPPORT. What the effects of Machine/Pump.lean leave as it was. -/

namespace Sys2Proof.Machine

theorem leaves_noteFault {W : List Part} {s₀ s : State} (hW : [.events, .counters, .run] ⊆ W) (hk : Leaves W s₀ s)
    (g pos : Nat) : Leaves W s₀ (noteFault g pos s) := by
  refine hk.trans ?_ hW
  unfold noteFault
  try dsimp only
  repeat' first
    | with_reducible assumption
    | with_reducible exact Leaves.refl _ _
    | split
    | with_reducible apply leaves_raiseCount
    | with_reducible apply leaves_withGroup
    | (intro u x hu)
    | with_reducible exact Kept.refl
    | decide
    | (with_reducible apply Leaves.upd)
    | (with_reducible apply Kept.mem)
    | with_reducible exact Boundary.Like.refl _ _
    | with_reducible exact Sensing.Like.refl _ _
    | with_reducible exact Dict.Like.refl _ _
    | with_reducible exact NonVolatile.Like.refl _ _
    | with_reducible exact LifeCycle.Like.refl _ _
    | with_reducible exact Contexts.Like.refl _ _
    | with_reducible exact Steps.Like.refl _ _
    | with_reducible exact Mortar.Like.refl _ _
    | with_reducible exact Upkeep.Like.refl _ _

theorem leaves_noteCompared {W : List Part} {s₀ s : State} (hW : [.events, .counters, .run] ⊆ W) (hk : Leaves W s₀
    s) (g : Nat) (c : Compared) : Leaves W s₀ (noteCompared g c s) := by
  refine hk.trans ?_ hW
  unfold noteCompared
  try dsimp only
  repeat' first
    | with_reducible assumption
    | with_reducible exact Leaves.refl _ _
    | split
    | with_reducible apply leaves_noteFault
    | with_reducible apply leaves_count
    | (with_reducible apply leaves_foldl)
    | (intro u x hu)
    | with_reducible exact Kept.refl
    | decide
    | (with_reducible apply Leaves.upd)
    | (with_reducible apply Kept.mem)
    | with_reducible exact Boundary.Like.refl _ _
    | with_reducible exact Sensing.Like.refl _ _
    | with_reducible exact Dict.Like.refl _ _
    | with_reducible exact NonVolatile.Like.refl _ _
    | with_reducible exact LifeCycle.Like.refl _ _
    | with_reducible exact Contexts.Like.refl _ _
    | with_reducible exact Steps.Like.refl _ _
    | with_reducible exact Mortar.Like.refl _ _
    | with_reducible exact Upkeep.Like.refl _ _

theorem leaves_mark {W : List Part} {s₀ s : State} (hW : [.run] ⊆ W) (hk : Leaves W s₀ s) (g target : Nat) (m :
    Mark) : Leaves W s₀ (mark g target m s) := by
  refine hk.trans ?_ hW
  unfold mark
  try dsimp only
  repeat' first
    | with_reducible assumption
    | with_reducible exact Leaves.refl _ _
    | split
    | with_reducible apply leaves_withGroup
    | (intro u x hu)
    | with_reducible exact Kept.refl
    | decide
    | (with_reducible apply Leaves.upd)
    | (with_reducible apply Kept.mem)
    | with_reducible exact Boundary.Like.refl _ _
    | with_reducible exact Sensing.Like.refl _ _
    | with_reducible exact Dict.Like.refl _ _
    | with_reducible exact NonVolatile.Like.refl _ _
    | with_reducible exact LifeCycle.Like.refl _ _
    | with_reducible exact Contexts.Like.refl _ _
    | with_reducible exact Steps.Like.refl _ _
    | with_reducible exact Mortar.Like.refl _ _
    | with_reducible exact Upkeep.Like.refl _ _

theorem leaves_compareCopies {W : List Part} {s₀ s : State} (hW : [.events, .counters, .run] ⊆ W) (hk : Leaves W s₀
    s) (g : Nat) : Leaves W s₀ (compareCopies g s) := by
  refine hk.trans ?_ hW
  unfold compareCopies
  try dsimp only
  repeat' first
    | with_reducible assumption
    | with_reducible exact Leaves.refl _ _
    | split
    | with_reducible apply leaves_noteCompared
    | with_reducible apply leaves_mark
    | (with_reducible apply leaves_foldl)
    | (intro u x hu)
    | with_reducible exact Kept.refl
    | decide
    | (with_reducible apply Leaves.upd)
    | (with_reducible apply Kept.mem)
    | with_reducible exact Boundary.Like.refl _ _
    | with_reducible exact Sensing.Like.refl _ _
    | with_reducible exact Dict.Like.refl _ _
    | with_reducible exact NonVolatile.Like.refl _ _
    | with_reducible exact LifeCycle.Like.refl _ _
    | with_reducible exact Contexts.Like.refl _ _
    | with_reducible exact Steps.Like.refl _ _
    | with_reducible exact Mortar.Like.refl _ _
    | with_reducible exact Upkeep.Like.refl _ _

theorem leaves_compareLists {W : List Part} {s₀ s : State} (hW : [.events, .counters, .run] ⊆ W) (hk : Leaves W s₀
    s) (g : Nat) : Leaves W s₀ (compareLists g s) := by
  refine hk.trans ?_ hW
  unfold compareLists
  try dsimp only
  repeat' first
    | with_reducible assumption
    | with_reducible exact Leaves.refl _ _
    | split
    | with_reducible apply leaves_noteOdd
    | with_reducible apply leaves_noteCompared
    | with_reducible apply leaves_mark
    | (with_reducible apply leaves_foldl)
    | (intro u x hu)
    | with_reducible exact Kept.refl
    | decide
    | (with_reducible apply Leaves.upd)
    | (with_reducible apply Kept.mem)
    | with_reducible exact Boundary.Like.refl _ _
    | with_reducible exact Sensing.Like.refl _ _
    | with_reducible exact Dict.Like.refl _ _
    | with_reducible exact NonVolatile.Like.refl _ _
    | with_reducible exact LifeCycle.Like.refl _ _
    | with_reducible exact Contexts.Like.refl _ _
    | with_reducible exact Steps.Like.refl _ _
    | with_reducible exact Mortar.Like.refl _ _
    | with_reducible exact Upkeep.Like.refl _ _

theorem leaves_compareClaims {W : List Part} {s₀ s : State} (hW : [.events, .counters, .run] ⊆ W) (hk : Leaves W s₀
    s) (g n : Nat) : Leaves W s₀ (compareClaims g n s) := by
  refine hk.trans ?_ hW
  unfold compareClaims
  try dsimp only
  repeat' first
    | with_reducible assumption
    | with_reducible exact Leaves.refl _ _
    | split
    | with_reducible apply leaves_noteCompared
    | with_reducible apply leaves_mark
    | (intro u x hu)
    | with_reducible exact Kept.refl
    | decide
    | (with_reducible apply Leaves.upd)
    | (with_reducible apply Kept.mem)
    | with_reducible exact Boundary.Like.refl _ _
    | with_reducible exact Sensing.Like.refl _ _
    | with_reducible exact Dict.Like.refl _ _
    | with_reducible exact NonVolatile.Like.refl _ _
    | with_reducible exact LifeCycle.Like.refl _ _
    | with_reducible exact Contexts.Like.refl _ _
    | with_reducible exact Steps.Like.refl _ _
    | with_reducible exact Mortar.Like.refl _ _
    | with_reducible exact Upkeep.Like.refl _ _

theorem leaves_holdWalks {W : List Part} {s₀ s : State} (hW : [.run, .lastStep, .mem] ⊆ W) (hk : Leaves W s₀ s) (g
    : Nat) : Leaves W s₀ (holdWalks g s) := by
  refine hk.trans ?_ hW
  unfold holdWalks
  try dsimp only
  repeat' first
    | with_reducible assumption
    | with_reducible exact Leaves.refl _ _
    | split
    | with_reducible apply leaves_placeWalk
    | with_reducible apply leaves_mark
    | (with_reducible apply leaves_foldl)
    | (intro u x hu)
    | with_reducible exact Kept.refl
    | decide
    | (with_reducible apply Leaves.upd)
    | (with_reducible apply Kept.mem)
    | with_reducible exact Boundary.Like.refl _ _
    | with_reducible exact Sensing.Like.refl _ _
    | with_reducible exact Dict.Like.refl _ _
    | with_reducible exact NonVolatile.Like.refl _ _
    | with_reducible exact LifeCycle.Like.refl _ _
    | with_reducible exact Contexts.Like.refl _ _
    | with_reducible exact Steps.Like.refl _ _
    | with_reducible exact Mortar.Like.refl _ _
    | with_reducible exact Upkeep.Like.refl _ _

theorem leaves_noteEnd {W : List Part} {s₀ s : State} (hW : [.run] ⊆ W) (hk : Leaves W s₀ s) : Leaves W s₀ (noteEnd
    s) := by
  refine hk.trans ?_ hW
  unfold noteEnd
  try dsimp only
  repeat' first
    | with_reducible assumption
    | with_reducible exact Leaves.refl _ _
    | split
    | with_reducible apply leaves_withRun
    | (intro u x hu)
    | with_reducible exact Kept.refl
    | decide
    | (with_reducible apply Leaves.upd)
    | (with_reducible apply Kept.mem)
    | with_reducible exact Boundary.Like.refl _ _
    | with_reducible exact Sensing.Like.refl _ _
    | with_reducible exact Dict.Like.refl _ _
    | with_reducible exact NonVolatile.Like.refl _ _
    | with_reducible exact LifeCycle.Like.refl _ _
    | with_reducible exact Contexts.Like.refl _ _
    | with_reducible exact Steps.Like.refl _ _
    | with_reducible exact Mortar.Like.refl _ _
    | with_reducible exact Upkeep.Like.refl _ _

theorem leaves_sendGroup {W : List Part} {s₀ s : State} (hW : [.counters, .run, .peers, .late, .out] ⊆ W) (hk :
    Leaves W s₀ s) (g : Nat) : Leaves W s₀ (sendGroup g s) := by
  refine hk.trans ?_ hW
  unfold sendGroup
  try dsimp only
  repeat' first
    | with_reducible assumption
    | with_reducible exact Leaves.refl _ _
    | split
    | with_reducible apply leaves_noteEnd
    | with_reducible apply leaves_sendMsg
    | with_reducible apply leaves_mark
    | (with_reducible apply leaves_foldl)
    | (intro u x hu)
    | with_reducible exact Kept.refl
    | decide
    | (with_reducible apply Leaves.upd)
    | (with_reducible apply Kept.mem)
    | with_reducible exact Boundary.Like.refl _ _
    | with_reducible exact Sensing.Like.refl _ _
    | with_reducible exact Dict.Like.refl _ _
    | with_reducible exact NonVolatile.Like.refl _ _
    | with_reducible exact LifeCycle.Like.refl _ _
    | with_reducible exact Contexts.Like.refl _ _
    | with_reducible exact Steps.Like.refl _ _
    | with_reducible exact Mortar.Like.refl _ _
    | with_reducible exact Upkeep.Like.refl _ _

theorem leaves_keepFinals {W : List Part} {s₀ s : State} (hW : [.run] ⊆ W) (hk : Leaves W s₀ s) (g : Nat) : Leaves
    W s₀ (keepFinals g s) := by
  refine hk.trans ?_ hW
  unfold keepFinals
  try dsimp only
  repeat' first
    | with_reducible assumption
    | with_reducible exact Leaves.refl _ _
    | split
    | with_reducible apply leaves_withGroup
    | (intro u x hu)
    | with_reducible exact Kept.refl
    | decide
    | (with_reducible apply Leaves.upd)
    | (with_reducible apply Kept.mem)
    | with_reducible exact Boundary.Like.refl _ _
    | with_reducible exact Sensing.Like.refl _ _
    | with_reducible exact Dict.Like.refl _ _
    | with_reducible exact NonVolatile.Like.refl _ _
    | with_reducible exact LifeCycle.Like.refl _ _
    | with_reducible exact Contexts.Like.refl _ _
    | with_reducible exact Steps.Like.refl _ _
    | with_reducible exact Mortar.Like.refl _ _
    | with_reducible exact Upkeep.Like.refl _ _

theorem leaves_endGroup {W : List Part} {s₀ s : State} (hW : [.counters, .run, .mem] ⊆ W) (hk : Leaves W s₀ s) (g :
    Nat) : Leaves W s₀ (endGroup g s) := by
  refine hk.trans ?_ hW
  unfold endGroup
  try dsimp only
  repeat' first
    | with_reducible assumption
    | with_reducible exact Leaves.refl _ _
    | split
    | with_reducible apply leaves_finishGroup
    | with_reducible apply leaves_withGroup
    | (intro u x hu)
    | with_reducible exact Kept.refl
    | decide
    | (with_reducible apply Leaves.upd)
    | (with_reducible apply Kept.mem)
    | with_reducible exact Boundary.Like.refl _ _
    | with_reducible exact Sensing.Like.refl _ _
    | with_reducible exact Dict.Like.refl _ _
    | with_reducible exact NonVolatile.Like.refl _ _
    | with_reducible exact LifeCycle.Like.refl _ _
    | with_reducible exact Contexts.Like.refl _ _
    | with_reducible exact Steps.Like.refl _ _
    | with_reducible exact Mortar.Like.refl _ _
    | with_reducible exact Upkeep.Like.refl _ _

theorem leaves_endStepWork {W : List Part} {s₀ s : State} (hW : [.run, .mem] ⊆ W) (hk : Leaves W s₀ s) : Leaves W
    s₀ (endStepWork s) := by
  refine hk.trans ?_ hW
  unfold endStepWork
  try dsimp only
  repeat' first
    | with_reducible assumption
    | with_reducible exact Leaves.refl _ _
    | split
    | with_reducible apply leaves_withRun
    | with_reducible apply leaves_writeBytes
    | (intro u x hu)
    | with_reducible exact Kept.refl
    | decide
    | (with_reducible apply Leaves.upd)
    | (with_reducible apply Kept.mem)
    | with_reducible exact Boundary.Like.refl _ _
    | with_reducible exact Sensing.Like.refl _ _
    | with_reducible exact Dict.Like.refl _ _
    | with_reducible exact NonVolatile.Like.refl _ _
    | with_reducible exact LifeCycle.Like.refl _ _
    | with_reducible exact Contexts.Like.refl _ _
    | with_reducible exact Steps.Like.refl _ _
    | with_reducible exact Mortar.Like.refl _ _
    | with_reducible exact Upkeep.Like.refl _ _

theorem leaves_exchangeGroup {W : List Part} {s₀ s : State} (hW : [.events, .counters, .run, .lastStep, .peers,
    .late, .mem, .out] ⊆ W) (hk : Leaves W s₀ s) (g : Nat) : Leaves W s₀ (exchangeGroup g s) := by
  refine hk.trans ?_ hW
  unfold exchangeGroup
  try dsimp only
  repeat' first
    | with_reducible assumption
    | with_reducible exact Leaves.refl _ _
    | split
    | with_reducible apply leaves_sendGroup
    | with_reducible apply leaves_keepFinals
    | with_reducible apply leaves_compareClaims
    | with_reducible apply leaves_holdWalks
    | with_reducible apply leaves_compareLists
    | with_reducible apply leaves_compareCopies
    | (intro u x hu)
    | with_reducible exact Kept.refl
    | decide
    | (with_reducible apply Leaves.upd)
    | (with_reducible apply Kept.mem)
    | with_reducible exact Boundary.Like.refl _ _
    | with_reducible exact Sensing.Like.refl _ _
    | with_reducible exact Dict.Like.refl _ _
    | with_reducible exact NonVolatile.Like.refl _ _
    | with_reducible exact LifeCycle.Like.refl _ _
    | with_reducible exact Contexts.Like.refl _ _
    | with_reducible exact Steps.Like.refl _ _
    | with_reducible exact Mortar.Like.refl _ _
    | with_reducible exact Upkeep.Like.refl _ _

theorem leaves_pumpGroup {W : List Part} {s₀ s : State} (hW : [.events, .counters, .run, .lastStep, .peers, .late,
    .mem, .out] ⊆ W) (hk : Leaves W s₀ s) (g : Nat) : Leaves W s₀ (pumpGroup g s) := by
  refine hk.trans ?_ hW
  unfold pumpGroup
  try dsimp only
  repeat' first
    | with_reducible assumption
    | with_reducible exact Leaves.refl _ _
    | split
    | with_reducible apply leaves_sendGroup
    | with_reducible apply leaves_compareCopies
    | with_reducible apply leaves_endGroup
    | with_reducible apply leaves_exchangeGroup
    | (intro u x hu)
    | with_reducible exact Kept.refl
    | decide
    | (with_reducible apply Leaves.upd)
    | (with_reducible apply Kept.mem)
    | with_reducible exact Boundary.Like.refl _ _
    | with_reducible exact Sensing.Like.refl _ _
    | with_reducible exact Dict.Like.refl _ _
    | with_reducible exact NonVolatile.Like.refl _ _
    | with_reducible exact LifeCycle.Like.refl _ _
    | with_reducible exact Contexts.Like.refl _ _
    | with_reducible exact Steps.Like.refl _ _
    | with_reducible exact Mortar.Like.refl _ _
    | with_reducible exact Upkeep.Like.refl _ _

theorem leaves_pump {W : List Part} {s₀ s : State} (hW : [.events, .counters, .run, .lastStep, .peers, .late, .mem,
    .out] ⊆ W) (hk : Leaves W s₀ s) : Leaves W s₀ (pump s) := by
  refine hk.trans ?_ hW
  unfold pump
  try dsimp only
  repeat' first
    | with_reducible assumption
    | with_reducible exact Leaves.refl _ _
    | split
    | with_reducible apply leaves_endStepWork
    | with_reducible apply leaves_pumpGroup
    | (with_reducible apply leaves_foldl)
    | (intro u x hu)
    | with_reducible exact Kept.refl
    | decide
    | (with_reducible apply Leaves.upd)
    | (with_reducible apply Kept.mem)
    | with_reducible exact Boundary.Like.refl _ _
    | with_reducible exact Sensing.Like.refl _ _
    | with_reducible exact Dict.Like.refl _ _
    | with_reducible exact NonVolatile.Like.refl _ _
    | with_reducible exact LifeCycle.Like.refl _ _
    | with_reducible exact Contexts.Like.refl _ _
    | with_reducible exact Steps.Like.refl _ _
    | with_reducible exact Mortar.Like.refl _ _
    | with_reducible exact Upkeep.Like.refl _ _

theorem leaves_takeOver {W : List Part} {s₀ s : State} (hW : [.counters, .run, .mem] ⊆ W) (hk : Leaves W s₀ s) (old
    : State) : Leaves W s₀ (takeOver old s) := by
  refine hk.trans ?_ hW
  unfold takeOver
  try dsimp only
  repeat' first
    | with_reducible assumption
    | with_reducible exact Leaves.refl _ _
    | split
    | with_reducible apply leaves_withRun
    | with_reducible apply leaves_writeBloom
    | (with_reducible apply leaves_foldl)
    | (intro u x hu)
    | with_reducible exact Kept.refl
    | decide
    | (with_reducible apply Leaves.upd)
    | (with_reducible apply Kept.mem)
    | with_reducible exact Boundary.Like.refl _ _
    | with_reducible exact Sensing.Like.refl _ _
    | with_reducible exact Dict.Like.refl _ _
    | with_reducible exact NonVolatile.Like.refl _ _
    | with_reducible exact LifeCycle.Like.refl _ _
    | with_reducible exact Contexts.Like.refl _ _
    | with_reducible exact Steps.Like.refl _ _
    | with_reducible exact Mortar.Like.refl _ _
    | with_reducible exact Upkeep.Like.refl _ _

theorem leaves_noteMissed {W : List Part} {s₀ s : State} (hW : [.run] ⊆ W) (hk : Leaves W s₀ s) : Leaves W s₀
    (noteMissed s) := by
  refine hk.trans ?_ hW
  unfold noteMissed
  try dsimp only
  repeat' first
    | with_reducible assumption
    | with_reducible exact Leaves.refl _ _
    | split
    | with_reducible apply leaves_withGroup
    | (with_reducible apply leaves_foldl)
    | (intro u x hu)
    | with_reducible exact Kept.refl
    | decide
    | (with_reducible apply Leaves.upd)
    | (with_reducible apply Kept.mem)
    | with_reducible exact Boundary.Like.refl _ _
    | with_reducible exact Sensing.Like.refl _ _
    | with_reducible exact Dict.Like.refl _ _
    | with_reducible exact NonVolatile.Like.refl _ _
    | with_reducible exact LifeCycle.Like.refl _ _
    | with_reducible exact Contexts.Like.refl _ _
    | with_reducible exact Steps.Like.refl _ _
    | with_reducible exact Mortar.Like.refl _ _
    | with_reducible exact Upkeep.Like.refl _ _

theorem leaves_runDrain {W : List Part} {s₀ s : State} (hW : [.events, .counters, .settings, .heads, .lanes, .fseq,
    .slots, .pages, .batches, .cache, .run, .lastStep, .peers, .late, .snapshot, .corrected, .mem, .out, .fresh] ⊆
    W) (hk : Leaves W s₀ s) (g brick : Nat) (ecc : List EccHit) : Leaves W s₀ (runDrain g brick ecc s) := by
  refine hk.trans ?_ hW
  unfold runDrain
  try dsimp only
  repeat' first
    | with_reducible assumption
    | with_reducible exact Leaves.refl _ _
    | split
    | with_reducible apply leaves_groupHits
    | with_reducible apply leaves_pump
    | with_reducible apply leaves_drainCritic
    | with_reducible apply leaves_drainBrick
    | (intro u x hu)
    | with_reducible exact Kept.refl
    | decide
    | (with_reducible apply Leaves.upd)
    | (with_reducible apply Kept.mem)
    | with_reducible exact Boundary.Like.refl _ _
    | with_reducible exact Sensing.Like.refl _ _
    | with_reducible exact Dict.Like.refl _ _
    | with_reducible exact NonVolatile.Like.refl _ _
    | with_reducible exact LifeCycle.Like.refl _ _
    | with_reducible exact Contexts.Like.refl _ _
    | with_reducible exact Steps.Like.refl _ _
    | with_reducible exact Mortar.Like.refl _ _
    | with_reducible exact Upkeep.Like.refl _ _

theorem leaves_runResidual {W : List Part} {s₀ s : State} (hW : [.events, .counters, .settings, .heads, .fseq,
    .slots, .pages, .batches, .cache, .run, .lastStep, .peers, .late, .snapshot, .corrected, .mem, .out, .fresh] ⊆
    W) (hk : Leaves W s₀ s) (g : Nat) (ecc : List EccHit) : Leaves W s₀ (runResidual g ecc s) := by
  refine hk.trans ?_ hW
  unfold runResidual
  try dsimp only
  repeat' first
    | with_reducible assumption
    | with_reducible exact Leaves.refl _ _
    | split
    | with_reducible apply leaves_groupHits
    | with_reducible apply leaves_railReads
    | with_reducible apply leaves_pump
    | with_reducible apply leaves_withGroup
    | (intro u x hu)
    | with_reducible exact Kept.refl
    | decide
    | (with_reducible apply Leaves.upd)
    | (with_reducible apply Kept.mem)
    | with_reducible exact Boundary.Like.refl _ _
    | with_reducible exact Sensing.Like.refl _ _
    | with_reducible exact Dict.Like.refl _ _
    | with_reducible exact NonVolatile.Like.refl _ _
    | with_reducible exact LifeCycle.Like.refl _ _
    | with_reducible exact Contexts.Like.refl _ _
    | with_reducible exact Steps.Like.refl _ _
    | with_reducible exact Mortar.Like.refl _ _
    | with_reducible exact Upkeep.Like.refl _ _

theorem leaves_secondReads {W : List Part} {s₀ s : State} (hW : [.events, .counters, .settings, .heads, .fseq,
    .slots, .pages, .batches, .cache, .run, .snapshot, .corrected, .mem, .fresh] ⊆ W) (hk : Leaves W s₀ s) (g :
    Nat) (ecc : List EccHit) (v : View) : Leaves W s₀ (secondReads g ecc v s) := by
  refine hk.trans ?_ hW
  unfold secondReads
  try dsimp only
  repeat' first
    | with_reducible assumption
    | with_reducible exact Leaves.refl _ _
    | split
    | with_reducible apply leaves_groupHits
    | with_reducible apply leaves_railReads
    | (intro u x hu)
    | with_reducible exact Kept.refl
    | decide
    | (with_reducible apply Leaves.upd)
    | (with_reducible apply Kept.mem)
    | with_reducible exact Boundary.Like.refl _ _
    | with_reducible exact Sensing.Like.refl _ _
    | with_reducible exact Dict.Like.refl _ _
    | with_reducible exact NonVolatile.Like.refl _ _
    | with_reducible exact LifeCycle.Like.refl _ _
    | with_reducible exact Contexts.Like.refl _ _
    | with_reducible exact Steps.Like.refl _ _
    | with_reducible exact Mortar.Like.refl _ _
    | with_reducible exact Upkeep.Like.refl _ _

theorem leaves_doSecondPass {W : List Part} {s₀ s : State} (hW : [.events, .counters, .settings, .heads, .fseq,
    .slots, .pages, .batches, .cache, .run, .snapshot, .corrected, .mem, .fresh] ⊆ W) (hk : Leaves W s₀ s) (g :
    Nat) (ecc : List EccHit) : Leaves W s₀ (doSecondPass g ecc s) := by
  refine hk.trans ?_ hW
  unfold doSecondPass
  try dsimp only
  repeat' first
    | with_reducible assumption
    | with_reducible exact Leaves.refl _ _
    | split
    | with_reducible apply leaves_secondReads
    | with_reducible apply leaves_endStepWork
    | with_reducible apply leaves_runSecondPass
    | (intro u x hu)
    | with_reducible exact Kept.refl
    | decide
    | (with_reducible apply Leaves.upd)
    | (with_reducible apply Kept.mem)
    | with_reducible exact Boundary.Like.refl _ _
    | with_reducible exact Sensing.Like.refl _ _
    | with_reducible exact Dict.Like.refl _ _
    | with_reducible exact NonVolatile.Like.refl _ _
    | with_reducible exact LifeCycle.Like.refl _ _
    | with_reducible exact Contexts.Like.refl _ _
    | with_reducible exact Steps.Like.refl _ _
    | with_reducible exact Mortar.Like.refl _ _
    | with_reducible exact Upkeep.Like.refl _ _

theorem leaves_acknowledgeGroup {W : List Part} {s₀ s : State} (hW : [.run, .mem] ⊆ W) (hk : Leaves W s₀ s) (g :
    Nat) : Leaves W s₀ (acknowledgeGroup g s) := by
  refine hk.trans ?_ hW
  unfold acknowledgeGroup
  try dsimp only
  repeat' first
    | with_reducible assumption
    | with_reducible exact Leaves.refl _ _
    | split
    | with_reducible apply leaves_noteEnd
    | with_reducible apply leaves_withRun
    | with_reducible apply leaves_withGroup
    | with_reducible apply leaves_endStepWork
    | with_reducible apply leaves_writeBytes
    | (intro u x hu)
    | with_reducible exact Kept.refl
    | decide
    | (with_reducible apply Leaves.upd)
    | (with_reducible apply Kept.mem)
    | with_reducible exact Boundary.Like.refl _ _
    | with_reducible exact Sensing.Like.refl _ _
    | with_reducible exact Dict.Like.refl _ _
    | with_reducible exact NonVolatile.Like.refl _ _
    | with_reducible exact LifeCycle.Like.refl _ _
    | with_reducible exact Contexts.Like.refl _ _
    | with_reducible exact Steps.Like.refl _ _
    | with_reducible exact Mortar.Like.refl _ _
    | with_reducible exact Upkeep.Like.refl _ _

end Sys2Proof.Machine
end

