-- ==== Sys2Proof/Laws/LeavesReliability.lean ====
section
/-! SUPPORT. What the effects of Machine/Reliability.lean leave as it was. -/

namespace Sys2Proof.Machine

theorem leaves_scrubLine {W : List Part} {s₀ s : State} (hW : [.events, .applied, .counters, .settings, .heads,
    .fseq, .slots, .pages, .batches, .cache, .run, .peers, .late, .snapshot, .corrected, .tests, .mode, .mem, .out,
    .fresh] ⊆ W) (hk : Leaves W s₀ s) (m line : Nat) (found : List EccHit) : Leaves W s₀ (scrubLine m line found s)
    := by
  refine hk.trans ?_ hW
  unfold scrubLine
  try dsimp only
  repeat' first
    | with_reducible assumption
    | with_reducible exact Leaves.refl _ _
    | split
    | with_reducible apply leaves_uncorrectableScrub
    | with_reducible apply leaves_correctedWord
    | (with_reducible apply leaves_foldl)
    | (intro u x hu)
    | with_reducible exact Kept.refl
    | decide
    | (with_reducible apply Leaves.upd)
    | (with_reducible apply Kept.mem)
    | with_reducible exact Boundary.Like.refl _ _
    | with_reducible exact Sensing.Like.refl _ _
    | with_reducible exact Dict.Like.refl _ _
    | with_reducible exact NonVolatile.Like.refl _ _
    | with_reducible exact LifeCycle.Like.refl _ _
    | with_reducible exact Contexts.Like.refl _ _
    | with_reducible exact Steps.Like.refl _ _
    | with_reducible exact Mortar.Like.refl _ _
    | with_reducible exact Upkeep.Like.refl _ _

theorem leaves_scrubAdvance {W : List Part} {s₀ s : State} (hW : [.counters, .scrub] ⊆ W) (hk : Leaves W s₀ s) (m
    line : Nat) : Leaves W s₀ (scrubAdvance m line s) := by
  refine hk.trans ?_ hW
  unfold scrubAdvance
  try dsimp only
  repeat' first
    | with_reducible assumption
    | with_reducible exact Leaves.refl _ _
    | split
    | with_reducible apply leaves_count
    | (intro u x hu)
    | with_reducible exact Kept.refl
    | decide
    | (with_reducible apply Leaves.upd)
    | (with_reducible apply Kept.mem)
    | with_reducible exact Boundary.Like.refl _ _
    | with_reducible exact Sensing.Like.refl _ _
    | with_reducible exact Dict.Like.refl _ _
    | with_reducible exact NonVolatile.Like.refl _ _
    | with_reducible exact LifeCycle.Like.refl _ _
    | with_reducible exact Contexts.Like.refl _ _
    | with_reducible exact Steps.Like.refl _ _
    | with_reducible exact Mortar.Like.refl _ _
    | with_reducible exact Upkeep.Like.refl _ _
    | (with_reducible apply Upkeep.Like.mk)

theorem leaves_scrubRead {W : List Part} {s₀ s : State} (hW : [.events, .applied, .counters, .settings, .heads,
    .fseq, .slots, .pages, .batches, .cache, .run, .peers, .late, .snapshot, .scrub, .corrected, .hsPass, .tests,
    .mode, .mem, .out, .fresh] ⊆ W) (hk : Leaves W s₀ s) (found : List EccHit) : Leaves W s₀ (scrubRead found s) := by
  refine hk.trans ?_ hW
  unfold scrubRead
  try dsimp only
  repeat' first
    | with_reducible assumption
    | with_reducible exact Leaves.refl _ _
    | split
    | with_reducible apply leaves_scrubLine
    | with_reducible apply leaves_raise
    | with_reducible apply leaves_count
    | with_reducible apply leaves_scrubAdvance
    | (intro u x hu)
    | with_reducible exact Kept.refl
    | decide
    | (with_reducible apply Leaves.upd)
    | (with_reducible apply Kept.mem)
    | with_reducible exact Boundary.Like.refl _ _
    | with_reducible exact Sensing.Like.refl _ _
    | with_reducible exact Dict.Like.refl _ _
    | with_reducible exact NonVolatile.Like.refl _ _
    | with_reducible exact LifeCycle.Like.refl _ _
    | with_reducible exact Contexts.Like.refl _ _
    | with_reducible exact Steps.Like.refl _ _
    | with_reducible exact Mortar.Like.refl _ _
    | with_reducible exact Upkeep.Like.refl _ _
    | (with_reducible apply Upkeep.Like.mk)

theorem leaves_failSnapshot {W : List Part} {s₀ s : State} (hW : [.events, .counters, .snapshot] ⊆ W) (hk : Leaves
    W s₀ s) (reason : Nat) : Leaves W s₀ (failSnapshot reason s) := by
  refine hk.trans ?_ hW
  unfold failSnapshot
  try dsimp only
  repeat' first
    | with_reducible assumption
    | with_reducible exact Leaves.refl _ _
    | split
    | with_reducible apply leaves_raiseCount
    | (intro u x hu)
    | with_reducible exact Kept.refl
    | decide
    | (with_reducible apply Leaves.upd)
    | (with_reducible apply Kept.mem)
    | with_reducible exact Boundary.Like.refl _ _
    | with_reducible exact Sensing.Like.refl _ _
    | with_reducible exact Dict.Like.refl _ _
    | with_reducible exact NonVolatile.Like.refl _ _
    | with_reducible exact LifeCycle.Like.refl _ _
    | with_reducible exact Contexts.Like.refl _ _
    | with_reducible exact Steps.Like.refl _ _
    | with_reducible exact Mortar.Like.refl _ _
    | with_reducible exact Upkeep.Like.refl _ _

theorem leaves_capture {W : List Part} {s₀ s : State} (hW : [.power, .events, .counters, .lastStep, .snapshot] ⊆ W)
    (hk : Leaves W s₀ s) : Leaves W s₀ (capture s) := by
  refine hk.trans ?_ hW
  unfold capture
  try dsimp only
  repeat' first
    | with_reducible assumption
    | with_reducible exact Leaves.refl _ _
    | split
    | with_reducible apply leaves_count
    | with_reducible apply leaves_wake
    | with_reducible apply leaves_failSnapshot
    | (intro u x hu)
    | with_reducible exact Kept.refl
    | decide
    | (with_reducible apply Leaves.upd)
    | (with_reducible apply Kept.mem)
    | with_reducible exact Boundary.Like.refl _ _
    | with_reducible exact Sensing.Like.refl _ _
    | with_reducible exact Dict.Like.refl _ _
    | with_reducible exact NonVolatile.Like.refl _ _
    | with_reducible exact LifeCycle.Like.refl _ _
    | with_reducible exact Contexts.Like.refl _ _
    | with_reducible exact Steps.Like.refl _ _
    | with_reducible exact Mortar.Like.refl _ _
    | with_reducible exact Upkeep.Like.refl _ _
    | (with_reducible apply Steps.Like.mk)

theorem leaves_snapshotGoEffect {W : List Part} {s₀ s : State} (hW : [.power, .events, .counters, .lastStep,
    .snapshot] ⊆ W) (hk : Leaves W s₀ s) : Leaves W s₀ (snapshotGoEffect s) := by
  refine hk.trans ?_ hW
  unfold snapshotGoEffect
  try dsimp only
  repeat' first
    | with_reducible assumption
    | with_reducible exact Leaves.refl _ _
    | split
    | with_reducible apply leaves_reject
    | with_reducible apply leaves_capture
    | (intro u x hu)
    | with_reducible exact Kept.refl
    | decide
    | (with_reducible apply Leaves.upd)
    | (with_reducible apply Kept.mem)
    | with_reducible exact Boundary.Like.refl _ _
    | with_reducible exact Sensing.Like.refl _ _
    | with_reducible exact Dict.Like.refl _ _
    | with_reducible exact NonVolatile.Like.refl _ _
    | with_reducible exact LifeCycle.Like.refl _ _
    | with_reducible exact Contexts.Like.refl _ _
    | with_reducible exact Steps.Like.refl _ _
    | with_reducible exact Mortar.Like.refl _ _
    | with_reducible exact Upkeep.Like.refl _ _

theorem leaves_sendChunk {W : List Part} {s₀ s : State} (hW : [.counters, .peers, .late, .snapshot, .out] ⊆ W) (hk
    : Leaves W s₀ s) (r : SnapRun) (c : Chunk) : Leaves W s₀ (sendChunk r c s) := by
  refine hk.trans ?_ hW
  unfold sendChunk
  try dsimp only
  repeat' first
    | with_reducible assumption
    | with_reducible exact Leaves.refl _ _
    | split
    | with_reducible apply leaves_sendMsg
    | (intro u x hu)
    | with_reducible exact Kept.refl
    | decide
    | (with_reducible apply Leaves.upd)
    | (with_reducible apply Kept.mem)
    | with_reducible exact Boundary.Like.refl _ _
    | with_reducible exact Sensing.Like.refl _ _
    | with_reducible exact Dict.Like.refl _ _
    | with_reducible exact NonVolatile.Like.refl _ _
    | with_reducible exact LifeCycle.Like.refl _ _
    | with_reducible exact Contexts.Like.refl _ _
    | with_reducible exact Steps.Like.refl _ _
    | with_reducible exact Mortar.Like.refl _ _
    | with_reducible exact Upkeep.Like.refl _ _

theorem leaves_snapshotChunkRead {W : List Part} {s₀ s : State} (hW : [.counters, .peers, .late, .snapshot, .out] ⊆
    W) (hk : Leaves W s₀ s) : Leaves W s₀ (snapshotChunkRead s) := by
  refine hk.trans ?_ hW
  unfold snapshotChunkRead
  try dsimp only
  repeat' first
    | with_reducible assumption
    | with_reducible exact Leaves.refl _ _
    | split
    | with_reducible apply leaves_sendChunk
    | (intro u x hu)
    | with_reducible exact Kept.refl
    | decide
    | (with_reducible apply Leaves.upd)
    | (with_reducible apply Kept.mem)
    | with_reducible exact Boundary.Like.refl _ _
    | with_reducible exact Sensing.Like.refl _ _
    | with_reducible exact Dict.Like.refl _ _
    | with_reducible exact NonVolatile.Like.refl _ _
    | with_reducible exact LifeCycle.Like.refl _ _
    | with_reducible exact Contexts.Like.refl _ _
    | with_reducible exact Steps.Like.refl _ _
    | with_reducible exact Mortar.Like.refl _ _
    | with_reducible exact Upkeep.Like.refl _ _

theorem leaves_captureHits {W : List Part} {s₀ s : State} (hW : [.events, .counters, .slots, .pages, .batches,
    .cache, .run, .snapshot, .corrected, .mem, .fresh] ⊆ W) (hk : Leaves W s₀ s) (ecc : List EccHit) : Leaves W s₀
    (captureHits ecc s) := by
  refine hk.trans ?_ hW
  unfold captureHits
  try dsimp only
  repeat' first
    | with_reducible assumption
    | with_reducible exact Leaves.refl _ _
    | split
    | with_reducible apply leaves_readHits
    | with_reducible apply leaves_failSnapshot
    | (intro u x hu)
    | with_reducible exact Kept.refl
    | decide
    | (with_reducible apply Leaves.upd)
    | (with_reducible apply Kept.mem)
    | with_reducible exact Boundary.Like.refl _ _
    | with_reducible exact Sensing.Like.refl _ _
    | with_reducible exact Dict.Like.refl _ _
    | with_reducible exact NonVolatile.Like.refl _ _
    | with_reducible exact LifeCycle.Like.refl _ _
    | with_reducible exact Contexts.Like.refl _ _
    | with_reducible exact Steps.Like.refl _ _
    | with_reducible exact Mortar.Like.refl _ _
    | with_reducible exact Upkeep.Like.refl _ _

theorem leaves_finishSnapshot {W : List Part} {s₀ s : State} (hW : [.events, .counters, .snapshot] ⊆ W) (hk :
    Leaves W s₀ s) (r : SnapRun) : Leaves W s₀ (finishSnapshot r s) := by
  refine hk.trans ?_ hW
  unfold finishSnapshot
  try dsimp only
  repeat' first
    | with_reducible assumption
    | with_reducible exact Leaves.refl _ _
    | split
    | with_reducible apply leaves_raiseCount
    | (intro u x hu)
    | with_reducible exact Kept.refl
    | decide
    | (with_reducible apply Leaves.upd)
    | (with_reducible apply Kept.mem)
    | with_reducible exact Boundary.Like.refl _ _
    | with_reducible exact Sensing.Like.refl _ _
    | with_reducible exact Dict.Like.refl _ _
    | with_reducible exact NonVolatile.Like.refl _ _
    | with_reducible exact LifeCycle.Like.refl _ _
    | with_reducible exact Contexts.Like.refl _ _
    | with_reducible exact Steps.Like.refl _ _
    | with_reducible exact Mortar.Like.refl _ _
    | with_reducible exact Upkeep.Like.refl _ _

theorem leaves_takeReceipt {W : List Part} {s₀ s : State} (hW : [.events, .counters, .snapshot] ⊆ W) (hk : Leaves W
    s₀ s) (src : Nat) (h : ChunkHead) : Leaves W s₀ (takeReceipt src h s) := by
  refine hk.trans ?_ hW
  unfold takeReceipt
  try dsimp only
  repeat' first
    | with_reducible assumption
    | with_reducible exact Leaves.refl _ _
    | split
    | with_reducible apply leaves_failSnapshot
    | with_reducible apply leaves_finishSnapshot
    | (intro u x hu)
    | with_reducible exact Kept.refl
    | decide
    | (with_reducible apply Leaves.upd)
    | (with_reducible apply Kept.mem)
    | with_reducible exact Boundary.Like.refl _ _
    | with_reducible exact Sensing.Like.refl _ _
    | with_reducible exact Dict.Like.refl _ _
    | with_reducible exact NonVolatile.Like.refl _ _
    | with_reducible exact LifeCycle.Like.refl _ _
    | with_reducible exact Contexts.Like.refl _ _
    | with_reducible exact Steps.Like.refl _ _
    | with_reducible exact Mortar.Like.refl _ _
    | with_reducible exact Upkeep.Like.refl _ _

theorem leaves_sendReceipt {W : List Part} {s₀ s : State} (hW : [.counters, .peers, .late, .out] ⊆ W) (hk : Leaves
    W s₀ s) (dst : Nat) (header : Bytes) (placing : Bool) : Leaves W s₀ (sendReceipt dst header placing s) := by
  refine hk.trans ?_ hW
  unfold sendReceipt
  try dsimp only
  repeat' first
    | with_reducible assumption
    | with_reducible exact Leaves.refl _ _
    | split
    | with_reducible apply leaves_sendMsg
    | (intro u x hu)
    | with_reducible exact Kept.refl
    | decide
    | (with_reducible apply Leaves.upd)
    | (with_reducible apply Kept.mem)
    | with_reducible exact Boundary.Like.refl _ _
    | with_reducible exact Sensing.Like.refl _ _
    | with_reducible exact Dict.Like.refl _ _
    | with_reducible exact NonVolatile.Like.refl _ _
    | with_reducible exact LifeCycle.Like.refl _ _
    | with_reducible exact Contexts.Like.refl _ _
    | with_reducible exact Steps.Like.refl _ _
    | with_reducible exact Mortar.Like.refl _ _
    | with_reducible exact Upkeep.Like.refl _ _

theorem leaves_refuseChunk {W : List Part} {s₀ s : State} (hW : [.events, .counters, .peers, .late, .hold, .out] ⊆
    W) (hk : Leaves W s₀ s) (src : Nat) (header : Bytes) (own : Bool) : Leaves W s₀ (refuseChunk src header own s)
    := by
  refine hk.trans ?_ hW
  unfold refuseChunk
  try dsimp only
  repeat' first
    | with_reducible assumption
    | with_reducible exact Leaves.refl _ _
    | split
    | with_reducible apply leaves_sendReceipt
    | with_reducible apply leaves_raiseArgs
    | (intro u x hu)
    | with_reducible exact Kept.refl
    | decide
    | (with_reducible apply Leaves.upd)
    | (with_reducible apply Kept.mem)
    | with_reducible exact Boundary.Like.refl _ _
    | with_reducible exact Sensing.Like.refl _ _
    | with_reducible exact Dict.Like.refl _ _
    | with_reducible exact NonVolatile.Like.refl _ _
    | with_reducible exact LifeCycle.Like.refl _ _
    | with_reducible exact Contexts.Like.refl _ _
    | with_reducible exact Steps.Like.refl _ _
    | with_reducible exact Mortar.Like.refl _ _
    | with_reducible exact Upkeep.Like.refl _ _

theorem leaves_copyBytes {W : List Part} {s₀ s : State} (hW : [.mem] ⊆ W) (hk : Leaves W s₀ s) (src dst n : Nat) :
    Leaves W s₀ (copyBytes src dst n s) := by
  refine hk.trans ?_ hW
  unfold copyBytes
  try dsimp only
  repeat' first
    | with_reducible assumption
    | with_reducible exact Leaves.refl _ _
    | split
    | with_reducible apply leaves_writeBytes
    | (intro u x hu)
    | with_reducible exact Kept.refl
    | decide
    | (with_reducible apply Leaves.upd)
    | (with_reducible apply Kept.mem)
    | with_reducible exact Boundary.Like.refl _ _
    | with_reducible exact Sensing.Like.refl _ _
    | with_reducible exact Dict.Like.refl _ _
    | with_reducible exact NonVolatile.Like.refl _ _
    | with_reducible exact LifeCycle.Like.refl _ _
    | with_reducible exact Contexts.Like.refl _ _
    | with_reducible exact Steps.Like.refl _ _
    | with_reducible exact Mortar.Like.refl _ _
    | with_reducible exact Upkeep.Like.refl _ _

theorem leaves_placeChunk {W : List Part} {s₀ s : State} (hW : [.hold, .mem] ⊆ W) (hk : Leaves W s₀ s) (r : HoldIn)
    (header : Bytes) (pl : Bytes) : Leaves W s₀ (placeChunk r header pl s) := by
  refine hk.trans ?_ hW
  unfold placeChunk
  try dsimp only
  repeat' first
    | with_reducible assumption
    | with_reducible exact Leaves.refl _ _
    | split
    | with_reducible apply leaves_writeBytes
    | (intro u x hu)
    | with_reducible exact Kept.refl
    | decide
    | (with_reducible apply Leaves.upd)
    | (with_reducible apply Kept.mem)
    | with_reducible exact Boundary.Like.refl _ _
    | with_reducible exact Sensing.Like.refl _ _
    | with_reducible exact Dict.Like.refl _ _
    | with_reducible exact NonVolatile.Like.refl _ _
    | with_reducible exact LifeCycle.Like.refl _ _
    | with_reducible exact Contexts.Like.refl _ _
    | with_reducible exact Steps.Like.refl _ _
    | with_reducible exact Mortar.Like.refl _ _
    | with_reducible exact Upkeep.Like.refl _ _

theorem leaves_takeHold {W : List Part} {s₀ s : State} (hW : [.events, .counters, .peers, .late, .hold, .mem, .out]
    ⊆ W) (hk : Leaves W s₀ s) (src : Nat) (pl : Bytes) : Leaves W s₀ (takeHold src pl s) := by
  refine hk.trans ?_ hW
  unfold takeHold
  try dsimp only
  repeat' first
    | with_reducible assumption
    | with_reducible exact Leaves.refl _ _
    | split
    | with_reducible apply leaves_refuseChunk
    | with_reducible apply leaves_placeChunk
    | with_reducible apply leaves_copyBytes
    | (intro u x hu)
    | with_reducible exact Kept.refl
    | decide
    | (with_reducible apply Leaves.upd)
    | (with_reducible apply Kept.mem)
    | with_reducible exact Boundary.Like.refl _ _
    | with_reducible exact Sensing.Like.refl _ _
    | with_reducible exact Dict.Like.refl _ _
    | with_reducible exact NonVolatile.Like.refl _ _
    | with_reducible exact LifeCycle.Like.refl _ _
    | with_reducible exact Contexts.Like.refl _ _
    | with_reducible exact Steps.Like.refl _ _
    | with_reducible exact Mortar.Like.refl _ _
    | with_reducible exact Upkeep.Like.refl _ _

theorem leaves_holdPlaced {W : List Part} {s₀ s : State} (hW : [.counters, .peers, .late, .hold, .out] ⊆ W) (hk :
    Leaves W s₀ s) : Leaves W s₀ (holdPlaced s) := by
  refine hk.trans ?_ hW
  unfold holdPlaced
  try dsimp only
  repeat' first
    | with_reducible assumption
    | with_reducible exact Leaves.refl _ _
    | split
    | with_reducible apply leaves_sendReceipt
    | (intro u x hu)
    | with_reducible exact Kept.refl
    | decide
    | (with_reducible apply Leaves.upd)
    | (with_reducible apply Kept.mem)
    | with_reducible exact Boundary.Like.refl _ _
    | with_reducible exact Sensing.Like.refl _ _
    | with_reducible exact Dict.Like.refl _ _
    | with_reducible exact NonVolatile.Like.refl _ _
    | with_reducible exact LifeCycle.Like.refl _ _
    | with_reducible exact Contexts.Like.refl _ _
    | with_reducible exact Steps.Like.refl _ _
    | with_reducible exact Mortar.Like.refl _ _
    | with_reducible exact Upkeep.Like.refl _ _

theorem leaves_holdClearEffect {W : List Part} {s₀ s : State} (hW : [.hold] ⊆ W) (hk : Leaves W s₀ s) : Leaves W s₀
    (holdClearEffect s) := by
  refine hk.trans ?_ hW
  unfold holdClearEffect
  try dsimp only
  repeat' first
    | with_reducible assumption
    | with_reducible exact Leaves.refl _ _
    | split
    | (intro u x hu)
    | with_reducible exact Kept.refl
    | decide
    | (with_reducible apply Leaves.upd)
    | (with_reducible apply Kept.mem)
    | with_reducible exact Boundary.Like.refl _ _
    | with_reducible exact Sensing.Like.refl _ _
    | with_reducible exact Dict.Like.refl _ _
    | with_reducible exact NonVolatile.Like.refl _ _
    | with_reducible exact LifeCycle.Like.refl _ _
    | with_reducible exact Contexts.Like.refl _ _
    | with_reducible exact Steps.Like.refl _ _
    | with_reducible exact Mortar.Like.refl _ _
    | with_reducible exact Upkeep.Like.refl _ _

theorem leaves_holdSendGoEffect {W : List Part} {s₀ s : State} (hW : [.counters, .hold] ⊆ W) (hk : Leaves W s₀ s) :
    Leaves W s₀ (holdSendGoEffect s) := by
  refine hk.trans ?_ hW
  unfold holdSendGoEffect
  try dsimp only
  repeat' first
    | with_reducible assumption
    | with_reducible exact Leaves.refl _ _
    | split
    | with_reducible apply leaves_reject
    | (intro u x hu)
    | with_reducible exact Kept.refl
    | decide
    | (with_reducible apply Leaves.upd)
    | (with_reducible apply Kept.mem)
    | with_reducible exact Boundary.Like.refl _ _
    | with_reducible exact Sensing.Like.refl _ _
    | with_reducible exact Dict.Like.refl _ _
    | with_reducible exact NonVolatile.Like.refl _ _
    | with_reducible exact LifeCycle.Like.refl _ _
    | with_reducible exact Contexts.Like.refl _ _
    | with_reducible exact Steps.Like.refl _ _
    | with_reducible exact Mortar.Like.refl _ _
    | with_reducible exact Upkeep.Like.refl _ _

theorem leaves_holdSend {W : List Part} {s₀ s : State} (hW : [.counters, .peers, .late, .hold, .out] ⊆ W) (hk :
    Leaves W s₀ s) (i c : Nat) : Leaves W s₀ (holdSend i c s) := by
  refine hk.trans ?_ hW
  unfold holdSend
  try dsimp only
  repeat' first
    | with_reducible assumption
    | with_reducible exact Leaves.refl _ _
    | split
    | with_reducible apply leaves_sendMsg
    | (intro u x hu)
    | with_reducible exact Kept.refl
    | decide
    | (with_reducible apply Leaves.upd)
    | (with_reducible apply Kept.mem)
    | with_reducible exact Boundary.Like.refl _ _
    | with_reducible exact Sensing.Like.refl _ _
    | with_reducible exact Dict.Like.refl _ _
    | with_reducible exact NonVolatile.Like.refl _ _
    | with_reducible exact LifeCycle.Like.refl _ _
    | with_reducible exact Contexts.Like.refl _ _
    | with_reducible exact Steps.Like.refl _ _
    | with_reducible exact Mortar.Like.refl _ _
    | with_reducible exact Upkeep.Like.refl _ _

theorem leaves_holdChunkRead {W : List Part} {s₀ s : State} (hW : [.counters, .peers, .late, .hold, .out] ⊆ W) (hk
    : Leaves W s₀ s) : Leaves W s₀ (holdChunkRead s) := by
  refine hk.trans ?_ hW
  unfold holdChunkRead
  try dsimp only
  repeat' first
    | with_reducible assumption
    | with_reducible exact Leaves.refl _ _
    | split
    | with_reducible apply leaves_holdSend
    | (intro u x hu)
    | with_reducible exact Kept.refl
    | decide
    | (with_reducible apply Leaves.upd)
    | (with_reducible apply Kept.mem)
    | with_reducible exact Boundary.Like.refl _ _
    | with_reducible exact Sensing.Like.refl _ _
    | with_reducible exact Dict.Like.refl _ _
    | with_reducible exact NonVolatile.Like.refl _ _
    | with_reducible exact LifeCycle.Like.refl _ _
    | with_reducible exact Contexts.Like.refl _ _
    | with_reducible exact Steps.Like.refl _ _
    | with_reducible exact Mortar.Like.refl _ _
    | with_reducible exact Upkeep.Like.refl _ _

theorem leaves_markAll {W : List Part} {s₀ s : State} (hW : [.snapshot] ⊆ W) (hk : Leaves W s₀ s) : Leaves W s₀
    (markAll s) := by
  refine hk.trans ?_ hW
  unfold markAll
  try dsimp only
  repeat' first
    | with_reducible assumption
    | with_reducible exact Leaves.refl _ _
    | split
    | with_reducible apply leaves_dirtyKeys
    | (intro u x hu)
    | with_reducible exact Kept.refl
    | decide
    | (with_reducible apply Leaves.upd)
    | (with_reducible apply Kept.mem)
    | with_reducible exact Boundary.Like.refl _ _
    | with_reducible exact Sensing.Like.refl _ _
    | with_reducible exact Dict.Like.refl _ _
    | with_reducible exact NonVolatile.Like.refl _ _
    | with_reducible exact LifeCycle.Like.refl _ _
    | with_reducible exact Contexts.Like.refl _ _
    | with_reducible exact Steps.Like.refl _ _
    | with_reducible exact Mortar.Like.refl _ _
    | with_reducible exact Upkeep.Like.refl _ _

theorem leaves_prepareRestore {W : List Part} {s₀ s : State} (hW : [.events, .counters, .slots, .pages, .batches,
    .budgets, .starts, .snapshot, .restore] ⊆ W) (hk : Leaves W s₀ s) : Leaves W s₀ (prepareRestore s) := by
  refine hk.trans ?_ hW
  unfold prepareRestore
  try dsimp only
  repeat' first
    | with_reducible assumption
    | with_reducible exact Leaves.refl _ _
    | split
    | with_reducible apply leaves_markAll
    | with_reducible apply leaves_clearStarts
    | (intro u x hu)
    | with_reducible exact Kept.refl
    | decide
    | (with_reducible apply Leaves.upd)
    | (with_reducible apply Kept.mem)
    | with_reducible exact Boundary.Like.refl _ _
    | with_reducible exact Sensing.Like.refl _ _
    | with_reducible exact Dict.Like.refl _ _
    | with_reducible exact NonVolatile.Like.refl _ _
    | with_reducible exact LifeCycle.Like.refl _ _
    | with_reducible exact Contexts.Like.refl _ _
    | with_reducible exact Steps.Like.refl _ _
    | with_reducible exact Mortar.Like.refl _ _
    | with_reducible exact Upkeep.Like.refl _ _
    | (with_reducible apply Contexts.Like.mk)

theorem leaves_failRestore {W : List Part} {s₀ s : State} (hW : [.events, .counters, .slots, .pages, .batches,
    .budgets, .starts, .snapshot, .restore] ⊆ W) (hk : Leaves W s₀ s) (reason : Nat) : Leaves W s₀ (failRestore
    reason s) := by
  refine hk.trans ?_ hW
  unfold failRestore
  try dsimp only
  repeat' first
    | with_reducible assumption
    | with_reducible exact Leaves.refl _ _
    | split
    | with_reducible apply leaves_prepareRestore
    | with_reducible apply leaves_raiseCount
    | (intro u x hu)
    | with_reducible exact Kept.refl
    | decide
    | (with_reducible apply Leaves.upd)
    | (with_reducible apply Kept.mem)
    | with_reducible exact Boundary.Like.refl _ _
    | with_reducible exact Sensing.Like.refl _ _
    | with_reducible exact Dict.Like.refl _ _
    | with_reducible exact NonVolatile.Like.refl _ _
    | with_reducible exact LifeCycle.Like.refl _ _
    | with_reducible exact Contexts.Like.refl _ _
    | with_reducible exact Steps.Like.refl _ _
    | with_reducible exact Mortar.Like.refl _ _
    | with_reducible exact Upkeep.Like.refl _ _

theorem leaves_startRestore {W : List Part} {s₀ s : State} (hW : [.power, .events, .counters, .slots, .pages,
    .batches, .budgets, .starts, .snapshot, .restore] ⊆ W) (hk : Leaves W s₀ s) : Leaves W s₀ (startRestore s) := by
  refine hk.trans ?_ hW
  unfold startRestore
  try dsimp only
  repeat' first
    | with_reducible assumption
    | with_reducible exact Leaves.refl _ _
    | split
    | with_reducible apply leaves_prepareRestore
    | with_reducible apply leaves_wake
    | with_reducible apply leaves_failRestore
    | (intro u x hu)
    | with_reducible exact Kept.refl
    | decide
    | (with_reducible apply Leaves.upd)
    | (with_reducible apply Kept.mem)
    | with_reducible exact Boundary.Like.refl _ _
    | with_reducible exact Sensing.Like.refl _ _
    | with_reducible exact Dict.Like.refl _ _
    | with_reducible exact NonVolatile.Like.refl _ _
    | with_reducible exact LifeCycle.Like.refl _ _
    | with_reducible exact Contexts.Like.refl _ _
    | with_reducible exact Steps.Like.refl _ _
    | with_reducible exact Mortar.Like.refl _ _
    | with_reducible exact Upkeep.Like.refl _ _

theorem leaves_restoreGoEffect {W : List Part} {s₀ s : State} (hW : [.power, .events, .counters, .slots, .pages,
    .batches, .budgets, .starts, .snapshot, .restore] ⊆ W) (hk : Leaves W s₀ s) : Leaves W s₀ (restoreGoEffect s)
    := by
  refine hk.trans ?_ hW
  unfold restoreGoEffect
  try dsimp only
  repeat' first
    | with_reducible assumption
    | with_reducible exact Leaves.refl _ _
    | split
    | with_reducible apply leaves_reject
    | with_reducible apply leaves_failRestore
    | with_reducible apply leaves_startRestore
    | (intro u x hu)
    | with_reducible exact Kept.refl
    | decide
    | (with_reducible apply Leaves.upd)
    | (with_reducible apply Kept.mem)
    | with_reducible exact Boundary.Like.refl _ _
    | with_reducible exact Sensing.Like.refl _ _
    | with_reducible exact Dict.Like.refl _ _
    | with_reducible exact NonVolatile.Like.refl _ _
    | with_reducible exact LifeCycle.Like.refl _ _
    | with_reducible exact Contexts.Like.refl _ _
    | with_reducible exact Steps.Like.refl _ _
    | with_reducible exact Mortar.Like.refl _ _
    | with_reducible exact Upkeep.Like.refl _ _

theorem leaves_applyRecord {W : List Part} {s₀ s : State} (hW : [.slots, .snapshot, .mem] ⊆ W) (hk : Leaves W s₀ s)
    (kind : Nat) (r : Bytes) : Leaves W s₀ (applyRecord kind r s) := by
  refine hk.trans ?_ hW
  unfold applyRecord
  try dsimp only
  repeat' first
    | with_reducible assumption
    | with_reducible exact Leaves.refl _ _
    | split
    | with_reducible apply leaves_dirtySlot
    | with_reducible apply leaves_dirtyKeys
    | with_reducible apply leaves_setContext
    | with_reducible apply leaves_writeBytes
    | (intro u x hu)
    | with_reducible exact Kept.refl
    | decide
    | (with_reducible apply Leaves.upd)
    | (with_reducible apply Kept.mem)
    | with_reducible exact Boundary.Like.refl _ _
    | with_reducible exact Sensing.Like.refl _ _
    | with_reducible exact Dict.Like.refl _ _
    | with_reducible exact NonVolatile.Like.refl _ _
    | with_reducible exact LifeCycle.Like.refl _ _
    | with_reducible exact Contexts.Like.refl _ _
    | with_reducible exact Steps.Like.refl _ _
    | with_reducible exact Mortar.Like.refl _ _
    | with_reducible exact Upkeep.Like.refl _ _
    | (with_reducible apply Contexts.Like.mk)

theorem leaves_applyRecords_own {s₀ s : State} (hk : Leaves [.slots, .snapshot, .mem] s₀ s) (kind fuel : Nat) (bs :
    Bytes) : Leaves [.slots, .snapshot, .mem] s₀ (applyRecords kind fuel bs s) := by
  induction fuel generalizing s bs with
  | zero => exact hk
  | succ fuel ih =>
    rw [applyRecords]
    try dsimp only
    repeat' first
      | with_reducible assumption
      | with_reducible exact Leaves.refl _ _
      | split
      | (with_reducible apply ih)
      | with_reducible apply leaves_applyRecord
      | (intro u x hu)
      | with_reducible exact Kept.refl
      | decide
      | (with_reducible apply Leaves.upd)
      | (with_reducible apply Kept.mem)
      | with_reducible exact Boundary.Like.refl _ _
      | with_reducible exact Sensing.Like.refl _ _
      | with_reducible exact Dict.Like.refl _ _
      | with_reducible exact NonVolatile.Like.refl _ _
      | with_reducible exact LifeCycle.Like.refl _ _
      | with_reducible exact Contexts.Like.refl _ _
      | with_reducible exact Steps.Like.refl _ _
      | with_reducible exact Mortar.Like.refl _ _
      | with_reducible exact Upkeep.Like.refl _ _

theorem leaves_applyRecords {W : List Part} {s₀ s : State} (hW : [.slots, .snapshot, .mem] ⊆ W) (hk : Leaves W s₀
    s) (kind fuel : Nat) (bs : Bytes) : Leaves W s₀ (applyRecords kind fuel bs s) :=
  hk.trans (leaves_applyRecords_own (Leaves.refl _ _) kind fuel bs) hW

theorem leaves_applyChunk_own {s₀ s : State} (hk : Leaves [.slots, .snapshot, .mem] s₀ s) (h : ChunkHead) (payload
    : Bytes) : Leaves [.slots, .snapshot, .mem] s₀ (applyChunk h payload s):= leaves_applyRecords (by decide) hk ..

theorem leaves_applyChunk {W : List Part} {s₀ s : State} (hW : [.slots, .snapshot, .mem] ⊆ W) (hk : Leaves W s₀ s)
    (h : ChunkHead) (payload : Bytes) : Leaves W s₀ (applyChunk h payload s) :=
  hk.trans (leaves_applyChunk_own (Leaves.refl _ _) h payload) hW

theorem leaves_rebuildNodes {W : List Part} {s₀ s : State} (hW : [.pages] ⊆ W) (hk : Leaves W s₀ s) : Leaves W s₀
    (rebuildNodes s) := by
  refine hk.trans ?_ hW
  unfold rebuildNodes
  try dsimp only
  repeat' first
    | with_reducible assumption
    | with_reducible exact Leaves.refl _ _
    | split
    | with_reducible apply leaves_count
    | (with_reducible apply leaves_foldl)
    | (intro u x hu)
    | with_reducible exact Kept.refl
    | decide
    | (with_reducible apply Leaves.upd)
    | (with_reducible apply Kept.mem)
    | with_reducible exact Boundary.Like.refl _ _
    | with_reducible exact Sensing.Like.refl _ _
    | with_reducible exact Dict.Like.refl _ _
    | with_reducible exact NonVolatile.Like.refl _ _
    | with_reducible exact LifeCycle.Like.refl _ _
    | with_reducible exact Contexts.Like.refl _ _
    | with_reducible exact Steps.Like.refl _ _
    | with_reducible exact Mortar.Like.refl _ _
    | with_reducible exact Upkeep.Like.refl _ _
    | (with_reducible apply Contexts.Like.mk)

theorem leaves_completeRestore {W : List Part} {s₀ s : State} (hW : [.events, .counters, .pages, .budgets,
    .numbers, .late, .snapshot, .restore, .out] ⊆ W) (hk : Leaves W s₀ s) (r : RestoreRun) (h : Bytes) : Leaves W
    s₀ (completeRestore r h s) := by
  refine hk.trans ?_ hW
  unfold completeRestore
  try dsimp only
  repeat' first
    | with_reducible assumption
    | with_reducible exact Leaves.refl _ _
    | split
    | with_reducible apply leaves_rebuildNodes
    | with_reducible apply leaves_broadcastDiscover
    | with_reducible apply leaves_raiseCount
    | (intro u x hu)
    | with_reducible exact Kept.refl
    | decide
    | (with_reducible apply Leaves.upd)
    | (with_reducible apply Kept.mem)
    | with_reducible exact Boundary.Like.refl _ _
    | with_reducible exact Sensing.Like.refl _ _
    | with_reducible exact Dict.Like.refl _ _
    | with_reducible exact NonVolatile.Like.refl _ _
    | with_reducible exact LifeCycle.Like.refl _ _
    | with_reducible exact Contexts.Like.refl _ _
    | with_reducible exact Steps.Like.refl _ _
    | with_reducible exact Mortar.Like.refl _ _
    | with_reducible exact Upkeep.Like.refl _ _
    | (with_reducible apply Dict.Like.mk)
    | (with_reducible apply Contexts.Like.mk)
    | (with_reducible apply Steps.Like.mk)

theorem leaves_discardChunk {W : List Part} {s₀ s : State} (hW : [.counters] ⊆ W) (hk : Leaves W s₀ s) : Leaves W
    s₀ (discardChunk s) := by
  refine hk.trans ?_ hW
  unfold discardChunk
  try dsimp only
  repeat' first
    | with_reducible assumption
    | with_reducible exact Leaves.refl _ _
    | split
    | with_reducible apply leaves_count
    | (intro u x hu)
    | with_reducible exact Kept.refl
    | decide
    | (with_reducible apply Leaves.upd)
    | (with_reducible apply Kept.mem)
    | with_reducible exact Boundary.Like.refl _ _
    | with_reducible exact Sensing.Like.refl _ _
    | with_reducible exact Dict.Like.refl _ _
    | with_reducible exact NonVolatile.Like.refl _ _
    | with_reducible exact LifeCycle.Like.refl _ _
    | with_reducible exact Contexts.Like.refl _ _
    | with_reducible exact Steps.Like.refl _ _
    | with_reducible exact Mortar.Like.refl _ _
    | with_reducible exact Upkeep.Like.refl _ _

theorem leaves_chunkDone {W : List Part} {s₀ s : State} (hW : [.restore] ⊆ W) (hk : Leaves W s₀ s) (r : RestoreRun)
    : Leaves W s₀ (chunkDone r s) := by
  refine hk.trans ?_ hW
  unfold chunkDone
  try dsimp only
  repeat' first
    | with_reducible assumption
    | with_reducible exact Leaves.refl _ _
    | split
    | (intro u x hu)
    | with_reducible exact Kept.refl
    | decide
    | (with_reducible apply Leaves.upd)
    | (with_reducible apply Kept.mem)
    | with_reducible exact Boundary.Like.refl _ _
    | with_reducible exact Sensing.Like.refl _ _
    | with_reducible exact Dict.Like.refl _ _
    | with_reducible exact NonVolatile.Like.refl _ _
    | with_reducible exact LifeCycle.Like.refl _ _
    | with_reducible exact Contexts.Like.refl _ _
    | with_reducible exact Steps.Like.refl _ _
    | with_reducible exact Mortar.Like.refl _ _
    | with_reducible exact Upkeep.Like.refl _ _

theorem leaves_endImage {W : List Part} {s₀ s : State} (hW : [.events, .counters, .pages, .budgets, .numbers,
    .late, .snapshot, .restore, .out] ⊆ W) (hk : Leaves W s₀ s) (r : RestoreRun) (payload : Bytes) (n : Nat) :
    Leaves W s₀ (endImage r payload n s) := by
  refine hk.trans ?_ hW
  unfold endImage
  try dsimp only
  repeat' first
    | with_reducible assumption
    | with_reducible exact Leaves.refl _ _
    | split
    | with_reducible apply leaves_completeRestore
    | with_reducible apply leaves_chunkDone
    | (intro u x hu)
    | with_reducible exact Kept.refl
    | decide
    | (with_reducible apply Leaves.upd)
    | (with_reducible apply Kept.mem)
    | with_reducible exact Boundary.Like.refl _ _
    | with_reducible exact Sensing.Like.refl _ _
    | with_reducible exact Dict.Like.refl _ _
    | with_reducible exact NonVolatile.Like.refl _ _
    | with_reducible exact LifeCycle.Like.refl _ _
    | with_reducible exact Contexts.Like.refl _ _
    | with_reducible exact Steps.Like.refl _ _
    | with_reducible exact Mortar.Like.refl _ _
    | with_reducible exact Upkeep.Like.refl _ _

theorem leaves_takeLastChunk {W : List Part} {s₀ s : State} (hW : [.events, .counters, .slots, .pages, .batches,
    .budgets, .starts, .numbers, .late, .snapshot, .restore, .out] ⊆ W) (hk : Leaves W s₀ s) (r : RestoreRun)
    (payload : Bytes) (n : Nat) : Leaves W s₀ (takeLastChunk r payload n s) := by
  refine hk.trans ?_ hW
  unfold takeLastChunk
  try dsimp only
  repeat' first
    | with_reducible assumption
    | with_reducible exact Leaves.refl _ _
    | split
    | with_reducible apply leaves_failRestore
    | with_reducible apply leaves_endImage
    | (intro u x hu)
    | with_reducible exact Kept.refl
    | decide
    | (with_reducible apply Leaves.upd)
    | (with_reducible apply Kept.mem)
    | with_reducible exact Boundary.Like.refl _ _
    | with_reducible exact Sensing.Like.refl _ _
    | with_reducible exact Dict.Like.refl _ _
    | with_reducible exact NonVolatile.Like.refl _ _
    | with_reducible exact LifeCycle.Like.refl _ _
    | with_reducible exact Contexts.Like.refl _ _
    | with_reducible exact Steps.Like.refl _ _
    | with_reducible exact Mortar.Like.refl _ _
    | with_reducible exact Upkeep.Like.refl _ _

theorem leaves_damagedChunk {W : List Part} {s₀ s : State} (hW : [.events, .counters, .slots, .pages, .batches,
    .budgets, .starts, .snapshot, .restore] ⊆ W) (hk : Leaves W s₀ s) (r : RestoreRun) : Leaves W s₀ (damagedChunk
    r s) := by
  refine hk.trans ?_ hW
  unfold damagedChunk
  try dsimp only
  repeat' first
    | with_reducible assumption
    | with_reducible exact Leaves.refl _ _
    | split
    | with_reducible apply leaves_failRestore
    | (intro u x hu)
    | with_reducible exact Kept.refl
    | decide
    | (with_reducible apply Leaves.upd)
    | (with_reducible apply Kept.mem)
    | with_reducible exact Boundary.Like.refl _ _
    | with_reducible exact Sensing.Like.refl _ _
    | with_reducible exact Dict.Like.refl _ _
    | with_reducible exact NonVolatile.Like.refl _ _
    | with_reducible exact LifeCycle.Like.refl _ _
    | with_reducible exact Contexts.Like.refl _ _
    | with_reducible exact Steps.Like.refl _ _
    | with_reducible exact Mortar.Like.refl _ _
    | with_reducible exact Upkeep.Like.refl _ _

theorem leaves_takeChunk {W : List Part} {s₀ s : State} (hW : [.events, .counters, .slots, .pages, .batches,
    .budgets, .starts, .numbers, .late, .snapshot, .restore, .mem, .out] ⊆ W) (hk : Leaves W s₀ s) (r : RestoreRun)
    (h : ChunkHead) (payload : Bytes) (e n : Nat) : Leaves W s₀ (takeChunk r h payload e n s) := by
  refine hk.trans ?_ hW
  unfold takeChunk
  try dsimp only
  repeat' first
    | with_reducible assumption
    | with_reducible exact Leaves.refl _ _
    | split
    | with_reducible apply leaves_discardChunk
    | with_reducible apply leaves_failRestore
    | with_reducible apply leaves_damagedChunk
    | with_reducible apply leaves_takeLastChunk
    | with_reducible apply leaves_chunkDone
    | with_reducible apply leaves_applyChunk
    | (intro u x hu)
    | with_reducible exact Kept.refl
    | decide
    | (with_reducible apply Leaves.upd)
    | (with_reducible apply Kept.mem)
    | with_reducible exact Boundary.Like.refl _ _
    | with_reducible exact Sensing.Like.refl _ _
    | with_reducible exact Dict.Like.refl _ _
    | with_reducible exact NonVolatile.Like.refl _ _
    | with_reducible exact LifeCycle.Like.refl _ _
    | with_reducible exact Contexts.Like.refl _ _
    | with_reducible exact Steps.Like.refl _ _
    | with_reducible exact Mortar.Like.refl _ _
    | with_reducible exact Upkeep.Like.refl _ _

theorem leaves_takeStatePage {W : List Part} {s₀ s : State} (hW : [.events, .counters, .slots, .pages, .batches,
    .budgets, .starts, .numbers, .peers, .late, .snapshot, .hold, .restore, .mem, .out] ⊆ W) (hk : Leaves W s₀ s)
    (src : Nat) (pl : Bytes) : Leaves W s₀ (takeStatePage src pl s) := by
  refine hk.trans ?_ hW
  unfold takeStatePage
  try dsimp only
  repeat' first
    | with_reducible assumption
    | with_reducible exact Leaves.refl _ _
    | split
    | with_reducible apply leaves_stale
    | with_reducible apply leaves_takeReceipt
    | with_reducible apply leaves_takeChunk
    | with_reducible apply leaves_discardChunk
    | with_reducible apply leaves_takeHold
    | (intro u x hu)
    | with_reducible exact Kept.refl
    | decide
    | (with_reducible apply Leaves.upd)
    | (with_reducible apply Kept.mem)
    | with_reducible exact Boundary.Like.refl _ _
    | with_reducible exact Sensing.Like.refl _ _
    | with_reducible exact Dict.Like.refl _ _
    | with_reducible exact NonVolatile.Like.refl _ _
    | with_reducible exact LifeCycle.Like.refl _ _
    | with_reducible exact Contexts.Like.refl _ _
    | with_reducible exact Steps.Like.refl _ _
    | with_reducible exact Mortar.Like.refl _ _
    | with_reducible exact Upkeep.Like.refl _ _

theorem leaves_restoreRead {W : List Part} {s₀ s : State} (hW : [.events, .counters, .slots, .pages, .batches,
    .budgets, .starts, .numbers, .late, .snapshot, .restore, .mem, .out] ⊆ W) (hk : Leaves W s₀ s) (r : RestoreRun)
    : Leaves W s₀ (restoreRead r s) := by
  refine hk.trans ?_ hW
  unfold restoreRead
  try dsimp only
  repeat' first
    | with_reducible assumption
    | with_reducible exact Leaves.refl _ _
    | split
    | with_reducible apply leaves_takeChunk
    | (intro u x hu)
    | with_reducible exact Kept.refl
    | decide
    | (with_reducible apply Leaves.upd)
    | (with_reducible apply Kept.mem)
    | with_reducible exact Boundary.Like.refl _ _
    | with_reducible exact Sensing.Like.refl _ _
    | with_reducible exact Dict.Like.refl _ _
    | with_reducible exact NonVolatile.Like.refl _ _
    | with_reducible exact LifeCycle.Like.refl _ _
    | with_reducible exact Contexts.Like.refl _ _
    | with_reducible exact Steps.Like.refl _ _
    | with_reducible exact Mortar.Like.refl _ _
    | with_reducible exact Upkeep.Like.refl _ _

theorem leaves_restoreChunkRead {W : List Part} {s₀ s : State} (hW : [.events, .counters, .slots, .pages, .batches,
    .budgets, .starts, .numbers, .late, .snapshot, .restore, .mem, .out] ⊆ W) (hk : Leaves W s₀ s) : Leaves W s₀
    (restoreChunkRead s) := by
  refine hk.trans ?_ hW
  unfold restoreChunkRead
  try dsimp only
  repeat' first
    | with_reducible assumption
    | with_reducible exact Leaves.refl _ _
    | split
    | with_reducible apply leaves_restoreRead
    | (intro u x hu)
    | with_reducible exact Kept.refl
    | decide
    | (with_reducible apply Leaves.upd)
    | (with_reducible apply Kept.mem)
    | with_reducible exact Boundary.Like.refl _ _
    | with_reducible exact Sensing.Like.refl _ _
    | with_reducible exact Dict.Like.refl _ _
    | with_reducible exact NonVolatile.Like.refl _ _
    | with_reducible exact LifeCycle.Like.refl _ _
    | with_reducible exact Contexts.Like.refl _ _
    | with_reducible exact Steps.Like.refl _ _
    | with_reducible exact Mortar.Like.refl _ _
    | with_reducible exact Upkeep.Like.refl _ _

theorem leaves_losePeer {W : List Part} {s₀ s : State} (hW : [.events, .counters, .slots, .pages, .batches,
    .budgets, .starts, .snapshot, .hold, .restore] ⊆ W) (hk : Leaves W s₀ s) (p : Nat) : Leaves W s₀ (losePeer p s)
    := by
  refine hk.trans ?_ hW
  unfold losePeer
  try dsimp only
  repeat' first
    | with_reducible assumption
    | with_reducible exact Leaves.refl _ _
    | split
    | with_reducible apply leaves_failSnapshot
    | with_reducible apply leaves_failRestore
    | (intro u x hu)
    | with_reducible exact Kept.refl
    | decide
    | (with_reducible apply Leaves.upd)
    | (with_reducible apply Kept.mem)
    | with_reducible exact Boundary.Like.refl _ _
    | with_reducible exact Sensing.Like.refl _ _
    | with_reducible exact Dict.Like.refl _ _
    | with_reducible exact NonVolatile.Like.refl _ _
    | with_reducible exact LifeCycle.Like.refl _ _
    | with_reducible exact Contexts.Like.refl _ _
    | with_reducible exact Steps.Like.refl _ _
    | with_reducible exact Mortar.Like.refl _ _
    | with_reducible exact Upkeep.Like.refl _ _

end Sys2Proof.Machine
end

