-- ==== Sys2Proof/Laws/LeavesCommit.lean ====
section
/-! SUPPORT. What the effects of Machine/Commit.lean leave as it was. -/

namespace Sys2Proof.Machine

theorem leaves_applyKeys {W : List Part} {s₀ s : State} (hW : [.applied] ⊆ W) (hk : Leaves W s₀ s) (keys : List
    Nat) : Leaves W s₀ (applyKeys keys s) := by
  refine hk.trans ?_ hW
  unfold applyKeys
  try dsimp only
  repeat' first
    | with_reducible assumption
    | with_reducible exact Leaves.refl _ _
    | split
    | (with_reducible apply leaves_foldl)
    | (intro u x hu)
    | with_reducible exact Kept.refl
    | decide
    | (with_reducible apply Leaves.upd)
    | (with_reducible apply Kept.mem)
    | with_reducible exact Boundary.Like.refl _ _
    | with_reducible exact Sensing.Like.refl _ _
    | with_reducible exact Dict.Like.refl _ _
    | with_reducible exact NonVolatile.Like.refl _ _
    | with_reducible exact LifeCycle.Like.refl _ _
    | with_reducible exact Contexts.Like.refl _ _
    | with_reducible exact Steps.Like.refl _ _
    | with_reducible exact Mortar.Like.refl _ _
    | with_reducible exact Upkeep.Like.refl _ _
    | (with_reducible apply Dict.Like.mk)

theorem leaves_restage {W : List Part} {s₀ s : State} (hW : [.staged] ⊆ W) (hk : Leaves W s₀ s) : Leaves W s₀
    (restage s) := by
  refine hk.trans ?_ hW
  unfold restage
  try dsimp only
  repeat' first
    | with_reducible assumption
    | with_reducible exact Leaves.refl _ _
    | split
    | (intro u x hu)
    | with_reducible exact Kept.refl
    | decide
    | (with_reducible apply Leaves.upd)
    | (with_reducible apply Kept.mem)
    | with_reducible exact Boundary.Like.refl _ _
    | with_reducible exact Sensing.Like.refl _ _
    | with_reducible exact Dict.Like.refl _ _
    | with_reducible exact NonVolatile.Like.refl _ _
    | with_reducible exact LifeCycle.Like.refl _ _
    | with_reducible exact Contexts.Like.refl _ _
    | with_reducible exact Steps.Like.refl _ _
    | with_reducible exact Mortar.Like.refl _ _
    | with_reducible exact Upkeep.Like.refl _ _
    | (with_reducible apply Dict.Like.mk)

theorem leaves_applyBond {W : List Part} {s₀ s : State} (hW : [.applied, .counters, .peers, .bond, .tree, .late,
    .out] ⊆ W) (hk : Leaves W s₀ s) : Leaves W s₀ (applyBond s) := by
  refine hk.trans ?_ hW
  unfold applyBond
  try dsimp only
  repeat' first
    | with_reducible assumption
    | with_reducible exact Leaves.refl _ _
    | split
    | with_reducible apply leaves_applyKeys
    | with_reducible apply leaves_announceCaps
    | with_reducible apply leaves_sendAll
    | (intro u x hu)
    | with_reducible exact Kept.refl
    | decide
    | (with_reducible apply Leaves.upd)
    | (with_reducible apply Kept.mem)
    | with_reducible exact Boundary.Like.refl _ _
    | with_reducible exact Sensing.Like.refl _ _
    | with_reducible exact Dict.Like.refl _ _
    | with_reducible exact NonVolatile.Like.refl _ _
    | with_reducible exact LifeCycle.Like.refl _ _
    | with_reducible exact Contexts.Like.refl _ _
    | with_reducible exact Steps.Like.refl _ _
    | with_reducible exact Mortar.Like.refl _ _
    | with_reducible exact Upkeep.Like.refl _ _
    | (with_reducible apply Mortar.Like.mk)

theorem leaves_applyTenants {W : List Part} {s₀ s : State} (hW : [.applied, .budgets] ⊆ W) (hk : Leaves W s₀ s) :
    Leaves W s₀ (applyTenants s) := by
  refine hk.trans ?_ hW
  unfold applyTenants
  try dsimp only
  repeat' first
    | with_reducible assumption
    | with_reducible exact Leaves.refl _ _
    | split
    | with_reducible apply leaves_applyKeys
    | (with_reducible apply leaves_foldl)
    | (intro u x hu)
    | with_reducible exact Kept.refl
    | decide
    | (with_reducible apply Leaves.upd)
    | (with_reducible apply Kept.mem)
    | with_reducible exact Boundary.Like.refl _ _
    | with_reducible exact Sensing.Like.refl _ _
    | with_reducible exact Dict.Like.refl _ _
    | with_reducible exact NonVolatile.Like.refl _ _
    | with_reducible exact LifeCycle.Like.refl _ _
    | with_reducible exact Contexts.Like.refl _ _
    | with_reducible exact Steps.Like.refl _ _
    | with_reducible exact Mortar.Like.refl _ _
    | with_reducible exact Upkeep.Like.refl _ _
    | (with_reducible apply Contexts.Like.mk)

theorem leaves_applyAreas {W : List Part} {s₀ s : State} (hW : [.events, .applied, .counters] ⊆ W) (hk : Leaves W
    s₀ s) : Leaves W s₀ (applyAreas s).1 := by
  refine hk.trans ?_ hW
  unfold applyAreas
  try dsimp only
  repeat' first
    | with_reducible assumption
    | with_reducible exact Leaves.refl _ _
    | split
    | with_reducible apply leaves_raise
    | with_reducible apply leaves_reject
    | with_reducible apply leaves_applyKeys
    | (intro u x hu)
    | with_reducible exact Kept.refl
    | decide
    | (with_reducible apply Leaves.upd)
    | (with_reducible apply Kept.mem)
    | with_reducible exact Boundary.Like.refl _ _
    | with_reducible exact Sensing.Like.refl _ _
    | with_reducible exact Dict.Like.refl _ _
    | with_reducible exact NonVolatile.Like.refl _ _
    | with_reducible exact LifeCycle.Like.refl _ _
    | with_reducible exact Contexts.Like.refl _ _
    | with_reducible exact Steps.Like.refl _ _
    | with_reducible exact Mortar.Like.refl _ _
    | with_reducible exact Upkeep.Like.refl _ _

theorem leaves_applyDirectory {W : List Part} {s₀ s : State} (hW : [.events, .applied, .counters, .directory] ⊆ W)
    (hk : Leaves W s₀ s) : Leaves W s₀ (applyDirectory s).1 := by
  refine hk.trans ?_ hW
  unfold applyDirectory
  try dsimp only
  repeat' first
    | with_reducible assumption
    | with_reducible exact Leaves.refl _ _
    | split
    | with_reducible apply leaves_raise
    | with_reducible apply leaves_applyKeys
    | (intro u x hu)
    | with_reducible exact Kept.refl
    | decide
    | (with_reducible apply Leaves.upd)
    | (with_reducible apply Kept.mem)
    | with_reducible exact Boundary.Like.refl _ _
    | with_reducible exact Sensing.Like.refl _ _
    | with_reducible exact Dict.Like.refl _ _
    | with_reducible exact NonVolatile.Like.refl _ _
    | with_reducible exact LifeCycle.Like.refl _ _
    | with_reducible exact Contexts.Like.refl _ _
    | with_reducible exact Steps.Like.refl _ _
    | with_reducible exact Mortar.Like.refl _ _
    | with_reducible exact Upkeep.Like.refl _ _
    | (with_reducible apply Contexts.Like.mk)

theorem leaves_applyMode {W : List Part} {s₀ s : State} (hW : [.events, .applied, .counters, .mode] ⊆ W) (hk :
    Leaves W s₀ s) : Leaves W s₀ (applyMode s) := by
  refine hk.trans ?_ hW
  unfold applyMode
  try dsimp only
  repeat' first
    | with_reducible assumption
    | with_reducible exact Leaves.refl _ _
    | split
    | with_reducible apply leaves_refuseMode
    | with_reducible apply leaves_applyKeys
    | (intro u x hu)
    | with_reducible exact Kept.refl
    | decide
    | (with_reducible apply Leaves.upd)
    | (with_reducible apply Kept.mem)
    | with_reducible exact Boundary.Like.refl _ _
    | with_reducible exact Sensing.Like.refl _ _
    | with_reducible exact Dict.Like.refl _ _
    | with_reducible exact NonVolatile.Like.refl _ _
    | with_reducible exact LifeCycle.Like.refl _ _
    | with_reducible exact Contexts.Like.refl _ _
    | with_reducible exact Steps.Like.refl _ _
    | with_reducible exact Mortar.Like.refl _ _
    | with_reducible exact Upkeep.Like.refl _ _
    | (with_reducible apply Upkeep.Like.mk)

theorem leaves_endCommit {W : List Part} {s₀ s : State} (hW : [.events, .staged, .counters, .commit] ⊆ W) (hk :
    Leaves W s₀ s) (state : Nat) : Leaves W s₀ (endCommit state s) := by
  refine hk.trans ?_ hW
  unfold endCommit
  try dsimp only
  repeat' first
    | with_reducible assumption
    | with_reducible exact Leaves.refl _ _
    | split
    | with_reducible apply leaves_restage
    | with_reducible apply leaves_raise
    | (intro u x hu)
    | with_reducible exact Kept.refl
    | decide
    | (with_reducible apply Leaves.upd)
    | (with_reducible apply Kept.mem)
    | with_reducible exact Boundary.Like.refl _ _
    | with_reducible exact Sensing.Like.refl _ _
    | with_reducible exact Dict.Like.refl _ _
    | with_reducible exact NonVolatile.Like.refl _ _
    | with_reducible exact LifeCycle.Like.refl _ _
    | with_reducible exact Contexts.Like.refl _ _
    | with_reducible exact Steps.Like.refl _ _
    | with_reducible exact Mortar.Like.refl _ _
    | with_reducible exact Upkeep.Like.refl _ _
    | (with_reducible apply Dict.Like.mk)

theorem leaves_setBondReason {W : List Part} {s₀ s : State} (hW : [.bond] ⊆ W) (hk : Leaves W s₀ s) (reason : Nat)
    : Leaves W s₀ (setBondReason reason s) := by
  refine hk.trans ?_ hW
  unfold setBondReason
  try dsimp only
  repeat' first
    | with_reducible assumption
    | with_reducible exact Leaves.refl _ _
    | split
    | (intro u x hu)
    | with_reducible exact Kept.refl
    | decide
    | (with_reducible apply Leaves.upd)
    | (with_reducible apply Kept.mem)
    | with_reducible exact Boundary.Like.refl _ _
    | with_reducible exact Sensing.Like.refl _ _
    | with_reducible exact Dict.Like.refl _ _
    | with_reducible exact NonVolatile.Like.refl _ _
    | with_reducible exact LifeCycle.Like.refl _ _
    | with_reducible exact Contexts.Like.refl _ _
    | with_reducible exact Steps.Like.refl _ _
    | with_reducible exact Mortar.Like.refl _ _
    | with_reducible exact Upkeep.Like.refl _ _
    | (with_reducible apply Mortar.Like.mk)

theorem leaves_applySets {W : List Part} {s₀ s : State} (hW : [.events, .applied, .staged, .counters, .commit,
    .budgets, .directory, .peers, .bond, .tree, .late, .mode, .out] ⊆ W) (hk : Leaves W s₀ s) (changed : Bool) :
    Leaves W s₀ (applySets changed s) := by
  refine hk.trans ?_ hW
  unfold applySets
  try dsimp only
  repeat' first
    | with_reducible assumption
    | with_reducible exact Leaves.refl _ _
    | split
    | with_reducible apply leaves_applyTenants
    | with_reducible apply leaves_applyBond
    | with_reducible apply leaves_applyAreas
    | with_reducible apply leaves_applyKeys
    | with_reducible apply leaves_applyDirectory
    | with_reducible apply leaves_endCommit
    | with_reducible apply leaves_applyMode
    | (intro u x hu)
    | with_reducible exact Kept.refl
    | decide
    | (with_reducible apply Leaves.upd)
    | (with_reducible apply Kept.mem)
    | with_reducible exact Boundary.Like.refl _ _
    | with_reducible exact Sensing.Like.refl _ _
    | with_reducible exact Dict.Like.refl _ _
    | with_reducible exact NonVolatile.Like.refl _ _
    | with_reducible exact LifeCycle.Like.refl _ _
    | with_reducible exact Contexts.Like.refl _ _
    | with_reducible exact Steps.Like.refl _ _
    | with_reducible exact Mortar.Like.refl _ _
    | with_reducible exact Upkeep.Like.refl _ _

theorem leaves_handleCommit {W : List Part} {s₀ s : State} (hW : [.events, .applied, .staged, .counters, .commit,
    .budgets, .directory, .peers, .bond, .tree, .late, .mode, .out] ⊆ W) (hk : Leaves W s₀ s) : Leaves W s₀
    (handleCommit s) := by
  refine hk.trans ?_ hW
  unfold handleCommit
  try dsimp only
  repeat' first
    | with_reducible assumption
    | with_reducible exact Leaves.refl _ _
    | split
    | with_reducible apply leaves_setBondReason
    | with_reducible apply leaves_endCommit
    | with_reducible apply leaves_raiseArgs
    | with_reducible apply leaves_applySets
    | (intro u x hu)
    | with_reducible exact Kept.refl
    | decide
    | (with_reducible apply Leaves.upd)
    | (with_reducible apply Kept.mem)
    | with_reducible exact Boundary.Like.refl _ _
    | with_reducible exact Sensing.Like.refl _ _
    | with_reducible exact Dict.Like.refl _ _
    | with_reducible exact NonVolatile.Like.refl _ _
    | with_reducible exact LifeCycle.Like.refl _ _
    | with_reducible exact Contexts.Like.refl _ _
    | with_reducible exact Steps.Like.refl _ _
    | with_reducible exact Mortar.Like.refl _ _
    | with_reducible exact Upkeep.Like.refl _ _

theorem leaves_actionFive {W : List Part} {s₀ s : State} (hW : [.events, .applied, .staged, .counters, .commit,
    .budgets, .directory, .peers, .bond, .tree, .late, .mode, .out] ⊆ W) (hk : Leaves W s₀ s) (commits : Bool) :
    Leaves W s₀ (actionFive commits s) := by
  refine hk.trans ?_ hW
  unfold actionFive
  try dsimp only
  repeat' first
    | with_reducible assumption
    | with_reducible exact Leaves.refl _ _
    | split
    | with_reducible apply leaves_refuseMode
    | with_reducible apply leaves_handleCommit
    | (intro u x hu)
    | with_reducible exact Kept.refl
    | decide
    | (with_reducible apply Leaves.upd)
    | (with_reducible apply Kept.mem)
    | with_reducible exact Boundary.Like.refl _ _
    | with_reducible exact Sensing.Like.refl _ _
    | with_reducible exact Dict.Like.refl _ _
    | with_reducible exact NonVolatile.Like.refl _ _
    | with_reducible exact LifeCycle.Like.refl _ _
    | with_reducible exact Contexts.Like.refl _ _
    | with_reducible exact Steps.Like.refl _ _
    | with_reducible exact Mortar.Like.refl _ _
    | with_reducible exact Upkeep.Like.refl _ _
    | (with_reducible apply Upkeep.Like.mk)

theorem leaves_idleCommit {W : List Part} {s₀ s : State} (hW : [.power, .events, .applied, .staged, .counters,
    .commit, .heads, .budgets, .directory, .peers, .bond, .tree, .late, .mode, .out] ⊆ W) (hk : Leaves W s₀ s) :
    Leaves W s₀ (idleCommit s) := by
  refine hk.trans ?_ hW
  unfold idleCommit
  try dsimp only
  repeat' first
    | with_reducible assumption
    | with_reducible exact Leaves.refl _ _
    | split
    | with_reducible apply leaves_startHeldSwaps
    | with_reducible apply leaves_actionFive
    | with_reducible apply leaves_loadFinished
    | (intro u x hu)
    | with_reducible exact Kept.refl
    | decide
    | (with_reducible apply Leaves.upd)
    | (with_reducible apply Kept.mem)
    | with_reducible exact Boundary.Like.refl _ _
    | with_reducible exact Sensing.Like.refl _ _
    | with_reducible exact Dict.Like.refl _ _
    | with_reducible exact NonVolatile.Like.refl _ _
    | with_reducible exact LifeCycle.Like.refl _ _
    | with_reducible exact Contexts.Like.refl _ _
    | with_reducible exact Steps.Like.refl _ _
    | with_reducible exact Mortar.Like.refl _ _
    | with_reducible exact Upkeep.Like.refl _ _

end Sys2Proof.Machine
end

