-- ==== Sys2Proof/Laws/LeavesBoundary.lean ====
section
/-! SUPPORT. What the effects of Machine/Boundary.lean leave as it was. -/

namespace Sys2Proof.Machine

theorem leaves_completeStep {W : List Part} {s₀ s : State} (hW : [.events, .counters, .lastStep] ⊆ W) (hk : Leaves
    W s₀ s) (r : StepRun) : Leaves W s₀ (completeStep r s) := by
  refine hk.trans ?_ hW
  unfold completeStep
  try dsimp only
  repeat' first
    | with_reducible assumption
    | with_reducible exact Leaves.refl _ _
    | split
    | with_reducible apply leaves_raiseArgs
    | (intro u x hu)
    | with_reducible exact Kept.refl
    | decide
    | (with_reducible apply Leaves.upd)
    | (with_reducible apply Kept.mem)
    | with_reducible exact Boundary.Like.refl _ _
    | with_reducible exact Sensing.Like.refl _ _
    | with_reducible exact Dict.Like.refl _ _
    | with_reducible exact NonVolatile.Like.refl _ _
    | with_reducible exact LifeCycle.Like.refl _ _
    | with_reducible exact Contexts.Like.refl _ _
    | with_reducible exact Steps.Like.refl _ _
    | with_reducible exact Mortar.Like.refl _ _
    | with_reducible exact Upkeep.Like.refl _ _
    | (with_reducible apply Steps.Like.mk)

theorem leaves_appendRow {W : List Part} {s₀ s : State} (hW : [.events, .counters, .slots, .pages, .snapshot] ⊆ W)
    (hk : Leaves W s₀ s) (number : Nat) (slot : Nat) (tokens : List Nat) : Leaves W s₀ (appendRow number slot
    tokens s) := by
  refine hk.trans ?_ hW
  unfold appendRow
  try dsimp only
  repeat' first
    | with_reducible assumption
    | with_reducible exact Leaves.refl _ _
    | split
    | with_reducible apply leaves_appendToken
    | with_reducible apply leaves_setContext
    | (with_reducible apply leaves_foldl)
    | (intro u x hu)
    | with_reducible exact Kept.refl
    | decide
    | (with_reducible apply Leaves.upd)
    | (with_reducible apply Kept.mem)
    | with_reducible exact Boundary.Like.refl _ _
    | with_reducible exact Sensing.Like.refl _ _
    | with_reducible exact Dict.Like.refl _ _
    | with_reducible exact NonVolatile.Like.refl _ _
    | with_reducible exact LifeCycle.Like.refl _ _
    | with_reducible exact Contexts.Like.refl _ _
    | with_reducible exact Steps.Like.refl _ _
    | with_reducible exact Mortar.Like.refl _ _
    | with_reducible exact Upkeep.Like.refl _ _

theorem leaves_charge {W : List Part} {s₀ s : State} (hW : [.counters, .budgets] ⊆ W) (hk : Leaves W s₀ s) (tenant
    n : Nat) : Leaves W s₀ (charge tenant n s) := by
  refine hk.trans ?_ hW
  unfold charge
  try dsimp only
  repeat' first
    | with_reducible assumption
    | with_reducible exact Leaves.refl _ _
    | split
    | with_reducible apply leaves_count
    | (intro u x hu)
    | with_reducible exact Kept.refl
    | decide
    | (with_reducible apply Leaves.upd)
    | (with_reducible apply Kept.mem)
    | with_reducible exact Boundary.Like.refl _ _
    | with_reducible exact Sensing.Like.refl _ _
    | with_reducible exact Dict.Like.refl _ _
    | with_reducible exact NonVolatile.Like.refl _ _
    | with_reducible exact LifeCycle.Like.refl _ _
    | with_reducible exact Contexts.Like.refl _ _
    | with_reducible exact Steps.Like.refl _ _
    | with_reducible exact Mortar.Like.refl _ _
    | with_reducible exact Upkeep.Like.refl _ _
    | (with_reducible apply Contexts.Like.mk)

theorem leaves_releaseReserved {W : List Part} {s₀ s : State} (hW : [.slots, .pages, .budgets] ⊆ W) (hk : Leaves W
    s₀ s) : Leaves W s₀ (releaseReserved s) := by
  refine hk.trans ?_ hW
  unfold releaseReserved
  try dsimp only
  repeat' first
    | with_reducible assumption
    | with_reducible exact Leaves.refl _ _
    | split
    | (intro u x hu)
    | with_reducible exact Kept.refl
    | decide
    | (with_reducible apply Leaves.upd)
    | (with_reducible apply Kept.mem)
    | with_reducible exact Boundary.Like.refl _ _
    | with_reducible exact Sensing.Like.refl _ _
    | with_reducible exact Dict.Like.refl _ _
    | with_reducible exact NonVolatile.Like.refl _ _
    | with_reducible exact LifeCycle.Like.refl _ _
    | with_reducible exact Contexts.Like.refl _ _
    | with_reducible exact Steps.Like.refl _ _
    | with_reducible exact Mortar.Like.refl _ _
    | with_reducible exact Upkeep.Like.refl _ _
    | (with_reducible apply Contexts.Like.mk)

theorem leaves_resolveRows {W : List Part} {s₀ s : State} (hW : [.events, .counters, .slots, .pages, .budgets,
    .snapshot] ⊆ W) (hk : Leaves W s₀ s) (r : StepRun) : Leaves W s₀ (resolveRows r s) := by
  refine hk.trans ?_ hW
  unfold resolveRows
  try dsimp only
  repeat' first
    | with_reducible assumption
    | with_reducible exact Leaves.refl _ _
    | split
    | with_reducible apply leaves_appendRow
    | with_reducible apply leaves_charge
    | with_reducible apply leaves_count
    | with_reducible apply leaves_releaseReserved
    | (with_reducible apply leaves_foldl)
    | (intro u x hu)
    | with_reducible exact Kept.refl
    | decide
    | (with_reducible apply Leaves.upd)
    | (with_reducible apply Kept.mem)
    | with_reducible exact Boundary.Like.refl _ _
    | with_reducible exact Sensing.Like.refl _ _
    | with_reducible exact Dict.Like.refl _ _
    | with_reducible exact NonVolatile.Like.refl _ _
    | with_reducible exact LifeCycle.Like.refl _ _
    | with_reducible exact Contexts.Like.refl _ _
    | with_reducible exact Steps.Like.refl _ _
    | with_reducible exact Mortar.Like.refl _ _
    | with_reducible exact Upkeep.Like.refl _ _

theorem leaves_actionFour {W : List Part} {s₀ s : State} (hW : [.events, .counters, .heads] ⊆ W) (hk : Leaves W s₀
    s) : Leaves W s₀ (actionFour s) := by
  refine hk.trans ?_ hW
  unfold actionFour
  try dsimp only
  repeat' first
    | with_reducible assumption
    | with_reducible exact Leaves.refl _ _
    | split
    | with_reducible apply leaves_loadFinished
    | with_reducible apply leaves_failSlots
    | (intro u x hu)
    | with_reducible exact Kept.refl
    | decide
    | (with_reducible apply Leaves.upd)
    | (with_reducible apply Kept.mem)
    | with_reducible exact Boundary.Like.refl _ _
    | with_reducible exact Sensing.Like.refl _ _
    | with_reducible exact Dict.Like.refl _ _
    | with_reducible exact NonVolatile.Like.refl _ _
    | with_reducible exact LifeCycle.Like.refl _ _
    | with_reducible exact Contexts.Like.refl _ _
    | with_reducible exact Steps.Like.refl _ _
    | with_reducible exact Mortar.Like.refl _ _
    | with_reducible exact Upkeep.Like.refl _ _

theorem leaves_settle {W : List Part} {s₀ s : State} (hW : [.power, .heat, .events, .applied, .counters, .heads,
    .fseq, .slots, .pages, .batches, .budgets, .starts, .lastStep, .peers, .tree, .late, .snapshot, .restore,
    .tests, .mode, .out] ⊆ W) (hk : Leaves W s₀ s) : Leaves W s₀ (settle s) := by
  refine hk.trans ?_ hW
  unfold settle
  try dsimp only
  repeat' first
    | with_reducible assumption
    | with_reducible exact Leaves.refl _ _
    | split
    | with_reducible apply leaves_reloadMicro
    | with_reducible apply leaves_reorderTree
    | with_reducible apply leaves_holdForHeat
    | with_reducible apply leaves_capture
    | with_reducible apply leaves_startRestore
    | with_reducible apply leaves_startWaitingTests
    | (intro u x hu)
    | with_reducible exact Kept.refl
    | decide
    | (with_reducible apply Leaves.upd)
    | (with_reducible apply Kept.mem)
    | with_reducible exact Boundary.Like.refl _ _
    | with_reducible exact Sensing.Like.refl _ _
    | with_reducible exact Dict.Like.refl _ _
    | with_reducible exact NonVolatile.Like.refl _ _
    | with_reducible exact LifeCycle.Like.refl _ _
    | with_reducible exact Contexts.Like.refl _ _
    | with_reducible exact Steps.Like.refl _ _
    | with_reducible exact Mortar.Like.refl _ _
    | with_reducible exact Upkeep.Like.refl _ _

theorem leaves_actionSeven {W : List Part} {s₀ s : State} (hW : [.power, .heat, .events, .applied, .counters,
    .heads, .lanes, .fseq, .slots, .pages, .batches, .budgets, .run, .starts, .lastStep, .peers, .tree, .late,
    .snapshot, .restore, .tests, .mode, .out] ⊆ W) (hk : Leaves W s₀ s) : Leaves W s₀ (actionSeven s) := by
  refine hk.trans ?_ hW
  unfold actionSeven
  try dsimp only
  repeat' first
    | with_reducible assumption
    | with_reducible exact Leaves.refl _ _
    | split
    | with_reducible apply leaves_clearColumns
    | with_reducible apply leaves_loadFinished
    | with_reducible apply leaves_beginLatched
    | with_reducible apply leaves_settle
    | (intro u x hu)
    | with_reducible exact Kept.refl
    | decide
    | (with_reducible apply Leaves.upd)
    | (with_reducible apply Kept.mem)
    | with_reducible exact Boundary.Like.refl _ _
    | with_reducible exact Sensing.Like.refl _ _
    | with_reducible exact Dict.Like.refl _ _
    | with_reducible exact NonVolatile.Like.refl _ _
    | with_reducible exact LifeCycle.Like.refl _ _
    | with_reducible exact Contexts.Like.refl _ _
    | with_reducible exact Steps.Like.refl _ _
    | with_reducible exact Mortar.Like.refl _ _
    | with_reducible exact Upkeep.Like.refl _ _
    | (with_reducible apply Steps.Like.mk)

theorem leaves_runBoundary {W : List Part} {s₀ s : State} (hW : [.power, .heat, .events, .applied, .staged,
    .counters, .commit, .heads, .lanes, .fseq, .slots, .pages, .batches, .budgets, .directory, .run, .starts,
    .lastStep, .peers, .bond, .tree, .late, .snapshot, .restore, .tests, .mode, .mem, .out, .fresh] ⊆ W) (hk :
    Leaves W s₀ s) (r : StepRun) : Leaves W s₀ (runBoundary r s) := by
  refine hk.trans ?_ hW
  unfold runBoundary
  try dsimp only
  repeat' first
    | with_reducible assumption
    | with_reducible exact Leaves.refl _ _
    | split
    | with_reducible apply leaves_actionSeven
    | with_reducible apply leaves_startHeldSwaps
    | with_reducible apply leaves_actionFive
    | with_reducible apply leaves_actionFour
    | with_reducible apply leaves_applyCancels
    | with_reducible apply leaves_resolveRows
    | with_reducible apply leaves_completeStep
    | (intro u x hu)
    | with_reducible exact Kept.refl
    | decide
    | (with_reducible apply Leaves.upd)
    | (with_reducible apply Kept.mem)
    | with_reducible exact Boundary.Like.refl _ _
    | with_reducible exact Sensing.Like.refl _ _
    | with_reducible exact Dict.Like.refl _ _
    | with_reducible exact NonVolatile.Like.refl _ _
    | with_reducible exact LifeCycle.Like.refl _ _
    | with_reducible exact Contexts.Like.refl _ _
    | with_reducible exact Steps.Like.refl _ _
    | with_reducible exact Mortar.Like.refl _ _
    | with_reducible exact Upkeep.Like.refl _ _

theorem leaves_boundaryNow {W : List Part} {s₀ s : State} (hW : [.power, .heat, .events, .applied, .staged,
    .counters, .commit, .heads, .lanes, .fseq, .slots, .pages, .batches, .budgets, .directory, .run, .starts,
    .lastStep, .peers, .bond, .tree, .late, .snapshot, .restore, .tests, .mode, .mem, .out, .fresh] ⊆ W) (hk :
    Leaves W s₀ s) : Leaves W s₀ (boundaryNow s) := by
  refine hk.trans ?_ hW
  unfold boundaryNow
  try dsimp only
  repeat' first
    | with_reducible assumption
    | with_reducible exact Leaves.refl _ _
    | split
    | with_reducible apply leaves_runBoundary
    | (intro u x hu)
    | with_reducible exact Kept.refl
    | decide
    | (with_reducible apply Leaves.upd)
    | (with_reducible apply Kept.mem)
    | with_reducible exact Boundary.Like.refl _ _
    | with_reducible exact Sensing.Like.refl _ _
    | with_reducible exact Dict.Like.refl _ _
    | with_reducible exact NonVolatile.Like.refl _ _
    | with_reducible exact LifeCycle.Like.refl _ _
    | with_reducible exact Contexts.Like.refl _ _
    | with_reducible exact Steps.Like.refl _ _
    | with_reducible exact Mortar.Like.refl _ _
    | with_reducible exact Upkeep.Like.refl _ _

end Sys2Proof.Machine
end

