-- ==== Sys2Proof/Laws/KeepsLaneReset.lean ====
section
/-! SUPPORT. The effects of Machine/LaneReset.lean keep the queue and the invariant. -/

namespace Sys2Proof.Machine

theorem keeps_closeForReset {s₀ s : State} (hk : Keeps s₀ s) : Keeps s₀ (closeForReset s) := by
  refine hk.trans ?_
  unfold closeForReset
  try dsimp only
  repeat' first
    | with_reducible assumption
    | with_reducible exact Keeps.refl _
    | split
    | with_reducible apply Keeps.inert
    | (intro u x hu)
    | with_reducible apply Keeps.active
    | exact fun i => sound_power i.present rfl
    | exact fun i => have k := sound_return i.present; sound_absent rfl k rfl
    | exact fun i => i.present
    | exact fun i => i.temps
    | exact fun i => i.queue
    | exact fun i => i.copies
    | exact fun i => i.record
    | exact fun i => i.heads
    | exact fun i => i.memory

theorem keeps_breakInstall {s₀ s : State} (hk : Keeps s₀ s) : Keeps s₀ (breakInstall s) := by
  refine hk.trans ?_
  unfold breakInstall
  try dsimp only
  repeat' first
    | with_reducible assumption
    | with_reducible exact Keeps.refl _
    | split
    | with_reducible apply keeps_free16
    | with_reducible apply Keeps.inert
    | (intro u x hu)
    | with_reducible apply Keeps.active
    | exact fun i => sound_power i.present rfl
    | exact fun i => have k := sound_return i.present; sound_absent rfl k rfl
    | exact fun i => i.present
    | exact fun i => i.temps
    | exact fun i => i.queue
    | exact fun i => i.copies
    | exact fun i => i.record
    | exact fun i => i.heads
    | exact fun i => i.memory

theorem keeps_dropLoading {s₀ s : State} (hk : Keeps s₀ s) : Keeps s₀ (dropLoading s) := by
  refine hk.trans ?_
  unfold dropLoading
  try dsimp only
  repeat' first
    | with_reducible assumption
    | with_reducible exact Keeps.refl _
    | split
    | with_reducible apply keeps_beginMarch
    | with_reducible apply keeps_emptySlot
    | (with_reducible apply keeps_foldl)
    | with_reducible apply Keeps.inert
    | (intro u x hu)
    | with_reducible apply Keeps.active
    | exact fun i => sound_power i.present rfl
    | exact fun i => have k := sound_return i.present; sound_absent rfl k rfl
    | exact fun i => i.present
    | exact fun i => i.temps
    | exact fun i => i.queue
    | exact fun i => i.copies
    | exact fun i => i.record
    | exact fun i => i.heads
    | exact fun i => i.memory

theorem keeps_dropLink {s₀ s : State} (hk : Keeps s₀ s) : Keeps s₀ (dropLink s) := by
  refine hk.trans ?_
  unfold dropLink
  try dsimp only
  repeat' first
    | with_reducible assumption
    | with_reducible exact Keeps.refl _
    | split
    | with_reducible apply Keeps.inert
    | (intro u x hu)
    | with_reducible apply Keeps.active
    | exact fun i => sound_power i.present rfl
    | exact fun i => have k := sound_return i.present; sound_absent rfl k rfl
    | exact fun i => i.present
    | exact fun i => i.temps
    | exact fun i => i.queue
    | exact fun i => i.copies
    | exact fun i => i.record
    | exact fun i => i.heads
    | exact fun i => i.memory

theorem keeps_abandonStep {s₀ s : State} (hk : Keeps s₀ s) : Keeps s₀ (abandonStep s) := by
  refine hk.trans ?_
  unfold abandonStep
  try dsimp only
  repeat' first
    | with_reducible assumption
    | with_reducible exact Keeps.refl _
    | split
    | with_reducible apply keeps_clearLanes
    | with_reducible apply Keeps.inert
    | (intro u x hu)
    | with_reducible apply Keeps.active
    | exact fun i => sound_power i.present rfl
    | exact fun i => have k := sound_return i.present; sound_absent rfl k rfl
    | exact fun i => i.present
    | exact fun i => i.temps
    | exact fun i => i.queue
    | exact fun i => i.copies
    | exact fun i => i.record
    | exact fun i => i.heads
    | exact fun i => i.memory

theorem keeps_noteReturn {s₀ s : State} (hk : Keeps s₀ s) (hp : (s.sensing.power != .off) = true) :
    Keeps s₀ (noteReturn s) := by
  unfold noteReturn
  split
  · rename_i h
    refine hk.trans ⟨rfl, fun i => ⟨i.memory, i.heads, i.temps, i.queue, ?_, i.record, i.copies⟩⟩
    have k := i.present
    have hb : (s.laneBack != .off) = true := by
      unfold State.laneBack
      split
      · rfl
      · exact hp
    simp only [Boundary.sound, h, hp, hb, Bool.and_true, Bool.or_true, Bool.and_eq_true] at k ⊢
    exact k.1
  · exact hk

theorem power_wake (s : State) : (wake s).sensing.power = s.sensing.power := by
  unfold wake
  split
  · rfl
  · split <;> rfl

theorem power_noteReturn (s : State) : (noteReturn s).sensing.power = s.sensing.power := by
  unfold noteReturn
  split <;> rfl

theorem power_abandonStep (s : State) : (abandonStep s).sensing.power = s.sensing.power := by
  unfold abandonStep
  split <;> rfl

theorem keeps_startLaneReset {s₀ s : State} (hk : Keeps s₀ s) (hp : (s.sensing.power != .off) = true) :
    Keeps s₀ (startLaneReset s) := by
  have h0 : ((slowEdge s).sensing.power != .off) = true := by rw [power_slowEdge]; exact hp
  have h1 := keeps_abandonStep (keeps_wake (keeps_noteReturn (keeps_slowEdge hk) h0))
  have e : ((abandonStep (wake (noteReturn (slowEdge s)))).sensing.power != .off) = true := by
    rw [power_abandonStep, power_wake, power_noteReturn]
    exact h0
  rw [startLaneReset]
  generalize abandonStep (wake (noteReturn (slowEdge s))) = u at h1 e ⊢
  have h2 : Keeps s₀ { u with boundary := { u.boundary with unitPresent := false, phase := .draining } } := by
    refine h1.trans ⟨rfl, fun i => ⟨i.memory, i.heads, i.temps, i.queue, ?_, i.record, i.copies⟩⟩
    have k := sound_return i.present
    exact sound_powered rfl k e
  have h3 := keeps_failRestore (keeps_failSnapshot (keeps_clearStarts h2) 5) 10
  have h4 := keeps_clearLanes (keeps_breakInstall (keeps_dropLink (keeps_dropLoading (keeps_abandonCopies
    (keeps_closeForReset h3)))))
  exact h4.inert ..

theorem powered_of_laneResettable {s : State} (h : s.laneResettable = true) : (s.sensing.power != .off) = true := by
  simp only [State.laneResettable, State.managementUp, Bool.and_eq_true] at h
  exact h.1.1.2

theorem keeps_laneReset {s₀ s : State} (hk : Keeps s₀ s) : Keeps s₀ (laneReset s) := by
  unfold laneReset
  split
  · exact keeps_startLaneReset hk (powered_of_laneResettable (by assumption))
  · exact hk

theorem keeps_laneResetEffect {s₀ s : State} (hk : Keeps s₀ s) : Keeps s₀ (laneResetEffect s) := by
  unfold laneResetEffect
  split
  · exact keeps_startLaneReset hk (powered_of_laneResettable (by assumption))
  · exact keeps_reject hk

theorem keeps_beginLaneState {s₀ s : State} (hk : Keeps s₀ s) (hp : s.boundary.phase = .draining) :
    Keeps s₀ (beginLaneState s) := by
  refine hk.trans ⟨rfl, fun i => ⟨i.memory, i.heads, i.temps, i.queue, ?_, i.record, i.copies⟩⟩
  have h := i.present
  have h2 := sound_return h
  have h3 := sound_lane h (by rw [hp]; rfl)
  refine sound_powered ?_ h2 h3
  simp only [Boundary.sound, hp, Bool.and_eq_true, Bool.or_eq_true] at h
  cases hu : s.boundary.unitPresent
  · exact hu
  · rw [hu] at h
    simp at h

theorem keeps_risePresent {s₀ s : State} (hk : Keeps s₀ s) (hp : s.Inv → (s.sensing.power != .off) = true) :
    Keeps s₀ (risePresent s) := by
  refine keeps_broadcastDiscover (hk.trans ⟨rfl, fun i =>
    ⟨i.memory, i.heads, i.temps, i.queue, ?_, i.record, i.copies⟩⟩)
  have h1 := hp i
  have h2 := (sound_return i.present)
  simp only [Boundary.sound, h1, h2, Bool.not_not, beq_self_eq_true, Bool.true_and, Bool.and_true, Bool.or_true]
  cases s.boundary.unitDisable <;> rfl

theorem keeps_returnDown {s₀ s : State} (hk : Keeps s₀ s) : Keeps s₀ (returnDown s) := by
  refine hk.trans ?_
  unfold returnDown
  try dsimp only
  repeat' first
    | with_reducible assumption
    | with_reducible exact Keeps.refl _
    | split
    | with_reducible apply keeps_enterDormant
    | with_reducible apply keeps_enterStandby
    | with_reducible apply Keeps.inert
    | (intro u x hu)
    | with_reducible apply Keeps.active
    | exact fun i => sound_power i.present rfl
    | exact fun i => have k := sound_return i.present; sound_absent rfl k rfl
    | exact fun i => i.present
    | exact fun i => i.temps
    | exact fun i => i.queue
    | exact fun i => i.copies
    | exact fun i => i.record
    | exact fun i => i.heads
    | exact fun i => i.memory

/-- Actions 2 to 6 at the end of a lane reset, the memory as it was. -/
theorem keeps_laneActions {s₀ s : State} (hk : Keeps s₀ s) : Keeps s₀ (laneActions s) := by
  have h := keeps_applyCancels (keeps_releaseReserved hk)
  refine keeps_startHeldSwaps (keeps_actionFive (keeps_actionFour ?_) true)
  exact ⟨h.pending, fun i => have j := h.inv i
    ⟨(hk.inv i).memory, j.heads, j.temps, j.queue, j.present, j.record, j.copies⟩⟩

/-- Actions 2 to 6 leave the reset under way as it was. -/
theorem phase_laneActions (s : State) : (laneActions s).boundary.phase = s.boundary.phase := by
  have k : Leaves [.power, .events, .counters, .slots, .pages, .batches, .budgets, .snapshot, .mem, .fresh] s (applyCancels (releaseReserved s)) :=
    leaves_applyCancels (by decide) (leaves_releaseReserved (by decide) (Leaves.refl _ s))
  have h (u : State) : Leaves [.power, .events, .applied, .staged, .counters, .commit, .heads, .budgets, .directory, .peers, .bond,
      .tree, .late, .mode, .out] u (startHeldSwaps (actionFive true (actionFour u))) :=
    leaves_startHeldSwaps (by decide) (leaves_actionFive (by decide) (leaves_actionFour (by decide) (Leaves.refl _ u)) true)
  rw [laneActions]
  generalize applyCancels (releaseReserved s) = x at k ⊢
  have e := ((h { x with mem := s.mem }).same .reset (by decide)).1
  rw [e]
  exact (k.same .reset (by decide)).1

/-- The lane reset's actions, the unit back in the power state it came from. -/
theorem keeps_endLaneReset {s₀ s : State} (hk : Keeps s₀ s) (hp : s.boundary.phase = .laneState) :
    Keeps s₀ (endLaneReset s) := by
  have hw := keeps_applyCancels (keeps_releaseReserved hk)
  have h1 := keeps_laneActions hk
  have e1 := (phase_laneActions s).trans hp
  rw [endLaneReset]
  generalize laneActions s = t at h1 e1 ⊢
  generalize applyCancels (releaseReserved s) = w at hw ⊢
  dsimp only
  have h2 : Keeps s₀ (if t.fseq.reload then reloadMicro t else t) := keeps_ite (keeps_reloadMicro h1) h1
  have e2 : (if t.fseq.reload then reloadMicro t else t).boundary.phase = .laneState := by
    split
    · exact ((leaves_reloadMicro (W := [.events, .applied, .counters, .fseq, .peers, .late, .mode, .out]) (by decide) (Leaves.refl _ t)).same .reset (by decide)).1.trans e1
    · exact e1
  generalize (if t.fseq.reload then reloadMicro t else t) = u at h2 e2 ⊢
  have h3 : Keeps s₀ { u with boundary := { u.boundary with abandoned := false, laneWoke := false } } :=
    h2.trans ⟨rfl, fun i => ⟨i.memory, i.heads, i.temps, i.queue, i.present, i.record, i.copies⟩⟩
  have h4 := keeps_risePresent h3 fun i => sound_lane i.present (by
    show u.boundary.phase.lane = true
    rw [e2]
    rfl)
  generalize risePresent { u with boundary := { u.boundary with abandoned := false, laneWoke := false } } = v at h4 ⊢
  have h5 : Keeps s₀ { v with mem := w.mem } := ⟨h4.pending, fun i => have j := h4.inv i
    ⟨(hw.inv i).memory, j.heads, j.temps, j.queue, j.present, j.record, j.copies⟩⟩
  have h6 := keeps_raise (keeps_settleCopies h5) 0x0204
  exact keeps_returnDown (keeps_startWaitingTests (keeps_ite (keeps_startRestore h6) h6))

end Sys2Proof.Machine
end

