-- ==== Sys2Proof/Laws/KeepsAdmission.lean ====
section
/-! SUPPORT. The effects of Machine/Admission.lean keep the queue and the invariant. -/

namespace Sys2Proof.Machine

theorem keeps_placeBudgets {s₀ s : State} (hk : Keeps s₀ s) (time : Nat) : Keeps s₀ (placeBudgets time s) := by
  refine hk.trans ?_
  unfold placeBudgets
  try dsimp only
  repeat' first
    | with_reducible assumption
    | with_reducible exact Keeps.refl _
    | split
    | (with_reducible apply keeps_foldl)
    | with_reducible apply Keeps.inert
    | (intro u x hu)
    | with_reducible apply Keeps.active
    | exact fun i => sound_power i.present rfl
    | exact fun i => have k := sound_return i.present; sound_absent rfl k rfl
    | exact fun i => i.present
    | exact fun i => i.temps
    | exact fun i => i.queue
    | exact fun i => i.copies
    | exact fun i => i.record
    | exact fun i => i.heads
    | exact fun i => i.memory

theorem keeps_beginStep {s₀ s : State} (hk : Keeps s₀ s) (time : Nat) (byGo : Bool) (wake : Nat) : Keeps s₀ (beginStep time byGo wake s) := by
  refine hk.trans ?_
  unfold beginStep
  try dsimp only
  repeat' first
    | with_reducible assumption
    | with_reducible exact Keeps.refl _
    | split
    | with_reducible apply keeps_wake
    | with_reducible apply keeps_takeTree
    | with_reducible apply Keeps.inert
    | (intro u x hu)
    | with_reducible apply Keeps.active
    | exact fun i => sound_power i.present rfl
    | exact fun i => have k := sound_return i.present; sound_absent rfl k rfl
    | exact fun i => i.present
    | exact fun i => i.temps
    | exact fun i => i.queue
    | exact fun i => i.copies
    | exact fun i => i.record
    | exact fun i => i.heads
    | exact fun i => i.memory

theorem keeps_refuseManifest {s₀ s : State} (hk : Keeps s₀ s) (r : StepRun) (status : Nat) : Keeps s₀ (refuseManifest r status s) := by
  refine hk.trans ?_
  unfold refuseManifest
  try dsimp only
  repeat' first
    | with_reducible assumption
    | with_reducible exact Keeps.refl _
    | split
    | with_reducible apply keeps_laneReset
    | with_reducible apply keeps_raiseCount
    | with_reducible apply Keeps.inert
    | (intro u x hu)
    | with_reducible apply Keeps.active
    | exact fun i => sound_power i.present rfl
    | exact fun i => have k := sound_return i.present; sound_absent rfl k rfl
    | exact fun i => i.present
    | exact fun i => i.temps
    | exact fun i => i.queue
    | exact fun i => i.copies
    | exact fun i => i.record
    | exact fun i => i.heads
    | exact fun i => i.memory

theorem keeps_countRow {s₀ s : State} (hk : Keeps s₀ s) (d : RowDesc) (why : Nat) : Keeps s₀ (countRow d why s) := by
  refine hk.trans ?_
  unfold countRow
  try dsimp only
  repeat' first
    | with_reducible assumption
    | with_reducible exact Keeps.refl _
    | split
    | with_reducible apply keeps_count
    | with_reducible apply Keeps.inert
    | (intro u x hu)
    | with_reducible apply Keeps.active
    | exact fun i => sound_power i.present rfl
    | exact fun i => have k := sound_return i.present; sound_absent rfl k rfl
    | exact fun i => i.present
    | exact fun i => i.temps
    | exact fun i => i.queue
    | exact fun i => i.copies
    | exact fun i => i.record
    | exact fun i => i.heads
    | exact fun i => i.memory

theorem keeps_settleRow {s₀ s : State} (hk : Keeps s₀ s) (r : StepRun) (i why : Nat) : Keeps s₀ (settleRow r i why s) := by
  refine hk.trans ?_
  unfold settleRow
  try dsimp only
  repeat' first
    | with_reducible assumption
    | with_reducible exact Keeps.refl _
    | split
    | with_reducible apply keeps_raiseCount
    | with_reducible apply keeps_countRow
    | with_reducible apply keeps_withRun
    | with_reducible apply Keeps.inert
    | (intro u x hu)
    | with_reducible apply Keeps.active
    | exact fun i => sound_power i.present rfl
    | exact fun i => have k := sound_return i.present; sound_absent rfl k rfl
    | exact fun i => i.present
    | exact fun i => i.temps
    | exact fun i => i.queue
    | exact fun i => i.copies
    | exact fun i => i.record
    | exact fun i => i.heads
    | exact fun i => i.memory

theorem keeps_reserveAll {s₀ s : State} (hk : Keeps s₀ s) (a : Adm) : Keeps s₀ (reserveAll a s) := by
  refine hk.trans ?_
  unfold reserveAll
  try dsimp only
  repeat' first
    | with_reducible assumption
    | with_reducible exact Keeps.refl _
    | split
    | with_reducible apply keeps_setContext
    | with_reducible apply keeps_notePeak
    | (with_reducible apply keeps_foldl)
    | with_reducible apply Keeps.inert
    | (intro u x hu)
    | with_reducible apply Keeps.active
    | exact fun i => sound_power i.present rfl
    | exact fun i => have k := sound_return i.present; sound_absent rfl k rfl
    | exact fun i => i.present
    | exact fun i => i.temps
    | exact fun i => i.queue
    | exact fun i => i.copies
    | exact fun i => i.record
    | exact fun i => i.heads
    | exact fun i => i.memory

theorem keeps_settleReads {s₀ s : State} (hk : Keeps s₀ s) (r : StepRun) : Keeps s₀ (settleReads r s) := by
  refine hk.trans ?_
  unfold settleReads
  try dsimp only
  repeat' first
    | with_reducible assumption
    | with_reducible exact Keeps.refl _
    | split
    | with_reducible apply keeps_markRows
    | (with_reducible apply keeps_foldl)
    | with_reducible apply Keeps.inert
    | (intro u x hu)
    | with_reducible apply Keeps.active
    | exact fun i => sound_power i.present rfl
    | exact fun i => have k := sound_return i.present; sound_absent rfl k rfl
    | exact fun i => i.present
    | exact fun i => i.temps
    | exact fun i => i.queue
    | exact fun i => i.copies
    | exact fun i => i.record
    | exact fun i => i.heads
    | exact fun i => i.memory

theorem keeps_settleRecord {s₀ s : State} (hk : Keeps s₀ s) : Keeps s₀ (settleRecord s) := by
  refine hk.trans ?_
  unfold settleRecord
  try dsimp only
  repeat' first
    | with_reducible assumption
    | with_reducible exact Keeps.refl _
    | split
    | with_reducible apply keeps_takeOver
    | with_reducible apply keeps_checkTakeover
    | with_reducible apply Keeps.inert
    | (intro u x hu)
    | with_reducible apply Keeps.active
    | exact fun i => sound_power i.present rfl
    | exact fun i => have k := sound_return i.present; sound_absent rfl k rfl
    | exact fun i => i.present
    | exact fun i => i.temps
    | exact fun i => i.queue
    | exact fun i => i.copies
    | exact fun i => i.record
    | exact fun i => i.heads
    | exact fun i => i.memory

theorem keeps_acceptManifest {s₀ s : State} (hk : Keeps s₀ s) (r : StepRun) (ecc : List EccHit) : Keeps s₀ (acceptManifest r ecc s) := by
  refine hk.trans ?_
  unfold acceptManifest
  try dsimp only
  repeat' first
    | with_reducible assumption
    | with_reducible exact Keeps.refl _
    | split
    | with_reducible apply keeps_placeBudgets
    | with_reducible apply keeps_count
    | with_reducible apply keeps_settleRow
    | with_reducible apply keeps_workHits
    | with_reducible apply keeps_settleReads
    | with_reducible apply keeps_reserveAll
    | with_reducible apply keeps_withRun
    | with_reducible apply keeps_noteEnd
    | with_reducible apply keeps_writeBytes
    | with_reducible apply keeps_pump
    | with_reducible apply keeps_noteMissed
    | with_reducible apply keeps_settleRecord
    | with_reducible apply keeps_loadShadow
    | (with_reducible apply keeps_foldl)
    | with_reducible apply Keeps.inert
    | (intro u x hu)
    | with_reducible apply Keeps.active
    | exact fun i => sound_power i.present rfl
    | exact fun i => have k := sound_return i.present; sound_absent rfl k rfl
    | exact fun i => i.present
    | exact fun i => i.temps
    | exact fun i => i.queue
    | exact fun i => i.copies
    | exact fun i => i.record
    | exact fun i => i.heads
    | exact fun i => i.memory

end Sys2Proof.Machine
end

