-- ==== Sys2Proof/Laws/KeepsLink.lean ====
section
/-! SUPPORT. The effects of Machine/Link.lean keep the queue and the invariant. -/

namespace Sys2Proof.Machine

theorem keeps_noteLost {s₀ s : State} (hk : Keeps s₀ s) (p : Nat) : Keeps s₀ (noteLost p s) := by
  refine hk.trans ?_
  unfold noteLost
  try dsimp only
  repeat' first
    | with_reducible assumption
    | with_reducible exact Keeps.refl _
    | split
    | with_reducible apply keeps_withRun
    | with_reducible apply Keeps.inert
    | (intro u x hu)
    | with_reducible apply Keeps.active
    | exact fun i => sound_power i.present rfl
    | exact fun i => have k := sound_return i.present; sound_absent rfl k rfl
    | exact fun i => i.present
    | exact fun i => i.temps
    | exact fun i => i.queue
    | exact fun i => i.copies
    | exact fun i => i.record
    | exact fun i => i.heads
    | exact fun i => i.memory

theorem keeps_peerLost {s₀ s : State} (hk : Keeps s₀ s) (p st : Nat) : Keeps s₀ (peerLost p st s) := by
  refine hk.trans ?_
  unfold peerLost
  try dsimp only
  repeat' first
    | with_reducible assumption
    | with_reducible exact Keeps.refl _
    | split
    | with_reducible apply keeps_pump
    | with_reducible apply keeps_noteMissed
    | with_reducible apply keeps_takeOver
    | with_reducible apply keeps_checkTakeover
    | with_reducible apply keeps_noteLost
    | with_reducible apply keeps_losePeer
    | with_reducible apply keeps_peerDown
    | with_reducible apply Keeps.inert
    | (intro u x hu)
    | with_reducible apply Keeps.active
    | exact fun i => sound_power i.present rfl
    | exact fun i => have k := sound_return i.present; sound_absent rfl k rfl
    | exact fun i => i.present
    | exact fun i => i.temps
    | exact fun i => i.queue
    | exact fun i => i.copies
    | exact fun i => i.record
    | exact fun i => i.heads
    | exact fun i => i.memory

theorem keeps_dropSends {s₀ s : State} (hk : Keeps s₀ s) (p : Nat) : Keeps s₀ (dropSends p s) := by
  refine hk.trans ?_
  unfold dropSends
  try dsimp only
  repeat' first
    | with_reducible assumption
    | with_reducible exact Keeps.refl _
    | split
    | with_reducible apply keeps_dropLate
    | with_reducible apply keeps_setPeer
    | with_reducible apply Keeps.inert
    | (intro u x hu)
    | with_reducible apply Keeps.active
    | exact fun i => sound_power i.present rfl
    | exact fun i => have k := sound_return i.present; sound_absent rfl k rfl
    | exact fun i => i.present
    | exact fun i => i.temps
    | exact fun i => i.queue
    | exact fun i => i.copies
    | exact fun i => i.record
    | exact fun i => i.heads
    | exact fun i => i.memory

theorem keeps_absenceNotice {s₀ s : State} (hk : Keeps s₀ s) (p : Nat) : Keeps s₀ (absenceNotice p s) := by
  refine hk.trans ?_
  unfold absenceNotice
  try dsimp only
  repeat' first
    | with_reducible assumption
    | with_reducible exact Keeps.refl _
    | split
    | with_reducible apply keeps_dropSends
    | with_reducible apply keeps_peerDown
    | with_reducible apply keeps_peerLost
    | with_reducible apply Keeps.inert
    | (intro u x hu)
    | with_reducible apply Keeps.active
    | exact fun i => sound_power i.present rfl
    | exact fun i => have k := sound_return i.present; sound_absent rfl k rfl
    | exact fun i => i.present
    | exact fun i => i.temps
    | exact fun i => i.queue
    | exact fun i => i.copies
    | exact fun i => i.record
    | exact fun i => i.heads
    | exact fun i => i.memory

theorem keeps_absentResponse {s₀ s : State} (hk : Keeps s₀ s) (p : Nat) : Keeps s₀ (absentResponse p s) := by
  refine hk.trans ?_
  unfold absentResponse
  try dsimp only
  repeat' first
    | with_reducible assumption
    | with_reducible exact Keeps.refl _
    | split
    | with_reducible apply keeps_peerDown
    | with_reducible apply keeps_peerLost
    | with_reducible apply Keeps.inert
    | (intro u x hu)
    | with_reducible apply Keeps.active
    | exact fun i => sound_power i.present rfl
    | exact fun i => have k := sound_return i.present; sound_absent rfl k rfl
    | exact fun i => i.present
    | exact fun i => i.temps
    | exact fun i => i.queue
    | exact fun i => i.copies
    | exact fun i => i.record
    | exact fun i => i.heads
    | exact fun i => i.memory

theorem keeps_fallSilent {s₀ s : State} (hk : Keeps s₀ s) (p : Nat) : Keeps s₀ (fallSilent p s) := by
  refine hk.trans ?_
  unfold fallSilent
  try dsimp only
  repeat' first
    | with_reducible assumption
    | with_reducible exact Keeps.refl _
    | split
    | with_reducible apply keeps_peerLost
    | with_reducible apply keeps_dropSends
    | with_reducible apply Keeps.inert
    | (intro u x hu)
    | with_reducible apply Keeps.active
    | exact fun i => sound_power i.present rfl
    | exact fun i => have k := sound_return i.present; sound_absent rfl k rfl
    | exact fun i => i.present
    | exact fun i => i.temps
    | exact fun i => i.queue
    | exact fun i => i.copies
    | exact fun i => i.record
    | exact fun i => i.heads
    | exact fun i => i.memory

theorem keeps_resend {s₀ s : State} (hk : Keeps s₀ s) (p seq : Nat) (counts : Bool) : Keeps s₀ (resend p seq counts s) := by
  refine hk.trans ?_
  unfold resend
  try dsimp only
  repeat' first
    | with_reducible assumption
    | with_reducible exact Keeps.refl _
    | split
    | with_reducible apply keeps_fallSilent
    | with_reducible apply keeps_emit
    | with_reducible apply keeps_count
    | with_reducible apply keeps_setPeer
    | with_reducible apply Keeps.inert
    | (intro u x hu)
    | with_reducible apply Keeps.active
    | exact fun i => sound_power i.present rfl
    | exact fun i => have k := sound_return i.present; sound_absent rfl k rfl
    | exact fun i => i.present
    | exact fun i => i.temps
    | exact fun i => i.queue
    | exact fun i => i.copies
    | exact fun i => i.record
    | exact fun i => i.heads
    | exact fun i => i.memory

theorem keeps_refill {s₀ s : State} (hk : Keeps s₀ s) (p fuel : Nat) : Keeps s₀ (refill p fuel s) := by
  induction fuel generalizing s with
  | zero => exact hk
  | succ fuel ih =>
    rw [refill]
    split
    · exact hk
    · split
      · exact hk
      · exact ih (keeps_ite (keeps_post (keeps_setPeer hk ..) ..) (keeps_setPeer hk ..))

theorem keeps_takeAck {s₀ s : State} (hk : Keeps s₀ s) (p seq : Nat) : Keeps s₀ (takeAck p seq s) :=
  keeps_refill (keeps_setPeer hk ..) ..

theorem keeps_linkAck {s₀ s : State} (hk : Keeps s₀ s) (m : Bytes) : Keeps s₀ (linkAck m s) := by
  refine hk.trans ?_
  unfold linkAck
  try dsimp only
  repeat' first
    | with_reducible assumption
    | with_reducible exact Keeps.refl _
    | split
    | with_reducible apply keeps_takeAck
    | with_reducible apply Keeps.inert
    | (intro u x hu)
    | with_reducible apply Keeps.active
    | exact fun i => sound_power i.present rfl
    | exact fun i => have k := sound_return i.present; sound_absent rfl k rfl
    | exact fun i => i.present
    | exact fun i => i.temps
    | exact fun i => i.queue
    | exact fun i => i.copies
    | exact fun i => i.record
    | exact fun i => i.heads
    | exact fun i => i.memory

theorem keeps_linkNak {s₀ s : State} (hk : Keeps s₀ s) (m : Bytes) : Keeps s₀ (linkNak m s) := by
  refine hk.trans ?_
  unfold linkNak
  try dsimp only
  repeat' first
    | with_reducible assumption
    | with_reducible exact Keeps.refl _
    | split
    | with_reducible apply keeps_resend
    | with_reducible apply Keeps.inert
    | (intro u x hu)
    | with_reducible apply Keeps.active
    | exact fun i => sound_power i.present rfl
    | exact fun i => have k := sound_return i.present; sound_absent rfl k rfl
    | exact fun i => i.present
    | exact fun i => i.temps
    | exact fun i => i.queue
    | exact fun i => i.copies
    | exact fun i => i.record
    | exact fun i => i.heads
    | exact fun i => i.memory

theorem keeps_splitRow {s₀ s : State} (hk : Keeps s₀ s) (v : View) (cs : List Claim) (x : Nat × RowRun) : Keeps s₀ (splitRow v cs x s) := by
  refine hk.trans ?_
  unfold splitRow
  try dsimp only
  repeat' first
    | with_reducible assumption
    | with_reducible exact Keeps.refl _
    | split
    | with_reducible apply keeps_withRun
    | with_reducible apply keeps_count
    | with_reducible apply keeps_withGroup
    | with_reducible apply keeps_writeBloom
    | with_reducible apply Keeps.inert
    | (intro u x hu)
    | with_reducible apply Keeps.active
    | exact fun i => sound_power i.present rfl
    | exact fun i => have k := sound_return i.present; sound_absent rfl k rfl
    | exact fun i => i.present
    | exact fun i => i.temps
    | exact fun i => i.queue
    | exact fun i => i.copies
    | exact fun i => i.record
    | exact fun i => i.heads
    | exact fun i => i.memory

theorem keeps_splitGroup {s₀ s : State} (hk : Keeps s₀ s) (g : Nat) : Keeps s₀ (splitGroup g s) := by
  refine hk.trans ?_
  unfold splitGroup
  try dsimp only
  repeat' first
    | with_reducible assumption
    | with_reducible exact Keeps.refl _
    | split
    | with_reducible apply keeps_splitRow
    | (with_reducible apply keeps_foldl)
    | with_reducible apply Keeps.inert
    | (intro u x hu)
    | with_reducible apply Keeps.active
    | exact fun i => sound_power i.present rfl
    | exact fun i => have k := sound_return i.present; sound_absent rfl k rfl
    | exact fun i => i.present
    | exact fun i => i.temps
    | exact fun i => i.queue
    | exact fun i => i.copies
    | exact fun i => i.record
    | exact fun i => i.heads
    | exact fun i => i.memory

theorem keeps_splitStep {s₀ s : State} (hk : Keeps s₀ s) : Keeps s₀ (splitStep s) := by
  refine hk.trans ?_
  unfold splitStep
  try dsimp only
  repeat' first
    | with_reducible assumption
    | with_reducible exact Keeps.refl _
    | split
    | with_reducible apply keeps_count
    | with_reducible apply keeps_withRun
    | with_reducible apply keeps_pump
    | with_reducible apply keeps_splitGroup
    | (with_reducible apply keeps_foldl)
    | with_reducible apply Keeps.inert
    | (intro u x hu)
    | with_reducible apply Keeps.active
    | exact fun i => sound_power i.present rfl
    | exact fun i => have k := sound_return i.present; sound_absent rfl k rfl
    | exact fun i => i.present
    | exact fun i => i.temps
    | exact fun i => i.queue
    | exact fun i => i.copies
    | exact fun i => i.record
    | exact fun i => i.heads
    | exact fun i => i.memory

theorem keeps_hearMember {s₀ s : State} (hk : Keeps s₀ s) (src : Nat) : Keeps s₀ (hearMember src s) := by
  refine hk.trans ?_
  unfold hearMember
  try dsimp only
  repeat' first
    | with_reducible assumption
    | with_reducible exact Keeps.refl _
    | split
    | with_reducible apply keeps_withRun
    | with_reducible apply Keeps.inert
    | (intro u x hu)
    | with_reducible apply Keeps.active
    | exact fun i => sound_power i.present rfl
    | exact fun i => have k := sound_return i.present; sound_absent rfl k rfl
    | exact fun i => i.present
    | exact fun i => i.temps
    | exact fun i => i.queue
    | exact fun i => i.copies
    | exact fun i => i.record
    | exact fun i => i.heads
    | exact fun i => i.memory

theorem keeps_takeContribution {s₀ s : State} (hk : Keeps s₀ s) (src g : Nat) (t : Taken) (odd : Nat) : Keeps s₀ (takeContribution src g t odd s) := by
  refine hk.trans ?_
  unfold takeContribution
  try dsimp only
  repeat' first
    | with_reducible assumption
    | with_reducible exact Keeps.refl _
    | split
    | with_reducible apply keeps_stale
    | with_reducible apply keeps_pump
    | with_reducible apply keeps_withGroup
    | with_reducible apply keeps_hearMember
    | with_reducible apply keeps_noteOdd
    | with_reducible apply Keeps.inert
    | (intro u x hu)
    | with_reducible apply Keeps.active
    | exact fun i => sound_power i.present rfl
    | exact fun i => have k := sound_return i.present; sound_absent rfl k rfl
    | exact fun i => i.present
    | exact fun i => i.temps
    | exact fun i => i.queue
    | exact fun i => i.copies
    | exact fun i => i.record
    | exact fun i => i.heads
    | exact fun i => i.memory

theorem keeps_takeStepBound {s₀ s : State} (hk : Keeps s₀ s) (typ src version number : Nat) (pl : Bytes) : Keeps s₀ (takeStepBound typ src version number pl s) := by
  refine hk.trans ?_
  unfold takeStepBound
  try dsimp only
  repeat' first
    | with_reducible assumption
    | with_reducible exact Keeps.refl _
    | split
    | with_reducible apply keeps_stale
    | with_reducible apply keeps_splitStep
    | with_reducible apply keeps_takeContribution
    | with_reducible apply Keeps.inert
    | (intro u x hu)
    | with_reducible apply Keeps.active
    | exact fun i => sound_power i.present rfl
    | exact fun i => have k := sound_return i.present; sound_absent rfl k rfl
    | exact fun i => i.present
    | exact fun i => i.temps
    | exact fun i => i.queue
    | exact fun i => i.copies
    | exact fun i => i.record
    | exact fun i => i.heads
    | exact fun i => i.memory

theorem keeps_deliver {s₀ s : State} (hk : Keeps s₀ s) (m : Bytes) : Keeps s₀ (deliver m s) := by
  refine hk.trans ?_
  unfold deliver
  try dsimp only
  repeat' first
    | with_reducible assumption
    | with_reducible exact Keeps.refl _
    | split
    | with_reducible apply keeps_stale
    | with_reducible apply keeps_takeDiscover
    | with_reducible apply keeps_takeCaps
    | with_reducible apply keeps_takeHeartbeat
    | with_reducible apply keeps_takeBondUpdate
    | with_reducible apply keeps_takeStatePage
    | with_reducible apply keeps_takeStepBound
    | with_reducible apply Keeps.inert
    | (intro u x hu)
    | with_reducible apply Keeps.active
    | exact fun i => sound_power i.present rfl
    | exact fun i => have k := sound_return i.present; sound_absent rfl k rfl
    | exact fun i => i.present
    | exact fun i => i.temps
    | exact fun i => i.queue
    | exact fun i => i.copies
    | exact fun i => i.record
    | exact fun i => i.heads
    | exact fun i => i.memory

theorem keeps_acceptFrame {s₀ s : State} (hk : Keeps s₀ s) (m : Bytes) : Keeps s₀ (acceptFrame m s) := by
  refine hk.trans ?_
  unfold acceptFrame
  try dsimp only
  repeat' first
    | with_reducible assumption
    | with_reducible exact Keeps.refl _
    | split
    | with_reducible apply keeps_linkFlit
    | with_reducible apply keeps_setPeer
    | with_reducible apply keeps_deliver
    | with_reducible apply keeps_count
    | with_reducible apply Keeps.inert
    | (intro u x hu)
    | with_reducible apply Keeps.active
    | exact fun i => sound_power i.present rfl
    | exact fun i => have k := sound_return i.present; sound_absent rfl k rfl
    | exact fun i => i.present
    | exact fun i => i.temps
    | exact fun i => i.queue
    | exact fun i => i.copies
    | exact fun i => i.record
    | exact fun i => i.heads
    | exact fun i => i.memory

theorem keeps_takeHeld {s₀ s : State} (hk : Keeps s₀ s) (src fuel : Nat) : Keeps s₀ (takeHeld src fuel s) := by
  induction fuel generalizing s with
  | zero => exact hk
  | succ fuel ih =>
    rw [takeHeld]
    dsimp only
    split
    · exact hk
    · split
      · exact keeps_linkFlit (keeps_setPeer hk ..) ..
      · exact ih (keeps_acceptFrame (keeps_setPeer hk ..) _)

theorem keeps_takeSequenced {s₀ s : State} (hk : Keeps s₀ s) (m : Bytes) : Keeps s₀ (takeSequenced m s) := by
  rw [takeSequenced]
  refine keeps_ite (keeps_linkFlit hk ..) (keeps_ite (keeps_linkFlit hk ..) (keeps_ite (keeps_setPeer hk ..)
    (keeps_ite (keeps_linkFlit hk ..) (keeps_takeHeld (keeps_acceptFrame hk _) ..))))

theorem keeps_receive {s₀ s : State} (hk : Keeps s₀ s) (m : Bytes) : Keeps s₀ (receive m s) := by
  refine hk.trans ?_
  unfold receive
  try dsimp only
  repeat' first
    | with_reducible assumption
    | with_reducible exact Keeps.refl _
    | split
    | with_reducible apply keeps_linkFlit
    | with_reducible apply keeps_count
    | with_reducible apply keeps_deliver
    | with_reducible apply keeps_takeSequenced
    | with_reducible apply Keeps.inert
    | (intro u x hu)
    | with_reducible apply Keeps.active
    | exact fun i => sound_power i.present rfl
    | exact fun i => have k := sound_return i.present; sound_absent rfl k rfl
    | exact fun i => i.present
    | exact fun i => i.temps
    | exact fun i => i.queue
    | exact fun i => i.copies
    | exact fun i => i.record
    | exact fun i => i.heads
    | exact fun i => i.memory

theorem keeps_idleHeartbeat {s₀ s : State} (hk : Keeps s₀ s) : Keeps s₀ (idleHeartbeat s) := by
  refine hk.trans ?_
  unfold idleHeartbeat
  try dsimp only
  repeat' first
    | with_reducible assumption
    | with_reducible exact Keeps.refl _
    | split
    | with_reducible apply keeps_sendAll
    | with_reducible apply Keeps.inert
    | (intro u x hu)
    | with_reducible apply Keeps.active
    | exact fun i => sound_power i.present rfl
    | exact fun i => have k := sound_return i.present; sound_absent rfl k rfl
    | exact fun i => i.present
    | exact fun i => i.temps
    | exact fun i => i.queue
    | exact fun i => i.copies
    | exact fun i => i.record
    | exact fun i => i.heads
    | exact fun i => i.memory

theorem keeps_loseWithheld {s₀ s : State} (hk : Keeps s₀ s) : Keeps s₀ (loseWithheld s) := by
  refine hk.trans ?_
  unfold loseWithheld
  try dsimp only
  repeat' first
    | with_reducible assumption
    | with_reducible exact Keeps.refl _
    | split
    | with_reducible apply keeps_pump
    | with_reducible apply keeps_noteMissed
    | with_reducible apply keeps_noteLost
    | (with_reducible apply keeps_foldl)
    | with_reducible apply Keeps.inert
    | (intro u x hu)
    | with_reducible apply Keeps.active
    | exact fun i => sound_power i.present rfl
    | exact fun i => have k := sound_return i.present; sound_absent rfl k rfl
    | exact fun i => i.present
    | exact fun i => i.temps
    | exact fun i => i.queue
    | exact fun i => i.copies
    | exact fun i => i.record
    | exact fun i => i.heads
    | exact fun i => i.memory

theorem keeps_stepHeartbeat {s₀ s : State} (hk : Keeps s₀ s) : Keeps s₀ (stepHeartbeat s) := by
  refine hk.trans ?_
  unfold stepHeartbeat
  try dsimp only
  repeat' first
    | with_reducible assumption
    | with_reducible exact Keeps.refl _
    | split
    | with_reducible apply keeps_sendAll
    | with_reducible apply keeps_loseWithheld
    | with_reducible apply keeps_withRun
    | with_reducible apply Keeps.inert
    | (intro u x hu)
    | with_reducible apply Keeps.active
    | exact fun i => sound_power i.present rfl
    | exact fun i => have k := sound_return i.present; sound_absent rfl k rfl
    | exact fun i => i.present
    | exact fun i => i.temps
    | exact fun i => i.queue
    | exact fun i => i.copies
    | exact fun i => i.record
    | exact fun i => i.heads
    | exact fun i => i.memory

end Sys2Proof.Machine
end

