-- ==== Sys2Proof/Laws/KeepsResets.lean ====
section
/-! SUPPORT. The effects of Machine/Resets.lean keep the queue and the invariant. -/

namespace Sys2Proof.Machine

theorem LifeCycle.legal_iff {l : LifeCycle} :
    l.legal = true ↔ legalState l.record.state = true ∧ ∀ r, l.writing = some r → legalState r.state = true := by
  cases l with
  | mk record ownerBuffer challenge draws transition reason lockout verifying writing wiping =>
    cases writing <;> simp [LifeCycle.legal]

theorem NonVolatile.legal_iff {n : NonVolatile} :
    n.legal = true ↔ (∀ r, n.copyA = some r → legalState r.state = true) ∧
      (∀ r, n.copyB = some r → legalState r.state = true) := by
  cases n with
  | mk settings storeCount copyA copyB image => cases copyA <;> cases copyB <;> simp [NonVolatile.legal]

theorem keeps_breakRecord {s₀ s : State} (hk : Keeps s₀ s) : Keeps s₀ (breakRecord s) := by
  refine hk.trans ?_
  unfold breakRecord
  split
  · exact Keeps.refl s
  · rename_i r hr
    refine ⟨rfl, fun i => ?_⟩
    obtain ⟨h0, hw⟩ := LifeCycle.legal_iff.1 i.record
    have h1 := hw r hr
    have h2 : legalState
        (if (free16 s).1 % 2 = 0 then (free16 s).2.life.record else { r with writes := r.writes + 1 }).state = true := by
      split
      · exact h0
      · exact h1
    refine ⟨i.memory, i.heads, i.temps, i.queue, i.present, LifeCycle.legal_iff.2 ⟨h2, fun r' e => ?_⟩,
      NonVolatile.legal_iff.2 ⟨fun r' e => ?_, fun r' e => ?_⟩⟩
    · exact absurd e (by simp)
    · have e := Option.some.inj e
      subst e
      exact h2
    · exact absurd e (by simp)

theorem keeps_assertReset {s₀ s : State} (hk : Keeps s₀ s) (deep : Bool) : Keeps s₀ (assertReset deep s) := by
  have h1 := keeps_breakRecord (keeps_clearStarts hk)
  rw [assertReset]
  generalize breakRecord (clearStarts s) = t at h1 ⊢
  refine h1.trans ⟨rfl, fun i => ⟨i.memory, ?_, rfl, Nat.zero_le _, ?_, ?_, i.copies⟩⟩
  · cases deep
    · exact (List.length_map _).trans i.heads
    · rfl
  · exact sound_absent rfl rfl rfl
  · exact LifeCycle.legal_iff.2 ⟨(LifeCycle.legal_iff.1 i.record).1, fun r e => nomatch e⟩

theorem keeps_unitResetArrives {s₀ s : State} (hk : Keeps s₀ s) : Keeps s₀ (unitResetArrives s) := by
  refine hk.trans ?_
  unfold unitResetArrives
  try dsimp only
  repeat' first
    | with_reducible assumption
    | with_reducible exact Keeps.refl _
    | split
    | with_reducible apply keeps_assertReset
    | with_reducible apply Keeps.inert
    | (intro u x hu)
    | with_reducible apply Keeps.active
    | exact fun i => sound_power i.present rfl
    | exact fun i => have k := sound_return i.present; sound_absent rfl k rfl
    | exact fun i => i.present
    | exact fun i => i.temps
    | exact fun i => i.queue
    | exact fun i => i.copies
    | exact fun i => i.record
    | exact fun i => i.heads
    | exact fun i => i.memory

theorem keeps_unitResetEffect {s₀ s : State} (hk : Keeps s₀ s) : Keeps s₀ (unitResetEffect s) := by
  refine hk.trans ?_
  unfold unitResetEffect
  try dsimp only
  repeat' first
    | with_reducible assumption
    | with_reducible exact Keeps.refl _
    | split
    | with_reducible apply Keeps.inert
    | (intro u x hu)
    | with_reducible apply Keeps.active
    | exact fun i => sound_power i.present rfl
    | exact fun i => have k := sound_return i.present; sound_absent rfl k rfl
    | exact fun i => i.present
    | exact fun i => i.temps
    | exact fun i => i.queue
    | exact fun i => i.copies
    | exact fun i => i.record
    | exact fun i => i.heads
    | exact fun i => i.memory

theorem keeps_dropRails {s₀ s : State} (hk : Keeps s₀ s) : Keeps s₀ (dropRails s) := by
  refine hk.trans ?_
  unfold dropRails
  try dsimp only
  repeat' first
    | with_reducible assumption
    | with_reducible exact Keeps.refl _
    | split
    | with_reducible apply keeps_clearLanes
    | with_reducible apply keeps_abandonStep
    | with_reducible apply keeps_emptyAllSlots
    | with_reducible apply Keeps.inert
    | (intro u x hu)
    | with_reducible apply Keeps.active
    | exact fun i => sound_power i.present rfl
    | exact fun i => have k := sound_return i.present; sound_absent rfl k rfl
    | exact fun i => i.present
    | exact fun i => i.temps
    | exact fun i => i.queue
    | exact fun i => i.copies
    | exact fun i => i.record
    | exact fun i => i.heads
    | exact fun i => i.memory

theorem lane_disabled (p : ResetPhase) : p.disabled.lane = false := by cases p <;> rfl

theorem keeps_disableUnit {s₀ s : State} (hk : Keeps s₀ s) : Keeps s₀ (disableUnit s) := by
  rw [disableUnit]
  refine keeps_dropLink (keeps_dropRails (hk.trans ⟨rfl, fun i =>
    have k := sound_return i.present
    ⟨i.memory, i.heads, i.temps, i.queue, sound_absent rfl k (lane_disabled _), i.record, i.copies⟩⟩))

theorem keeps_powerOff {s₀ s : State} (hk : Keeps s₀ s) : Keeps s₀ (powerOff s) :=
  (keeps_assertReset hk true).trans ⟨rfl, fun i => ⟨i.memory, i.heads, i.temps, i.queue, sound_absent rfl rfl rfl, i.record,
    i.copies⟩⟩

theorem legal_record {n : NonVolatile} {r : LifeRecord} (h : n.legal = true) (e : n.record = some r) :
    legalState r.state = true := by
  obtain ⟨ha, hb⟩ := NonVolatile.legal_iff.1 h
  unfold NonVolatile.record at e
  split at e
  · rename_i a b ea eb
    have e := Option.some.inj e
    subst e
    split
    · exact hb b eb
    · exact ha a ea
  · rename_i a ea eb
    exact ha r (ea.trans e)
  · rename_i b ea
    exact hb r e

theorem keeps_loadRecord {s₀ s : State} (hk : Keeps s₀ s) : Keeps s₀ (loadRecord s) := by
  refine hk.trans ?_
  unfold loadRecord
  split
  · exact Keeps.refl s
  · split
    · rename_i r e
      exact ⟨rfl, fun i => ⟨i.memory, i.heads, i.temps, i.queue, i.present, LifeCycle.legal_iff.2
        ⟨legal_record i.copies e, (LifeCycle.legal_iff.1 i.record).2⟩, i.copies⟩⟩
    · refine keeps_raise (s := { s with life := { s.life with record := { LifeRecord.initial with state := 6 } } }) ?_ _
      exact ⟨rfl, fun i => ⟨i.memory, i.heads, i.temps, i.queue, i.present, LifeCycle.legal_iff.2
        ⟨rfl, (LifeCycle.legal_iff.1 i.record).2⟩, i.copies⟩⟩

theorem keeps_loadSettings {s₀ s : State} (hk : Keeps s₀ s) : Keeps s₀ (loadSettings s) := by
  refine hk.trans ?_
  unfold loadSettings
  try dsimp only
  repeat' first
    | with_reducible assumption
    | with_reducible exact Keeps.refl _
    | split
    | with_reducible apply keeps_raise
    | with_reducible apply Keeps.inert
    | (intro u x hu)
    | with_reducible apply Keeps.active
    | exact fun i => sound_power i.present rfl
    | exact fun i => have k := sound_return i.present; sound_absent rfl k rfl
    | exact fun i => i.present
    | exact fun i => i.temps
    | exact fun i => i.queue
    | exact fun i => i.copies
    | exact fun i => i.record
    | exact fun i => i.heads
    | exact fun i => i.memory

theorem keeps_settingsHits {s₀ s : State} (hk : Keeps s₀ s) (es : List EccHit) : Keeps s₀ (settingsHits es s) := by
  refine hk.trans ?_
  unfold settingsHits
  try dsimp only
  repeat' first
    | with_reducible assumption
    | with_reducible exact Keeps.refl _
    | split
    | with_reducible apply keeps_correctedWord
    | with_reducible apply keeps_noteUncorrectable
    | (with_reducible apply keeps_foldl)
    | with_reducible apply Keeps.inert
    | (intro u x hu)
    | with_reducible apply Keeps.active
    | exact fun i => sound_power i.present rfl
    | exact fun i => have k := sound_return i.present; sound_absent rfl k rfl
    | exact fun i => i.present
    | exact fun i => i.temps
    | exact fun i => i.queue
    | exact fun i => i.copies
    | exact fun i => i.record
    | exact fun i => i.heads
    | exact fun i => i.memory

theorem keeps_bringUpWake {s₀ s : State} (hk : Keeps s₀ s) : Keeps s₀ (bringUpWake s) := by
  refine hk.trans ?_
  unfold bringUpWake
  try dsimp only
  repeat' first
    | with_reducible assumption
    | with_reducible exact Keeps.refl _
    | split
    | with_reducible apply keeps_startWake
    | with_reducible apply Keeps.inert
    | (intro u x hu)
    | with_reducible apply Keeps.active
    | exact fun i => sound_power i.present rfl
    | exact fun i => have k := sound_return i.present; sound_absent rfl k rfl
    | exact fun i => i.present
    | exact fun i => i.temps
    | exact fun i => i.queue
    | exact fun i => i.copies
    | exact fun i => i.record
    | exact fun i => i.heads
    | exact fun i => i.memory

theorem keeps_releaseReset {s₀ s : State} (hk : Keeps s₀ s) (ecc : List EccHit) : Keeps s₀ (releaseReset ecc s) := by
  refine hk.trans ?_
  unfold releaseReset
  try dsimp only
  repeat' first
    | with_reducible assumption
    | with_reducible exact Keeps.refl _
    | split
    | with_reducible apply keeps_loadRecord
    | with_reducible apply keeps_bringUpWake
    | with_reducible apply keeps_loadMicro
    | with_reducible apply keeps_loadSettings
    | with_reducible apply keeps_settingsHits
    | with_reducible apply keeps_loadFinished
    | with_reducible apply Keeps.inert
    | (intro u x hu)
    | with_reducible apply Keeps.active
    | exact fun i => sound_power i.present rfl
    | exact fun i => have k := sound_return i.present; sound_absent rfl k rfl
    | exact fun i => i.present
    | exact fun i => i.temps
    | exact fun i => i.queue
    | exact fun i => i.copies
    | exact fun i => i.record
    | exact fun i => i.heads
    | exact fun i => i.memory

theorem keeps_reportTests {s₀ s : State} (hk : Keeps s₀ s) (failures : Nat) : Keeps s₀ (reportTests failures s) := by
  refine hk.trans ?_
  unfold reportTests
  try dsimp only
  repeat' first
    | with_reducible assumption
    | with_reducible exact Keeps.refl _
    | split
    | with_reducible apply keeps_raise
    | (with_reducible apply keeps_foldl)
    | with_reducible apply Keeps.inert
    | (intro u x hu)
    | with_reducible apply Keeps.active
    | exact fun i => sound_power i.present rfl
    | exact fun i => have k := sound_return i.present; sound_absent rfl k rfl
    | exact fun i => i.present
    | exact fun i => i.temps
    | exact fun i => i.queue
    | exact fun i => i.copies
    | exact fun i => i.record
    | exact fun i => i.heads
    | exact fun i => i.memory

theorem keeps_countMarches {s₀ s : State} (hk : Keeps s₀ s) (failures : Nat) : Keeps s₀ (countMarches failures s) := by
  refine hk.trans ?_
  unfold countMarches
  try dsimp only
  repeat' first
    | with_reducible assumption
    | with_reducible exact Keeps.refl _
    | split
    | with_reducible apply keeps_count
    | (with_reducible apply keeps_foldl)
    | with_reducible apply Keeps.inert
    | (intro u x hu)
    | with_reducible apply Keeps.active
    | exact fun i => sound_power i.present rfl
    | exact fun i => have k := sound_return i.present; sound_absent rfl k rfl
    | exact fun i => i.present
    | exact fun i => i.temps
    | exact fun i => i.queue
    | exact fun i => i.copies
    | exact fun i => i.record
    | exact fun i => i.heads
    | exact fun i => i.memory

theorem keeps_enterService {s₀ s : State} (hk : Keeps s₀ s) (hp : (s.sensing.power != .off) = true) :
    Keeps s₀ (enterService s) := by
  have h2 := keeps_risePresent hk fun _ => hp
  rw [enterService]
  generalize risePresent s = t at h2 ⊢
  refine keeps_raise (s := { t with life := { t.life with wiping := t.life.record.wipePending } }) ?_ _
  exact h2.trans ⟨rfl, fun i => ⟨i.memory, i.heads, i.temps, i.queue, i.present, i.record, i.copies⟩⟩

theorem keeps_stayAbsent {s₀ s : State} (hk : Keeps s₀ s) : Keeps s₀ (stayAbsent s) := by
  refine hk.trans ?_
  unfold stayAbsent
  try dsimp only
  repeat' first
    | with_reducible assumption
    | with_reducible exact Keeps.refl _
    | split
    | with_reducible apply keeps_enterDormant
    | with_reducible apply Keeps.inert
    | (intro u x hu)
    | with_reducible apply Keeps.active
    | exact fun i => sound_power i.present rfl
    | exact fun i => have k := sound_return i.present; sound_absent rfl k rfl
    | exact fun i => i.present
    | exact fun i => i.temps
    | exact fun i => i.queue
    | exact fun i => i.copies
    | exact fun i => i.record
    | exact fun i => i.heads
    | exact fun i => i.memory

theorem power_stepDown (s : State) : (stepDown s).sensing.power = s.sensing.power :=
  ((leaves_stepDown (W := [.laneRow, .events, .counters]) (by decide) (Leaves.refl _ s)).same .power (by decide)).1

theorem powered_endWake (s : State) : ((endWake s).sensing.power != .off) = true := by
  have h (u : State) (c : Prop) [Decidable c] (hc : u.sensing.power = if c then .standby else .active) :
      ((if u.sensing.railsRead then stepDown u else u).sensing.power != .off) = true := by
    have e : (if u.sensing.railsRead then stepDown u else u).sensing.power = u.sensing.power := by
      split
      · exact power_stepDown u
      · rfl
    rw [e, hc]
    split <;> rfl
  rw [endWake]
  exact h _ _ rfl

/-- A fold of effects that keep the power state keeps it. -/
theorem power_foldl {α : Type} (f : State → α → State) (hf : ∀ u x, (f u x).sensing.power = u.sensing.power)
    (l : List α) (s : State) : (l.foldl f s).sensing.power = s.sensing.power := by
  induction l generalizing s with
  | nil => rfl
  | cons x xs ih => exact (ih _).trans (hf s x)

theorem power_raise (k : Nat) (s : State) : (raise k s).sensing.power = s.sensing.power :=
  ((leaves_raise (W := [.events, .counters]) (by decide) (Leaves.refl _ s) k).same .power (by decide)).1

theorem power_tests (f : Nat) (s : State) :
    (reportTests f (countMarches f (count 0x702004 1 s))).sensing.power = s.sensing.power := by
  have h1 : (countMarches f (count 0x702004 1 s)).sensing.power = s.sensing.power := by
    refine (power_foldl _ (fun u x => ?_) _ _).trans rfl
    split <;> rfl
  rw [← h1]
  generalize countMarches f (count 0x702004 1 s) = t
  rw [reportTests]
  split
  · exact power_raise ..
  · exact (power_foldl _ (fun u x => power_raise _ u) _ _)

theorem keeps_endBringUp {s₀ s : State} (hk : Keeps s₀ s) (failures : Nat) : Keeps s₀ (endBringUp failures s) := by
  have h1 : Keeps s₀ (if s.sensing.power = .active then s else endWake s) := keeps_ite hk (keeps_endWake hk)
  have p1 : ((if s.sensing.power = .active then s else endWake s).sensing.power != .off) = true := by
    split
    · rename_i h
      rw [h]
      rfl
    · exact powered_endWake s
  rw [endBringUp]
  generalize (if s.sensing.power = .active then s else endWake s) = t at h1 p1 ⊢
  have h2 := keeps_reportTests (keeps_countMarches (keeps_count h1 0x702004 1) (failures &&& 0x3FE)) (failures &&& 0x3FE)
  have p2 := (power_tests (failures &&& 0x3FE) t).symm ▸ p1
  exact keeps_ite (keeps_enterService h2 p2) (keeps_stayAbsent h2)

theorem keeps_bistGoEffect {s₀ s : State} (hk : Keeps s₀ s) : Keeps s₀ (bistGoEffect s) := by
  refine hk.trans ?_
  unfold bistGoEffect
  try dsimp only
  repeat' first
    | with_reducible assumption
    | with_reducible exact Keeps.refl _
    | split
    | with_reducible apply keeps_reject
    | with_reducible apply keeps_idle
    | with_reducible apply keeps_startTests
    | with_reducible apply Keeps.inert
    | (intro u x hu)
    | with_reducible apply Keeps.active
    | exact fun i => sound_power i.present rfl
    | exact fun i => have k := sound_return i.present; sound_absent rfl k rfl
    | exact fun i => i.present
    | exact fun i => i.temps
    | exact fun i => i.queue
    | exact fun i => i.copies
    | exact fun i => i.record
    | exact fun i => i.heads
    | exact fun i => i.memory

theorem keeps_endTests {s₀ s : State} (hk : Keeps s₀ s) (mask failures : Nat) : Keeps s₀ (endTests mask failures s) := by
  refine hk.trans ?_
  unfold endTests
  try dsimp only
  repeat' first
    | with_reducible assumption
    | with_reducible exact Keeps.refl _
    | split
    | with_reducible apply keeps_beginLatched
    | with_reducible apply keeps_reportTests
    | with_reducible apply Keeps.inert
    | (intro u x hu)
    | with_reducible apply Keeps.active
    | exact fun i => sound_power i.present rfl
    | exact fun i => have k := sound_return i.present; sound_absent rfl k rfl
    | exact fun i => i.present
    | exact fun i => i.temps
    | exact fun i => i.queue
    | exact fun i => i.copies
    | exact fun i => i.record
    | exact fun i => i.heads
    | exact fun i => i.memory

end Sys2Proof.Machine
end

