-- ==== Sys2Proof/Laws/KeepsLifeCycle.lean ====
section
/-! SUPPORT. The effects of Machine/LifeCycle.lean keep the queue and the invariant. -/

namespace Sys2Proof.Machine

theorem keeps_writeRecord {s₀ s : State} (hk : Keeps s₀ s) (r : LifeRecord) (hr : s.Inv → legalState r.state = true) :
    Keeps s₀ (writeRecord r s) := by
  refine hk.trans ⟨rfl, fun i => ⟨i.memory, i.heads, i.temps, i.queue, i.present, LifeCycle.legal_iff.2 ⟨hr i,
    (LifeCycle.legal_iff.1 i.record).2⟩, NonVolatile.legal_iff.2 ⟨fun r' e => ?_, fun r' e => ?_⟩⟩⟩
  · have e := Option.some.inj e
    subst e
    exact hr i
  · have e := Option.some.inj e
    subst e
    exact hr i

/-- An update of the life cycle that leaves its record and the record being written. -/
theorem keeps_life {s₀ s : State} (hk : Keeps s₀ s) (l : LifeCycle) (hr : l.record = s.life.record)
    (hw : l.writing = s.life.writing) : Keeps s₀ { s with life := l } :=
  hk.trans ⟨rfl, fun i => ⟨i.memory, i.heads, i.temps, i.queue, i.present, LifeCycle.legal_iff.2
    ⟨hr ▸ (LifeCycle.legal_iff.1 i.record).1, fun r e => (LifeCycle.legal_iff.1 i.record).2 r (hw ▸ e)⟩, i.copies⟩⟩

theorem keeps_challengeEffect {s₀ s : State} (hk : Keeps s₀ s) : Keeps s₀ (challengeEffect s) := by
  refine hk.trans ?_
  unfold challengeEffect
  try dsimp only
  repeat' first
    | with_reducible assumption
    | with_reducible exact Keeps.refl _
    | split
    | with_reducible apply keeps_reject
    | with_reducible apply Keeps.inert
    | (intro u x hu)
    | with_reducible apply Keeps.active
    | exact fun i => sound_power i.present rfl
    | exact fun i => have k := sound_return i.present; sound_absent rfl k rfl
    | exact fun i => i.present
    | exact fun i => i.temps
    | exact fun i => i.queue
    | exact fun i => i.copies
    | exact fun i => i.record
    | exact fun i => i.heads
    | exact fun i => i.memory

theorem keeps_transitionGoEffect {s₀ s : State} (hk : Keeps s₀ s) : Keeps s₀ (transitionGoEffect s) := by
  refine hk.trans ?_
  unfold transitionGoEffect
  try dsimp only
  repeat' first
    | with_reducible assumption
    | with_reducible exact Keeps.refl _
    | split
    | with_reducible apply keeps_reject
    | with_reducible apply Keeps.inert
    | (intro u x hu)
    | with_reducible apply Keeps.active
    | exact fun i => sound_power i.present rfl
    | exact fun i => have k := sound_return i.present; sound_absent rfl k rfl
    | exact fun i => i.present
    | exact fun i => i.temps
    | exact fun i => i.queue
    | exact fun i => i.copies
    | exact fun i => i.record
    | exact fun i => i.heads
    | exact fun i => i.memory

theorem keeps_refuseTransition {s₀ s : State} (hk : Keeps s₀ s) (reason : Nat) :
    Keeps s₀ (refuseTransition reason s) := by
  have h1 : Keeps s₀ { s with life := { s.life with transition := 5, reason := reason } } := keeps_life hk _ rfl rfl
  have h2 := keeps_reject h1
  rw [refuseTransition]
  generalize reject { s with life := { s.life with transition := 5, reason := reason } } = t at h2 ⊢
  refine keeps_raiseArgs (keeps_ite ?_ h2) ..
  have h3 := keeps_writeRecord h2 { t.life.record with failures := bump 32 t.life.record.failures 1 }
    fun i => (LifeCycle.legal_iff.1 i.record).1
  dsimp only
  generalize writeRecord { t.life.record with failures := bump 32 t.life.record.failures 1 } t = u at h3 ⊢
  exact keeps_life h3 { u.life with lockout := true } rfl rfl

theorem keeps_refuseWaiting {s₀ s : State} (hk : Keeps s₀ s) : Keeps s₀ (refuseWaiting s) := by
  refine hk.trans ?_
  unfold refuseWaiting
  try dsimp only
  repeat' first
    | with_reducible assumption
    | with_reducible exact Keeps.refl _
    | split
    | with_reducible apply keeps_clearStarts
    | with_reducible apply Keeps.inert
    | (intro u x hu)
    | with_reducible apply Keeps.active
    | exact fun i => sound_power i.present rfl
    | exact fun i => have k := sound_return i.present; sound_absent rfl k rfl
    | exact fun i => i.present
    | exact fun i => i.temps
    | exact fun i => i.queue
    | exact fun i => i.copies
    | exact fun i => i.record
    | exact fun i => i.heads
    | exact fun i => i.memory

theorem keeps_startWipe {s₀ s : State} (hk : Keeps s₀ s) (r : LifeRecord) (hr : legalState r.state = true) :
    Keeps s₀ (startWipe r s) := by
  have h := keeps_writeRecord (keeps_setRw hk 0x500002 0) { r with wipePending := true, areas := s.wipeAreas } fun _ => hr
  rw [startWipe]
  dsimp only
  generalize writeRecord { r with wipePending := true, areas := s.wipeAreas } (setRw 0x500002 0 s) = u at h ⊢
  exact keeps_refuseWaiting (keeps_life h { u.life with wiping := true, ownWipe := true } rfl rfl)

theorem keeps_acceptTransition {s₀ s : State} (hk : Keeps s₀ s) (v : Verifying) (hv : legalState v.target = true) :
    Keeps s₀ (acceptTransition v s) := by
  have h1 : Keeps s₀ { s with life := { s.life with transition := 3, reason := 0 } } := keeps_life hk _ rfl rfl
  rw [acceptTransition]
  dsimp only
  refine keeps_ite (keeps_startWipe h1 _ hv) ?_
  exact h1.trans ⟨rfl, fun i => ⟨i.memory, i.heads, i.temps, i.queue, i.present, LifeCycle.legal_iff.2
    ⟨(LifeCycle.legal_iff.1 i.record).1, fun r e => by
      have e := Option.some.inj e
      subst e
      exact hv⟩, i.copies⟩⟩

theorem legal_target {a b : Nat} {x : Bool × Bool} (h : transitionRow a b = some x) : legalState b = true := by
  unfold transitionRow at h
  split at h
  all_goals first | rfl | simp at h

theorem legal_of_reason {s : State} {v : Verifying} (h : s.transitionReason v = 0) : legalState v.target = true := by
  unfold State.transitionReason transitionCheck at h
  split at h
  · simp at h
  · split at h
    · simp at h
    · split at h
      · simp at h
      · rename_i e
        exact legal_target e

theorem keeps_endVerification {s₀ s : State} (hk : Keeps s₀ s) (v : Verifying) : Keeps s₀ (endVerification v s) := by
  have h1 : Keeps s₀ { s with life := { s.life with verifying := none } } := keeps_life hk _ rfl rfl
  rw [endVerification]
  dsimp only
  split
  · rename_i h
    exact keeps_acceptTransition h1 v (legal_of_reason h)
  · exact keeps_refuseTransition h1 _

theorem keeps_changeState {s₀ s : State} (hk : Keeps s₀ s) (r : LifeRecord)
    (hr : s.Inv → legalState r.state = true) : Keeps s₀ (changeState r s) := by
  have h1 := keeps_writeRecord hk r hr
  rw [changeState]
  generalize writeRecord r s = t at h1 ⊢
  refine keeps_pump (keeps_raiseArgs (keeps_refuseWaiting (s := { t with life := { t.life with writing := none, transition := 4 } }) ?_) ..)
  exact h1.trans ⟨rfl, fun i => ⟨i.memory, i.heads, i.temps, i.queue, i.present, LifeCycle.legal_iff.2
    ⟨(LifeCycle.legal_iff.1 i.record).1, fun r e => nomatch e⟩, i.copies⟩⟩

theorem keeps_finishWipe {s₀ s : State} (hk : Keeps s₀ s) : Keeps s₀ (finishWipe s) := by
  have h1 : Keeps s₀ { s with contexts := .initial, mem := s.life.record.areas.foldl zeroArea s.mem } :=
    hk.trans ⟨rfl, fun i => ⟨wf_zeroAreas i.memory _, i.heads, i.temps, i.queue, i.present, i.record, i.copies⟩⟩
  have h2 := keeps_emptyAllSlots h1
  rw [finishWipe]
  dsimp only
  generalize emptyAllSlots { s with contexts := .initial, mem := s.life.record.areas.foldl zeroArea s.mem } = t at h2 ⊢
  have h3 : Keeps s₀ { t with nvm := { t.nvm with settings := none, image := .factory }, fseq := { t.fseq with installing := none } } :=
    h2.trans ⟨rfl, fun i => ⟨i.memory, i.heads, i.temps, i.queue, i.present, i.record, i.copies⟩⟩
  generalize ({ t with nvm := { t.nvm with settings := none, image := .factory }, fseq := { t.fseq with installing := none } } : State) = u at h3 ⊢
  have h4 : Keeps s₀ (writeRecord { s.life.record with ownerKey := 0, wipePending := false } u) :=
    ⟨h3.pending, fun i =>
      (keeps_writeRecord (Keeps.refl u) { s.life.record with ownerKey := 0, wipePending := false }
        fun _ => (LifeCycle.legal_iff.1 (hk.inv i).record).1).inv (h3.inv i)⟩
  have h5 := keeps_assertReset (keeps_raise h4 0x1003) false
  generalize assertReset false _ = v at h5 ⊢
  exact keeps_life h5 { v.life with transition := 4 } rfl rfl

end Sys2Proof.Machine
end

