-- ==== Sys2Proof/Laws/KeepsNetwork.lean ====
section
/-! SUPPORT. The effects of Machine/Network.lean keep the queue and the invariant. -/

namespace Sys2Proof.Machine

theorem keeps_readFails {s₀ s : State} (hk : Keeps s₀ s) (what : Transaction) (rows : List Nat) (status : Nat) : Keeps s₀ (readFails what rows status s) := by
  refine hk.trans ?_
  unfold readFails
  try dsimp only
  repeat' first
    | with_reducible assumption
    | with_reducible exact Keeps.refl _
    | split
    | with_reducible apply keeps_withRun
    | with_reducible apply keeps_markRows
    | with_reducible apply Keeps.inert
    | (intro u x hu)
    | with_reducible apply Keeps.active
    | exact fun i => sound_power i.present rfl
    | exact fun i => have k := sound_return i.present; sound_absent rfl k rfl
    | exact fun i => i.present
    | exact fun i => i.temps
    | exact fun i => i.queue
    | exact fun i => i.copies
    | exact fun i => i.record
    | exact fun i => i.heads
    | exact fun i => i.memory

theorem keeps_rejoinLeaf {s₀ s : State} (hk : Keeps s₀ s) (old : State) (parent child : Nat) : Keeps s₀ (rejoinLeaf old parent child s) := by
  refine hk.trans ?_
  unfold rejoinLeaf
  try dsimp only
  repeat' first
    | with_reducible assumption
    | with_reducible exact Keeps.refl _
    | split
    | with_reducible apply keeps_dirtySlot
    | with_reducible apply keeps_setContext
    | with_reducible apply keeps_dirtyNode
    | with_reducible apply Keeps.inert
    | (intro u x hu)
    | with_reducible apply Keeps.active
    | exact fun i => sound_power i.present rfl
    | exact fun i => have k := sound_return i.present; sound_absent rfl k rfl
    | exact fun i => i.present
    | exact fun i => i.temps
    | exact fun i => i.queue
    | exact fun i => i.copies
    | exact fun i => i.record
    | exact fun i => i.heads
    | exact fun i => i.memory

theorem keeps_unfork {s₀ s : State} (hk : Keeps s₀ s) (old : State) (slot : Nat) (x : Served) : Keeps s₀ (unfork old slot x s) := by
  refine hk.trans ?_
  unfold unfork
  try dsimp only
  repeat' first
    | with_reducible assumption
    | with_reducible exact Keeps.refl _
    | split
    | with_reducible apply keeps_rejoinLeaf
    | with_reducible apply keeps_freeSlot
    | with_reducible apply Keeps.inert
    | (intro u x hu)
    | with_reducible apply Keeps.active
    | exact fun i => sound_power i.present rfl
    | exact fun i => have k := sound_return i.present; sound_absent rfl k rfl
    | exact fun i => i.present
    | exact fun i => i.temps
    | exact fun i => i.queue
    | exact fun i => i.copies
    | exact fun i => i.record
    | exact fun i => i.heads
    | exact fun i => i.memory

theorem keeps_uncount {s₀ s : State} (hk : Keeps s₀ s) (x : Served) : Keeps s₀ (uncount x s) := by
  refine hk.trans ?_
  unfold uncount
  try dsimp only
  repeat' first
    | with_reducible assumption
    | with_reducible exact Keeps.refl _
    | split
    | with_reducible apply keeps_setCounter
    | with_reducible apply Keeps.inert
    | (intro u x hu)
    | with_reducible apply Keeps.active
    | exact fun i => sound_power i.present rfl
    | exact fun i => have k := sound_return i.present; sound_absent rfl k rfl
    | exact fun i => i.present
    | exact fun i => i.temps
    | exact fun i => i.queue
    | exact fun i => i.copies
    | exact fun i => i.record
    | exact fun i => i.heads
    | exact fun i => i.memory

theorem keeps_failServed {s₀ s : State} (hk : Keeps s₀ s) (old : State) (slot : Nat) (x : Served) : Keeps s₀ (failServed old slot s x) := by
  refine hk.trans ?_
  unfold failServed
  try dsimp only
  repeat' first
    | with_reducible assumption
    | with_reducible exact Keeps.refl _
    | split
    | with_reducible apply keeps_writeResults
    | with_reducible apply keeps_uncount
    | with_reducible apply keeps_unfork
    | with_reducible apply Keeps.inert
    | (intro u x hu)
    | with_reducible apply Keeps.active
    | exact fun i => sound_power i.present rfl
    | exact fun i => have k := sound_return i.present; sound_absent rfl k rfl
    | exact fun i => i.present
    | exact fun i => i.temps
    | exact fun i => i.queue
    | exact fun i => i.copies
    | exact fun i => i.record
    | exact fun i => i.heads
    | exact fun i => i.memory

theorem keeps_loseWritten {s₀ s : State} (hk : Keeps s₀ s) (slot : Nat) : Keeps s₀ (loseWritten slot s) := by
  refine hk.trans ?_
  unfold loseWritten
  try dsimp only
  repeat' first
    | with_reducible assumption
    | with_reducible exact Keeps.refl _
    | split
    | with_reducible apply keeps_failServed
    | with_reducible apply keeps_loseContext
    | with_reducible apply keeps_markRows
    | (with_reducible apply keeps_foldl)
    | with_reducible apply Keeps.inert
    | (intro u x hu)
    | with_reducible apply Keeps.active
    | exact fun i => sound_power i.present rfl
    | exact fun i => have k := sound_return i.present; sound_absent rfl k rfl
    | exact fun i => i.present
    | exact fun i => i.temps
    | exact fun i => i.queue
    | exact fun i => i.copies
    | exact fun i => i.record
    | exact fun i => i.heads
    | exact fun i => i.memory

theorem keeps_stopBatch {s₀ s : State} (hk : Keeps s₀ s) (t : Nat) : Keeps s₀ (stopBatch t s) := by
  refine hk.trans ?_
  unfold stopBatch
  try dsimp only
  repeat' first
    | with_reducible assumption
    | with_reducible exact Keeps.refl _
    | split
    | with_reducible apply keeps_setBatch
    | with_reducible apply Keeps.inert
    | (intro u x hu)
    | with_reducible apply Keeps.active
    | exact fun i => sound_power i.present rfl
    | exact fun i => have k := sound_return i.present; sound_absent rfl k rfl
    | exact fun i => i.present
    | exact fun i => i.temps
    | exact fun i => i.queue
    | exact fun i => i.copies
    | exact fun i => i.record
    | exact fun i => i.heads
    | exact fun i => i.memory

theorem keeps_manifestFails {s₀ s : State} (hk : Keeps s₀ s) : Keeps s₀ (manifestFails s) := by
  refine hk.trans ?_
  unfold manifestFails
  try dsimp only
  repeat' first
    | with_reducible assumption
    | with_reducible exact Keeps.refl _
    | split
    | with_reducible apply keeps_refuseManifest
    | with_reducible apply keeps_withRun
    | with_reducible apply Keeps.inert
    | (intro u x hu)
    | with_reducible apply Keeps.active
    | exact fun i => sound_power i.present rfl
    | exact fun i => have k := sound_return i.present; sound_absent rfl k rfl
    | exact fun i => i.present
    | exact fun i => i.temps
    | exact fun i => i.queue
    | exact fun i => i.copies
    | exact fun i => i.record
    | exact fun i => i.heads
    | exact fun i => i.memory

theorem keeps_errorOutcome {s₀ s : State} (hk : Keeps s₀ s) (what : Transaction) : Keeps s₀ (errorOutcome what s) := by
  refine hk.trans ?_
  unfold errorOutcome
  try dsimp only
  repeat' first
    | with_reducible assumption
    | with_reducible exact Keeps.refl _
    | split
    | with_reducible apply keeps_manifestFails
    | with_reducible apply keeps_withRun
    | with_reducible apply keeps_readFails
    | with_reducible apply keeps_markRows
    | with_reducible apply keeps_loseWritten
    | with_reducible apply keeps_stopBatch
    | with_reducible apply keeps_setBatch
    | with_reducible apply keeps_swapSourceError
    | with_reducible apply keeps_loseContext
    | with_reducible apply keeps_failSnapshot
    | with_reducible apply keeps_restoreRead
    | with_reducible apply keeps_failRestore
    | with_reducible apply Keeps.inert
    | (intro u x hu)
    | with_reducible apply Keeps.active
    | exact fun i => sound_power i.present rfl
    | exact fun i => have k := sound_return i.present; sound_absent rfl k rfl
    | exact fun i => i.present
    | exact fun i => i.temps
    | exact fun i => i.queue
    | exact fun i => i.copies
    | exact fun i => i.record
    | exact fun i => i.heads
    | exact fun i => i.memory

theorem keeps_errorResponse {s₀ s : State} (hk : Keeps s₀ s) (port : Nat) (what : Transaction) : Keeps s₀ (errorResponse port what s) := by
  refine hk.trans ?_
  unfold errorResponse
  try dsimp only
  repeat' first
    | with_reducible assumption
    | with_reducible exact Keeps.refl _
    | split
    | with_reducible apply keeps_count
    | with_reducible apply keeps_raiseCount
    | with_reducible apply keeps_errorOutcome
    | with_reducible apply Keeps.inert
    | (intro u x hu)
    | with_reducible apply Keeps.active
    | exact fun i => sound_power i.present rfl
    | exact fun i => have k := sound_return i.present; sound_absent rfl k rfl
    | exact fun i => i.present
    | exact fun i => i.temps
    | exact fun i => i.queue
    | exact fun i => i.copies
    | exact fun i => i.record
    | exact fun i => i.heads
    | exact fun i => i.memory

theorem keeps_rerunStep {s₀ s : State} (hk : Keeps s₀ s) : Keeps s₀ (rerunStep s) := by
  refine hk.trans ?_
  unfold rerunStep
  try dsimp only
  repeat' first
    | with_reducible assumption
    | with_reducible exact Keeps.refl _
    | split
    | with_reducible apply keeps_clearColumns
    | with_reducible apply keeps_withRun
    | with_reducible apply Keeps.inert
    | (intro u x hu)
    | with_reducible apply Keeps.active
    | exact fun i => sound_power i.present rfl
    | exact fun i => have k := sound_return i.present; sound_absent rfl k rfl
    | exact fun i => i.present
    | exact fun i => i.temps
    | exact fun i => i.queue
    | exact fun i => i.copies
    | exact fun i => i.record
    | exact fun i => i.heads
    | exact fun i => i.memory

theorem keeps_settleAbandoned {s₀ s : State} (hk : Keeps s₀ s) : Keeps s₀ (settleAbandoned s) := by
  refine hk.trans ?_
  unfold settleAbandoned
  try dsimp only
  repeat' first
    | with_reducible assumption
    | with_reducible exact Keeps.refl _
    | split
    | with_reducible apply keeps_startHeldSwaps
    | with_reducible apply keeps_actionFive
    | with_reducible apply keeps_actionFour
    | with_reducible apply keeps_applyCancels
    | with_reducible apply keeps_releaseReserved
    | with_reducible apply keeps_reloadMicro
    | with_reducible apply keeps_startRestore
    | with_reducible apply keeps_beginLatched
    | with_reducible apply keeps_startWaitingTests
    | with_reducible apply Keeps.inert
    | (intro u x hu)
    | with_reducible apply Keeps.active
    | exact fun i => sound_power i.present rfl
    | exact fun i => have k := sound_return i.present; sound_absent rfl k rfl
    | exact fun i => i.present
    | exact fun i => i.temps
    | exact fun i => i.queue
    | exact fun i => i.copies
    | exact fun i => i.record
    | exact fun i => i.heads
    | exact fun i => i.memory

theorem keeps_quiesceUnit {s₀ s : State} (hk : Keeps s₀ s) : Keeps s₀ (quiesceUnit s) := by
  refine hk.trans ?_
  unfold quiesceUnit
  try dsimp only
  repeat' first
    | with_reducible assumption
    | with_reducible exact Keeps.refl _
    | split
    | with_reducible apply keeps_raiseCount
    | with_reducible apply keeps_clearColumns
    | with_reducible apply keeps_settleAbandoned
    | with_reducible apply keeps_clearStarts
    | with_reducible apply Keeps.inert
    | (intro u x hu)
    | with_reducible apply Keeps.active
    | exact fun i => sound_power i.present rfl
    | exact fun i => have k := sound_return i.present; sound_absent rfl k rfl
    | exact fun i => i.present
    | exact fun i => i.temps
    | exact fun i => i.queue
    | exact fun i => i.copies
    | exact fun i => i.record
    | exact fun i => i.heads
    | exact fun i => i.memory

theorem keeps_leadConflict {s₀ s : State} (hk : Keeps s₀ s) (west : Bool) : Keeps s₀ (leadConflict west s) := by
  refine hk.trans ?_
  unfold leadConflict
  try dsimp only
  repeat' first
    | with_reducible assumption
    | with_reducible exact Keeps.refl _
    | split
    | with_reducible apply keeps_quiesceUnit
    | with_reducible apply keeps_rerunStep
    | with_reducible apply keeps_raiseCount
    | with_reducible apply Keeps.inert
    | (intro u x hu)
    | with_reducible apply Keeps.active
    | exact fun i => sound_power i.present rfl
    | exact fun i => have k := sound_return i.present; sound_absent rfl k rfl
    | exact fun i => i.present
    | exact fun i => i.temps
    | exact fun i => i.queue
    | exact fun i => i.copies
    | exact fun i => i.record
    | exact fun i => i.heads
    | exact fun i => i.memory

end Sys2Proof.Machine
end

