-- ==== Sys2Proof/Laws/KeepsDictionary.lean ====
section
/-! SUPPORT. The effects of Machine/Dictionary.lean keep the queue and the invariant. -/

namespace Sys2Proof.Machine

theorem keeps_commitEffect {s₀ s : State} (hk : Keeps s₀ s) : Keeps s₀ (commitEffect s) := by
  refine hk.trans ?_
  unfold commitEffect
  try dsimp only
  repeat' first
    | with_reducible assumption
    | with_reducible exact Keeps.refl _
    | split
    | with_reducible apply keeps_idleCommit
    | with_reducible apply Keeps.inert
    | (intro u x hu)
    | with_reducible apply Keeps.active
    | exact fun i => sound_power i.present rfl
    | exact fun i => have k := sound_return i.present; sound_absent rfl k rfl
    | exact fun i => i.present
    | exact fun i => i.temps
    | exact fun i => i.queue
    | exact fun i => i.copies
    | exact fun i => i.record
    | exact fun i => i.heads
    | exact fun i => i.memory

theorem keeps_storeEffect {s₀ s : State} (hk : Keeps s₀ s) : Keeps s₀ (storeEffect s) := by
  refine hk.trans ?_
  unfold storeEffect
  try dsimp only
  repeat' first
    | with_reducible assumption
    | with_reducible exact Keeps.refl _
    | split
    | with_reducible apply Keeps.inert
    | (intro u x hu)
    | with_reducible apply Keeps.active
    | exact fun i => sound_power i.present rfl
    | exact fun i => have k := sound_return i.present; sound_absent rfl k rfl
    | exact fun i => i.present
    | exact fun i => i.temps
    | exact fun i => i.queue
    | exact fun i => i.copies
    | exact fun i => i.record
    | exact fun i => i.heads
    | exact fun i => i.memory

theorem keeps_endStore {s₀ s : State} (hk : Keeps s₀ s) (img : Store × Store) (ok : Bool) : Keeps s₀ (endStore img ok s) := by
  refine hk.trans ?_
  unfold endStore
  try dsimp only
  repeat' first
    | with_reducible assumption
    | with_reducible exact Keeps.refl _
    | split
    | with_reducible apply keeps_raise
    | with_reducible apply Keeps.inert
    | (intro u x hu)
    | with_reducible apply Keeps.active
    | exact fun i => sound_power i.present rfl
    | exact fun i => have k := sound_return i.present; sound_absent rfl k rfl
    | exact fun i => i.present
    | exact fun i => i.temps
    | exact fun i => i.queue
    | exact fun i => i.copies
    | exact fun i => i.record
    | exact fun i => i.heads
    | exact fun i => i.memory

theorem keeps_restoreDefaultsEffect {s₀ s : State} (hk : Keeps s₀ s) : Keeps s₀ (restoreDefaultsEffect s) := by
  refine hk.trans ?_
  unfold restoreDefaultsEffect
  try dsimp only
  repeat' first
    | with_reducible assumption
    | with_reducible exact Keeps.refl _
    | split
    | with_reducible apply Keeps.inert
    | (intro u x hu)
    | with_reducible apply Keeps.active
    | exact fun i => sound_power i.present rfl
    | exact fun i => have k := sound_return i.present; sound_absent rfl k rfl
    | exact fun i => i.present
    | exact fun i => i.temps
    | exact fun i => i.queue
    | exact fun i => i.copies
    | exact fun i => i.record
    | exact fun i => i.heads
    | exact fun i => i.memory

theorem keeps_counterClearEffect {s₀ s : State} (hk : Keeps s₀ s) : Keeps s₀ (counterClearEffect s) := by
  refine hk.trans ?_
  unfold counterClearEffect
  try dsimp only
  repeat' first
    | with_reducible assumption
    | with_reducible exact Keeps.refl _
    | split
    | with_reducible apply Keeps.inert
    | (intro u x hu)
    | with_reducible apply Keeps.active
    | exact fun i => sound_power i.present rfl
    | exact fun i => have k := sound_return i.present; sound_absent rfl k rfl
    | exact fun i => i.present
    | exact fun i => i.temps
    | exact fun i => i.queue
    | exact fun i => i.copies
    | exact fun i => i.record
    | exact fun i => i.heads
    | exact fun i => i.memory

theorem popEvents_length_le (n : Nat) (es : List Event) : (popEvents n es).length ≤ es.length := by
  induction es generalizing n with
  | nil => cases n <;> simp [popEvents]
  | cons e es ih =>
    cases n with
    | zero => simp [popEvents]
    | succ n =>
      rw [popEvents]
      split
      · exact Nat.le_succ_of_le (ih n)
      · exact Nat.succ_le_succ (ih (n + 1))

theorem keeps_eventPopEffect {s₀ s : State} (hk : Keeps s₀ s) (n : Nat) : Keeps s₀ (eventPopEffect n s) :=
  hk.trans ⟨rfl, fun i => ⟨i.memory, i.heads, i.temps, Nat.le_trans (popEvents_length_le n _) i.queue, i.present, i.record,
    i.copies⟩⟩

theorem keeps_commandEffect {s₀ s : State} (hk : Keeps s₀ s) (key v : Nat) : Keeps s₀ (commandEffect key v s) := by
  refine hk.trans ?_
  unfold commandEffect
  try dsimp only
  repeat' first
    | with_reducible assumption
    | with_reducible exact Keeps.refl _
    | split
    | with_reducible apply keeps_swapGoEffect
    | with_reducible apply keeps_swapAbortEffect
    | with_reducible apply keeps_batchGoEffect
    | with_reducible apply keeps_challengeEffect
    | with_reducible apply keeps_transitionGoEffect
    | with_reducible apply keeps_storeEffect
    | with_reducible apply keeps_restoreDefaultsEffect
    | with_reducible apply keeps_laneResetEffect
    | with_reducible apply keeps_unitResetEffect
    | with_reducible apply keeps_commitEffect
    | with_reducible apply keeps_restage
    | with_reducible apply keeps_stepGoEffect
    | with_reducible apply keeps_installEffect
    | with_reducible apply keeps_factoryRestoreEffect
    | with_reducible apply keeps_counterClearEffect
    | with_reducible apply keeps_eventPopEffect
    | with_reducible apply keeps_snapshotGoEffect
    | with_reducible apply keeps_holdClearEffect
    | with_reducible apply keeps_holdSendGoEffect
    | with_reducible apply keeps_restoreGoEffect
    | with_reducible apply keeps_bistGoEffect
    | with_reducible apply Keeps.inert
    | (intro u x hu)
    | with_reducible apply Keeps.active
    | exact fun i => sound_power i.present rfl
    | exact fun i => have k := sound_return i.present; sound_absent rfl k rfl
    | exact fun i => i.present
    | exact fun i => i.temps
    | exact fun i => i.queue
    | exact fun i => i.copies
    | exact fun i => i.record
    | exact fun i => i.heads
    | exact fun i => i.memory

theorem keeps_takeAddress {s₀ s : State} (hk : Keeps s₀ s) (v : Nat) : Keeps s₀ (takeAddress v s) := by
  refine hk.trans ?_
  unfold takeAddress
  try dsimp only
  repeat' first
    | with_reducible assumption
    | with_reducible exact Keeps.refl _
    | split
    | with_reducible apply keeps_dropLate
    | with_reducible apply Keeps.inert
    | (intro u x hu)
    | with_reducible apply Keeps.active
    | exact fun i => sound_power i.present rfl
    | exact fun i => have k := sound_return i.present; sound_absent rfl k rfl
    | exact fun i => i.present
    | exact fun i => i.temps
    | exact fun i => i.queue
    | exact fun i => i.copies
    | exact fun i => i.record
    | exact fun i => i.heads
    | exact fun i => i.memory

theorem keeps_setPlain {s₀ s : State} (hk : Keeps s₀ s) (key v : Nat) (o : ObjInfo) : Keeps s₀ (setPlain key v o s) := by
  refine hk.trans ?_
  unfold setPlain
  try dsimp only
  repeat' first
    | with_reducible assumption
    | with_reducible exact Keeps.refl _
    | split
    | with_reducible apply keeps_setRw
    | with_reducible apply keeps_broadcastDiscover
    | with_reducible apply keeps_takeAddress
    | with_reducible apply Keeps.inert
    | (intro u x hu)
    | with_reducible apply Keeps.active
    | exact fun i => sound_power i.present rfl
    | exact fun i => have k := sound_return i.present; sound_absent rfl k rfl
    | exact fun i => i.present
    | exact fun i => i.temps
    | exact fun i => i.queue
    | exact fun i => i.copies
    | exact fun i => i.record
    | exact fun i => i.heads
    | exact fun i => i.memory

theorem keeps_writeValue {s₀ s : State} (hk : Keeps s₀ s) (key v : Nat) (o : ObjInfo) :
    Keeps s₀ (writeValue key v o s).2 := by
  unfold writeValue
  dsimp only
  split
  · exact hk
  · split
    · split
      · exact hk
      · split
        · exact hk
        · exact keeps_commandEffect hk ..
    · split
      · exact hk
      · split
        · split
          · exact hk
          · exact keeps_setStaged hk ..
        · exact keeps_setPlain hk ..

theorem keeps_countResult {s₀ s : State} (hk : Keeps s₀ s) (r : Nat) : Keeps s₀ (countResult r s) := by
  refine hk.trans ?_
  unfold countResult
  try dsimp only
  repeat' first
    | with_reducible assumption
    | with_reducible exact Keeps.refl _
    | split
    | with_reducible apply keeps_count
    | with_reducible apply keeps_reject
    | with_reducible apply Keeps.inert
    | (intro u x hu)
    | with_reducible apply Keeps.active
    | exact fun i => sound_power i.present rfl
    | exact fun i => have k := sound_return i.present; sound_absent rfl k rfl
    | exact fun i => i.present
    | exact fun i => i.temps
    | exact fun i => i.queue
    | exact fun i => i.copies
    | exact fun i => i.record
    | exact fun i => i.heads
    | exact fun i => i.memory

theorem keeps_refuseAccess {s₀ s : State} (hk : Keeps s₀ s) : Keeps s₀ (refuseAccess s) := by
  refine hk.trans ?_
  unfold refuseAccess
  try dsimp only
  repeat' first
    | with_reducible assumption
    | with_reducible exact Keeps.refl _
    | split
    | with_reducible apply keeps_count
    | with_reducible apply Keeps.inert
    | (intro u x hu)
    | with_reducible apply Keeps.active
    | exact fun i => sound_power i.present rfl
    | exact fun i => have k := sound_return i.present; sound_absent rfl k rfl
    | exact fun i => i.present
    | exact fun i => i.temps
    | exact fun i => i.queue
    | exact fun i => i.copies
    | exact fun i => i.record
    | exact fun i => i.heads
    | exact fun i => i.memory

theorem keeps_closeTransfer {s₀ s : State} (hk : Keeps s₀ s) (who : Requester) (writing : Bool) : Keeps s₀ (closeTransfer who writing s) := by
  refine hk.trans ?_
  unfold closeTransfer
  try dsimp only
  repeat' first
    | with_reducible assumption
    | with_reducible exact Keeps.refl _
    | split
    | with_reducible apply Keeps.inert
    | (intro u x hu)
    | with_reducible apply Keeps.active
    | exact fun i => sound_power i.present rfl
    | exact fun i => have k := sound_return i.present; sound_absent rfl k rfl
    | exact fun i => i.present
    | exact fun i => i.temps
    | exact fun i => i.queue
    | exact fun i => i.copies
    | exact fun i => i.record
    | exact fun i => i.heads
    | exact fun i => i.memory

theorem keeps_keepTransfer {s₀ s : State} (hk : Keeps s₀ s) (t : Transfer) : Keeps s₀ (keepTransfer t s) := by
  refine hk.trans ?_
  unfold keepTransfer
  try dsimp only
  repeat' first
    | with_reducible assumption
    | with_reducible exact Keeps.refl _
    | split
    | with_reducible apply keeps_closeTransfer
    | with_reducible apply Keeps.inert
    | (intro u x hu)
    | with_reducible apply Keeps.active
    | exact fun i => sound_power i.present rfl
    | exact fun i => have k := sound_return i.present; sound_absent rfl k rfl
    | exact fun i => i.present
    | exact fun i => i.temps
    | exact fun i => i.queue
    | exact fun i => i.copies
    | exact fun i => i.record
    | exact fun i => i.heads
    | exact fun i => i.memory

theorem keeps_openTransfer {s₀ s t : State} (hk : Keeps s₀ s) {who : Requester} {writing : Bool}
    (h : openTransfer who writing s = some t) : Keeps s₀ t := by
  unfold openTransfer at h
  split at h
  · exact Option.some.inj h ▸ keeps_count (keeps_closeTransfer hk ..) ..
  · split at h
    · exact nomatch h
    · exact Option.some.inj h ▸ hk

theorem keeps_laneAccess {s₀ s : State} (hk : Keeps s₀ s) (key : Nat) : Keeps s₀ (laneAccess key s) := by
  refine hk.trans ?_
  unfold laneAccess
  try dsimp only
  repeat' first
    | with_reducible assumption
    | with_reducible exact Keeps.refl _
    | split
    | with_reducible apply keeps_loseLanes
    | with_reducible apply keeps_count
    | with_reducible apply Keeps.inert
    | (intro u x hu)
    | with_reducible apply Keeps.active
    | exact fun i => sound_power i.present rfl
    | exact fun i => have k := sound_return i.present; sound_absent rfl k rfl
    | exact fun i => i.present
    | exact fun i => i.temps
    | exact fun i => i.queue
    | exact fun i => i.copies
    | exact fun i => i.record
    | exact fun i => i.heads
    | exact fun i => i.memory

theorem keeps_runRead {s₀ s : State} (hk : Keeps s₀ s) (q : Request) (o : ObjInfo) (isOpen : Bool) :
    Keeps s₀ (runRead q o isOpen s).state := by
  unfold runRead
  split
  · exact keeps_refuseAccess hk
  · split
    · exact hk
    · exact keeps_laneAccess hk _

theorem keeps_runWrite {s₀ s : State} (hk : Keeps s₀ s) (q : Request) (o : ObjInfo) (isOpen : Bool) :
    Keeps s₀ (runWrite q o isOpen s).state := by
  unfold runWrite
  split
  · exact keeps_refuseAccess hk
  · split
    · exact hk
    · exact keeps_writeValue (keeps_laneAccess hk _) ..

theorem keeps_readSegment {s₀ s : State} (hk : Keeps s₀ s) (q : Request) (o : ObjInfo) (t : Transfer) :
    Keeps s₀ (readSegment q o t s).state := by
  unfold readSegment
  exact keeps_ite (keeps_closeTransfer hk ..) (keeps_keepTransfer hk ..)

theorem keeps_runReadBlock {s₀ s : State} (hk : Keeps s₀ s) (who : Requester) (q : Request) (o : ObjInfo)
    (isOpen : Bool) : Keeps s₀ (runReadBlock who q o isOpen s).state := by
  unfold runReadBlock
  split
  · exact keeps_refuseAccess hk
  · split
    · exact hk
    · split
      · split
        · exact hk
        · rename_i h
          exact keeps_readSegment (keeps_openTransfer hk h) ..
      · split
        · split
          · exact keeps_readSegment hk ..
          · exact keeps_closeTransfer hk ..
        · exact hk

theorem keeps_writeSegment {s₀ s : State} (hk : Keeps s₀ s) (q : Request) (o : ObjInfo) (isOpen : Bool)
    (t : Transfer) : Keeps s₀ (writeSegment q o isOpen t s).state := by
  unfold writeSegment
  dsimp only
  split
  · exact keeps_closeTransfer hk ..
  · split
    · exact keeps_keepTransfer hk ..
    · split
      · exact keeps_refuseAccess (keeps_closeTransfer hk ..)
      · exact keeps_writeValue (keeps_closeTransfer hk ..) ..

theorem keeps_runWriteBlock {s₀ s : State} (hk : Keeps s₀ s) (who : Requester) (q : Request) (o : ObjInfo)
    (isOpen : Bool) : Keeps s₀ (runWriteBlock who q o isOpen s).state := by
  unfold runWriteBlock
  split
  · exact hk
  · split
    · split
      · exact hk
      · rename_i h
        exact keeps_writeSegment (keeps_openTransfer hk h) ..
    · split
      · split
        · exact keeps_writeSegment hk ..
        · exact keeps_closeTransfer hk ..
      · exact hk

theorem keeps_runAbort {s₀ s : State} (hk : Keeps s₀ s) (who : Requester) (q : Request) :
    Keeps s₀ (runAbort who q s).state := by
  unfold runAbort
  dsimp only
  split
  · with_reducible apply Keeps.inert
    exact hk
  · exact hk

theorem keeps_runObject {s₀ s : State} (hk : Keeps s₀ s) (who : Requester) (q : Request) (o : ObjInfo)
    (isOpen : Bool) : Keeps s₀ (runObject who q o isOpen s).state := by
  unfold runObject
  split
  · exact keeps_runRead hk ..
  · exact keeps_runWrite hk ..
  · exact keeps_runReadBlock hk ..
  · exact keeps_runWriteBlock hk ..
  · exact keeps_runAbort hk ..

theorem keeps_runOn {s₀ s : State} (hk : Keeps s₀ s) (a : Asker) (who : Requester) (m : Bytes) (q : Request)
    (o : ObjInfo) : Keeps s₀ (runOn a who m q o s).2 := by
  unfold runOn
  dsimp only
  split
  · split
    · exact keeps_countResult hk 7
    · exact keeps_refuseAccess hk
  · split
    · exact hk
    · exact keeps_countResult (keeps_runObject hk ..) _

theorem keeps_runMessage {s₀ s : State} (hk : Keeps s₀ s) (a : Asker) (who : Requester) (m : Bytes) :
    Keeps s₀ (runMessage a who m s).2 := by
  unfold runMessage
  dsimp only
  split
  · exact keeps_countResult hk 7
  · split
    · exact keeps_countResult hk 1
    · exact keeps_runOn hk ..

theorem keeps_dropUnassigned {s₀ s : State} (hk : Keeps s₀ s) : Keeps s₀ (dropUnassigned s) := by
  refine hk.trans ?_
  unfold dropUnassigned
  try dsimp only
  repeat' first
    | with_reducible assumption
    | with_reducible exact Keeps.refl _
    | split
    | with_reducible apply keeps_raiseCount
    | with_reducible apply Keeps.inert
    | (intro u x hu)
    | with_reducible apply Keeps.active
    | exact fun i => sound_power i.present rfl
    | exact fun i => have k := sound_return i.present; sound_absent rfl k rfl
    | exact fun i => i.present
    | exact fun i => i.temps
    | exact fun i => i.queue
    | exact fun i => i.copies
    | exact fun i => i.record
    | exact fun i => i.heads
    | exact fun i => i.memory

theorem keeps_meshRequest {s₀ s : State} (hk : Keeps s₀ s) (eid : Byte) (m : Bytes) :
    Keeps s₀ (meshRequest eid m s) := by
  unfold meshRequest
  split
  · exact hk
  · split
    · exact keeps_dropUnassigned hk
    · split
      · exact keeps_count hk ..
      · have h := keeps_runMessage hk (s.asker eid) (.endpoint eid) m
        generalize runMessage (s.asker eid) (.endpoint eid) m s = r at h
        obtain ⟨_ | b, t⟩ := r
        · exact h
        · exact keeps_sendMesh h ..

theorem keeps_setEndpoint {s₀ s : State} (hk : Keeps s₀ s) (eid : Byte) : Keeps s₀ (setEndpoint eid s) := by
  refine hk.trans ?_
  unfold setEndpoint
  try dsimp only
  repeat' first
    | with_reducible assumption
    | with_reducible exact Keeps.refl _
    | split
    | with_reducible apply keeps_sendMesh
    | with_reducible apply Keeps.inert
    | (intro u x hu)
    | with_reducible apply Keeps.active
    | exact fun i => sound_power i.present rfl
    | exact fun i => have k := sound_return i.present; sound_absent rfl k rfl
    | exact fun i => i.present
    | exact fun i => i.temps
    | exact fun i => i.queue
    | exact fun i => i.copies
    | exact fun i => i.record
    | exact fun i => i.heads
    | exact fun i => i.memory

theorem keeps_getEndpoint {s₀ s : State} (hk : Keeps s₀ s) (src : Byte) : Keeps s₀ (getEndpoint src s) := by
  refine hk.trans ?_
  unfold getEndpoint
  try dsimp only
  repeat' first
    | with_reducible assumption
    | with_reducible exact Keeps.refl _
    | split
    | with_reducible apply keeps_sendMesh
    | with_reducible apply Keeps.inert
    | (intro u x hu)
    | with_reducible apply Keeps.active
    | exact fun i => sound_power i.present rfl
    | exact fun i => have k := sound_return i.present; sound_absent rfl k rfl
    | exact fun i => i.present
    | exact fun i => i.temps
    | exact fun i => i.queue
    | exact fun i => i.copies
    | exact fun i => i.record
    | exact fun i => i.heads
    | exact fun i => i.memory

theorem keeps_getVersions {s₀ s : State} (hk : Keeps s₀ s) (src msgType : Byte) : Keeps s₀ (getVersions src msgType s) := by
  refine hk.trans ?_
  unfold getVersions
  try dsimp only
  repeat' first
    | with_reducible assumption
    | with_reducible exact Keeps.refl _
    | split
    | with_reducible apply keeps_dropUnassigned
    | with_reducible apply keeps_sendMesh
    | with_reducible apply Keeps.inert
    | (intro u x hu)
    | with_reducible apply Keeps.active
    | exact fun i => sound_power i.present rfl
    | exact fun i => have k := sound_return i.present; sound_absent rfl k rfl
    | exact fun i => i.present
    | exact fun i => i.temps
    | exact fun i => i.queue
    | exact fun i => i.copies
    | exact fun i => i.record
    | exact fun i => i.heads
    | exact fun i => i.memory

theorem keeps_getTypes {s₀ s : State} (hk : Keeps s₀ s) (src : Byte) : Keeps s₀ (getTypes src s) := by
  refine hk.trans ?_
  unfold getTypes
  try dsimp only
  repeat' first
    | with_reducible assumption
    | with_reducible exact Keeps.refl _
    | split
    | with_reducible apply keeps_dropUnassigned
    | with_reducible apply keeps_sendMesh
    | with_reducible apply Keeps.inert
    | (intro u x hu)
    | with_reducible apply Keeps.active
    | exact fun i => sound_power i.present rfl
    | exact fun i => have k := sound_return i.present; sound_absent rfl k rfl
    | exact fun i => i.present
    | exact fun i => i.temps
    | exact fun i => i.queue
    | exact fun i => i.copies
    | exact fun i => i.record
    | exact fun i => i.heads
    | exact fun i => i.memory

theorem keeps_setLast {s₀ s : State} (hk : Keeps s₀ s) (r : Nat) : Keeps s₀ (setLast r s) := by
  refine hk.trans ?_
  unfold setLast
  try dsimp only
  repeat' first
    | with_reducible assumption
    | with_reducible exact Keeps.refl _
    | split
    | with_reducible apply keeps_countResult
    | with_reducible apply Keeps.inert
    | (intro u x hu)
    | with_reducible apply Keeps.active
    | exact fun i => sound_power i.present rfl
    | exact fun i => have k := sound_return i.present; sound_absent rfl k rfl
    | exact fun i => i.present
    | exact fun i => i.temps
    | exact fun i => i.queue
    | exact fun i => i.copies
    | exact fun i => i.record
    | exact fun i => i.heads
    | exact fun i => i.memory

theorem keeps_dropHalves {s₀ s : State} (hk : Keeps s₀ s) : Keeps s₀ (dropHalves s) := by
  refine hk.trans ?_
  unfold dropHalves
  try dsimp only
  repeat' first
    | with_reducible assumption
    | with_reducible exact Keeps.refl _
    | split
    | with_reducible apply Keeps.inert
    | (intro u x hu)
    | with_reducible apply Keeps.active
    | exact fun i => sound_power i.present rfl
    | exact fun i => have k := sound_return i.present; sound_absent rfl k rfl
    | exact fun i => i.present
    | exact fun i => i.temps
    | exact fun i => i.queue
    | exact fun i => i.copies
    | exact fun i => i.record
    | exact fun i => i.heads
    | exact fun i => i.memory

theorem keeps_directWrite {s₀ s : State} (hk : Keeps s₀ s) (key v : Nat) (o : ObjInfo) :
    Keeps s₀ (directWrite key v o s) := by
  unfold directWrite
  split
  · exact keeps_setLast (keeps_refuseAccess hk) _
  · split
    · exact keeps_setLast hk _
    · split
      · exact keeps_setLast hk _
      · exact keeps_setLast (keeps_writeValue (keeps_laneAccess hk _) ..) _

theorem keeps_windowWrite {s₀ s : State} (hk : Keeps s₀ s) (offset word : Nat) (low : Option (Nat × Nat)) : Keeps s₀ (windowWrite offset word low s) := by
  refine hk.trans ?_
  unfold windowWrite
  try dsimp only
  repeat' first
    | with_reducible assumption
    | with_reducible exact Keeps.refl _
    | split
    | with_reducible apply keeps_setLast
    | with_reducible apply keeps_directWrite
    | with_reducible apply keeps_refuseAccess
    | with_reducible apply Keeps.inert
    | (intro u x hu)
    | with_reducible apply Keeps.active
    | exact fun i => sound_power i.present rfl
    | exact fun i => have k := sound_return i.present; sound_absent rfl k rfl
    | exact fun i => i.present
    | exact fun i => i.temps
    | exact fun i => i.queue
    | exact fun i => i.copies
    | exact fun i => i.record
    | exact fun i => i.heads
    | exact fun i => i.memory

theorem keeps_windowValue {s₀ s : State} (hk : Keeps s₀ s) (key : Nat) (upper : Bool) (offset : Nat) (o : ObjInfo) :
    Keeps s₀ (windowRead.windowValue key upper offset o s) := by
  unfold windowRead.windowValue
  dsimp only
  split
  · exact keeps_mirrorData (keeps_setLast (keeps_refuseAccess hk) _) _
  · split
    · exact keeps_mirrorData (keeps_setLast hk _) _
    · have h := keeps_setLast (keeps_laneAccess hk key) 0
      split
      · exact keeps_mirrorData h _
      · split
        · apply keeps_mirrorData
          with_reducible apply Keeps.inert
          exact h
        · exact keeps_mirrorData h _

theorem keeps_windowRead {s₀ s : State} (hk : Keeps s₀ s) (offset : Nat) (high : Option (Nat × Nat)) :
    Keeps s₀ (windowRead offset high s) := by
  unfold windowRead
  dsimp only
  split
  · exact keeps_mirrorData (keeps_setLast hk _) _
  · split
    · exact keeps_mirrorData hk _
    · split
      · split
        · exact keeps_mirrorData hk _
        · exact keeps_windowValue hk ..
      · exact keeps_windowValue hk ..

theorem keeps_goMailbox {s₀ s : State} (hk : Keeps s₀ s) (word : Nat) : Keeps s₀ (goMailbox word s) := by
  unfold goMailbox
  split
  · exact hk
  · split
    · with_reducible apply Keeps.inert
      exact hk
    · dsimp only
      have h : Keeps s₀ (if messageOurs (padTo s.mirror.requestLength s.mirror.request) then
          runMessage .operator .mailbox (padTo s.mirror.requestLength s.mirror.request) s
          else (none, count 0x700003 1 s)).2 := by
        split
        · exact keeps_runMessage hk ..
        · exact keeps_count hk 0x700003 1
      generalize (if messageOurs (padTo s.mirror.requestLength s.mirror.request) then
          runMessage .operator .mailbox (padTo s.mirror.requestLength s.mirror.request) s
          else (none, count 0x700003 1 s)) = r at h ⊢
      obtain ⟨_ | b, t⟩ := r
      all_goals
        dsimp only at h ⊢
        with_reducible apply Keeps.inert
        exact h

theorem keeps_mirrorWrite {s₀ s : State} (hk : Keeps s₀ s) (offset word : Nat) : Keeps s₀ (mirrorWrite offset word s) := by
  refine hk.trans ?_
  unfold mirrorWrite
  try dsimp only
  repeat' first
    | with_reducible assumption
    | with_reducible exact Keeps.refl _
    | split
    | with_reducible apply keeps_dropHalves
    | with_reducible apply keeps_windowWrite
    | with_reducible apply keeps_goMailbox
    | with_reducible apply Keeps.inert
    | (intro u x hu)
    | with_reducible apply Keeps.active
    | exact fun i => sound_power i.present rfl
    | exact fun i => have k := sound_return i.present; sound_absent rfl k rfl
    | exact fun i => i.present
    | exact fun i => i.temps
    | exact fun i => i.queue
    | exact fun i => i.copies
    | exact fun i => i.record
    | exact fun i => i.heads
    | exact fun i => i.memory

theorem keeps_mirrorRead {s₀ s : State} (hk : Keeps s₀ s) (offset : Nat) : Keeps s₀ (mirrorRead offset s) := by
  refine hk.trans ?_
  unfold mirrorRead
  try dsimp only
  repeat' first
    | with_reducible assumption
    | with_reducible exact Keeps.refl _
    | split
    | with_reducible apply keeps_mirrorData
    | with_reducible apply keeps_dropHalves
    | with_reducible apply keeps_windowRead
    | with_reducible apply Keeps.inert
    | (intro u x hu)
    | with_reducible apply Keeps.active
    | exact fun i => sound_power i.present rfl
    | exact fun i => have k := sound_return i.present; sound_absent rfl k rfl
    | exact fun i => i.present
    | exact fun i => i.temps
    | exact fun i => i.queue
    | exact fun i => i.copies
    | exact fun i => i.record
    | exact fun i => i.heads
    | exact fun i => i.memory

end Sys2Proof.Machine
end

