-- ==== Sys2Proof/Laws/KeepsCommands.lean ====
section
/-! SUPPORT. The effects of Machine/Commands.lean keep the queue and the invariant. -/

namespace Sys2Proof.Machine

theorem keeps_writeObject {s₀ s : State} (hk : Keeps s₀ s) (key : Nat) (via : Via) (value : Word32) : Keeps s₀ (writeObject key via value s) := by
  refine hk.trans ?_
  unfold writeObject
  try dsimp only
  repeat' first
    | with_reducible assumption
    | with_reducible exact Keeps.refl _
    | split
    | with_reducible apply keeps_meshRequest
    | with_reducible apply keeps_mirrorWrite
    | with_reducible apply Keeps.inert
    | (intro u x hu)
    | with_reducible apply Keeps.active
    | exact fun i => sound_power i.present rfl
    | exact fun i => have k := sound_return i.present; sound_absent rfl k rfl
    | exact fun i => i.present
    | exact fun i => i.temps
    | exact fun i => i.queue
    | exact fun i => i.copies
    | exact fun i => i.record
    | exact fun i => i.heads
    | exact fun i => i.memory

end Sys2Proof.Machine
end

