-- ==== Sys2Proof/Laws/LeavesLaneReset.lean ====
section
/-! SUPPORT. What the effects of Machine/LaneReset.lean leave as it was. -/

namespace Sys2Proof.Machine

theorem leaves_closeForReset {W : List Part} {s₀ s : State} (hW : [.transfers, .ownerBuffer, .challenge, .fseq] ⊆
    W) (hk : Leaves W s₀ s) : Leaves W s₀ (closeForReset s) := by
  refine hk.trans ?_ hW
  unfold closeForReset
  try dsimp only
  repeat' first
    | with_reducible assumption
    | with_reducible exact Leaves.refl _ _
    | split
    | (intro u x hu)
    | with_reducible exact Kept.refl
    | decide
    | (with_reducible apply Leaves.upd)
    | (with_reducible apply Kept.mem)
    | with_reducible exact Boundary.Like.refl _ _
    | with_reducible exact Sensing.Like.refl _ _
    | with_reducible exact Dict.Like.refl _ _
    | with_reducible exact NonVolatile.Like.refl _ _
    | with_reducible exact LifeCycle.Like.refl _ _
    | with_reducible exact Contexts.Like.refl _ _
    | with_reducible exact Steps.Like.refl _ _
    | with_reducible exact Mortar.Like.refl _ _
    | with_reducible exact Upkeep.Like.refl _ _
    | (with_reducible apply Dict.Like.mk)
    | (with_reducible apply LifeCycle.Like.mk)

theorem leaves_breakInstall {W : List Part} {s₀ s : State} (hW : [.image, .fseq, .fresh] ⊆ W) (hk : Leaves W s₀ s)
    : Leaves W s₀ (breakInstall s) := by
  refine hk.trans ?_ hW
  unfold breakInstall
  try dsimp only
  repeat' first
    | with_reducible assumption
    | with_reducible exact Leaves.refl _ _
    | split
    | with_reducible apply leaves_free16
    | (intro u x hu)
    | with_reducible exact Kept.refl
    | decide
    | (with_reducible apply Leaves.upd)
    | (with_reducible apply Kept.mem)
    | with_reducible exact Boundary.Like.refl _ _
    | with_reducible exact Sensing.Like.refl _ _
    | with_reducible exact Dict.Like.refl _ _
    | with_reducible exact NonVolatile.Like.refl _ _
    | with_reducible exact LifeCycle.Like.refl _ _
    | with_reducible exact Contexts.Like.refl _ _
    | with_reducible exact Steps.Like.refl _ _
    | with_reducible exact Mortar.Like.refl _ _
    | with_reducible exact Upkeep.Like.refl _ _
    | (with_reducible apply NonVolatile.Like.mk)

theorem leaves_dropLoading {W : List Part} {s₀ s : State} (hW : [.heads, .tests] ⊆ W) (hk : Leaves W s₀ s) : Leaves
    W s₀ (dropLoading s) := by
  refine hk.trans ?_ hW
  unfold dropLoading
  try dsimp only
  repeat' first
    | with_reducible assumption
    | with_reducible exact Leaves.refl _ _
    | split
    | with_reducible apply leaves_beginMarch
    | with_reducible apply leaves_emptySlot
    | (with_reducible apply leaves_foldl)
    | (intro u x hu)
    | with_reducible exact Kept.refl
    | decide
    | (with_reducible apply Leaves.upd)
    | (with_reducible apply Kept.mem)
    | with_reducible exact Boundary.Like.refl _ _
    | with_reducible exact Sensing.Like.refl _ _
    | with_reducible exact Dict.Like.refl _ _
    | with_reducible exact NonVolatile.Like.refl _ _
    | with_reducible exact LifeCycle.Like.refl _ _
    | with_reducible exact Contexts.Like.refl _ _
    | with_reducible exact Steps.Like.refl _ _
    | with_reducible exact Mortar.Like.refl _ _
    | with_reducible exact Upkeep.Like.refl _ _

theorem leaves_dropLink {W : List Part} {s₀ s : State} (hW : [.peers, .late] ⊆ W) (hk : Leaves W s₀ s) : Leaves W
    s₀ (dropLink s) := by
  refine hk.trans ?_ hW
  unfold dropLink
  try dsimp only
  repeat' first
    | with_reducible assumption
    | with_reducible exact Leaves.refl _ _
    | split
    | (intro u x hu)
    | with_reducible exact Kept.refl
    | decide
    | (with_reducible apply Leaves.upd)
    | (with_reducible apply Kept.mem)
    | with_reducible exact Boundary.Like.refl _ _
    | with_reducible exact Sensing.Like.refl _ _
    | with_reducible exact Dict.Like.refl _ _
    | with_reducible exact NonVolatile.Like.refl _ _
    | with_reducible exact LifeCycle.Like.refl _ _
    | with_reducible exact Contexts.Like.refl _ _
    | with_reducible exact Steps.Like.refl _ _
    | with_reducible exact Mortar.Like.refl _ _
    | with_reducible exact Upkeep.Like.refl _ _
    | (with_reducible apply Mortar.Like.mk)

theorem leaves_abandonStep {W : List Part} {s₀ s : State} (hW : [.reset, .lanes, .cache, .run] ⊆ W) (hk : Leaves W
    s₀ s) : Leaves W s₀ (abandonStep s) := by
  refine hk.trans ?_ hW
  unfold abandonStep
  try dsimp only
  repeat' first
    | with_reducible assumption
    | with_reducible exact Leaves.refl _ _
    | split
    | with_reducible apply leaves_clearLanes
    | (intro u x hu)
    | with_reducible exact Kept.refl
    | decide
    | (with_reducible apply Leaves.upd)
    | (with_reducible apply Kept.mem)
    | with_reducible exact Boundary.Like.refl _ _
    | with_reducible exact Sensing.Like.refl _ _
    | with_reducible exact Dict.Like.refl _ _
    | with_reducible exact NonVolatile.Like.refl _ _
    | with_reducible exact LifeCycle.Like.refl _ _
    | with_reducible exact Contexts.Like.refl _ _
    | with_reducible exact Steps.Like.refl _ _
    | with_reducible exact Mortar.Like.refl _ _
    | with_reducible exact Upkeep.Like.refl _ _
    | (with_reducible apply Boundary.Like.mk)
    | (with_reducible apply Steps.Like.mk)

theorem leaves_noteReturn {W : List Part} {s₀ s : State} (hW : [.reset] ⊆ W) (hk : Leaves W s₀ s) : Leaves W s₀
    (noteReturn s) := by
  refine hk.trans ?_ hW
  unfold noteReturn
  try dsimp only
  repeat' first
    | with_reducible assumption
    | with_reducible exact Leaves.refl _ _
    | split
    | with_reducible apply leaves_idle
    | (intro u x hu)
    | with_reducible exact Kept.refl
    | decide
    | (with_reducible apply Leaves.upd)
    | (with_reducible apply Kept.mem)
    | with_reducible exact Boundary.Like.refl _ _
    | with_reducible exact Sensing.Like.refl _ _
    | with_reducible exact Dict.Like.refl _ _
    | with_reducible exact NonVolatile.Like.refl _ _
    | with_reducible exact LifeCycle.Like.refl _ _
    | with_reducible exact Contexts.Like.refl _ _
    | with_reducible exact Steps.Like.refl _ _
    | with_reducible exact Mortar.Like.refl _ _
    | with_reducible exact Upkeep.Like.refl _ _
    | (with_reducible apply Boundary.Like.mk)

theorem leaves_startLaneReset {W : List Part} {s₀ s : State} (hW : [.present, .reset, .power, .events, .counters,
    .transfers, .image, .ownerBuffer, .challenge, .heads, .lanes, .fseq, .slots, .pages, .batches, .budgets, .cache,
    .run, .starts, .numbers, .peers, .late, .snapshot, .hold, .restore, .fence, .tests, .fresh, .clock, .slow] ⊆ W)
    (hk : Leaves W s₀ s) : Leaves W s₀ (startLaneReset s) := by
  refine hk.trans ?_ hW
  unfold startLaneReset
  try dsimp only
  repeat' first
    | with_reducible assumption
    | with_reducible exact Leaves.refl _ _
    | split
    | with_reducible apply leaves_abandonStep
    | with_reducible apply leaves_wake
    | with_reducible apply leaves_noteReturn
    | with_reducible apply leaves_slowEdge
    | with_reducible apply leaves_failRestore
    | with_reducible apply leaves_failSnapshot
    | with_reducible apply leaves_clearStarts
    | with_reducible apply leaves_clearLanes
    | with_reducible apply leaves_breakInstall
    | with_reducible apply leaves_dropLink
    | with_reducible apply leaves_dropLoading
    | with_reducible apply leaves_abandonCopies
    | with_reducible apply leaves_closeForReset
    | (intro u x hu)
    | with_reducible exact Kept.refl
    | decide
    | (with_reducible apply Leaves.upd)
    | (with_reducible apply Kept.mem)
    | with_reducible exact Boundary.Like.refl _ _
    | with_reducible exact Sensing.Like.refl _ _
    | with_reducible exact Dict.Like.refl _ _
    | with_reducible exact NonVolatile.Like.refl _ _
    | with_reducible exact LifeCycle.Like.refl _ _
    | with_reducible exact Contexts.Like.refl _ _
    | with_reducible exact Steps.Like.refl _ _
    | with_reducible exact Mortar.Like.refl _ _
    | with_reducible exact Upkeep.Like.refl _ _
    | (with_reducible apply Boundary.Like.mk)
    | (with_reducible apply Steps.Like.mk)
    | (with_reducible apply Upkeep.Like.mk)

theorem leaves_laneReset {W : List Part} {s₀ s : State} (hW : [.present, .reset, .power, .events, .counters,
    .transfers, .image, .ownerBuffer, .challenge, .heads, .lanes, .fseq, .slots, .pages, .batches, .budgets, .cache,
    .run, .starts, .numbers, .peers, .late, .snapshot, .hold, .restore, .fence, .tests, .fresh, .clock, .slow] ⊆ W)
    (hk : Leaves W s₀ s) : Leaves W s₀ (laneReset s) := by
  refine hk.trans ?_ hW
  unfold laneReset
  try dsimp only
  repeat' first
    | with_reducible assumption
    | with_reducible exact Leaves.refl _ _
    | split
    | with_reducible apply leaves_startLaneReset
    | (intro u x hu)
    | with_reducible exact Kept.refl
    | decide
    | (with_reducible apply Leaves.upd)
    | (with_reducible apply Kept.mem)
    | with_reducible exact Boundary.Like.refl _ _
    | with_reducible exact Sensing.Like.refl _ _
    | with_reducible exact Dict.Like.refl _ _
    | with_reducible exact NonVolatile.Like.refl _ _
    | with_reducible exact LifeCycle.Like.refl _ _
    | with_reducible exact Contexts.Like.refl _ _
    | with_reducible exact Steps.Like.refl _ _
    | with_reducible exact Mortar.Like.refl _ _
    | with_reducible exact Upkeep.Like.refl _ _

theorem leaves_laneResetEffect {W : List Part} {s₀ s : State} (hW : [.present, .reset, .power, .events, .counters,
    .transfers, .image, .ownerBuffer, .challenge, .heads, .lanes, .fseq, .slots, .pages, .batches, .budgets, .cache,
    .run, .starts, .numbers, .peers, .late, .snapshot, .hold, .restore, .fence, .tests, .fresh, .clock, .slow] ⊆ W)
    (hk : Leaves W s₀ s) : Leaves W s₀ (laneResetEffect s) := by
  refine hk.trans ?_ hW
  unfold laneResetEffect
  try dsimp only
  repeat' first
    | with_reducible assumption
    | with_reducible exact Leaves.refl _ _
    | split
    | with_reducible apply leaves_startLaneReset
    | with_reducible apply leaves_reject
    | (intro u x hu)
    | with_reducible exact Kept.refl
    | decide
    | (with_reducible apply Leaves.upd)
    | (with_reducible apply Kept.mem)
    | with_reducible exact Boundary.Like.refl _ _
    | with_reducible exact Sensing.Like.refl _ _
    | with_reducible exact Dict.Like.refl _ _
    | with_reducible exact NonVolatile.Like.refl _ _
    | with_reducible exact LifeCycle.Like.refl _ _
    | with_reducible exact Contexts.Like.refl _ _
    | with_reducible exact Steps.Like.refl _ _
    | with_reducible exact Mortar.Like.refl _ _
    | with_reducible exact Upkeep.Like.refl _ _

theorem leaves_beginLaneState {W : List Part} {s₀ s : State} (hW : [.reset] ⊆ W) (hk : Leaves W s₀ s) : Leaves W s₀
    (beginLaneState s) := by
  refine hk.trans ?_ hW
  unfold beginLaneState
  try dsimp only
  repeat' first
    | with_reducible assumption
    | with_reducible exact Leaves.refl _ _
    | split
    | (intro u x hu)
    | with_reducible exact Kept.refl
    | decide
    | (with_reducible apply Leaves.upd)
    | (with_reducible apply Kept.mem)
    | with_reducible exact Boundary.Like.refl _ _
    | with_reducible exact Sensing.Like.refl _ _
    | with_reducible exact Dict.Like.refl _ _
    | with_reducible exact NonVolatile.Like.refl _ _
    | with_reducible exact LifeCycle.Like.refl _ _
    | with_reducible exact Contexts.Like.refl _ _
    | with_reducible exact Steps.Like.refl _ _
    | with_reducible exact Mortar.Like.refl _ _
    | with_reducible exact Upkeep.Like.refl _ _
    | (with_reducible apply Boundary.Like.mk)

theorem leaves_risePresent {W : List Part} {s₀ s : State} (hW : [.present, .reset, .counters, .late, .out] ⊆ W) (hk
    : Leaves W s₀ s) : Leaves W s₀ (risePresent s) := by
  refine hk.trans ?_ hW
  unfold risePresent
  try dsimp only
  repeat' first
    | with_reducible assumption
    | with_reducible exact Leaves.refl _ _
    | split
    | with_reducible apply leaves_broadcastDiscover
    | with_reducible apply leaves_idle
    | (intro u x hu)
    | with_reducible exact Kept.refl
    | decide
    | (with_reducible apply Leaves.upd)
    | (with_reducible apply Kept.mem)
    | with_reducible exact Boundary.Like.refl _ _
    | with_reducible exact Sensing.Like.refl _ _
    | with_reducible exact Dict.Like.refl _ _
    | with_reducible exact NonVolatile.Like.refl _ _
    | with_reducible exact LifeCycle.Like.refl _ _
    | with_reducible exact Contexts.Like.refl _ _
    | with_reducible exact Steps.Like.refl _ _
    | with_reducible exact Mortar.Like.refl _ _
    | with_reducible exact Upkeep.Like.refl _ _
    | (with_reducible apply Boundary.Like.mk)

theorem leaves_returnDown {W : List Part} {s₀ s : State} (hW : [.power, .hsOff, .heads, .lanes, .cache, .peers,
    .late, .out] ⊆ W) (hk : Leaves W s₀ s) : Leaves W s₀ (returnDown s) := by
  refine hk.trans ?_ hW
  unfold returnDown
  try dsimp only
  repeat' first
    | with_reducible assumption
    | with_reducible exact Leaves.refl _ _
    | split
    | with_reducible apply leaves_enterDormant
    | with_reducible apply leaves_enterStandby
    | (intro u x hu)
    | with_reducible exact Kept.refl
    | decide
    | (with_reducible apply Leaves.upd)
    | (with_reducible apply Kept.mem)
    | with_reducible exact Boundary.Like.refl _ _
    | with_reducible exact Sensing.Like.refl _ _
    | with_reducible exact Dict.Like.refl _ _
    | with_reducible exact NonVolatile.Like.refl _ _
    | with_reducible exact LifeCycle.Like.refl _ _
    | with_reducible exact Contexts.Like.refl _ _
    | with_reducible exact Steps.Like.refl _ _
    | with_reducible exact Mortar.Like.refl _ _
    | with_reducible exact Upkeep.Like.refl _ _

theorem leaves_laneActions {W : List Part} {s₀ s : State} (hW : [.power, .events, .applied, .staged, .counters,
    .commit, .heads, .slots, .pages, .batches, .budgets, .directory, .peers, .bond, .tree, .late, .snapshot, .mode,
    .mem, .out, .fresh] ⊆ W) (hk : Leaves W s₀ s) : Leaves W s₀ (laneActions s) := by
  refine hk.trans ?_ hW
  unfold laneActions
  try dsimp only
  repeat' first
    | with_reducible assumption
    | with_reducible exact Leaves.refl _ _
    | split
    | with_reducible apply leaves_startHeldSwaps
    | with_reducible apply leaves_actionFive
    | with_reducible apply leaves_actionFour
    | with_reducible apply leaves_applyCancels
    | with_reducible apply leaves_releaseReserved
    | (intro u x hu)
    | with_reducible exact Kept.refl
    | decide
    | (with_reducible apply Leaves.upd)
    | (with_reducible apply Kept.mem)
    | with_reducible exact Boundary.Like.refl _ _
    | with_reducible exact Sensing.Like.refl _ _
    | with_reducible exact Dict.Like.refl _ _
    | with_reducible exact NonVolatile.Like.refl _ _
    | with_reducible exact LifeCycle.Like.refl _ _
    | with_reducible exact Contexts.Like.refl _ _
    | with_reducible exact Steps.Like.refl _ _
    | with_reducible exact Mortar.Like.refl _ _
    | with_reducible exact Upkeep.Like.refl _ _

theorem leaves_endLaneReset {W : List Part} {s₀ s : State} (hW : [.present, .reset, .power, .hsOff, .events,
    .applied, .staged, .counters, .commit, .heads, .lanes, .fseq, .slots, .pages, .batches, .budgets, .directory,
    .cache, .starts, .peers, .bond, .tree, .late, .snapshot, .restore, .tests, .mode, .mem, .out, .fresh] ⊆ W) (hk
    : Leaves W s₀ s) : Leaves W s₀ (endLaneReset s) := by
  refine hk.trans ?_ hW
  unfold endLaneReset
  try dsimp only
  repeat' first
    | with_reducible assumption
    | with_reducible exact Leaves.refl _ _
    | split
    | with_reducible apply leaves_applyCancels
    | with_reducible apply leaves_releaseReserved
    | with_reducible apply leaves_laneActions
    | with_reducible apply leaves_reloadMicro
    | with_reducible apply leaves_risePresent
    | with_reducible apply leaves_raise
    | with_reducible apply leaves_settleCopies
    | with_reducible apply leaves_startRestore
    | with_reducible apply leaves_returnDown
    | with_reducible apply leaves_startWaitingTests
    | (intro u x hu)
    | with_reducible exact Kept.refl
    | decide
    | (with_reducible apply Leaves.upd)
    | (with_reducible apply Kept.mem)
    | with_reducible exact Boundary.Like.refl _ _
    | with_reducible exact Sensing.Like.refl _ _
    | with_reducible exact Dict.Like.refl _ _
    | with_reducible exact NonVolatile.Like.refl _ _
    | with_reducible exact LifeCycle.Like.refl _ _
    | with_reducible exact Contexts.Like.refl _ _
    | with_reducible exact Steps.Like.refl _ _
    | with_reducible exact Mortar.Like.refl _ _
    | with_reducible exact Upkeep.Like.refl _ _
    | (with_reducible apply Boundary.Like.mk)

end Sys2Proof.Machine
end

