-- ==== Sys2Proof/Laws/LeavesAdmission.lean ====
section
/-! SUPPORT. What the effects of Machine/Admission.lean leave as it was. -/

namespace Sys2Proof.Machine

theorem leaves_placeBudgets {W : List Part} {s₀ s : State} (hW : [.budgets] ⊆ W) (hk : Leaves W s₀ s) (time : Nat)
    : Leaves W s₀ (placeBudgets time s) := by
  refine hk.trans ?_ hW
  unfold placeBudgets
  try dsimp only
  repeat' first
    | with_reducible assumption
    | with_reducible exact Leaves.refl _ _
    | split
    | (with_reducible apply leaves_foldl)
    | (intro u x hu)
    | with_reducible exact Kept.refl
    | decide
    | (with_reducible apply Leaves.upd)
    | (with_reducible apply Kept.mem)
    | with_reducible exact Boundary.Like.refl _ _
    | with_reducible exact Sensing.Like.refl _ _
    | with_reducible exact Dict.Like.refl _ _
    | with_reducible exact NonVolatile.Like.refl _ _
    | with_reducible exact LifeCycle.Like.refl _ _
    | with_reducible exact Contexts.Like.refl _ _
    | with_reducible exact Steps.Like.refl _ _
    | with_reducible exact Mortar.Like.refl _ _
    | with_reducible exact Upkeep.Like.refl _ _
    | (with_reducible apply Contexts.Like.mk)

theorem leaves_beginStep {W : List Part} {s₀ s : State} (hW : [.run, .starts, .tree] ⊆ W) (hk : Leaves W s₀ s)
    (time : Nat) (byGo : Bool) (wake : Nat) : Leaves W s₀ (beginStep time byGo wake s) := by
  refine hk.trans ?_ hW
  unfold beginStep
  try dsimp only
  repeat' first
    | with_reducible assumption
    | with_reducible exact Leaves.refl _ _
    | split
    | with_reducible apply leaves_wake
    | with_reducible apply leaves_takeTree
    | (intro u x hu)
    | with_reducible exact Kept.refl
    | decide
    | (with_reducible apply Leaves.upd)
    | (with_reducible apply Kept.mem)
    | with_reducible exact Boundary.Like.refl _ _
    | with_reducible exact Sensing.Like.refl _ _
    | with_reducible exact Dict.Like.refl _ _
    | with_reducible exact NonVolatile.Like.refl _ _
    | with_reducible exact LifeCycle.Like.refl _ _
    | with_reducible exact Contexts.Like.refl _ _
    | with_reducible exact Steps.Like.refl _ _
    | with_reducible exact Mortar.Like.refl _ _
    | with_reducible exact Upkeep.Like.refl _ _
    | (with_reducible apply Steps.Like.mk)

theorem leaves_refuseManifest {W : List Part} {s₀ s : State} (hW : [.present, .reset, .power, .events, .counters,
    .transfers, .image, .ownerBuffer, .challenge, .heads, .lanes, .fseq, .slots, .pages, .batches, .budgets, .cache,
    .run, .starts, .numbers, .lastStep, .peers, .late, .snapshot, .hold, .restore, .fence, .tests, .fresh, .clock,
    .slow] ⊆ W) (hk : Leaves W s₀ s) (r : StepRun) (status : Nat) : Leaves W s₀ (refuseManifest r status s) := by
  refine hk.trans ?_ hW
  unfold refuseManifest
  try dsimp only
  repeat' first
    | with_reducible assumption
    | with_reducible exact Leaves.refl _ _
    | split
    | with_reducible apply leaves_laneReset
    | with_reducible apply leaves_raiseCount
    | (intro u x hu)
    | with_reducible exact Kept.refl
    | decide
    | (with_reducible apply Leaves.upd)
    | (with_reducible apply Kept.mem)
    | with_reducible exact Boundary.Like.refl _ _
    | with_reducible exact Sensing.Like.refl _ _
    | with_reducible exact Dict.Like.refl _ _
    | with_reducible exact NonVolatile.Like.refl _ _
    | with_reducible exact LifeCycle.Like.refl _ _
    | with_reducible exact Contexts.Like.refl _ _
    | with_reducible exact Steps.Like.refl _ _
    | with_reducible exact Mortar.Like.refl _ _
    | with_reducible exact Upkeep.Like.refl _ _
    | (with_reducible apply Steps.Like.mk)

theorem leaves_countRow {W : List Part} {s₀ s : State} (hW : [.counters] ⊆ W) (hk : Leaves W s₀ s) (d : RowDesc)
    (why : Nat) : Leaves W s₀ (countRow d why s) := by
  refine hk.trans ?_ hW
  unfold countRow
  try dsimp only
  repeat' first
    | with_reducible assumption
    | with_reducible exact Leaves.refl _ _
    | split
    | with_reducible apply leaves_count
    | (intro u x hu)
    | with_reducible exact Kept.refl
    | decide
    | (with_reducible apply Leaves.upd)
    | (with_reducible apply Kept.mem)
    | with_reducible exact Boundary.Like.refl _ _
    | with_reducible exact Sensing.Like.refl _ _
    | with_reducible exact Dict.Like.refl _ _
    | with_reducible exact NonVolatile.Like.refl _ _
    | with_reducible exact LifeCycle.Like.refl _ _
    | with_reducible exact Contexts.Like.refl _ _
    | with_reducible exact Steps.Like.refl _ _
    | with_reducible exact Mortar.Like.refl _ _
    | with_reducible exact Upkeep.Like.refl _ _

theorem leaves_settleRow {W : List Part} {s₀ s : State} (hW : [.events, .counters, .run] ⊆ W) (hk : Leaves W s₀ s)
    (r : StepRun) (i why : Nat) : Leaves W s₀ (settleRow r i why s) := by
  refine hk.trans ?_ hW
  unfold settleRow
  try dsimp only
  repeat' first
    | with_reducible assumption
    | with_reducible exact Leaves.refl _ _
    | split
    | with_reducible apply leaves_raiseCount
    | with_reducible apply leaves_countRow
    | with_reducible apply leaves_withRun
    | (intro u x hu)
    | with_reducible exact Kept.refl
    | decide
    | (with_reducible apply Leaves.upd)
    | (with_reducible apply Kept.mem)
    | with_reducible exact Boundary.Like.refl _ _
    | with_reducible exact Sensing.Like.refl _ _
    | with_reducible exact Dict.Like.refl _ _
    | with_reducible exact NonVolatile.Like.refl _ _
    | with_reducible exact LifeCycle.Like.refl _ _
    | with_reducible exact Contexts.Like.refl _ _
    | with_reducible exact Steps.Like.refl _ _
    | with_reducible exact Mortar.Like.refl _ _
    | with_reducible exact Upkeep.Like.refl _ _

theorem leaves_reserveAll {W : List Part} {s₀ s : State} (hW : [.counters, .slots, .pages, .budgets] ⊆ W) (hk :
    Leaves W s₀ s) (a : Adm) : Leaves W s₀ (reserveAll a s) := by
  refine hk.trans ?_ hW
  unfold reserveAll
  try dsimp only
  repeat' first
    | with_reducible assumption
    | with_reducible exact Leaves.refl _ _
    | split
    | with_reducible apply leaves_setContext
    | with_reducible apply leaves_notePeak
    | (with_reducible apply leaves_foldl)
    | (intro u x hu)
    | with_reducible exact Kept.refl
    | decide
    | (with_reducible apply Leaves.upd)
    | (with_reducible apply Kept.mem)
    | with_reducible exact Boundary.Like.refl _ _
    | with_reducible exact Sensing.Like.refl _ _
    | with_reducible exact Dict.Like.refl _ _
    | with_reducible exact NonVolatile.Like.refl _ _
    | with_reducible exact LifeCycle.Like.refl _ _
    | with_reducible exact Contexts.Like.refl _ _
    | with_reducible exact Steps.Like.refl _ _
    | with_reducible exact Mortar.Like.refl _ _
    | with_reducible exact Upkeep.Like.refl _ _
    | (with_reducible apply Contexts.Like.mk)

theorem leaves_settleReads {W : List Part} {s₀ s : State} (hW : [.run] ⊆ W) (hk : Leaves W s₀ s) (r : StepRun) :
    Leaves W s₀ (settleReads r s) := by
  refine hk.trans ?_ hW
  unfold settleReads
  try dsimp only
  repeat' first
    | with_reducible assumption
    | with_reducible exact Leaves.refl _ _
    | split
    | with_reducible apply leaves_markRows
    | (with_reducible apply leaves_foldl)
    | (intro u x hu)
    | with_reducible exact Kept.refl
    | decide
    | (with_reducible apply Leaves.upd)
    | (with_reducible apply Kept.mem)
    | with_reducible exact Boundary.Like.refl _ _
    | with_reducible exact Sensing.Like.refl _ _
    | with_reducible exact Dict.Like.refl _ _
    | with_reducible exact NonVolatile.Like.refl _ _
    | with_reducible exact LifeCycle.Like.refl _ _
    | with_reducible exact Contexts.Like.refl _ _
    | with_reducible exact Steps.Like.refl _ _
    | with_reducible exact Mortar.Like.refl _ _
    | with_reducible exact Upkeep.Like.refl _ _

theorem leaves_settleRecord {W : List Part} {s₀ s : State} (hW : [.events, .counters, .run, .mem] ⊆ W) (hk : Leaves
    W s₀ s) : Leaves W s₀ (settleRecord s) := by
  refine hk.trans ?_ hW
  unfold settleRecord
  try dsimp only
  repeat' first
    | with_reducible assumption
    | with_reducible exact Leaves.refl _ _
    | split
    | with_reducible apply leaves_takeOver
    | with_reducible apply leaves_checkTakeover
    | (intro u x hu)
    | with_reducible exact Kept.refl
    | decide
    | (with_reducible apply Leaves.upd)
    | (with_reducible apply Kept.mem)
    | with_reducible exact Boundary.Like.refl _ _
    | with_reducible exact Sensing.Like.refl _ _
    | with_reducible exact Dict.Like.refl _ _
    | with_reducible exact NonVolatile.Like.refl _ _
    | with_reducible exact LifeCycle.Like.refl _ _
    | with_reducible exact Contexts.Like.refl _ _
    | with_reducible exact Steps.Like.refl _ _
    | with_reducible exact Mortar.Like.refl _ _
    | with_reducible exact Upkeep.Like.refl _ _

theorem leaves_acceptManifest {W : List Part} {s₀ s : State} (hW : [.events, .counters, .settings, .heads, .lanes,
    .fseq, .slots, .pages, .batches, .budgets, .cache, .run, .numbers, .lastStep, .peers, .late, .snapshot,
    .corrected, .mem, .out, .fresh] ⊆ W) (hk : Leaves W s₀ s) (r : StepRun) (ecc : List EccHit) : Leaves W s₀
    (acceptManifest r ecc s) := by
  refine hk.trans ?_ hW
  unfold acceptManifest
  try dsimp only
  repeat' first
    | with_reducible assumption
    | with_reducible exact Leaves.refl _ _
    | split
    | with_reducible apply leaves_placeBudgets
    | with_reducible apply leaves_count
    | with_reducible apply leaves_settleRow
    | with_reducible apply leaves_workHits
    | with_reducible apply leaves_settleReads
    | with_reducible apply leaves_reserveAll
    | with_reducible apply leaves_withRun
    | with_reducible apply leaves_noteEnd
    | with_reducible apply leaves_writeBytes
    | with_reducible apply leaves_pump
    | with_reducible apply leaves_noteMissed
    | with_reducible apply leaves_settleRecord
    | with_reducible apply leaves_loadShadow
    | (with_reducible apply leaves_foldl)
    | (intro u x hu)
    | with_reducible exact Kept.refl
    | decide
    | (with_reducible apply Leaves.upd)
    | (with_reducible apply Kept.mem)
    | with_reducible exact Boundary.Like.refl _ _
    | with_reducible exact Sensing.Like.refl _ _
    | with_reducible exact Dict.Like.refl _ _
    | with_reducible exact NonVolatile.Like.refl _ _
    | with_reducible exact LifeCycle.Like.refl _ _
    | with_reducible exact Contexts.Like.refl _ _
    | with_reducible exact Steps.Like.refl _ _
    | with_reducible exact Mortar.Like.refl _ _
    | with_reducible exact Upkeep.Like.refl _ _
    | (with_reducible apply Steps.Like.mk)

end Sys2Proof.Machine
end

