-- ==== Sys2Proof/Laws/LeavesLink.lean ====
section
/-! SUPPORT. What the effects of Machine/Link.lean leave as it was. -/

namespace Sys2Proof.Machine

theorem leaves_noteLost {W : List Part} {s₀ s : State} (hW : [.run] ⊆ W) (hk : Leaves W s₀ s) (p : Nat) : Leaves W
    s₀ (noteLost p s) := by
  refine hk.trans ?_ hW
  unfold noteLost
  try dsimp only
  repeat' first
    | with_reducible assumption
    | with_reducible exact Leaves.refl _ _
    | split
    | with_reducible apply leaves_withRun
    | (intro u x hu)
    | with_reducible exact Kept.refl
    | decide
    | (with_reducible apply Leaves.upd)
    | (with_reducible apply Kept.mem)
    | with_reducible exact Boundary.Like.refl _ _
    | with_reducible exact Sensing.Like.refl _ _
    | with_reducible exact Dict.Like.refl _ _
    | with_reducible exact NonVolatile.Like.refl _ _
    | with_reducible exact LifeCycle.Like.refl _ _
    | with_reducible exact Contexts.Like.refl _ _
    | with_reducible exact Steps.Like.refl _ _
    | with_reducible exact Mortar.Like.refl _ _
    | with_reducible exact Upkeep.Like.refl _ _

theorem leaves_peerLost {W : List Part} {s₀ s : State} (hW : [.events, .counters, .slots, .pages, .batches,
    .budgets, .run, .starts, .lastStep, .peers, .late, .snapshot, .hold, .restore, .mem, .out] ⊆ W) (hk : Leaves W
    s₀ s) (p st : Nat) : Leaves W s₀ (peerLost p st s) := by
  refine hk.trans ?_ hW
  unfold peerLost
  try dsimp only
  repeat' first
    | with_reducible assumption
    | with_reducible exact Leaves.refl _ _
    | split
    | with_reducible apply leaves_pump
    | with_reducible apply leaves_noteMissed
    | with_reducible apply leaves_takeOver
    | with_reducible apply leaves_checkTakeover
    | with_reducible apply leaves_noteLost
    | with_reducible apply leaves_losePeer
    | with_reducible apply leaves_peerDown
    | (intro u x hu)
    | with_reducible exact Kept.refl
    | decide
    | (with_reducible apply Leaves.upd)
    | (with_reducible apply Kept.mem)
    | with_reducible exact Boundary.Like.refl _ _
    | with_reducible exact Sensing.Like.refl _ _
    | with_reducible exact Dict.Like.refl _ _
    | with_reducible exact NonVolatile.Like.refl _ _
    | with_reducible exact LifeCycle.Like.refl _ _
    | with_reducible exact Contexts.Like.refl _ _
    | with_reducible exact Steps.Like.refl _ _
    | with_reducible exact Mortar.Like.refl _ _
    | with_reducible exact Upkeep.Like.refl _ _

theorem leaves_dropSends {W : List Part} {s₀ s : State} (hW : [.peers, .late] ⊆ W) (hk : Leaves W s₀ s) (p : Nat) :
    Leaves W s₀ (dropSends p s) := by
  refine hk.trans ?_ hW
  unfold dropSends
  try dsimp only
  repeat' first
    | with_reducible assumption
    | with_reducible exact Leaves.refl _ _
    | split
    | with_reducible apply leaves_dropLate
    | with_reducible apply leaves_setPeer
    | (intro u x hu)
    | with_reducible exact Kept.refl
    | decide
    | (with_reducible apply Leaves.upd)
    | (with_reducible apply Kept.mem)
    | with_reducible exact Boundary.Like.refl _ _
    | with_reducible exact Sensing.Like.refl _ _
    | with_reducible exact Dict.Like.refl _ _
    | with_reducible exact NonVolatile.Like.refl _ _
    | with_reducible exact LifeCycle.Like.refl _ _
    | with_reducible exact Contexts.Like.refl _ _
    | with_reducible exact Steps.Like.refl _ _
    | with_reducible exact Mortar.Like.refl _ _
    | with_reducible exact Upkeep.Like.refl _ _

theorem leaves_absenceNotice {W : List Part} {s₀ s : State} (hW : [.events, .counters, .slots, .pages, .batches,
    .budgets, .run, .starts, .lastStep, .peers, .late, .snapshot, .hold, .restore, .mem, .out] ⊆ W) (hk : Leaves W
    s₀ s) (p : Nat) : Leaves W s₀ (absenceNotice p s) := by
  refine hk.trans ?_ hW
  unfold absenceNotice
  try dsimp only
  repeat' first
    | with_reducible assumption
    | with_reducible exact Leaves.refl _ _
    | split
    | with_reducible apply leaves_dropSends
    | with_reducible apply leaves_peerDown
    | with_reducible apply leaves_peerLost
    | (intro u x hu)
    | with_reducible exact Kept.refl
    | decide
    | (with_reducible apply Leaves.upd)
    | (with_reducible apply Kept.mem)
    | with_reducible exact Boundary.Like.refl _ _
    | with_reducible exact Sensing.Like.refl _ _
    | with_reducible exact Dict.Like.refl _ _
    | with_reducible exact NonVolatile.Like.refl _ _
    | with_reducible exact LifeCycle.Like.refl _ _
    | with_reducible exact Contexts.Like.refl _ _
    | with_reducible exact Steps.Like.refl _ _
    | with_reducible exact Mortar.Like.refl _ _
    | with_reducible exact Upkeep.Like.refl _ _

theorem leaves_absentResponse {W : List Part} {s₀ s : State} (hW : [.events, .counters, .slots, .pages, .batches,
    .budgets, .run, .starts, .lastStep, .peers, .late, .snapshot, .hold, .restore, .mem, .out] ⊆ W) (hk : Leaves W
    s₀ s) (p : Nat) : Leaves W s₀ (absentResponse p s) := by
  refine hk.trans ?_ hW
  unfold absentResponse
  try dsimp only
  repeat' first
    | with_reducible assumption
    | with_reducible exact Leaves.refl _ _
    | split
    | with_reducible apply leaves_peerDown
    | with_reducible apply leaves_peerLost
    | (intro u x hu)
    | with_reducible exact Kept.refl
    | decide
    | (with_reducible apply Leaves.upd)
    | (with_reducible apply Kept.mem)
    | with_reducible exact Boundary.Like.refl _ _
    | with_reducible exact Sensing.Like.refl _ _
    | with_reducible exact Dict.Like.refl _ _
    | with_reducible exact NonVolatile.Like.refl _ _
    | with_reducible exact LifeCycle.Like.refl _ _
    | with_reducible exact Contexts.Like.refl _ _
    | with_reducible exact Steps.Like.refl _ _
    | with_reducible exact Mortar.Like.refl _ _
    | with_reducible exact Upkeep.Like.refl _ _

theorem leaves_fallSilent {W : List Part} {s₀ s : State} (hW : [.events, .counters, .slots, .pages, .batches,
    .budgets, .run, .starts, .lastStep, .peers, .late, .snapshot, .hold, .restore, .mem, .out] ⊆ W) (hk : Leaves W
    s₀ s) (p : Nat) : Leaves W s₀ (fallSilent p s) := by
  refine hk.trans ?_ hW
  unfold fallSilent
  try dsimp only
  repeat' first
    | with_reducible assumption
    | with_reducible exact Leaves.refl _ _
    | split
    | with_reducible apply leaves_peerLost
    | with_reducible apply leaves_dropSends
    | (intro u x hu)
    | with_reducible exact Kept.refl
    | decide
    | (with_reducible apply Leaves.upd)
    | (with_reducible apply Kept.mem)
    | with_reducible exact Boundary.Like.refl _ _
    | with_reducible exact Sensing.Like.refl _ _
    | with_reducible exact Dict.Like.refl _ _
    | with_reducible exact NonVolatile.Like.refl _ _
    | with_reducible exact LifeCycle.Like.refl _ _
    | with_reducible exact Contexts.Like.refl _ _
    | with_reducible exact Steps.Like.refl _ _
    | with_reducible exact Mortar.Like.refl _ _
    | with_reducible exact Upkeep.Like.refl _ _

theorem leaves_resend {W : List Part} {s₀ s : State} (hW : [.events, .counters, .slots, .pages, .batches, .budgets,
    .run, .starts, .lastStep, .peers, .late, .snapshot, .hold, .restore, .mem, .out] ⊆ W) (hk : Leaves W s₀ s) (p
    seq : Nat) (counts : Bool) : Leaves W s₀ (resend p seq counts s) := by
  refine hk.trans ?_ hW
  unfold resend
  try dsimp only
  repeat' first
    | with_reducible assumption
    | with_reducible exact Leaves.refl _ _
    | split
    | with_reducible apply leaves_fallSilent
    | with_reducible apply leaves_emit
    | with_reducible apply leaves_count
    | with_reducible apply leaves_setPeer
    | (intro u x hu)
    | with_reducible exact Kept.refl
    | decide
    | (with_reducible apply Leaves.upd)
    | (with_reducible apply Kept.mem)
    | with_reducible exact Boundary.Like.refl _ _
    | with_reducible exact Sensing.Like.refl _ _
    | with_reducible exact Dict.Like.refl _ _
    | with_reducible exact NonVolatile.Like.refl _ _
    | with_reducible exact LifeCycle.Like.refl _ _
    | with_reducible exact Contexts.Like.refl _ _
    | with_reducible exact Steps.Like.refl _ _
    | with_reducible exact Mortar.Like.refl _ _
    | with_reducible exact Upkeep.Like.refl _ _

theorem leaves_refill_own {s₀ s : State} (hk : Leaves [.peers, .late, .out] s₀ s) (p fuel : Nat) : Leaves [.peers,
    .late, .out] s₀ (refill p fuel s) := by
  induction fuel generalizing s  with
  | zero => exact hk
  | succ fuel ih =>
    rw [refill]
    try dsimp only
    repeat' first
      | with_reducible assumption
      | with_reducible exact Leaves.refl _ _
      | split
      | (with_reducible apply ih)
      | with_reducible apply leaves_setPeer
      | with_reducible apply leaves_post
      | (intro u x hu)
      | with_reducible exact Kept.refl
      | decide
      | (with_reducible apply Leaves.upd)
      | (with_reducible apply Kept.mem)
      | with_reducible exact Boundary.Like.refl _ _
      | with_reducible exact Sensing.Like.refl _ _
      | with_reducible exact Dict.Like.refl _ _
      | with_reducible exact NonVolatile.Like.refl _ _
      | with_reducible exact LifeCycle.Like.refl _ _
      | with_reducible exact Contexts.Like.refl _ _
      | with_reducible exact Steps.Like.refl _ _
      | with_reducible exact Mortar.Like.refl _ _
      | with_reducible exact Upkeep.Like.refl _ _

theorem leaves_refill {W : List Part} {s₀ s : State} (hW : [.peers, .late, .out] ⊆ W) (hk : Leaves W s₀ s) (p fuel
    : Nat) : Leaves W s₀ (refill p fuel s) :=
  hk.trans (leaves_refill_own (Leaves.refl _ _) p fuel) hW

theorem leaves_takeAck {W : List Part} {s₀ s : State} (hW : [.peers, .late, .out] ⊆ W) (hk : Leaves W s₀ s) (p seq
    : Nat) : Leaves W s₀ (takeAck p seq s) := by
  refine hk.trans ?_ hW
  unfold takeAck
  try dsimp only
  repeat' first
    | with_reducible assumption
    | with_reducible exact Leaves.refl _ _
    | split
    | with_reducible apply leaves_refill
    | with_reducible apply leaves_setPeer
    | (intro u x hu)
    | with_reducible exact Kept.refl
    | decide
    | (with_reducible apply Leaves.upd)
    | (with_reducible apply Kept.mem)
    | with_reducible exact Boundary.Like.refl _ _
    | with_reducible exact Sensing.Like.refl _ _
    | with_reducible exact Dict.Like.refl _ _
    | with_reducible exact NonVolatile.Like.refl _ _
    | with_reducible exact LifeCycle.Like.refl _ _
    | with_reducible exact Contexts.Like.refl _ _
    | with_reducible exact Steps.Like.refl _ _
    | with_reducible exact Mortar.Like.refl _ _
    | with_reducible exact Upkeep.Like.refl _ _

theorem leaves_linkAck {W : List Part} {s₀ s : State} (hW : [.peers, .late, .out] ⊆ W) (hk : Leaves W s₀ s) (m :
    Bytes) : Leaves W s₀ (linkAck m s) := by
  refine hk.trans ?_ hW
  unfold linkAck
  try dsimp only
  repeat' first
    | with_reducible assumption
    | with_reducible exact Leaves.refl _ _
    | split
    | with_reducible apply leaves_takeAck
    | (intro u x hu)
    | with_reducible exact Kept.refl
    | decide
    | (with_reducible apply Leaves.upd)
    | (with_reducible apply Kept.mem)
    | with_reducible exact Boundary.Like.refl _ _
    | with_reducible exact Sensing.Like.refl _ _
    | with_reducible exact Dict.Like.refl _ _
    | with_reducible exact NonVolatile.Like.refl _ _
    | with_reducible exact LifeCycle.Like.refl _ _
    | with_reducible exact Contexts.Like.refl _ _
    | with_reducible exact Steps.Like.refl _ _
    | with_reducible exact Mortar.Like.refl _ _
    | with_reducible exact Upkeep.Like.refl _ _

theorem leaves_linkNak {W : List Part} {s₀ s : State} (hW : [.events, .counters, .slots, .pages, .batches,
    .budgets, .run, .starts, .lastStep, .peers, .late, .snapshot, .hold, .restore, .mem, .out] ⊆ W) (hk : Leaves W
    s₀ s) (m : Bytes) : Leaves W s₀ (linkNak m s) := by
  refine hk.trans ?_ hW
  unfold linkNak
  try dsimp only
  repeat' first
    | with_reducible assumption
    | with_reducible exact Leaves.refl _ _
    | split
    | with_reducible apply leaves_resend
    | (intro u x hu)
    | with_reducible exact Kept.refl
    | decide
    | (with_reducible apply Leaves.upd)
    | (with_reducible apply Kept.mem)
    | with_reducible exact Boundary.Like.refl _ _
    | with_reducible exact Sensing.Like.refl _ _
    | with_reducible exact Dict.Like.refl _ _
    | with_reducible exact NonVolatile.Like.refl _ _
    | with_reducible exact LifeCycle.Like.refl _ _
    | with_reducible exact Contexts.Like.refl _ _
    | with_reducible exact Steps.Like.refl _ _
    | with_reducible exact Mortar.Like.refl _ _
    | with_reducible exact Upkeep.Like.refl _ _

theorem leaves_splitRow {W : List Part} {s₀ s : State} (hW : [.counters, .run, .mem] ⊆ W) (hk : Leaves W s₀ s) (v :
    View) (cs : List Claim) (x : Nat × RowRun) : Leaves W s₀ (splitRow v cs x s) := by
  refine hk.trans ?_ hW
  unfold splitRow
  try dsimp only
  repeat' first
    | with_reducible assumption
    | with_reducible exact Leaves.refl _ _
    | split
    | with_reducible apply leaves_withRun
    | with_reducible apply leaves_count
    | with_reducible apply leaves_withGroup
    | with_reducible apply leaves_writeBloom
    | (intro u x hu)
    | with_reducible exact Kept.refl
    | decide
    | (with_reducible apply Leaves.upd)
    | (with_reducible apply Kept.mem)
    | with_reducible exact Boundary.Like.refl _ _
    | with_reducible exact Sensing.Like.refl _ _
    | with_reducible exact Dict.Like.refl _ _
    | with_reducible exact NonVolatile.Like.refl _ _
    | with_reducible exact LifeCycle.Like.refl _ _
    | with_reducible exact Contexts.Like.refl _ _
    | with_reducible exact Steps.Like.refl _ _
    | with_reducible exact Mortar.Like.refl _ _
    | with_reducible exact Upkeep.Like.refl _ _

theorem leaves_splitGroup {W : List Part} {s₀ s : State} (hW : [.counters, .run, .mem] ⊆ W) (hk : Leaves W s₀ s) (g
    : Nat) : Leaves W s₀ (splitGroup g s) := by
  refine hk.trans ?_ hW
  unfold splitGroup
  try dsimp only
  repeat' first
    | with_reducible assumption
    | with_reducible exact Leaves.refl _ _
    | split
    | with_reducible apply leaves_splitRow
    | (with_reducible apply leaves_foldl)
    | (intro u x hu)
    | with_reducible exact Kept.refl
    | decide
    | (with_reducible apply Leaves.upd)
    | (with_reducible apply Kept.mem)
    | with_reducible exact Boundary.Like.refl _ _
    | with_reducible exact Sensing.Like.refl _ _
    | with_reducible exact Dict.Like.refl _ _
    | with_reducible exact NonVolatile.Like.refl _ _
    | with_reducible exact LifeCycle.Like.refl _ _
    | with_reducible exact Contexts.Like.refl _ _
    | with_reducible exact Steps.Like.refl _ _
    | with_reducible exact Mortar.Like.refl _ _
    | with_reducible exact Upkeep.Like.refl _ _

theorem leaves_splitStep {W : List Part} {s₀ s : State} (hW : [.events, .counters, .run, .lastStep, .peers, .late,
    .mem, .out] ⊆ W) (hk : Leaves W s₀ s) : Leaves W s₀ (splitStep s) := by
  refine hk.trans ?_ hW
  unfold splitStep
  try dsimp only
  repeat' first
    | with_reducible assumption
    | with_reducible exact Leaves.refl _ _
    | split
    | with_reducible apply leaves_count
    | with_reducible apply leaves_withRun
    | with_reducible apply leaves_pump
    | with_reducible apply leaves_splitGroup
    | (with_reducible apply leaves_foldl)
    | (intro u x hu)
    | with_reducible exact Kept.refl
    | decide
    | (with_reducible apply Leaves.upd)
    | (with_reducible apply Kept.mem)
    | with_reducible exact Boundary.Like.refl _ _
    | with_reducible exact Sensing.Like.refl _ _
    | with_reducible exact Dict.Like.refl _ _
    | with_reducible exact NonVolatile.Like.refl _ _
    | with_reducible exact LifeCycle.Like.refl _ _
    | with_reducible exact Contexts.Like.refl _ _
    | with_reducible exact Steps.Like.refl _ _
    | with_reducible exact Mortar.Like.refl _ _
    | with_reducible exact Upkeep.Like.refl _ _

theorem leaves_hearMember {W : List Part} {s₀ s : State} (hW : [.run] ⊆ W) (hk : Leaves W s₀ s) (src : Nat) :
    Leaves W s₀ (hearMember src s) := by
  refine hk.trans ?_ hW
  unfold hearMember
  try dsimp only
  repeat' first
    | with_reducible assumption
    | with_reducible exact Leaves.refl _ _
    | split
    | with_reducible apply leaves_withRun
    | (intro u x hu)
    | with_reducible exact Kept.refl
    | decide
    | (with_reducible apply Leaves.upd)
    | (with_reducible apply Kept.mem)
    | with_reducible exact Boundary.Like.refl _ _
    | with_reducible exact Sensing.Like.refl _ _
    | with_reducible exact Dict.Like.refl _ _
    | with_reducible exact NonVolatile.Like.refl _ _
    | with_reducible exact LifeCycle.Like.refl _ _
    | with_reducible exact Contexts.Like.refl _ _
    | with_reducible exact Steps.Like.refl _ _
    | with_reducible exact Mortar.Like.refl _ _
    | with_reducible exact Upkeep.Like.refl _ _

theorem leaves_takeContribution {W : List Part} {s₀ s : State} (hW : [.events, .counters, .run, .lastStep, .peers,
    .late, .mem, .out] ⊆ W) (hk : Leaves W s₀ s) (src g : Nat) (t : Taken) (odd : Nat) : Leaves W s₀
    (takeContribution src g t odd s) := by
  refine hk.trans ?_ hW
  unfold takeContribution
  try dsimp only
  repeat' first
    | with_reducible assumption
    | with_reducible exact Leaves.refl _ _
    | split
    | with_reducible apply leaves_stale
    | with_reducible apply leaves_pump
    | with_reducible apply leaves_withGroup
    | with_reducible apply leaves_hearMember
    | with_reducible apply leaves_noteOdd
    | (intro u x hu)
    | with_reducible exact Kept.refl
    | decide
    | (with_reducible apply Leaves.upd)
    | (with_reducible apply Kept.mem)
    | with_reducible exact Boundary.Like.refl _ _
    | with_reducible exact Sensing.Like.refl _ _
    | with_reducible exact Dict.Like.refl _ _
    | with_reducible exact NonVolatile.Like.refl _ _
    | with_reducible exact LifeCycle.Like.refl _ _
    | with_reducible exact Contexts.Like.refl _ _
    | with_reducible exact Steps.Like.refl _ _
    | with_reducible exact Mortar.Like.refl _ _
    | with_reducible exact Upkeep.Like.refl _ _

theorem leaves_takeStepBound {W : List Part} {s₀ s : State} (hW : [.events, .counters, .run, .lastStep, .peers,
    .late, .mem, .out] ⊆ W) (hk : Leaves W s₀ s) (typ src version number : Nat) (pl : Bytes) : Leaves W s₀
    (takeStepBound typ src version number pl s) := by
  refine hk.trans ?_ hW
  unfold takeStepBound
  try dsimp only
  repeat' first
    | with_reducible assumption
    | with_reducible exact Leaves.refl _ _
    | split
    | with_reducible apply leaves_stale
    | with_reducible apply leaves_splitStep
    | with_reducible apply leaves_takeContribution
    | (intro u x hu)
    | with_reducible exact Kept.refl
    | decide
    | (with_reducible apply Leaves.upd)
    | (with_reducible apply Kept.mem)
    | with_reducible exact Boundary.Like.refl _ _
    | with_reducible exact Sensing.Like.refl _ _
    | with_reducible exact Dict.Like.refl _ _
    | with_reducible exact NonVolatile.Like.refl _ _
    | with_reducible exact LifeCycle.Like.refl _ _
    | with_reducible exact Contexts.Like.refl _ _
    | with_reducible exact Steps.Like.refl _ _
    | with_reducible exact Mortar.Like.refl _ _
    | with_reducible exact Upkeep.Like.refl _ _

theorem leaves_deliver {W : List Part} {s₀ s : State} (hW : [.events, .counters, .slots, .pages, .batches,
    .budgets, .run, .starts, .numbers, .lastStep, .peers, .tree, .late, .snapshot, .hold, .restore, .mem, .out] ⊆
    W) (hk : Leaves W s₀ s) (m : Bytes) : Leaves W s₀ (deliver m s) := by
  refine hk.trans ?_ hW
  unfold deliver
  try dsimp only
  repeat' first
    | with_reducible assumption
    | with_reducible exact Leaves.refl _ _
    | split
    | with_reducible apply leaves_stale
    | with_reducible apply leaves_takeDiscover
    | with_reducible apply leaves_takeCaps
    | with_reducible apply leaves_takeHeartbeat
    | with_reducible apply leaves_takeBondUpdate
    | with_reducible apply leaves_takeStatePage
    | with_reducible apply leaves_takeStepBound
    | (intro u x hu)
    | with_reducible exact Kept.refl
    | decide
    | (with_reducible apply Leaves.upd)
    | (with_reducible apply Kept.mem)
    | with_reducible exact Boundary.Like.refl _ _
    | with_reducible exact Sensing.Like.refl _ _
    | with_reducible exact Dict.Like.refl _ _
    | with_reducible exact NonVolatile.Like.refl _ _
    | with_reducible exact LifeCycle.Like.refl _ _
    | with_reducible exact Contexts.Like.refl _ _
    | with_reducible exact Steps.Like.refl _ _
    | with_reducible exact Mortar.Like.refl _ _
    | with_reducible exact Upkeep.Like.refl _ _

theorem leaves_acceptFrame {W : List Part} {s₀ s : State} (hW : [.events, .counters, .slots, .pages, .batches,
    .budgets, .run, .starts, .numbers, .lastStep, .peers, .tree, .late, .snapshot, .hold, .restore, .mem, .out] ⊆
    W) (hk : Leaves W s₀ s) (m : Bytes) : Leaves W s₀ (acceptFrame m s) := by
  refine hk.trans ?_ hW
  unfold acceptFrame
  try dsimp only
  repeat' first
    | with_reducible assumption
    | with_reducible exact Leaves.refl _ _
    | split
    | with_reducible apply leaves_linkFlit
    | with_reducible apply leaves_setPeer
    | with_reducible apply leaves_deliver
    | with_reducible apply leaves_count
    | (intro u x hu)
    | with_reducible exact Kept.refl
    | decide
    | (with_reducible apply Leaves.upd)
    | (with_reducible apply Kept.mem)
    | with_reducible exact Boundary.Like.refl _ _
    | with_reducible exact Sensing.Like.refl _ _
    | with_reducible exact Dict.Like.refl _ _
    | with_reducible exact NonVolatile.Like.refl _ _
    | with_reducible exact LifeCycle.Like.refl _ _
    | with_reducible exact Contexts.Like.refl _ _
    | with_reducible exact Steps.Like.refl _ _
    | with_reducible exact Mortar.Like.refl _ _
    | with_reducible exact Upkeep.Like.refl _ _

theorem leaves_takeHeld_own {s₀ s : State} (hk : Leaves [.events, .counters, .slots, .pages, .batches, .budgets,
    .run, .starts, .numbers, .lastStep, .peers, .tree, .late, .snapshot, .hold, .restore, .mem, .out] s₀ s) (src
    fuel : Nat) : Leaves [.events, .counters, .slots, .pages, .batches, .budgets, .run, .starts, .numbers,
    .lastStep, .peers, .tree, .late, .snapshot, .hold, .restore, .mem, .out] s₀ (takeHeld src fuel s) := by
  induction fuel generalizing s  with
  | zero => exact hk
  | succ fuel ih =>
    rw [takeHeld]
    try dsimp only
    repeat' first
      | with_reducible assumption
      | with_reducible exact Leaves.refl _ _
      | split
      | (with_reducible apply ih)
      | with_reducible apply leaves_setPeer
      | with_reducible apply leaves_linkFlit
      | with_reducible apply leaves_acceptFrame
      | (intro u x hu)
      | with_reducible exact Kept.refl
      | decide
      | (with_reducible apply Leaves.upd)
      | (with_reducible apply Kept.mem)
      | with_reducible exact Boundary.Like.refl _ _
      | with_reducible exact Sensing.Like.refl _ _
      | with_reducible exact Dict.Like.refl _ _
      | with_reducible exact NonVolatile.Like.refl _ _
      | with_reducible exact LifeCycle.Like.refl _ _
      | with_reducible exact Contexts.Like.refl _ _
      | with_reducible exact Steps.Like.refl _ _
      | with_reducible exact Mortar.Like.refl _ _
      | with_reducible exact Upkeep.Like.refl _ _

theorem leaves_takeHeld {W : List Part} {s₀ s : State} (hW : [.events, .counters, .slots, .pages, .batches,
    .budgets, .run, .starts, .numbers, .lastStep, .peers, .tree, .late, .snapshot, .hold, .restore, .mem, .out] ⊆
    W) (hk : Leaves W s₀ s) (src fuel : Nat) : Leaves W s₀ (takeHeld src fuel s) :=
  hk.trans (leaves_takeHeld_own (Leaves.refl _ _) src fuel) hW

theorem leaves_takeSequenced {W : List Part} {s₀ s : State} (hW : [.events, .counters, .slots, .pages, .batches,
    .budgets, .run, .starts, .numbers, .lastStep, .peers, .tree, .late, .snapshot, .hold, .restore, .mem, .out] ⊆
    W) (hk : Leaves W s₀ s) (m : Bytes) : Leaves W s₀ (takeSequenced m s) := by
  refine hk.trans ?_ hW
  unfold takeSequenced
  try dsimp only
  repeat' first
    | with_reducible assumption
    | with_reducible exact Leaves.refl _ _
    | split
    | with_reducible apply leaves_linkFlit
    | with_reducible apply leaves_setPeer
    | with_reducible apply leaves_takeHeld
    | with_reducible apply leaves_acceptFrame
    | (intro u x hu)
    | with_reducible exact Kept.refl
    | decide
    | (with_reducible apply Leaves.upd)
    | (with_reducible apply Kept.mem)
    | with_reducible exact Boundary.Like.refl _ _
    | with_reducible exact Sensing.Like.refl _ _
    | with_reducible exact Dict.Like.refl _ _
    | with_reducible exact NonVolatile.Like.refl _ _
    | with_reducible exact LifeCycle.Like.refl _ _
    | with_reducible exact Contexts.Like.refl _ _
    | with_reducible exact Steps.Like.refl _ _
    | with_reducible exact Mortar.Like.refl _ _
    | with_reducible exact Upkeep.Like.refl _ _

theorem leaves_receive {W : List Part} {s₀ s : State} (hW : [.events, .counters, .slots, .pages, .batches,
    .budgets, .run, .starts, .numbers, .lastStep, .peers, .tree, .late, .snapshot, .hold, .restore, .mem, .out] ⊆
    W) (hk : Leaves W s₀ s) (m : Bytes) : Leaves W s₀ (receive m s) := by
  refine hk.trans ?_ hW
  unfold receive
  try dsimp only
  repeat' first
    | with_reducible assumption
    | with_reducible exact Leaves.refl _ _
    | split
    | with_reducible apply leaves_linkFlit
    | with_reducible apply leaves_count
    | with_reducible apply leaves_deliver
    | with_reducible apply leaves_takeSequenced
    | (intro u x hu)
    | with_reducible exact Kept.refl
    | decide
    | (with_reducible apply Leaves.upd)
    | (with_reducible apply Kept.mem)
    | with_reducible exact Boundary.Like.refl _ _
    | with_reducible exact Sensing.Like.refl _ _
    | with_reducible exact Dict.Like.refl _ _
    | with_reducible exact NonVolatile.Like.refl _ _
    | with_reducible exact LifeCycle.Like.refl _ _
    | with_reducible exact Contexts.Like.refl _ _
    | with_reducible exact Steps.Like.refl _ _
    | with_reducible exact Mortar.Like.refl _ _
    | with_reducible exact Upkeep.Like.refl _ _

theorem leaves_idleHeartbeat {W : List Part} {s₀ s : State} (hW : [.counters, .peers, .late, .out] ⊆ W) (hk :
    Leaves W s₀ s) : Leaves W s₀ (idleHeartbeat s) := by
  refine hk.trans ?_ hW
  unfold idleHeartbeat
  try dsimp only
  repeat' first
    | with_reducible assumption
    | with_reducible exact Leaves.refl _ _
    | split
    | with_reducible apply leaves_sendAll
    | (intro u x hu)
    | with_reducible exact Kept.refl
    | decide
    | (with_reducible apply Leaves.upd)
    | (with_reducible apply Kept.mem)
    | with_reducible exact Boundary.Like.refl _ _
    | with_reducible exact Sensing.Like.refl _ _
    | with_reducible exact Dict.Like.refl _ _
    | with_reducible exact NonVolatile.Like.refl _ _
    | with_reducible exact LifeCycle.Like.refl _ _
    | with_reducible exact Contexts.Like.refl _ _
    | with_reducible exact Steps.Like.refl _ _
    | with_reducible exact Mortar.Like.refl _ _
    | with_reducible exact Upkeep.Like.refl _ _

theorem leaves_loseWithheld {W : List Part} {s₀ s : State} (hW : [.events, .counters, .run, .lastStep, .peers,
    .late, .mem, .out] ⊆ W) (hk : Leaves W s₀ s) : Leaves W s₀ (loseWithheld s) := by
  refine hk.trans ?_ hW
  unfold loseWithheld
  try dsimp only
  repeat' first
    | with_reducible assumption
    | with_reducible exact Leaves.refl _ _
    | split
    | with_reducible apply leaves_pump
    | with_reducible apply leaves_noteMissed
    | with_reducible apply leaves_noteLost
    | (with_reducible apply leaves_foldl)
    | (intro u x hu)
    | with_reducible exact Kept.refl
    | decide
    | (with_reducible apply Leaves.upd)
    | (with_reducible apply Kept.mem)
    | with_reducible exact Boundary.Like.refl _ _
    | with_reducible exact Sensing.Like.refl _ _
    | with_reducible exact Dict.Like.refl _ _
    | with_reducible exact NonVolatile.Like.refl _ _
    | with_reducible exact LifeCycle.Like.refl _ _
    | with_reducible exact Contexts.Like.refl _ _
    | with_reducible exact Steps.Like.refl _ _
    | with_reducible exact Mortar.Like.refl _ _
    | with_reducible exact Upkeep.Like.refl _ _

theorem leaves_stepHeartbeat {W : List Part} {s₀ s : State} (hW : [.events, .counters, .run, .lastStep, .peers,
    .late, .mem, .out] ⊆ W) (hk : Leaves W s₀ s) : Leaves W s₀ (stepHeartbeat s) := by
  refine hk.trans ?_ hW
  unfold stepHeartbeat
  try dsimp only
  repeat' first
    | with_reducible assumption
    | with_reducible exact Leaves.refl _ _
    | split
    | with_reducible apply leaves_sendAll
    | with_reducible apply leaves_loseWithheld
    | with_reducible apply leaves_withRun
    | (intro u x hu)
    | with_reducible exact Kept.refl
    | decide
    | (with_reducible apply Leaves.upd)
    | (with_reducible apply Kept.mem)
    | with_reducible exact Boundary.Like.refl _ _
    | with_reducible exact Sensing.Like.refl _ _
    | with_reducible exact Dict.Like.refl _ _
    | with_reducible exact NonVolatile.Like.refl _ _
    | with_reducible exact LifeCycle.Like.refl _ _
    | with_reducible exact Contexts.Like.refl _ _
    | with_reducible exact Steps.Like.refl _ _
    | with_reducible exact Mortar.Like.refl _ _
    | with_reducible exact Upkeep.Like.refl _ _

end Sys2Proof.Machine
end

