-- ==== Sys2Proof/Laws/LeavesResets.lean ====
section
/-! SUPPORT. What the effects of Machine/Resets.lean leave as it was. -/

namespace Sys2Proof.Machine

theorem leaves_breakRecord {W : List Part} {s₀ s : State} (hW : [.copies, .record, .transition, .fresh] ⊆ W) (hk :
    Leaves W s₀ s) : Leaves W s₀ (breakRecord s) := by
  refine hk.trans ?_ hW
  unfold breakRecord
  try dsimp only
  repeat' first
    | with_reducible assumption
    | with_reducible exact Leaves.refl _ _
    | split
    | with_reducible apply leaves_free16
    | (intro u x hu)
    | with_reducible exact Kept.refl
    | decide
    | (with_reducible apply Leaves.upd)
    | (with_reducible apply Kept.mem)
    | with_reducible exact Boundary.Like.refl _ _
    | with_reducible exact Sensing.Like.refl _ _
    | with_reducible exact Dict.Like.refl _ _
    | with_reducible exact NonVolatile.Like.refl _ _
    | with_reducible exact LifeCycle.Like.refl _ _
    | with_reducible exact Contexts.Like.refl _ _
    | with_reducible exact Steps.Like.refl _ _
    | with_reducible exact Mortar.Like.refl _ _
    | with_reducible exact Upkeep.Like.refl _ _
    | (with_reducible apply NonVolatile.Like.mk)
    | (with_reducible apply LifeCycle.Like.mk)

theorem leaves_assertReset {W : List Part} {s₀ s : State}
    (hW : [.present, .tsReq, .edge, .reset, .clock, .power, .rails, .heat, .laneRow, .hsOff, .latency, .events, .rw, .applied, .staged, .counters, .held, .commit, .store, .transfers, .endpoint, .mirror, .copies, .image, .record, .ownerBuffer,
      .challenge, .transition, .heads, .lanes, .fseq, .slots, .pages, .batches, .budgets, .directory, .cache, .run, .starts, .numbers, .lastStep, .peers, .bond, .tree, .late, .snapshot,
      .hold, .restore, .scrub, .corrected, .hsPass, .fence, .tests, .mode, .fresh] ⊆ W)
    (hk : Leaves W s₀ s) (deep : Bool) : Leaves W s₀ (assertReset deep s) := by
  have h1 := leaves_breakRecord (List.Subset.trans (by decide) hW) (leaves_clearStarts (List.Subset.trans (by decide) hW) hk)
  rw [assertReset]
  generalize breakRecord (clearStarts s) = t at h1 ⊢
  refine h1.trans ⟨fun p hp => ?_⟩ hW
  cases p
  case disable => exact rfl
  case settings => exact ⟨rfl, rfl⟩
  case mem => exact rfl
  case out => exact rfl
  case pending => exact rfl
  case slow => exact rfl
  all_goals exact absurd (by decide) hp

theorem leaves_unitResetArrives {W : List Part} {s₀ s : State} (hW : [.present, .tsReq, .edge, .reset, .clock,
    .power, .rails, .heat, .laneRow, .hsOff, .latency, .events, .rw, .applied, .staged, .counters, .held, .commit,
    .store, .transfers, .endpoint, .mirror, .copies, .image, .record, .ownerBuffer, .challenge, .transition,
    .heads, .lanes, .fseq, .slots, .pages, .batches, .budgets, .directory, .cache, .run, .starts, .numbers,
    .lastStep, .peers, .bond, .tree, .late, .snapshot, .hold, .restore, .scrub, .corrected, .hsPass, .fence,
    .tests, .mode, .fresh] ⊆ W) (hk : Leaves W s₀ s) : Leaves W s₀ (unitResetArrives s) := by
  refine hk.trans ?_ hW
  unfold unitResetArrives
  try dsimp only
  repeat' first
    | with_reducible assumption
    | with_reducible exact Leaves.refl _ _
    | split
    | with_reducible apply leaves_assertReset
    | (intro u x hu)
    | with_reducible exact Kept.refl
    | decide
    | (with_reducible apply Leaves.upd)
    | (with_reducible apply Kept.mem)
    | with_reducible exact Boundary.Like.refl _ _
    | with_reducible exact Sensing.Like.refl _ _
    | with_reducible exact Dict.Like.refl _ _
    | with_reducible exact NonVolatile.Like.refl _ _
    | with_reducible exact LifeCycle.Like.refl _ _
    | with_reducible exact Contexts.Like.refl _ _
    | with_reducible exact Steps.Like.refl _ _
    | with_reducible exact Mortar.Like.refl _ _
    | with_reducible exact Upkeep.Like.refl _ _

theorem leaves_unitResetEffect {W : List Part} {s₀ s : State} (hW : [.reset] ⊆ W) (hk : Leaves W s₀ s) : Leaves W
    s₀ (unitResetEffect s) := by
  refine hk.trans ?_ hW
  unfold unitResetEffect
  try dsimp only
  repeat' first
    | with_reducible assumption
    | with_reducible exact Leaves.refl _ _
    | split
    | (intro u x hu)
    | with_reducible exact Kept.refl
    | decide
    | (with_reducible apply Leaves.upd)
    | (with_reducible apply Kept.mem)
    | with_reducible exact Boundary.Like.refl _ _
    | with_reducible exact Sensing.Like.refl _ _
    | with_reducible exact Dict.Like.refl _ _
    | with_reducible exact NonVolatile.Like.refl _ _
    | with_reducible exact LifeCycle.Like.refl _ _
    | with_reducible exact Contexts.Like.refl _ _
    | with_reducible exact Steps.Like.refl _ _
    | with_reducible exact Mortar.Like.refl _ _
    | with_reducible exact Upkeep.Like.refl _ _
    | (with_reducible apply Boundary.Like.mk)

theorem leaves_dropRails {W : List Part} {s₀ s : State} (hW : [.reset, .power, .hsOff, .heads, .lanes, .cache,
    .run] ⊆ W) (hk : Leaves W s₀ s) : Leaves W s₀ (dropRails s) := by
  refine hk.trans ?_ hW
  unfold dropRails
  try dsimp only
  repeat' first
    | with_reducible assumption
    | with_reducible exact Leaves.refl _ _
    | split
    | with_reducible apply leaves_clearLanes
    | with_reducible apply leaves_abandonStep
    | with_reducible apply leaves_emptyAllSlots
    | (intro u x hu)
    | with_reducible exact Kept.refl
    | decide
    | (with_reducible apply Leaves.upd)
    | (with_reducible apply Kept.mem)
    | with_reducible exact Boundary.Like.refl _ _
    | with_reducible exact Sensing.Like.refl _ _
    | with_reducible exact Dict.Like.refl _ _
    | with_reducible exact NonVolatile.Like.refl _ _
    | with_reducible exact LifeCycle.Like.refl _ _
    | with_reducible exact Contexts.Like.refl _ _
    | with_reducible exact Steps.Like.refl _ _
    | with_reducible exact Mortar.Like.refl _ _
    | with_reducible exact Upkeep.Like.refl _ _
    | (with_reducible apply Sensing.Like.mk)

theorem leaves_disableUnit {W : List Part} {s₀ s : State} (hW : [.present, .tsReq, .disable, .reset, .power,
    .hsOff, .heads, .lanes, .cache, .run, .peers, .late] ⊆ W) (hk : Leaves W s₀ s) : Leaves W s₀ (disableUnit s) := by
  refine hk.trans ?_ hW
  unfold disableUnit
  try dsimp only
  repeat' first
    | with_reducible assumption
    | with_reducible exact Leaves.refl _ _
    | split
    | with_reducible apply leaves_dropLink
    | with_reducible apply leaves_dropRails
    | (intro u x hu)
    | with_reducible exact Kept.refl
    | decide
    | (with_reducible apply Leaves.upd)
    | (with_reducible apply Kept.mem)
    | with_reducible exact Boundary.Like.refl _ _
    | with_reducible exact Sensing.Like.refl _ _
    | with_reducible exact Dict.Like.refl _ _
    | with_reducible exact NonVolatile.Like.refl _ _
    | with_reducible exact LifeCycle.Like.refl _ _
    | with_reducible exact Contexts.Like.refl _ _
    | with_reducible exact Steps.Like.refl _ _
    | with_reducible exact Mortar.Like.refl _ _
    | with_reducible exact Upkeep.Like.refl _ _
    | (with_reducible apply Boundary.Like.mk)

theorem leaves_powerOff {W : List Part} {s₀ s : State} (hW : [.present, .tsReq, .edge, .reset, .clock, .power,
    .rails, .heat, .laneRow, .hsOff, .latency, .events, .rw, .applied, .staged, .counters, .held, .commit, .store,
    .transfers, .endpoint, .mirror, .copies, .image, .record, .ownerBuffer, .challenge, .transition, .heads,
    .lanes, .fseq, .slots, .pages, .batches, .budgets, .directory, .cache, .run, .starts, .numbers, .lastStep,
    .peers, .bond, .tree, .late, .snapshot, .hold, .restore, .scrub, .corrected, .hsPass, .fence, .tests, .mode,
    .fresh] ⊆ W) (hk : Leaves W s₀ s) : Leaves W s₀ (powerOff s) := by
  refine hk.trans ?_ hW
  unfold powerOff
  try dsimp only
  repeat' first
    | with_reducible assumption
    | with_reducible exact Leaves.refl _ _
    | split
    | with_reducible apply leaves_assertReset
    | (intro u x hu)
    | with_reducible exact Kept.refl
    | decide
    | (with_reducible apply Leaves.upd)
    | (with_reducible apply Kept.mem)
    | with_reducible exact Boundary.Like.refl _ _
    | with_reducible exact Sensing.Like.refl _ _
    | with_reducible exact Dict.Like.refl _ _
    | with_reducible exact NonVolatile.Like.refl _ _
    | with_reducible exact LifeCycle.Like.refl _ _
    | with_reducible exact Contexts.Like.refl _ _
    | with_reducible exact Steps.Like.refl _ _
    | with_reducible exact Mortar.Like.refl _ _
    | with_reducible exact Upkeep.Like.refl _ _
    | (with_reducible apply Sensing.Like.mk)

theorem leaves_loadRecord {W : List Part} {s₀ s : State} (hW : [.events, .counters, .record] ⊆ W) (hk : Leaves W s₀
    s) : Leaves W s₀ (loadRecord s) := by
  refine hk.trans ?_ hW
  unfold loadRecord
  try dsimp only
  repeat' first
    | with_reducible assumption
    | with_reducible exact Leaves.refl _ _
    | split
    | with_reducible apply leaves_raise
    | (intro u x hu)
    | with_reducible exact Kept.refl
    | decide
    | (with_reducible apply Leaves.upd)
    | (with_reducible apply Kept.mem)
    | with_reducible exact Boundary.Like.refl _ _
    | with_reducible exact Sensing.Like.refl _ _
    | with_reducible exact Dict.Like.refl _ _
    | with_reducible exact NonVolatile.Like.refl _ _
    | with_reducible exact LifeCycle.Like.refl _ _
    | with_reducible exact Contexts.Like.refl _ _
    | with_reducible exact Steps.Like.refl _ _
    | with_reducible exact Mortar.Like.refl _ _
    | with_reducible exact Upkeep.Like.refl _ _
    | (with_reducible apply LifeCycle.Like.mk)

theorem leaves_loadSettings {W : List Part} {s₀ s : State} (hW : [.events, .rw, .applied, .staged, .counters,
    .store, .bond] ⊆ W) (hk : Leaves W s₀ s) : Leaves W s₀ (loadSettings s) := by
  refine hk.trans ?_ hW
  unfold loadSettings
  try dsimp only
  repeat' first
    | with_reducible assumption
    | with_reducible exact Leaves.refl _ _
    | split
    | with_reducible apply leaves_raise
    | (intro u x hu)
    | with_reducible exact Kept.refl
    | decide
    | (with_reducible apply Leaves.upd)
    | (with_reducible apply Kept.mem)
    | with_reducible exact Boundary.Like.refl _ _
    | with_reducible exact Sensing.Like.refl _ _
    | with_reducible exact Dict.Like.refl _ _
    | with_reducible exact NonVolatile.Like.refl _ _
    | with_reducible exact LifeCycle.Like.refl _ _
    | with_reducible exact Contexts.Like.refl _ _
    | with_reducible exact Steps.Like.refl _ _
    | with_reducible exact Mortar.Like.refl _ _
    | with_reducible exact Upkeep.Like.refl _ _
    | (with_reducible apply Dict.Like.mk)
    | (with_reducible apply Mortar.Like.mk)

theorem leaves_settingsHits {W : List Part} {s₀ s : State} (hW : [.events, .counters, .settings, .corrected] ⊆ W)
    (hk : Leaves W s₀ s) (es : List EccHit) : Leaves W s₀ (settingsHits es s) := by
  refine hk.trans ?_ hW
  unfold settingsHits
  try dsimp only
  repeat' first
    | with_reducible assumption
    | with_reducible exact Leaves.refl _ _
    | split
    | with_reducible apply leaves_correctedWord
    | with_reducible apply leaves_noteUncorrectable
    | (with_reducible apply leaves_foldl)
    | (intro u x hu)
    | with_reducible exact Kept.refl
    | decide
    | (with_reducible apply Leaves.upd)
    | (with_reducible apply Kept.mem)
    | with_reducible exact Boundary.Like.refl _ _
    | with_reducible exact Sensing.Like.refl _ _
    | with_reducible exact Dict.Like.refl _ _
    | with_reducible exact NonVolatile.Like.refl _ _
    | with_reducible exact LifeCycle.Like.refl _ _
    | with_reducible exact Contexts.Like.refl _ _
    | with_reducible exact Steps.Like.refl _ _
    | with_reducible exact Mortar.Like.refl _ _
    | with_reducible exact Upkeep.Like.refl _ _
    | (with_reducible apply NonVolatile.Like.mk)

theorem leaves_bringUpWake {W : List Part} {s₀ s : State} (hW : [.power] ⊆ W) (hk : Leaves W s₀ s) : Leaves W s₀
    (bringUpWake s) := by
  refine hk.trans ?_ hW
  unfold bringUpWake
  try dsimp only
  repeat' first
    | with_reducible assumption
    | with_reducible exact Leaves.refl _ _
    | split
    | with_reducible apply leaves_startWake
    | (intro u x hu)
    | with_reducible exact Kept.refl
    | decide
    | (with_reducible apply Leaves.upd)
    | (with_reducible apply Kept.mem)
    | with_reducible exact Boundary.Like.refl _ _
    | with_reducible exact Sensing.Like.refl _ _
    | with_reducible exact Dict.Like.refl _ _
    | with_reducible exact NonVolatile.Like.refl _ _
    | with_reducible exact LifeCycle.Like.refl _ _
    | with_reducible exact Contexts.Like.refl _ _
    | with_reducible exact Steps.Like.refl _ _
    | with_reducible exact Mortar.Like.refl _ _
    | with_reducible exact Upkeep.Like.refl _ _

theorem leaves_releaseReset {W : List Part} {s₀ s : State} (hW : [.present, .tsReq, .reset, .power, .events, .rw,
    .applied, .staged, .counters, .store, .settings, .record, .heads, .fseq, .bond, .corrected] ⊆ W) (hk : Leaves W
    s₀ s) (ecc : List EccHit) : Leaves W s₀ (releaseReset ecc s) := by
  refine hk.trans ?_ hW
  unfold releaseReset
  try dsimp only
  repeat' first
    | with_reducible assumption
    | with_reducible exact Leaves.refl _ _
    | split
    | with_reducible apply leaves_loadRecord
    | with_reducible apply leaves_bringUpWake
    | with_reducible apply leaves_loadMicro
    | with_reducible apply leaves_loadSettings
    | with_reducible apply leaves_settingsHits
    | with_reducible apply leaves_loadFinished
    | (intro u x hu)
    | with_reducible exact Kept.refl
    | decide
    | (with_reducible apply Leaves.upd)
    | (with_reducible apply Kept.mem)
    | with_reducible exact Boundary.Like.refl _ _
    | with_reducible exact Sensing.Like.refl _ _
    | with_reducible exact Dict.Like.refl _ _
    | with_reducible exact NonVolatile.Like.refl _ _
    | with_reducible exact LifeCycle.Like.refl _ _
    | with_reducible exact Contexts.Like.refl _ _
    | with_reducible exact Steps.Like.refl _ _
    | with_reducible exact Mortar.Like.refl _ _
    | with_reducible exact Upkeep.Like.refl _ _
    | (with_reducible apply Boundary.Like.mk)

theorem leaves_reportTests {W : List Part} {s₀ s : State} (hW : [.events, .counters, .tests] ⊆ W) (hk : Leaves W s₀
    s) (failures : Nat) : Leaves W s₀ (reportTests failures s) := by
  refine hk.trans ?_ hW
  unfold reportTests
  try dsimp only
  repeat' first
    | with_reducible assumption
    | with_reducible exact Leaves.refl _ _
    | split
    | with_reducible apply leaves_raise
    | (with_reducible apply leaves_foldl)
    | (intro u x hu)
    | with_reducible exact Kept.refl
    | decide
    | (with_reducible apply Leaves.upd)
    | (with_reducible apply Kept.mem)
    | with_reducible exact Boundary.Like.refl _ _
    | with_reducible exact Sensing.Like.refl _ _
    | with_reducible exact Dict.Like.refl _ _
    | with_reducible exact NonVolatile.Like.refl _ _
    | with_reducible exact LifeCycle.Like.refl _ _
    | with_reducible exact Contexts.Like.refl _ _
    | with_reducible exact Steps.Like.refl _ _
    | with_reducible exact Mortar.Like.refl _ _
    | with_reducible exact Upkeep.Like.refl _ _
    | (with_reducible apply Upkeep.Like.mk)

theorem leaves_countMarches {W : List Part} {s₀ s : State} (hW : [.counters] ⊆ W) (hk : Leaves W s₀ s) (failures :
    Nat) : Leaves W s₀ (countMarches failures s) := by
  refine hk.trans ?_ hW
  unfold countMarches
  try dsimp only
  repeat' first
    | with_reducible assumption
    | with_reducible exact Leaves.refl _ _
    | split
    | with_reducible apply leaves_count
    | (with_reducible apply leaves_foldl)
    | (intro u x hu)
    | with_reducible exact Kept.refl
    | decide
    | (with_reducible apply Leaves.upd)
    | (with_reducible apply Kept.mem)
    | with_reducible exact Boundary.Like.refl _ _
    | with_reducible exact Sensing.Like.refl _ _
    | with_reducible exact Dict.Like.refl _ _
    | with_reducible exact NonVolatile.Like.refl _ _
    | with_reducible exact LifeCycle.Like.refl _ _
    | with_reducible exact Contexts.Like.refl _ _
    | with_reducible exact Steps.Like.refl _ _
    | with_reducible exact Mortar.Like.refl _ _
    | with_reducible exact Upkeep.Like.refl _ _

theorem leaves_enterService {W : List Part} {s₀ s : State} (hW : [.present, .reset, .events, .counters,
    .transition, .late, .out] ⊆ W) (hk : Leaves W s₀ s) : Leaves W s₀ (enterService s) := by
  refine hk.trans ?_ hW
  unfold enterService
  try dsimp only
  repeat' first
    | with_reducible assumption
    | with_reducible exact Leaves.refl _ _
    | split
    | with_reducible apply leaves_risePresent
    | with_reducible apply leaves_raise
    | (intro u x hu)
    | with_reducible exact Kept.refl
    | decide
    | (with_reducible apply Leaves.upd)
    | (with_reducible apply Kept.mem)
    | with_reducible exact Boundary.Like.refl _ _
    | with_reducible exact Sensing.Like.refl _ _
    | with_reducible exact Dict.Like.refl _ _
    | with_reducible exact NonVolatile.Like.refl _ _
    | with_reducible exact LifeCycle.Like.refl _ _
    | with_reducible exact Contexts.Like.refl _ _
    | with_reducible exact Steps.Like.refl _ _
    | with_reducible exact Mortar.Like.refl _ _
    | with_reducible exact Upkeep.Like.refl _ _
    | (with_reducible apply LifeCycle.Like.mk)

theorem leaves_stayAbsent {W : List Part} {s₀ s : State} (hW : [.present, .reset, .power, .hsOff, .heads, .lanes,
    .cache] ⊆ W) (hk : Leaves W s₀ s) : Leaves W s₀ (stayAbsent s) := by
  refine hk.trans ?_ hW
  unfold stayAbsent
  try dsimp only
  repeat' first
    | with_reducible assumption
    | with_reducible exact Leaves.refl _ _
    | split
    | with_reducible apply leaves_enterDormant
    | (intro u x hu)
    | with_reducible exact Kept.refl
    | decide
    | (with_reducible apply Leaves.upd)
    | (with_reducible apply Kept.mem)
    | with_reducible exact Boundary.Like.refl _ _
    | with_reducible exact Sensing.Like.refl _ _
    | with_reducible exact Dict.Like.refl _ _
    | with_reducible exact NonVolatile.Like.refl _ _
    | with_reducible exact LifeCycle.Like.refl _ _
    | with_reducible exact Contexts.Like.refl _ _
    | with_reducible exact Steps.Like.refl _ _
    | with_reducible exact Mortar.Like.refl _ _
    | with_reducible exact Upkeep.Like.refl _ _
    | (with_reducible apply Boundary.Like.mk)

theorem leaves_endBringUp {W : List Part} {s₀ s : State} (hW : [.present, .reset, .power, .laneRow, .hsOff,
    .events, .counters, .transition, .heads, .lanes, .cache, .late, .tests, .out] ⊆ W) (hk : Leaves W s₀ s)
    (failures : Nat) : Leaves W s₀ (endBringUp failures s) := by
  refine hk.trans ?_ hW
  unfold endBringUp
  try dsimp only
  repeat' first
    | with_reducible assumption
    | with_reducible exact Leaves.refl _ _
    | split
    | with_reducible apply leaves_count
    | with_reducible apply leaves_endWake
    | with_reducible apply leaves_reportTests
    | with_reducible apply leaves_countMarches
    | with_reducible apply leaves_enterService
    | with_reducible apply leaves_stayAbsent
    | (intro u x hu)
    | with_reducible exact Kept.refl
    | decide
    | (with_reducible apply Leaves.upd)
    | (with_reducible apply Kept.mem)
    | with_reducible exact Boundary.Like.refl _ _
    | with_reducible exact Sensing.Like.refl _ _
    | with_reducible exact Dict.Like.refl _ _
    | with_reducible exact NonVolatile.Like.refl _ _
    | with_reducible exact LifeCycle.Like.refl _ _
    | with_reducible exact Contexts.Like.refl _ _
    | with_reducible exact Steps.Like.refl _ _
    | with_reducible exact Mortar.Like.refl _ _
    | with_reducible exact Upkeep.Like.refl _ _

theorem leaves_bistGoEffect {W : List Part} {s₀ s : State} (hW : [.counters, .heads, .tests] ⊆ W) (hk : Leaves W s₀
    s) : Leaves W s₀ (bistGoEffect s) := by
  refine hk.trans ?_ hW
  unfold bistGoEffect
  try dsimp only
  repeat' first
    | with_reducible assumption
    | with_reducible exact Leaves.refl _ _
    | split
    | with_reducible apply leaves_reject
    | with_reducible apply leaves_idle
    | with_reducible apply leaves_startTests
    | (intro u x hu)
    | with_reducible exact Kept.refl
    | decide
    | (with_reducible apply Leaves.upd)
    | (with_reducible apply Kept.mem)
    | with_reducible exact Boundary.Like.refl _ _
    | with_reducible exact Sensing.Like.refl _ _
    | with_reducible exact Dict.Like.refl _ _
    | with_reducible exact NonVolatile.Like.refl _ _
    | with_reducible exact LifeCycle.Like.refl _ _
    | with_reducible exact Contexts.Like.refl _ _
    | with_reducible exact Steps.Like.refl _ _
    | with_reducible exact Mortar.Like.refl _ _
    | with_reducible exact Upkeep.Like.refl _ _
    | (with_reducible apply Upkeep.Like.mk)

theorem leaves_endTests {W : List Part} {s₀ s : State} (hW : [.power, .events, .counters, .cache, .starts, .tests]
    ⊆ W) (hk : Leaves W s₀ s) (mask failures : Nat) : Leaves W s₀ (endTests mask failures s) := by
  refine hk.trans ?_ hW
  unfold endTests
  try dsimp only
  repeat' first
    | with_reducible assumption
    | with_reducible exact Leaves.refl _ _
    | split
    | with_reducible apply leaves_beginLatched
    | with_reducible apply leaves_reportTests
    | (intro u x hu)
    | with_reducible exact Kept.refl
    | decide
    | (with_reducible apply Leaves.upd)
    | (with_reducible apply Kept.mem)
    | with_reducible exact Boundary.Like.refl _ _
    | with_reducible exact Sensing.Like.refl _ _
    | with_reducible exact Dict.Like.refl _ _
    | with_reducible exact NonVolatile.Like.refl _ _
    | with_reducible exact LifeCycle.Like.refl _ _
    | with_reducible exact Contexts.Like.refl _ _
    | with_reducible exact Steps.Like.refl _ _
    | with_reducible exact Mortar.Like.refl _ _
    | with_reducible exact Upkeep.Like.refl _ _
    | (with_reducible apply Contexts.Like.mk)

end Sys2Proof.Machine
end

