-- ==== Sys2Proof/Laws/LeavesLifeCycle.lean ====
section
/-! SUPPORT. What the effects of Machine/LifeCycle.lean leave as it was. -/

namespace Sys2Proof.Machine

theorem leaves_writeRecord {W : List Part} {s₀ s : State} (hW : [.copies, .record] ⊆ W) (hk : Leaves W s₀ s) (r :
    LifeRecord) : Leaves W s₀ (writeRecord r s) := by
  refine hk.trans ?_ hW
  unfold writeRecord
  try dsimp only
  repeat' first
    | with_reducible assumption
    | with_reducible exact Leaves.refl _ _
    | split
    | (intro u x hu)
    | with_reducible exact Kept.refl
    | decide
    | (with_reducible apply Leaves.upd)
    | (with_reducible apply Kept.mem)
    | with_reducible exact Boundary.Like.refl _ _
    | with_reducible exact Sensing.Like.refl _ _
    | with_reducible exact Dict.Like.refl _ _
    | with_reducible exact NonVolatile.Like.refl _ _
    | with_reducible exact LifeCycle.Like.refl _ _
    | with_reducible exact Contexts.Like.refl _ _
    | with_reducible exact Steps.Like.refl _ _
    | with_reducible exact Mortar.Like.refl _ _
    | with_reducible exact Upkeep.Like.refl _ _
    | (with_reducible apply NonVolatile.Like.mk)
    | (with_reducible apply LifeCycle.Like.mk)

theorem leaves_challengeEffect {W : List Part} {s₀ s : State} (hW : [.counters, .challenge, .transition] ⊆ W) (hk :
    Leaves W s₀ s) : Leaves W s₀ (challengeEffect s) := by
  refine hk.trans ?_ hW
  unfold challengeEffect
  try dsimp only
  repeat' first
    | with_reducible assumption
    | with_reducible exact Leaves.refl _ _
    | split
    | with_reducible apply leaves_reject
    | (intro u x hu)
    | with_reducible exact Kept.refl
    | decide
    | (with_reducible apply Leaves.upd)
    | (with_reducible apply Kept.mem)
    | with_reducible exact Boundary.Like.refl _ _
    | with_reducible exact Sensing.Like.refl _ _
    | with_reducible exact Dict.Like.refl _ _
    | with_reducible exact NonVolatile.Like.refl _ _
    | with_reducible exact LifeCycle.Like.refl _ _
    | with_reducible exact Contexts.Like.refl _ _
    | with_reducible exact Steps.Like.refl _ _
    | with_reducible exact Mortar.Like.refl _ _
    | with_reducible exact Upkeep.Like.refl _ _
    | (with_reducible apply LifeCycle.Like.mk)

theorem leaves_transitionGoEffect {W : List Part} {s₀ s : State} (hW : [.counters, .challenge, .transition] ⊆ W)
    (hk : Leaves W s₀ s) : Leaves W s₀ (transitionGoEffect s) := by
  refine hk.trans ?_ hW
  unfold transitionGoEffect
  try dsimp only
  repeat' first
    | with_reducible assumption
    | with_reducible exact Leaves.refl _ _
    | split
    | with_reducible apply leaves_reject
    | (intro u x hu)
    | with_reducible exact Kept.refl
    | decide
    | (with_reducible apply Leaves.upd)
    | (with_reducible apply Kept.mem)
    | with_reducible exact Boundary.Like.refl _ _
    | with_reducible exact Sensing.Like.refl _ _
    | with_reducible exact Dict.Like.refl _ _
    | with_reducible exact NonVolatile.Like.refl _ _
    | with_reducible exact LifeCycle.Like.refl _ _
    | with_reducible exact Contexts.Like.refl _ _
    | with_reducible exact Steps.Like.refl _ _
    | with_reducible exact Mortar.Like.refl _ _
    | with_reducible exact Upkeep.Like.refl _ _
    | (with_reducible apply LifeCycle.Like.mk)

theorem leaves_refuseTransition {W : List Part} {s₀ s : State} (hW : [.events, .counters, .copies, .record,
    .transition] ⊆ W) (hk : Leaves W s₀ s) (reason : Nat) : Leaves W s₀ (refuseTransition reason s) := by
  refine hk.trans ?_ hW
  unfold refuseTransition
  try dsimp only
  repeat' first
    | with_reducible assumption
    | with_reducible exact Leaves.refl _ _
    | split
    | with_reducible apply leaves_reject
    | with_reducible apply leaves_writeRecord
    | with_reducible apply leaves_raiseArgs
    | (intro u x hu)
    | with_reducible exact Kept.refl
    | decide
    | (with_reducible apply Leaves.upd)
    | (with_reducible apply Kept.mem)
    | with_reducible exact Boundary.Like.refl _ _
    | with_reducible exact Sensing.Like.refl _ _
    | with_reducible exact Dict.Like.refl _ _
    | with_reducible exact NonVolatile.Like.refl _ _
    | with_reducible exact LifeCycle.Like.refl _ _
    | with_reducible exact Contexts.Like.refl _ _
    | with_reducible exact Steps.Like.refl _ _
    | with_reducible exact Mortar.Like.refl _ _
    | with_reducible exact Upkeep.Like.refl _ _
    | (with_reducible apply LifeCycle.Like.mk)

theorem leaves_refuseWaiting {W : List Part} {s₀ s : State} (hW : [.events, .counters, .starts] ⊆ W) (hk : Leaves W
    s₀ s) : Leaves W s₀ (refuseWaiting s) := by
  refine hk.trans ?_ hW
  unfold refuseWaiting
  try dsimp only
  repeat' first
    | with_reducible assumption
    | with_reducible exact Leaves.refl _ _
    | split
    | with_reducible apply leaves_clearStarts
    | (intro u x hu)
    | with_reducible exact Kept.refl
    | decide
    | (with_reducible apply Leaves.upd)
    | (with_reducible apply Kept.mem)
    | with_reducible exact Boundary.Like.refl _ _
    | with_reducible exact Sensing.Like.refl _ _
    | with_reducible exact Dict.Like.refl _ _
    | with_reducible exact NonVolatile.Like.refl _ _
    | with_reducible exact LifeCycle.Like.refl _ _
    | with_reducible exact Contexts.Like.refl _ _
    | with_reducible exact Steps.Like.refl _ _
    | with_reducible exact Mortar.Like.refl _ _
    | with_reducible exact Upkeep.Like.refl _ _

theorem leaves_startWipe {W : List Part} {s₀ s : State} (hW : [.events, .rw, .counters, .copies, .record,
    .transition, .starts] ⊆ W) (hk : Leaves W s₀ s) (r : LifeRecord) : Leaves W s₀ (startWipe r s) := by
  refine hk.trans ?_ hW
  unfold startWipe
  try dsimp only
  repeat' first
    | with_reducible assumption
    | with_reducible exact Leaves.refl _ _
    | split
    | with_reducible apply leaves_writeRecord
    | with_reducible apply leaves_setRw
    | with_reducible apply leaves_refuseWaiting
    | (intro u x hu)
    | with_reducible exact Kept.refl
    | decide
    | (with_reducible apply Leaves.upd)
    | (with_reducible apply Kept.mem)
    | with_reducible exact Boundary.Like.refl _ _
    | with_reducible exact Sensing.Like.refl _ _
    | with_reducible exact Dict.Like.refl _ _
    | with_reducible exact NonVolatile.Like.refl _ _
    | with_reducible exact LifeCycle.Like.refl _ _
    | with_reducible exact Contexts.Like.refl _ _
    | with_reducible exact Steps.Like.refl _ _
    | with_reducible exact Mortar.Like.refl _ _
    | with_reducible exact Upkeep.Like.refl _ _
    | (with_reducible apply LifeCycle.Like.mk)

theorem leaves_acceptTransition {W : List Part} {s₀ s : State} (hW : [.events, .rw, .counters, .copies, .record,
    .transition, .starts] ⊆ W) (hk : Leaves W s₀ s) (v : Verifying) : Leaves W s₀ (acceptTransition v s) := by
  refine hk.trans ?_ hW
  unfold acceptTransition
  try dsimp only
  repeat' first
    | with_reducible assumption
    | with_reducible exact Leaves.refl _ _
    | split
    | with_reducible apply leaves_startWipe
    | (intro u x hu)
    | with_reducible exact Kept.refl
    | decide
    | (with_reducible apply Leaves.upd)
    | (with_reducible apply Kept.mem)
    | with_reducible exact Boundary.Like.refl _ _
    | with_reducible exact Sensing.Like.refl _ _
    | with_reducible exact Dict.Like.refl _ _
    | with_reducible exact NonVolatile.Like.refl _ _
    | with_reducible exact LifeCycle.Like.refl _ _
    | with_reducible exact Contexts.Like.refl _ _
    | with_reducible exact Steps.Like.refl _ _
    | with_reducible exact Mortar.Like.refl _ _
    | with_reducible exact Upkeep.Like.refl _ _
    | (with_reducible apply LifeCycle.Like.mk)

theorem leaves_endVerification {W : List Part} {s₀ s : State} (hW : [.events, .rw, .counters, .copies, .record,
    .transition, .starts] ⊆ W) (hk : Leaves W s₀ s) (v : Verifying) : Leaves W s₀ (endVerification v s) := by
  refine hk.trans ?_ hW
  unfold endVerification
  try dsimp only
  repeat' first
    | with_reducible assumption
    | with_reducible exact Leaves.refl _ _
    | split
    | with_reducible apply leaves_acceptTransition
    | with_reducible apply leaves_refuseTransition
    | (intro u x hu)
    | with_reducible exact Kept.refl
    | decide
    | (with_reducible apply Leaves.upd)
    | (with_reducible apply Kept.mem)
    | with_reducible exact Boundary.Like.refl _ _
    | with_reducible exact Sensing.Like.refl _ _
    | with_reducible exact Dict.Like.refl _ _
    | with_reducible exact NonVolatile.Like.refl _ _
    | with_reducible exact LifeCycle.Like.refl _ _
    | with_reducible exact Contexts.Like.refl _ _
    | with_reducible exact Steps.Like.refl _ _
    | with_reducible exact Mortar.Like.refl _ _
    | with_reducible exact Upkeep.Like.refl _ _
    | (with_reducible apply LifeCycle.Like.mk)

theorem leaves_changeState {W : List Part} {s₀ s : State} (hW : [.events, .counters, .copies, .record, .transition,
    .run, .starts, .lastStep, .peers, .late, .mem, .out] ⊆ W) (hk : Leaves W s₀ s) (r : LifeRecord) : Leaves W s₀
    (changeState r s) := by
  refine hk.trans ?_ hW
  unfold changeState
  try dsimp only
  repeat' first
    | with_reducible assumption
    | with_reducible exact Leaves.refl _ _
    | split
    | with_reducible apply leaves_writeRecord
    | with_reducible apply leaves_pump
    | with_reducible apply leaves_raiseArgs
    | with_reducible apply leaves_refuseWaiting
    | (intro u x hu)
    | with_reducible exact Kept.refl
    | decide
    | (with_reducible apply Leaves.upd)
    | (with_reducible apply Kept.mem)
    | with_reducible exact Boundary.Like.refl _ _
    | with_reducible exact Sensing.Like.refl _ _
    | with_reducible exact Dict.Like.refl _ _
    | with_reducible exact NonVolatile.Like.refl _ _
    | with_reducible exact LifeCycle.Like.refl _ _
    | with_reducible exact Contexts.Like.refl _ _
    | with_reducible exact Steps.Like.refl _ _
    | with_reducible exact Mortar.Like.refl _ _
    | with_reducible exact Upkeep.Like.refl _ _
    | (with_reducible apply LifeCycle.Like.mk)

theorem leaves_finishWipe {W : List Part} {s₀ s : State} (hW : [.present, .tsReq, .edge, .reset, .clock, .power,
    .rails, .heat, .laneRow, .hsOff, .latency, .events, .rw, .applied, .staged, .counters, .held, .commit, .store,
    .transfers, .endpoint, .mirror, .settings, .copies, .image, .record, .ownerBuffer, .challenge, .transition,
    .heads, .lanes, .fseq, .slots, .pages, .batches, .budgets, .directory, .cache, .run, .starts, .numbers,
    .lastStep, .peers, .bond, .tree, .late, .snapshot, .hold, .restore, .scrub, .corrected, .hsPass, .fence,
    .tests, .mode, .mem, .fresh] ⊆ W) (hk : Leaves W s₀ s) : Leaves W s₀ (finishWipe s) := by
  refine hk.trans ?_ hW
  unfold finishWipe
  try dsimp only
  repeat' first
    | with_reducible assumption
    | with_reducible exact Leaves.refl _ _
    | split
    | with_reducible apply leaves_emptyAllSlots
    | with_reducible apply leaves_raise
    | with_reducible apply leaves_writeRecord
    | with_reducible apply leaves_assertReset
    | (with_reducible apply leaves_foldl)
    | (intro u x hu)
    | with_reducible exact Kept.refl
    | decide
    | (with_reducible apply Leaves.upd)
    | (with_reducible apply Kept.mem)
    | with_reducible exact Boundary.Like.refl _ _
    | with_reducible exact Sensing.Like.refl _ _
    | with_reducible exact Dict.Like.refl _ _
    | with_reducible exact NonVolatile.Like.refl _ _
    | with_reducible exact LifeCycle.Like.refl _ _
    | with_reducible exact Contexts.Like.refl _ _
    | with_reducible exact Steps.Like.refl _ _
    | with_reducible exact Mortar.Like.refl _ _
    | with_reducible exact Upkeep.Like.refl _ _
    | (with_reducible apply NonVolatile.Like.mk)
    | (with_reducible apply LifeCycle.Like.mk)
    | (with_reducible apply Contexts.Like.mk)

end Sys2Proof.Machine
end

