-- ==== Sys2Proof/Laws/LeavesNetwork.lean ====
section
/-! SUPPORT. What the effects of Machine/Network.lean leave as it was. -/

namespace Sys2Proof.Machine

theorem leaves_readFails {W : List Part} {s₀ s : State} (hW : [.run] ⊆ W) (hk : Leaves W s₀ s) (what : Transaction)
    (rows : List Nat) (status : Nat) : Leaves W s₀ (readFails what rows status s) := by
  refine hk.trans ?_ hW
  unfold readFails
  try dsimp only
  repeat' first
    | with_reducible assumption
    | with_reducible exact Leaves.refl _ _
    | split
    | with_reducible apply leaves_withRun
    | with_reducible apply leaves_markRows
    | (intro u x hu)
    | with_reducible exact Kept.refl
    | decide
    | (with_reducible apply Leaves.upd)
    | (with_reducible apply Kept.mem)
    | with_reducible exact Boundary.Like.refl _ _
    | with_reducible exact Sensing.Like.refl _ _
    | with_reducible exact Dict.Like.refl _ _
    | with_reducible exact NonVolatile.Like.refl _ _
    | with_reducible exact LifeCycle.Like.refl _ _
    | with_reducible exact Contexts.Like.refl _ _
    | with_reducible exact Steps.Like.refl _ _
    | with_reducible exact Mortar.Like.refl _ _
    | with_reducible exact Upkeep.Like.refl _ _

theorem leaves_rejoinLeaf {W : List Part} {s₀ s : State} (hW : [.slots, .pages, .snapshot] ⊆ W) (hk : Leaves W s₀ s)
    (old : State) (parent child : Nat) : Leaves W s₀ (rejoinLeaf old parent child s) := by
  refine hk.trans ?_ hW
  unfold rejoinLeaf
  try dsimp only
  repeat' first
    | with_reducible assumption
    | with_reducible exact Leaves.refl _ _
    | split
    | with_reducible apply leaves_dirtySlot
    | with_reducible apply leaves_setContext
    | with_reducible apply leaves_dirtyNode
    | (intro u x hu)
    | with_reducible exact Kept.refl
    | decide
    | (with_reducible apply Leaves.upd)
    | (with_reducible apply Kept.mem)
    | with_reducible exact Boundary.Like.refl _ _
    | with_reducible exact Sensing.Like.refl _ _
    | with_reducible exact Dict.Like.refl _ _
    | with_reducible exact NonVolatile.Like.refl _ _
    | with_reducible exact LifeCycle.Like.refl _ _
    | with_reducible exact Contexts.Like.refl _ _
    | with_reducible exact Steps.Like.refl _ _
    | with_reducible exact Mortar.Like.refl _ _
    | with_reducible exact Upkeep.Like.refl _ _
    | (with_reducible apply Contexts.Like.mk)

theorem leaves_unfork {W : List Part} {s₀ s : State} (hW : [.slots, .pages, .snapshot] ⊆ W) (hk : Leaves W s₀ s) (old
    : State) (slot : Nat) (x : Served) : Leaves W s₀ (unfork old slot x s) := by
  refine hk.trans ?_ hW
  unfold unfork
  try dsimp only
  repeat' first
    | with_reducible assumption
    | with_reducible exact Leaves.refl _ _
    | split
    | with_reducible apply leaves_rejoinLeaf
    | with_reducible apply leaves_freeSlot
    | (intro u x hu)
    | with_reducible exact Kept.refl
    | decide
    | (with_reducible apply Leaves.upd)
    | (with_reducible apply Kept.mem)
    | with_reducible exact Boundary.Like.refl _ _
    | with_reducible exact Sensing.Like.refl _ _
    | with_reducible exact Dict.Like.refl _ _
    | with_reducible exact NonVolatile.Like.refl _ _
    | with_reducible exact LifeCycle.Like.refl _ _
    | with_reducible exact Contexts.Like.refl _ _
    | with_reducible exact Steps.Like.refl _ _
    | with_reducible exact Mortar.Like.refl _ _
    | with_reducible exact Upkeep.Like.refl _ _

theorem leaves_uncount {W : List Part} {s₀ s : State} (hW : [.counters] ⊆ W) (hk : Leaves W s₀ s) (x : Served) :
    Leaves W s₀ (uncount x s) := by
  refine hk.trans ?_ hW
  unfold uncount
  try dsimp only
  repeat' first
    | with_reducible assumption
    | with_reducible exact Leaves.refl _ _
    | split
    | with_reducible apply leaves_setCounter
    | (intro u x hu)
    | with_reducible exact Kept.refl
    | decide
    | (with_reducible apply Leaves.upd)
    | (with_reducible apply Kept.mem)
    | with_reducible exact Boundary.Like.refl _ _
    | with_reducible exact Sensing.Like.refl _ _
    | with_reducible exact Dict.Like.refl _ _
    | with_reducible exact NonVolatile.Like.refl _ _
    | with_reducible exact LifeCycle.Like.refl _ _
    | with_reducible exact Contexts.Like.refl _ _
    | with_reducible exact Steps.Like.refl _ _
    | with_reducible exact Mortar.Like.refl _ _
    | with_reducible exact Upkeep.Like.refl _ _

theorem leaves_failServed {W : List Part} {s₀ s : State} (hW : [.counters, .slots, .pages, .snapshot, .mem] ⊆ W) (hk :
    Leaves W s₀ s) (old : State) (slot : Nat) (x : Served) : Leaves W s₀ (failServed old slot s x) := by
  refine hk.trans ?_ hW
  unfold failServed
  try dsimp only
  repeat' first
    | with_reducible assumption
    | with_reducible exact Leaves.refl _ _
    | split
    | with_reducible apply leaves_writeResults
    | with_reducible apply leaves_uncount
    | with_reducible apply leaves_unfork
    | (intro u x hu)
    | with_reducible exact Kept.refl
    | decide
    | (with_reducible apply Leaves.upd)
    | (with_reducible apply Kept.mem)
    | with_reducible exact Boundary.Like.refl _ _
    | with_reducible exact Sensing.Like.refl _ _
    | with_reducible exact Dict.Like.refl _ _
    | with_reducible exact NonVolatile.Like.refl _ _
    | with_reducible exact LifeCycle.Like.refl _ _
    | with_reducible exact Contexts.Like.refl _ _
    | with_reducible exact Steps.Like.refl _ _
    | with_reducible exact Mortar.Like.refl _ _
    | with_reducible exact Upkeep.Like.refl _ _

theorem leaves_loseWritten {W : List Part} {s₀ s : State} (hW : [.events, .counters, .slots, .pages, .batches, .run,
    .snapshot, .mem] ⊆ W) (hk : Leaves W s₀ s) (slot : Nat) : Leaves W s₀ (loseWritten slot s) := by
  refine hk.trans ?_ hW
  unfold loseWritten
  try dsimp only
  repeat' first
    | with_reducible assumption
    | with_reducible exact Leaves.refl _ _
    | split
    | with_reducible apply leaves_failServed
    | with_reducible apply leaves_loseContext
    | with_reducible apply leaves_markRows
    | (with_reducible apply leaves_foldl)
    | (intro u x hu)
    | with_reducible exact Kept.refl
    | decide
    | (with_reducible apply Leaves.upd)
    | (with_reducible apply Kept.mem)
    | with_reducible exact Boundary.Like.refl _ _
    | with_reducible exact Sensing.Like.refl _ _
    | with_reducible exact Dict.Like.refl _ _
    | with_reducible exact NonVolatile.Like.refl _ _
    | with_reducible exact LifeCycle.Like.refl _ _
    | with_reducible exact Contexts.Like.refl _ _
    | with_reducible exact Steps.Like.refl _ _
    | with_reducible exact Mortar.Like.refl _ _
    | with_reducible exact Upkeep.Like.refl _ _

theorem leaves_stopBatch {W : List Part} {s₀ s : State} (hW : [.batches] ⊆ W) (hk : Leaves W s₀ s) (t : Nat) :
    Leaves W s₀ (stopBatch t s) := by
  refine hk.trans ?_ hW
  unfold stopBatch
  try dsimp only
  repeat' first
    | with_reducible assumption
    | with_reducible exact Leaves.refl _ _
    | split
    | with_reducible apply leaves_setBatch
    | (intro u x hu)
    | with_reducible exact Kept.refl
    | decide
    | (with_reducible apply Leaves.upd)
    | (with_reducible apply Kept.mem)
    | with_reducible exact Boundary.Like.refl _ _
    | with_reducible exact Sensing.Like.refl _ _
    | with_reducible exact Dict.Like.refl _ _
    | with_reducible exact NonVolatile.Like.refl _ _
    | with_reducible exact LifeCycle.Like.refl _ _
    | with_reducible exact Contexts.Like.refl _ _
    | with_reducible exact Steps.Like.refl _ _
    | with_reducible exact Mortar.Like.refl _ _
    | with_reducible exact Upkeep.Like.refl _ _

theorem leaves_manifestFails {W : List Part} {s₀ s : State} (hW : [.present, .reset, .power, .events, .counters,
    .transfers, .image, .ownerBuffer, .challenge, .heads, .lanes, .fseq, .slots, .pages, .batches, .budgets, .cache,
    .run, .starts, .numbers, .lastStep, .peers, .late, .snapshot, .hold, .restore, .fence, .tests, .fresh, .clock,
    .slow] ⊆ W) (hk : Leaves W s₀ s) : Leaves W s₀ (manifestFails s) := by
  refine hk.trans ?_ hW
  unfold manifestFails
  try dsimp only
  repeat' first
    | with_reducible assumption
    | with_reducible exact Leaves.refl _ _
    | split
    | with_reducible apply leaves_refuseManifest
    | with_reducible apply leaves_withRun
    | (intro u x hu)
    | with_reducible exact Kept.refl
    | decide
    | (with_reducible apply Leaves.upd)
    | (with_reducible apply Kept.mem)
    | with_reducible exact Boundary.Like.refl _ _
    | with_reducible exact Sensing.Like.refl _ _
    | with_reducible exact Dict.Like.refl _ _
    | with_reducible exact NonVolatile.Like.refl _ _
    | with_reducible exact LifeCycle.Like.refl _ _
    | with_reducible exact Contexts.Like.refl _ _
    | with_reducible exact Steps.Like.refl _ _
    | with_reducible exact Mortar.Like.refl _ _
    | with_reducible exact Upkeep.Like.refl _ _

theorem leaves_errorOutcome {W : List Part} {s₀ s : State} (hW : [.present, .reset, .power, .events, .counters,
    .transfers, .image, .ownerBuffer, .challenge, .heads, .lanes, .fseq, .slots, .pages, .batches, .budgets, .cache,
    .run, .starts, .numbers, .lastStep, .peers, .late, .snapshot, .hold, .restore, .fence, .tests, .mem, .fresh,
    .clock, .slow] ⊆ W) (hk : Leaves W s₀ s) (what : Transaction) : Leaves W s₀ (errorOutcome what s) := by
  refine hk.trans ?_ hW
  unfold errorOutcome
  try dsimp only
  repeat' first
    | with_reducible assumption
    | with_reducible exact Leaves.refl _ _
    | split
    | with_reducible apply leaves_manifestFails
    | with_reducible apply leaves_withRun
    | with_reducible apply leaves_readFails
    | with_reducible apply leaves_markRows
    | with_reducible apply leaves_loseWritten
    | with_reducible apply leaves_stopBatch
    | with_reducible apply leaves_setBatch
    | with_reducible apply leaves_swapSourceError
    | with_reducible apply leaves_loseContext
    | with_reducible apply leaves_failSnapshot
    | with_reducible apply leaves_restoreRead
    | with_reducible apply leaves_failRestore
    | (intro u x hu)
    | with_reducible exact Kept.refl
    | decide
    | (with_reducible apply Leaves.upd)
    | (with_reducible apply Kept.mem)
    | with_reducible exact Boundary.Like.refl _ _
    | with_reducible exact Sensing.Like.refl _ _
    | with_reducible exact Dict.Like.refl _ _
    | with_reducible exact NonVolatile.Like.refl _ _
    | with_reducible exact LifeCycle.Like.refl _ _
    | with_reducible exact Contexts.Like.refl _ _
    | with_reducible exact Steps.Like.refl _ _
    | with_reducible exact Mortar.Like.refl _ _
    | with_reducible exact Upkeep.Like.refl _ _

theorem leaves_errorResponse {W : List Part} {s₀ s : State} (hW : [.present, .reset, .power, .events, .counters,
    .transfers, .image, .ownerBuffer, .challenge, .heads, .lanes, .fseq, .slots, .pages, .batches, .budgets, .cache,
    .run, .starts, .numbers, .lastStep, .peers, .late, .snapshot, .hold, .restore, .fence, .tests, .mem, .fresh,
    .clock, .slow] ⊆ W) (hk : Leaves W s₀ s) (port : Nat) (what : Transaction) : Leaves W s₀ (errorResponse port what
    s) := by
  refine hk.trans ?_ hW
  unfold errorResponse
  try dsimp only
  repeat' first
    | with_reducible assumption
    | with_reducible exact Leaves.refl _ _
    | split
    | with_reducible apply leaves_count
    | with_reducible apply leaves_raiseCount
    | with_reducible apply leaves_errorOutcome
    | (intro u x hu)
    | with_reducible exact Kept.refl
    | decide
    | (with_reducible apply Leaves.upd)
    | (with_reducible apply Kept.mem)
    | with_reducible exact Boundary.Like.refl _ _
    | with_reducible exact Sensing.Like.refl _ _
    | with_reducible exact Dict.Like.refl _ _
    | with_reducible exact NonVolatile.Like.refl _ _
    | with_reducible exact LifeCycle.Like.refl _ _
    | with_reducible exact Contexts.Like.refl _ _
    | with_reducible exact Steps.Like.refl _ _
    | with_reducible exact Mortar.Like.refl _ _
    | with_reducible exact Upkeep.Like.refl _ _

theorem leaves_rerunStep {W : List Part} {s₀ s : State} (hW : [.lanes, .run] ⊆ W) (hk : Leaves W s₀ s) : Leaves W
    s₀ (rerunStep s) := by
  refine hk.trans ?_ hW
  unfold rerunStep
  try dsimp only
  repeat' first
    | with_reducible assumption
    | with_reducible exact Leaves.refl _ _
    | split
    | with_reducible apply leaves_clearColumns
    | with_reducible apply leaves_withRun
    | (intro u x hu)
    | with_reducible exact Kept.refl
    | decide
    | (with_reducible apply Leaves.upd)
    | (with_reducible apply Kept.mem)
    | with_reducible exact Boundary.Like.refl _ _
    | with_reducible exact Sensing.Like.refl _ _
    | with_reducible exact Dict.Like.refl _ _
    | with_reducible exact NonVolatile.Like.refl _ _
    | with_reducible exact LifeCycle.Like.refl _ _
    | with_reducible exact Contexts.Like.refl _ _
    | with_reducible exact Steps.Like.refl _ _
    | with_reducible exact Mortar.Like.refl _ _
    | with_reducible exact Upkeep.Like.refl _ _

theorem leaves_settleAbandoned {W : List Part} {s₀ s : State} (hW : [.power, .events, .applied, .staged, .counters,
    .commit, .heads, .fseq, .slots, .pages, .batches, .budgets, .directory, .starts, .peers, .bond, .tree, .late,
    .snapshot, .restore, .tests, .mode, .mem, .out, .fresh] ⊆ W) (hk : Leaves W s₀ s) : Leaves W s₀
    (settleAbandoned s) := by
  refine hk.trans ?_ hW
  unfold settleAbandoned
  try dsimp only
  repeat' first
    | with_reducible assumption
    | with_reducible exact Leaves.refl _ _
    | split
    | with_reducible apply leaves_startHeldSwaps
    | with_reducible apply leaves_actionFive
    | with_reducible apply leaves_actionFour
    | with_reducible apply leaves_applyCancels
    | with_reducible apply leaves_releaseReserved
    | with_reducible apply leaves_reloadMicro
    | with_reducible apply leaves_startRestore
    | with_reducible apply leaves_beginLatched
    | with_reducible apply leaves_startWaitingTests
    | (intro u x hu)
    | with_reducible exact Kept.refl
    | decide
    | (with_reducible apply Leaves.upd)
    | (with_reducible apply Kept.mem)
    | with_reducible exact Boundary.Like.refl _ _
    | with_reducible exact Sensing.Like.refl _ _
    | with_reducible exact Dict.Like.refl _ _
    | with_reducible exact NonVolatile.Like.refl _ _
    | with_reducible exact LifeCycle.Like.refl _ _
    | with_reducible exact Contexts.Like.refl _ _
    | with_reducible exact Steps.Like.refl _ _
    | with_reducible exact Mortar.Like.refl _ _
    | with_reducible exact Upkeep.Like.refl _ _

theorem leaves_quiesceUnit {W : List Part} {s₀ s : State} (hW : [.power, .events, .applied, .staged, .counters,
    .commit, .heads, .lanes, .fseq, .slots, .pages, .batches, .budgets, .directory, .run, .starts, .peers, .bond,
    .tree, .late, .snapshot, .restore, .tests, .mode, .mem, .out, .fresh] ⊆ W) (hk : Leaves W s₀ s) : Leaves W s₀
    (quiesceUnit s) := by
  refine hk.trans ?_ hW
  unfold quiesceUnit
  try dsimp only
  repeat' first
    | with_reducible assumption
    | with_reducible exact Leaves.refl _ _
    | split
    | with_reducible apply leaves_raiseCount
    | with_reducible apply leaves_clearColumns
    | with_reducible apply leaves_settleAbandoned
    | with_reducible apply leaves_clearStarts
    | (intro u x hu)
    | with_reducible exact Kept.refl
    | decide
    | (with_reducible apply Leaves.upd)
    | (with_reducible apply Kept.mem)
    | with_reducible exact Boundary.Like.refl _ _
    | with_reducible exact Sensing.Like.refl _ _
    | with_reducible exact Dict.Like.refl _ _
    | with_reducible exact NonVolatile.Like.refl _ _
    | with_reducible exact LifeCycle.Like.refl _ _
    | with_reducible exact Contexts.Like.refl _ _
    | with_reducible exact Steps.Like.refl _ _
    | with_reducible exact Mortar.Like.refl _ _
    | with_reducible exact Upkeep.Like.refl _ _
    | (with_reducible apply Steps.Like.mk)

theorem leaves_leadConflict {W : List Part} {s₀ s : State} (hW : [.power, .events, .applied, .staged, .counters,
    .commit, .heads, .lanes, .fseq, .slots, .pages, .batches, .budgets, .directory, .run, .starts, .peers, .bond,
    .tree, .late, .snapshot, .restore, .fence, .tests, .mode, .mem, .out, .fresh] ⊆ W) (hk : Leaves W s₀ s) (west :
    Bool) : Leaves W s₀ (leadConflict west s) := by
  refine hk.trans ?_ hW
  unfold leadConflict
  try dsimp only
  repeat' first
    | with_reducible assumption
    | with_reducible exact Leaves.refl _ _
    | split
    | with_reducible apply leaves_quiesceUnit
    | with_reducible apply leaves_rerunStep
    | with_reducible apply leaves_raiseCount
    | (intro u x hu)
    | with_reducible exact Kept.refl
    | decide
    | (with_reducible apply Leaves.upd)
    | (with_reducible apply Kept.mem)
    | with_reducible exact Boundary.Like.refl _ _
    | with_reducible exact Sensing.Like.refl _ _
    | with_reducible exact Dict.Like.refl _ _
    | with_reducible exact NonVolatile.Like.refl _ _
    | with_reducible exact LifeCycle.Like.refl _ _
    | with_reducible exact Contexts.Like.refl _ _
    | with_reducible exact Steps.Like.refl _ _
    | with_reducible exact Mortar.Like.refl _ _
    | with_reducible exact Upkeep.Like.refl _ _
    | (with_reducible apply Upkeep.Like.mk)

end Sys2Proof.Machine
end

