-- ==== Sys2Proof/Laws/LeavesDictionary.lean ====
section
/-! SUPPORT. What the effects of Machine/Dictionary.lean leave as it was. -/

namespace Sys2Proof.Machine

theorem leaves_commitEffect {W : List Part} {s₀ s : State} (hW : [.power, .events, .applied, .staged, .counters,
    .commit, .heads, .budgets, .directory, .peers, .bond, .tree, .late, .mode, .out] ⊆ W) (hk : Leaves W s₀ s) :
    Leaves W s₀ (commitEffect s) := by
  refine hk.trans ?_ hW
  unfold commitEffect
  try dsimp only
  repeat' first
    | with_reducible assumption
    | with_reducible exact Leaves.refl _ _
    | split
    | with_reducible apply leaves_idleCommit
    | (intro u x hu)
    | with_reducible exact Kept.refl
    | decide
    | (with_reducible apply Leaves.upd)
    | (with_reducible apply Kept.mem)
    | with_reducible exact Boundary.Like.refl _ _
    | with_reducible exact Sensing.Like.refl _ _
    | with_reducible exact Dict.Like.refl _ _
    | with_reducible exact NonVolatile.Like.refl _ _
    | with_reducible exact LifeCycle.Like.refl _ _
    | with_reducible exact Contexts.Like.refl _ _
    | with_reducible exact Steps.Like.refl _ _
    | with_reducible exact Mortar.Like.refl _ _
    | with_reducible exact Upkeep.Like.refl _ _
    | (with_reducible apply Dict.Like.mk)

theorem leaves_storeEffect {W : List Part} {s₀ s : State} (hW : [.store] ⊆ W) (hk : Leaves W s₀ s) : Leaves W s₀
    (storeEffect s) := by
  refine hk.trans ?_ hW
  unfold storeEffect
  try dsimp only
  repeat' first
    | with_reducible assumption
    | with_reducible exact Leaves.refl _ _
    | split
    | (intro u x hu)
    | with_reducible exact Kept.refl
    | decide
    | (with_reducible apply Leaves.upd)
    | (with_reducible apply Kept.mem)
    | with_reducible exact Boundary.Like.refl _ _
    | with_reducible exact Sensing.Like.refl _ _
    | with_reducible exact Dict.Like.refl _ _
    | with_reducible exact NonVolatile.Like.refl _ _
    | with_reducible exact LifeCycle.Like.refl _ _
    | with_reducible exact Contexts.Like.refl _ _
    | with_reducible exact Steps.Like.refl _ _
    | with_reducible exact Mortar.Like.refl _ _
    | with_reducible exact Upkeep.Like.refl _ _
    | (with_reducible apply Dict.Like.mk)

theorem leaves_endStore {W : List Part} {s₀ s : State} (hW : [.events, .counters, .store, .settings] ⊆ W) (hk :
    Leaves W s₀ s) (img : Store × Store) (ok : Bool) : Leaves W s₀ (endStore img ok s) := by
  refine hk.trans ?_ hW
  unfold endStore
  try dsimp only
  repeat' first
    | with_reducible assumption
    | with_reducible exact Leaves.refl _ _
    | split
    | with_reducible apply leaves_raise
    | (intro u x hu)
    | with_reducible exact Kept.refl
    | decide
    | (with_reducible apply Leaves.upd)
    | (with_reducible apply Kept.mem)
    | with_reducible exact Boundary.Like.refl _ _
    | with_reducible exact Sensing.Like.refl _ _
    | with_reducible exact Dict.Like.refl _ _
    | with_reducible exact NonVolatile.Like.refl _ _
    | with_reducible exact LifeCycle.Like.refl _ _
    | with_reducible exact Contexts.Like.refl _ _
    | with_reducible exact Steps.Like.refl _ _
    | with_reducible exact Mortar.Like.refl _ _
    | with_reducible exact Upkeep.Like.refl _ _
    | (with_reducible apply Dict.Like.mk)
    | (with_reducible apply NonVolatile.Like.mk)

theorem leaves_restoreDefaultsEffect {W : List Part} {s₀ s : State} (hW : [.rw, .staged, .ownerBuffer] ⊆ W) (hk :
    Leaves W s₀ s) : Leaves W s₀ (restoreDefaultsEffect s) := by
  refine hk.trans ?_ hW
  unfold restoreDefaultsEffect
  try dsimp only
  repeat' first
    | with_reducible assumption
    | with_reducible exact Leaves.refl _ _
    | split
    | (intro u x hu)
    | with_reducible exact Kept.refl
    | decide
    | (with_reducible apply Leaves.upd)
    | (with_reducible apply Kept.mem)
    | with_reducible exact Boundary.Like.refl _ _
    | with_reducible exact Sensing.Like.refl _ _
    | with_reducible exact Dict.Like.refl _ _
    | with_reducible exact NonVolatile.Like.refl _ _
    | with_reducible exact LifeCycle.Like.refl _ _
    | with_reducible exact Contexts.Like.refl _ _
    | with_reducible exact Steps.Like.refl _ _
    | with_reducible exact Mortar.Like.refl _ _
    | with_reducible exact Upkeep.Like.refl _ _
    | (with_reducible apply Dict.Like.mk)
    | (with_reducible apply LifeCycle.Like.mk)

theorem leaves_counterClearEffect {W : List Part} {s₀ s : State} (hW : [.counters] ⊆ W) (hk : Leaves W s₀ s) :
    Leaves W s₀ (counterClearEffect s) := by
  refine hk.trans ?_ hW
  unfold counterClearEffect
  try dsimp only
  repeat' first
    | with_reducible assumption
    | with_reducible exact Leaves.refl _ _
    | split
    | (intro u x hu)
    | with_reducible exact Kept.refl
    | decide
    | (with_reducible apply Leaves.upd)
    | (with_reducible apply Kept.mem)
    | with_reducible exact Boundary.Like.refl _ _
    | with_reducible exact Sensing.Like.refl _ _
    | with_reducible exact Dict.Like.refl _ _
    | with_reducible exact NonVolatile.Like.refl _ _
    | with_reducible exact LifeCycle.Like.refl _ _
    | with_reducible exact Contexts.Like.refl _ _
    | with_reducible exact Steps.Like.refl _ _
    | with_reducible exact Mortar.Like.refl _ _
    | with_reducible exact Upkeep.Like.refl _ _
    | (with_reducible apply Dict.Like.mk)

theorem leaves_eventPopEffect {W : List Part} {s₀ s : State} (hW : [.events] ⊆ W) (hk : Leaves W s₀ s) (n : Nat) :
    Leaves W s₀ (eventPopEffect n s) := by
  refine hk.trans ?_ hW
  unfold eventPopEffect
  try dsimp only
  repeat' first
    | with_reducible assumption
    | with_reducible exact Leaves.refl _ _
    | split
    | (intro u x hu)
    | with_reducible exact Kept.refl
    | decide
    | (with_reducible apply Leaves.upd)
    | (with_reducible apply Kept.mem)
    | with_reducible exact Boundary.Like.refl _ _
    | with_reducible exact Sensing.Like.refl _ _
    | with_reducible exact Dict.Like.refl _ _
    | with_reducible exact NonVolatile.Like.refl _ _
    | with_reducible exact LifeCycle.Like.refl _ _
    | with_reducible exact Contexts.Like.refl _ _
    | with_reducible exact Steps.Like.refl _ _
    | with_reducible exact Mortar.Like.refl _ _
    | with_reducible exact Upkeep.Like.refl _ _

theorem leaves_commandEffect {W : List Part} {s₀ s : State} (hW : [.present, .reset, .power, .events, .rw, .applied,
    .staged, .counters, .commit, .store, .transfers, .image, .ownerBuffer, .challenge, .transition, .heads, .lanes,
    .fseq, .slots, .pages, .batches, .budgets, .directory, .cache, .run, .starts, .numbers, .lastStep, .peers, .bond,
    .tree, .late, .snapshot, .hold, .restore, .fence, .tests, .mode, .out, .fresh, .clock, .slow] ⊆ W) (hk : Leaves W
    s₀ s) (key v : Nat) : Leaves W s₀ (commandEffect key v s) := by
  refine hk.trans ?_ hW
  unfold commandEffect
  try dsimp only
  repeat' first
    | with_reducible assumption
    | with_reducible exact Leaves.refl _ _
    | split
    | with_reducible apply leaves_swapGoEffect
    | with_reducible apply leaves_swapAbortEffect
    | with_reducible apply leaves_batchGoEffect
    | with_reducible apply leaves_challengeEffect
    | with_reducible apply leaves_transitionGoEffect
    | with_reducible apply leaves_storeEffect
    | with_reducible apply leaves_restoreDefaultsEffect
    | with_reducible apply leaves_laneResetEffect
    | with_reducible apply leaves_unitResetEffect
    | with_reducible apply leaves_commitEffect
    | with_reducible apply leaves_restage
    | with_reducible apply leaves_stepGoEffect
    | with_reducible apply leaves_installEffect
    | with_reducible apply leaves_factoryRestoreEffect
    | with_reducible apply leaves_counterClearEffect
    | with_reducible apply leaves_eventPopEffect
    | with_reducible apply leaves_snapshotGoEffect
    | with_reducible apply leaves_holdClearEffect
    | with_reducible apply leaves_holdSendGoEffect
    | with_reducible apply leaves_restoreGoEffect
    | with_reducible apply leaves_bistGoEffect
    | (intro u x hu)
    | with_reducible exact Kept.refl
    | decide
    | (with_reducible apply Leaves.upd)
    | (with_reducible apply Kept.mem)
    | with_reducible exact Boundary.Like.refl _ _
    | with_reducible exact Sensing.Like.refl _ _
    | with_reducible exact Dict.Like.refl _ _
    | with_reducible exact NonVolatile.Like.refl _ _
    | with_reducible exact LifeCycle.Like.refl _ _
    | with_reducible exact Contexts.Like.refl _ _
    | with_reducible exact Steps.Like.refl _ _
    | with_reducible exact Mortar.Like.refl _ _
    | with_reducible exact Upkeep.Like.refl _ _

theorem leaves_takeAddress {W : List Part} {s₀ s : State} (hW : [.late, .peers] ⊆ W) (hk : Leaves W s₀ s) (v : Nat) :
    Leaves W s₀ (takeAddress v s) := by
  refine hk.trans ?_ hW
  unfold takeAddress
  try dsimp only
  repeat' first
    | with_reducible assumption
    | with_reducible exact Leaves.refl _ _
    | split
    | with_reducible apply leaves_dropLate
    | (intro u x hu)
    | with_reducible exact Kept.refl
    | decide
    | (with_reducible apply Leaves.upd)
    | (with_reducible apply Kept.mem)
    | with_reducible exact Boundary.Like.refl _ _
    | with_reducible exact Sensing.Like.refl _ _
    | with_reducible exact Dict.Like.refl _ _
    | with_reducible exact NonVolatile.Like.refl _ _
    | with_reducible exact LifeCycle.Like.refl _ _
    | with_reducible exact Contexts.Like.refl _ _
    | with_reducible exact Steps.Like.refl _ _
    | with_reducible exact Mortar.Like.refl _ _
    | with_reducible exact Upkeep.Like.refl _ _
    | (with_reducible apply Mortar.Like.mk)

theorem leaves_setPlain {W : List Part} {s₀ s : State} (hW : [.rw, .counters, .held, .ownerBuffer, .fseq, .late, .out,
    .peers] ⊆ W) (hk : Leaves W s₀ s) (key v : Nat) (o : ObjInfo) : Leaves W s₀ (setPlain key v o s) := by
  refine hk.trans ?_ hW
  unfold setPlain
  try dsimp only
  repeat' first
    | with_reducible assumption
    | with_reducible exact Leaves.refl _ _
    | split
    | with_reducible apply leaves_setRw
    | with_reducible apply leaves_broadcastDiscover
    | with_reducible apply leaves_takeAddress
    | (intro u x hu)
    | with_reducible exact Kept.refl
    | decide
    | (with_reducible apply Leaves.upd)
    | (with_reducible apply Kept.mem)
    | with_reducible exact Boundary.Like.refl _ _
    | with_reducible exact Sensing.Like.refl _ _
    | with_reducible exact Dict.Like.refl _ _
    | with_reducible exact NonVolatile.Like.refl _ _
    | with_reducible exact LifeCycle.Like.refl _ _
    | with_reducible exact Contexts.Like.refl _ _
    | with_reducible exact Steps.Like.refl _ _
    | with_reducible exact Mortar.Like.refl _ _
    | with_reducible exact Upkeep.Like.refl _ _
    | (with_reducible apply Dict.Like.mk)
    | (with_reducible apply LifeCycle.Like.mk)

theorem leaves_writeValue_own {s₀ s : State} (hk : Leaves [.present, .reset, .power, .events, .rw, .applied, .staged,
    .counters, .held, .commit, .store, .transfers, .image, .ownerBuffer, .challenge, .transition, .heads, .lanes,
    .fseq, .slots, .pages, .batches, .budgets, .directory, .cache, .run, .starts, .numbers, .lastStep, .peers, .bond,
    .tree, .late, .snapshot, .hold, .restore, .fence, .tests, .mode, .out, .fresh, .clock, .slow] s₀ s) (key v : Nat)
    (o : ObjInfo) : Leaves [.present, .reset, .power, .events, .rw, .applied, .staged, .counters, .held, .commit,
    .store, .transfers, .image, .ownerBuffer, .challenge, .transition, .heads, .lanes, .fseq, .slots, .pages,
    .batches, .budgets, .directory, .cache, .run, .starts, .numbers, .lastStep, .peers, .bond, .tree, .late,
    .snapshot, .hold, .restore, .fence, .tests, .mode, .out, .fresh, .clock, .slow] s₀ (writeValue key v o s).2 := by
  unfold writeValue
  dsimp only
  split
  · exact hk
  · split
    · split
      · exact hk
      · split
        · exact hk
        · exact leaves_commandEffect (by decide) hk ..
    · split
      · exact hk
      · split
        · split
          · exact hk
          · exact leaves_setStaged (by decide) hk ..
        · exact leaves_setPlain (by decide) hk ..

theorem leaves_writeValue {W : List Part} {s₀ s : State} (hW : [.present, .reset, .power, .events, .rw, .applied,
    .staged, .counters, .held, .commit, .store, .transfers, .image, .ownerBuffer, .challenge, .transition, .heads,
    .lanes, .fseq, .slots, .pages, .batches, .budgets, .directory, .cache, .run, .starts, .numbers, .lastStep, .peers,
    .bond, .tree, .late, .snapshot, .hold, .restore, .fence, .tests, .mode, .out, .fresh, .clock, .slow] ⊆ W) (hk :
    Leaves W s₀ s) (key v : Nat) (o : ObjInfo) : Leaves W s₀ (writeValue key v o s).2 :=
  hk.trans (leaves_writeValue_own (Leaves.refl _ _) key v o) hW

theorem leaves_countResult {W : List Part} {s₀ s : State} (hW : [.counters] ⊆ W) (hk : Leaves W s₀ s) (r : Nat) :
    Leaves W s₀ (countResult r s) := by
  refine hk.trans ?_ hW
  unfold countResult
  try dsimp only
  repeat' first
    | with_reducible assumption
    | with_reducible exact Leaves.refl _ _
    | split
    | with_reducible apply leaves_count
    | with_reducible apply leaves_reject
    | (intro u x hu)
    | with_reducible exact Kept.refl
    | decide
    | (with_reducible apply Leaves.upd)
    | (with_reducible apply Kept.mem)
    | with_reducible exact Boundary.Like.refl _ _
    | with_reducible exact Sensing.Like.refl _ _
    | with_reducible exact Dict.Like.refl _ _
    | with_reducible exact NonVolatile.Like.refl _ _
    | with_reducible exact LifeCycle.Like.refl _ _
    | with_reducible exact Contexts.Like.refl _ _
    | with_reducible exact Steps.Like.refl _ _
    | with_reducible exact Mortar.Like.refl _ _
    | with_reducible exact Upkeep.Like.refl _ _

theorem leaves_refuseAccess {W : List Part} {s₀ s : State} (hW : [.counters] ⊆ W) (hk : Leaves W s₀ s) : Leaves W
    s₀ (refuseAccess s) := by
  refine hk.trans ?_ hW
  unfold refuseAccess
  try dsimp only
  repeat' first
    | with_reducible assumption
    | with_reducible exact Leaves.refl _ _
    | split
    | with_reducible apply leaves_count
    | (intro u x hu)
    | with_reducible exact Kept.refl
    | decide
    | (with_reducible apply Leaves.upd)
    | (with_reducible apply Kept.mem)
    | with_reducible exact Boundary.Like.refl _ _
    | with_reducible exact Sensing.Like.refl _ _
    | with_reducible exact Dict.Like.refl _ _
    | with_reducible exact NonVolatile.Like.refl _ _
    | with_reducible exact LifeCycle.Like.refl _ _
    | with_reducible exact Contexts.Like.refl _ _
    | with_reducible exact Steps.Like.refl _ _
    | with_reducible exact Mortar.Like.refl _ _
    | with_reducible exact Upkeep.Like.refl _ _

theorem leaves_closeTransfer {W : List Part} {s₀ s : State} (hW : [.transfers] ⊆ W) (hk : Leaves W s₀ s) (who :
    Requester) (writing : Bool) : Leaves W s₀ (closeTransfer who writing s) := by
  refine hk.trans ?_ hW
  unfold closeTransfer
  try dsimp only
  repeat' first
    | with_reducible assumption
    | with_reducible exact Leaves.refl _ _
    | split
    | (intro u x hu)
    | with_reducible exact Kept.refl
    | decide
    | (with_reducible apply Leaves.upd)
    | (with_reducible apply Kept.mem)
    | with_reducible exact Boundary.Like.refl _ _
    | with_reducible exact Sensing.Like.refl _ _
    | with_reducible exact Dict.Like.refl _ _
    | with_reducible exact NonVolatile.Like.refl _ _
    | with_reducible exact LifeCycle.Like.refl _ _
    | with_reducible exact Contexts.Like.refl _ _
    | with_reducible exact Steps.Like.refl _ _
    | with_reducible exact Mortar.Like.refl _ _
    | with_reducible exact Upkeep.Like.refl _ _
    | (with_reducible apply Dict.Like.mk)

theorem leaves_keepTransfer {W : List Part} {s₀ s : State} (hW : [.transfers] ⊆ W) (hk : Leaves W s₀ s) (t :
    Transfer) : Leaves W s₀ (keepTransfer t s) := by
  refine hk.trans ?_ hW
  unfold keepTransfer
  try dsimp only
  repeat' first
    | with_reducible assumption
    | with_reducible exact Leaves.refl _ _
    | split
    | with_reducible apply leaves_closeTransfer
    | (intro u x hu)
    | with_reducible exact Kept.refl
    | decide
    | (with_reducible apply Leaves.upd)
    | (with_reducible apply Kept.mem)
    | with_reducible exact Boundary.Like.refl _ _
    | with_reducible exact Sensing.Like.refl _ _
    | with_reducible exact Dict.Like.refl _ _
    | with_reducible exact NonVolatile.Like.refl _ _
    | with_reducible exact LifeCycle.Like.refl _ _
    | with_reducible exact Contexts.Like.refl _ _
    | with_reducible exact Steps.Like.refl _ _
    | with_reducible exact Mortar.Like.refl _ _
    | with_reducible exact Upkeep.Like.refl _ _
    | (with_reducible apply Dict.Like.mk)

theorem leaves_openTransfer_own {s₀ s t : State} (hk : Leaves [.counters, .transfers] s₀ s) {who : Requester}
    {writing : Bool} (h : openTransfer who writing s = some t) : Leaves [.counters, .transfers] s₀ t := by
  unfold openTransfer at h
  split at h
  · exact Option.some.inj h ▸ leaves_count (by decide) (leaves_closeTransfer (by decide) hk ..) ..
  · split at h
    · exact nomatch h
    · exact Option.some.inj h ▸ hk

theorem leaves_openTransfer {W : List Part} {s₀ s t : State} (hW : [.counters, .transfers] ⊆ W) (hk : Leaves W s₀
    s) {who : Requester} {writing : Bool} (h : openTransfer who writing s = some t) : Leaves W s₀ t :=
  hk.trans (leaves_openTransfer_own (Leaves.refl _ _) h) hW

theorem leaves_laneAccess {W : List Part} {s₀ s : State} (hW : [.hsOff, .counters, .heads, .lanes, .cache] ⊆ W) (hk
    : Leaves W s₀ s) (key : Nat) : Leaves W s₀ (laneAccess key s) := by
  refine hk.trans ?_ hW
  unfold laneAccess
  try dsimp only
  repeat' first
    | with_reducible assumption
    | with_reducible exact Leaves.refl _ _
    | split
    | with_reducible apply leaves_loseLanes
    | with_reducible apply leaves_count
    | (intro u x hu)
    | with_reducible exact Kept.refl
    | decide
    | (with_reducible apply Leaves.upd)
    | (with_reducible apply Kept.mem)
    | with_reducible exact Boundary.Like.refl _ _
    | with_reducible exact Sensing.Like.refl _ _
    | with_reducible exact Dict.Like.refl _ _
    | with_reducible exact NonVolatile.Like.refl _ _
    | with_reducible exact LifeCycle.Like.refl _ _
    | with_reducible exact Contexts.Like.refl _ _
    | with_reducible exact Steps.Like.refl _ _
    | with_reducible exact Mortar.Like.refl _ _
    | with_reducible exact Upkeep.Like.refl _ _

theorem leaves_runRead_own {s₀ s : State} (hk : Leaves [.hsOff, .counters, .heads, .lanes, .cache] s₀ s) (q :
    Request) (o : ObjInfo) (isOpen : Bool) : Leaves [.hsOff, .counters, .heads, .lanes, .cache] s₀ (runRead q o
    isOpen s).state := by
  unfold runRead
  split
  · exact leaves_refuseAccess (by decide) hk
  · split
    · exact hk
    · exact leaves_laneAccess (by decide) hk _

theorem leaves_runRead {W : List Part} {s₀ s : State} (hW : [.hsOff, .counters, .heads, .lanes, .cache] ⊆ W) (hk :
    Leaves W s₀ s) (q : Request) (o : ObjInfo) (isOpen : Bool) : Leaves W s₀ (runRead q o isOpen s).state :=
  hk.trans (leaves_runRead_own (Leaves.refl _ _) q o isOpen) hW

theorem leaves_runWrite_own {s₀ s : State} (hk : Leaves [.present, .reset, .power, .hsOff, .events, .rw, .applied,
    .staged, .counters, .held, .commit, .store, .transfers, .image, .ownerBuffer, .challenge, .transition, .heads,
    .lanes, .fseq, .slots, .pages, .batches, .budgets, .directory, .cache, .run, .starts, .numbers, .lastStep, .peers,
    .bond, .tree, .late, .snapshot, .hold, .restore, .fence, .tests, .mode, .out, .fresh, .clock, .slow] s₀ s) (q :
    Request) (o : ObjInfo) (isOpen : Bool) : Leaves [.present, .reset, .power, .hsOff, .events, .rw, .applied,
    .staged, .counters, .held, .commit, .store, .transfers, .image, .ownerBuffer, .challenge, .transition, .heads,
    .lanes, .fseq, .slots, .pages, .batches, .budgets, .directory, .cache, .run, .starts, .numbers, .lastStep, .peers,
    .bond, .tree, .late, .snapshot, .hold, .restore, .fence, .tests, .mode, .out, .fresh, .clock, .slow] s₀ (runWrite
    q o isOpen s).state := by
  unfold runWrite
  split
  · exact leaves_refuseAccess (by decide) hk
  · split
    · exact hk
    · exact leaves_writeValue (by decide) (leaves_laneAccess (by decide) hk _) ..

theorem leaves_runWrite {W : List Part} {s₀ s : State} (hW : [.present, .reset, .power, .hsOff, .events, .rw,
    .applied, .staged, .counters, .held, .commit, .store, .transfers, .image, .ownerBuffer, .challenge, .transition,
    .heads, .lanes, .fseq, .slots, .pages, .batches, .budgets, .directory, .cache, .run, .starts, .numbers, .lastStep,
    .peers, .bond, .tree, .late, .snapshot, .hold, .restore, .fence, .tests, .mode, .out, .fresh, .clock, .slow] ⊆ W)
    (hk : Leaves W s₀ s) (q : Request) (o : ObjInfo) (isOpen : Bool) : Leaves W s₀ (runWrite q o isOpen s).state :=
  hk.trans (leaves_runWrite_own (Leaves.refl _ _) q o isOpen) hW

theorem leaves_readSegment_own {s₀ s : State} (hk : Leaves [.transfers] s₀ s) (q : Request) (o : ObjInfo) (t :
    Transfer) : Leaves [.transfers] s₀ (readSegment q o t s).state := by
  unfold readSegment
  exact leaves_ite (leaves_closeTransfer (by decide) hk ..) (leaves_keepTransfer (by decide) hk ..)

theorem leaves_readSegment {W : List Part} {s₀ s : State} (hW : [.transfers] ⊆ W) (hk : Leaves W s₀ s) (q :
    Request) (o : ObjInfo) (t : Transfer) : Leaves W s₀ (readSegment q o t s).state :=
  hk.trans (leaves_readSegment_own (Leaves.refl _ _) q o t) hW

theorem leaves_runReadBlock_own {s₀ s : State} (hk : Leaves [.counters, .transfers] s₀ s) (who : Requester) (q :
    Request) (o : ObjInfo) (isOpen : Bool) : Leaves [.counters, .transfers] s₀ (runReadBlock who q o isOpen s).state := by
  unfold runReadBlock
  split
  · exact leaves_refuseAccess (by decide) hk
  · split
    · exact hk
    · split
      · split
        · exact hk
        · rename_i h
          exact leaves_readSegment (by decide) (leaves_openTransfer (by decide) hk h) ..
      · split
        · split
          · exact leaves_readSegment (by decide) hk ..
          · exact leaves_closeTransfer (by decide) hk ..
        · exact hk

theorem leaves_runReadBlock {W : List Part} {s₀ s : State} (hW : [.counters, .transfers] ⊆ W) (hk : Leaves W s₀ s)
    (who : Requester) (q : Request) (o : ObjInfo) (isOpen : Bool) : Leaves W s₀ (runReadBlock who q o isOpen s).state :=
  hk.trans (leaves_runReadBlock_own (Leaves.refl _ _) who q o isOpen) hW

theorem leaves_writeSegment_own {s₀ s : State} (hk : Leaves [.present, .reset, .power, .events, .rw, .applied,
    .staged, .counters, .held, .commit, .store, .transfers, .image, .ownerBuffer, .challenge, .transition, .heads,
    .lanes, .fseq, .slots, .pages, .batches, .budgets, .directory, .cache, .run, .starts, .numbers, .lastStep, .peers,
    .bond, .tree, .late, .snapshot, .hold, .restore, .fence, .tests, .mode, .out, .fresh, .clock, .slow] s₀ s) (q :
    Request) (o : ObjInfo) (isOpen : Bool) (t : Transfer) : Leaves [.present, .reset, .power, .events, .rw, .applied,
    .staged, .counters, .held, .commit, .store, .transfers, .image, .ownerBuffer, .challenge, .transition, .heads,
    .lanes, .fseq, .slots, .pages, .batches, .budgets, .directory, .cache, .run, .starts, .numbers, .lastStep, .peers,
    .bond, .tree, .late, .snapshot, .hold, .restore, .fence, .tests, .mode, .out, .fresh, .clock, .slow] s₀
    (writeSegment q o isOpen t s).state := by
  unfold writeSegment
  dsimp only
  split
  · exact leaves_closeTransfer (by decide) hk ..
  · split
    · exact leaves_keepTransfer (by decide) hk ..
    · split
      · exact leaves_refuseAccess (by decide) (leaves_closeTransfer (by decide) hk ..)
      · exact leaves_writeValue (by decide) (leaves_closeTransfer (by decide) hk ..) ..

theorem leaves_writeSegment {W : List Part} {s₀ s : State} (hW : [.present, .reset, .power, .events, .rw, .applied,
    .staged, .counters, .held, .commit, .store, .transfers, .image, .ownerBuffer, .challenge, .transition, .heads,
    .lanes, .fseq, .slots, .pages, .batches, .budgets, .directory, .cache, .run, .starts, .numbers, .lastStep, .peers,
    .bond, .tree, .late, .snapshot, .hold, .restore, .fence, .tests, .mode, .out, .fresh, .clock, .slow] ⊆ W) (hk :
    Leaves W s₀ s) (q : Request) (o : ObjInfo) (isOpen : Bool) (t : Transfer) : Leaves W s₀ (writeSegment q o isOpen t
    s).state :=
  hk.trans (leaves_writeSegment_own (Leaves.refl _ _) q o isOpen t) hW

theorem leaves_runWriteBlock_own {s₀ s : State} (hk : Leaves [.present, .reset, .power, .events, .rw, .applied,
    .staged, .counters, .held, .commit, .store, .transfers, .image, .ownerBuffer, .challenge, .transition, .heads,
    .lanes, .fseq, .slots, .pages, .batches, .budgets, .directory, .cache, .run, .starts, .numbers, .lastStep, .peers,
    .bond, .tree, .late, .snapshot, .hold, .restore, .fence, .tests, .mode, .out, .fresh, .clock, .slow] s₀ s) (who :
    Requester) (q : Request) (o : ObjInfo) (isOpen : Bool) : Leaves [.present, .reset, .power, .events, .rw, .applied,
    .staged, .counters, .held, .commit, .store, .transfers, .image, .ownerBuffer, .challenge, .transition, .heads,
    .lanes, .fseq, .slots, .pages, .batches, .budgets, .directory, .cache, .run, .starts, .numbers, .lastStep, .peers,
    .bond, .tree, .late, .snapshot, .hold, .restore, .fence, .tests, .mode, .out, .fresh, .clock, .slow] s₀
    (runWriteBlock who q o isOpen s).state := by
  unfold runWriteBlock
  split
  · exact hk
  · split
    · split
      · exact hk
      · rename_i h
        exact leaves_writeSegment (by decide) (leaves_openTransfer (by decide) hk h) ..
    · split
      · split
        · exact leaves_writeSegment (by decide) hk ..
        · exact leaves_closeTransfer (by decide) hk ..
      · exact hk

theorem leaves_runWriteBlock {W : List Part} {s₀ s : State} (hW : [.present, .reset, .power, .events, .rw, .applied,
    .staged, .counters, .held, .commit, .store, .transfers, .image, .ownerBuffer, .challenge, .transition, .heads,
    .lanes, .fseq, .slots, .pages, .batches, .budgets, .directory, .cache, .run, .starts, .numbers, .lastStep, .peers,
    .bond, .tree, .late, .snapshot, .hold, .restore, .fence, .tests, .mode, .out, .fresh, .clock, .slow] ⊆ W) (hk :
    Leaves W s₀ s) (who : Requester) (q : Request) (o : ObjInfo) (isOpen : Bool) : Leaves W s₀ (runWriteBlock who q o
    isOpen s).state :=
  hk.trans (leaves_runWriteBlock_own (Leaves.refl _ _) who q o isOpen) hW

theorem leaves_runAbort {W : List Part} {s₀ s : State} (hW : [.transfers] ⊆ W) (hk : Leaves W s₀ s) (who :
    Requester) (q : Request) : Leaves W s₀ (runAbort who q s).state := by
  refine hk.trans ?_ hW
  unfold runAbort
  try dsimp only
  repeat' first
    | with_reducible assumption
    | with_reducible exact Leaves.refl _ _
    | split
    | (intro u x hu)
    | with_reducible exact Kept.refl
    | decide
    | (with_reducible apply Leaves.upd)
    | (with_reducible apply Kept.mem)
    | with_reducible exact Boundary.Like.refl _ _
    | with_reducible exact Sensing.Like.refl _ _
    | with_reducible exact Dict.Like.refl _ _
    | with_reducible exact NonVolatile.Like.refl _ _
    | with_reducible exact LifeCycle.Like.refl _ _
    | with_reducible exact Contexts.Like.refl _ _
    | with_reducible exact Steps.Like.refl _ _
    | with_reducible exact Mortar.Like.refl _ _
    | with_reducible exact Upkeep.Like.refl _ _
    | (with_reducible apply Dict.Like.mk)

theorem leaves_runObject_own {s₀ s : State} (hk : Leaves [.present, .reset, .power, .hsOff, .events, .rw, .applied,
    .staged, .counters, .held, .commit, .store, .transfers, .image, .ownerBuffer, .challenge, .transition, .heads,
    .lanes, .fseq, .slots, .pages, .batches, .budgets, .directory, .cache, .run, .starts, .numbers, .lastStep, .peers,
    .bond, .tree, .late, .snapshot, .hold, .restore, .fence, .tests, .mode, .out, .fresh, .clock, .slow] s₀ s) (who :
    Requester) (q : Request) (o : ObjInfo) (isOpen : Bool) : Leaves [.present, .reset, .power, .hsOff, .events, .rw,
    .applied, .staged, .counters, .held, .commit, .store, .transfers, .image, .ownerBuffer, .challenge, .transition,
    .heads, .lanes, .fseq, .slots, .pages, .batches, .budgets, .directory, .cache, .run, .starts, .numbers, .lastStep,
    .peers, .bond, .tree, .late, .snapshot, .hold, .restore, .fence, .tests, .mode, .out, .fresh, .clock, .slow] s₀
    (runObject who q o isOpen s).state := by
  unfold runObject
  split
  · exact leaves_runRead (by decide) hk ..
  · exact leaves_runWrite (by decide) hk ..
  · exact leaves_runReadBlock (by decide) hk ..
  · exact leaves_runWriteBlock (by decide) hk ..
  · exact leaves_runAbort (by decide) hk ..

theorem leaves_runObject {W : List Part} {s₀ s : State} (hW : [.present, .reset, .power, .hsOff, .events, .rw,
    .applied, .staged, .counters, .held, .commit, .store, .transfers, .image, .ownerBuffer, .challenge, .transition,
    .heads, .lanes, .fseq, .slots, .pages, .batches, .budgets, .directory, .cache, .run, .starts, .numbers, .lastStep,
    .peers, .bond, .tree, .late, .snapshot, .hold, .restore, .fence, .tests, .mode, .out, .fresh, .clock, .slow] ⊆ W)
    (hk : Leaves W s₀ s) (who : Requester) (q : Request) (o : ObjInfo) (isOpen : Bool) : Leaves W s₀ (runObject who q
    o isOpen s).state :=
  hk.trans (leaves_runObject_own (Leaves.refl _ _) who q o isOpen) hW

theorem leaves_runOn_own {s₀ s : State} (hk : Leaves [.present, .reset, .power, .hsOff, .events, .rw, .applied,
    .staged, .counters, .held, .commit, .store, .transfers, .image, .ownerBuffer, .challenge, .transition, .heads,
    .lanes, .fseq, .slots, .pages, .batches, .budgets, .directory, .cache, .run, .starts, .numbers, .lastStep, .peers,
    .bond, .tree, .late, .snapshot, .hold, .restore, .fence, .tests, .mode, .out, .fresh, .clock, .slow] s₀ s) (a :
    Asker) (who : Requester) (m : Bytes) (q : Request) (o : ObjInfo) : Leaves [.present, .reset, .power, .hsOff,
    .events, .rw, .applied, .staged, .counters, .held, .commit, .store, .transfers, .image, .ownerBuffer, .challenge,
    .transition, .heads, .lanes, .fseq, .slots, .pages, .batches, .budgets, .directory, .cache, .run, .starts,
    .numbers, .lastStep, .peers, .bond, .tree, .late, .snapshot, .hold, .restore, .fence, .tests, .mode, .out, .fresh,
    .clock, .slow] s₀ (runOn a who m q o s).2 := by
  unfold runOn
  dsimp only
  split
  · split
    · exact leaves_countResult (by decide) hk 7
    · exact leaves_refuseAccess (by decide) hk
  · split
    · exact hk
    · exact leaves_countResult (by decide) (leaves_runObject (by decide) hk ..) _

theorem leaves_runOn {W : List Part} {s₀ s : State} (hW : [.present, .reset, .power, .hsOff, .events, .rw, .applied,
    .staged, .counters, .held, .commit, .store, .transfers, .image, .ownerBuffer, .challenge, .transition, .heads,
    .lanes, .fseq, .slots, .pages, .batches, .budgets, .directory, .cache, .run, .starts, .numbers, .lastStep, .peers,
    .bond, .tree, .late, .snapshot, .hold, .restore, .fence, .tests, .mode, .out, .fresh, .clock, .slow] ⊆ W) (hk :
    Leaves W s₀ s) (a : Asker) (who : Requester) (m : Bytes) (q : Request) (o : ObjInfo) : Leaves W s₀ (runOn a who m
    q o s).2 :=
  hk.trans (leaves_runOn_own (Leaves.refl _ _) a who m q o) hW

theorem leaves_runMessage_own {s₀ s : State} (hk : Leaves [.present, .reset, .power, .hsOff, .events, .rw, .applied,
    .staged, .counters, .held, .commit, .store, .transfers, .image, .ownerBuffer, .challenge, .transition, .heads,
    .lanes, .fseq, .slots, .pages, .batches, .budgets, .directory, .cache, .run, .starts, .numbers, .lastStep, .peers,
    .bond, .tree, .late, .snapshot, .hold, .restore, .fence, .tests, .mode, .out, .fresh, .clock, .slow] s₀ s) (a :
    Asker) (who : Requester) (m : Bytes) : Leaves [.present, .reset, .power, .hsOff, .events, .rw, .applied, .staged,
    .counters, .held, .commit, .store, .transfers, .image, .ownerBuffer, .challenge, .transition, .heads, .lanes,
    .fseq, .slots, .pages, .batches, .budgets, .directory, .cache, .run, .starts, .numbers, .lastStep, .peers, .bond,
    .tree, .late, .snapshot, .hold, .restore, .fence, .tests, .mode, .out, .fresh, .clock, .slow] s₀ (runMessage a who
    m s).2 := by
  unfold runMessage
  dsimp only
  split
  · exact leaves_countResult (by decide) hk 7
  · split
    · exact leaves_countResult (by decide) hk 1
    · exact leaves_runOn (by decide) hk ..

theorem leaves_runMessage {W : List Part} {s₀ s : State} (hW : [.present, .reset, .power, .hsOff, .events, .rw,
    .applied, .staged, .counters, .held, .commit, .store, .transfers, .image, .ownerBuffer, .challenge, .transition,
    .heads, .lanes, .fseq, .slots, .pages, .batches, .budgets, .directory, .cache, .run, .starts, .numbers, .lastStep,
    .peers, .bond, .tree, .late, .snapshot, .hold, .restore, .fence, .tests, .mode, .out, .fresh, .clock, .slow] ⊆ W)
    (hk : Leaves W s₀ s) (a : Asker) (who : Requester) (m : Bytes) : Leaves W s₀ (runMessage a who m s).2 :=
  hk.trans (leaves_runMessage_own (Leaves.refl _ _) a who m) hW

theorem leaves_dropUnassigned {W : List Part} {s₀ s : State} (hW : [.events, .counters] ⊆ W) (hk : Leaves W s₀ s) :
    Leaves W s₀ (dropUnassigned s) := by
  refine hk.trans ?_ hW
  unfold dropUnassigned
  try dsimp only
  repeat' first
    | with_reducible assumption
    | with_reducible exact Leaves.refl _ _
    | split
    | with_reducible apply leaves_raiseCount
    | (intro u x hu)
    | with_reducible exact Kept.refl
    | decide
    | (with_reducible apply Leaves.upd)
    | (with_reducible apply Kept.mem)
    | with_reducible exact Boundary.Like.refl _ _
    | with_reducible exact Sensing.Like.refl _ _
    | with_reducible exact Dict.Like.refl _ _
    | with_reducible exact NonVolatile.Like.refl _ _
    | with_reducible exact LifeCycle.Like.refl _ _
    | with_reducible exact Contexts.Like.refl _ _
    | with_reducible exact Steps.Like.refl _ _
    | with_reducible exact Mortar.Like.refl _ _
    | with_reducible exact Upkeep.Like.refl _ _

theorem leaves_meshRequest_own {s₀ s : State} (hk : Leaves [.present, .reset, .power, .hsOff, .events, .rw, .applied,
    .staged, .counters, .held, .commit, .store, .transfers, .image, .ownerBuffer, .challenge, .transition, .heads,
    .lanes, .fseq, .slots, .pages, .batches, .budgets, .directory, .cache, .run, .starts, .numbers, .lastStep, .peers,
    .bond, .tree, .late, .snapshot, .hold, .restore, .fence, .tests, .mode, .out, .fresh, .clock, .slow] s₀ s) (eid :
    Byte) (m : Bytes) : Leaves [.present, .reset, .power, .hsOff, .events, .rw, .applied, .staged, .counters, .held,
    .commit, .store, .transfers, .image, .ownerBuffer, .challenge, .transition, .heads, .lanes, .fseq, .slots, .pages,
    .batches, .budgets, .directory, .cache, .run, .starts, .numbers, .lastStep, .peers, .bond, .tree, .late,
    .snapshot, .hold, .restore, .fence, .tests, .mode, .out, .fresh, .clock, .slow] s₀ (meshRequest eid m s) := by
  unfold meshRequest
  split
  · exact hk
  · split
    · exact leaves_dropUnassigned (by decide) hk
    · split
      · exact leaves_count (by decide) hk ..
      · have h := leaves_runMessage (by decide) hk (s.asker eid) (.endpoint eid) m
        generalize runMessage (s.asker eid) (.endpoint eid) m s = r at h
        obtain ⟨_ | b, t⟩ := r
        · exact h
        · exact leaves_sendMesh (by decide) h ..

theorem leaves_meshRequest {W : List Part} {s₀ s : State} (hW : [.present, .reset, .power, .hsOff, .events, .rw,
    .applied, .staged, .counters, .held, .commit, .store, .transfers, .image, .ownerBuffer, .challenge, .transition,
    .heads, .lanes, .fseq, .slots, .pages, .batches, .budgets, .directory, .cache, .run, .starts, .numbers, .lastStep,
    .peers, .bond, .tree, .late, .snapshot, .hold, .restore, .fence, .tests, .mode, .out, .fresh, .clock, .slow] ⊆ W)
    (hk : Leaves W s₀ s) (eid : Byte) (m : Bytes) : Leaves W s₀ (meshRequest eid m s) :=
  hk.trans (leaves_meshRequest_own (Leaves.refl _ _) eid m) hW

theorem leaves_setEndpoint {W : List Part} {s₀ s : State} (hW : [.endpoint, .out] ⊆ W) (hk : Leaves W s₀ s) (eid :
    Byte) : Leaves W s₀ (setEndpoint eid s) := by
  refine hk.trans ?_ hW
  unfold setEndpoint
  try dsimp only
  repeat' first
    | with_reducible assumption
    | with_reducible exact Leaves.refl _ _
    | split
    | with_reducible apply leaves_sendMesh
    | (intro u x hu)
    | with_reducible exact Kept.refl
    | decide
    | (with_reducible apply Leaves.upd)
    | (with_reducible apply Kept.mem)
    | with_reducible exact Boundary.Like.refl _ _
    | with_reducible exact Sensing.Like.refl _ _
    | with_reducible exact Dict.Like.refl _ _
    | with_reducible exact NonVolatile.Like.refl _ _
    | with_reducible exact LifeCycle.Like.refl _ _
    | with_reducible exact Contexts.Like.refl _ _
    | with_reducible exact Steps.Like.refl _ _
    | with_reducible exact Mortar.Like.refl _ _
    | with_reducible exact Upkeep.Like.refl _ _
    | (with_reducible apply Dict.Like.mk)

theorem leaves_getEndpoint {W : List Part} {s₀ s : State} (hW : [.out] ⊆ W) (hk : Leaves W s₀ s) (src : Byte) :
    Leaves W s₀ (getEndpoint src s) := by
  refine hk.trans ?_ hW
  unfold getEndpoint
  try dsimp only
  repeat' first
    | with_reducible assumption
    | with_reducible exact Leaves.refl _ _
    | split
    | with_reducible apply leaves_sendMesh
    | (intro u x hu)
    | with_reducible exact Kept.refl
    | decide
    | (with_reducible apply Leaves.upd)
    | (with_reducible apply Kept.mem)
    | with_reducible exact Boundary.Like.refl _ _
    | with_reducible exact Sensing.Like.refl _ _
    | with_reducible exact Dict.Like.refl _ _
    | with_reducible exact NonVolatile.Like.refl _ _
    | with_reducible exact LifeCycle.Like.refl _ _
    | with_reducible exact Contexts.Like.refl _ _
    | with_reducible exact Steps.Like.refl _ _
    | with_reducible exact Mortar.Like.refl _ _
    | with_reducible exact Upkeep.Like.refl _ _

theorem leaves_getVersions {W : List Part} {s₀ s : State} (hW : [.events, .counters, .out] ⊆ W) (hk : Leaves W s₀
    s) (src msgType : Byte) : Leaves W s₀ (getVersions src msgType s) := by
  refine hk.trans ?_ hW
  unfold getVersions
  try dsimp only
  repeat' first
    | with_reducible assumption
    | with_reducible exact Leaves.refl _ _
    | split
    | with_reducible apply leaves_dropUnassigned
    | with_reducible apply leaves_sendMesh
    | (intro u x hu)
    | with_reducible exact Kept.refl
    | decide
    | (with_reducible apply Leaves.upd)
    | (with_reducible apply Kept.mem)
    | with_reducible exact Boundary.Like.refl _ _
    | with_reducible exact Sensing.Like.refl _ _
    | with_reducible exact Dict.Like.refl _ _
    | with_reducible exact NonVolatile.Like.refl _ _
    | with_reducible exact LifeCycle.Like.refl _ _
    | with_reducible exact Contexts.Like.refl _ _
    | with_reducible exact Steps.Like.refl _ _
    | with_reducible exact Mortar.Like.refl _ _
    | with_reducible exact Upkeep.Like.refl _ _

theorem leaves_getTypes {W : List Part} {s₀ s : State} (hW : [.events, .counters, .out] ⊆ W) (hk : Leaves W s₀ s)
    (src : Byte) : Leaves W s₀ (getTypes src s) := by
  refine hk.trans ?_ hW
  unfold getTypes
  try dsimp only
  repeat' first
    | with_reducible assumption
    | with_reducible exact Leaves.refl _ _
    | split
    | with_reducible apply leaves_dropUnassigned
    | with_reducible apply leaves_sendMesh
    | (intro u x hu)
    | with_reducible exact Kept.refl
    | decide
    | (with_reducible apply Leaves.upd)
    | (with_reducible apply Kept.mem)
    | with_reducible exact Boundary.Like.refl _ _
    | with_reducible exact Sensing.Like.refl _ _
    | with_reducible exact Dict.Like.refl _ _
    | with_reducible exact NonVolatile.Like.refl _ _
    | with_reducible exact LifeCycle.Like.refl _ _
    | with_reducible exact Contexts.Like.refl _ _
    | with_reducible exact Steps.Like.refl _ _
    | with_reducible exact Mortar.Like.refl _ _
    | with_reducible exact Upkeep.Like.refl _ _

theorem leaves_setLast {W : List Part} {s₀ s : State} (hW : [.counters, .mirror] ⊆ W) (hk : Leaves W s₀ s) (r :
    Nat) : Leaves W s₀ (setLast r s) := by
  refine hk.trans ?_ hW
  unfold setLast
  try dsimp only
  repeat' first
    | with_reducible assumption
    | with_reducible exact Leaves.refl _ _
    | split
    | with_reducible apply leaves_countResult
    | (intro u x hu)
    | with_reducible exact Kept.refl
    | decide
    | (with_reducible apply Leaves.upd)
    | (with_reducible apply Kept.mem)
    | with_reducible exact Boundary.Like.refl _ _
    | with_reducible exact Sensing.Like.refl _ _
    | with_reducible exact Dict.Like.refl _ _
    | with_reducible exact NonVolatile.Like.refl _ _
    | with_reducible exact LifeCycle.Like.refl _ _
    | with_reducible exact Contexts.Like.refl _ _
    | with_reducible exact Steps.Like.refl _ _
    | with_reducible exact Mortar.Like.refl _ _
    | with_reducible exact Upkeep.Like.refl _ _

theorem leaves_dropHalves {W : List Part} {s₀ s : State} (hW : [.mirror] ⊆ W) (hk : Leaves W s₀ s) : Leaves W s₀
    (dropHalves s) := by
  refine hk.trans ?_ hW
  unfold dropHalves
  try dsimp only
  repeat' first
    | with_reducible assumption
    | with_reducible exact Leaves.refl _ _
    | split
    | (intro u x hu)
    | with_reducible exact Kept.refl
    | decide
    | (with_reducible apply Leaves.upd)
    | (with_reducible apply Kept.mem)
    | with_reducible exact Boundary.Like.refl _ _
    | with_reducible exact Sensing.Like.refl _ _
    | with_reducible exact Dict.Like.refl _ _
    | with_reducible exact NonVolatile.Like.refl _ _
    | with_reducible exact LifeCycle.Like.refl _ _
    | with_reducible exact Contexts.Like.refl _ _
    | with_reducible exact Steps.Like.refl _ _
    | with_reducible exact Mortar.Like.refl _ _
    | with_reducible exact Upkeep.Like.refl _ _

theorem leaves_directWrite_own {s₀ s : State} (hk : Leaves [.present, .reset, .power, .hsOff, .events, .rw, .applied,
    .staged, .counters, .held, .commit, .store, .transfers, .mirror, .image, .ownerBuffer, .challenge, .transition,
    .heads, .lanes, .fseq, .slots, .pages, .batches, .budgets, .directory, .cache, .run, .starts, .numbers, .lastStep,
    .peers, .bond, .tree, .late, .snapshot, .hold, .restore, .fence, .tests, .mode, .out, .fresh, .clock, .slow] s₀ s)
    (key v : Nat) (o : ObjInfo) : Leaves [.present, .reset, .power, .hsOff, .events, .rw, .applied, .staged,
    .counters, .held, .commit, .store, .transfers, .mirror, .image, .ownerBuffer, .challenge, .transition, .heads,
    .lanes, .fseq, .slots, .pages, .batches, .budgets, .directory, .cache, .run, .starts, .numbers, .lastStep, .peers,
    .bond, .tree, .late, .snapshot, .hold, .restore, .fence, .tests, .mode, .out, .fresh, .clock, .slow] s₀
    (directWrite key v o s) := by
  unfold directWrite
  split
  · exact leaves_setLast (by decide) (leaves_refuseAccess (by decide) hk) _
  · split
    · exact leaves_setLast (by decide) hk _
    · split
      · exact leaves_setLast (by decide) hk _
      · exact leaves_setLast (by decide) (leaves_writeValue (by decide) (leaves_laneAccess (by decide) hk _) ..) _

theorem leaves_directWrite {W : List Part} {s₀ s : State} (hW : [.present, .reset, .power, .hsOff, .events, .rw,
    .applied, .staged, .counters, .held, .commit, .store, .transfers, .mirror, .image, .ownerBuffer, .challenge,
    .transition, .heads, .lanes, .fseq, .slots, .pages, .batches, .budgets, .directory, .cache, .run, .starts,
    .numbers, .lastStep, .peers, .bond, .tree, .late, .snapshot, .hold, .restore, .fence, .tests, .mode, .out, .fresh,
    .clock, .slow] ⊆ W) (hk : Leaves W s₀ s) (key v : Nat) (o : ObjInfo) : Leaves W s₀ (directWrite key v o s) :=
  hk.trans (leaves_directWrite_own (Leaves.refl _ _) key v o) hW

theorem leaves_windowWrite {W : List Part} {s₀ s : State} (hW : [.present, .reset, .power, .hsOff, .events, .rw,
    .applied, .staged, .counters, .held, .commit, .store, .transfers, .mirror, .image, .ownerBuffer, .challenge,
    .transition, .heads, .lanes, .fseq, .slots, .pages, .batches, .budgets, .directory, .cache, .run, .starts,
    .numbers, .lastStep, .peers, .bond, .tree, .late, .snapshot, .hold, .restore, .fence, .tests, .mode, .out, .fresh,
    .clock, .slow] ⊆ W) (hk : Leaves W s₀ s) (offset word : Nat) (low : Option (Nat × Nat)) : Leaves W s₀ (windowWrite
    offset word low s) := by
  refine hk.trans ?_ hW
  unfold windowWrite
  try dsimp only
  repeat' first
    | with_reducible assumption
    | with_reducible exact Leaves.refl _ _
    | split
    | with_reducible apply leaves_setLast
    | with_reducible apply leaves_directWrite
    | with_reducible apply leaves_refuseAccess
    | (intro u x hu)
    | with_reducible exact Kept.refl
    | decide
    | (with_reducible apply Leaves.upd)
    | (with_reducible apply Kept.mem)
    | with_reducible exact Boundary.Like.refl _ _
    | with_reducible exact Sensing.Like.refl _ _
    | with_reducible exact Dict.Like.refl _ _
    | with_reducible exact NonVolatile.Like.refl _ _
    | with_reducible exact LifeCycle.Like.refl _ _
    | with_reducible exact Contexts.Like.refl _ _
    | with_reducible exact Steps.Like.refl _ _
    | with_reducible exact Mortar.Like.refl _ _
    | with_reducible exact Upkeep.Like.refl _ _

theorem leaves_windowValue_own {s₀ s : State} (hk : Leaves [.hsOff, .counters, .mirror, .heads, .lanes, .cache,
    .out] s₀ s) (key : Nat) (upper : Bool) (offset : Nat) (o : ObjInfo) : Leaves [.hsOff, .counters, .mirror,
    .heads, .lanes, .cache, .out] s₀ (windowRead.windowValue key upper offset o s) := by
  unfold windowRead.windowValue
  dsimp only
  split
  · exact leaves_mirrorData (by decide) (leaves_setLast (by decide) (leaves_refuseAccess (by decide) hk) _) _
  · split
    · exact leaves_mirrorData (by decide) (leaves_setLast (by decide) hk _) _
    · have h := leaves_setLast (by decide) (leaves_laneAccess (by decide) hk key) 0
      split
      · exact leaves_mirrorData (by decide) h _
      · split
        · apply leaves_mirrorData (by decide)
          refine Leaves.setMirror (by decide) _ ?_
          exact h
        · exact leaves_mirrorData (by decide) h _

theorem leaves_windowValue {W : List Part} {s₀ s : State} (hW : [.hsOff, .counters, .mirror, .heads, .lanes,
    .cache, .out] ⊆ W) (hk : Leaves W s₀ s) (key : Nat) (upper : Bool) (offset : Nat) (o : ObjInfo) : Leaves W s₀
    (windowRead.windowValue key upper offset o s) :=
  hk.trans (leaves_windowValue_own (Leaves.refl _ _) key upper offset o) hW

theorem leaves_windowRead_own {s₀ s : State} (hk : Leaves [.hsOff, .counters, .mirror, .heads, .lanes, .cache,
    .out] s₀ s) (offset : Nat) (high : Option (Nat × Nat)) : Leaves [.hsOff, .counters, .mirror, .heads, .lanes,
    .cache, .out] s₀ (windowRead offset high s) := by
  unfold windowRead
  dsimp only
  split
  · exact leaves_mirrorData (by decide) (leaves_setLast (by decide) hk _) _
  · split
    · exact leaves_mirrorData (by decide) hk _
    · split
      · split
        · exact leaves_mirrorData (by decide) hk _
        · exact leaves_windowValue (by decide) hk ..
      · exact leaves_windowValue (by decide) hk ..

theorem leaves_windowRead {W : List Part} {s₀ s : State} (hW : [.hsOff, .counters, .mirror, .heads, .lanes, .cache,
    .out] ⊆ W) (hk : Leaves W s₀ s) (offset : Nat) (high : Option (Nat × Nat)) : Leaves W s₀ (windowRead offset
    high s) :=
  hk.trans (leaves_windowRead_own (Leaves.refl _ _) offset high) hW

theorem leaves_goMailbox_own {s₀ s : State} (hk : Leaves [.present, .reset, .power, .hsOff, .events, .rw, .applied,
    .staged, .counters, .held, .commit, .store, .transfers, .mirror, .image, .ownerBuffer, .challenge, .transition,
    .heads, .lanes, .fseq, .slots, .pages, .batches, .budgets, .directory, .cache, .run, .starts, .numbers, .lastStep,
    .peers, .bond, .tree, .late, .snapshot, .hold, .restore, .fence, .tests, .mode, .out, .fresh, .clock, .slow] s₀ s)
    (word : Nat) : Leaves [.present, .reset, .power, .hsOff, .events, .rw, .applied, .staged, .counters, .held,
    .commit, .store, .transfers, .mirror, .image, .ownerBuffer, .challenge, .transition, .heads, .lanes, .fseq,
    .slots, .pages, .batches, .budgets, .directory, .cache, .run, .starts, .numbers, .lastStep, .peers, .bond, .tree,
    .late, .snapshot, .hold, .restore, .fence, .tests, .mode, .out, .fresh, .clock, .slow] s₀ (goMailbox word s) := by
  unfold goMailbox
  split
  · exact hk
  · split
    · refine Leaves.setMirror (by decide) _ ?_
      exact hk
    · dsimp only
      have h : Leaves [.present, .reset, .power, .hsOff, .events, .rw, .applied, .staged, .counters, .held, .commit, .store, .transfers, .mirror, .image, .ownerBuffer, .challenge, .transition, .heads, .lanes, .fseq, .slots, .pages, .batches, .budgets, .directory, .cache, .run, .starts, .numbers, .lastStep, .peers, .bond, .tree, .late, .snapshot, .hold, .restore, .fence, .tests, .mode, .out, .fresh, .clock, .slow] s₀ (if messageOurs (padTo s.mirror.requestLength s.mirror.request) then
          runMessage .operator .mailbox (padTo s.mirror.requestLength s.mirror.request) s
          else (none, count 0x700003 1 s)).2 := by
        split
        · exact leaves_runMessage (by decide) hk ..
        · exact leaves_count (by decide) hk 0x700003 1
      generalize (if messageOurs (padTo s.mirror.requestLength s.mirror.request) then
          runMessage .operator .mailbox (padTo s.mirror.requestLength s.mirror.request) s
          else (none, count 0x700003 1 s)) = r at h ⊢
      obtain ⟨_ | b, t⟩ := r
      all_goals
        dsimp only at h ⊢
        refine Leaves.setMirror (by decide) _ ?_
        exact h

theorem leaves_goMailbox {W : List Part} {s₀ s : State} (hW : [.present, .reset, .power, .hsOff, .events, .rw,
    .applied, .staged, .counters, .held, .commit, .store, .transfers, .mirror, .image, .ownerBuffer, .challenge,
    .transition, .heads, .lanes, .fseq, .slots, .pages, .batches, .budgets, .directory, .cache, .run, .starts,
    .numbers, .lastStep, .peers, .bond, .tree, .late, .snapshot, .hold, .restore, .fence, .tests, .mode, .out, .fresh,
    .clock, .slow] ⊆ W) (hk : Leaves W s₀ s) (word : Nat) : Leaves W s₀ (goMailbox word s) :=
  hk.trans (leaves_goMailbox_own (Leaves.refl _ _) word) hW

theorem leaves_mirrorWrite {W : List Part} {s₀ s : State} (hW : [.present, .reset, .power, .hsOff, .events, .rw,
    .applied, .staged, .counters, .held, .commit, .store, .transfers, .mirror, .image, .ownerBuffer, .challenge,
    .transition, .heads, .lanes, .fseq, .slots, .pages, .batches, .budgets, .directory, .cache, .run, .starts,
    .numbers, .lastStep, .peers, .bond, .tree, .late, .snapshot, .hold, .restore, .fence, .tests, .mode, .out, .fresh,
    .clock, .slow] ⊆ W) (hk : Leaves W s₀ s) (offset word : Nat) : Leaves W s₀ (mirrorWrite offset word s) := by
  refine hk.trans ?_ hW
  unfold mirrorWrite
  try dsimp only
  repeat' first
    | with_reducible assumption
    | with_reducible exact Leaves.refl _ _
    | split
    | with_reducible apply leaves_dropHalves
    | with_reducible apply leaves_windowWrite
    | with_reducible apply leaves_goMailbox
    | (intro u x hu)
    | with_reducible exact Kept.refl
    | decide
    | (with_reducible apply Leaves.upd)
    | (with_reducible apply Kept.mem)
    | with_reducible exact Boundary.Like.refl _ _
    | with_reducible exact Sensing.Like.refl _ _
    | with_reducible exact Dict.Like.refl _ _
    | with_reducible exact NonVolatile.Like.refl _ _
    | with_reducible exact LifeCycle.Like.refl _ _
    | with_reducible exact Contexts.Like.refl _ _
    | with_reducible exact Steps.Like.refl _ _
    | with_reducible exact Mortar.Like.refl _ _
    | with_reducible exact Upkeep.Like.refl _ _

theorem leaves_mirrorRead {W : List Part} {s₀ s : State} (hW : [.hsOff, .counters, .mirror, .heads, .lanes, .cache,
    .out] ⊆ W) (hk : Leaves W s₀ s) (offset : Nat) : Leaves W s₀ (mirrorRead offset s) := by
  refine hk.trans ?_ hW
  unfold mirrorRead
  try dsimp only
  repeat' first
    | with_reducible assumption
    | with_reducible exact Leaves.refl _ _
    | split
    | with_reducible apply leaves_mirrorData
    | with_reducible apply leaves_dropHalves
    | with_reducible apply leaves_windowRead
    | (intro u x hu)
    | with_reducible exact Kept.refl
    | decide
    | (with_reducible apply Leaves.upd)
    | (with_reducible apply Kept.mem)
    | with_reducible exact Boundary.Like.refl _ _
    | with_reducible exact Sensing.Like.refl _ _
    | with_reducible exact Dict.Like.refl _ _
    | with_reducible exact NonVolatile.Like.refl _ _
    | with_reducible exact LifeCycle.Like.refl _ _
    | with_reducible exact Contexts.Like.refl _ _
    | with_reducible exact Steps.Like.refl _ _
    | with_reducible exact Mortar.Like.refl _ _
    | with_reducible exact Upkeep.Like.refl _ _

end Sys2Proof.Machine
end

