-- ==== Sys2Proof/Laws/LeavesCommands.lean ====
section
/-! SUPPORT. What the effects of Machine/Commands.lean leave as it was. -/

namespace Sys2Proof.Machine

theorem leaves_writeObject {W : List Part} {s₀ s : State} (hW : [.present, .reset, .power, .hsOff, .events, .rw,
    .applied, .staged, .counters, .held, .commit, .store, .transfers, .mirror, .image, .ownerBuffer, .challenge,
    .transition, .heads, .lanes, .fseq, .slots, .pages, .batches, .budgets, .directory, .cache, .run, .starts,
    .numbers, .lastStep, .peers, .bond, .tree, .late, .snapshot, .hold, .restore, .fence, .tests, .mode, .out, .fresh,
    .clock, .slow] ⊆ W) (hk : Leaves W s₀ s) (key : Nat) (via : Via) (value : Word32) : Leaves W s₀ (writeObject key
    via value s) := by
  refine hk.trans ?_ hW
  unfold writeObject
  try dsimp only
  repeat' first
    | with_reducible assumption
    | with_reducible exact Leaves.refl _ _
    | split
    | with_reducible apply leaves_meshRequest
    | with_reducible apply leaves_mirrorWrite
    | (intro u x hu)
    | with_reducible exact Kept.refl
    | decide
    | (with_reducible apply Leaves.upd)
    | (with_reducible apply Kept.mem)
    | with_reducible exact Boundary.Like.refl _ _
    | with_reducible exact Sensing.Like.refl _ _
    | with_reducible exact Dict.Like.refl _ _
    | with_reducible exact NonVolatile.Like.refl _ _
    | with_reducible exact LifeCycle.Like.refl _ _
    | with_reducible exact Contexts.Like.refl _ _
    | with_reducible exact Steps.Like.refl _ _
    | with_reducible exact Mortar.Like.refl _ _
    | with_reducible exact Upkeep.Like.refl _ _

end Sys2Proof.Machine
end

