-- ==== Sys2Proof/Laws/Writes.lean ====
section
/-! SUPPORT. A write of one object, over the mesh or through the mirror: the request its message spells, and what it
comes to where it reaches a command object. -/

namespace Sys2Proof.Machine

set_option linter.all false

theorem leNat_toLe (n v : Nat) : leNat (toLe n v) = v % 256 ^ n := by
  induction n generalizing v with
  | zero => simp [toLe, leNat, Nat.mod_one]
  | succ n ih =>
    have e : v % 256 ^ (n + 1) = v % 256 + 256 * (v / 256 % 256 ^ n) := by
      rw [Nat.pow_succ', Nat.mod_mul]
    rw [toLe, leNat, ih, BitVec.toNat_ofNat, e]

theorem length_toLe (n v : Nat) : (toLe n v).length = n := by
  induction n generalizing v with
  | zero => rfl
  | succ n ih => rw [toLe, List.length_cons, ih]

theorem request_writeMessage (tag : Byte) {key v : Nat} (hk : key < 2 ^ 24) (hv : v < 2 ^ 64) :
    requestFormed (writeMessage tag key v) = true ∧ (Request.read (writeMessage tag key v)).command = 2 ∧
      (Request.read (writeMessage tag key v)).tag = tag.toNat ∧ (Request.read (writeMessage tag key v)).last = false ∧
      (Request.read (writeMessage tag key v)).staged = false ∧ (Request.read (writeMessage tag key v)).key = key ∧
      (Request.read (writeMessage tag key v)).value = v ∧ messageOurs (writeMessage tag key v) = true := by
  refine ⟨?_, ?_, ?_, ?_, ?_, ?_, ?_, ?_⟩
  · simp [requestFormed, writeMessage, fieldAt, zeroBytes, toLe, leNat]
  · simp [Request.read, writeMessage, fieldAt, leNat]
  · simp [Request.read, writeMessage, fieldAt, leNat]
  · simp [Request.read, writeMessage, fieldAt, leNat, bit]
  · simp [Request.read, writeMessage, fieldAt, leNat, bit]
  · simp only [Request.read, writeMessage, fieldAt, toLe, leNat, List.cons_append, List.nil_append, List.drop_succ_cons,
      List.drop_zero, List.take_succ_cons, List.take_zero, BitVec.toNat_ofNat]
    omega
  · have h : (Request.read (writeMessage tag key v)).value = leNat (toLe 8 v) := by
      simp [Request.read, writeMessage, fieldAt, toLe, leNat]
    rw [h, leNat_toLe]
    exact Nat.mod_eq_of_lt (by simpa using hv)
  · simp [messageOurs, writeMessage]

theorem length_writeMessage (tag : Byte) (key v : Nat) : ¬ (writeMessage tag key v).length < 16 := by
  simp [writeMessage, length_toLe]

/-- Only the counters of the lane domain need its clock. -/
theorem laneAccess_other {key : Nat} (h : laneObject key = false) (s : State) : laneAccess key s = s := by
  simp [laneAccess, h]

/-- What a response's first bytes say. -/
theorem response_fields (q : Request) (r codes : Nat) (body : Bytes) (ht : q.tag < 256) (hc : q.command < 128)
    (hk : q.key < 2 ^ 24) (hr : r < 256) :
    fieldAt (response q r codes body) 5 1 = 128 + q.command ∧ fieldAt (response q r codes body) 6 1 = q.tag ∧
      fieldAt (response q r codes body) 8 2 = q.key / 256 ∧ fieldAt (response q r codes body) 10 1 = q.key % 256 ∧
      fieldAt (response q r codes body) 11 1 = r := by
  refine ⟨?_, ?_, ?_, ?_, ?_⟩ <;>
    (simp only [response, fieldAt, toLe, leNat, List.cons_append, List.nil_append, List.drop_succ_cons,
      List.drop_zero, List.take_succ_cons, List.take_zero, BitVec.toNat_ofNat]
     omega)

/-- A write of a scalar object over the mesh that reaches it: the value is written, the result counted and answered. -/
theorem writeObject_mesh {s : State} {eid tag : Byte} {key : Nat} {o : ObjInfo} {value : Word32}
    (hs : s.takesWrite (.mesh eid tag) key = true) (ho : objInfo key = some o) (hb : o.isBlock = false)
    (hk : key < 2 ^ 24) (hl : laneObject key = false) :
    ∃ q body, q.command = 2 ∧ q.tag = tag.toNat ∧ q.key = key ∧
      writeObject key (.mesh eid tag) value s =
        sendMesh eid (response q (writeValue key (value.toNat % 2 ^ (8 * o.size)) o s).1 (codesOf o true) body)
          (countResult (writeValue key (value.toNat % 2 ^ (8 * o.size)) o s).1
            (writeValue key (value.toNat % 2 ^ (8 * o.size)) o s).2) := by
  have hv : value.toNat < 2 ^ 64 := Nat.lt_trans value.isLt (by decide)
  obtain ⟨h1, h2, h3, h4, h5, h6, h7, h8⟩ := request_writeMessage tag hk hv
  simp only [State.takesWrite, ho, Bool.and_eq_true, Bool.not_eq_true', bne_iff_ne, ne_eq] at hs
  obtain ⟨⟨hm, hw⟩, he, hp⟩ := hs
  have he : ¬ s.dict.endpoint = 0#8 := he
  refine ⟨Request.read (writeMessage tag key value.toNat), [], h2, h3, h6, ?_⟩
  have hn := length_writeMessage tag key value.toNat
  simp [writeObject, meshRequest, hm, he, h8, runMessage, runOn, hn, h1, h6, ho, hw, Request.writes, h2, hp, runObject, runWrite, hb,
    h7, laneAccess_other hl]

/-- The same through the mirror. -/
theorem writeObject_mirror {s : State} {key : Nat} {o : ObjInfo} {value : Word32}
    (hs : s.takesWrite .mirror key = true) (ho : objInfo key = some o) (hb : o.isBlock = false) (h8 : o.size ≠ 8)
    (hk : key < 2 ^ 24) (hl : laneObject key = false) (hv : value.toNat < 2 ^ (8 * o.size)) :
    writeObject key .mirror value s =
      setLast (writeValue key value.toNat o (dropHalves s)).1 (writeValue key value.toNat o (dropHalves s)).2 := by
  simp only [State.takesWrite, ho, Bool.and_eq_true, Bool.not_eq_true'] at hs
  obtain ⟨⟨hm, hw⟩, hp⟩ := hs
  have e1 : slotOffset key < 0x08000000 := by
    unfold slotOffset
    omega
  have e2 : windowKey (slotOffset key) = key := by
    unfold windowKey slotOffset
    omega
  have e3 : slotOffset key % 8 = 0 := by
    unfold slotOffset
    omega
  have hp' : (dropHalves s).permits .operator o key true = true := hp
  have hw' : (dropHalves s).writeWaits key = false := hw
  have hv' : ¬ 2 ^ (8 * o.size) ≤ value.toNat := Nat.not_le.2 hv
  simp [writeObject, mirrorWrite, hm, e1, windowWrite, e2, e3, ho, hw', hb, h8, directWrite, hp', hv', laneAccess_other hl]

/-- The value that starts a command object runs its effect. -/
theorem writeValue_command {s : State} {key v : Nat} {o : ObjInfo} (ha : o.access = 5)
    (hv : commandInRange key v = true) (hr : s.commandResult key = 0) :
    writeValue key v o s = (0, commandEffect key v s) := by
  simp [writeValue, ha, hv, hr]

/-- Another value is OUT_OF_RANGE. -/
theorem writeValue_outOfRange {s : State} {key v : Nat} {o : ObjInfo} (ha : o.access = 5)
    (hv : commandInRange key v = false) : writeValue key v o s = (3, s) := by
  simp [writeValue, ha, hv]

/-- A command that cannot start answers why. -/
theorem writeValue_turnedAway {s : State} {key v : Nat} {o : ObjInfo} (ha : o.access = 5)
    (hv : commandInRange key v = true) (hr : s.commandResult key ≠ 0) :
    writeValue key v o s = (s.commandResult key, s) := by
  simp [writeValue, ha, hv, hr]

/-- Whatever a write of a scalar object comes to, it changes what taking a value changes and what every access may. -/
theorem leaves_scalarObject {W : List Part} {s : State} {key : Nat} {o : ObjInfo} {via : Via} {value : Word32}
    (ho : objInfo key = some o) (hb : o.isBlock = false) (h8 : o.size ≠ 8) (hk : key < 2 ^ 24)
    (hl : laneObject key = false) (hW : accessParts ⊆ W) (hv : ∀ u v, Leaves W u (writeValue key v o u).2) :
    Leaves W s (writeObject key via value s) := by
  cases via with
  | mesh eid tag =>
    have hq := request_writeMessage tag (v := value.toNat) hk (Nat.lt_trans value.isLt (by decide))
    obtain ⟨h1, h2, h3, h4, h5, h6, h7, h9⟩ := hq
    show Leaves W s (meshRequest eid (writeMessage tag key value.toNat) s)
    unfold meshRequest
    split
    · exact Leaves.refl W s
    · split
      · exact leaves_dropUnassigned (List.Subset.trans (by decide) hW) (Leaves.refl W s)
      · simp only [h9, Bool.not_true, Bool.false_eq_true, if_false]
        unfold runMessage
        have hn := length_writeMessage tag key value.toNat
        simp only [runOn, h1, Bool.not_true, Bool.false_eq_true, if_false, h6, ho, hn]
        split
        · rename_i r s' e
          split at e
          · simp at e
          · obtain ⟨-, e⟩ := Prod.mk.inj e
            rw [← e]
            refine leaves_sendMesh (List.Subset.trans (by decide) hW) (leaves_countResult
              (List.Subset.trans (by decide) hW) ?_ _) ..
            simp only [runObject, h2]
            unfold runWrite
            split
            · exact leaves_refuseAccess (List.Subset.trans (by decide) hW) (Leaves.refl W s)
            · split
              · exact Leaves.refl W s
              · rw [h6, laneAccess_other hl]
                exact hv s _
        · rename_i s' e
          split at e
          · obtain ⟨-, e⟩ := Prod.mk.inj e
            rw [← e]
            exact Leaves.refl W s
          · simp at e
  | mirror =>
    show Leaves W s (mirrorWrite (slotOffset key) value.toNat s)
    unfold mirrorWrite
    split
    · exact Leaves.refl W s
    · have hd : Leaves W s (dropHalves s) := leaves_dropHalves (List.Subset.trans (by decide) hW) (Leaves.refl W s)
      have e1 : slotOffset key < 0x08000000 := by
        unfold slotOffset
        omega
      have e2 : windowKey (slotOffset key) = key := by
        unfold windowKey slotOffset
        omega
      have e3 : slotOffset key % 8 = 0 := by
        unfold slotOffset
        omega
      dsimp only
      rw [if_pos e1]
      unfold windowWrite
      simp only [e2, ho, hb, e3, Bool.false_or, Bool.not_false, Bool.and_true]
      split
      · exact hd
      · rw [if_pos (by simp [h8])]
        simp only [Nat.reduceBEq, Bool.false_eq_true, if_false]
        unfold directWrite
        split
        · exact leaves_setLast (List.Subset.trans (by decide) hW) (leaves_refuseAccess (List.Subset.trans (by decide) hW) hd) _
        · split
          · exact leaves_setLast (List.Subset.trans (by decide) hW) hd _
          · split
            · exact leaves_setLast (List.Subset.trans (by decide) hW) hd _
            · refine leaves_setLast (List.Subset.trans (by decide) hW) ?_ _
              rw [laneAccess_other hl]
              exact hd.trans (hv ..) (List.Subset.refl W)

/-- Whatever a write of a command object comes to, it changes what its effect changes and what every access may. -/
theorem leaves_commandObject {W : List Part} {s : State} {key : Nat} {o : ObjInfo} {via : Via} {value : Word32}
    (ho : objInfo key = some o) (ha : o.access = 5) (hb : o.isBlock = false) (h8 : o.size ≠ 8) (hk : key < 2 ^ 24)
    (hl : laneObject key = false) (hW : accessParts ⊆ W) (he : ∀ u v, Leaves W u (commandEffect key v u)) :
    Leaves W s (writeObject key via value s) := by
  refine leaves_scalarObject ho hb h8 hk hl hW fun u v => ?_
  cases hr : commandInRange key v
  · rw [writeValue_outOfRange ha hr]
    exact Leaves.refl W u
  · by_cases hc : u.commandResult key = 0
    · rw [writeValue_command ha hr hc]
      exact he u v
    · rw [writeValue_turnedAway ha hr hc]
      exact Leaves.refl W u

end Sys2Proof.Machine
end

