-- ==== Sys2Proof/Tests/Slice0.lean ====
section
/-! SUPPORT. Tests: ill-formed commands are refused; for each statement of slice 0 with hypotheses, states and operands
that meet them, clause by clause, with what one step there comes to where that is cheap to read. -/

namespace Sys2Proof.Machine

set_option Elab.async false

/-! ### Small states -/

/-- A unit in service: FIELD, Active, ports connected, endpoint 5 assigned. -/
def live : State :=
  { State.reset with
    boundary := { State.reset.boundary with unitPresent := true, phase := .idle }
    sensing := { Sensing.initial with power := .active }
    ts := { valid := true, value := 1000, hold := 0, phase := 0 }
    dict := { Dict.initial with endpoint := 5 } }

/-- `live` with sensing changed. -/
def withSensing (f : Sensing → Sensing) : State := { live with sensing := f live.sensing }

/-- `live` in a power state. -/
def inPower (p : Power) : State := withSensing fun x => { x with power := p }

/-- `live` with the lanes stopped by the rail (table 3.2). -/
def stopped (s : State) : State := { s with sensing := { s.sensing with laneRow := 4 } }

/-- `live` at a reset phase. -/
def inPhase (p : ResetPhase) : State := { live with boundary := { live.boundary with phase := p, unitPresent := false } }

/-- `live` with RW objects. -/
def withRw (m : Store) : State := { live with dict := { live.dict with rw := m } }

/-- `live` in a life-cycle state. -/
def inState (n : Nat) : State := { live with life := { live.life with record := { live.life.record with state := n } } }

/-- What a next state reads; `d` where there is none. -/
def after {α : Type} (i : Instr) (s : State) (f : State → α) (d : α) : α :=
  match exec i s with
  | .next t => f t
  | _ => d

/-- The command ends in a next state. -/
def runs (i : Instr) (s : State) : Bool := after i s (fun _ => true) false

/-! ### Well-formed commands -/

/-- One term for each check, refused by it. -/
theorem test_ill_formed_commands :
    [Instr.laneStateResetEnd [(2 ^ 64, 1)], .stepBegin [(2 ^ 64, 1)], .stepBoundary [(2 ^ 64, 1)],
      .commit .mirror 0 [(2 ^ 64, 1)], .restoreChunkRead [(2 ^ 64, 1)], .bringUpDone 2048, .bistDone 2048,
      .laneRailDroop 1001 0, .laneRailDroop 0 1001, .laneRailRecovery 1001 0, .hsRailFault 1001, .aonRailFault 1001,
      .temperatureReading 8 0, .temperatureReading 0 (-40001), .temperatureReading 0 150001,
      .intakeEnd 32 [], .residualPass 32 [], .secondPass 32 [], .residualPass 0 [] [65536], .secondPass 0 [] [65536],
      .passGroupBloomsAcknowledged 32, .tileExchange 32 0 [], .tileExchange 0 65536 [], .tileExchange 0 0 [⟨0, 0, false, 0, false, []⟩], .brickDrain 32 0 [], .brickDrain 0 257 [],
      .brickDrain 0 0 [⟨8, 0, false, 0, false, []⟩], .brickDrain 0 0 [⟨1, 0, false, 0, false, [512]⟩],
      .admission [⟨1, 0, false, 0, true, []⟩], .intakeEnd 0 [⟨3, 0, false, 4, true, []⟩],
      .swapGo .mirror 4 0, .swapAbort .mirror 4 0, .swapDone 4 [], .swapDone 0 [(2 ^ 64, 1)],
      .contextBatchGo .mirror 64 0 [], .contextBatchGo .mirror 0 0 [(2 ^ 64, 1)],
      .openCtx 64, .fork 64, .append 64, .pause 64, .resume 64, .cancel 64, .contextBatchDone 64,
      .pauseCopyDone 8192, .resumeCopyDone 8192, .contextExpired 8192].all (fun i => !i.wf) = true := by decide

/-- The rest of them. -/
theorem test_ill_formed_messages :
    [Instr.networkErrorResponse 4 .manifest, .networkErrorResponse 0 (.headParams 4), .networkErrorResponse 0 (.swapRead 4 0),
      .networkErrorResponse 0 (.swapRead 0 393216), .networkErrorResponse 0 (.swapParams 4),
      .networkErrorResponse 0 (.bloomWrite (2 ^ 64)), .networkErrorResponse 2 (.gradientWrite (2 ^ 64)),
      .networkErrorResponse 3 (.holdWrite (2 ^ 64)), .networkErrorResponse 1 (.wipeWrite (2 ^ 64)),
      .networkErrorResponse 0 (.rowData [16384]),
      .networkErrorResponse 0 (.spillWrite [] (2 ^ 64)), .networkErrorResponse 0 (.historyWrite 8192 0),
      .networkErrorResponse 0 (.resumeRead 8192), .networkErrorResponse 0 (.commandRead 64),
      .networkErrorResponse 0 (.commandWrite 64 0), .discover [], .caps (toLe 63 0), .heartbeat [], .partialSum [],
      .histogram [], .petalList [], .bloomClaim [], .bondUpdate [], .statePage [], .linkAck [], .linkNak [],
      .mortarResendTimeout 4096 0, .mortarResendTimeout 0 (2 ^ 32), .peerSilenceTimeout 4096, .absenceNotice 4096,
      .absentResponse 4096, .read (.mirror 2), .read (.mirror (2 ^ 32)), .mirrorUpperWrite 8 0, .mirrorUpperWrite 2 0,
      .registerWrite 2 0, .scrubRead [⟨0, 0, false, 0, false, []⟩], .tierLatencyWindow (2 ^ 32) 0,
      .tierLatencyWindow 0 (2 ^ 32)].all (fun i => !i.wf) = true := by decide

/-- A body is at most 1,056 bytes. -/
theorem test_ill_formed_bodies :
    ((Instr.read (.mesh 0 (toLe 1057 0))).wf || (Instr.write 0 (toLe 1057 0)).wf || (Instr.readBlock 0 (toLe 1057 0)).wf ||
      (Instr.writeBlock 0 (toLe 1057 0)).wf || (Instr.abort 0 (toLe 1057 0)).wf) = false := by decide +kernel

/-! ### The machine, resets, bring-up -/

theorem test_idle_premises :
    (inPower .off).pending = [] ∧ live.sensing.power ≠ .off ∧ State.reset.ts.valid = false ∧ live.ts.valid = true ∧
      live.fullSpeed = true ∧ live.ts.phase < 9 ∧ (inPower .standby).fullSpeed = false ∧ (stopped live).fullSpeed = false ∧
      ({ live with ts := { live.ts with phase := 9 } } : State).ts.phase = 9 ∧
      live.ts.hold = 0 ∧ (10 ≤ ({ live with ts := { live.ts with hold := 10 } } : State).ts.hold) ∧
      (inPower .dormant).sensing.power = .dormant ∧ (inPower .standby).sensing.power = .standby := by decide

theorem test_invariant_premises : live.Inv ∧ ∃ t, step live = .next t :=
  ⟨⟨by decide, by decide, by decide, by decide, by decide, by decide, by decide⟩, _, rfl⟩

theorem test_parts_premises :
    Instr.laneRstN.wf = true ∧ runs .laneRstN live = true ∧ Part.mem ∉ mayChange .laneResetDrainEnd := by decide

/-- No batch, no result field; a running one has those of its records. -/
theorem test_memory_frame_premises :
    ¬ live.resultByte 70 ∧ resultField (64 + 32 * 1) 102 = true ∧ resultField 64 72 = false ∧
      after (.commit .mirror 0x434F4D54 [(64, 7)]) live (fun t => readCell t.mem 64) 0 = 7 ∧
      hostBytes (.stepBoundary [(64, 7)] []) = [(64, 7)] :=
  ⟨(fun ⟨_, h, _⟩ => nomatch h), by decide, by decide, by decide +kernel, rfl⟩

theorem test_reset_premises :
    live.boundary.phase ≠ .asserted .powerOn ∧ live.sensing.power ≠ .off ∧
      State.reset.boundary.phase = .asserted .powerOn ∧
      ({ live with boundary := { live.boundary with unitResetDue := true } } : State).boundary.unitResetDue = true ∧
      live.life.writing = none ∧ live.steps.latched = none ∧ live.steps.held = none := by decide

theorem test_disabled_premises :
    let s := { State.reset with boundary := { State.reset.boundary with unitDisable := true } }
    s.boundary.unitDisable = true ∧ s.sensing.power ≠ .off ∧ s.boundary.phase = .asserted .powerOn ∧
      runs .resetRelease s = true ∧ (inPower .off).sensing.power = .off ∧
      after .unitDisable live (fun t => (t.sensing.power, t.sensing.hsOff)) (.off, false) = (.dormant, true) := by decide

theorem test_lane_reset_premises :
    State.reset.laneResettable = false ∧ live.laneResettable = true ∧ (inPower .dormant).laneResettable = true ∧
      live.sensing.waking = none ∧ (inPower .dormant).boundary.phase = .idle ∧ live.restore.run = none ∧
      (withSensing fun x => { x with waking := some 5 }).sensing.waking ≠ none ∧
      after .laneRstN (inPower .dormant) (·.sensing.waking) none = some 1200 ∧
      after .laneRstN live (·.boundary.laneReturn) .off = .standby ∧
      after .laneRstN (inPower .dormant) (·.boundary.laneReturn) .off = .dormant := by decide

/-- A Failed slot over a unit reset; a power-on reset of a disabled unit. -/
theorem test_reset_heads :
    let f : State := { live with heads := { HeadSlot.empty with state := 5 } :: live.heads.drop 1 }
    (f.head 0).state = 5 ∧ after .unitRstN f (fun t => (t.head 0).state) 9 = 0 ∧
      after .powerOnReset { live with boundary := { live.boundary with unitDisable := true } } (·.sensing.hsOff) false = true := by
  decide +kernel

/-- Test 10 waits for the swap that the reset drops; another slot is Loaded. -/
theorem test_march_premises :
    let s : State := { live with
      upkeep := { live.upkeep with marchDue := some 0 }
      heads := [{ HeadSlot.empty with state := 1 }, { HeadSlot.empty with state := 4, frames := 9 }, .empty, .empty] }
    s.marchTime = true ∧ (slowEdge s).marchTime = true ∧ live.marchTime = false ∧ (slowEdge live).marchTime = false ∧
      s.heads.length = 4 ∧ s.working = true ∧ s.marching = false ∧
      after .laneRstN s (fun t => t.heads.map fun h => (h.state, h.frames)) [] = [(0, 0), (0, 0), (0, 0), (0, 0)] ∧
      after (.swapAbort .mirror 0 0x41425254) s (fun t => t.heads.map (·.state)) [] = [0, 0, 0, 0] ∧
      after (.swapDone 0 []) s (fun t => t.heads.map (·.state)) [] = [0, 0, 0, 0] ∧
      after (.networkErrorResponse 0 (.swapParams 0)) s (fun t => t.heads.map (·.state)) [] = [0, 0, 0, 0] ∧
      (let u : State := { s with heads := HeadSlot.empty :: s.heads.drop 1 }
       u.marchTime = true ∧ (∀ h ∈ u.heads, h.state ≠ 1) ∧ (∃ h ∈ s.heads, h.state = 1) ∧
         (beginMarch u).heads.map (·.state) = [0, 0, 0, 0] ∧ (beginMarch s).heads = s.heads) := by
  decide +kernel

theorem test_lane_reset_end_premises :
    (inPhase .draining).sensing.waking = none ∧ (inPhase .draining).events.events.length < 255 ∧
      (inPhase .laneState).boundary.phase = .laneState ∧ (inPhase .laneState).contexts.batches = [] ∧
      (inPhase .laneState).dict.commitState ≠ 1 ∧ (inPhase .laneState).nothingPending = true ∧
      ({ inPhase .laneState with sensing := (inPower .dormant).sensing } : State).sensing.power ≠ .active ∧
      (∀ h ∈ (inPhase .laneState).heads, h.state ≠ 2) ∧ (inPhase .laneState).events.events.length < 240 ∧
      after (.laneStateResetEnd []) (inPhase .laneState) (fun t => t.events.events.map (·.code)) [] = [0x0204] ∧
      after (.laneStateResetEnd []) (inPhase .laneState) (·.sensing.power) .off = .dormant ∧
      after (.laneStateResetEnd []) (inPhase .laneState) (·.boundary.unitPresent) false = true := by decide

theorem test_release_premises :
    let u (n : Nat) : State := { inPhase (.asserted .unit) with life := (inState n).life }
    let v : State := { u 4 with nvm := { (u 4).nvm with settings := some ([(0x300002, 2)], [(0x200020, 1)]) } }
    (u 6).life.record.state = 6 ∧ after .resetRelease (u 6) (·.boundary.phase) .idle = .scrapped ∧
      (u 4).life.record.state ≠ 6 ∧ (u 4).nvm.settings = none ∧
      v.nvm.settings = some ([(0x300002, 2)], [(0x200020, 1)]) ∧ (u 4).boundary.unitDisable = false ∧
      (u 4).dict.rw = [] ∧ (u 4).dict.applied = [] ∧
      after .resetRelease v (·.dict.settingsSource) 9 = 1 ∧
      after (.resetRelease [⟨7, 0, true, 0, false, []⟩]) v (·.dict.settingsSource) 9 = 2 := by decide

/-- Reserved bits of a failure mask are not read; test 9 is, test 10 is not one of bring-up's. -/
theorem test_bring_up_premises :
    (inPhase .bringUp).boundary.phase = .bringUp ∧ live.rwVal 0x300005 = 1 ∧ (withRw [(0x300005, 0)]).rwVal 0x300005 ≠ 1 ∧ 0x401 &&& 0x3FE = 0 ∧ 0x200 &&& 0x3FE ≠ 0 ∧
      after (.bringUpDone 0x401) (inPhase .bringUp) (·.boundary.unitPresent) false = true ∧
      after (.bringUpDone 0x200) (inPhase .bringUp) (·.boundary.phase) .idle = .failed ∧
      (let s : State := { inPhase .bringUp with sensing := { Sensing.initial with railE := 600, railW := 700, railsRead := true } }
       s.sensing.railsRead = true ∧ s.sensing.power ≠ .active ∧ after (.bringUpDone 0) s (·.sensing.laneRow) 9 = 4) ∧
      (let s : State := { inPhase .bringUp with boundary := { (inPhase .bringUp).boundary with unitDisable := true } }
       s.boundary.unitDisable = true ∧ after (.bringUpDone 0) s (fun t => (t.boundary.phase, t.sensing.power)) (.idle, .off) =
         (.failed, .dormant)) := by decide

/-! ### Clocks, power, sensing -/

theorem test_edge_premises :
    let s : State := { live with boundary := { live.boundary with lastEdge := some 100 } }
    State.reset.portsUp = false ∧ s.portsUp = true ∧ 139 < 100 + 40 ∧ 100 + 40 ≤ 140 ∧ live.rwVal 0x207002 = 1 ∧
      (withRw [(0x207002, 2)]).rwVal 0x207002 ≠ 1 ∧ live.refusesStarts = false ∧ live.startBusy = false ∧
      live.sensing.thermalHold = false ∧ after (.stepSyncEdge 139) s (·.boundary.lastEdge) none = some 100 ∧
      after (.stepSyncEdge 140) s (·.steps.held) none = some (999, false, 0) := by decide

/-- Starts: refused while quiesced, latched while tests run, dropped behind a latched one. -/
theorem test_start_premises :
    let q : State := { live with restore := { live.restore with quiesced := 1 } }
    let b : State := { live with upkeep := { live.upkeep with bistRun := some 2 } }
    let l : State := { b with steps := { b.steps with latched := some (7, true, 0) } }
    q.refusesStarts = true ∧ b.refusesStarts = false ∧ b.startBusy = true ∧ b.steps.latched = none ∧
      l.steps.latched ≠ none ∧ after (.stepSyncEdge 0) b (·.steps.latched) none = some (999, false, 0) ∧
      after (.stepSyncEdge 0) l (·.counter 0x709002) 0 = 1 ∧
      after (.stepSyncEdge 0) (inPower .dormant) (fun t => (t.sensing.waking, t.steps.held)) (none, none) =
        (some 1200, some (980, false, 12000)) ∧
      after (.stepSyncEdge 0) (stopped live) (·.steps.held) none = some (980, false, 0) ∧
      after (.stepGo .mirror 0x5354474F) { l with dict := (withRw [(0x207002, 2)]).dict } (·.counter 0x700001) 0 = 1 ∧
      after (.stepGo .mirror 0x5354474F) { q with dict := (withRw [(0x207002, 2)]).dict } (·.counter 0x700001) 0 = 1 ∧
      after (.stepSyncEdge 0) (inPower .standby) (·.sensing.waking) none = some 2 := by decide

theorem test_time_stamp_premises :
    State.reset.managementUp = false ∧ live.managementUp = true ∧
      ({ live with ts := { live.ts with valid := false } } : State).ts.valid = false ∧
      live.ts.value = (1009 : Nat) / 10 * 10 ∧ live.ts.value < (1010 : Nat) / 10 * 10 ∧
      (999 : Nat) / 10 * 10 < live.ts.value ∧ live.ts.phase = 0 ∧ after (.tsLoad 1010) live (·.ts.value) 0 = 1010 ∧
      after (.tsLoad 999) live (·.ts.hold) 0 = 10 := by decide

theorem test_power_premises :
    let w : State := { inPower .dormant with sensing := { (inPower .dormant).sensing with waking := some 1200 } }
    let r : State := { w with sensing := { w.sensing with railE := 700, railW := 720, railsRead := true } }
    w.sensing.waking ≠ none ∧ w.sensing.railsRead = false ∧ r.sensing.railsRead = true ∧
      after .wakeComplete r (·.sensing.laneRow) 9 = railRow 700 ∧ live.portsUp = true ∧
      after .wakeComplete { w with boundary := { w.boundary with phase := .draining, laneWoke := true } } (·.sensing.power) .off =
        .active ∧ after .wakeComplete w (·.sensing.power) .off = .active ∧
      after .wakeComplete { w with boundary := { w.boundary with phase := .draining } } (·.sensing.power) .off = .standby ∧
      live.nothingPending = true ∧ (inPower .standby).nothingPending = true ∧ (inPower .standby).rwVal 0x300002 = 1 ∧
      live.rwVal 0x300005 = 1 ∧ (withRw [(0x300005, 0)]).rwVal 0x300005 ≠ 1 ∧
      after .activeIdleExpiry live (·.sensing.power) .off = .standby := by decide

/-- Without retention a Loaded slot is Empty in Dormant. -/
theorem test_dormant_without_retention :
    let s := withRw [(0x300005, 0)]
    let s := { s with
      sensing := { s.sensing with power := .standby }
      heads := [{ HeadSlot.empty with state := 4, frames := 64 }, .empty, .empty, .empty] }
    after .standbyIdleExpiry s (fun t => ((t.head 0).state, (t.head 0).frames, t.sensing.hsOff)) (9, 9, false) =
      (0, 0, true) := by decide

theorem test_rail_premises :
    live.sensing.power ≠ .off ∧ live.laneRails = true ∧ (inPower .dormant).laneRails = false ∧
      live.sensing.laneRow < railRow (min 700 649) ∧ railRow (min 800 800) ≤ live.sensing.laneRow ∧
      after (.laneRailDroop 700 649) live (·.sensing.laneRow) 9 = 4 ∧
      0 < (stopped live).sensing.laneRow ∧ (stopped live).steps.run = none ∧
      after (.laneRailRecovery 1000 1000)
        { stopped live with mortar := { live.mortar with late := [frame 0xE0 0 0 3 5 0 0 0 (toLe 1 0)] } }
        (fun t => (t.sensing.laneRow, t.out.fabric.map fun m => (msgType m, msgSent m))) (9, []) = (3, [(0xE0, 1000)]) ∧
      stepUp 4 ≤ min 1000 1000 ∧ min 0 1000 < stepUp 4 ∧ (700 : Nat) ≤ 700 ∧ (699 : Nat) < 700 ∧ (800 : Nat) < 801 ∧
      (720 : Nat) ≤ 720 ∧ (719 : Nat) < 720 ∧ (780 : Nat) < 781 := by decide

theorem test_temperature_premises :
    live.steps.latched = none ∧ live.sensing.nextPoint = none ∧
      after (.temperatureReading 7 0) live (·.sensing.nextPoint) none = some 0 ∧
      runs (.temperatureReading 7 0) (withSensing fun x => { x with nextPoint := some 6 }) = false ∧ signed32 (live.counter 0x702006) < (105000 : Int) ∧
      (-1 : Int) ≤ signed32 (live.counter 0x702006) ∧
      after (.temperatureReading 7 105000) live (fun t => (t.sensing.thermalCap, t.counter 0x702006)) (false, 0) =
        (true, 105000) ∧
      after (.temperatureReading 0 94999) live (·.sensing.warned) true = false ∧
      after (.temperatureReading 0 95000) live (·.sensing.warned) false = true ∧
      runs (.tierLatencyWindow (2 ^ 32 - 1) 0) live = true := by decide
/-! ### Steps -/

/-- A teacher-forced row with external scores and no context. -/
def plainDesc : RowDesc :=
  { kind := 3, format := 1, external := true, critic := none, second := none, primary := 0, noContext := true, kl := false
    slot := 0, tenant := 0, alternatives := 0, position := 0, token := 0, chainLength := 0, chainIndex := 0, learnIndex := 0
    weight := 0, hidden := 64, hidden2 := 0, scoreBlock := 0, learnBlock := 0, hostTag := 0 }

/-- A pass group of `n` rows. -/
def freshGroup (n : Nat) : GroupRun :=
  { start := 0, count := n, intake := false, filled := 0, tiles := 0, firstPass := 0, drained := [], criticDone := false
    inbox := [], sent := [], residual := none, faults := [], missed := [], ended := [], secondPass := false
    written := false, acknowledged := false }

/-- A score block with temperature 1, top_p 1, repetition 1 (table 7.2). -/
def plainScore : Bytes :=
  toLe 8 0 ++ toLe 4 0x3F800000 ++ toLe 4 0x3F800000 ++ toLe 16 0 ++ toLe 4 0x3F800000 ++ toLe 92 0

/-- A row not yet admitted that holds the plain score block and, where it learns, one that writes its operand. -/
def rowOf (d : RowDesc) : RowRun :=
  { RowRun.of State.reset [] with
    desc := d
    held :=
      { score := ScoreParams.parse plainScore, learn := LearnParams.parse (if d.learning then [4] else [])
        lists := { bias := [], allowed := [], banned := [] }, listsValid := true, bitmask := [] } }

/-- A step of one group of these rows. -/
def stepOf (ds : List RowDesc) (admitted : Bool) : StepRun :=
  { admitted := admitted, manifest := 4096, begun := 900, byGo := false, wake := 0, mode := 0, riderFraction := 128
    head := { rowCount := ds.length, groups := [ds.length], deadline := 0, number := 1, time := 0, bouquet := 8192
              alternatives := 12288, summary := 16384 }
    readErrors := [], blocks := [], rows := ds.map rowOf, groups := [freshGroup ds.length], finals := [], estimate := 0
    admittedTime := 0, record := 0, takeover := false, split := false, stepStatus := 0, bloomsReady := 0, laneCycles := 0
    endTime := 0, endCycles := 0, summaryDone := false, spill := 0, places := [], lost := [], heard := [], quiet := 0
    rerun := false }

/-- `live` with a running step. -/
def inStep (r : StepRun) : State := { live with steps := { live.steps with run := some r } }

/-- One brick of vocabulary, held by this unit alone. -/
def oneBrick (s : State) : State :=
  { s with dict := { s.dict with applied := [(0x501002, 0x8000), (0x501004, 4096)] } }

/-- Changes the one group of the running step. -/
def grouped (f : GroupRun → GroupRun) (r : StepRun) : StepRun := { r with groups := r.groups.map f }

/-- A manifest of one row (tables 14.3, 14.4). -/
def smallManifest : Bytes :=
  toLe 4 0x53544550 ++ toLe 2 1 ++ toLe 2 1 ++ toLe 1 1 ++ toLe 7 0 ++ toLe 8 7 ++ toLe 8 0 ++ toLe 8 8192 ++ toLe 8 12288 ++
  toLe 8 16384 ++ toLe 8 0 ++ toLe 2 1 ++ toLe 190 0 ++ toLe 1 3 ++ toLe 1 3 ++ toLe 1 0 ++ toLe 1 2 ++ toLe 60 0

theorem test_begin_premises :
    let s : State := { withRw [(0x207001, 4096)] with steps := { live.steps with held := some (999, false, 0) } }
    s.steps.held = some (999, false, 0) ∧ s.beginDue = true ∧ headerValid smallManifest = true ∧
      headerValid (toLe 256 0) = false ∧
      after (.stepBegin []) s (fun t => t.steps.run.map fun r => r.rows.length) none = some 0 := by decide

/-- A step of the small manifest: its number, its row. -/
theorem test_begin_reads_rows :
    let s : State := { withRw [(0x207001, 4096)] with
      steps := { live.steps with held := some (999, false, 0) }
      mem := writeMem [] 4096 smallManifest }
    after (.stepBegin []) s (fun t => t.steps.run.map fun r => (r.rows.map (·.desc.kind), r.head.number, r.head.summary)) none =
      some ([3], 7, 16384) := by decide +kernel

theorem test_admission_premises :
    let r := stepOf [plainDesc] false
    let n : State := { inStep r with steps := { (inStep r).steps with anyNumber := false, lastNumber := 3 } }
    r.admitted = false ∧ (inStep r).portsUp = true ∧ (inStep r).laneRuns = true ∧ (inStep r).laneResettable = true ∧ (inStep r).manifestStatus r = 0 ∧
      { r with readErrors := [.manifest] }.readErrors.contains .manifest = true ∧ { r with rows := [] }.rows = [] ∧
      n.steps.anyNumber = false ∧ r.head.number ≠ (n.steps.lastNumber + 1) % 2 ^ 64 ∧ r.head.alternatives ≠ 0 ∧
      after (.admission []) n (·.steps.lastStatus) 0 = 0x0E21 := by decide +kernel

theorem test_admission_settles :
    after (.admission []) (inStep (stepOf [plainDesc] false)) (fun t => (t.steps.lastNumber, t.steps.run.map (·.admitted))) (0, none) =
      (1, some true) ∧
    ((placeBudgets 0 (inStep (stepOf [plainDesc] false))).admitAll (stepOf [plainDesc] false)).done.map (·.1) = [0] := by
  decide +kernel

/-- A row as admission meets it. -/
def candOf (d : RowDesc) (i : Nat) : Cand := { index := i, group := 0, reserved := false, d := d, held := (rowOf d).held }

/-- A row of a chain of one bud. -/
def budDesc (i : Nat) : RowDesc :=
  { plainDesc with
    kind := 2, external := false, second := some 1, chainLength := 1, chainIndex := i, noContext := false, position := i
    token := (if i = 0 then 7 else 0xFFFFF), hidden2 := (if i = 0 then 64 else 0) }

/-- Units of admission: a row refused for its tenant's context, a chain, one cut short, one whose slot is held, one too late;
a manifest without a place for alternatives. -/
theorem test_refusal_premises :
    let r := stepOf [budDesc 0, budDesc 1] false
    let s := oneBrick (inStep r)
    let unit := [candOf (budDesc 0) 0, candOf (budDesc 1) 1]
    let held : Adm := { Adm.start with admitted := [candOf { plainDesc with kind := 1 } 0] }
    let q : StepRun := { stepOf [{ plainDesc with alternatives := 1 }] false with
      head := { (stepOf [plainDesc] false).head with alternatives := 0 } }
    (candOf plainDesc 0).d.kind ≠ 2 ∧ (budDesc 0).kind = 2 ∧ s.checkForm r (candOf (budDesc 0) 0) = 0 ∧
      s.chainMalformed unit = false ∧ s.chainMalformed [candOf (budDesc 0) 0] = true ∧ held.holds 0 = true ∧
      (s.admitUnit r Adm.start unit).done = [(0, 0x0D02), (1, 0x0D02)] ∧
      (s.admitUnit r Adm.start [candOf (budDesc 0) 0]).done = [(0, 0x0B01)] ∧
      (s.admitUnit r held unit).done = [(0, 0x0B02), (1, 0x0B02)] ∧
      (s.admitUnit r { Adm.start with late := true } unit).done = [(0, 0x0E06), (1, 0x0E06)] ∧
      after (.admission []) (inStep q) (·.steps.lastStatus) 0 = 0x0E20 := by decide +kernel

/-- The reasons of a row on its own, in order: a tenant that is disabled comes before a missing vocabulary. -/
theorem test_refusal_order :
    let s : State := { inStep (stepOf [plainDesc] false) with dict := { live.dict with applied := [(0x400001, 0)] } }
    firstFailing (s.refusals (stepOf [plainDesc] false) Adm.start (candOf plainDesc 0)) = 0x0E03 ∧
      firstFailing (live.refusals (stepOf [plainDesc] false) Adm.start (candOf plainDesc 0)) = 0x0A06 := by decide +kernel

theorem test_intake_premises :
    let r := stepOf [plainDesc] true
    (inStep r).steps.run = some r ∧ (inStep r).group 0 = some (freshGroup 1) ∧ (inStep r).intakeDue 0 = true ∧
      r.rows[0]? = some (rowOf plainDesc) ∧ (rowOf plainDesc).desc.external = true ∧
      ({ rowOf plainDesc with refusal := 5 } : RowRun).refusal ≠ 0 ∧ 0 + (freshGroup 1).count ≤ 1 ∧
      after (.intakeEnd 0 []) (inStep r) (fun t => (t.group 0).map (·.intake)) none = some true := by decide +kernel

/-- A row of the head in slot 0, in its group after intake. -/
def headStep : StepRun := grouped (fun g => { g with intake := true }) (stepOf [{ plainDesc with external := false }] true)

theorem test_tile_premises :
    let s := oneBrick (inStep headStep)
    let g : GroupRun := { freshGroup 1 with intake := true }
    let slow (n : Nat) : State := { s with sensing := { s.sensing with slowLoads := n } }
    s.group 0 = some g ∧ s.exchangeDue 0 = true ∧ s.upkeep.hsPass = none ∧ (40 : Nat) ≤ 40 ∧ s.lanes.shadow = none ∧
      ({ s with lanes := { s.lanes with shadow := some (s.readTile 0 0) } } : State).lanes.shadow = some (s.readTile 0 0) ∧
      after (.tileExchange 0 41 []) (slow 14) (·.sensing.slowLoads) 0 = 15 ∧
      after (.tileExchange 0 41 []) (slow 15) (fun t => (t.sensing.slowLoads, t.events.events.map (·.code))) (9, []) =
        (0, [0x0307]) ∧
      after (.tileExchange 0 40 []) (slow 15) (·.sensing.slowLoads) 9 = 0 := by decide +kernel

/-- A tile read while the pass of HS_RAIL_FAULT runs: the row ends MEMORY_UNCORRECTABLE, its slot is to fail. -/
theorem test_bad_tile_premises :
    let s := oneBrick (inStep headStep)
    let b : State := { s with lanes := { s.lanes with shadow := some { s.readTile 0 0 with bad := true } } }
    (b.lanes.shadow.any fun t => t.bad && t.slot == 0 && t.frame == 0) = true ∧
      after (.tileExchange 0 0 []) b (fun t => (t.stepRows.map (·.status), (t.head 0).failing)) ([], false) =
        ([0x1120], true) := by decide +kernel

/-- The first tile takes the lanes, the second its shadow set; a buffer begins, a sum for each lane. -/
theorem test_tile_takes_lanes :
    after (.tileExchange 0 41 []) (oneBrick (inStep headStep))
      (fun t => [(t.lanes.active.map (·.frame)).getD 9, (t.lanes.shadow.map (·.frame)).getD 9, t.lanes.buffers.length,
        ((t.lanes.buffers.flatMap (·.sums)).headD []).length]) [] = [0, 1, 1, 4096] := by decide +kernel

theorem test_drain_premises :
    let s := oneBrick (inStep (grouped (fun g => { g with filled := 1 }) headStep))
    let c : StepRun := grouped (fun g => { g with intake := true, filled := 3, drained := [(0, [RowBrick.none])] })
      (stepOf [{ plainDesc with external := false, critic := some 1 }] true)
    s.drainDue 0 0 = true ∧ (0 : Nat) ≠ 256 ∧ (oneBrick (inStep c)).drainDue 0 256 = true ∧
      (c.groups.all fun g => ((oneBrick (inStep c)).critics c g []).map (·.1) == [0]) = true := by decide +kernel

/-- An Heirloom group's course drains twice: the first pass comes first. -/
theorem test_first_pass_premises :
    let r : StepRun := { grouped (fun g => { g with filled := 1 }) headStep with mode := 2 }
    let s := oneBrick (inStep r)
    (s.group 0).any (s.maximumDue r ·) = true ∧ s.drainDue 0 0 = true ∧
      ((oneBrick (inStep headStep)).group 0).any ((oneBrick (inStep headStep)).maximumDue headStep ·) = false ∧
      after (.brickDrain 0 0 []) s (fun t => (t.group 0).map fun g => (g.firstPass, g.drained.length)) none = some (1, 0) := by
  decide +kernel

/-- What a drained brick gives a row with two sampling candidates. -/
def twoCandidates : RowBrick :=
  { main :=
      { part := { Partial.zero with zs := w40One, zr := w40One, candidates := 2 }
        entries := [⟨5, some 0, some 0, 0⟩, ⟨9, some 0xBF800000, some 0xBF800000, 0⟩] }
    second := some
      { part := { Partial.zero with zs := w40One, zr := w40One, candidates := 1 }, entries := [⟨7, some 0, some 0, 0⟩] } }

/-- A chain of two rows whose first bud, token 7, the primary slot does not hold. -/
def chainStep : StepRun :=
  let d (i : Nat) : RowDesc :=
    { plainDesc with kind := 2, external := false, second := some 1, token := if i = 0 then 7 else 0, chainLength := 1
                     chainIndex := i, scoreBlock := 4096 }
  grouped (fun g => { g with intake := true, drained := [(0, [twoCandidates, twoCandidates])] }) (stepOf [d 0, d 1] true)

/-- A learning row that writes its operand, its group written. -/
def learnStep : StepRun :=
  grouped (fun g => { g with written := true })
    (stepOf [{ plainDesc with external := false, learnBlock := 4096 }] true)

theorem test_residual_premises :
    (oneBrick (inStep chainStep)).residualDue 0 = true := by
  decide +kernel

/-- Sixteen slow loads of a pass, and one more that is not. -/
theorem test_pass_loads :
    let t := noteLoads (List.replicate 16 41) live
    live.sensing.slowLoads = 0 ∧ t.events.events.map (·.code) = [0x0307] ∧
      (noteLoads (List.replicate 16 41 ++ [7]) live).sensing.headLatency = 7 ∧
      (noteLoads ([41] ++ [40]) live).sensing.slowLoads = 0 := by decide +kernel

theorem test_second_pass_premises :
    (oneBrick (inStep learnStep)).secondDue 0 = true := by decide +kernel

/-- A void row's group ends: its bloom bears the status and no alternatives. -/
theorem test_group_end_premises :
    let r := stepOf [{ plainDesc with alternatives := 2 }] true
    let v : View := { s := inStep r, r := r, g := 0, gr := freshGroup 1 }
    let f := v.finalOf [voidClaim 0 0x0502] [] (0, rowOf { plainDesc with alternatives := 2 })
    v.rows = [(0, rowOf { plainDesc with alternatives := 2 })] ∧ v.r.record = v.me ∧ f.status ≠ 0 ∧
      f.alternatives = [] ∧ f.bloom.length = 128 := by decide +kernel

/-- Two rows, one that ended OK: their places do not meet. -/
theorem test_group_end_places :
    let r := stepOf [{ plainDesc with alternatives := 2 }, plainDesc] true
    let v : View := { s := inStep r, r := r, g := 0, gr := freshGroup 2 }
    v.r.record = v.me ∧ Memory.wf (inStep r).mem = true ∧ v.rows.length = 2 ∧
      (v.rows.all fun x => decide (v.gr.start + x.1 < 2) && decide (x.2.desc.alternatives ≤ 64)) = true ∧
      v.r.head.bouquet + 128 * 2 ≤ v.r.head.alternatives := by decide +kernel

/-- The merge list, from which τ comes, is formed before τ is known; a walk waits for it (R255, R261). -/
theorem test_merge_list_waits_for_nothing :
    let d : RowDesc := { plainDesc with kind := 1 }
    let r := grouped (fun g => { g with drained := [(0, [twoCandidates])] }) (stepOf [d] true)
    let x : RowRun := { rowOf d with held := { (rowOf d).held with score := { (rowOf d).held.score with minP := 0x3E800000 } } }
    let v : View := { s := oneBrick (inStep r), r := { r with record := 1 }, g := 0, gr := freshGroup 1 }
    let p := mainPath (0, x)
    v.tau p = none ∧ v.bound p p.list = some none ∧ v.bound p (p.walk 5) = none := by decide +kernel

/-- Under a deep cutoff with top_k 2 the second member still belongs to C3 (R246), and a third does not. -/
theorem test_deep_cut_keeps_second :
    let p (t : Nat) (s : F32) : Petal := { void := false, second := false, bucket := bucketOf s, token := t, score := s, key := 0 }
    let i : SelIn :=
      { params := { ScoreParams.parse plainScore with topK := 2 }, total := Partial.zero
        merged := [p 5 0x43FA0000, p 9 0x42C80000], bins := [], tau := 0 }
    let c := i.deepCut 0x43FA0000 2 (bucketOf 0x42C80000)
    c.has 0x42C80000 9 = true ∧ c.has 0x42C80000 10 = false := by decide +kernel

theorem test_acknowledgement_premises :
    let g : GroupRun := { freshGroup 1 with written := true }
    let r := grouped (fun _ => g) (stepOf [plainDesc] true)
    (inStep r).group 0 = some g ∧ (inStep r).portsUp = true ∧ (inStep r).laneRuns = true ∧ r.record = (inStep r).address ∧ g.acknowledged = false ∧ r.groups.take 0 = [] ∧
      after (.passGroupBloomsAcknowledged 0) (inStep r) (fun t => (t.stepState, readMem t.mem 16384 5)) (0, []) =
        (3, [1, 0, 0, 0, 2]) := by decide +kernel

theorem test_summary_premises :
    let w : GroupRun := { freshGroup 1 with written := true, acknowledged := true }
    let r := grouped (fun _ => w) (stepOf [plainDesc] true)
    r.admitted = true ∧ r.summaryDone = false ∧ (∀ x ∈ r.groups, x.written = true ∧ x.acknowledged = true) ∧
      ({ r with record := 9 } : StepRun).record ≠ (inStep r).address ∧ learnStep.emitRows (freshGroup 1) ≠ [] ∧
      r.emitRows w = [] ∧ (∃ x ∈ (stepOf [plainDesc] true).groups, x.written = false) := by decide +kernel

theorem test_boundary_premises :
    let r : StepRun := { stepOf [plainDesc] true with summaryDone := true, stepStatus := 0x1130 }
    r.summaryDone = true ∧ (inStep r).portsUp = true ∧ (inStep r).laneRuns = true ∧ (inStep r).steps.latched = none ∧
      (inStep r).contexts.batches = [] ∧ (inStep r).restore.requested = false ∧
      after (.stepBoundary []) (inStep r) (fun t => (t.steps.run.isSome, t.steps.lastStatus)) (true, 0) = (false, 0x1130) := by
  decide +kernel

/-- A step of a row of tenant 3's slot 7 that appends token 9; slot 8 is being cancelled, slot 1 of the heads is Finished,
slot 2 held. -/
def endingStep : State :=
  let r : StepRun := { stepOf [{ plainDesc with kind := 1, noContext := false, slot := 7, tenant := 3 }] true with
    summaryDone := true
    finals := [{ index := 0, status := 0, appended := [9], accepted := false, bloom := [], alternatives := [] }] }
  let c : Context :=
    { state := 1, cancelPending := false, tenant := 3, seed := 11, automaton := 0, automatonState := noState, leaf := 0
      opened := 0, expiry := 0, timeToLive := 0, lastStep := 0, provisional := 2, copying := [] }
  { inStep r with
    dict := { live.dict with applied := [(0x205002, 40960)] }
    heads := [.empty, { HeadSlot.empty with state := 3 }, { HeadSlot.empty with state := 2 }, .empty]
    contexts := { live.contexts with
      slots := [(7, c), (8, { c with cancelPending := true, leaf := 1 })]
      nodes := [(0, { parent := none, refs := 1, tokens := [(4, noState)], pages := [0, 1, 2], paused := false }),
                (1, { parent := none, refs := 1, tokens := [], pages := [3], paused := false })]
      nextNode := 2, reservedPages := 3
      budgets := [(3, { used := 5, reserved := 1, period := 0 })]
      batches := [(3, { state := 1, addr := 64, count := 2, done := 1, copies := [], held := false, listError := false })] } }

theorem test_boundary_actions :
    endingStep.boundaryDue = true ∧ endingStep.working = true ∧ endingStep.restore.requested = false ∧
      endingStep.dict.commitState ≠ 1 ∧ (endingStep.budget 3).used < 2 ^ 64 ∧ endingStep.heads.length = 4 ∧
      endingStep.upkeep.bistWaiting = false ∧ (endingStep.contexts.batches.all fun e => !e.2.held) = true ∧
      (endingStep.context 8).any (·.cancelPending) = true ∧
      after (.stepBoundary [] []) endingStep (fun t => (t.contexts.slots.map fun e => (e.1, e.2.provisional, e.2.lastStep),
        (t.node 0).tokens, (t.budget 3).used, t.heads.map (·.state), t.contexts.reservedPages)) ([], [], 0, [], 9) =
        ([(7, 0, 1)], [(4, noState), (9, noState)], 6, [0, 4, 4, 0], 0) ∧
      after (.stepBoundary [] []) endingStep (fun t => t.events.events.any fun e => e.code == 0x0E10 && e.argWide == 1) false =
        true := by decide +kernel

/-- The same without batches or cancels: the appending slot has its leaf alone. -/
theorem test_boundary_append_premises :
    let s : State := { endingStep with contexts := { endingStep.contexts with
      batches := [], slots := endingStep.contexts.slots.take 1 } }
    s.contexts.batches = [] ∧ (s.contexts.slots.all fun e => !e.2.cancelPending) = true ∧
      (s.context 7).any (fun c => c.automatonState == noState && decide (c.leaf < s.contexts.nextNode)) = true ∧
      (s.steps.run.any fun r => (r.finals.filter fun f => (r.rows[f.index]?).any fun x =>
        !x.desc.noContext && x.desc.slot == 7).length == 1) = true ∧
      (s.node 0).tokens.length + 1 ≤ 65536 := by decide +kernel

/-! ### Swaps and installs -/

/-- `live` with a head slot 0 in a state. -/
def headIn (n : Nat) : State := { live with heads := [{ HeadSlot.empty with state := n }, .empty, .empty, .empty] }

theorem test_swap_premises :
    live.takesWrite (.mesh 9 1) 0x20200C = true ∧ live.takesWrite .mirror 0x20230D = true ∧
      (headIn 1).takesWrite .mirror 0x20200C = true ∧ (live.captureLayout 0).swapValid (live.otherFrames 0) = false ∧
      (headIn 4).stepReads 0 = false ∧
      (let s := withRw [(0x202005, 64), (0x202006, 1)]
       (s.captureLayout 0).swapValid (s.otherFrames 0) = true ∧
        after (.swapGo (.mesh 9 1) 0 0x53574150) s (fun t => ((t.head 0).state, (t.head 0).frames)) (9, 9) = (1, 1)) ∧
      (let s : State := { headIn 4 with steps := { live.steps with run := some headStep } }
       s.stepReads 0 = true ∧ after (.swapGo .mirror 0 0x53574150) s (fun t => (t.head 0).state) 9 = 2) := by decide +kernel

theorem test_swap_abort_premises :
    (headIn 1).head 0 = { HeadSlot.empty with state := 1 } ∧
      after (.swapAbort .mirror 0 0x41425254) (headIn 1) (fun t => (t.head 0).state) 9 = 0 ∧
      after (.swapAbort .mirror 0 0x41425254) (headIn 3) (fun t => (t.head 0).state) 9 = 0 ∧
      after (.swapAbort .mirror 0 0x41425254) (headIn 2) (fun t => (t.head 0).state) 9 = 4 ∧
      after (.swapAbort .mirror 0 0x41425254) (headIn 4) (fun t => (t.head 0).state) 9 = 4 := by decide +kernel

theorem test_swap_done_premises :
    ((headIn 1).head 0).state = 1 ∧ (headIn 1).laneRuns = true ∧ (headIn 1).runsSteps = true ∧ after (.swapDone 0 []) (headIn 1) (fun t => (t.head 0).state) 9 = 4 ∧
      after (.swapDone 0 []) { headIn 1 with steps := { live.steps with run := some headStep } }
        (fun t => (t.head 0).state) 9 = 3 := by decide +kernel

theorem test_install_premises :
    let b : State := { live with fseq := { live.fseq with installing := some .factory } }
    let w : State := { live with fseq := { live.fseq with buffer := .factory } }
    live.takesWrite .mirror 0x600102 = true ∧ live.takesWrite (.mesh 0xFE 0) 0x600103 = true ∧ b.writerBusy = true ∧
      b.takesWrite .mirror 0x600102 = true ∧ b.takesWrite .mirror 0x600103 = true ∧ w.writerBusy = false ∧
      w.takesWrite .mirror 0x600102 = true ∧ w.fseq.buffer.fails = 0 ∧
      after (.imageInstalled false) b (fun t => (t.fseq.installState, t.nvm.image)) (0, .factory) = (4, .zeros) ∧
      after (.imageInstalled true) b (fun t => (t.fseq.installState, t.nvm.image)) (0, .zeros) = (2, .factory) := by
  decide +kernel

/-! ### Contexts -/

/-- An Open context of tenant 3 whose leaf is node 0. -/
def openContext : Context :=
  { state := 1, cancelPending := false, tenant := 3, seed := 11, automaton := 0, automatonState := noState, leaf := 0
    opened := 0, expiry := 0, timeToLive := 0, lastStep := 0, provisional := 0, copying := [] }

/-- A context command record (table 13.4). -/
def recordOf (op slot arg n : Nat) : Bytes :=
  toLe 2 op ++ toLe 2 slot ++ toLe 4 0 ++ toLe 8 arg ++ toLe 4 n ++ toLe 12 0

/-- Tenant 3's batch of one record at 64, with a list of token 5 at 128; ten pages in each area. -/
def inBatch (r : Bytes) (slots : List (Nat × Context)) : State :=
  { live with
    dict := { live.dict with applied := [(0x205002, 40960), (0x205005, 40960), (0x501004, 4096)] }
    contexts := { live.contexts with
      slots := slots
      nodes := [(0, { parent := none, refs := 1, tokens := [(4, noState)], pages := [0, 1, 2], paused := false })]
      nextNode := 1
      batches := [(3, { Batch.idle with state := 1, addr := 64, count := 1 })] }
    mem := writeMem (writeMem [] 64 r) 128 (toLe 4 5) }

theorem test_batch_premises :
    let ok : State := withRw [(0x403F20, 64), (0x403F21, 4096)]
    live.takesWrite .mirror 0x400022 = true ∧ (inBatch [] []).takesWrite (.mesh 9 2) 0x400322 = true ∧
      ((inBatch [] []).batch 3).state = 1 ∧ ok.takesWrite .mirror 0x403F22 = true ∧ ok.restore.quiesced = 0 ∧
      live.rwVal 0x400021 = 0 ∧ (withRw [(0x400021, 4097)]).rwVal 0x400021 = 4097 ∧
      after (.contextBatchGo .mirror 63 0x43545842 []) ok (fun t => ((t.batch 63).state, (t.batch 63).count)) (0, 0) =
        (1, 4096) ∧
      after (.contextBatchGo .mirror 0 0x43545842 []) live (fun t => (t.batch 0).state) 0 = 4 := by decide +kernel

theorem test_batch_end_premises :
    let b : Batch := { Batch.idle with state := 1, addr := 64, count := 1, done := 1, copies := [(0, 9)] }
    let s : State := { live with contexts := { live.contexts with
      batches := [(3, b)], slots := [(3, { openContext with state := 3 })] } }
    (s.batch 3).done = (s.batch 3).count ∧ (s.batch 3).owns 0 = false ∧ runs (.contextBatchDone 3) s = true ∧
      s.context 3 = some { openContext with state := 3 } ∧
      ({ openContext with state := 3 } : Context).expiry ≤ s.now ∧
      after (.contextExpired 3) s (fun t => (t.context 3).isNone) false = true := by decide +kernel

/-- A Paused slot whose time to live has ended: a record that names it finds it freed. -/
theorem test_expired_record_premises :
    let s (op : Nat) : State := inBatch (recordOf op 7 (if op = 4 then 9 else 0) 0) [(7, { openContext with state := 3, expiry := 5 })]
    [2, 4, 5, 6].all (fun op => (s op).portsUp && (s op).nextRecord 3 == (64, CtxRecord.parse (recordOf op 7 (if op = 4 then 9 else 0) 0)) &&
      ((s op).nextRecord 3).2.valid && !(s op).recordHeld ((s op).nextRecord 3).2 && decide (5 ≤ (s op).now)) = true ∧
      after (.resume 3) (s 5) (fun t => (t.numAt 70 2, (t.context 7).isNone, t.counter 0x708006)) (9, false, 9) =
        (0x0D02, true, 1) := by decide +kernel

/-- The record is due as its op, without words in error and with one in another slot's word, which that loses. -/
theorem test_reads_record_premises :
    let s := inBatch (recordOf 5 7 0 0) [(7, { openContext with state := 3, expiry := 5000 }), (9, { openContext with leaf := 5 })]
    let e : EccHit := ⟨4, 32 * 9, true, 0, false, []⟩
    s.recordDue 3 5 = true ∧ s.readsRecord s 3 5 [] ∧ s.readsRecord (readHits [e] s) 3 5 [e] ∧
      ((readHits [e] s).context 9).isNone = true ∧ (readHits [e] s).nextRecord 3 = s.nextRecord 3 ∧
      after (.resume 3 [e]) s (fun t => ((t.context 7).map (·.state), (t.context 9).isNone, t.counter 0x70A104)) (none, false, 0) =
        (some 4, true, 1) := by
  refine ⟨?_, ⟨?_, rfl⟩, ⟨?_, rfl⟩, ?_⟩ <;> decide +kernel

theorem test_held_record_premises :
    let s (op : Nat) : State :=
      { inBatch (recordOf op 7 (if op = 4 then 9 else 0) (if op = 3 then 1 else 0)) [(7, openContext)] with
        steps := { live.steps with run := some (stepOf [{ plainDesc with noContext := false, slot := 7 }] true) } }
    (s 2).recordDue 3 2 = true ∧ (s 3).recordDue 3 3 = true ∧ (s 4).recordDue 3 4 = true ∧ (s 5).recordDue 3 5 = true ∧
      (s 2).recordHeld ((s 2).nextRecord 3).2 = true ∧ (s 5).recordHeld ((s 5).nextRecord 3).2 = true := by decide +kernel

/-- The record at 64 runs and ends; the rest of a record's premises. -/
def recordRuns (s : State) (op : Nat) : Bool :=
  s.portsUp && (s.batch 3).state == 1 && decide ((s.batch 3).done < (s.batch 3).count) && (s.nextRecord 3).1 == 64 &&
    (s.nextRecord 3).2.valid && !s.recordHeld (s.nextRecord 3).2 && (s.nextRecord 3).2.op == op &&
    (s.context (s.nextRecord 3).2.slot).all fun c => c.state != 3 || decide (s.now < c.expiry)

theorem test_foreign_record_premises :
    let s (op : Nat) := inBatch (recordOf op 8191 (if op = 4 then 1 else 0) 0) []
    recordRuns (s 2) 2 = true ∧ recordRuns (s 4) 4 = true ∧ recordRuns (s 5) 5 = true ∧ recordRuns (s 6) 6 = true ∧
      (s 6).contextOf 3 8191 = none ∧
      (let a := inBatch (recordOf 3 8191 128 1) []
       recordRuns a 3 = true ∧ wordList a.mem 128 1 = [5] ∧ 5 < a.vocab) ∧
      after (.cancel 3) (s 6) (fun t => t.numAt 70 2) 0 = 0x0D02 := by decide +kernel

/-- The lowest key behind a run of keys without a gap. -/
theorem lowestKey_run {α : Type} (c : α) (n i : Nat) : lowestKey ((List.range' i n).map fun k => (k, c)) i = i + n := by
  induction n generalizing i with
  | zero => rfl
  | succ n ih => simp only [List.range'_succ, List.map_cons, lowestKey, ih, if_true]; omega

/-- Every slot taken: an OPEN, and a FORK of slot 0. -/
def fullTable (op : Nat) : State := inBatch (recordOf op 0 77 0) ((List.range' 0 8192).map fun k => (k, openContext))

theorem test_full_table_premises :
    (fullTable 1).freeSlotNumber = none ∧ (fullTable 2).freeSlotNumber = none ∧
      (fullTable 1).readsRecord (fullTable 1) 3 1 [] ∧ (fullTable 2).readsRecord (fullTable 2) 3 2 [] ∧
      recordRuns (fullTable 1) 1 = true ∧ recordRuns (fullTable 2) 2 = true ∧
      (fullTable 2).contextOf 3 0 = some openContext ∧ openContext.cancelPending = false ∧ openContext.state = 1 := by
  refine ⟨?_, ?_, ⟨?_, rfl⟩, ⟨?_, rfl⟩, ?_, ?_, ?_, rfl, rfl⟩
  · simp only [State.freeSlotNumber, fullTable, inBatch, lowestKey_run]; rfl
  · simp only [State.freeSlotNumber, fullTable, inBatch, lowestKey_run]; rfl
  all_goals decide +kernel

theorem test_open_premises :
    let s := inBatch (recordOf 1 0 77 0) [(0, openContext)]
    recordRuns s 1 = true ∧ s.freeSlotNumber = some 1 ∧ (s.nextRecord 3).2.automaton = 0 ∧ 1 ≤ s.historyFree ∧
      s.automaton 0 = none ∧
      after (.openCtx 3) s (fun t => (t.numAt 70 2, t.numAt 86 2, (t.context 1).map (·.seed))) (9, 9, none) =
        (0, 1, some 77) := by decide +kernel

theorem test_fork_premises :
    let s := inBatch (recordOf 2 7 5 0) [(7, openContext)]
    recordRuns s 2 = true ∧ s.contextOf 3 7 = some openContext ∧ s.freeSlotNumber = some 0 ∧
      (s.forkNeed openContext).2 ≤ 64 ∧ (s.forkNeed openContext).1 ≤ s.historyFree ∧
      after (.fork 3) s (fun t => ((t.context 0).map (·.seed), t.numAt 88 4)) (none, 0) = (some 5, 1) := by decide +kernel

theorem test_append_premises :
    let s := inBatch (recordOf 3 7 128 1) [(7, openContext)]
    recordRuns s 3 = true ∧ s.contextOf 3 7 = some openContext ∧ (s.batch 3).listError = false ∧
      wordList s.mem 128 1 = [5] ∧ 5 < s.vocab ∧ s.lengthOf openContext + 1 ≤ 1048576 ∧
      (s.node 0).tokens.length + 1 ≤ 65536 ∧ (s.appendNeed openContext [5]).2 = 0 ∧
      (s.appendNeed openContext [5]).1 ≤ s.historyFree ∧
      after (.append 3) s (fun t => (t.node 0).tokens) [] = [(4, noState), (5, noState)] := by decide +kernel

theorem test_pause_premises :
    let s := inBatch (recordOf 4 7 9 0) [(7, openContext)]
    let u (n : Nat) : State := inBatch (recordOf 5 7 0 0) [(7, { openContext with state := n, expiry := 5000 })]
    recordRuns s 4 = true ∧ s.privatePages openContext ≤ s.pauseFree ∧ recordRuns (u 3) 5 = true ∧
      recordRuns (u 1) 5 = true ∧ (u 3).privatePages { openContext with state := 3, expiry := 5000 } ≤ (u 3).historyFree ∧
      s.laneRuns = true ∧ ({ (u 4) with contexts := { (u 4).contexts with batches := [] } } : State).contexts.batches = [] ∧
      after (.pause 3) s (fun t => (t.context 7).map (·.state)) none = some 2 ∧
      after (.resume 3) (u 3) (fun t => (t.context 7).map (·.state)) none = some 4 ∧
      after (.pauseCopyDone 7) (u 2) (fun t => (t.context 7).map (·.state)) none = some 3 ∧
      after (.resumeCopyDone 7) (u 4) (fun t => (t.context 7).map (·.state)) none = some 1 := by decide +kernel

/-- Tenant 3's slot 7 copies for the record at 64, which is behind the batch's next one. -/
def copyingFor (n : Nat) : State :=
  let s := inBatch (recordOf 6 7 0 0) [(7, { openContext with state := n })]
  { s with contexts := { s.contexts with
      batches := [(3, { Batch.idle with state := 1, addr := 32, count := 2, done := 1, copies := [(32, 7), (128, 6)] })] } }

/-- The copy's record has its results, its batch holds the other copy. -/
theorem test_copy_end_premises :
    (copyingFor 2).copiesOf 7 = [(3, 32)] ∧ (copyingFor 2).portsUp = true ∧ (copyingFor 2).laneRuns = true ∧
      after (.pauseCopyDone 7) (copyingFor 2) (fun t => ((t.batch 3).copies, t.numAt 54 2, t.numAt 56 4)) ([], 0, 0) =
        ([(128, 6)], 7, 1) ∧
      after (.resumeCopyDone 7) (copyingFor 4) (fun t => ((t.batch 3).copies, t.numAt 54 2, t.numAt 56 4)) ([], 0, 0) =
        ([(128, 6)], 7, 1) ∧
      recordRuns (copyingFor 2) 6 = true ∧ (copyingFor 2).readsRecord (copyingFor 2) 3 6 [] := by
  refine ⟨?_, ?_, ?_, ?_, ?_, ?_, ?_, rfl⟩ <;> decide +kernel

theorem test_cancel_premises :
    let s := inBatch (recordOf 6 7 0 0) [(7, openContext)]
    let u : State := { s with steps := { live.steps with run := some (stepOf [plainDesc] true) } }
    recordRuns s 6 = true ∧ recordRuns u 6 = true ∧ (s.batch 3).copies = [] ∧ s.steps.run = none ∧ u.steps.run ≠ none ∧
      after (.cancel 3) s (fun t => (t.context 7).isSome) true = false ∧
      after (.cancel 3) u (fun t => (t.context 7).map (·.cancelPending)) none = some true := by decide +kernel

/-! ### Network and mortar -/

/-- Its outcome is tried, and the premises of its clause hold. -/
def errs (s : State) (port : Nat) (w : Transaction) : Bool :=
  s.portsUp && portFits port w && s.outstanding w && runs (.networkErrorResponse port w) s

theorem test_network_error_premises :
    let a : State := inStep (stepOf [plainDesc] false)
    let b : State := inStep (stepOf [plainDesc] true)
    let k : State := inBatch (recordOf 3 7 128 1) [(7, openContext)]
    let h : State := { live with heads := { HeadSlot.empty with state := 1, next := { SlotLayout.empty with bricks := 1 } } :: live.heads.drop 1 }
    errs a 0 .manifest = true ∧ errs a 0 (.headParams 3) = true ∧ errs a 0 (.scoreParams 0) = true ∧
      errs a 0 (.learnParams 0) = true ∧ errs a 0 (.rowData [0]) = true ∧ errs a 1 (.historyRead [0]) = true ∧
      errs b 0 (.bloomWrite 8192) = true ∧ errs b 2 (.gradientWrite 8192) = true ∧ errs k 0 (.commandRead 3) = true ∧ errs k 0 (.commandWrite 3 64) = true ∧
      errs k 0 (.tokenList 3) = true ∧ errs h 3 (.swapRead 0 7) = true ∧ errs h 0 (.swapParams 0) = true ∧ errs k 1 (.historyWrite 7 0) = true ∧
      State.reset.portsUp = false ∧ portFits 1 (.swapRead 0 7) = false ∧ live.outstanding .manifest = false ∧
      a.steps.run.any (!·.admitted) = true ∧
      after (.networkErrorResponse 0 (.tokenList 3)) k (fun t => (t.batch 3).listError) false = true ∧
      after (.networkErrorResponse 2 (.gradientWrite 8192)) b (fun t => t.steps.run.map (·.stepStatus)) none = some 0x1130 := by
  decide +kernel

/-- After admission: rows of data, history and spill errors; a rerun's manifest; the record behind a history write. -/
theorem test_late_error_premises :
    let b : State := inStep (stepOf [plainDesc] true)
    let r : State := inStep { stepOf [plainDesc] true with rerun := true }
    let k : State := inBatch (recordOf 3 7 128 1) [(7, openContext)]
    let w : State := { k with
      contexts := { k.contexts with batches := [(3, { Batch.idle with state := 1, addr := 64, count := 2, done := 1 })] }
      mem := writeMem k.mem 86 (toLe 2 7) }
    errs b 0 (.rowData [0]) = true ∧ errs b 1 (.historyRead [0]) = true ∧ errs b 2 (.spillWrite [0] 64) = true ∧
      errs b 2 (.spillRead [0]) = true ∧ errs r 0 .manifest = true ∧ r.laneResettable = true ∧ errs w 1 (.historyWrite 7 0) = true ∧
      after (.networkErrorResponse 0 (.rowData [0])) b (fun t => t.stepRows.map (·.status)) [] = [0x1121] ∧
      after (.networkErrorResponse 2 (.spillRead [0])) b (fun t => t.stepRows.map (·.status)) [] = [0x0803] ∧
      after (.networkErrorResponse 0 .manifest) r (fun t => (t.steps.run.isNone, t.boundary.phase, t.steps.lastStatus))
        (false, .idle, 0) = (true, .draining, 0x0E22) ∧
      w.lastServes 3 7 64 7 ∧ w.copiesOf 7 = [] ∧
      after (.networkErrorResponse 1 (.historyWrite 7 0)) w (fun t => ((t.context 7).isNone, t.numAt 70 2)) (false, 0) =
        (true, 0x0D02) := by
  unfold State.lastServes
  decide +kernel

/-- Node 0 closed by a FORK of slot 7: leaf 1 of slot 7 and leaf 2 of slot 8, its record just run; one context opened. -/
def forked (op result : Nat) : State :=
  let b := inBatch (recordOf op 7 0 0) [(7, { openContext with leaf := 1 }), (8, { openContext with leaf := 2 })]
  let n (p : Option Nat) (refs : Nat) (ts : List (Nat × Nat)) : Node :=
    { parent := p, refs := refs, tokens := ts, pages := [], paused := false }
  { b with
    dict := { b.dict with counters := [(0x708001, 2)] }
    contexts := { b.contexts with
      nodes := [(0, n none 2 [(4, noState)]), (1, n (some 0) 1 []), (2, n (some 0) 1 [])], nextNode := 3
      batches := [(3, { Batch.idle with state := 1, addr := 64, count := 1, done := 1 })] }
    mem := writeMem b.mem 86 (toLe 2 result) }

/-- The slot lost is the child, the parent, an OPEN's own, an APPEND's. -/
theorem test_history_write_undone :
    let lost (op result slot : Nat) : List Nat :=
      let s := forked op result
      after (.networkErrorResponse 1 (.historyWrite slot 0)) s (fun t => [t.numAt 70 2, t.numAt 86 2, t.numAt 88 4,
        t.counter 0x708001, boolVal (t.context 7).isSome, boolVal (t.context 8).isSome, ((t.context 7).map (·.leaf)).getD 9]) []
    (forked 2 8).lastServes 3 8 64 8 ∧ (forked 2 8).lastServes 3 7 64 8 ∧ (forked 2 8).copiesOf 8 = [] ∧
      Memory.wf (forked 2 8).mem = true ∧ (forked 2 8).outstanding (.historyWrite 8 0) = true ∧
      ((forked 2 8).contexts.batches.filter fun e => between 1 e.2.state 2) = [(3, (forked 2 8).batch 3)] ∧
      lost 2 8 8 = [0x0D02, 7, 1, 1, 1, 0, 0] ∧ lost 2 8 7 = [0x0D02, 7, 0, 1, 0, 0, 9] ∧
      lost 1 7 7 = [0x0D02, 0, 0, 1, 0, 1, 9] ∧ lost 3 7 7 = [0x0D02, 7, 0, 2, 0, 1, 9] := by
  unfold State.lastServes
  decide +kernel

/-- An image of one chunk on its way to peer 3. -/
def oneChunk : SnapRun :=
  { partner := 3, epoch := 1, step := 1, full := true, forced := false, chunks := [{ kind := 5, payload := [1, 2] }], sent := 0
    placed := [], finalDigest := 0, slots := [], pages := [] }

/-- A restore from flash. -/
def restoring (src : Nat) : State :=
  { live with restore := { live.restore with
      quiesced := 1, state := 1
      run := some { source := src, epoch := 5, image := 0, next := 0, digests := [], prevEpoch := 0, reread := false } } }

theorem test_engine_error_premises :
    let n : State := { live with snapshot := { live.snapshot with run := some oneChunk } }
    let c : State := { live with contexts := { live.contexts with slots := [(7, { openContext with state := 4 })] } }
    let i : HoldIn := { epoch := 1, full := true, base := 64, next := 1, count := 2, writing := [[1]] }
    let h : State := { live with hold := { live.hold with receiving := some i } }
    errs n 3 .snapshotRead = true ∧ errs (restoring 2) 3 .restoreRead = true ∧ errs (restoring 2) 3 (.restoreWrite 64) = true ∧
      errs c 1 (.resumeRead 7) = true ∧
      errs { live with dict := { live.dict with commitState := 1 } } 1 .directoryRead = true ∧
      errs { live with hold := { live.hold with sending := some (0, 0) } } 3 .holdRead = true ∧
      errs h 3 (.holdWrite 64) = true ∧
      after (.networkErrorResponse 1 (.resumeRead 7)) c (fun t => (t.context 7).isNone) false = true := by decide +kernel

/-- `live` with Fabric Enable at 1 and peer 3 as given. -/
def onFabric (x : Peer) : State :=
  { withRw [(0x500002, 1)] with mortar := { live.mortar with peers := [(3, x)] } }

/-- A Present peer that expects and awaits sequence 9. -/
def friend : Peer := { Peer.unknown with state := 2, rxNext := some 9, txNext := 4 }

/-- A frame of peer 3. -/
def fromPeer (typ seq step : Nat) (payload : Bytes) : Bytes := frame typ 0 3 0 seq 0 step 0 payload

/-- The frame cut short of its check. -/
def damaged (m : Bytes) : Bytes := overwrite m 40 [255]

theorem test_link_premises :
    let s := onFabric friend
    let m (seq : Nat) := fromPeer 3 seq 0 (toLe 16 0)
    let q : State := { s with restore := { s.restore with quiesced := 1 } }
    typeFits 3 (m 9) = true ∧ State.reset.portsUp = false ∧ live.portsUp = true ∧ live.fabricOpen = false ∧
      s.fabricOpen = true ∧ q.quiesceAllows (msgType (m 9)) (msgSource (m 9)) = false ∧ typeFits 3 (damaged (m 9)) = true ∧
      frameGood (damaged (m 9)) = false ∧ frameGood (m 9) = true ∧ (s.peer (msgSource (m 9))).rxNext = some 9 ∧
      2 ^ 31 ≤ (msgSequence (m 8) + 2 ^ 32 - 9) % 2 ^ 32 ∧ (msgSequence (m 74) + 2 ^ 32 - 9) % 2 ^ 32 = 65 ∧
      (msgSequence (m 73) + 2 ^ 32 - 9) % 2 ^ 32 = 64 ∧ s.notReady (fromPeer 4 9 1 (toLe 48 0)) = true ∧
      after (.heartbeat (m 73)) s (fun t => (t.peer 3).rxHeld.map (·.1)) [] = [73] := by decide +kernel

theorem test_turn_premises :
    let s := onFabric friend
    let m := fromPeer 3 9 0 (toLe 8 1 ++ toLe 8 1)
    (s.quiesceAllows 3 (msgSource m) = true ∧ frameGood m = true ∧ msgType m = 3 ∧ (s.peer (msgSource m)).state ≠ 3 ∧
      (s.peer (msgSource m)).rxNext.getD (msgSequence m) = msgSequence m ∧ s.notReady m = false ∧ headerClear m = true ∧
      (s.peer (msgSource m)).rxHeld = [] ∧ zeroBytes (msgPayload m) 1 8 = true ∧ fieldAt (msgPayload m) 0 1 = 1) ∧
      after (.heartbeat m) s (fun t => ((t.peer 3).rxNext, (t.peer 3).roundTrip)) (none, none) = (some 10, some 999) := by
  decide +kernel

/-- A Silent peer's message is acknowledged and no more; with the lanes stopped an acknowledgement goes out late. -/
theorem test_unheard_and_late_premises :
    let s := onFabric { friend with state := 3 }
    let m := fromPeer 3 9 0 (toLe 16 0)
    s.fabricOpen = true ∧ s.quiesceAllows 3 (msgSource m) = true ∧ (s.peer 3).state = 3 ∧
      (s.peer 3).rxNext.getD (msgSequence m) = msgSequence m ∧ s.lanesStopped = false ∧ (stopped s).lanesStopped = true ∧
      after (.heartbeat m) s (fun t => (t.out.fabric.map msgType, (t.peer 3).rxNext, t.counter 0x705002)) ([], none, 9) =
        ([0xE0], some 10, 0) ∧
      after (.heartbeat m) (stopped s) (fun t => (t.out.fabric.length, t.mortar.late.map msgType)) (9, []) = (0, [0xE0]) := by
  decide +kernel

set_option maxRecDepth 100000 in
theorem test_peer_table_premises :
    let d := frame 1 1 3 4095 0 0 0 0 (toLe 8 2)
    let c := fromPeer 2 9 0 (toLe 80 0)
    let b := fromPeer 3 9 0 (toLe 16 0)
    let x (n : Nat) : Peer := { friend with state := n }
    (frameGood d = true ∧ msgType d = 1 ∧ bit (fieldAt d 1 1) 0 = true ∧ headerClear d = true ∧
      fieldAt (msgPayload d) 0 1 = 2 ∧ zeroBytes (msgPayload d) 1 8 = true) ∧
      (headerClear c = true ∧ fieldAt (msgPayload c) 2 2 < 64 ∧ zeroBytes (msgPayload c) 46 48 = true) ∧
      after (.discover d) (onFabric (x 0)) (fun t => ((t.peer 3).state, t.out.fabric.map msgType)) (9, []) = (1, [0xE0, 2]) ∧
      after (.caps c) (onFabric (x 1)) (fun t => ((t.peer 3).state, t.events.events.map (·.code))) (9, []) = (2, [0x0A09]) ∧
      after (.heartbeat b) (onFabric (x 2)) (fun t => t.out.fabric.map msgType) [] = [0xE0, 3] := by decide +kernel

theorem test_heartbeat_timer_premises :
    let x (n : Nat) : Peer := { friend with state := n }
    (onFabric (x 2)).mortar.peers = [(3, x 2)] ∧ (onFabric (x 2)).restore.quiesced = 0 ∧ (onFabric (x 2)).steps.run = none ∧
      after (.heartbeatTimer true) (onFabric (x 2)) (fun t => t.out.fabric.map msgType) [] = [3] ∧
      after (.heartbeatTimer true) (onFabric (x 3)) (fun t => t.out.fabric.map msgType) [] = [1] := by decide +kernel

/-- Peer 3 owns brick 0, this unit brick 1; a group of the running step awaits contributions. -/
def bonded : State :=
  let s := onFabric friend
  { s with
    dict := { s.dict with applied := [(0x501002, 0x8003 + 0x8000 * 2 ^ 32), (0x501003, 3), (0x501004, 8192)] }
    steps := { s.steps with lastNumber := 1, run := some (stepOf [plainDesc] true) } }

theorem test_step_heartbeat_premises :
    let s : State := { bonded with mortar := { bonded.mortar with peers := [(3, { friend with state := 3 })] } }
    (s.members.filter fun m => m != s.address) = [3] ∧ (s.steps.run.any (·.takeover)) = false ∧ s.fabricOpen = true ∧
      after (.heartbeatTimer false) s (fun t => t.out.fabric.map fun m => (msgType m, msgTo m)) [] = [(3, 3)] := by decide +kernel

set_option maxRecDepth 100000 in
theorem test_contribution_premises :
    let m (step : Nat) := fromPeer 7 9 step (toLe 1 0 ++ toLe 1 0 ++ toLe 2 1 ++ toLe 4 0 ++ toLe 2 0 ++ toLe 1 1 ++ toLe 29 0)
    let v := frame 7 0 3 0 9 2 1 0 (toLe 1 0 ++ toLe 1 0 ++ toLe 2 1 ++ toLe 4 0 ++ toLe 2 0 ++ toLe 1 1 ++ toLe 29 0)
    bonded.fabricOpen = true ∧ headerClear (m 1) = true ∧ bonded.members.contains 3 = true ∧ msgStep (m 1) = 1 ∧
      msgStep (m 5) ≠ bonded.steps.lastNumber ∧ bonded.notReady (m 1) = false ∧ msgVersion v ≠ bonded.cfg 0x501001 ∧
      msgVersion (m 1) = bonded.cfg 0x501001 ∧ bonded.present 3 = true ∧ (freshGroup 1).written = false ∧
      (let h : State := { bonded with mortar := { bonded.mortar with peers := [(3, { friend with state := 1 })] } }
       h.present 3 = false ∧ after (.bloomClaim (m 1)) h (fun t => (t.group 0).map fun g => g.inbox.length) none = some 0) ∧
      (readStepBound 7 3 (msgPayload (m 1))).any (fun x => x.2.2 == 0 && bonded.laid x.2.1 && bonded.tauFits x.1 x.2.1) = true ∧
      readStepBound 7 3 (toLe 8 0) = none ∧
      after (.bloomClaim (frame 7 0 3 0 9 2 1 0 (toLe 8 0))) bonded (·.counter 0x705005) 0 = 1 ∧
      after (.bloomClaim (m 1)) bonded (fun t => (t.group 0).map fun g => g.inbox.length) none = some 1 ∧
      after (.bloomClaim (m 5)) bonded (·.counter 0x705005) 0 = 1 ∧
      after (.bloomClaim v) bonded (fun t => (t.steps.run.map (·.split), t.counter 0x705009)) (none, 0) = (some true, 1) := by
  decide +kernel

/-- At the root: a leaf of a slot that peer 3 does not lay, and a count at τ where the row has no min_p. -/
theorem test_broken_layout_premises :
    let s : State := { bonded with dict := { bonded.dict with
      applied := [(0x501002, 0x8003 + 0x8000 * 2 ^ 32), (0x501003, 0), (0x501004, 8192)] } }
    s.laid (.node 3 false false 0 1 []) = false ∧ s.laid (.node 3 false false 0 0 []) = true ∧
      s.tauFits 0 (.hist 3 false { row := 0, second := false, purpose := 0, bucket := 0, sub := 0 } 0 0 4 []) = false := by
  decide +kernel

set_option maxRecDepth 100000 in
theorem test_tree_premises :
    let m := fromPeer 8 9 0 (toLe 4 0 ++ toLe 4 2 ++ toLe 8 4 ++ toLe 32 0 ++ toLe 2 1 ++ toLe 6 0 ++ toLe 4 3)
    (fieldAt (msgPayload m) 4 4 ≠ 0 ∧ fieldAt (msgPayload m) 48 2 = 1 ∧ zeroBytes (msgPayload m) 50 56 = true ∧
      56 + 4 * 1 ≤ (msgPayload m).length ∧ fieldAt (msgPayload m) 56 4 &&& 0xF000F000 = 0 ∧ headerClear m = true) ∧
      after (.bondUpdate m) bonded (fun t => t.mortar.trees.map fun x => (x.version, x.fromStep, x.order.length)) [] =
        [(2, 4, 1)] ∧
      after (.bondUpdate m) (onFabric friend) (·.mortar.trees.length) 9 = 0 := by decide +kernel

/-- A message sent `n` times and not acknowledged. -/
def awaiting (n : Nat) : State :=
  onFabric { friend with unacked := [{ sequence := 3, bytes := frame 3 0 0 3 3 0 0 0 (toLe 16 0), sends := n }] }

theorem test_link_flit_premises :
    let a (seq : Nat) := fromPeer 0xE0 seq 0 (toLe 1 0)
    let k (reason : Nat) := fromPeer 0xE1 3 0 (toLe 1 reason)
    live.hearsFlit (a 3) = false ∧ (awaiting 1).hearsFlit (a 3) = true ∧ (awaiting 1).isUnacked 3 3 = true ∧
      (awaiting 1).isUnacked 3 4 = false ∧ frameGood (k 1) = true ∧ msgType (k 1) = 0xE1 ∧ fieldAt (k 2) 32 1 = 2 ∧
      fieldAt (k 1) 32 1 = 1 ∧ (awaiting 1).hearsFlit (k 1) = true ∧
      after (.linkAck (a 3)) (awaiting 1) (fun t => (t.peer 3).unacked.length) 9 = 0 ∧
      after (.linkNak (k 2)) (awaiting 4) (fun t => (t.peer 3).unacked.map (·.sends)) [] = [4] ∧
      after (.linkNak (k 1)) (awaiting 3) (fun t => (t.peer 3).unacked.map (·.sends)) [] = [4] := by decide +kernel

/-- 64 messages await acknowledgement, one waits behind them. -/
def crowded : State :=
  onFabric { friend with
    unacked := (List.range 64).map fun k => { sequence := k, bytes := [], sends := 1 }
    waiting := [frame 3 0 0 3 0 0 0 0 (toLe 16 0)] }

theorem test_waiting_premises :
    let a := fromPeer 0xE0 5 0 (toLe 1 0)
    crowded.hearsFlit a = true ∧ crowded.isUnacked 3 5 = true ∧ crowded.quiesceAllows 3 3 = true ∧
      ((crowded.peer 3).unacked.filter (·.sequence != 5)).length = 63 ∧
      after (.linkAck a) crowded (fun t => ((t.peer 3).unacked.length, (t.peer 3).waiting.length, t.out.fabric.map msgSequence,
        t.out.fabric.map msgSent)) (0, 0, [], []) = (64, 0, [4], [1000]) ∧
      (let p : State := onFabric { (awaiting 4).peer 3 with state := 1 }
       after (.mortarResendTimeout 3 3) p (fun t => ((t.peer 3).state, (t.peer 3).unacked.length)) (9, 9) = (1, 0)) ∧
      after (.linkNak (fromPeer 0xE1 3 0 (toLe 1 1))) (awaiting 4) (fun t => (t.peer 3).state) 9 = 3 := by decide +kernel

theorem test_resend_premises :
    (awaiting 3).fabricOpen = true ∧ (awaiting 3).isLate 3 3 = false ∧ ((awaiting 3).peer 3).state ≠ 4 ∧
      ((awaiting 3).peer 3).unacked.find? (·.sequence == 3) =
        some { sequence := 3, bytes := frame 3 0 0 3 3 0 0 0 (toLe 16 0), sends := 3 } ∧
      after (.mortarResendTimeout 3 3) (awaiting 3) (fun t => (t.peer 3).state) 9 = 2 ∧
      after (.mortarResendTimeout 3 3) (awaiting 4) (fun t => (t.peer 3).state) 9 = 3 := by decide +kernel

theorem test_lost_peer_premises :
    let x (n : Nat) : Peer := { friend with state := n }
    live.portsUp = true ∧ (3 : Nat) ≠ live.address ∧
      after (.peerSilenceTimeout 3) (onFabric (x 2)) (fun t => (t.peer 3).state) 9 = 3 ∧
      after (.absenceNotice 3) (onFabric (x 1)) (fun t => (t.peer 3).state) 9 = 4 ∧
      after (.absenceNotice 3) (onFabric (x 0)) (fun t => (t.peer 3).state) 9 = 0 ∧
      after (.absentResponse 3) (onFabric (x 3)) (fun t => (t.peer 3).state) 9 = 4 ∧
      after (.absentResponse 3) (onFabric (x 4)) (fun t => (t.peer 3).state) 9 = 4 := by decide +kernel

set_option maxRecDepth 100000 in
theorem test_receipt_premises :
    let s : State := { onFabric friend with snapshot := { live.snapshot with run := some oneChunk } }
    let m (d : Bytes) := fromPeer 9 9 0 (overwrite (chunkHeader 1 0 1 0 5 (toLe 32 0)) 24 d)
    headerClear (m (toLe 32 0)) = true ∧ chunkClear (msgPayload (m (sha256 [1, 2]))) = true ∧
      oneChunk.chunks[0]? = some { kind := 5, payload := [1, 2] } ∧
      (ChunkHead.read (msgPayload (m (sha256 [1, 2])))).digest = sha256 [1, 2] ∧ leNat (sha256 [1, 2]) ≠ 0 ∧
      after (.statePage (m (toLe 32 0))) s (·.snapshot.state) 9 = 3 ∧
      after (.statePage (m (sha256 [1, 2]))) s (fun t => (t.snapshot.state, t.snapshot.lastEpoch)) (9, 9) = (2, 1) := by
  decide +kernel

/-! ### The dictionary -/

theorem test_control_message_premises :
    let u : State := { live with dict := { live.dict with endpoint := 0 } }
    State.reset.managementUp = false ∧ live.managementUp = true ∧ u.managementUp = true ∧ u.dict.endpoint = 0 ∧
      after (.setEndpointId 9) live (·.dict.endpoint) 0 = 9 ∧ after (.setEndpointId 0xFF) live (·.dict.endpoint) 0 = 5 ∧
      after (.getMessageTypeSupport 8) u (·.counter 0x700003) 0 = 1 ∧
      after (.getMctpVersionSupport 8 1) live (·.out.mesh) [] = [(8, [0, 0, 4, 0x80])] := by decide

/-- A request: command, tag, flags, object, what follows. -/
def ask (cmd flags key : Nat) (tail : Bytes) : Bytes :=
  [0x7F, 0x00, 0xF0, 0x5A, 0x2C] ++ toLe 1 cmd ++ [7] ++ toLe 1 flags ++ toLe 2 (key / 256) ++ toLe 1 key ++ toLe 5 0 ++ tail

/-- Result and body of the one response sent. -/
def reply (i : Instr) (s : State) : List (Nat × Bytes) :=
  after i s (fun t => t.out.mesh.map fun e => (fieldAt e.2 11 1, e.2.drop 16)) []

/-- Objects: RO and RW scalars, a block, one that is not there, one closed to tenant 3 at endpoint 8. -/
theorem test_read_premises :
    let t := withRw [(0x1E3808, 3)]
    commandFits 1 (ask 1 0 0x300002 []) = true ∧ messageOurs (ask 1 0 0x300002 []) = true ∧ messageOurs (toLe 16 0) = false ∧
      requestFormed (ask 1 0 0x300002 []) = true ∧ requestFormed (ask 1 4 0x300002 []) = false ∧
      (objInfo 0x501002).map (·.isBlock) = some true ∧ (objInfo 0x300002).map (·.isBlock) = some false ∧
      reply (.read (.mesh 9 (ask 1 0 0x300002 []))) (withRw [(0x1E3809, 0xFF), (0x300002, 2)]) = [(0, toLe 8 2)] ∧
      reply (.read (.mesh 9 (ask 1 0 0x501002 []))) (withRw [(0x1E3809, 0xFF)]) = [(2, [])] ∧
      reply (.read (.mesh 9 (ask 1 4 0x300002 []))) live = [(7, [])] ∧
      reply (.read (.mesh 9 (ask 1 0 0x000001 []))) live = [(1, [])] ∧
      reply (.read (.mesh 8 (ask 1 0 0x1E3001 []))) t = [(0, toLe 8 0)] ∧
      reply (.read (.mesh 8 (ask 1 4 0x1E3001 []))) t = [(0, toLe 8 0)] := by decide +kernel

/-- A lane-domain object read while the lane clock is stopped starts it; one of the always-on domain does not. -/
theorem test_gated_read_premises :
    let s := inPower .dormant
    s.gated 0x701005 = true ∧ s.gated 0x300002 = false ∧ live.gated 0x701005 = false ∧
      after (.read (.mirror (slotOffset 0x701005))) s (fun t => (t.counter 0x702004, t.sensing.power)) (9, .off) = (1, .dormant) ∧
      after (.read (.mirror (slotOffset 0x300002))) s (·.counter 0x702004) 9 = 0 := by decide +kernel

theorem test_mirror_read_premises :
    let s := withRw [(0x800101, 2 ^ 40 + 5)]
    let k : State := { s with mirror := { s.mirror with heldHigh := some (slotOffset 0x800101, 77) } }
    (objInfo 0x800101).map (·.size) = some 8 ∧ (objInfo 0x800101).any (fun o => s.permits .operator o 0x800101 false) = true ∧
      (objInfo 0x300002).any (fun o => (inState 6).permits .operator o 0x300002 false) = false ∧
      objInfo (windowKey 0) = none ∧
      after (.read (.mirror (slotOffset 0x800101))) s (fun t => (t.out.mirror.toNat, t.mirror.heldHigh)) (9, none) =
        (5, some (slotOffset 0x800101, 256)) ∧
      after (.read (.mirror (slotOffset 0x800101 + 4))) k (·.out.mirror.toNat) 9 = 77 ∧
      after (.read (.mirror 0)) s (·.mirror.lastResult) 9 = 1 ∧
      after (.read (.mirror 0)) State.reset (·.out.mirror.toNat) 9 = 0 := by decide +kernel

/-- A CMD, an RW, an RWS, a WO scalar; what they come to. -/
theorem test_write_premises :
    let s := withRw [(0x1E3809, 0xFF)]
    let w (key v : Nat) : Instr := .write 9 (ask 2 0 key (toLe 8 v))
    commandFits 2 (ask 2 0 0x300002 (toLe 8 2)) = true ∧ requestFormed (ask 2 0 0x300002 (toLe 8 2)) = true ∧
      s.takesWrite (.mesh 9 7) 0x300002 = true ∧ s.takesWrite .mirror 0x800101 = true ∧
      [0x300002, 0x200020, 0x1E3001, 0x700001].map (fun k => (objInfo k).map (·.access)) = [some 2, some 3, some 4, some 1] ∧
      reply (w 0x300002 1) s = [(0, [])] ∧ reply (w 0x300002 99) s = [(3, [])] ∧ reply (w 0x700001 0) s = [(2, [])] ∧
      after (w 0x300002 1) s (·.rwVal 0x300002) 9 = 1 ∧ after (w 0x200020 1) s (fun t => t.stagedVal 0x200020) 9 = 1 ∧
      after (w 0x1E3001 6) s (fun t => Store.get t.dict.held 0x1E3001) 9 = 6 := by decide +kernel

theorem test_mirror_write_premises :
    let k : State := { live with mirror := { live.mirror with heldLow := some (slotOffset 0x800101, 0x10000) } }
    let a := slotOffset 0x800101
    live.mirror.heldLow = none ∧ k.mirror.heldLow = some (a, 0x10000) ∧ live.mirror.mailboxState ≠ 1 ∧
      after (.registerWrite (slotOffset 0x300002) 1) live (fun t => (t.rwVal 0x300002, t.mirror.lastResult)) (9, 9) = (1, 0) ∧
      after (.registerWrite a 5) live (·.mirror.heldLow) none = some (a, 5) ∧
      after (.mirrorUpperWrite (a + 4) 1) k (·.rwVal 0x800101) 9 = 2 ^ 32 + 0x10000 ∧
      after (.mirrorUpperWrite (a + 4) 1) live (·.mirror.lastResult) 9 = 6 := by decide +kernel

/-- `live` with a request in the mailbox. -/
def mailed (m : Bytes) : State :=
  { live with mirror := { live.mirror with request := m, requestLength := m.length } }

theorem test_mailbox_premises :
    let m := ask 2 0 0x300002 (toLe 8 1)
    between 16 (mailed m).mirror.requestLength 1056 = true ∧ between 16 live.mirror.requestLength 1056 = false ∧
      m = padTo (mailed m).mirror.requestLength (mailed m).mirror.request ∧
      after (.mailboxGo 0x4D424F58) (mailed m) (fun t => (t.mirror.mailboxState, t.rwVal 0x300002)) (9, 9) = (2, 1) ∧
      after (.mailboxGo 0x4D424F58) live (·.mirror.mailboxState) 9 = 3 ∧
      after (.mailboxGo 1) live (·.mirror.mailboxState) 9 = 0 := by decide +kernel

/-- A transfer of the bond table that endpoint 9 has open, and eight of others. -/
def moving (who : Requester) (writing : Bool) : Transfer :=
  { who := who, writing := writing, object := 0x501002, data := toLe 1024 0, position := 0 }

theorem test_block_premises :
    let d := withRw [(0x1E3809, 0xFF)]
    let b : State := { d with dict := { d.dict with
      transfers := (List.range 8).map fun n => moving (.endpoint (BitVec.ofNat 8 (20 + n))) false } }
    let r (off len : Nat) : Instr := .readBlock 9 (ask 3 0 0x501002 (toLe 4 off ++ toLe 4 len))
    let w (off : Nat) : Instr := .writeBlock 9 (ask 4 0 0x501002 (toLe 4 off ++ toLe 4 8 ++ toLe 8 0 ++ toLe 8 3))
    let z : Instr := .writeBlock 9 (ask 4 2 0x501002 (toLe 4 0 ++ toLe 4 1024 ++ toLe 8 0 ++ toLe 1024 0))
    (reply (r 0 8) d).map (·.1) = [0] ∧ (reply (r 0 8) b).map (·.1) = [5] ∧ (reply (r 8 8) d).map (·.1) = [6] ∧
      reply (w 0) d = [(0, toLe 4 0 ++ toLe 4 8)] ∧ (reply (w 8) d).map (·.1) = [6] ∧
      reply z d = [(0, toLe 4 0 ++ toLe 4 1024)] ∧ objRange 0x501002 0 = true ∧ d.writeRange 0x501002 0 = true ∧
      (d.transferOf (.endpoint 9) false).isNone = true ∧
      after (w 0) d (fun t => (t.transferOf (.endpoint 9) true).map (·.position)) none = some 8 ∧
      after (.blockTransferTimeout (.endpoint 20) false) b (·.dict.transfers.length) 9 = 7 := by decide +kernel

/-- Later segments: of a read at 1,016 and at the object's end, of another object, of a write in and out of its place, its
last one while the table is staged and while a commit is pending, and one that no Range allows. -/
theorem test_segment_premises :
    let d := withRw [(0x1E3809, 0xFF)]
    let x (writing : Bool) (n : Nat) : Transfer := { moving (.endpoint 9) writing with data := toLe n 5, position := n }
    let o (x : Transfer) : State := { d with dict := { d.dict with transfers := [x] } }
    let r (off len : Nat) : Instr := .readBlock 9 (ask 3 0 0x501002 (toLe 4 off ++ toLe 4 len))
    let w (last off : Nat) : Instr := .writeBlock 9 (ask 4 (2 * last) 0x501002 (toLe 4 off ++ toLe 4 4 ++ toLe 8 0 ++ toLe 4 0))
    let kept (i : Instr) (s : State) (b : Bool) : Option Nat := after i s (fun t => (t.transferOf (.endpoint 9) b).map (·.position)) none
    kept (r 8 8) (o (x false 1024)) false = some 16 ∧ kept (r 1020 8) (o (x false 1024)) false = none ∧
      reply (r 1020 8) (o (x false 1024)) = [(0, toLe 4 1020 ++ toLe 4 4 ++ toLe 4 1024 ++ toLe 4 0 ++ toLe 4 0)] ∧
      (reply (r 8 8) (o { x false 1024 with object := 1 })).map (·.1) = [6] ∧
      (reply (r 1024 8) (o (x false 1024))).map (·.1) = [6] ∧
      after (r 0 8) (o (x false 1024)) (·.counter 0x700005) 9 = 1 ∧ after (w 0 0) (o (x true 8)) (·.counter 0x700005) 9 = 1 ∧
      kept (w 0 8) (o (x true 8)) true = some 12 ∧ kept (w 0 12) (o (x true 8)) true = none ∧
      (reply (w 0 12) (o (x true 8))).map (·.1) = [6] ∧ (reply (w 1 8) (o (x true 8))).map (·.1) = [6] ∧
      (reply (w 0 1022) (o (x true 1022))).map (·.1) = [6] ∧
      reply (w 1 1020) (o (x true 1020)) = [(0, toLe 4 1020 ++ toLe 4 4)] ∧
      after (w 1 1020) (o (x true 1020)) (·.stagedVal 0x501002) 0 = 5 ∧
      (reply (w 1 1020) { o (x true 1020) with dict := { (o (x true 1020)).dict with commitState := 1 } }).map (·.1) = [4] := by
  decide +kernel

theorem test_abort_premises :
    let m := ask 5 0 0x501002 []
    let d (who : Requester) : State := { live with dict := { live.dict with transfers := [moving who true] } }
    messageOurs m = true ∧ requestFormed m = true ∧ fieldAt m 5 1 = 5 ∧ (objInfo 0x501002).isSome = true ∧
      reply (.abort 9 m) (d (.endpoint 9)) = [(0, [])] ∧ reply (.abort 9 m) (d (.endpoint 8)) = [(6, [])] ∧
      after (.mailboxGo 0x4D424F58) (mailed m) (fun t => fieldAt t.mirror.response 11 1) 9 = 6 ∧
      after (.mailboxGo 0x4D424F58) { d .mailbox with mirror := (mailed m).mirror }
        (fun t => (fieldAt t.mirror.response 11 1, t.dict.transfers.length)) (9, 9) = (0, 0) := by decide +kernel

/-- A tenant's endpoint may not write Unit Reset; 5 is no value of it. -/
theorem test_command_premises :
    let s := withRw [(0x1E3808, 3), (0x1E3809, 0xFF)]
    commandWrite (.unitReset (.mesh 8 1) 5) = some (.mesh 8 1, 0x1F3101, 5) ∧ s.closedTo (.mesh 8 1) 0x1F3101 = true ∧
      s.takesWrite (.mesh 9 1) 0x1F3101 = true ∧ commandInRange 0x1F3101 5 = false ∧
      s.closedTo (.mesh 8 1) 0x200001 = true ∧
      after (.commit (.mesh 8 1) 0x434F4D54 [(64, 7)]) s (fun t => readCell t.mem 64) 0 = 7 ∧
      (reply (.unitReset (.mesh 8 1) 5) s).map (·.1) = [0] ∧ (reply (.unitReset (.mesh 9 1) 5) s).map (·.1) = [3] := by
  decide +kernel

theorem test_reset_command_premises :
    live.takesWrite .mirror 0x1F3101 = true ∧ live.takesWrite .mirror 0x1F3001 = true ∧ live.takesWrite .mirror 0x207003 = true ∧
      (inPhase .bringUp).laneResettable = false ∧ (inPhase .bringUp).takesWrite .mirror 0x1F3001 = true ∧
      after (.unitReset .mirror 0x554E4954) live (·.boundary.unitResetDue) false = true ∧
      after (.laneReset .mirror 0x4C414E45) live (·.boundary.phase) .idle = .draining ∧
      after (.laneReset .mirror 0x4C414E45) (inPhase .bringUp) (·.counter 0x700001) 0 = 1 := by decide +kernel

theorem test_start_command_premises :
    after (.stepGo .mirror 0x5354474F) (withRw [(0x207002, 2)]) (·.steps.held) none = some (1000, true, 0) ∧
      after (.stepGo .mirror 0x5354474F) (withRw [(0x207002, 1)]) (·.counter 0x709003) 0 = 1 ∧
      live.takesWrite .mirror 0x500002 = true ∧
      after (.fabricEnable .mirror 1) live (fun t => t.out.fabric.map msgType) [] = [1] ∧
      after (.fabricEnable .mirror 0) (onFabric friend) (fun t => (t.out.fabric.length, t.fabricOpen)) (9, true) = (0, false) := by
  decide +kernel

/-- `live` with Vocabulary Size and a value of Run Mode staged. -/
def stagedSet (state vocab : Nat) : State :=
  { live with dict := { live.dict with staged := [(0x501004, vocab)], commitState := state } }

theorem test_discard_premises :
    live.takesWrite .mirror 0x200002 = true ∧
      after (.discardStaged .mirror 0x44495343) (stagedSet 0 5) (·.stagedVal 0x501004) 9 = live.cfg 0x501004 ∧
      after (.discardStaged .mirror 0x44495343) (stagedSet 1 5) (fun t => (t.stagedVal 0x501004, t.mirror.lastResult)) (9, 9) =
        (5, 4) := by decide +kernel

theorem test_settings_premises :
    let b : State := { live with dict := { live.dict with storing := some ([(0x300002, 1)], []) } }
    live.takesWrite .mirror 0x1F2001 = true ∧ live.takesWrite .mirror 0x1F2101 = true ∧ live.writerBusy = false ∧
      b.writerBusy = true ∧ (inStep (stepOf [plainDesc] true)).stepState ≠ 0 ∧ live.stepState = 0 ∧
      after (.store .mirror 0x53544F52) live (·.dict.storeState) 9 = 1 ∧ after (.storeDone true) b (·.dict.storeState) 9 = 2 ∧
      after (.storeDone false) b (·.dict.storeState) 9 = 3 ∧
      after (.restoreDefaults .mirror 0x44464C54) (withRw [(0x300002, 1)]) (·.rwVal 0x300002) 9 = objDefault 0x300002 := by
  decide +kernel

theorem test_commit_premises :
    let s : State := { inStep (stepOf [plainDesc] true) with dict := (stagedSet 0 5).dict }
    let i := stagedSet 0 5
    let q : State := { live with dict := { live.dict with staged := [(0x200020, 1)] } }
    s.takesWrite .mirror 0x200001 = true ∧ s.stepState ≠ 0 ∧ i.stepState = 0 ∧ i.changes bondKeys = true ∧ i.bondReason ≠ 0 ∧
      q.changes bondKeys = false ∧ q.contexts.slots = [] ∧ q.stagedVal 0x200020 ≠ 2 ∧
      after (.commit .mirror 0x434F4D54 []) s (·.dict.commitState) 9 = 1 ∧
      after (.commit .mirror 0x434F4D54 []) i (·.dict.commitState) 9 = 4 ∧
      after (.commit .mirror 0x434F4D54 []) q (fun t => (t.dict.commitState, t.cfg 0x200020)) (9, 9) = (2, 1) := by decide +kernel

/-- A commit applied in part, with a slot in use: the areas refused, the directory refused, Run Mode 2 refused by each check. -/
theorem test_commit_in_part :
    let s (staged : Store) : State := { live with
      dict := { live.dict with staged := staged }
      contexts := { live.contexts with slots := [(7, { openContext with automaton := 2 })], directory := [(2, 4096)] } }
    let go (t : State) : List Nat := after (.commit .mirror 0x434F4D54 []) t (fun t => [t.dict.commitState, t.contexts.refuseReason,
      t.cfg 0x205001, t.cfg 0x200020, t.upkeep.modeReason]) []
    (s [(0x205001, 4096)]).changes areaKeys = true ∧ (s [(0x205001, 4096)]).stepState = 0 ∧
      (hostWrites [] (s [])).directoryReason = 2 ∧ (hostWrites [] (s [(0x206002, 2)])).directoryReason = 1 ∧
      go (s [(0x205001, 4096)]) = [3, 2, 0, 0, 0] ∧ go (s [(0x206002, 2)]) = [3, 1, 0, 0, 0] ∧
      go { live with dict := { live.dict with staged := [(0x200020, 2)] }, fseq := { live.fseq with loaded := none } } =
        [2, 0, 0, 0, 1] := by decide +kernel

/-- `live` with `n` events queued, `r` of them readable. -/
def eventful (n r : Nat) : State :=
  { live with events := { live.events with
      events := (List.range n).map fun k =>
        { code := 1, source := 0, sequence := k, time := 0, argWide := 0, argA := 0, argB := 0, readable := decide (k < r) } } }

theorem test_event_premises :
    (eventful 255 0).events.events.length = 255 ∧ 256 ≤ (eventful 256 0).events.events.length ∧
      live.takesWrite .mirror 0x710003 = true ∧ live.takesWrite .mirror 0x700101 = true ∧
      after (.aonRailFault 719) (eventful 255 0) (fun t => (t.events.events.length, t.counter 0x70A201)) (9, 9) = (256, 1) ∧
      after (.aonRailFault 719) (eventful 256 0) (fun t => (t.events.events.length, t.counter 0x70A201)) (9, 9) = (256, 1) ∧
      after .eventReadable (eventful 3 1) (·.eventCount) 9 = 2 ∧
      after (.eventPop .mirror 2) (eventful 3 2) (fun t => t.events.events.map (·.sequence)) [] = [2] ∧
      after (.counterClear .mirror 0x434C5243) (eventful 255 0) (fun t => t.counter 0x70A201) 9 = 0 := by decide +kernel

/-! ### Life cycle -/

/-- `live` with a life cycle changed. -/
def withLife (f : LifeCycle → LifeCycle) : State := { live with life := f live.life }

/-- A Transition Go taken in FIELD. -/
def asked (target : Nat) : Verifying := { challenge := some 2, target := target, signature := 0, owner := 0, busy := false }

theorem test_challenge_premises :
    let l := withLife fun x => { x with lockout := true, challenge := some 1 }
    live.takesWrite .mirror 0x1E2001 = true ∧ live.takesWrite .mirror 0x1E3003 = true ∧ l.life.lockout = true ∧
      live.life.lockout = false ∧ l.life.challenge ≠ none ∧ live.life.verifying = none ∧ live.life.wiping = false ∧
      after (.challengeRequest .mirror 0x4348414C) live (·.life.transition) 9 = 1 ∧
      after (.challengeRequest .mirror 0x4348414C) l (·.counter 0x700001) 9 = 1 ∧
      after .challengeExpiry l (·.life.challenge) (some 9) = none ∧
      after .challengeLockoutEnd l (·.life.lockout) true = false := by decide +kernel

theorem test_transition_go_premises :
    after (.transitionGo .mirror 0x4C43474F) live (fun t => (t.life.transition, t.life.verifying.isSome)) (9, false) = (2, true) ∧
      after (.transitionGo .mirror 0x4C43474F) (withLife fun x => { x with wiping := true }) (·.counter 0x700001) 9 = 1 := by
  decide +kernel

/-- A record whose owner key is the base point; its key is valid, a signature of zeros is not. -/
def owned : LifeRecord := { live.life.record with ownerKey := p384Gx + 2 ^ 384 * p384Gy }

theorem test_transition_refusal_premises :
    let s := withLife fun x => { x with record := owned, verifying := some (asked 5) }
    ({ asked 5 with busy := true } : Verifying).busy = true ∧ live.transitionReason { asked 5 with busy := true } = 1 ∧
      live.transitionReason { asked 5 with challenge := none } = 2 ∧ transitionRow live.life.record.state (asked 3).target = none ∧
      live.transitionReason (asked 5) = 4 ∧ s.life.verifying = some (asked 5) ∧ s.transitionReason (asked 5) = 5 ∧
      after .transitionVerified s (fun t => (t.life.transition, t.life.reason, t.life.lockout)) (9, 9, false) = (5, 5, true) := by
  decide +kernel

/-- Where no check fails: the identity of a chip is its own (log entry 3), so the premise is shown for the identity 0, with a
key and a signature (r = s, a point with that x-coordinate) worked out by hand for it. -/
theorem test_transition_passes :
    transitionCheck 0
      { live.life.record with
        ownerKey := 0xbd31e8ca4b544a846b6d899f614174564139d1a0b1a7ed84fd70d7bae4f8d026bfef6c17e2039a322e2465548134c692 +
          2 ^ 384 * 0x416f6bd639a13dae1d9a6986c0f7c3de26ded608c88ffa7e26fa8459e187eeec9b65deec3213f846715e4dc050373d86 }
      { asked 6 with signature := (2 ^ 384 + 1) *
          0x2eac299191366df32911dc8f4a908544d96b9e7f89639c7fa3be6e065c60fdf66697992ae8a5661f30d29cac1946b764 } = 0 ∧
    (transitionRow 4 6).any (·.2) = true ∧ (transitionRow 3 4).any (·.2) = false := by
  decide +kernel

theorem test_wipe_premises :
    let w := withLife fun x => { x with writing := some { x.record with state := 5 } }
    let d := withLife fun x => { x with wiping := true, record := { x.record with state := 6, areas := [(64, 8)] } }
    w.life.writing.map (·.state) = some 5 ∧ d.life.wiping = true ∧ d.life.writing = none ∧ d.portsUp = true ∧
      after .lifecycleChanged w (fun t => (t.life.record.state, t.life.transition)) (9, 9) = (5, 4) ∧
      after .wipeDone d (fun t => (t.boundary.phase, t.life.record.ownerKey, t.life.record.areas)) (.idle, 9, []) =
        (.asserted .unit, 0, [(64, 8)]) ∧
      after .wipeDone { d with fseq := { d.fseq with installing := some .zeros } } (·.nvm.image) .zeros = .factory := by
  decide +kernel

/-! ### Reliability, restore, tests -/

/-- `live` with the scrub at a memory and line, a Head Store pass with `left` lines to go. -/
def scrubbing (memory line : Nat) (left : Option Nat) : State :=
  { live with upkeep := { live.upkeep with memory := memory, line := line, hsPass := left } }

theorem test_scrub_premises :
    let s := scrubbing 1 3 none
    let f : State := { s with heads := s.heads.map fun h => { h with state := 4 } }
    (scrubbing 7 0 (some 1)).upkeep.hsPass = some 1 ∧ live.sensing.hsOff = false ∧ s.scrubbed 1 = true ∧
      s.scrubRuns = true ∧ (inPower .off).scrubRuns = false ∧
      s.upkeep.line + 1 < s.memoryLines 1 ∧ live.memoryLines 7 ≤ (scrubbing 7 255 none).upkeep.line + 1 ∧
      (inStep headStep).stepReads 0 = true ∧ (withSensing fun x => { x with hsOff := true }).sensing.hsOff = true ∧ f.stepReads 2 = false ∧
      (f.head 2).state = 4 ∧ (31 : Nat) / 8 = s.upkeep.line ∧
      after (.scrubRead []) (scrubbing 7 0 (some 1)) (fun t => (t.upkeep.hsPass, t.upkeep.line)) (none, 9) = (none, 0) ∧
      after (.scrubRead []) (scrubbing 7 255 none) (fun t => (t.upkeep.memory, t.upkeep.line)) (9, 9) = (1, 0) ∧
      after (.scrubRead [⟨1, 31, true, 2, false, []⟩]) f (fun t => (t.heads.map (·.state), t.counter 0x70A101)) ([], 0) = ([4, 4, 5, 4], 1) ∧
      after (.scrubRead [⟨7, 0, true, 0, false, []⟩]) (scrubbing 7 0 none) (fun t => (t.nvm.settings.isNone, t.counter 0x70A107))
        (false, 9) = (true, 1) ∧
      after (.scrubRead [⟨1, 24, false, 2, false, []⟩]) f (·.counter 0x70A001) 0 = 1 := by decide +kernel

/-- One uncorrectable word in each of the other memories. -/
theorem test_scrub_memories :
    let at_ (m : Nat) : State := scrubbing m 0 none
    let e (m : Nat) : EccHit := ⟨m, 0, true, 0, false, []⟩
    let c : State := { at_ 4 with contexts := { live.contexts with slots := [(0, openContext)] } }
    let l : State := { at_ 5 with contexts := { live.contexts with cache := [(3, []), (4, [])] } }
    let r : State := { at_ 6 with steps := (inStep headStep).steps }
    (at_ 2).scrubbed 2 = true ∧ (at_ 3).scrubbed 3 = true ∧ c.scrubbed 4 = true ∧ l.scrubbed 5 = true ∧
      (at_ 6).scrubbed 6 = true ∧ r.stepRunning = true ∧ (at_ 6).stepRunning = false ∧ (at_ 6).fseq.loaded = none ∧
      after (.scrubRead [e 2]) (at_ 2) (·.counter 0x70A102) 0 = 1 ∧ after (.scrubRead [e 3]) (at_ 3) (·.counter 0x70A103) 0 = 1 ∧
      after (.scrubRead [e 4]) c (fun t => ((t.context 0).isNone, t.events.events.map (·.code))) (false, []) =
        (true, [0x0D13, 0x1102]) ∧
      after (.scrubRead [e 5]) l (fun t => t.contexts.cache.map (·.1)) [] = [4] ∧
      after (.scrubRead [e 6]) r (·.fseq.reload) false = true ∧ after (.scrubRead [e 6]) (at_ 6) (·.fseq.reload) true = false := by
  decide +kernel

/-- Peer 3 is the snapshot partner. -/
def partnered (x : Peer) : State := { onFabric x with dict := { (onFabric x).dict with rw := [(0x500002, 1), (0x800001, 3)] } }

theorem test_snapshot_premises :
    let q : State := { partnered friend with restore := { live.restore with quiesced := 1 } }
    let b : State := { partnered friend with steps := (inStep (stepOf [plainDesc] true)).steps }
    let n : State := { partnered friend with snapshot := { live.snapshot with run := some oneChunk } }
    let go (s : State) : Nat × Bool := after (.snapshotGo .mirror 0x534E4150) s (fun t => (t.snapshot.state, t.snapshot.requested)) (9, false)
    n.takesWrite .mirror 0x800004 = true ∧ live.partner = live.address ∧ (partnered friend).partner = 3 ∧
      b.stepRunning = true ∧ n.snapshot.run.isSome = true ∧ (q.restore.quiesced ≠ 0) ∧
      go b = (0, true) ∧ go (partnered { friend with state := 3 }) = (3, false) ∧
      after (.snapshotGo .mirror 0x534E4150) live (·.counter 0x700001) 9 = 1 ∧
      after (.snapshotGo .mirror 0x534E4150) n (·.counter 0x70A204) 9 = 1 := by decide +kernel

set_option maxRecDepth 100000 in
theorem test_snapshot_sends :
    let n : State := { partnered friend with snapshot := { live.snapshot with run := some oneChunk } }
    n.fabricOpen = true ∧ n.quiesceAllows 9 3 = true ∧ oneChunk.chunks[oneChunk.sent]? = some { kind := 5, payload := [1, 2] } ∧
      after .snapshotChunkRead n (fun t => (t.snapshot.run.map (·.sent), t.out.fabric.map msgType)) (none, []) =
        (some 1, [9]) ∧
      after (.snapshotGo .mirror 0x534E4150) (partnered friend) (fun t => (t.snapshot.state, t.snapshot.run.map (·.partner)))
        (9, none) = (1, some 3) := by decide +kernel

/-- A word of the context table lost to a read for the image ends it. -/
theorem test_snapshot_read_error :
    let n : State := { partnered friend with snapshot := { live.snapshot with run := some oneChunk } }
    after (.snapshotChunkRead [⟨4, 0, true, 0, false, []⟩]) n (fun t => (t.snapshot.state, t.counter 0x70A203)) (9, 9) = (3, 1) := by
  decide +kernel

/-- The unit holds images for peer 3: 2 MiB from 65,536. -/
def holding (f : Hold → Hold) : State :=
  { onFabric friend with
    dict := { (onFabric friend).dict with
      rw := [(0x500002, 1), (0x800101, 65536), (0x800102, 2097152), (0x800106, 3), (0x800107, 7)] }
    hold := f live.hold }

set_option maxRecDepth 100000 in
theorem test_hold_premises :
    let p := chunkHeader 1 0 2 2 1 (sha256 [1, 2]) ++ [1, 2]
    let m := fromPeer 9 9 0 p
    let h := ChunkHead.read (msgPayload m)
    let s := holding id
    let o := holding fun x => { x with source := some 4 }
    headerClear m = true ∧ chunkClear (msgPayload m) = true ∧ h.bytes = 2 ∧ h.chunk = 0 ∧ h.last = false ∧
      chunkStride ≤ s.holdHalf ∧ s.rwVal 0x800102 ≠ 0 ∧ s.hold.source = none ∧ o.hold.source = some 4 ∧
      after (.statePage m) s (fun t => (t.hold.source, t.hold.receiving.map (·.next), readCell t.mem (65536 + 64)))
        (none, none, 0) = (some 3, some 1, 1) ∧
      after (.statePage m) o (fun t => t.events.events.map (·.code)) [] = [0x1108] := by decide +kernel

set_option maxRecDepth 100000 in
/-- A partner's image of epoch 2 behind the chain of epoch 1: its next chunk, its last one full, as an increment, as one
of another chain or with an old epoch, out of order, and one that its half does not hold. -/
theorem test_hold_later_chunks :
    let c (n last full prev epoch : Nat) : Instr :=
      let body := toLe 2 0 ++ toLe 2 full ++ toLe 4 epoch ++ toLe 8 0 ++ toLe 4 prev
      .statePage (fromPeer 9 9 0 (chunkHeader 2 n (n + 2 - last) 20 1 (toLe 32 0) ++ body))
    let s (size : Nat) : State :=
      let h := holding fun x => { x with
        source := some 3, chain := [{ addr := 65536, epoch := 1, chunks := 1 }]
        receiving := some { epoch := 2, full := true, base := 65536 + size / 2, next := 1, count := 2, writing := [] } }
      { h with dict := { h.dict with rw := [(0x500002, 1), (0x800101, 65536), (0x800102, size)] } }
    let out (i : Instr) (size : Nat) : List Nat := after i (s size) (fun t =>
      [t.hold.chain.length, ((t.hold.receiving.map (·.next)).getD 9), ((t.hold.receiving.map (·.base)).getD 0), t.events.events.length]) []
    (ChunkHead.read (msgPayload (fromPeer 9 9 0 (chunkHeader 2 1 2 20 1 (toLe 32 0))))).last = true ∧
      out (c 1 0 0 0 0) 2097152 = [1, 2, 65536 + 1048576, 0] ∧ out (c 1 1 1 0 2) 2097152 = [1, 2, 65536 + 1048576, 0] ∧
      out (c 1 1 0 1 2) 2097152 = [1, 2, 65536 + chunkStride, 0] ∧ out (c 1 1 0 0 2) 2097152 = [1, 9, 0, 1] ∧
      out (c 1 1 0 1 1) 2097152 = [1, 9, 0, 1] ∧ out (c 2 0 0 0 0) 2097152 = [1, 9, 0, 1] ∧
      out (c 1 0 0 0 0) 139264 = [1, 9, 0, 1] := by decide +kernel

/-- An image whose last chunk is being written, and one whose first is. -/
theorem test_hold_writes_premises :
    let r (count : Nat) : HoldIn := { epoch := 1, full := true, base := 65536, next := 1, count := count
                                      writing := [chunkHeader 1 0 count 2 5 (toLe 32 0)] }
    let s (count : Nat) := holding fun x => { x with receiving := some (r count) }
    (ChunkHead.read (chunkHeader 1 0 1 2 5 (toLe 32 0))).last = true ∧
      (ChunkHead.read (chunkHeader 1 0 2 2 5 (toLe 32 0))).last = false ∧
      after .holdChunkPlaced (s 2) (fun t => t.hold.receiving.map (·.writing)) none = some [] ∧
      after .holdChunkPlaced (s 1) (fun t => t.hold.chain.map (·.chunks)) [] = [1] := by decide +kernel

theorem test_hold_send_premises :
    let c := holding fun x => { x with chain := [{ addr := 65536, epoch := 1, chunks := 2 }] }
    let d (n : Nat) := holding fun x => { x with chain := [{ addr := 65536, epoch := 1, chunks := 2 }], sending := some (0, n) }
    c.takesWrite .mirror 0x800105 = true ∧ c.takesWrite .mirror 0x800108 = true ∧ (c.peer (c.rwVal 0x800106)).state = 2 ∧
      (live.peer (live.rwVal 0x800106)).state ≠ 2 ∧ c.hold.chain ≠ [] ∧ (d 1).quiesceAllows 9 3 = true ∧
      after (.holdClear .mirror 0x484C4443) c (·.hold.chain.length) 9 = 0 ∧
      after (.holdSendGo .mirror 0x53454E44) c (·.hold.sending) none = some (0, 0) ∧
      after .holdSendChunkRead (d 0) (·.hold.sending) none = some (0, 1) ∧
      after .holdSendChunkRead (d 1) (·.hold.sending) (some (9, 9)) = none := by decide +kernel

theorem test_restore_go_premises :
    let w (src : Nat) : State := withRw [(0x801001, 5), (0x801002, src), (0x801003, 3)]
    let u (src m : Nat) : State := { w src with restore := { live.restore with maxEpoch := some m } }
    let l : State := { w 1 with mortar := { live.mortar with peers := [(3, { friend with state := 3 })] } }
    let b : State := { w 2 with steps := (inStep (stepOf [plainDesc] true)).steps }
    let go (s : State) : Nat × Nat := after (.restoreGo .mirror 0x52455354) s (fun t => (t.restore.state, t.restore.quiesced)) (9, 9)
    (w 2).takesWrite .mirror 0x801006 = true ∧ (w 2).restore.maxEpoch = none ∧ (u 2 5).rwVal 0x801001 ≤ 5 ∧
      4 < (u 2 4).rwVal 0x801001 ∧ b.stepRunning = true ∧ (l.peer 3).state = 3 ∧
      go (w 2) = (1, 1) ∧ go (u 2 5) = (0, 0) ∧ go (u 2 4) = (1, 1) ∧ go l = (4, 1) ∧
      after (.restoreGo .mirror 0x52455354) b (·.restore.requested) false = true := by decide +kernel

/-- A chunk header and payload at 64, where the restore reads image 0 of epoch 5. -/
def readsChunk (epoch chunk : Nat) (digest : Bytes) : State :=
  { restoring 2 with
    dict := { live.dict with rw := [(0x801002, 2), (0x801004, 64 + 2 ^ 64 * 5)] }
    mem := writeMem [] 64 (chunkHeader epoch chunk 3 2 1 digest ++ [1, 2]) }

/-- What RESTORE_CHUNK_READ comes to: state, reason, chunks discarded, the next chunk, read once more. -/
def readOutcome (s : State) : List Nat :=
  after (.restoreChunkRead []) s (fun t => [t.restore.state, t.restore.reason, t.counter 0x70A207] ++
    (t.restore.run.map fun r => [r.next, boolVal r.reread]).getD []) []

set_option maxRecDepth 100000 in
theorem test_restore_chunk_premises :
    (readsChunk 5 0 []).restoreEntry 0 = (64, 5) ∧
      readOutcome (readsChunk 4 0 (sha256 [1, 2])) = [1, 0, 1, 0, 0] ∧
      readOutcome (readsChunk 5 1 (sha256 [1, 2])) = [4, 4, 0] ∧
      readOutcome (readsChunk 5 0 (toLe 32 1)) = [1, 0, 0, 0, 1] ∧
      readOutcome (readsChunk 5 0 (sha256 [1, 2])) = [1, 0, 0, 1, 0] := by decide +kernel

/-- The last chunk of an image of two chunks whose first is taken, from the shared store. -/
def lastChunk (generation pages full images : Nat) (digest : Bytes) (flag : Nat) : State :=
  let body := toLe 1 generation ++ toLe 1 Config.siliconStep.toNat ++ toLe 2 full ++ toLe 4 5 ++ toLe 8 42 ++ toLe 4 0 ++ toLe 4 pages ++ toLe 4 0 ++
    toLe 4 0 ++ digest
  let s := readsChunk 5 0 []
  { s with
    dict := { s.dict with rw := s.dict.rw ++ [(0x801005, images)] }
    restore := { s.restore with quiesced := 1, run := s.restore.run.map fun r => { r with next := 1, digests := [1, 2] } }
    mem := writeMem [] (64 + chunkStride) (overwrite (chunkHeader 5 1 2 body.length 5 (sha256 body)) 17 (toLe 1 flag) ++ body) }

/-- What RESTORE_CHUNK_READ leaves of a last chunk: state, reason, quiesced, Last Step Number, the image it goes on with. -/
def lastOutcome (s : State) : List Nat :=
  after (.restoreChunkRead []) s (fun t => [t.restore.state, t.restore.reason, t.restore.quiesced, t.steps.lastNumber] ++
    (t.restore.run.map fun r => [r.image, r.next, r.prevEpoch]).getD []) []

set_option maxRecDepth 100000 in
theorem test_restore_last_chunk :
    let d := sha256 [1, 2]
    lastOutcome (lastChunk 3 0 1 1 d 1) = [4, 7, 1, 0] ∧ lastOutcome (lastChunk 2 9 1 1 d 1) = [4, 8, 1, 0] ∧
      lastOutcome (lastChunk 2 0 1 1 (toLe 32 0) 1) = [4, 5, 1, 0] ∧ lastOutcome (lastChunk 2 0 0 1 d 1) = [4, 6, 1, 0] ∧
      lastOutcome (lastChunk 2 0 1 1 d 0) = [4, 4, 1, 0] ∧ lastOutcome (lastChunk 2 0 1 2 d 1) = [1, 0, 1, 0, 1, 0, 5] ∧
      lastOutcome (lastChunk 2 0 1 1 d 1) = [3, 0, 0, 42] := by decide +kernel

set_option maxRecDepth 100000 in
/-- A restore from peer 3 takes its chunks by STATE_PAGE. -/
theorem test_restore_from_partner :
    let s : State := { restoring 1 with
      dict := { (onFabric friend).dict with rw := [(0x500002, 1), (0x801002, 1), (0x801003, 3)] }
      mortar := (onFabric friend).mortar
      restore := { (restoring 1).restore with quiesced := 1 } }
    let m := fromPeer 9 9 0 (chunkHeader 5 0 3 2 1 (sha256 [1, 2]) ++ [1, 2])
    headerClear m = true ∧ chunkClear (msgPayload m) = true ∧ s.quiesceAllows 9 3 = true ∧
      after (.statePage m) s (fun t => (t.restore.state, t.restore.run.map (·.next))) (9, none) = (1, some 1) := by decide +kernel

set_option maxRecDepth 100000 in
theorem test_restore_timeout_premises :
    let s := readsChunk 5 0 (toLe 32 1)
    let r : State := { s with restore := { s.restore with run := s.restore.run.map fun x => { x with reread := true } } }
    after (.restoreChunkRead []) r (fun t => (t.restore.state, t.restore.reason)) (9, 9) = (4, 3) ∧
      after .restoreChunkTimeout s (fun t => (t.restore.state, t.restore.reason)) (9, 9) = (4, 9) := by decide +kernel

theorem test_lead_conflict_premises :
    let s := inStep (stepOf [plainDesc] true)
    let f : State := { s with upkeep := { s.upkeep with westFenced := true } }
    s.sensing.power = .active ∧ s.sensing.laneRow < 4 ∧ s.upkeep.westFenced = false ∧ f.upkeep.westFenced = true ∧
      after (.leadConflict true) s (fun t => (t.upkeep.westFenced, t.steps.run.map (·.admitted))) (false, none) = (true, some true) ∧
      after (.leadConflict true) f (fun t => (t.steps.run.isNone, t.restore.quiesced)) (false, 9) = (true, 2) := by decide +kernel

theorem test_bist_premises :
    let b (n : Nat) : State := { live with upkeep := { live.upkeep with bistState := n, bistRun := some 0x402 } }
    live.takesWrite .mirror 0x900002 = true ∧ live.upkeep.bistState ≠ 1 ∧ live.laneResettable = true ∧
      bit 0x402 10 = true ∧ bit 2 10 = false ∧ (b 1).upkeep.marchDue = none ∧
      (inPhase .bringUp).laneResettable = false ∧
      (let m (mask n : Nat) : State := { headIn n with dict := (withRw [(0x900001, mask)]).dict, life := (inState 2).life }
       bit (m 0x400 4).bistMask 10 = true ∧ cyclesBefore10 (m 0x400 4).bistMask = 0 ∧ 0 < cyclesBefore10 (m 0x402 4).bistMask ∧
        after (.bistGo .mirror 0x42495354) (m 0x400 4) (fun t => (t.heads.map (·.state), t.upkeep.marchDue)) ([], some 9) =
          ([0, 0, 0, 0], none) ∧
        after (.bistGo .mirror 0x42495354) (m 0x400 1) (fun t => (t.heads.map (·.state), t.upkeep.marchDue)) ([], none) =
          ([1, 0, 0, 0], some (m 0x400 1).slow) ∧
        after (.bistGo .mirror 0x42495354) (m 0x402 4) (fun t => t.heads.map (·.state)) [] = [4, 0, 0, 0] ∧
        runs (.bistDone 0) { m 0x402 1 with upkeep := { live.upkeep with bistRun := some 0x402, marchDue := some 0 } } = false) ∧
      after (.bistGo .mirror 0x42495354) live (·.upkeep.bistState) 9 = 1 ∧
      after (.bistGo .mirror 0x42495354) (inStep (stepOf [plainDesc] true)) (·.upkeep.bistWaiting) false = true ∧
      after (.bistDone 0x401) (b 1) (fun t => (t.upkeep.bistFailures, t.upkeep.bistState)) (9, 9) = (0x400, 3) ∧
      after (.bistDone 1) (b 1) (fun t => (t.upkeep.bistFailures, t.upkeep.bistState)) (9, 9) = (0, 2) := by decide +kernel

end Sys2Proof.Machine
end

section
/-! PROOF. Reads over the management mesh and through the mirror (R448 to R460): what each form of request is answered,
and what it leaves as it was. -/

namespace Sys2Proof.Machine

/-! ### Fields of a message -/

theorem leNat_lt (bs : Bytes) : leNat bs < 256 ^ bs.length := by
  induction bs with
  | nil => simp [leNat]
  | cons b bs ih =>
    have hb : b.toNat < 256 := b.isLt
    rw [leNat, List.length_cons, Nat.pow_succ]
    omega

theorem fieldAt_lt (m : Bytes) (off n : Nat) : fieldAt m off n < 256 ^ n := by
  refine Nat.lt_of_lt_of_le (leNat_lt _) (Nat.pow_le_pow_right (by decide) ?_)
  rw [List.length_take]
  exact Nat.min_le_left ..

theorem read_key (m : Bytes) : (Request.read m).key = fieldAt m 8 2 * 256 + fieldAt m 10 1 := rfl

theorem read_key_lt (m : Bytes) : (Request.read m).key < 2 ^ 24 := by
  have h8 := fieldAt_lt m 8 2
  have h10 := fieldAt_lt m 10 1
  rw [read_key]
  omega

/-- A READ row's message that is a dictionary message carries READ, or a command that no row has. -/
theorem command_of_commandFits {m : Bytes} (hf : commandFits 1 m = true) (ho : messageOurs m = true) :
    (Request.read m).command = 1 ∨ (Request.read m).command = 0 ∨ 5 < (Request.read m).command := by
  simpa [commandFits, ho, Request.read, or_assoc] using hf

theorem writes_eq_false {q : Request} (h : q.command = 1 ∨ q.command = 0 ∨ 5 < q.command) : q.writes = false := by
  simp only [Request.writes, Bool.or_eq_false_iff, beq_eq_false_iff_ne]
  omega

/-- A well-formed request of a READ row is a READ. -/
theorem command_of_requestFormed {m : Bytes} (h : requestFormed m = true)
    (hc : (Request.read m).command = 1 ∨ (Request.read m).command = 0 ∨ 5 < (Request.read m).command) :
    (Request.read m).command = 1 := by
  rcases hc with hc | hc
  · exact hc
  · have hn : fieldAt m 5 1 % 128 = 0 ∨ 5 < fieldAt m 5 1 % 128 := hc
    simp only [requestFormed, Bool.and_eq_true] at h
    obtain ⟨-, h⟩ := h
    split at h
    iterate 5 omega
    exact absurd h (by decide)

/-- What follows a response's header. -/
theorem drop_response (q : Request) (r codes : Nat) (body : Bytes) :
    (response q r codes body).drop 16 = if r = 0 then body else [] := by
  simp [response, toLe]

/-- A response to a dictionary request leaves as one (R453). -/
theorem replied_sendMesh {s u : State} {m : Bytes} (ho : messageOurs m = true) (hu : u.out = s.out) (eid : Byte) (r codes : Nat)
    (hr : r < 256) (body : Bytes) :
    s.replied (sendMesh eid (response (Request.read m) r codes body) u) eid m r (if r = 0 then body else []) := by
  have h6 : fieldAt m 6 1 < 256 := fieldAt_lt m 6 1
  have h10 : fieldAt m 10 1 < 256 := fieldAt_lt m 10 1
  obtain ⟨f5, f6, f8, f10, f11⟩ := response_fields (Request.read m) r codes body h6 (Nat.mod_lt _ (by decide))
    (read_key_lt m) hr
  rw [read_key] at f8 f10
  refine ⟨_, by rw [sendMesh_mesh, hu], ?_, f5, f6, by omega, by omega, f11, drop_response ..⟩
  rw [eq_of_beq ho]
  rfl

/-! ### What an access that needs a sleeping block leaves (R23) -/

theorem laneAccess_awake {s : State} {key : Nat} (h : s.gated key = false) : laneAccess key s = s := by
  unfold laneAccess
  split
  · rfl
  · split
    · rename_i ha hp
      simp only [Bool.not_eq_true, Bool.or_eq_false_iff, Bool.not_eq_false'] at ha
      simp [State.gated, ha, hp] at h
    · rfl

theorem laneAccess_gated {s : State} {key : Nat} (h : s.gated key = true) :
    laneAccess key s = loseLanes (count 0x702004 1 s) := by
  simp only [State.gated, Bool.and_eq_true, Option.isNone_iff_eq_none, beq_iff_eq] at h
  obtain ⟨⟨⟨hl, hp⟩, hw⟩, hd⟩ := h
  simp [laneAccess, hl, hp, hw, hd]

theorem loseLanes_leaves (s : State) : Leaves [.hsOff, .heads, .lanes, .cache] s (loseLanes s) :=
  leaves_loseLanes (by decide) (Leaves.refl _ s)

theorem counter_loseLanes (s : State) (k : Nat) : (loseLanes s).counter k = s.counter k := by
  have h : (loseLanes s).dict.counters = s.dict.counters := (loseLanes_leaves s).same .counters (by decide)
  rw [State.counter, h, State.counter]

theorem laneAccess_leaves (key : Nat) (s : State) : Leaves [.hsOff, .counters, .heads, .lanes, .cache] s (laneAccess key s) :=
  leaves_laneAccess (by decide) (Leaves.refl _ s) key

theorem laneAccess_out (key : Nat) (s : State) : (laneAccess key s).out = s.out :=
  (laneAccess_leaves key s).same .out (by decide)

theorem laneAccess_mirror (key : Nat) (s : State) : (laneAccess key s).mirror = s.mirror :=
  (laneAccess_leaves key s).same .mirror (by decide)

/-- A read of an object that has done nothing else but set the mirror's registers and the outputs. -/
theorem keptByRead_of {s u t : State} {key : Nat} (hu : Leaves [.mirror] s u) (hd : u.dict = s.dict)
    (hg : u.gated key = s.gated key) (ht : Leaves [.mirror, .out] (laneAccess key u) t)
    (he : t.dict = (laneAccess key u).dict) : s.keptByRead t key ∧ (s.gated key = false → t.dict = s.dict) := by
  have hc : u.counter 0x702004 = s.counter 0x702004 := by rw [State.counter, hd, State.counter]
  refine ⟨⟨fun g => ?_, fun g => ⟨?_, ?_⟩⟩, fun g => ?_⟩
  · rw [laneAccess_awake (hg.trans g)] at ht
    exact (hu.mono (by decide)).trans ht (by decide) |>.same
  · rw [State.counter, he, ← State.counter, laneAccess_gated (hg.trans g), counter_loseLanes, counter_count, hc]
    rfl
  · have hl := (hu.mono (W := [.counters, .mirror, .out, .hsOff, .heads, .lanes, .cache]) (by decide)).trans
      (laneAccess_leaves key u) (by decide)
    exact (hl.trans ht (by decide)).same
  · rw [he, laneAccess_awake (hg.trans g), hd]

/-! ### What an object of the lane domain reads -/

theorem lookupKey_mem {α : Type} {m : List (Nat × α)} {k : Nat} {v : α} (h : lookupKey m k = some v) : (k, v) ∈ m := by
  induction m with
  | nil => exact absurd h (by simp [lookupKey])
  | cons e m ih =>
    obtain ⟨j, w⟩ := e
    unfold lookupKey at h
    split at h
    · rename_i hj
      rw [Option.some.injEq] at h
      simp [hj, h]
    · exact List.mem_cons_of_mem _ (ih h)

/-- The object is one of 0x7010 to 0x7090: its index, and that its subindex keeps to it. -/
theorem index_of_laneObject {key : Nat} (h : laneObject key = true) : 0x7010 ≤ key / 256 ∧ key / 256 ≤ 0x7090 := by
  simp only [laneObject, List.contains_eq_mem, List.mem_cons, List.not_mem_nil, or_false, decide_eq_true_eq] at h
  omega

/-- Every object of the lane domain is a counter. -/
theorem objInfo_laneObject {key : Nat} (h : laneObject key = true) : objInfo key = (counterType key).map (ro · 0) := by
  obtain ⟨lo, hi⟩ := index_of_laneObject h
  have hn : lookupKey (objectTable (key / 256)) key = none := by
    have ht : objectTable (key / 256) = objectsHigh := by
      rw [objectTable, if_neg (by omega), if_neg (by omega), if_neg (by omega)]
    rw [ht]
    refine Option.eq_none_iff_forall_ne_some.2 fun v hv => ?_
    have hall : ∀ e ∈ objectsHigh, laneObject e.1 = false := by decide
    exact absurd h (by rw [hall _ (lookupKey_mem hv)]; decide)
  unfold objInfo
  rw [if_neg (by omega), if_neg (by omega), if_neg (by omega), if_neg (by omega), hn]
  cases counterType key <;> rfl

theorem objValue_laneObject {key : Nat} {o : ObjInfo} (h : laneObject key = true) (ho : objInfo key = some o) (s : State)
    (staged : Bool) : s.objValue key staged = s.counter key := by
  obtain ⟨lo, hi⟩ := index_of_laneObject h
  obtain ⟨t, ht, rfl⟩ : ∃ t, counterType key = some t ∧ ro t 0 = o := by
    rw [objInfo_laneObject h] at ho
    exact Option.map_eq_some_iff.1 ho
  have hm : s.readMember key = some (s.counter key) := by
    unfold State.readMember
    rw [if_neg (by omega), if_neg (by omega), if_neg (by omega), ht]
    rfl
  simp [State.objValue, ho, hm, ro, scalar]

/-- An access that wakes the lane clock reads what the object read before. -/
theorem objValue_laneAccess {key : Nat} {o : ObjInfo} (ho : objInfo key = some o) (s : State) (staged : Bool) :
    (laneAccess key s).objValue key staged = s.objValue key staged := by
  cases h : s.gated key with
  | false => rw [laneAccess_awake h]
  | true =>
    have hl : laneObject key = true := by
      simp only [State.gated, Bool.and_eq_true] at h
      exact h.1.1.1
    have hk : key ≠ 0x702004 := fun e => by
      rw [e] at hl
      exact absurd hl (by decide)
    rw [objValue_laneObject hl ho, objValue_laneObject hl ho, laneAccess_gated h, counter_loseLanes,
      counter_count_other 1 s hk]

/-- Which nodes a context holds alone is a matter of the history's nodes. -/
theorem privateIds_eq {s t : State} (h : t.contexts.nodes = s.contexts.nodes) (ids : List Nat) :
    privateIds t ids = privateIds s ids := by
  induction ids with
  | nil => rfl
  | cons id ids ih =>
    have hn : t.node id = s.node id := by rw [State.node, h, State.node]
    rw [privateIds, privateIds, hn, ih]

theorem contextEntry_dropHalves (s : State) (t : Nat) : (dropHalves s).contextEntry t = s.contextEntry t := by
  have hp : ∀ c, (dropHalves s).privatePages c = s.privatePages c := fun c => by
    simp only [State.privatePages, State.nodePagesOf, privateIds_eq (s := s) (t := dropHalves s) rfl]
    rfl
  simp only [State.contextEntry, hp]
  rfl

/-- No object reads the mirror's registers. -/
theorem objValue_dropHalves (s : State) (key : Nat) (staged : Bool) :
    (dropHalves s).objValue key staged = s.objValue key staged := by
  have hm : (dropHalves s).readMember key = s.readMember key := by
    simp only [State.readMember, contextEntry_dropHalves]
    rfl
  simp only [State.objValue, hm]
  rfl

/-! ### A READ over the mesh -/

theorem exec_read_mesh {m : Bytes} (hf : commandFits 1 m = true) (eid : Byte) (s : State) :
    exec (.read (.mesh eid m)) s = .next (meshRequest eid m s) := if_pos hf

theorem meshRequest_unassigned {s : State} (hm : s.managementUp = true) (he : s.dict.endpoint = 0) (eid : Byte) (m : Bytes) :
    meshRequest eid m s = dropUnassigned s := by
  rw [meshRequest, hm, if_neg (by decide), if_pos he]

theorem meshRequest_foreign {s : State} {m : Bytes} (hm : s.managementUp = true) (he : s.dict.endpoint ≠ 0)
    (ho : messageOurs m = false) (eid : Byte) : meshRequest eid m s = count 0x700003 1 s := by
  rw [meshRequest, hm, if_neg (by decide), if_neg he, ho]
  rfl

theorem meshRequest_answered {s t : State} {m r : Bytes} {eid : Byte} (hm : s.managementUp = true) (he : s.dict.endpoint ≠ 0)
    (ho : messageOurs m = true) (h : runMessage (s.asker eid) (.endpoint eid) m s = (some r, t)) :
    meshRequest eid m s = sendMesh eid r t := by
  rw [meshRequest, hm, if_neg (by decide), if_neg he, ho, if_neg (by decide), h]

theorem runMessage_short {m : Bytes} (h : m.length < 16) (a : Asker) (who : Requester) (s : State) :
    runMessage a who m s = (some (response (Request.read m) 7 0 []), count 0x700004 1 s) := if_pos h

theorem runMessage_unknown {m : Bytes} (h : 16 ≤ m.length) (ho : objInfo (Request.read m).key = none) (a : Asker)
    (who : Requester) (s : State) :
    runMessage a who m s = (some (response (Request.read m) 1 0 []), reject s) := by
  rw [runMessage, if_neg (by omega), ho]
  rfl

theorem runMessage_object {m : Bytes} {o : ObjInfo} (h : 16 ≤ m.length) (ho : objInfo (Request.read m).key = some o) (a : Asker)
    (who : Requester) (s : State) : runMessage a who m s = runOn a who m (Request.read m) o s := by
  rw [runMessage, if_neg (by omega), ho]

section
variable {s : State} {a : Asker} {m : Bytes} {q : Request} {o : ObjInfo}

/-- Closure goes before every check of the layout (R493): a closed object reads 0. -/
theorem runOn_closed (hw : q.command = 1 ∨ q.command = 0 ∨ 5 < q.command) (h1 : requestFormed m = true → q.command = 1)
    (hp : s.permits a o q.key false = false) (who : Requester) :
    runOn a who m q o s =
      (some (response q 0 0 (if q.command = 1 then toLe 8 0 else [])), refuseAccess s) := by
  unfold runOn
  simp only [writes_eq_false hw, hp]
  cases hf : requestFormed m with
  | false =>
    have hb : closedBody q o = if q.command = 1 then toLe 8 0 else [] := by
      rcases hw with h | h | h
      · rw [closedBody, h]
        rfl
      · rw [closedBody, h]
        rfl
      · rw [closedBody, if_neg (by omega)]
        split
        iterate 3 omega
        rfl
    rw [hb]
    rfl
  | true =>
    rw [runObject, h1 hf]
    rfl

theorem runOn_malformed (hw : q.writes = false) (hf : requestFormed m = false) (hp : s.permits a o q.key false = true)
    (who : Requester) : runOn a who m q o s = (some (response q 7 (codesOf o true) []), count 0x700004 1 s) := by
  unfold runOn
  rw [hw, hp, hf]
  rfl

theorem runOn_block (h1 : q.command = 1) (hf : requestFormed m = true) (hp : s.permits a o q.key false = true)
    (hb : o.isBlock = true) (who : Requester) :
    runOn a who m q o s = (some (response q 2 (codesOf o true) []), reject s) := by
  have hr : runObject who q o true s = ⟨2, [], s⟩ := by simp [runObject, h1, runRead, hb]
  have hw : q.writes = false := writes_eq_false (.inl h1)
  unfold runOn
  simp only [hw, hp, hf, hr]
  rfl

theorem runOn_read (h1 : q.command = 1) (hf : requestFormed m = true) (hp : s.permits a o q.key false = true)
    (hb : o.isBlock = false) (ho : objInfo q.key = some o) (who : Requester) :
    runOn a who m q o s =
      (some (response q 0 (codesOf o true) (toLe 8 (s.objValue q.key q.staged))), laneAccess q.key s) := by
  have hr : runObject who q o true s = ⟨0, toLe 8 (s.objValue q.key q.staged), laneAccess q.key s⟩ := by
    simp [runObject, h1, runRead, hb, objValue_laneAccess ho]
  have hw : q.writes = false := writes_eq_false (.inl h1)
  unfold runOn
  simp only [hw, hp, hf, hr]
  rfl

end

theorem sendMesh_leaves (eid : Byte) (r : Bytes) (s : State) : Leaves [.out] s (sendMesh eid r s) :=
  leaves_sendMesh (by decide) (Leaves.refl _ s) eid r

theorem count_leaves (key k : Nat) (s : State) : Leaves [.counters] s (count key k s) :=
  leaves_count (by decide) (Leaves.refl _ s) key k

/-- What a READ over the mesh that names an object comes to (R448 to R453, R493). -/
theorem read_mesh_object {s : State} {eid : Byte} {m : Bytes} {o : ObjInfo} (hm : s.managementUp = true)
    (hf : commandFits 1 m = true) (he : s.dict.endpoint ≠ 0) (hours : messageOurs m = true) (hlen : 16 ≤ m.length)
    (ho : objInfo (Request.read m).key = some o) :
    ∃ t, exec (.read (.mesh eid m)) s = .next t ∧
      (s.permits (s.asker eid) o (Request.read m).key false = false →
        s.replied t eid m 0 (if fieldAt m 5 1 % 128 = 1 then toLe 8 0 else []) ∧
        t.counter 0x700002 = bump 32 (s.counter 0x700002) 1 ∧ ∀ p, p ∉ [Part.counters, .out] → p.same s t) ∧
      (s.permits (s.asker eid) o (Request.read m).key false = true → requestFormed m = false → s.replied t eid m 7 [] ∧
        t.counter 0x700004 = bump 32 (s.counter 0x700004) 1 ∧ ∀ p, p ∉ [Part.counters, .out] → p.same s t) ∧
      (s.permits (s.asker eid) o (Request.read m).key false = true → requestFormed m = true →
        (o.isBlock = true → s.replied t eid m 2 [] ∧ t.counter 0x700001 = bump 32 (s.counter 0x700001) 1) ∧
        (o.isBlock = false → s.replied t eid m 0 (toLe 8 (s.objValue (Request.read m).key (bit (fieldAt m 7 1) 0))) ∧
          s.keptByRead t (Request.read m).key ∧ t.mirror = s.mirror ∧
          (s.gated (Request.read m).key = false → t.dict = s.dict))) := by
  have hw := command_of_commandFits hf hours
  have h1 := fun h => command_of_requestFormed h hw
  have hrun := runMessage_object hlen ho (s.asker eid) (.endpoint eid) s
  have kept : ∀ key r, Leaves [.counters, .out] s (sendMesh eid r (count key 1 s)) := fun key r =>
    ((count_leaves key 1 s).mono (by decide)).trans (sendMesh_leaves eid r _) (by decide)
  refine ⟨_, exec_read_mesh hf eid s, ?_, ?_, ?_⟩
  · intro hp
    rw [meshRequest_answered hm he hours (hrun.trans (runOn_closed hw h1 hp _))]
    exact ⟨replied_sendMesh hours rfl eid 0 0 (by decide) _, counter_count .., (kept 0x700002 _).same⟩
  · intro hp hn
    rw [meshRequest_answered hm he hours (hrun.trans (runOn_malformed (writes_eq_false hw) hn hp _))]
    exact ⟨replied_sendMesh hours rfl eid 7 _ (by decide) _, counter_count .., (kept 0x700004 _).same⟩
  · intro hp hn
    refine ⟨fun hb => ?_, fun hb => ?_⟩
    · rw [meshRequest_answered hm he hours (hrun.trans (runOn_block (h1 hn) hn hp hb _))]
      exact ⟨replied_sendMesh hours rfl eid 2 _ (by decide) _, counter_count ..⟩
    · rw [meshRequest_answered hm he hours (hrun.trans (runOn_read (h1 hn) hn hp hb ho _))]
      obtain ⟨hk, hd⟩ := keptByRead_of (u := s) (Leaves.refl _ s) rfl rfl
        ((sendMesh_leaves eid _ (laneAccess (Request.read m).key s)).mono (by decide)) rfl
      exact ⟨replied_sendMesh hours (laneAccess_out _ s) eid 0 _ (by decide) _, hk, laneAccess_mirror _ s, hd⟩

/-! ### A read through the mirror -/

theorem slotOffset_lt {key : Nat} (h : key < 2 ^ 24) : slotOffset key + 4 < 0x08000000 := by
  unfold slotOffset
  omega

theorem windowKey_slotOffset (key : Nat) : windowKey (slotOffset key) = key ∧ windowKey (slotOffset key + 4) = key := by
  unfold windowKey slotOffset
  omega

theorem slotOffset_mod (key : Nat) : slotOffset key % 8 = 0 := by
  unfold slotOffset
  omega

theorem mirrorRead_isolated {s : State} (h : s.managementUp = false) (offset : Nat) : mirrorRead offset s = mirrorData 0 s := by
  rw [mirrorRead, h]
  rfl

theorem mirrorRead_window {s : State} {offset : Nat} (hm : s.managementUp = true) (h : offset < 0x08000000) :
    mirrorRead offset s = windowRead offset s.mirror.heldHigh (dropHalves s) := by
  simp [mirrorRead, hm, h]

/-- A read at +0 of an object's slot reads the object now, whatever an earlier read kept. -/
theorem windowRead_low {key : Nat} {o : ObjInfo} (ho : objInfo key = some o) (high : Option (Nat × Nat)) (s : State) :
    windowRead (slotOffset key) high s = windowRead.windowValue key false (slotOffset key) o s := by
  have h0 := slotOffset_mod key
  rw [windowRead, (windowKey_slotOffset key).1, ho]
  simp only [h0, Nat.reduceBEq, Bool.false_and, Bool.false_eq_true, if_false, false_and]
  split <;> rfl

/-- A read at +4 just behind one at +0 gives the upper word that one kept (R460). -/
theorem windowRead_high {key w : Nat} {o : ObjInfo} (ho : objInfo key = some o) (h8 : o.size = 8) (s : State) :
    windowRead (slotOffset key + 4) (some (slotOffset key, w)) s = mirrorData w s := by
  have h4 : (slotOffset key + 4) % 8 = 4 := by
    have := slotOffset_mod key
    omega
  rw [windowRead, (windowKey_slotOffset key).2, ho]
  simp [h4, h8]

theorem windowRead_unknown {offset : Nat} (h : objInfo (windowKey offset) = none) (high : Option (Nat × Nat)) (s : State) :
    windowRead offset high s = mirrorData 0 (setLast 1 s) := by
  rw [windowRead, h]

theorem windowValue_closed {s : State} {key : Nat} {o : ObjInfo} (h : s.permits .operator o key false = false) (upper : Bool)
    (offset : Nat) : windowRead.windowValue key upper offset o s = mirrorData 0 (setLast 0 (refuseAccess s)) := by
  rw [windowRead.windowValue, h]
  rfl

/-- An open scalar's value at +0: its low word, the upper word of an 8-byte one kept. -/
theorem windowValue_open {s : State} {key : Nat} {o : ObjInfo} (ho : objInfo key = some o) (hb : o.isBlock = false)
    (h : s.permits .operator o key false = true) (offset : Nat) :
    ∃ t, windowRead.windowValue key false offset o s = t ∧ t.out.mirror = BitVec.ofNat 32 (s.objValue key s.mirror.stagedView) ∧
      t.mirror.lastResult = 0 ∧
      (o.size = 8 → t.mirror.heldHigh = some (offset, s.objValue key s.mirror.stagedView / 2 ^ 32)) ∧
      Leaves [.mirror, .out] (laneAccess key s) t ∧ t.dict = (laneAccess key s).dict := by
  have hv : (laneAccess key s).objValue key (laneAccess key s).mirror.stagedView = s.objValue key s.mirror.stagedView := by
    rw [objValue_laneAccess ho, laneAccess_mirror]
  have hl : Leaves [.mirror, .out] (laneAccess key s) (setLast 0 (laneAccess key s)) :=
    Leaves.setMirror (by decide) _ (Leaves.refl _ _)
  refine ⟨_, rfl, ?_⟩
  simp only [windowRead.windowValue, h, hb, hv, Bool.not_true, Bool.false_eq_true, if_false]
  by_cases h8 : o.size = 8
  · rw [if_pos h8]
    refine ⟨?_, rfl, fun _ => rfl, leaves_mirrorData (by decide) (Leaves.setMirror (by decide) _ hl) _, rfl⟩
    show BitVec.ofNat 32 (_ % 2 ^ 32) = _
    exact BitVec.eq_of_toNat_eq (by simp)
  · rw [if_neg h8]
    exact ⟨rfl, rfl, fun e => absurd e h8, leaves_mirrorData (by decide) hl _, rfl⟩

theorem dropHalves_leaves (s : State) : Leaves [.mirror] s (dropHalves s) := leaves_dropHalves (by decide) (Leaves.refl _ s)

/-- Settles O42: each form of request, by the checks it passes in turn. -/
theorem readsAreAnswered : Obligations.ReadsAreAnswered := by
  unfold Obligations.ReadsAreAnswered
  refine ⟨fun s eid m key hm hf hkey => ⟨fun hd => ?_, fun he hours => ⟨fun hs => ?_, fun hl hn => ?_, fun o hl ho => ?_⟩⟩,
    fun s offset => ⟨fun hm => ?_, fun key o hm ho hb hk hp => ⟨fun hoff => ?_, fun w h8 hoff hh => ?_⟩,
      fun key o hm ho hb hk hp hoff => ?_, fun hm hoff ho => ?_⟩⟩
  · refine ⟨_, exec_read_mesh hf eid s, ?_⟩
    by_cases he : s.dict.endpoint = 0
    · rw [meshRequest_unassigned hm he]
      exact ⟨raiseCount_out .., counter_raiseCount_self (by decide)⟩
    · rw [meshRequest_foreign hm he (hd.resolve_left he)]
      exact ⟨rfl, counter_count ..⟩
  · refine ⟨_, exec_read_mesh hf eid s, ?_⟩
    rw [meshRequest_answered hm he hours (runMessage_short hs ..)]
    exact ⟨replied_sendMesh hours rfl eid 7 0 (by decide) [], counter_count ..⟩
  · refine ⟨_, exec_read_mesh hf eid s, ?_⟩
    subst hkey
    rw [meshRequest_answered hm he hours (runMessage_unknown hl hn ..)]
    exact ⟨replied_sendMesh hours rfl eid 1 0 (by decide) [], counter_count ..⟩
  · subst hkey
    exact read_mesh_object hm hf he hours hl ho
  · exact ⟨_, rfl, by rw [mirrorRead_isolated hm]; rfl, by rw [mirrorRead_isolated hm]; rfl,
      by rw [mirrorRead_isolated hm]; rfl⟩
  · subst hoff
    have e : mirrorRead (slotOffset key) s = windowRead.windowValue key false (slotOffset key) o (dropHalves s) := by
      rw [mirrorRead_window hm (Nat.lt_of_le_of_lt (Nat.le_add_right _ 4) (slotOffset_lt hk)), windowRead_low ho]
    obtain ⟨t, ht, hv, hr, h8, hl, hd⟩ := windowValue_open ho hb (s := dropHalves s) hp (slotOffset key)
    rw [objValue_dropHalves] at hv h8
    obtain ⟨kept, same⟩ := keptByRead_of (dropHalves_leaves s) rfl rfl hl hd
    exact ⟨t, congrArg Host.Outcome.next (e.trans ht), hv, hr, h8, kept, same⟩
  · subst hoff
    have e : mirrorRead (slotOffset key + 4) s = mirrorData w (dropHalves s) := by
      rw [mirrorRead_window hm (slotOffset_lt hk), hh, windowRead_high ho h8]
    exact ⟨_, congrArg Host.Outcome.next e, rfl, rfl,
      (((dropHalves_leaves s).mono (by decide)).trans (leaves_mirrorData (by decide) (Leaves.refl _ _) w)
        (List.Subset.refl _)).same⟩
  · subst hoff
    have e : mirrorRead (slotOffset key) s = mirrorData 0 (setLast 0 (refuseAccess (dropHalves s))) := by
      rw [mirrorRead_window hm (Nat.lt_of_le_of_lt (Nat.le_add_right _ 4) (slotOffset_lt hk)), windowRead_low ho,
        windowValue_closed (s := dropHalves s) hp]
    exact ⟨_, congrArg Host.Outcome.next e, rfl, rfl, counter_count ..⟩
  · have e : mirrorRead offset s = mirrorData 0 (setLast 1 (dropHalves s)) := by
      rw [mirrorRead_window hm hoff, windowRead_unknown ho]
    exact ⟨_, congrArg Host.Outcome.next e, rfl, rfl⟩

end Sys2Proof.Machine
end

section
/-! PROOF. What words in error do to the running step (tables 17.5, 17.6): its rows may take a status, and nothing else
of it changes. -/

namespace Sys2Proof.Machine

/-- A row without its status. -/
def RowRun.bare (x : RowRun) : RowRun := { x with status := 0 }

/-- A step without its rows' statuses. -/
def StepRun.bare (r : StepRun) : StepRun := { r with rows := r.rows.map RowRun.bare }

/-- The running step without its rows' statuses. -/
def State.bareRun (s : State) : Option StepRun := s.steps.run.map StepRun.bare

/-! ### Steps that differ in statuses alone -/

theorem run_of_bareRun {s t : State} {r : StepRun} (h : t.bareRun = s.bareRun) (hr : s.steps.run = some r) :
    ∃ q, t.steps.run = some q ∧ q.bare = r.bare := by
  rw [State.bareRun, State.bareRun, hr, Option.map_some] at h
  exact Option.map_eq_some_iff.1 h

theorem bare_rows {r q : StepRun} (h : q.bare = r.bare) : q.rows.map RowRun.bare = r.rows.map RowRun.bare :=
  congrArg StepRun.rows h

theorem bare_length {r q : StepRun} (h : q.bare = r.bare) : q.rows.length = r.rows.length := by
  simpa using congrArg List.length (bare_rows h)

theorem bare_groups {r q : StepRun} (h : q.bare = r.bare) : q.groups = r.groups := by
  show q.bare.groups = r.bare.groups
  rw [h]

/-- Row by row, only the status differs. -/
theorem bare_row {r q : StepRun} (h : q.bare = r.bare) {i : Nat} {x : RowRun} (hx : r.rows[i]? = some x) :
    ∃ y, q.rows[i]? = some y ∧ y.bare = x.bare := by
  have e := congrArg (·[i]?) (bare_rows h)
  simp only [List.getElem?_map, hx, Option.map_some] at e
  exact Option.map_eq_some_iff.1 e

theorem bareRun_of_leaves {W : List Part} {s t : State} (h : Leaves W s t) (hW : .run ∉ W) : t.bareRun = s.bareRun := by
  have e : t.steps.run = s.steps.run := h.same .run hW
  rw [State.bareRun, e, State.bareRun]

theorem group_of_bareRun {s t : State} (h : t.bareRun = s.bareRun) (g : Nat) : t.group g = s.group g := by
  have e : ∀ u : State, u.group g = u.bareRun.bind (·.groups[g]?) := fun u => by
    rw [State.group, State.bareRun, Option.bind_map]
    rfl
  rw [e, e, h]

/-! ### Giving rows a status -/

theorem map_modify_eq {α β : Type} (f : α → β) (g : α → α) (h : ∀ x, f (g x) = f x) (l : List α) (i : Nat) :
    (l.modify i g).map f = l.map f := by
  refine List.ext_getElem? fun j => ?_
  rw [List.getElem?_map, List.getElem?_map, List.getElem?_modify]
  cases l[j]? with
  | none => rfl
  | some x =>
    by_cases e : i = j
    · simp [e, h]
    · simp [e]

theorem bareRun_markRow (i status : Nat) (s : State) : (markRow i status s).bareRun = s.bareRun := by
  show (s.steps.run.map _).map _ = s.steps.run.map _
  rw [Option.map_map]
  refine congrArg (Option.map · s.steps.run) (funext fun r => ?_)
  exact congrArg (fun rows => { r with rows := rows }) (map_modify_eq RowRun.bare
    (fun x => { x with status := mergeStatus x.status status }) (fun _ => rfl) r.rows i)

theorem bareRun_foldl {α : Type} {f : State → α → State} (h : ∀ s x, (f s x).bareRun = s.bareRun) (l : List α)
    (s : State) : (l.foldl f s).bareRun = s.bareRun := by
  induction l generalizing s with
  | nil => rfl
  | cons x l ih => rw [List.foldl_cons, ih, h]

theorem bareRun_markRows (is : List Nat) (status : Nat) (s : State) : (markRows is status s).bareRun = s.bareRun :=
  bareRun_foldl (fun s i => bareRun_markRow i status s) is s

theorem stepRows_markRow (i status : Nat) (s : State) :
    (markRow i status s).stepRows = s.stepRows.modify i fun x => { x with status := mergeStatus x.status status } := by
  cases h : s.steps.run with
  | none => simp [State.stepRows, markRow, withRun, h]
  | some r => simp [State.stepRows, markRow, withRun, h]

/-- Distinct rows that take a status take it once. -/
theorem stepRows_markRows {is : List Nat} (hn : is.Nodup) (status : Nat) (s : State) (i : Nat) :
    (markRows is status s).stepRows[i]? =
      (s.stepRows[i]?).map fun x => if i ∈ is then { x with status := mergeStatus x.status status } else x := by
  induction is generalizing s with
  | nil => simp [markRows]
  | cons k is ih =>
    obtain ⟨hk, hn⟩ := List.nodup_cons.1 hn
    rw [show markRows (k :: is) status s = markRows is status (markRow k status s) from rfl, ih hn, stepRows_markRow,
      List.getElem?_modify]
    cases s.stepRows[i]? with
    | none => rfl
    | some x =>
      by_cases e : k = i
      · subst e
        simp [hk]
      · simp [e, Ne.symm e]

/-! ### Words met in error -/

theorem bareRun_correctedWord (w : Nat) (e : EccHit) (s : State) : (correctedWord w e s).bareRun = s.bareRun :=
  bareRun_of_leaves (leaves_correctedWord (List.Subset.refl _) (Leaves.refl _ s) w e) (by decide)

theorem bareRun_noteUncorrectable (w : Nat) (e : EccHit) (s : State) : (noteUncorrectable w e s).bareRun = s.bareRun :=
  bareRun_of_leaves (leaves_noteUncorrectable (List.Subset.refl _) (Leaves.refl _ s) w e) (by decide)

theorem bareRun_loseSlot (slot : Nat) (s : State) : (loseSlot slot s).bareRun = s.bareRun := by
  refine Eq.trans ?_ (bareRun_markRows (s.rowsOfSlot slot) 0x1120 s)
  unfold loseSlot
  generalize markRows (s.rowsOfSlot slot) 0x1120 s = u
  dsimp only
  split
  · refine bareRun_of_leaves (W := [.events, .counters, .slots, .pages, .batches, .snapshot, .mem, .fresh])
      (leaves_raiseArgs (by decide) (leaves_ite ?_ ?_) ..) (by decide)
    · exact leaves_freeContext (by decide) (Leaves.refl _ u) slot
    · exact leaves_freeSlot (by decide) (Leaves.refl _ u) slot
  · rfl

theorem bareRun_uncorrectableWork (e : EccHit) (rows group : List Nat) (s : State) :
    (uncorrectableWork e rows group s).bareRun = s.bareRun := by
  refine Eq.trans ?_ (bareRun_noteUncorrectable 1 e s)
  unfold uncorrectableWork
  generalize noteUncorrectable 1 e s = u
  dsimp only
  split
  · exact bareRun_markRows group 0x1120 u
  · exact bareRun_markRows rows 0x1120 u
  · exact bareRun_markRows _ 0x1120 u
  · exact bareRun_loseSlot _ u
  · rfl
  · exact bareRun_markRows rows 0x1120 u
  · rfl
  · rfl

theorem bareRun_groupHits (g : Nat) (es : List EccHit) (s : State) : (groupHits g es s).bareRun = s.bareRun := by
  unfold groupHits workHits
  split
  · refine bareRun_foldl (fun s e => ?_) es s
    split
    · exact bareRun_uncorrectableWork ..
    · exact bareRun_correctedWord ..
  · rfl

theorem bareRun_readHits (es : List EccHit) (s : State) : (readHits es s).bareRun = s.bareRun := by
  refine bareRun_foldl (fun s e => ?_) _ s
  unfold contextHit
  split
  · exact bareRun_correctedWord ..
  · refine Eq.trans ?_ (bareRun_noteUncorrectable 1 e s)
    dsimp only
    split
    · exact bareRun_loseSlot ..
    · rfl

/-- Reads that meet no word in error change nothing. -/
theorem groupHits_nil (g : Nat) (s : State) : groupHits g [] s = s := by
  unfold groupHits
  split <;> rfl

theorem groupHits_leaves (g : Nat) (es : List EccHit) (s : State) :
    Leaves [.events, .counters, .settings, .heads, .fseq, .slots, .pages, .batches, .cache, .run, .snapshot, .corrected, .mem,
      .fresh] s (groupHits g es s) := leaves_groupHits (List.Subset.refl _) (Leaves.refl _ s) g es

/-! ### Changes of a group -/

theorem group_withGroup (g : Nat) (f : GroupRun → GroupRun) (s : State) : (withGroup g f s).group g = (s.group g).map f := by
  show (s.steps.run.map _).bind _ = _
  rw [State.group]
  cases s.steps.run with
  | none => rfl
  | some r => simp

theorem group_eq {s : State} {r : StepRun} (h : s.steps.run = some r) (g : Nat) : s.group g = r.groups[g]? := by
  rw [State.group, h]
  rfl

end Sys2Proof.Machine
end

section
/-! PROOF. INTAKE_END and TILE_EXCHANGE: a pass group's operands, its tiles and their latencies (R28, R143 to R156,
R505). -/

namespace Sys2Proof.Machine

/-! ### Intake -/

theorem intakeRow_idle {s : State} {r : StepRun} {x : RowRun} (h : x.desc.external = true ∨ x.refusal ≠ 0) :
    intakeRow s r x = x := if_pos h

/-- The step's rows after the intake of a group: its own have their operands. -/
def intakeRows (s : State) (r : StepRun) (gr : GroupRun) : List RowRun :=
  (r.rows.zip (List.range r.rows.length)).map fun (x, i) =>
    if gr.start ≤ i ∧ i < gr.start + gr.count then intakeRow s r x else x

theorem intakeRows_length (s : State) (r : StepRun) (gr : GroupRun) : (intakeRows s r gr).length = r.rows.length := by
  simp [intakeRows]

theorem intakeRows_row (s : State) {r : StepRun} (gr : GroupRun) {i : Nat} {x : RowRun} (hx : r.rows[i]? = some x) :
    (intakeRows s r gr)[i]? = some (if gr.start ≤ i ∧ i < gr.start + gr.count then intakeRow s r x else x) := by
  have hi : i < r.rows.length := (List.getElem?_eq_some_iff.1 hx).1
  have hz : (r.rows.zip (List.range r.rows.length))[i]? = some (x, i) :=
    List.getElem?_zip_eq_some.2 ⟨hx, List.getElem?_range hi⟩
  rw [intakeRows, List.getElem?_map, hz]
  rfl

theorem run_withRun (f : StepRun → StepRun) {s : State} {r : StepRun} (hr : s.steps.run = some r) :
    (withRun f s).steps.run = some (f r) := congrArg (Option.map f) hr

theorem runIntake_eq {s : State} {g : Nat} {r : StepRun} {gr : GroupRun} (hr : s.steps.run = some r)
    (hg : s.group g = some gr) : runIntake g s = withRun (fun q => { q with rows := intakeRows s r gr })
      (withGroup g (fun gr => { gr with intake := true }) s) := by
  rw [runIntake, hr, hg]
  rfl

/-- Intake forms the operands of the group's rows and leaves every other row. -/
theorem run_runIntake {s : State} {g : Nat} {r : StepRun} {gr : GroupRun} (hr : s.steps.run = some r)
    (hg : s.group g = some gr) : ∃ q, (runIntake g s).steps.run = some q ∧ q.rows = intakeRows s r gr := by
  rw [runIntake_eq hr hg]
  exact ⟨_, run_withRun _ (run_withRun _ hr), rfl⟩

theorem group_withRows (rows : List RowRun) (s : State) (g : Nat) :
    (withRun (fun q => { q with rows := rows }) s).group g = s.group g := by
  show (s.steps.run.map _).bind _ = s.steps.run.bind _
  rw [Option.bind_map]
  rfl

theorem group_runIntake {s : State} {g : Nat} {r : StepRun} {gr : GroupRun} (hr : s.steps.run = some r)
    (hg : s.group g = some gr) : (runIntake g s).group g = some { gr with intake := true } := by
  rw [runIntake_eq hr hg, group_withRows, group_withGroup, hg]
  rfl

/-- A row's operands are not its status. -/
theorem operands_of_bare {x y : RowRun} (h : y.bare = x.bare) :
    y.main = x.main ∧ y.second = x.second ∧ y.criticOp = x.criticOp :=
  ⟨show y.bare.main = x.bare.main by rw [h], show y.bare.second = x.bare.second by rw [h],
    show y.bare.criticOp = x.bare.criticOp by rw [h]⟩

/-- INTAKE_END gives the group's rows their operands, whatever words in error its reads met. -/
theorem intakeEnd_row {s : State} {g : Nat} {ecc : List EccHit} {r q : StepRun} {gr : GroupRun}
    (hr : s.steps.run = some r) (hg : s.group g = some gr)
    (hq : (groupHits g ecc (runIntake g s)).steps.run = some q) {i : Nat} {x : RowRun} (hx : r.rows[i]? = some x) :
    ∃ y, q.rows[i]? = some y ∧
      (gr.start ≤ i ∧ i < gr.start + gr.count → y.main = (intakeRow s r x).main ∧ y.second = (intakeRow s r x).second ∧
        y.criticOp = (intakeRow s r x).criticOp ∧ (ecc = [] → y = intakeRow s r x)) ∧
      (i < gr.start ∨ gr.start + gr.count ≤ i ∨ x.refusal ≠ 0 ∨ x.desc.external = true →
        y.main = x.main ∧ y.second = x.second ∧ y.criticOp = x.criticOp ∧ (ecc = [] → y = x)) := by
  obtain ⟨p, hp, hrows⟩ := run_runIntake hr hg
  have hrow : p.rows[i]? = some (if gr.start ≤ i ∧ i < gr.start + gr.count then intakeRow s r x else x) :=
    hrows ▸ intakeRows_row s gr hx
  obtain ⟨q', hq', hbare⟩ := run_of_bareRun (bareRun_groupHits g ecc (runIntake g s)) hp
  obtain rfl : q' = q := Option.some.inj (hq'.symm.trans hq)
  obtain ⟨y, hy, hyb⟩ := bare_row hbare hrow
  obtain ⟨hmain, hsecond, hcritic⟩ := operands_of_bare hyb
  have hsame : ecc = [] → y = if gr.start ≤ i ∧ i < gr.start + gr.count then intakeRow s r x else x := fun e => by
    rw [e, groupHits_nil, hp] at hq
    rw [← Option.some.inj hq, hrow] at hy
    exact (Option.some.inj hy).symm
  refine ⟨y, hy, fun hin => ?_, fun hout => ?_⟩
  · rw [if_pos hin] at hmain hsecond hcritic hsame
    exact ⟨hmain, hsecond, hcritic, hsame⟩
  · have hkeep : (if gr.start ≤ i ∧ i < gr.start + gr.count then intakeRow s r x else x) = x := by
      rw [ite_eq_right_iff]
      intro hin
      rcases hout with h | h | h | h
      · omega
      · omega
      · exact intakeRow_idle (.inr h)
      · exact intakeRow_idle (.inl h)
    rw [hkeep] at hmain hsecond hcritic hsame
    exact ⟨hmain, hsecond, hcritic, hsame⟩

/-! ### Latencies -/

theorem noteLatency_leaves (latency : Nat) (s : State) : Leaves [.latency, .events, .counters] s (noteLatency latency s) :=
  leaves_noteLatency (List.Subset.refl _) (Leaves.refl _ s) latency

/-- A load's latency is read (R105); the run of slow loads is 0 after a quick one and begins again at the 16th. -/
theorem sensing_noteLatency (latency : Nat) (s : State) :
    (noteLatency latency s).sensing.headLatency = min latency 65535 ∧
    (latency ≤ 40 → (noteLatency latency s).sensing.slowLoads = 0) ∧
    (40 < latency → s.sensing.slowLoads ≠ 15 → (noteLatency latency s).sensing.slowLoads = s.sensing.slowLoads + 1) ∧
    (40 < latency → s.sensing.slowLoads = 15 → (noteLatency latency s).sensing.slowLoads = 0) := by
  unfold noteLatency
  by_cases hl : 40 < latency
  · by_cases h15 : s.sensing.slowLoads = 15
    · simp [hl, h15]
    · simp [hl, h15]
  · simp [hl]

/-- The 16th successive slow load raises HEAD_STORE_SLOW (table 3.4). -/
theorem queued_noteLatency {latency : Nat} {s : State} (h : 40 < latency) (h15 : s.sensing.slowLoads = 15)
    (he : s.events.events.length < 255) : (noteLatency latency s).queued 0x0307 0 0 0 := by
  unfold noteLatency
  rw [if_pos h, h15]
  exact queued_raiseArgs he

/-! ### Which tile is due -/

/-- The bricks of a group are a matter of the applied values, this unit's address and the head slots. -/
theorem passes_eq {s t : State} (ha : t.dict.applied = s.dict.applied) (hw : t.dict.rw = s.dict.rw) (hh : t.heads = s.heads)
    (r : StepRun) (g : GroupRun) : t.passes r g = s.passes r g := by
  simp only [State.passes, State.course, State.brickCount, State.brickTokens, State.vocab, State.bond, State.address,
    State.placeOf, State.layout, State.head, State.cfg, State.rwVal, ha, hw, hh]

theorem frameOf_eq {s t : State} (hh : t.heads = s.heads) (p : Pass) (k : Nat) : t.frameOf p k = s.frameOf p k := by
  simp only [State.frameOf, State.layout, State.head, hh]

theorem readTile_eq {s t : State} (hh : t.heads = s.heads) (hp : t.upkeep.hsPass = s.upkeep.hsPass) (slot frame : Nat) :
    t.readTile slot frame = s.readTile slot frame := by
  simp only [State.readTile, State.head, hh, hp]

/-- The tile that the shadow set loads next. -/
def State.tileAhead (s : State) : Option Tile := s.nextTile.map fun n => s.readTile n.1 n.2

theorem tileAhead_eq {W : List Part} {s t : State} (h : Leaves W s t)
    (hW : Part.applied ∉ W ∧ Part.rw ∉ W ∧ Part.heads ∉ W ∧ Part.hsPass ∉ W ∧ Part.run ∉ W) :
    t.tileAhead = s.tileAhead := by
  obtain ⟨hWa, hWw, hWh, hWp, hWr⟩ := hW
  have ha : t.dict.applied = s.dict.applied := h.same .applied hWa
  have hw : t.dict.rw = s.dict.rw := h.same .rw hWw
  have hh : t.heads = s.heads := h.same .heads hWh
  have hp : t.upkeep.hsPass = s.upkeep.hsPass := h.same .hsPass hWp
  have hr : t.steps.run = s.steps.run := h.same .run hWr
  simp only [State.tileAhead, State.nextTile, hr, passes_eq ha hw hh, frameOf_eq hh, readTile_eq hh hp]

/-- A tile due for a group is one of its bricks'. -/
theorem pass_of_exchangeDue {s : State} {g : Nat} {r : StepRun} {gr : GroupRun} (hr : s.steps.run = some r)
    (hg : s.group g = some gr) (h : s.exchangeDue g = true) : ∃ p, (s.passes r gr)[gr.filled]? = some p := by
  simp only [State.exchangeDue, hr, hg, Bool.and_eq_true, decide_eq_true_eq] at h
  obtain ⟨-, hlt, -⟩ := h
  exact ⟨_, List.getElem?_eq_getElem hlt⟩

/-! ### The exchange -/

/-- The tile that takes the lanes: the shadow set's where it is the one due, else it is read now. -/
def State.tileTaken (s : State) (p : Pass) (tiles : Nat) : Tile :=
  (s.lanes.shadow.filter fun t => t.slot = p.slot ∧ t.frame = s.frameOf p tiles).getD (s.readTile p.slot (s.frameOf p tiles))

/-- The lanes take a tile, which serves the rows of the group; its group goes on, the shadow set loads the next. -/
def takeTile (g : Nat) (r : StepRun) (gr : GroupRun) (p : Pass) (tile : Tile) (s : State) : State :=
  loadShadow (withGroup g (GroupRun.tileDone (s.layout p.slot).tiles)
    { s with lanes := { s.lanes with active := some tile, buffers := s.fillBuffers r g gr p tile } })

/-- What a tile found uncorrectable brings (R505). -/
def badTile (gr : GroupRun) (p : Pass) (s : State) : State := badReads [p.slot] ((List.range gr.count).map (gr.start + ·)) s

theorem exchangeTile_eq {s : State} {g : Nat} {r : StepRun} {gr : GroupRun} {p : Pass} (hr : s.steps.run = some r)
    (hg : s.group g = some gr) (hp : (s.passes r gr)[gr.filled]? = some p) :
    exchangeTile g s = takeTile g r gr p (s.tileTaken p gr.tiles)
      (if (s.tileTaken p gr.tiles).bad then badTile gr p s else s) := by
  cases hs : s.lanes.shadow with
  | none =>
    simp only [exchangeTile, hr, hg, hp, State.tileTaken, hs]
    rfl
  | some sh =>
    by_cases h : sh.slot = p.slot ∧ sh.frame = s.frameOf p gr.tiles
    · simp only [exchangeTile, hr, hg, hp, State.tileTaken, hs, h, and_self, if_true, Option.filter_some, decide_true,
        Option.getD_some]
      rfl
    · simp only [exchangeTile, hr, hg, hp, State.tileTaken, hs, h, if_false, Option.filter_some, decide_false,
        Option.getD_none, Bool.false_eq_true]
      rfl

/-- The lanes alone change. -/
theorem Leaves.setLanes (s : State) (l : Lanes) : Leaves [.lanes] s { s with lanes := l } := by
  refine ⟨fun p hp => ?_⟩
  cases p with
  | lanes => exact absurd (List.mem_singleton.2 rfl) hp
  | _ => simp only [Part.same, and_self]

/-- The free values' count alone changes. -/
theorem Leaves.setFresh (s : State) (n : Nat) : Leaves [.fresh] s { s with fresh := n } := by
  refine ⟨fun p hp => ?_⟩
  cases p with
  | fresh => exact absurd (List.mem_singleton.2 rfl) hp
  | _ => simp only [Part.same, and_self]

theorem takeTile_leaves (g : Nat) (r : StepRun) (gr : GroupRun) (p : Pass) (tile : Tile) (s : State) :
    Leaves [.lanes, .run] s (takeTile g r gr p tile s) :=
  leaves_loadShadow (by decide) (leaves_withGroup (by decide) ((Leaves.setLanes s _).mono (by decide)) g _)

theorem group_takeTile (g : Nat) (r : StepRun) (gr : GroupRun) (p : Pass) (tile : Tile) (s : State) :
    (takeTile g r gr p tile s).group g = (s.group g).map (GroupRun.tileDone (s.layout p.slot).tiles) :=
  group_withGroup g _ _

theorem stepRows_takeTile (g : Nat) (r : StepRun) (gr : GroupRun) (p : Pass) (tile : Tile) (s : State) :
    (takeTile g r gr p tile s).stepRows = s.stepRows := by
  cases h : s.steps.run with
  | none => simp [State.stepRows, takeTile, loadShadow, withGroup, withRun, h]
  | some q => simp [State.stepRows, takeTile, loadShadow, withGroup, withRun, h]

/-! ### A tile read while the pass of HS_RAIL_FAULT runs -/

/-- The uncorrectable word of such a tile (log entry 6). -/
def tileWord (p : Pass) (s : State) : EccHit :=
  { memory := 1, word := (Config.freeWord s.fresh).toNat, uncorrectable := true, slot := p.slot, region := false, rows := [] }

/-- The state once the word is noted. -/
def tileNoted (p : Pass) (s : State) : State := noteUncorrectable 1 (tileWord p s) { s with fresh := s.fresh + 1 }

theorem badTile_eq (gr : GroupRun) (p : Pass) (s : State) :
    badTile gr p s = failLater p.slot (markRows ((List.range gr.count).map (gr.start + ·)) 0x1120 (tileNoted p s)) := rfl

theorem tileNoted_leaves (p : Pass) (s : State) : Leaves [.events, .counters, .fresh] s (tileNoted p s) :=
  leaves_noteUncorrectable (by decide) ((Leaves.setFresh s _).mono (by decide)) ..

theorem groupRows_nodup (gr : GroupRun) : ((List.range gr.count).map (gr.start + ·)).Nodup :=
  List.Pairwise.map _ (fun _ _ h => by omega) List.nodup_range

/-- The rows of the group end MEMORY_UNCORRECTABLE. -/
theorem stepRows_badTile {s : State} (gr : GroupRun) (p : Pass) {i : Nat} {x : RowRun} (hs : gr.start ≤ i)
    (he : i < gr.start + gr.count) (hx : s.stepRows[i]? = some x) :
    ∃ y, (badTile gr p s).stepRows[i]? = some y ∧ y.status = mergeStatus x.status 0x1120 := by
  have hrun : (tileNoted p s).stepRows = s.stepRows := by
    rw [State.stepRows, (tileNoted_leaves p s).same .run (by decide), State.stepRows]
  have hmem : i ∈ (List.range gr.count).map (gr.start + ·) :=
    List.mem_map.2 ⟨i - gr.start, List.mem_range.2 (by omega), by omega⟩
  have hrow := stepRows_markRows (groupRows_nodup gr) 0x1120 (tileNoted p s) i
  rw [hrun, hx, Option.map_some, if_pos hmem] at hrow
  exact ⟨_, hrow, rfl⟩

/-- The slot of the tile is to fail at action 4. -/
theorem head_badTile {s : State} (gr : GroupRun) {p : Pass} (h : p.slot < s.heads.length) :
    ((badTile gr p s).head p.slot).failing = true := by
  have hlen : p.slot < (markRows ((List.range gr.count).map (gr.start + ·)) 0x1120 (tileNoted p s)).heads.length := by
    rw [(leaves_markRows (List.Subset.refl _) (Leaves.refl _ _) _ _).same .heads (by decide),
      (tileNoted_leaves p s).same .heads (by decide)]
    exact h
  rw [badTile_eq, failLater, head_setHead _ _ hlen]

/-! ### The obligation -/

theorem exec_intakeEnd {s : State} {g : Nat} (ecc : List EccHit) (h : s.intakeDue g = true) :
    exec (.intakeEnd g ecc) s = .next (groupHits g ecc (runIntake g s)) := if_pos h

theorem exec_tileExchange {s : State} {g : Nat} (latency : Nat) (ecc : List EccHit) (h : s.exchangeDue g = true) :
    exec (.tileExchange g latency ecc) s = .next (noteLatency latency (exchangeTile g (groupHits g ecc s))) := if_pos h

theorem rows_of_stepRows {s : State} {r : StepRun} (h : s.steps.run = some r) : s.stepRows = r.rows := by
  rw [State.stepRows, h]

/-- The latency part of the sensing is the loads' own. -/
theorem slowLoads_exchangeTile (g : Nat) (ecc : List EccHit) (s : State) :
    (exchangeTile g (groupHits g ecc s)).sensing.slowLoads = s.sensing.slowLoads := by
  obtain ⟨-, h, -⟩ :=
    (leaves_exchangeTile (List.Subset.refl _) (Leaves.refl _ (groupHits g ecc s)) g).same .latency (by decide)
  obtain ⟨-, k, -⟩ := (groupHits_leaves g ecc s).same .latency (by decide)
  rw [h, k]

/-- A shadow tile found uncorrectable is the tile that takes the lanes. -/
theorem tileTaken_bad {s : State} {p : Pass} {tiles : Nat} {sh : Tile} (h : s.lanes.shadow = some sh) (hs : sh.slot = p.slot)
    (hf : sh.frame = s.frameOf p tiles) : s.tileTaken p tiles = sh := by
  rw [State.tileTaken, h, Option.filter_some, if_pos (by simp [hs, hf])]
  rfl

/-- Without the pass of HS_RAIL_FAULT and without a bad shadow tile, no tile is uncorrectable. -/
theorem tileTaken_good {s : State} (p : Pass) (tiles : Nat) (h : s.upkeep.hsPass = none)
    (hg : ∀ sh, s.lanes.shadow = some sh → sh.bad = false) : (s.tileTaken p tiles).bad = false := by
  have hread : (s.readTile p.slot (s.frameOf p tiles)).bad = false := by
    rw [State.readTile, h]
    rfl
  unfold State.tileTaken
  cases hs : s.lanes.shadow with
  | none => exact hread
  | some sh =>
    rw [Option.filter_some]
    split
    · exact hg sh hs
    · exact hread

/-- A shadow set that is empty, or that holds the tile due, gives the tile due. -/
theorem tileTaken_due {s : State} {p : Pass} {tiles : Nat}
    (h : s.lanes.shadow = none ∨ s.lanes.shadow = some (s.readTile p.slot (s.frameOf p tiles))) :
    s.tileTaken p tiles = s.readTile p.slot (s.frameOf p tiles) := by
  rcases h with h | h
  · rw [State.tileTaken, h]
    rfl
  · exact tileTaken_bad h rfl rfl

/-- A tile read while the pass of HS_RAIL_FAULT ran loses the group's rows and its slot. -/
theorem exchange_bad {s : State} {g : Nat} {r : StepRun} {gr : GroupRun} {p : Pass} (hr : s.steps.run = some r)
    (hg : s.group g = some gr) (hp : (s.passes r gr)[gr.filled]? = some p) (hb : (s.tileTaken p gr.tiles).bad = true) :
    (∀ i x, gr.start ≤ i → i < gr.start + gr.count → r.rows[i]? = some x →
      ∃ y, (exchangeTile g s).stepRows[i]? = some y ∧ y.status = mergeStatus x.status 0x1120) ∧
    (p.slot < s.heads.length → ((exchangeTile g s).head p.slot).failing = true) := by
  rw [exchangeTile_eq hr hg hp, if_pos hb]
  refine ⟨fun i x hs he hx => ?_, fun h => ?_⟩
  · rw [stepRows_takeTile]
    exact stepRows_badTile gr p hs he (rows_of_stepRows hr ▸ hx)
  · rw [State.head, (takeTile_leaves ..).same .heads (by decide)]
    exact head_badTile gr h

/-- The exchange of a tile without words in error. -/
theorem exchange_good {s : State} {g : Nat} {r : StepRun} {gr : GroupRun} {p : Pass} (hr : s.steps.run = some r)
    (hg : s.group g = some gr) (hp : (s.passes r gr)[gr.filled]? = some p) (hb : (s.tileTaken p gr.tiles).bad = false) :
    exchangeTile g s = takeTile g r gr p (s.tileTaken p gr.tiles) s := by
  rw [exchangeTile_eq hr hg hp, hb]
  rfl

/-- After an exchange the shadow set holds the tile due next. -/
theorem shadow_takeTile (g latency : Nat) (r : StepRun) (gr : GroupRun) (p : Pass) (tile : Tile) (s : State) :
    (noteLatency latency (takeTile g r gr p tile s)).lanes.shadow =
      (noteLatency latency (takeTile g r gr p tile s)).tileAhead := by
  rw [tileAhead_eq (noteLatency_leaves latency _) (by decide), (noteLatency_leaves latency _).same .lanes (by decide)]
  exact (tileAhead_eq (Leaves.setLanes _ _) (by decide)).symm

theorem group_noteLatency (latency : Nat) (s : State) (g : Nat) : (noteLatency latency s).group g = s.group g := by
  rw [State.group, (noteLatency_leaves latency s).same .run (by decide), State.group]

/-- Settles O18: INTAKE_END by what intake gives each row and what words in error leave of a row; TILE_EXCHANGE by the
tile that takes the lanes, bad or good. -/
theorem intakeAndTilesGoOn : Obligations.IntakeAndTilesGoOn := by
  refine ⟨fun s g ecc r gr hr hg hdue => ?_, fun s g latency ecc r gr hr hg hdue => ?_⟩
  · obtain ⟨m, hm, hrows⟩ := run_runIntake hr hg
    obtain ⟨q, hq, hbare⟩ := run_of_bareRun (bareRun_groupHits g ecc (runIntake g s)) hm
    have hlen : q.rows.length = r.rows.length := by rw [bare_length hbare, hrows, intakeRows_length]
    exact ⟨_, q, exec_intakeEnd ecc hdue, hq, hlen,
      (group_of_bareRun (bareRun_groupHits ..) g).trans (group_runIntake hr hg), fun i x hx => intakeEnd_row hr hg hq hx⟩
  · obtain ⟨p, hp⟩ := pass_of_exchangeDue hr hg hdue
    have hslow := slowLoads_exchangeTile g ecc s
    obtain ⟨hlat, hquick, hcount, hagain⟩ := sensing_noteLatency latency (exchangeTile g (groupHits g ecc s))
    refine ⟨_, p, exec_tileExchange latency ecc hdue, hp, hlat, hquick, hslow ▸ hcount, hslow ▸ hagain, ?_, ?_⟩
    · rintro rfl sh hsh hslot hframe hbad
      obtain ⟨hrows, hfail⟩ := exchange_bad hr hg hp (tileTaken_bad hsh hslot hframe ▸ hbad)
      rw [groupHits_nil, State.stepRows, (noteLatency_leaves latency _).same .run (by decide), State.head,
        (noteLatency_leaves latency _).same .heads (by decide)]
      exact ⟨hrows, hfail⟩
    · rintro rfl hpass hshadow
      have hgood := exchange_good hr hg hp (tileTaken_good p gr.tiles hpass hshadow)
      rw [groupHits_nil, hgood]
      refine ⟨?_, ?_, ?_, shadow_takeTile .., fun hl h15 he => ?_, ?_⟩
      · rw [group_noteLatency, group_takeTile, hg, Option.map_some]
      · rw [(noteLatency_leaves latency _).same .heads (by decide), (takeTile_leaves ..).same .heads (by decide)]
      · rw [(noteLatency_leaves latency _).same .mem (by decide), (takeTile_leaves ..).same .mem (by decide)]
      · obtain ⟨-, hsl, -⟩ := (takeTile_leaves g r gr p (s.tileTaken p gr.tiles) s).same .latency (by decide)
        refine queued_noteLatency hl (hsl.trans h15) ?_
        rw [(takeTile_leaves ..).same .events (by decide)]
        exact he
      · rintro tile rfl hdueTile
        rw [(noteLatency_leaves latency _).same .lanes (by decide), tileTaken_due hdueTile]
        exact ⟨rfl, rfl⟩

end Sys2Proof.Machine
end

section
/-! PROOF. BRICK_DRAIN: what an admitted row keeps of a brick, the columns it frees, the petals it places (R34, R210,
R240, R265, R269), and the critic pair (R192). -/

namespace Sys2Proof.Machine

/-! ### Rows to place -/

theorem groupRows_bare (r : StepRun) (gr : GroupRun) :
    r.bare.groupRows gr = (r.groupRows gr).map fun x => (x.1, x.2.bare) := by
  rw [StepRun.groupRows, StepRun.groupRows, List.map_filterMap]
  refine congrArg (List.filterMap · (List.range gr.count)) (funext fun i => ?_)
  show ((r.rows.map RowRun.bare)[gr.start + i]?).map _ = _
  rw [List.getElem?_map, Option.map_map, Option.map_map]
  rfl

theorem scored_bare (r : StepRun) (gr : GroupRun) :
    r.bare.scored gr = (r.scored gr).map fun x => (x.1, x.2.bare) := by
  rw [StepRun.scored, groupRows_bare, List.filter_map]
  rfl

/-- What a row places is not a matter of its status. -/
theorem spillRows_bare (r : StepRun) : r.bare.spillRows = r.spillRows := by
  have e : ∀ gr : GroupRun, (r.bare.scored gr).map (fun x => (gr.start + x.1, spillPetals gr x.1 x.2)) =
      (r.scored gr).map fun x => (gr.start + x.1, spillPetals gr x.1 x.2) := fun gr => by
    rw [scored_bare, List.map_map]
    rfl
  show (r.groups.filter _).flatMap _ = _
  simp only [e]
  rfl

theorem spillRows_of_bare {r q : StepRun} (h : q.bare = r.bare) : q.spillRows = r.spillRows := by
  rw [← spillRows_bare, h, spillRows_bare]

/-! ### Placing -/

theorem cfg_of_leaves {W : List Part} {s t : State} (h : Leaves W s t) (hW : Part.applied ∉ W) (key : Nat) :
    t.cfg key = s.cfg key := by
  have e : t.dict.applied = s.dict.applied := h.same .applied hW
  rw [State.cfg, e, State.cfg]

theorem placeRows_eq {s : State} {r : StepRun} (hr : s.steps.run = some r) :
    placeRows s = writeSpill 0 ((placeAll (s.cfg 0x203002) r.spillRows).2.flatMap (·.2))
      (withRun (fun q => { q with places := placesFrom 0 (placeAll (s.cfg 0x203002) r.spillRows).2 })
        (noteSpill (spillRoom (placeAll (s.cfg 0x203002) r.spillRows).2)
          (fillRows (placeAll (s.cfg 0x203002) r.spillRows).1 s))) := by
  rw [placeRows, hr]

/-- The petals to place stand in the spill area, one row behind the other. -/
theorem mem_placeRows {s : State} {r : StepRun} (hr : s.steps.run = some r) : (placeRows s).mem = writeMem s.mem
    (s.cfg 0x203001) (((placeAll (s.cfg 0x203002) r.spillRows).2.flatMap (·.2)).flatMap Petal.encode) := by
  rw [placeRows_eq hr]
  generalize placeAll (s.cfg 0x203002) r.spillRows = plan
  have hk : Leaves [.run] s (fillRows plan.1 s) := leaves_fillRows (List.Subset.refl _) (Leaves.refl _ s) _
  have hmem : (fillRows plan.1 s).mem = s.mem := hk.same .mem (by decide)
  have hcfg : (fillRows plan.1 s).cfg 0x203001 = s.cfg 0x203001 := cfg_of_leaves hk (by decide) _
  show writeMem (fillRows plan.1 s).mem ((fillRows plan.1 s).cfg 0x203001 + 0) _ = _
  rw [hmem, hcfg, Nat.add_zero]

/-- A change of the running step that is not of its groups. -/
theorem group_withRun {f : StepRun → StepRun} (hf : ∀ r, (f r).groups = r.groups) (s : State) (g : Nat) :
    (withRun f s).group g = s.group g := by
  show (s.steps.run.map f).bind _ = s.steps.run.bind _
  cases s.steps.run with
  | none => rfl
  | some r => exact congrArg (·[g]?) (hf r)

theorem group_fillRows (is : List Nat) (s : State) (g : Nat) : (fillRows is s).group g = s.group g :=
  (group_of_bareRun (bareRun_markRows is 0x0802 _) g).trans
    (group_withRun (f := fun r =>
      { r with rows := is.foldl (fun rows i => rows.modify i fun x => { x with full := true }) r.rows }) (fun _ => rfl) s g)

theorem group_placeRows {s : State} {r : StepRun} (hr : s.steps.run = some r) (g : Nat) :
    (placeRows s).group g = s.group g := by
  rw [placeRows_eq hr]
  generalize placeAll (s.cfg 0x203002) r.spillRows = plan
  refine Eq.trans ?_ (group_fillRows plan.1 s g)
  exact (group_withRun (f := fun q => { q with places := placesFrom 0 plan.2 }) (fun _ => rfl) _ g).trans
    (group_withRun (f := fun q => { q with spill := spillRoom plan.2 }) (fun _ => rfl) _ g)

/-! ### The drain of a brick -/

/-- What the rows of a group bring to a brick, each with the status it may take. -/
def drainDone (s : State) (r : StepRun) (gr : GroupRun) (cols : List (List (List F32))) (b : Nat) : List (RowBrick × Nat) :=
  (r.groupRows gr).map fun (pos, x) =>
    if x.refusal ≠ 0 then (RowBrick.none, 0)
    else if x.desc.external then s.rowBrick r (gr.start + pos) x b (s.externalScores x.desc b) none
    else s.rowBrick r (gr.start + pos) x b ((cols.headD []).getD pos []) ((cols[1]?).map fun y => y.getD pos [])

/-- A group keeps the values of a brick. -/
def GroupRun.keepBrick (b : Nat) (rows : List RowBrick) (gr : GroupRun) : GroupRun :=
  { gr with drained := gr.drained ++ [(b, rows)] }

/-- Rows take the statuses of their bricks. -/
def drainMarks (gr : GroupRun) (done : List (RowBrick × Nat)) (s : State) : State :=
  ((done.zip (List.range done.length)).filter fun y => y.1.2 != 0).foldl (fun s y => markRow (gr.start + y.2) y.1.2 s) s

/-- Entries that a brick drops. -/
def drainDropped (done : List (RowBrick × Nat)) : Nat :=
  (done.map fun y => y.1.main.part.dropped + ((y.1.second.map fun z => z.part.dropped).getD 0)).sum

/-- What a drain does once its values are known. -/
def drainKeep (g b : Nat) (r : StepRun) (gr : GroupRun) (done : List (RowBrick × Nat)) (s : State) : State :=
  if s.maximumDue r gr then keepDrain g b true [] s
  else placeRows (count 0x70100D (drainDropped done) (keepDrain g b false (done.map (·.1)) (freeColumns g b s)))

theorem bareRun_drainMarks (gr : GroupRun) (done : List (RowBrick × Nat)) (s : State) :
    (drainMarks gr done s).bareRun = s.bareRun :=
  bareRun_foldl (fun s (y : (RowBrick × Nat) × Nat) => bareRun_markRow (gr.start + y.2) y.1.2 s) _ s

theorem drainMarks_leaves (gr : GroupRun) (done : List (RowBrick × Nat)) (s : State) :
    Leaves [.run] s (drainMarks gr done s) :=
  leaves_foldl (Leaves.refl _ s) _ _ fun _ _ h => leaves_markRow (List.Subset.refl _) h _ _

/-- The state in which a brick's values are known: masks read, statuses taken. -/
def drainMarked (gr : GroupRun) (b : Nat) (done : List (RowBrick × Nat)) (s : State) : State :=
  drainMarks gr done (cacheMasks gr b s)

theorem cacheMasks_leaves (gr : GroupRun) (b : Nat) (s : State) : Leaves [.cache] s (cacheMasks gr b s) :=
  leaves_cacheMasks (List.Subset.refl _) (Leaves.refl _ s) gr b

theorem drainMarked_leaves (gr : GroupRun) (b : Nat) (done : List (RowBrick × Nat)) (s : State) :
    Leaves [.cache, .run] s (drainMarked gr b done s) :=
  ((cacheMasks_leaves gr b s).mono (by decide)).trans (drainMarks_leaves gr done _) (by decide)

theorem bareRun_drainMarked (gr : GroupRun) (b : Nat) (done : List (RowBrick × Nat)) (s : State) :
    (drainMarked gr b done s).bareRun = s.bareRun :=
  (bareRun_drainMarks ..).trans (bareRun_of_leaves (cacheMasks_leaves gr b s) (by decide))

theorem drainBrick_eq {s : State} {g : Nat} (b : Nat) {r : StepRun} {gr : GroupRun} (hr : s.steps.run = some r)
    (hg : s.group g = some gr) : drainBrick g b s =
      drainKeep g b r gr (drainDone (cacheMasks gr b s) r gr ((cacheMasks gr b s).columns g b) b)
        (drainMarked gr b (drainDone (cacheMasks gr b s) r gr ((cacheMasks gr b s).columns g b) b) s) := by
  simp only [drainBrick, hr, hg]
  rfl

theorem drainDone_bricks (s : State) (r : StepRun) (gr : GroupRun) (cols : List (List (List F32))) (b : Nat) :
    (drainDone s r gr cols b).map (·.1) = (r.groupRows gr).map fun x =>
      if x.2.refusal ≠ 0 then RowBrick.none
      else if x.2.desc.external then (s.rowBrick r (gr.start + x.1) x.2 b (s.externalScores x.2.desc b) none).1
      else (s.rowBrick r (gr.start + x.1) x.2 b ((cols.headD []).getD x.1 []) ((cols[1]?).map fun y => y.getD x.1 [])).1 := by
  rw [drainDone, List.map_map]
  refine List.map_congr_left fun x _ => ?_
  rw [Function.comp_apply, apply_ite Prod.fst, apply_ite Prod.fst]

theorem course_eq {s t : State} (ha : t.dict.applied = s.dict.applied) (hw : t.dict.rw = s.dict.rw) :
    t.course = s.course := by
  have hv : t.brickCount = s.brickCount := by simp only [State.brickCount, State.vocab, State.cfg, ha]
  have hb : t.bond = s.bond := by simp only [State.bond, State.cfg, ha]
  have hadr : t.address = s.address := by simp only [State.address, State.rwVal, hw]
  simp only [State.course, hv, hb, hadr]

/-- Which of its passes a group is in is a matter of the applied values and this unit's address. -/
theorem maximumDue_eq {s t : State} (ha : t.dict.applied = s.dict.applied) (hw : t.dict.rw = s.dict.rw) (r : StepRun)
    (gr : GroupRun) : t.maximumDue r gr = s.maximumDue r gr := by
  rw [State.maximumDue, course_eq ha hw, State.maximumDue]

theorem columns_eq {s t : State} (h : t.lanes = s.lanes) (g b : Nat) : t.columns g b = s.columns g b := by
  rw [State.columns, h, State.columns]

theorem modify_eq_set {α : Type} {l : List α} {i : Nat} {x : α} (f : α → α) (h : l[i]? = some x) :
    l.modify i f = l.set i (f x) := by
  refine List.ext_getElem? fun j => ?_
  have hi : i < l.length := (List.getElem?_eq_some_iff.1 h).1
  rw [List.getElem?_modify, List.getElem?_set]
  by_cases e : i = j
  · subst e
    simp [(List.getElem?_eq_some_iff.1 h).2, hi]
  · cases l[j]? <;> simp [e]

/-- The run of a group that keeps a brick's values. -/
theorem run_keepDrain {s : State} {g b : Nat} {q r : StepRun} {gr : GroupRun} (rows : List RowBrick)
    (hq : s.steps.run = some q) (hb : q.bare = r.bare) (hg : s.group g = some gr) :
    ∃ p, (keepDrain g b false rows s).steps.run = some p ∧
      p.bare = { r with groups := r.groups.set g (gr.keepBrick b rows) }.bare := by
  refine ⟨_, run_withRun _ hq, ?_⟩
  have hgr : q.groups[g]? = some gr := (group_eq hq g).symm.trans hg
  rw [modify_eq_set _ hgr, bare_groups hb]
  exact congrArg (fun p : StepRun => { p with groups := r.groups.set g (gr.keepBrick b rows) }) hb

theorem group_keepDrain {s : State} {g b : Nat} {gr : GroupRun} (rows : List RowBrick) (hg : s.group g = some gr) :
    (keepDrain g b false rows s).group g = some (gr.keepBrick b rows) := by
  rw [show keepDrain g b false rows s = withGroup g (GroupRun.keepBrick b rows) s from rfl,
    group_withGroup, hg]
  rfl

/-- The first of an Heirloom group's passes frees one column pair and keeps no values (R541). -/
theorem drainKeep_first {s : State} {g : Nat} (b : Nat) {r : StepRun} {gr : GroupRun} (done : List (RowBrick × Nat))
    (hg : s.group g = some gr) (hm : s.maximumDue r gr = true) :
    (drainKeep g b r gr done s).mem = s.mem ∧
    (drainKeep g b r gr done s).group g = some { gr with firstPass := gr.firstPass + 1 } ∧
    (drainKeep g b r gr done s).lanes.buffers = s.lanes.buffers.eraseP fun y => y.group == g && y.brick == b := by
  rw [drainKeep, if_pos hm]
  refine ⟨rfl, ?_, rfl⟩
  refine (group_withGroup g (fun gr => { gr with firstPass := gr.firstPass + 1 }) (freeColumn g b s)).trans ?_
  rw [show (freeColumn g b s).group g = s.group g from rfl, hg]
  rfl

/-- The last pass keeps the brick's values, frees its columns and places what rows must place. -/
theorem drainKeep_last {s : State} {g b : Nat} {q r : StepRun} {gr : GroupRun} (done : List (RowBrick × Nat))
    (hq : s.steps.run = some q) (hb : q.bare = r.bare) (hg : s.group g = some gr) (hm : s.maximumDue r gr = false) :
    (drainKeep g b r gr done s).group g = some (gr.keepBrick b (done.map (·.1))) ∧
    (drainKeep g b r gr done s).lanes.buffers = s.lanes.buffers.filter (fun y => !(y.group == g && y.brick == b)) ∧
    (drainKeep g b r gr done s).mem = writeMem s.mem (s.cfg 0x203001)
      (((placeAll (s.cfg 0x203002) { r with
        groups := r.groups.set g (gr.keepBrick b (done.map Prod.fst)) }.spillRows).2.flatMap (·.2)).flatMap
        Petal.encode) := by
  obtain ⟨p, hp, hpb⟩ := run_keepDrain (s := freeColumns g b s) (b := b) (done.map (·.1)) hq hb hg
  rw [drainKeep, hm, if_neg Bool.false_ne_true]
  have hcount : Leaves [.counters] _ (count 0x70100D (drainDropped done)
      (keepDrain g b false (done.map (·.1)) (freeColumns g b s))) :=
    leaves_count (List.Subset.refl _) (Leaves.refl _ _) ..
  have hrun := (hcount.same .run (by decide)).trans hp
  refine ⟨?_, ?_, ?_⟩
  · rw [group_placeRows hrun, State.group, hcount.same .run (by decide)]
    exact group_keepDrain _ hg
  · rw [(leaves_placeRows (List.Subset.refl _) (Leaves.refl _ _)).same .lanes (by decide), hcount.same .lanes (by decide)]
    rfl
  · rw [mem_placeRows hrun, spillRows_of_bare hpb, hcount.same .mem (by decide)]
    rfl

/-! ### The drain of the critic pair -/

/-- The rows with their critics' values. -/
def criticRows (vs : List (Nat × F32 × Nat)) (rows : List RowRun) : List RowRun :=
  vs.foldl (fun rows v => rows.modify v.1 fun x => { x with critic := v.2.1 }) rows

theorem drainCritic_eq {s : State} {g : Nat} {r : StepRun} {gr : GroupRun} (hr : s.steps.run = some r)
    (hg : s.group g = some gr) : drainCritic g s =
      noteOdd (((s.critics r gr (s.columns g 256)).map (·.2.2)).sum)
        (withRun (fun q => { q with rows := criticRows (s.critics r gr (s.columns g 256)) r.rows })
          (withGroup g (fun gr => { gr with criticDone := true }) (freeColumns g 256 s))) := by
  simp only [drainCritic, hr, hg]
  rfl

/-- A row has the value of the last critic that names it. -/
theorem criticRows_row {vs : List (Nat × F32 × Nat)} {i : Nat} {v : F32} (hv : ∀ d ∈ vs, d.1 = i → d.2.1 = v)
    {rows : List RowRun} {x : RowRun} {w : F32} (hx : rows[i]? = some { x with critic := w })
    (hw : w = v ∨ ∃ d ∈ vs, d.1 = i) : (criticRows vs rows)[i]? = some { x with critic := v } := by
  induction vs generalizing rows w with
  | nil =>
    obtain rfl : w = v := hw.resolve_right fun ⟨_, h, _⟩ => absurd h List.not_mem_nil
    exact hx
  | cons d vs ih =>
    have hvs : ∀ d ∈ vs, d.1 = i → d.2.1 = v := fun c hc => hv c (List.mem_cons_of_mem _ hc)
    by_cases hd : d.1 = i
    · have hval : d.2.1 = v := hv d List.mem_cons_self hd
      refine ih hvs (w := v) ?_ (.inl rfl)
      simp [hx, hd, hval]
    · refine ih hvs (w := w) ?_ (hw.imp id fun ⟨c, hc, hci⟩ => ⟨c, ?_, hci⟩)
      · simp [hx, hd]
      · exact (List.mem_cons.1 hc).resolve_left fun h => hd (h ▸ hci)

/-- A critic's row is a row of the step. -/
theorem row_of_critic {s : State} {r : StepRun} {gr : GroupRun} {cols : List (List (List F32))} {c : Nat × F32 × Nat}
    (hc : c ∈ s.critics r gr cols) : ∃ x, r.rows[c.1]? = some x := by
  obtain ⟨⟨pos, x⟩, hx, hcx⟩ := List.mem_filterMap.1 hc
  obtain ⟨k, -, rfl⟩ := Option.map_eq_some_iff.1 hcx
  obtain ⟨i, -, hi⟩ := List.mem_filterMap.1 (List.mem_filter.1 hx).1
  obtain ⟨y, hy, hyx⟩ := Option.map_eq_some_iff.1 hi
  obtain ⟨rfl, rfl⟩ := Prod.mk.inj hyx
  exact ⟨y, hy⟩

/-- The row that one critic alone names has its value. -/
theorem row_of_oneCritic {s : State} {r : StepRun} {gr : GroupRun} {cols : List (List (List F32))} {c : Nat × F32 × Nat}
    (hc : c ∈ s.critics r gr cols) (hone : ∀ d ∈ s.critics r gr cols, d.1 = c.1 → d = c) :
    ∃ x, r.rows[c.1]? = some x ∧ (criticRows (s.critics r gr cols) r.rows)[c.1]? = some { x with critic := c.2.1 } := by
  obtain ⟨x, hx⟩ := row_of_critic hc
  exact ⟨x, hx, criticRows_row (fun d hd hdc => congrArg (·.2.1) (hone d hd hdc)) (w := x.critic) hx
    (.inr ⟨c, hc, rfl⟩)⟩

theorem noteOdd_leaves (n : Nat) (s : State) : Leaves [.events, .counters] s (noteOdd n s) :=
  leaves_noteOdd (List.Subset.refl _) (Leaves.refl _ s) n

theorem run_drainCritic {s : State} {g : Nat} {r : StepRun} {gr : GroupRun} (hr : s.steps.run = some r)
    (hg : s.group g = some gr) : ∃ q, (drainCritic g s).steps.run = some q ∧
      q.rows = criticRows (s.critics r gr (s.columns g 256)) r.rows := by
  rw [drainCritic_eq hr hg, (noteOdd_leaves ..).same .run (by decide)]
  exact ⟨_, run_withRun _ (run_withRun _ hr), rfl⟩

theorem group_drainCritic {s : State} {g : Nat} {r : StepRun} {gr : GroupRun} (hr : s.steps.run = some r)
    (hg : s.group g = some gr) : (drainCritic g s).group g = some { gr with criticDone := true } := by
  rw [drainCritic_eq hr hg, State.group, (noteOdd_leaves ..).same .run (by decide)]
  refine (group_withRows _ _ g).trans ((group_withGroup g _ _).trans ?_)
  rw [show (freeColumns g 256 s).group g = s.group g from rfl, hg]
  rfl

theorem buffers_drainCritic {s : State} {g : Nat} {r : StepRun} {gr : GroupRun} (hr : s.steps.run = some r)
    (hg : s.group g = some gr) :
    (drainCritic g s).lanes.buffers = s.lanes.buffers.filter fun y => !(y.group == g && y.brick == 256) := by
  rw [drainCritic_eq hr hg, (noteOdd_leaves ..).same .lanes (by decide)]
  rfl

/-! ### The obligation -/

theorem exec_brickDrain {s : State} {g b : Nat} (ecc : List EccHit) (h : s.drainDue g b = true) :
    exec (.brickDrain g b ecc) s = .next (pump (if b = 256 then drainCritic g (groupHits g ecc s)
      else drainBrick g b (groupHits g ecc s))) := if_pos h

/-- Settles O19: a brick's drain by its two passes, the critic pair's by what it writes. -/
theorem bricksAndCriticDrain : Obligations.BricksAndCriticDrain := by
  refine ⟨fun s s' g b r gr hr hg hdue hb hs' => ?_, fun s g ecc r gr hr hg hdue => ?_⟩
  · subst hs'
    have hcols : (cacheMasks gr b s).columns g b = s.columns g b :=
      columns_eq ((cacheMasks_leaves gr b s).same .lanes (by decide)) g b
    generalize hdone : drainDone (cacheMasks gr b s) r gr (s.columns g b) b = done
    have hu : drainBrick g b s = drainKeep g b r gr done (drainMarked gr b done s) := by
      rw [drainBrick_eq b hr hg, hcols, hdone]
    have hmarked := drainMarked_leaves gr b done s
    have hbare := bareRun_drainMarked gr b done s
    have hgroup := (group_of_bareRun hbare g).trans hg
    have hmax : (drainMarked gr b done s).maximumDue r gr = s.maximumDue r gr :=
      maximumDue_eq (hmarked.same .applied (by decide)) (hmarked.same .rw (by decide)) r gr
    have hheads : (drainBrick g b s).heads = s.heads :=
      (leaves_drainBrick (List.Subset.refl _) (Leaves.refl _ s) g b).same .heads (by decide)
    refine ⟨drainBrick g b s, ?_, hheads, fun hm => ?_, fun hm => ?_⟩
    · rw [exec_brickDrain [] hdue, if_neg hb, groupHits_nil]
    · obtain ⟨hmem, hfirst, hbuffers⟩ := drainKeep_first b done hgroup (hmax.trans hm)
      rw [hu, hmem, hfirst, hbuffers, hmarked.same .lanes (by decide)]
      exact ⟨hmarked.same .mem (by decide), rfl, rfl⟩
    · obtain ⟨q, hq, hqb⟩ := run_of_bareRun hbare hr
      obtain ⟨hlast, hbuffers, hmem⟩ := drainKeep_last done hq hqb hgroup (hmax.trans hm)
      refine ⟨gr.keepBrick b (done.map Prod.fst), ?_, ?_, ?_, ?_⟩
      · rw [← hdone, drainDone_bricks, GroupRun.keepBrick]
      · rw [hu, hlast]
      · rw [hu, hbuffers, hmarked.same .lanes (by decide)]
      · rw [hu, hmem, hmarked.same .mem (by decide), cfg_of_leaves hmarked (by decide), cfg_of_leaves hmarked (by decide)]
  · obtain ⟨q, hq, hqb⟩ := run_of_bareRun (bareRun_groupHits g ecc s) hr
    have hgroup := (group_of_bareRun (bareRun_groupHits g ecc s) g).trans hg
    obtain ⟨p, hp, hrows⟩ := run_drainCritic hq hgroup
    refine ⟨drainCritic g (groupHits g ecc s), p, ?_, hp, group_drainCritic hq hgroup, ?_, ?_⟩
    · rw [exec_brickDrain ecc hdue, if_pos rfl]
    · rw [buffers_drainCritic hq hgroup, (groupHits_leaves g ecc s).same .lanes (by decide)]
    · rintro rfl c hc hone
      rw [groupHits_nil] at hq hrows
      obtain rfl : r = q := Option.some.inj (hr.symm.trans hq)
      rw [hrows]
      exact row_of_oneCritic hc hone

end Sys2Proof.Machine
end

section
/-! PROOF. What the boundary's actions keep whatever they do: an event once queued stays queued, and where no row's
reservation is left none comes back (R401, R402, R430, R442). -/

namespace Sys2Proof.Machine

/-- A relation that holds over every turn of a pass holds over the pass. -/
theorem foldl_rel {R : State → State → Prop} (refl : ∀ s, R s s) (trans : ∀ {s t u}, R s t → R t u → R s u)
    {α : Type} {f : State → α → State} (h : ∀ s x, R s (f s x)) (l : List α) (s : State) : R s (l.foldl f s) := by
  induction l generalizing s with
  | nil => exact refl s
  | cons x l ih => exact trans (h s x) (ih (f s x))

/-- No row's reservation is left. -/
structure State.Unreserved (s : State) : Prop where
  pages : s.contexts.reservedPages = 0
  slots : ∀ e ∈ s.contexts.slots, e.2.provisional = 0
  budgets : ∀ e ∈ s.contexts.budgets, e.2.reserved = 0

/-- From one state to another no queued event is lost and no reservation is made. -/
structure Onward (s t : State) : Prop where
  events : ∀ e ∈ s.events.events, e ∈ t.events.events
  free : s.Unreserved → t.Unreserved

theorem Onward.refl (s : State) : Onward s s := ⟨fun _ h => h, id⟩

theorem Onward.trans {s t u : State} (h : Onward s t) (k : Onward t u) : Onward s u :=
  ⟨fun e he => k.events e (h.events e he), fun hs => k.free (h.free hs)⟩

theorem Onward.foldl {α : Type} {f : State → α → State} (h : ∀ s x, Onward s (f s x)) (l : List α) (s : State) :
    Onward s (l.foldl f s) := foldl_rel refl trans h l s

theorem Onward.ite {c : Prop} [Decidable c] {s t u : State} (ht : Onward s t) (hu : Onward s u) :
    Onward s (if c then t else u) := by
  split
  · exact ht
  · exact hu

/-- A change of history pages that reserves none. -/
theorem Onward.of_pages {W : List Part} {s t : State} (h : Leaves W s t)
    (hW : Part.events ∉ W ∧ Part.slots ∉ W ∧ Part.budgets ∉ W)
    (hp : t.contexts.reservedPages = s.contexts.reservedPages) : Onward s t := by
  obtain ⟨he, hs, hb⟩ := hW
  have events : t.events = s.events := h.same .events he
  have slots : t.contexts.slots = s.contexts.slots := h.same .slots hs
  have budgets : t.contexts.budgets = s.contexts.budgets := h.same .budgets hb
  exact ⟨events ▸ fun _ h => h, fun hf => ⟨hp.trans hf.pages, slots ▸ hf.slots, budgets ▸ hf.budgets⟩⟩

/-- A change of other parts. -/
theorem Onward.of_leaves {W : List Part} {s t : State} (h : Leaves W s t)
    (hW : Part.events ∉ W ∧ Part.slots ∉ W ∧ Part.pages ∉ W ∧ Part.budgets ∉ W) : Onward s t := by
  obtain ⟨he, hs, hp, hb⟩ := hW
  obtain ⟨-, -, hpages⟩ := h.same .pages hp
  exact of_pages h ⟨he, hs, hb⟩ hpages

theorem Onward.of_same {s t : State} (he : t.events = s.events) (hc : t.contexts = s.contexts) : Onward s t :=
  ⟨he ▸ fun _ h => h, fun hf => ⟨hc ▸ hf.pages, hc ▸ hf.slots, hc ▸ hf.budgets⟩⟩

/-! ### Events -/

theorem onward_raiseArgs (code wide a b : Nat) (s : State) : Onward s (raiseArgs code wide a b s) := by
  refine ⟨fun e he => ?_, fun hf => ?_⟩
  · unfold raiseArgs
    split
    · rw [events_enqueue]
      exact (mem_insertEvent ..).2 (.inr he)
    · split
      · rw [events_enqueue]
        exact (mem_insertEvent ..).2 (.inr he)
      · exact he
  · obtain ⟨hp, hs, hb⟩ := hf
    rw [← raiseArgs_contexts code wide a b s] at hp hs hb
    exact ⟨hp, hs, hb⟩

theorem Onward.raise {s t : State} (h : Onward s t) (code : Nat) : Onward s (raise code t) := h.trans (onward_raiseArgs ..)

theorem onward_count (key k : Nat) (s : State) : Onward s (count key k s) :=
  .of_leaves (leaves_count (List.Subset.refl _) (Leaves.refl _ s) key k) (by decide)

theorem onward_raiseCount (code key wide a b : Nat) (s : State) : Onward s (raiseCount code key wide a b s) :=
  (onward_count key 1 s).trans (onward_raiseArgs ..)

/-! ### Contexts -/

theorem mem_insertKey {α : Type} {m : List (Nat × α)} {k : Nat} {v : α} {e : Nat × α} (h : e ∈ insertKey m k v) :
    e = (k, v) ∨ e ∈ m := by
  induction m with
  | nil => exact .inl (List.mem_singleton.1 h)
  | cons x m ih =>
    unfold insertKey at h
    split at h
    · exact List.mem_cons.1 h
    · split at h
      · exact (List.mem_cons.1 h).imp id (List.mem_cons_of_mem _)
      · rcases List.mem_cons.1 h with h | h
        · exact .inr (h ▸ List.mem_cons_self)
        · exact (ih h).imp id (List.mem_cons_of_mem _)

/-- A slot in use has no provisional pages where no reservation is left. -/
theorem State.Unreserved.context {s : State} (hf : s.Unreserved) {slot : Nat} {c : Context} (h : s.context slot = some c) :
    c.provisional = 0 := hf.slots _ (lookupKey_mem h)

theorem State.Unreserved.contextOf {s : State} (hf : s.Unreserved) {t slot : Nat} {c : Context}
    (h : s.contextOf t slot = some c) : c.provisional = 0 := by
  unfold State.contextOf at h
  split at h
  next d hd =>
    split at h
    · exact Option.some.inj h ▸ hf.context hd
    · exact absurd h (by simp)
  · exact absurd h (by simp)

theorem State.Unreserved.budget {s : State} (hf : s.Unreserved) (t : Nat) : (s.budget t).reserved = 0 := by
  unfold State.budget
  cases h : lookupKey s.contexts.budgets t with
  | none => rfl
  | some b => exact hf.budgets _ (lookupKey_mem h)

theorem Onward.setContext {s t : State} (h : Onward s t) {slot : Nat} {c : Context} (hc : s.Unreserved → c.provisional = 0) :
    Onward s (setContext slot c t) := by
  refine ⟨h.events, fun hf => ⟨(h.free hf).pages, fun e he => ?_, (h.free hf).budgets⟩⟩
  rcases mem_insertKey he with rfl | he
  · exact hc hf
  · exact (h.free hf).slots e he

theorem Onward.setBudget {s t : State} (h : Onward s t) {tenant : Nat} {b : Budget} (hb : s.Unreserved → b.reserved = 0) :
    Onward s { t with contexts := { t.contexts with budgets := insertKey t.contexts.budgets tenant b } } := by
  refine ⟨h.events, fun hf => ⟨(h.free hf).pages, (h.free hf).slots, fun e he => ?_⟩⟩
  rcases mem_insertKey he with rfl | he
  · exact hb hf
  · exact (h.free hf).budgets e he

theorem onward_dirtySlot (slot : Nat) (s : State) : Onward s (dirtySlot slot s) :=
  .of_leaves (leaves_dirtySlot (List.Subset.refl _) (Leaves.refl _ s) slot) (by decide)

theorem onward_notePeak (s : State) : Onward s (notePeak s) :=
  .of_leaves (leaves_notePeak (List.Subset.refl _) (Leaves.refl _ s)) (by decide)

theorem reservedPages_dropRef (fuel id : Nat) (s : State) :
    (dropRef fuel id s).contexts.reservedPages = s.contexts.reservedPages := by
  induction fuel generalizing id s with
  | zero => rfl
  | succ fuel ih =>
    unfold dropRef
    dsimp only
    split
    · rfl
    · split
      · exact ih ..
      · rfl

theorem onward_dropRef (fuel id : Nat) (s : State) : Onward s (dropRef fuel id s) :=
  .of_pages (leaves_dropRef (List.Subset.refl _) (Leaves.refl _ s) fuel id) (by decide) (reservedPages_dropRef fuel id s)

theorem onward_putNode (id : Nat) (n : Node) (s : State) : Onward s (putNode id n s) :=
  .of_pages (leaves_putNode (List.Subset.refl _) (Leaves.refl _ s) id n) (by decide) rfl

theorem onward_newLeaf (parent : Option Nat) (s : State) : Onward s (newLeaf parent s) :=
  .of_pages (leaves_newLeaf (List.Subset.refl _) (Leaves.refl _ s) parent) (by decide) rfl

theorem onward_addRef (id k : Nat) (s : State) : Onward s (addRef id k s) :=
  .of_pages (leaves_addRef (List.Subset.refl _) (Leaves.refl _ s) id k) (by decide) rfl

theorem onward_freeSlot (slot : Nat) (s : State) : Onward s (freeSlot slot s) := by
  unfold freeSlot
  split
  · exact .refl s
  · refine Onward.trans ?_ ((onward_dropRef 65 _ _).trans (onward_dirtySlot slot _))
    exact ⟨fun _ h => h, fun hf => ⟨hf.pages, fun e he => hf.slots e (List.mem_filter.1 he).1, hf.budgets⟩⟩

theorem onward_freeContext (slot : Nat) (s : State) : Onward s (freeContext slot s) := by
  refine (onward_freeSlot slot s).trans ?_
  unfold freeContext
  dsimp only
  split
  · refine .of_leaves (W := [.counters, .batches, .mem, .fresh]) ?_ (by decide)
    exact leaves_endCopy (by decide) (leaves_free16 (by decide) (Leaves.refl _ _)) ..
  · exact .refl _

theorem onward_expireDue (slot : Nat) (s : State) : Onward s (expireDue slot s) := by
  unfold expireDue expireSlot
  split
  · exact (onward_freeSlot slot s).trans (onward_raiseCount ..)
  · exact .refl s

theorem onward_appendRaw (slot token st : Nat) (s : State) : Onward s (appendRaw slot token st s) := by
  unfold appendRaw
  split
  · exact .refl s
  next c hc =>
    dsimp only
    have hleaf : Onward s (if (s.node c.leaf).tokens.length ≥ 65536 then newLeaf (some c.leaf) s else s) := by
      split
      · exact onward_newLeaf ..
      · exact .refl s
    have hnone : s.Unreserved → c.provisional = 0 := fun hf => hf.context hc
    refine Onward.trans (Onward.setContext (hleaf.trans (onward_putNode ..)) ?_) (onward_dirtySlot ..)
    exact hnone

/-- A relation that holds over one raw append and over the events of a fault holds over an append (R411, R412). -/
theorem appendToken_rel {R : State → State → Prop} {slot : Nat} (refl : ∀ s, R s s)
    (trans : ∀ {s t u}, R s t → R t u → R s u)
    (raised : ∀ code key wide a b s, R s (raiseCount code key wide a b s))
    (raw : ∀ token st s, R s (appendRaw slot token st s)) (token : Nat) (s : State) : R s (appendToken slot token s) := by
  unfold appendToken
  split
  · exact refl s
  next c hc =>
    split
    · exact raw ..
    · split
      · exact raw ..
      next a ha =>
        dsimp only
        have hfault : R s (if (a.next s.mem c.automatonState token).isNone then
            raiseCount 0x0D0E 0x701004 0 slot 0 s else s) := by
          split
          · exact raised ..
          · exact refl s
        generalize (if (a.next s.mem c.automatonState token).isNone then
          raiseCount 0x0D0E 0x701004 0 slot 0 s else s) = u at hfault ⊢
        generalize (a.next s.mem c.automatonState token).getD deadState = st
        have hraw := trans hfault (raw token st u)
        split
        · exact trans hraw (raised ..)
        · exact hraw

/-- A row's tokens enter its slot's history one by one; then the slot notes the step. -/
theorem appendRow_rel {R : State → State → Prop} {number slot : Nat} (refl : ∀ s, R s s)
    (trans : ∀ {s t u}, R s t → R t u → R s u) (token : ∀ t s, R s (appendToken slot t s))
    (seen : ∀ c s, s.context slot = some c → R s (setContext slot { c with lastStep := number } s)) (tokens : List Nat)
    (s : State) : R s (appendRow number slot tokens s) := by
  refine trans (foldl_rel refl trans (fun s t => token t s) tokens s) ?_
  unfold appendRow
  generalize tokens.foldl (fun s t => appendToken slot t s) s = u
  dsimp only
  split
  next c hc =>
    split
    · exact refl u
    · exact seen c u hc
  · exact refl u

theorem onward_appendToken (slot token : Nat) (s : State) : Onward s (appendToken slot token s) :=
  appendToken_rel Onward.refl Onward.trans onward_raiseCount (onward_appendRaw slot) token s

theorem onward_appendRow (number slot : Nat) (tokens : List Nat) (s : State) :
    Onward s (appendRow number slot tokens s) :=
  appendRow_rel Onward.refl Onward.trans (onward_appendToken slot)
    (fun _ u hc => (Onward.refl u).setContext fun hf => (hf.context hc :)) tokens s

theorem onward_charge (tenant n : Nat) (s : State) : Onward s (charge tenant n s) :=
  (Onward.setBudget (b := { s.budget tenant with used := min ((s.budget tenant).used + n) (2 ^ 64 - 1) }) (.refl s)
    fun hf => hf.budget tenant).trans (onward_count 0x709008 n _)

/-! ### Context commands -/

theorem onward_endRecord (t addr status slot length : Nat) (s : State) : Onward s (endRecord t addr status slot length s) :=
  .of_leaves (leaves_endRecord (List.Subset.refl _) (Leaves.refl _ s) ..) (by decide)

theorem onward_failRecord (t addr : Nat) (r : CtxRecord) (status : Nat) (s : State) :
    Onward s (failRecord t addr r status s) :=
  .of_leaves (leaves_failRecord (List.Subset.refl _) (Leaves.refl _ s) ..) (by decide)

theorem onward_startCopy (t addr slot : Nat) (s : State) : Onward s (startCopy t addr slot s) :=
  .of_leaves (leaves_startCopy (List.Subset.refl _) (Leaves.refl _ s) ..) (by decide)

theorem onward_openBody (t addr : Nat) (r : CtxRecord) (s : State) : Onward s (openBody t addr r s) := by
  unfold openBody
  split
  · exact (onward_count ..).trans (onward_failRecord ..)
  · split
    · exact onward_failRecord ..
    · split
      · exact onward_failRecord ..
      · exact (((onward_newLeaf none s).setContext fun _ => rfl).trans (onward_dirtySlot ..)).trans
          ((onward_count ..).trans (onward_endRecord ..))

theorem onward_forkSlot (parent child seed : Nat) (s : State) : Onward s (forkSlot parent child seed s) := by
  unfold forkSlot
  split
  · exact .refl s
  next c hc =>
    dsimp only
    split
    · refine Onward.trans (Onward.setContext (Onward.trans (onward_newLeaf (s.node c.leaf).parent s) ?_) fun _ => rfl)
        (onward_dirtySlot ..)
      split
      · exact onward_addRef ..
      · exact .refl _
    · have hleaves : Onward s (newLeaf (some c.leaf) (newLeaf (some c.leaf) s)) :=
        (onward_newLeaf ..).trans (onward_newLeaf ..)
      have hnone : s.Unreserved → c.provisional = 0 := fun hf => hf.context hc
      have hparent := ((hleaves.trans (onward_addRef c.leaf 1 _)).setContext (slot := parent)
        (c := { c with leaf := s.contexts.nextNode }) hnone).trans (onward_dirtySlot parent _)
      exact (hparent.setContext fun _ => rfl).trans (onward_dirtySlot ..)

theorem onward_forkBody (t addr : Nat) (r : CtxRecord) (s : State) : Onward s (forkBody t addr r s) := by
  unfold forkBody
  split
  · exact onward_failRecord ..
  · split
    · exact onward_failRecord ..
    · split
      · exact (onward_count ..).trans (onward_failRecord ..)
      · dsimp only
        split
        · exact onward_failRecord ..
        · split
          · exact onward_failRecord ..
          · exact (onward_forkSlot ..).trans ((onward_count ..).trans (onward_endRecord ..))

theorem onward_appendBody (t addr : Nat) (r : CtxRecord) (s : State) : Onward s (appendBody t addr r s) := by
  have happend : ∀ words : List Nat, Onward s (words.foldl (fun s w => appendToken r.slot w s) s) := fun words =>
    Onward.foldl (fun s w => onward_appendToken r.slot w s) words s
  unfold appendBody
  refine .ite (onward_failRecord ..) ?_
  split
  · exact onward_failRecord ..
  · exact .ite (onward_failRecord ..) (.ite (onward_failRecord ..) (.ite (onward_failRecord ..) (.ite (onward_failRecord ..)
      (.ite (onward_failRecord ..) ((happend _).trans (onward_endRecord ..))))))

theorem onward_pauseBody (t addr : Nat) (r : CtxRecord) (s : State) : Onward s (pauseBody t addr r s) := by
  unfold pauseBody
  split
  · exact onward_failRecord ..
  next c hc =>
    have hnone : s.Unreserved → c.provisional = 0 := fun hf => hf.contextOf hc
    have hslot : Onward s (setContext r.slot { c with state := 2, timeToLive := r.arg, copying := s.toMove c true } s) :=
      (Onward.refl s).setContext hnone
    exact .ite (onward_failRecord ..) (.ite (onward_failRecord ..)
      (hslot.trans ((onward_dirtySlot ..).trans (onward_startCopy ..))))

theorem onward_resumeBody (t addr : Nat) (r : CtxRecord) (s : State) : Onward s (resumeBody t addr r s) := by
  unfold resumeBody
  split
  · exact onward_failRecord ..
  next c hc =>
    have hnone : s.Unreserved → c.provisional = 0 := fun hf => hf.contextOf hc
    have hslot : Onward s (setContext r.slot { c with state := 4, copying := s.toMove c false } s) :=
      (Onward.refl s).setContext hnone
    exact .ite (onward_failRecord ..) (.ite (onward_failRecord ..) (.ite (onward_failRecord ..)
      (hslot.trans ((onward_dirtySlot ..).trans ((onward_notePeak _).trans (onward_startCopy ..))))))

theorem onward_cancelBody (t addr : Nat) (r : CtxRecord) (s : State) : Onward s (cancelBody t addr r s) := by
  unfold cancelBody
  split
  · exact onward_failRecord ..
  next c hc =>
    have hnone : s.Unreserved → c.provisional = 0 := fun hf => hf.contextOf hc
    have hslot : Onward s (setContext r.slot { c with cancelPending := true } s) := (Onward.refl s).setContext hnone
    exact .ite (onward_failRecord ..) (Onward.trans (.ite (hslot.trans (onward_dirtySlot ..)) (onward_freeContext ..))
      (onward_endRecord ..))

theorem onward_runOp (t addr : Nat) (r : CtxRecord) (s : State) : Onward s (runOp t addr r s) := by
  unfold runOp
  refine .ite (onward_failRecord ..) ?_
  split
  · exact onward_openBody ..
  · exact onward_forkBody ..
  · exact onward_appendBody ..
  · exact onward_pauseBody ..
  · exact onward_resumeBody ..
  · exact onward_cancelBody ..

/-! ### Actions 1 to 3 -/

theorem unreserved_releaseReserved (s : State) : (releaseReserved s).Unreserved := by
  refine ⟨rfl, fun e he => ?_, fun e he => ?_⟩
  · obtain ⟨d, -, rfl⟩ := List.mem_map.1 he
    rfl
  · obtain ⟨d, -, rfl⟩ := List.mem_map.1 he
    rfl

/-- Action 2 for one final row. -/
def resolveRow (r : StepRun) (s : State) (f : RowFinal) : State :=
  match r.rows[f.index]? with
  | none => s
  | some x =>
    let s := if x.desc.noContext then s else appendRow r.head.number x.desc.slot f.appended s
    let s := if f.appended = [] then s else charge x.desc.tenant f.appended.length s
    if f.accepted then count 0x706002 1 s else s

theorem resolveRows_eq (r : StepRun) (s : State) : resolveRows r s = r.finals.foldl (resolveRow r) (releaseReserved s) := rfl

/-- A relation over appends, charges and counts holds over action 2 for one row. -/
theorem resolveRow_rel {R : State → State → Prop} (refl : ∀ s, R s s)
    (trans : ∀ {s t u}, R s t → R t u → R s u) {r : StepRun} {f : RowFinal} (append : ∀ x s, r.rows[f.index]? = some x → x.desc.noContext = false →
      R s (appendRow r.head.number x.desc.slot f.appended s))
    (charged : ∀ tenant n s, R s (charge tenant n s)) (counted : ∀ key k s, R s (count key k s)) (s : State) :
    R s (resolveRow r s f) := by
  unfold resolveRow
  split
  · exact refl s
  next x hx =>
    dsimp only
    have happend : R s (if x.desc.noContext then s else appendRow r.head.number x.desc.slot f.appended s) := by
      split
      · exact refl s
      next h => exact append x s hx (by simpa using h)
    generalize (if x.desc.noContext then s else appendRow r.head.number x.desc.slot f.appended s) = u at happend ⊢
    have hcharge : R s (if f.appended = [] then u else charge x.desc.tenant f.appended.length u) := by
      split
      · exact happend
      · exact trans happend (charged ..)
    generalize (if f.appended = [] then u else charge x.desc.tenant f.appended.length u) = v at hcharge ⊢
    split
    · exact trans hcharge (counted ..)
    · exact hcharge

theorem onward_resolveRow (r : StepRun) (s : State) (f : RowFinal) : Onward s (resolveRow r s f) :=
  resolveRow_rel Onward.refl Onward.trans (fun _ s _ _ => onward_appendRow _ _ _ s) onward_charge onward_count s

theorem onward_resolveRows (r : StepRun) (s : State) : Onward s (resolveRows r s) :=
  Onward.trans (t := releaseReserved s) ⟨fun _ h => h, fun _ => unreserved_releaseReserved s⟩
    (Onward.foldl (onward_resolveRow r) r.finals _)

/-- Action 2 returns every reservation. -/
theorem unreserved_resolveRows (r : StepRun) (s : State) : (resolveRows r s).Unreserved :=
  (Onward.foldl (onward_resolveRow r) r.finals _).free (unreserved_releaseReserved s)

theorem onward_applyCancels (s : State) : Onward s (applyCancels s) :=
  (Onward.foldl (fun s (e : Nat × Context) => .ite (onward_freeContext e.1 s) (.refl s)) s.contexts.slots s).trans
    (Onward.foldl (fun s (e : Nat × Batch) =>
      .ite ((onward_expireDue ..).trans (onward_runOp e.1 (s.nextRecord e.1).1 (s.nextRecord e.1).2 _)) (.refl s)) _ _)

/-! ### Actions 4 to 6 -/

theorem onward_setHead (i : Nat) (h : HeadSlot) (s : State) : Onward s (setHead i h s) :=
  .of_leaves (leaves_setHead (List.Subset.refl _) (Leaves.refl _ s) i h) (by decide)

theorem onward_loadFinished (s : State) : Onward s (loadFinished s) :=
  Onward.foldl (fun s i => .ite ((onward_setHead i { s.head i with state := 4, layout := (s.head i).next } s).trans
    (onward_raiseArgs ..)) (.refl s)) _ s

theorem onward_actionFour (s : State) : Onward s (actionFour s) :=
  Onward.trans (.of_leaves (leaves_failSlots (List.Subset.refl _) (Leaves.refl _ s)) (by decide)) (onward_loadFinished _)

theorem onward_refuseMode (reason : Nat) (s : State) : Onward s (refuseMode reason s) := by
  refine Onward.raise ?_ _
  exact .of_same rfl rfl

theorem onward_applyKeys (keys : List Nat) (s : State) : Onward s (applyKeys keys s) :=
  .of_leaves (leaves_applyKeys (List.Subset.refl _) (Leaves.refl _ s) keys) (by decide)

theorem onward_reject (s : State) : Onward s (reject s) := onward_count ..

theorem onward_applyTenants (s : State) : Onward s (applyTenants s) := by
  unfold applyTenants
  dsimp only
  generalize List.range 64 = tenants
  refine Onward.trans (Onward.foldl (fun s t => ?_) tenants s) (onward_applyKeys ..)
  exact .ite (.refl s) ((Onward.refl s).setBudget fun hf => hf.budget t)

theorem onward_applyAreas (s : State) : Onward s (applyAreas s).1 := by
  unfold applyAreas
  split
  · exact (onward_reject s).trans (onward_raiseArgs ..)
  · exact onward_applyKeys ..

theorem onward_applyDirectory (s : State) : Onward s (applyDirectory s).1 := by
  unfold applyDirectory
  dsimp only
  split
  · refine Onward.raise ?_ _
    exact ⟨fun _ h => h, fun hf => ⟨hf.pages, hf.slots, hf.budgets⟩⟩
  · exact (onward_applyKeys [0x206001, 0x206002] s).trans ⟨fun _ h => h, fun hf => ⟨hf.pages, hf.slots, hf.budgets⟩⟩

theorem onward_applyMode (s : State) : Onward s (applyMode s) := by
  unfold applyMode
  refine .ite (onward_refuseMode ..) ((onward_applyKeys [0x200020] s).trans ?_)
  exact .of_same rfl rfl

theorem onward_endCommit (state : Nat) (s : State) : Onward s (endCommit state s) := by
  have hend : Onward s { restage s with
      dict := { (restage s).dict with commitState := state, commitTime := (restage s).now } } :=
    .of_same rfl rfl
  exact .ite hend (hend.trans (onward_raiseArgs ..))

theorem onward_applySets (changed : Bool) (s : State) : Onward s (applySets changed s) := by
  have hbond : Onward s (if changed then applyBond s else s) :=
    .ite (.of_leaves (leaves_applyBond (List.Subset.refl _) (Leaves.refl _ s)) (by decide)) (.refl s)
  have htenants := hbond.trans (onward_applyTenants _)
  have hareas := htenants.trans ((onward_applyKeys [0x203001, 0x203002] _).trans (onward_applyAreas _))
  unfold applySets
  dsimp only
  generalize applyAreas (applyKeys [0x203001, 0x203002] (applyTenants (if changed then applyBond s else s))) = a at hareas ⊢
  have hdirectory := hareas.trans (onward_applyDirectory a.1)
  generalize applyDirectory a.1 = d at hdirectory ⊢
  exact (hdirectory.trans (onward_applyMode d.1)).trans (onward_endCommit ..)

theorem onward_handleCommit (s : State) : Onward s (handleCommit s) := by
  have hbond : ∀ reason, Onward s (setBondReason reason s) := fun reason =>
    .of_leaves (leaves_setBondReason (List.Subset.refl _) (Leaves.refl _ s) reason) (by decide)
  exact .ite (.refl s) (.ite ((hbond _).trans ((onward_raiseArgs ..).trans (onward_endCommit ..)))
    ((hbond _).trans (onward_applySets ..)))

theorem onward_actionFive (commits : Bool) (s : State) : Onward s (actionFive commits s) := by
  have hfell : Onward s { s with upkeep := { s.upkeep with heirloomFell := false } } :=
    .of_same rfl rfl
  have hmode : Onward s (if s.upkeep.heirloomFell then
      let s := { s with upkeep := { s.upkeep with heirloomFell := false } }
      if s.runMode = 2 then refuseMode 4 s else s
    else s) := .ite (.ite (hfell.trans (onward_refuseMode ..)) hfell) (.refl s)
  exact .ite (hmode.trans (onward_handleCommit _)) hmode

theorem onward_wake (s : State) : Onward s (wake s) :=
  .of_leaves (leaves_wake (List.Subset.refl _) (Leaves.refl _ s)) (by decide)

theorem onward_startSwap (i : Nat) (l : SlotLayout) (s : State) : Onward s (startSwap i l s) :=
  .ite ((onward_setHead ..).trans (onward_wake _)) ((onward_reject s).trans (onward_raiseArgs ..))

theorem onward_startHeldSwaps (s : State) : Onward s (startHeldSwaps s) :=
  Onward.foldl (fun _ i => .ite ((onward_setHead i _ _).trans (onward_startSwap ..)) (.refl _)) _ s

/-! ### Action 7 -/

theorem onward_noteHeirloom (old s : State) : Onward s (noteHeirloom old s) := by
  unfold noteHeirloom
  exact .ite (.ite (.of_same rfl rfl) (onward_refuseMode ..)) (.refl s)

theorem onward_reloadMicro (s : State) : Onward s (reloadMicro s) := by
  refine Onward.trans ?_ (.of_leaves (leaves_announceCaps (List.Subset.refl _) (Leaves.refl _ _) s) (by decide))
  refine Onward.trans ?_ (onward_noteHeirloom s _)
  exact .of_same rfl rfl

theorem onward_holdForHeat (s : State) : Onward s (holdForHeat s) := by
  refine .ite (Onward.raise ?_ _) (.refl s)
  exact .of_same rfl rfl

theorem onward_failSnapshot (reason : Nat) (s : State) : Onward s (failSnapshot reason s) := by
  unfold failSnapshot
  split
  · exact .refl s
  · refine Onward.trans ?_ (onward_raiseCount ..)
    exact .of_same rfl rfl

theorem onward_refuseBy (byGo : Bool) (s : State) : Onward s (refuseBy byGo s) :=
  Onward.trans (.ite (onward_reject s) (.refl s)) (onward_raiseCount ..)

theorem onward_clearStarts (s : State) : Onward s (clearStarts s) := by
  unfold clearStarts
  refine Onward.trans ?_ (Onward.foldl (fun s (x : Nat × Bool × Nat) => onward_refuseBy x.2.1 s) _ _)
  exact .of_same rfl rfl

theorem onward_prepareRestore (s : State) : Onward s (prepareRestore s) := by
  have hmarks : Onward (clearStarts s) (markAll (clearStarts s)) :=
    .of_leaves (leaves_markAll (List.Subset.refl _) (Leaves.refl _ _)) (by decide)
  refine (onward_clearStarts s).trans (hmarks.trans ?_)
  unfold prepareRestore
  generalize markAll (clearStarts s) = u
  refine ⟨fun _ h => h, fun hf => ⟨rfl, fun e he => absurd he List.not_mem_nil, fun e he => ?_⟩⟩
  obtain ⟨d, -, rfl⟩ := List.mem_map.1 he
  rfl

theorem onward_failRestore (reason : Nat) (s : State) : Onward s (failRestore reason s) := by
  unfold failRestore
  split
  · exact .refl s
  · refine (onward_prepareRestore s).trans (Onward.trans ?_ (onward_raiseCount ..))
    exact .of_same rfl rfl

theorem onward_startRestore (s : State) : Onward s (startRestore s) := by
  have hrun : ∀ (u : State) (x : Restore), Onward u (wake { u with restore := x }) := fun u x => by
    refine Onward.trans ?_ (onward_wake _)
    exact .of_same rfl rfl
  unfold startRestore
  exact .ite ((onward_prepareRestore s).trans ((hrun _ _).trans (onward_failRestore ..)))
    ((onward_prepareRestore s).trans (hrun _ _))

theorem onward_capture (s : State) : Onward s (capture s) := by
  have hrun : ∀ (x : Steps) (y : Snapshot), Onward s { s with steps := x, snapshot := y } := fun x y => .of_same rfl rfl
  unfold capture
  exact .ite (onward_count ..) (.ite ((hrun _ _).trans (onward_wake _)) ((hrun _ _).trans (onward_failSnapshot ..)))

theorem onward_reorderTree (s : State) : Onward s (reorderTree s) :=
  .of_leaves (leaves_reorderTree (List.Subset.refl _) (Leaves.refl _ s)) (by decide)

theorem onward_settle (s : State) : Onward s (settle s) := by
  have hreload : Onward s (reorderTree (holdForHeat (if s.fseq.reload then reloadMicro s else s))) :=
    Onward.trans (.ite (onward_reloadMicro s) (.refl s)) ((onward_holdForHeat _).trans (onward_reorderTree _))
  have hcapture := fun u : State => Onward.ite (c := u.captureDue) (onward_capture u) (.refl u)
  have hrestore := fun u : State => Onward.ite (c := u.restore.requested) (onward_startRestore u) (.refl u)
  have htests : ∀ u : State, Onward u (startWaitingTests u) := fun u =>
    .of_leaves (leaves_startWaitingTests (List.Subset.refl _) (Leaves.refl _ u)) (by decide)
  exact hreload.trans ((hcapture _).trans ((hrestore _).trans (htests _)))

theorem onward_beginLatched (s : State) : Onward s (beginLatched s) := by
  unfold beginLatched
  split
  · exact .refl s
  next time byGo left _ =>
    have htaken : Onward s { s with steps := { s.steps with latched := none } } := .of_same rfl rfl
    refine .ite (.refl s) (.ite (htaken.trans (onward_refuseBy ..)) (htaken.trans ?_))
    exact .of_leaves (leaves_acceptStart (List.Subset.refl _) (Leaves.refl _ _) time byGo left) (by decide)

theorem onward_clearColumns (s : State) : Onward s (clearColumns s) := .of_same rfl rfl

theorem onward_actionSeven (s : State) : Onward s (actionSeven s) := by
  have hclear := (onward_loadFinished s).trans (onward_clearColumns _)
  unfold actionSeven
  generalize clearColumns (loadFinished s) = u at hclear ⊢
  refine Onward.trans (Onward.trans (Onward.trans hclear ?_) (onward_settle _)) (onward_beginLatched _)
  exact .of_same rfl rfl

/-- What the boundary's actions behind action 2 keep. -/
theorem onward_runBoundary (r : StepRun) (s : State) : Onward (resolveRows r (completeStep r s)) (runBoundary r s) := by
  unfold runBoundary
  generalize resolveRows r (completeStep r s) = u
  exact ((((onward_applyCancels u).trans (onward_actionFour _)).trans (onward_actionFive true _)).trans
    (onward_startHeldSwaps _)).trans (onward_actionSeven _)

end Sys2Proof.Machine
end

section
/-! PROOF. The state at a step boundary, and what action 7 does of it (R40, R51, table 1.6). -/

namespace Sys2Proof.Machine

/-! ### The slow edge and the reads of the boundary -/

/-- The state in which the boundary's actions begin. -/
def atBoundary (host : List Host.Cell) (ecc : List EccHit) (s : State) : State := readHits ecc (hostWrites host (slowEdge s))

theorem slowEdge_leaves (s : State) : Leaves [.clock, .counters, .run, .slow] s (slowEdge s) :=
  leaves_slowEdge (List.Subset.refl _) (Leaves.refl _ s)

theorem atBoundary_leaves (host : List Host.Cell) (ecc : List EccHit) (s : State) :
    Leaves [.clock, .counters, .run, .slow, .events, .slots, .pages, .batches, .cache, .snapshot, .corrected, .mem, .fresh] s
      (atBoundary host ecc s) :=
  leaves_readHits (by decide) (leaves_hostWrites (by decide) (leaves_slowEdge (by decide) (Leaves.refl _ s)) host) ecc

/-- Where the lanes run the power state is Active. -/
theorem active_of_working {s : State} (h : s.working = true) : s.sensing.power = .active := by
  simp only [State.working, State.laneRuns, Bool.and_eq_true, beq_iff_eq] at h
  exact h.1.2.1

theorem runsSteps_of_working {s : State} (h : s.working = true) : s.runsSteps = true := by
  rw [State.working, Bool.and_eq_true] at h
  exact h.2

theorem tsPhase_tick (t : TimeStamp) : t.tick.phase = 0 := by
  unfold TimeStamp.tick
  split
  · rfl
  · split <;> rfl

theorem slowCycle_active {s : State} (h : s.sensing.power = .active) : (slowCycle s).ts = s.ts.tick ∧
    (slowCycle s).steps.run = s.steps.run.map fun r => { r with laneCycles := r.laneCycles + s.laneEdges } := by
  rw [slowCycle, if_neg (by simp [h]), countPower]
  simp only [h]
  exact ⟨rfl, rfl⟩

/-- The slow cycle under way has ended. -/
theorem tsPhase_slowEdge {s : State} (h : s.working = true) : (slowEdge s).ts.phase = 0 := by
  unfold slowEdge
  split
  next h0 => exact h0
  · rw [(slowCycle_active (active_of_working h)).1, tsPhase_tick]

/-- The slow edge counts the lane cycles of the running step, nothing else of it. -/
theorem run_slowEdge {s : State} {r : StepRun} (hr : s.steps.run = some r) (h : s.working = true) :
    ∃ n, (slowEdge s).steps.run = some { r with laneCycles := n } := by
  unfold slowEdge
  split
  · exact ⟨_, hr⟩
  · rw [(slowCycle_active (active_of_working h)).2, hr]
    exact ⟨_, rfl⟩

/-- The step as the boundary finds it: one that ends as another does. -/
structure StepRun.EndsAs (r q : StepRun) : Prop where
  head : q.head = r.head
  finals : q.finals = r.finals
  status : q.stepStatus = r.stepStatus
  record : q.record = r.record
  descs : ∀ i : Nat, (q.rows[i]?).map RowRun.desc = (r.rows[i]?).map RowRun.desc

theorem endsAs_of_bare {r q : StepRun} {n : Nat} (h : q.bare = { r with laneCycles := n }.bare) : r.EndsAs q := by
  refine ⟨(congrArg StepRun.head h :), (congrArg StepRun.finals h :), (congrArg StepRun.stepStatus h :),
    (congrArg StepRun.record h :), fun i => ?_⟩
  have e := congrArg (fun l : List RowRun => (l[i]?).map RowRun.desc) (bare_rows h)
  simp only [List.getElem?_map, Option.map_map] at e
  exact e

theorem run_atBoundary {s : State} {r : StepRun} (host : List Host.Cell) (ecc : List EccHit) (hr : s.steps.run = some r)
    (h : s.working = true) : ∃ q, (atBoundary host ecc s).steps.run = some q ∧ r.EndsAs q := by
  obtain ⟨n, hn⟩ := run_slowEdge hr h
  obtain ⟨q, hq, hb⟩ := run_of_bareRun (bareRun_readHits ecc (hostWrites host (slowEdge s))) hn
  exact ⟨q, hq, endsAs_of_bare hb⟩

/-! ### Action 7 -/

theorem loadFinished_leaves (s : State) : Leaves [.events, .counters, .heads] s (loadFinished s) :=
  leaves_loadFinished (List.Subset.refl _) (Leaves.refl _ s)

/-- The step has ended; its columns are free. -/
def stepEnded (s : State) : State :=
  { clearColumns s with steps := { s.steps with run := none, sinceCapture := s.steps.sinceCapture + 1 } }

theorem actionSeven_eq (s : State) : actionSeven s = beginLatched (settle (stepEnded (loadFinished s))) := by
  unfold actionSeven
  generalize loadFinished s = u
  rfl

theorem run_stepEnded (s : State) : (stepEnded s).steps.run = none := rfl

theorem lanes_stepEnded (s : State) : (stepEnded s).lanes = .initial := rfl

theorem lastStatus_stepEnded (s : State) : (stepEnded s).steps.lastStatus = s.steps.lastStatus := rfl

/-- The first part of action 7's work, up to the capture. -/
def settleCapture (s : State) : State :=
  let s := reorderTree (holdForHeat (if s.fseq.reload then reloadMicro s else s))
  if s.captureDue then capture s else s

/-- Action 7's work up to a restore that was asked for. -/
def settleRestore (s : State) : State :=
  if (settleCapture s).restore.requested then startRestore (settleCapture s) else settleCapture s

theorem settle_eq (s : State) : settle s = startWaitingTests (settleRestore s) := rfl

theorem settleCapture_leaves (s : State) : Leaves [.power, .heat, .events, .applied, .counters, .fseq, .lastStep, .peers, .tree,
    .late, .snapshot, .mode, .out] s (settleCapture s) := by
  have hreload : Leaves [.power, .heat, .events, .applied, .counters, .fseq, .lastStep, .peers, .tree, .late, .snapshot, .mode,
      .out] s (reorderTree (holdForHeat (if s.fseq.reload then reloadMicro s else s))) :=
    leaves_reorderTree (by decide) (leaves_holdForHeat (by decide)
      (leaves_ite (leaves_reloadMicro (by decide) (Leaves.refl _ s)) (Leaves.refl _ s)))
  exact leaves_ite (leaves_capture (by decide) hreload) hreload

/-- Without a restore asked for none starts. -/
theorem settleRestore_quiet {s : State} (h : s.restore.requested = false) : settleRestore s = settleCapture s := by
  have e : (settleCapture s).restore = s.restore := (settleCapture_leaves s).same .restore (by decide)
  rw [settleRestore, e, h]
  rfl

theorem settleRestore_leaves (s : State) : Leaves [.power, .heat, .events, .applied, .counters, .fseq, .slots, .pages, .batches,
    .budgets, .starts, .lastStep, .peers, .tree, .late, .snapshot, .restore, .mode, .out] s (settleRestore s) :=
  have h := (settleCapture_leaves s).mono (by decide)
  leaves_ite (leaves_startRestore (by decide) h) h

theorem startWaitingTests_leaves (s : State) : Leaves [.heads, .tests] s (startWaitingTests s) :=
  leaves_startWaitingTests (List.Subset.refl _) (Leaves.refl _ s)

/-- Where no test waits none starts. -/
theorem settle_untested {s : State} (h : s.upkeep.bistWaiting = false) : settle s = settleRestore s := by
  have hw : (settleRestore s).upkeep.bistWaiting = false := by
    obtain ⟨-, -, -, -, hw, -⟩ := (settleRestore_leaves s).same .tests (by decide)
    rw [hw, h]
  rw [settle_eq, startWaitingTests, hw]
  rfl

theorem beginLatched_none {s : State} (h : s.steps.latched = none) : beginLatched s = s := by rw [beginLatched, h]

theorem beginLatched_leaves (s : State) : Leaves [.power, .events, .counters, .starts] s (beginLatched s) :=
  leaves_beginLatched (List.Subset.refl _) (Leaves.refl _ s)

theorem lastStatus_of_leaves {W : List Part} {s t : State} (h : Leaves W s t) (hW : Part.lastStep ∉ W) :
    t.steps.lastStatus = s.steps.lastStatus := (h.same .lastStep hW).1

theorem lastStatus_wake (s : State) : (wake s).steps.lastStatus = s.steps.lastStatus :=
  lastStatus_of_leaves (leaves_wake (List.Subset.refl _) (Leaves.refl _ s)) (by decide)

theorem lastStatus_failSnapshot (reason : Nat) (s : State) : (failSnapshot reason s).steps.lastStatus = s.steps.lastStatus :=
  lastStatus_of_leaves (leaves_failSnapshot (List.Subset.refl _) (Leaves.refl _ s) reason) (by decide)

theorem lastStatus_capture (s : State) : (capture s).steps.lastStatus = s.steps.lastStatus := by
  unfold capture
  dsimp only
  split
  · rfl
  · split
    · rw [lastStatus_wake]
    · rw [lastStatus_failSnapshot]

theorem lastStatus_settleCapture (s : State) : (settleCapture s).steps.lastStatus = s.steps.lastStatus := by
  have hreload : Leaves [.heat, .events, .applied, .counters, .fseq, .peers, .tree, .late, .mode, .out] s
      (reorderTree (holdForHeat (if s.fseq.reload then reloadMicro s else s))) :=
    leaves_reorderTree (by decide) (leaves_holdForHeat (by decide)
      (leaves_ite (leaves_reloadMicro (by decide) (Leaves.refl _ s)) (Leaves.refl _ s)))
  have hstatus := lastStatus_of_leaves hreload (by decide)
  unfold settleCapture
  generalize reorderTree (holdForHeat (if s.fseq.reload then reloadMicro s else s)) = u at hstatus ⊢
  dsimp only
  split
  · exact (lastStatus_capture u).trans hstatus
  · exact hstatus

theorem lastStatus_settle (s : State) : (settle s).steps.lastStatus = s.steps.lastStatus := by
  rw [settle_eq, lastStatus_of_leaves (startWaitingTests_leaves _) (by decide), settleRestore]
  refine Eq.trans ?_ (lastStatus_settleCapture s)
  split
  · exact lastStatus_of_leaves (leaves_startRestore (List.Subset.refl _) (Leaves.refl _ _)) (by decide)
  · rfl

theorem lastStatus_actionSeven (s : State) : (actionSeven s).steps.lastStatus = s.steps.lastStatus := by
  rw [actionSeven_eq, lastStatus_of_leaves (beginLatched_leaves _) (by decide), lastStatus_settle, lastStatus_stepEnded]
  exact lastStatus_of_leaves (loadFinished_leaves s) (by decide)

theorem settle_leaves (s : State) : Leaves [.power, .heat, .events, .applied, .counters, .heads, .fseq, .slots, .pages, .batches,
    .budgets, .starts, .lastStep, .peers, .tree, .late, .snapshot, .restore, .tests, .mode, .out] s (settle s) :=
  leaves_settle (List.Subset.refl _) (Leaves.refl _ s)

theorem run_actionSeven (s : State) : (actionSeven s).steps.run = none := by
  rw [actionSeven_eq, (beginLatched_leaves _).same .run (by decide), (settle_leaves _).same .run (by decide), run_stepEnded]

theorem lanes_actionSeven (s : State) : (actionSeven s).lanes = .initial := by
  rw [actionSeven_eq, (beginLatched_leaves _).same .lanes (by decide), (settle_leaves _).same .lanes (by decide),
    lanes_stepEnded]

end Sys2Proof.Machine
end

section
/-! PROOF. Slots freed at a step boundary, by words in error and by action 3 (R392, table 17.6): a slot that is free stays
free, and without batches nothing is written. -/

namespace Sys2Proof.Machine

/-! ### Keys -/

theorem lookupKey_eraseKey_self {α : Type} (m : List (Nat × α)) (k : Nat) : lookupKey (eraseKey m k) k = none := by
  induction m with
  | nil => rfl
  | cons e m ih =>
    obtain ⟨j, v⟩ := e
    by_cases h : j = k
    · simpa [eraseKey, h] using ih
    · simpa [eraseKey, h, lookupKey] using ih

theorem lookupKey_eraseKey_other {α : Type} (m : List (Nat × α)) {k j : Nat} (h : j ≠ k) :
    lookupKey (eraseKey m k) j = lookupKey m j := by
  induction m with
  | nil => rfl
  | cons e m ih =>
    obtain ⟨i, v⟩ := e
    by_cases hi : i = k
    · simpa [eraseKey, hi, lookupKey, Ne.symm h] using ih
    · by_cases hj : i = j
      · simp [eraseKey, lookupKey, hj, h]
      · simpa [eraseKey, hi, lookupKey, hj] using ih

theorem lookupKey_map {α β : Type} (f : α → β) (m : List (Nat × α)) (k : Nat) :
    lookupKey (m.map fun e => (e.1, f e.2)) k = (lookupKey m k).map f := by
  induction m with
  | nil => rfl
  | cons e m ih =>
    obtain ⟨j, v⟩ := e
    by_cases h : j = k
    · simp [lookupKey, h]
    · simpa [lookupKey, h] using ih

/-! ### Slots freed -/

/-- From one state to another slots were freed, no other change was made to one. -/
def Frees (s t : State) : Prop := ∀ slot, t.context slot = none ∨ t.context slot = s.context slot

theorem Frees.refl (s : State) : Frees s s := fun _ => .inr rfl

theorem Frees.trans {s t u : State} (h : Frees s t) (k : Frees t u) : Frees s u := fun slot => by
  rcases k slot with k | k
  · exact .inl k
  · exact k ▸ h slot

theorem Frees.foldl {α : Type} {f : State → α → State} (h : ∀ s x, Frees s (f s x)) (l : List α) (s : State) :
    Frees s (l.foldl f s) := foldl_rel refl trans h l s

theorem Frees.of_leaves {W : List Part} {s t : State} (h : Leaves W s t) (hW : Part.slots ∉ W) : Frees s t := fun slot => by
  have e : t.contexts.slots = s.contexts.slots := h.same .slots hW
  rw [State.context, e, State.context]
  exact .inr rfl

/-- A free slot stays free. -/
theorem Frees.none {s t : State} (h : Frees s t) {slot : Nat} (hn : s.context slot = none) : t.context slot = none :=
  (h slot).elim id fun e => e.trans hn

theorem slots_freeSlot (slot : Nat) (s : State) (h : (s.context slot).isSome) :
    (freeSlot slot s).contexts.slots = eraseKey s.contexts.slots slot := by
  obtain ⟨c, hc⟩ := Option.isSome_iff_exists.1 h
  rw [freeSlot, hc]
  exact (leaves_dropRef (List.Subset.refl _) (Leaves.refl _ _) 65 c.leaf).same .slots (by decide)

theorem freeSlot_none {slot : Nat} {s : State} (h : s.context slot = none) : freeSlot slot s = s := by rw [freeSlot, h]

theorem context_freeSlot (slot : Nat) (s : State) : (freeSlot slot s).context slot = none := by
  cases h : s.context slot with
  | none => rw [freeSlot_none h, h]
  | some c => rw [State.context, slots_freeSlot slot s (by simp [h]), lookupKey_eraseKey_self]

theorem frees_freeSlot (slot : Nat) (s : State) : Frees s (freeSlot slot s) := fun k => by
  cases h : s.context slot with
  | none =>
    rw [freeSlot_none h]
    exact .inr rfl
  | some c =>
    by_cases hk : k = slot
    · exact .inl (hk ▸ context_freeSlot slot s)
    · rw [State.context, slots_freeSlot slot s (by simp [h]), lookupKey_eraseKey_other _ hk]
      exact .inr rfl

/-- What else frees a slot ends a copy of it. -/
theorem freeContext_leaves (slot : Nat) (s : State) :
    Leaves [.counters, .batches, .mem, .fresh] (freeSlot slot s) (freeContext slot s) := by
  unfold freeContext
  dsimp only
  split
  · exact leaves_endCopy (by decide) (leaves_free16 (by decide) (Leaves.refl _ _)) ..
  · exact Leaves.refl _ _

theorem frees_freeContext (slot : Nat) (s : State) : Frees s (freeContext slot s) :=
  (frees_freeSlot slot s).trans (.of_leaves (freeContext_leaves slot s) (by decide))

theorem context_freeContext (slot : Nat) (s : State) : (freeContext slot s).context slot = none :=
  (Frees.of_leaves (freeContext_leaves slot s) (by decide)).none (context_freeSlot slot s)

/-- Without batches no copy is under way. -/
theorem freeContext_idle {s : State} (h : s.contexts.batches = []) (slot : Nat) : freeContext slot s = freeSlot slot s := by
  simp only [freeContext, h, List.any_nil, Bool.false_eq_true, if_false]

/-! ### Words met in error -/

theorem frees_loseSlot (slot : Nat) (s : State) : Frees s (loseSlot slot s) := by
  have hmarks : Frees s (markRows (s.rowsOfSlot slot) 0x1120 s) :=
    .of_leaves (leaves_markRows (List.Subset.refl _) (Leaves.refl _ s) ..) (by decide)
  refine hmarks.trans ?_
  unfold loseSlot
  generalize markRows (s.rowsOfSlot slot) 0x1120 s = u
  have hraise : ∀ v : State, Frees v (raiseArgs 0x0D13 0 slot 0 v) := fun v =>
    .of_leaves (leaves_raiseArgs (List.Subset.refl _) (Leaves.refl _ v) ..) (by decide)
  dsimp only
  split
  · split
    · exact (frees_freeContext slot u).trans (hraise _)
    · exact (frees_freeSlot slot u).trans (hraise _)
  · exact .refl u

theorem frees_contextHit (e : EccHit) (s : State) : Frees s (contextHit e s) := by
  have hnote : Frees s (noteUncorrectable 1 e s) :=
    .of_leaves (leaves_noteUncorrectable (List.Subset.refl _) (Leaves.refl _ s) 1 e) (by decide)
  unfold contextHit
  split
  · exact .of_leaves (leaves_correctedWord (List.Subset.refl _) (Leaves.refl _ s) 1 e) (by decide)
  · dsimp only
    split
    · exact hnote.trans (frees_loseSlot _ _)
    · exact hnote.trans (.of_leaves (leaves_dropLine (List.Subset.refl _) (Leaves.refl _ _) e.word) (by decide))

theorem frees_readHits (es : List EccHit) (s : State) : Frees s (readHits es s) :=
  Frees.foldl (fun s e => frees_contextHit e s) _ s

/-! ### Batches and the memory -/

/-- No command is held for the boundary. -/
def State.NoneHeld (s : State) : Prop := ∀ e ∈ s.contexts.batches, e.2.held = false

/-- From one state to another no command was held, and without batches nothing was written. -/
structure Idles (s t : State) : Prop where
  held : s.NoneHeld → t.NoneHeld
  quiet : s.contexts.batches = [] → t.contexts.batches = [] ∧ t.mem = s.mem

theorem Idles.refl (s : State) : Idles s s := ⟨id, fun h => ⟨h, rfl⟩⟩

theorem Idles.trans {s t u : State} (h : Idles s t) (k : Idles t u) : Idles s u := by
  refine ⟨fun hs => k.held (h.held hs), fun hs => ?_⟩
  obtain ⟨hb, hm⟩ := h.quiet hs
  obtain ⟨kb, km⟩ := k.quiet hb
  exact ⟨kb, km.trans hm⟩

theorem Idles.foldl {α : Type} {f : State → α → State} (h : ∀ s x, Idles s (f s x)) (l : List α) (s : State) :
    Idles s (l.foldl f s) := foldl_rel refl trans h l s

theorem Idles.of_leaves {W : List Part} {s t : State} (h : Leaves W s t) (hW : Part.batches ∉ W ∧ Part.mem ∉ W) :
    Idles s t := by
  obtain ⟨hb, hm⟩ := hW
  have batches : t.contexts.batches = s.contexts.batches := h.same .batches hb
  exact ⟨fun hs e he => hs e (batches ▸ he), fun hs => ⟨batches.trans hs, h.same .mem hm⟩⟩

theorem State.NoneHeld.of_batches {s t : State} (h : s.NoneHeld) (e : t.contexts.batches = s.contexts.batches) : t.NoneHeld :=
  fun b hb => h b (e ▸ hb)

theorem State.NoneHeld.batch {s : State} (h : s.NoneHeld) (t : Nat) : (s.batch t).held = false := by
  unfold State.batch
  cases hb : lookupKey s.contexts.batches t with
  | none => rfl
  | some b => exact h _ (lookupKey_mem hb)

theorem State.NoneHeld.setBatch {s : State} (h : s.NoneHeld) (t : Nat) {b : Batch} (hb : b.held = false) :
    (setBatch t b s).NoneHeld := fun e he => by
  rcases mem_insertKey he with rfl | he
  · exact hb
  · exact h e he

theorem noneHeld_foldl {α : Type} {f : State → α → State} (h : ∀ s x, s.NoneHeld → (f s x).NoneHeld) (l : List α)
    {s : State} (hs : s.NoneHeld) : (l.foldl f s).NoneHeld := by
  induction l generalizing s with
  | nil => exact hs
  | cons x l ih => exact ih (h s x hs)

theorem noneHeld_endCopy (slot status : Nat) {s : State} (h : s.NoneHeld) : (endCopy slot status s).NoneHeld := by
  refine noneHeld_foldl (fun u e hu => noneHeld_foldl (fun v c hv => ?_) e.2.copies hu) s.contexts.batches h
  split
  · have hresult : Leaves [.counters, .mem] v (writeResults c.1 status slot (v.lengthSeen e.1 slot) v) :=
      leaves_writeResults (List.Subset.refl _) (Leaves.refl _ v) ..
    have hv := hv.of_batches (hresult.same .batches (by decide))
    exact hv.setBatch e.1 (hv.batch e.1)
  · exact hv

theorem idles_freeSlot (slot : Nat) (s : State) : Idles s (freeSlot slot s) :=
  .of_leaves (leaves_freeSlot (List.Subset.refl _) (Leaves.refl _ s) slot) (by decide)

theorem idles_freeContext (slot : Nat) (s : State) : Idles s (freeContext slot s) := by
  refine ⟨fun h => ?_, fun h => freeContext_idle h slot ▸ (idles_freeSlot slot s).quiet h⟩
  have hfree := (idles_freeSlot slot s).held h
  unfold freeContext
  dsimp only
  split
  · refine noneHeld_endCopy _ _ (hfree.of_batches ?_)
    exact (leaves_free16 (List.Subset.refl _) (Leaves.refl _ (freeSlot slot s))).same .batches (by decide)
  · exact hfree

theorem idles_loseSlot (slot : Nat) (s : State) : Idles s (loseSlot slot s) := by
  have hmarks : Idles s (markRows (s.rowsOfSlot slot) 0x1120 s) :=
    .of_leaves (leaves_markRows (List.Subset.refl _) (Leaves.refl _ s) ..) (by decide)
  refine hmarks.trans ?_
  unfold loseSlot
  generalize markRows (s.rowsOfSlot slot) 0x1120 s = u
  have hraise : ∀ v : State, Idles v (raiseArgs 0x0D13 0 slot 0 v) := fun v =>
    .of_leaves (leaves_raiseArgs (List.Subset.refl _) (Leaves.refl _ v) ..) (by decide)
  dsimp only
  split
  · split
    · exact (idles_freeContext slot u).trans (hraise _)
    · exact (idles_freeSlot slot u).trans (hraise _)
  · exact .refl u

theorem idles_contextHit (e : EccHit) (s : State) : Idles s (contextHit e s) := by
  have hnote : Idles s (noteUncorrectable 1 e s) :=
    .of_leaves (leaves_noteUncorrectable (List.Subset.refl _) (Leaves.refl _ s) 1 e) (by decide)
  unfold contextHit
  split
  · exact .of_leaves (leaves_correctedWord (List.Subset.refl _) (Leaves.refl _ s) 1 e) (by decide)
  · dsimp only
    split
    · exact hnote.trans (idles_loseSlot ..)
    · exact hnote.trans (.of_leaves (leaves_dropLine (List.Subset.refl _) (Leaves.refl _ _) e.word) (by decide))

theorem idles_readHits (es : List EccHit) (s : State) : Idles s (readHits es s) :=
  Idles.foldl (fun s e => idles_contextHit e s) _ s

/-! ### Action 3 -/

/-- The cancels of action 3. -/
def cancelSlots (s : State) : State :=
  s.contexts.slots.foldl (fun s e => if e.2.cancelPending then freeContext e.1 s else s) s

theorem frees_cancel (s : State) (e : Nat × Context) : Frees s (if e.2.cancelPending then freeContext e.1 s else s) := by
  split
  · exact frees_freeContext _ _
  · exact .refl s

theorem frees_cancelSlots (s : State) : Frees s (cancelSlots s) := Frees.foldl frees_cancel _ s

theorem idles_cancelSlots (s : State) : Idles s (cancelSlots s) := by
  refine Idles.foldl (fun s e => ?_) _ s
  split
  · exact idles_freeContext ..
  · exact .refl s

/-- A pass that finds nothing to act on changes nothing. -/
theorem foldl_unless {α : Type} {p : α → Bool} (f : State → α → State) {l : List α} (h : ∀ e ∈ l, p e = false)
    (s : State) : l.foldl (fun s e => if p e then f s e else s) s = s := by
  induction l with
  | nil => rfl
  | cons e l ih =>
    rw [List.foldl_cons, h e List.mem_cons_self]
    exact ih fun x hx => h x (List.mem_cons_of_mem _ hx)

/-- Where no command is held, action 3 is the cancels alone. -/
theorem applyCancels_eq {s : State} (h : s.NoneHeld) : applyCancels s = cancelSlots s := by
  exact foldl_unless (p := fun e : Nat × Batch => e.2.held)
    (fun s e => runOp e.1 (s.nextRecord e.1).1 (s.nextRecord e.1).2 (expireDue (s.nextRecord e.1).2.slot s))
    ((idles_cancelSlots s).held h) (cancelSlots s)

/-- A slot with a cancel pending is freed. -/
theorem context_cancelSlots {s : State} {slot : Nat} {c : Context} (h : s.context slot = some c) (hc : c.cancelPending = true) :
    (cancelSlots s).context slot = none := by
  obtain ⟨before, after, hl⟩ := List.append_of_mem (lookupKey_mem h)
  rw [cancelSlots, hl, List.foldl_append, List.foldl_cons]
  refine (Frees.foldl frees_cancel after _).none ?_
  rw [if_pos hc]
  exact context_freeContext ..

/-- Without cancels pending action 3 frees nothing. -/
theorem cancelSlots_none {s : State} (h : ∀ e ∈ s.contexts.slots, e.2.cancelPending = false) : cancelSlots s = s :=
  foldl_unless (p := fun e : Nat × Context => e.2.cancelPending) (fun s e => freeContext e.1 s) h s

end Sys2Proof.Machine
end

section
/-! PROOF. Action 2 of a step boundary: tokens are charged to their tenants and appended to their slots' histories (R350,
R401, R430). -/

namespace Sys2Proof.Machine

/-! ### Charges -/

theorem used_charge (tenant n : Nat) (s : State) (t : Nat) : ((charge tenant n s).budget t).used =
    if t = tenant then min ((s.budget t).used + n) (2 ^ 64 - 1) else (s.budget t).used := by
  have e : (charge tenant n s).budget t = (lookupKey (insertKey s.contexts.budgets tenant
      { s.budget tenant with used := min ((s.budget tenant).used + n) (2 ^ 64 - 1) }) t).getD
        { used := 0, period := 0, reserved := 0 } := rfl
  rw [e]
  by_cases h : t = tenant
  · rw [if_pos h, h, lookupKey_insertKey_self]
    rfl
  · rw [if_neg h, lookupKey_insertKey_other _ _ h]
    rfl

theorem used_of_leaves {W : List Part} {s t : State} (h : Leaves W s t) (hW : Part.budgets ∉ W) (tenant : Nat) :
    (t.budget tenant).used = (s.budget tenant).used := by
  have e : t.contexts.budgets = s.contexts.budgets := h.same .budgets hW
  rw [State.budget, e, State.budget]

/-- A tenant's use without what its rows reserved. -/
def Budget.unreserved (b : Budget) : Budget := { b with reserved := 0 }

/-- A slot's entry without its provisional pages. -/
def Context.unreserved (c : Context) : Context := { c with provisional := 0 }

theorem used_releaseReserved (s : State) (t : Nat) : ((releaseReserved s).budget t).used = (s.budget t).used := by
  show ((lookupKey (s.contexts.budgets.map fun e : Nat × Budget => (e.1, e.2.unreserved)) t).getD _).used = _
  rw [lookupKey_map, State.budget]
  cases lookupKey s.contexts.budgets t <;> rfl

/-- The tokens of a final row that a tenant pays. -/
def StepRun.paid (r : StepRun) (tenant : Nat) (f : RowFinal) : Nat :=
  if (r.rows[f.index]?).any (·.desc.tenant == tenant) then f.appended.length else 0

theorem used_resolveRow (r : StepRun) {s : State} (f : RowFinal) {t : Nat} (h : (s.budget t).used < 2 ^ 64) :
    ((resolveRow r s f).budget t).used = min ((s.budget t).used + r.paid t f) (2 ^ 64 - 1) := by
  have hstays : min (s.budget t).used (2 ^ 64 - 1) = (s.budget t).used := Nat.min_eq_left (Nat.le_sub_one_of_lt h)
  unfold resolveRow StepRun.paid
  cases hx : r.rows[f.index]? with
  | none => exact hstays.symm
  | some x =>
    have happend : Leaves [.events, .counters, .slots, .pages, .snapshot] s
        (if x.desc.noContext then s else appendRow r.head.number x.desc.slot f.appended s) :=
      leaves_ite (Leaves.refl _ s) (leaves_appendRow (List.Subset.refl _) (Leaves.refl _ s) ..)
    have hused := used_of_leaves happend (by decide) t
    have hcount : ∀ u : State, ((if f.accepted then count 0x706002 1 u else u).budget t).used = (u.budget t).used :=
      fun u => used_of_leaves (leaves_ite (leaves_count (List.Subset.refl _) (Leaves.refl _ u) ..) (Leaves.refl _ u))
        (by decide) t
    dsimp only
    generalize (if x.desc.noContext then s else appendRow r.head.number x.desc.slot f.appended s) = u at hused ⊢
    rw [hcount]
    by_cases hf : f.appended = []
    · rw [if_pos hf, hused, hf, List.length_nil, ite_self, Nat.add_zero, hstays]
    · rw [if_neg hf, used_charge, hused]
      by_cases ht : t = x.desc.tenant
      · simp [ht]
      · rw [if_neg ht, Option.any_some, if_neg (by simpa using Ne.symm ht), Nat.add_zero, hstays]

theorem used_foldl (r : StepRun) {t : Nat} (l : List RowFinal) {s : State} (h : (s.budget t).used < 2 ^ 64) :
    ((l.foldl (resolveRow r) s).budget t).used = min ((s.budget t).used + (l.map (r.paid t)).sum) (2 ^ 64 - 1) := by
  induction l generalizing s with
  | nil => exact (Nat.min_eq_left (Nat.le_sub_one_of_lt h)).symm
  | cons f l ih =>
    have hstep := used_resolveRow r f h
    have hlt : ((resolveRow r s f).budget t).used < 2 ^ 64 := by omega
    rw [List.foldl_cons, ih hlt, hstep, List.map_cons, List.sum_cons]
    omega

/-- Action 2 charges every tenant its rows' tokens; a use stops at all ones. -/
theorem used_resolveRows (r : StepRun) {s : State} {t : Nat} (h : (s.budget t).used < 2 ^ 64) :
    ((resolveRows r s).budget t).used = min ((s.budget t).used + (r.finals.map (r.paid t)).sum) (2 ^ 64 - 1) := by
  rw [resolveRows_eq, used_foldl r r.finals (used_releaseReserved s t ▸ h), used_releaseReserved]

/-! ### Cancels pending -/

/-- From one state to another the slots in use are the same, and so are their cancels pending. -/
structure SameCancels (s t : State) : Prop where
  slot : ∀ k, (t.context k).map Context.cancelPending = (s.context k).map Context.cancelPending
  none : (∀ e ∈ s.contexts.slots, e.2.cancelPending = false) → ∀ e ∈ t.contexts.slots, e.2.cancelPending = false

theorem SameCancels.refl (s : State) : SameCancels s s := ⟨fun _ => rfl, id⟩

theorem SameCancels.trans {s t u : State} (h : SameCancels s t) (k : SameCancels t u) : SameCancels s u :=
  ⟨fun i => (k.slot i).trans (h.slot i), fun hs => k.none (h.none hs)⟩

theorem SameCancels.foldl {α : Type} {f : State → α → State} (h : ∀ s x, SameCancels s (f s x)) (l : List α)
    (s : State) : SameCancels s (l.foldl f s) := foldl_rel refl trans h l s

theorem SameCancels.of_slots {s t : State} (h : t.contexts.slots = s.contexts.slots) : SameCancels s t :=
  ⟨fun k => by rw [State.context, h, State.context], fun hs => h ▸ hs⟩

theorem SameCancels.of_leaves {W : List Part} {s t : State} (h : Leaves W s t) (hW : Part.slots ∉ W) : SameCancels s t :=
  .of_slots (h.same .slots hW)

/-- A slot in use takes another entry with the same mark. -/
theorem SameCancels.setContext {s t : State} (h : SameCancels s t) {k : Nat} {c d : Context} (hc : s.context k = some c)
    (hd : d.cancelPending = c.cancelPending) : SameCancels s (setContext k d t) := by
  refine ⟨fun i => ?_, fun hs e he => ?_⟩
  · by_cases hi : i = k
    · rw [hi, context_setContext, hc, Option.map_some, Option.map_some, hd]
    · rw [context_setContext_other _ _ hi, h.slot]
  · rcases mem_insertKey he with rfl | he
    · exact hd.trans (hs _ (lookupKey_mem hc))
    · exact h.none hs e he

theorem sameCancels_raiseCount (code key wide a b : Nat) (s : State) : SameCancels s (raiseCount code key wide a b s) :=
  .of_leaves (leaves_raiseCount (List.Subset.refl _) (Leaves.refl _ s) ..) (by decide)

theorem sameCancels_appendRaw (slot token st : Nat) (s : State) : SameCancels s (appendRaw slot token st s) := by
  unfold appendRaw
  split
  · exact .refl s
  next c hc =>
    have hleaf : Leaves [.counters, .pages, .snapshot] s
        (if (s.node c.leaf).tokens.length ≥ 65536 then newLeaf (some c.leaf) s else s) :=
      leaves_ite (leaves_newLeaf (List.Subset.refl _) (Leaves.refl _ s) _) (Leaves.refl _ s)
    refine SameCancels.trans (SameCancels.setContext (.of_leaves (leaves_putNode (by decide) hleaf ..) (by decide)) hc ?_)
      (.of_slots rfl)
    rfl

theorem sameCancels_appendToken (slot token : Nat) (s : State) : SameCancels s (appendToken slot token s) :=
  appendToken_rel SameCancels.refl SameCancels.trans sameCancels_raiseCount (sameCancels_appendRaw slot) token s

theorem sameCancels_appendRow (number slot : Nat) (tokens : List Nat) (s : State) :
    SameCancels s (appendRow number slot tokens s) :=
  appendRow_rel SameCancels.refl SameCancels.trans (sameCancels_appendToken slot)
    (fun _ s hc => (SameCancels.refl s).setContext hc rfl) tokens s

theorem sameCancels_resolveRow (r : StepRun) (s : State) (f : RowFinal) : SameCancels s (resolveRow r s f) :=
  resolveRow_rel SameCancels.refl SameCancels.trans (fun _ s _ _ => sameCancels_appendRow _ _ _ s)
    (fun _ _ _ => .of_slots rfl) (fun _ _ _ => .of_slots rfl) s

theorem context_releaseReserved (s : State) (k : Nat) :
    (releaseReserved s).context k = (s.context k).map Context.unreserved :=
  lookupKey_map Context.unreserved s.contexts.slots k

theorem sameCancels_resolveRows (r : StepRun) (s : State) : SameCancels s (resolveRows r s) := by
  refine SameCancels.trans (t := releaseReserved s) ⟨fun k => ?_, fun hs e he => ?_⟩
    (SameCancels.foldl (sameCancels_resolveRow r) r.finals _)
  · rw [context_releaseReserved, Option.map_map]
    rfl
  · obtain ⟨d, hd, rfl⟩ := List.mem_map.1 he
    exact hs d hd

/-! ### Histories -/

/-- A node is the leaf of one slot alone. -/
structure State.OwnLeaf (s : State) (slot leaf : Nat) : Prop where
  below : leaf < s.contexts.nextNode
  alone : ∀ k d, k ≠ slot → s.context k = some d → d.leaf ≠ leaf

/-- From one state to another a slot's entry and its leaf are the same. -/
structure Spares (slot leaf : Nat) (s t : State) : Prop where
  entry : s.OwnLeaf slot leaf → t.context slot = s.context slot
  node : s.OwnLeaf slot leaf → t.node leaf = s.node leaf
  own : s.OwnLeaf slot leaf → t.OwnLeaf slot leaf

theorem Spares.refl {slot leaf : Nat} (s : State) : Spares slot leaf s s := ⟨fun _ => rfl, fun _ => rfl, id⟩

theorem Spares.trans {slot leaf : Nat} {s t u : State} (h : Spares slot leaf s t) (k : Spares slot leaf t u) :
    Spares slot leaf s u :=
  ⟨fun hs => (k.entry (h.own hs)).trans (h.entry hs), fun hs => (k.node (h.own hs)).trans (h.node hs),
    fun hs => k.own (h.own hs)⟩

theorem Spares.of_same {slot leaf : Nat} {s t : State} (hs : t.contexts.slots = s.contexts.slots)
    (hn : t.contexts.nodes = s.contexts.nodes) (hx : t.contexts.nextNode = s.contexts.nextNode) : Spares slot leaf s t := by
  have hc : ∀ k, t.context k = s.context k := fun k => by rw [State.context, hs, State.context]
  exact ⟨fun _ => hc slot, fun _ => by rw [State.node, hn, State.node],
    fun h => ⟨hx ▸ h.below, fun k d hk hd => h.alone k d hk (hc k ▸ hd)⟩⟩

theorem Spares.of_leaves {W : List Part} {slot leaf : Nat} {s t : State} (h : Leaves W s t)
    (hW : Part.slots ∉ W ∧ Part.pages ∉ W) : Spares slot leaf s t := by
  obtain ⟨hs, hp⟩ := hW
  obtain ⟨hn, hx, -⟩ := h.same .pages hp
  exact .of_same (h.same .slots hs) hn hx

/-- What holds of a change where a leaf is a slot's own. -/
theorem Spares.given {slot leaf : Nat} {s t : State} (h : s.OwnLeaf slot leaf → Spares slot leaf s t) :
    Spares slot leaf s t :=
  ⟨fun hs => (h hs).entry hs, fun hs => (h hs).node hs, fun hs => (h hs).own hs⟩

theorem node_putNode_self (id : Nat) (n : Node) (s : State) : ((putNode id n s).node id).tokens = n.tokens := by
  show ((lookupKey (insertKey s.contexts.nodes id _) id).getD _).tokens = _
  rw [lookupKey_insertKey_self]
  rfl

theorem node_putNode_other {id k : Nat} (n : Node) (s : State) (h : k ≠ id) : (putNode id n s).node k = s.node k := by
  show (lookupKey (insertKey s.contexts.nodes id _) k).getD _ = _
  rw [lookupKey_insertKey_other _ _ h]
  rfl

theorem spares_putNode {slot leaf id : Nat} (n : Node) (s : State) (h : id ≠ leaf) : Spares slot leaf s (putNode id n s) :=
  ⟨fun _ => rfl, fun _ => node_putNode_other n s (Ne.symm h), fun hs => ⟨hs.below, hs.alone⟩⟩

theorem spares_nextNode {slot leaf : Nat} (s : State) :
    Spares slot leaf s { s with contexts := { s.contexts with nextNode := s.contexts.nextNode + 1 } } :=
  ⟨fun _ => rfl, fun _ => rfl, fun hs => ⟨Nat.lt_succ_of_lt hs.below, hs.alone⟩⟩

theorem spares_newLeaf {slot leaf : Nat} (parent : Option Nat) (s : State) : Spares slot leaf s (newLeaf parent s) :=
  .given fun hs => (spares_nextNode s).trans (spares_putNode _ _ (Nat.ne_of_gt hs.below))

theorem spares_setContext {slot leaf k : Nat} {d : Context} (s : State) (hk : k ≠ slot) (hd : d.leaf ≠ leaf) :
    Spares slot leaf s (setContext k d s) := by
  refine ⟨fun _ => context_setContext_other _ _ (Ne.symm hk), fun _ => rfl, fun hs => ⟨hs.below, fun i e hi he => ?_⟩⟩
  by_cases hik : i = k
  · rw [hik, context_setContext] at he
    exact Option.some.inj he ▸ hd
  · rw [context_setContext_other _ _ hik] at he
    exact hs.alone i e hi he

theorem spares_dirtySlot {slot leaf : Nat} (k : Nat) (s : State) : Spares slot leaf s (dirtySlot k s) := .of_same rfl rfl rfl

/-- An append to another slot. -/
theorem spares_appendRaw {slot leaf k : Nat} (hk : k ≠ slot) (token st : Nat) (s : State) :
    Spares slot leaf s (appendRaw k token st s) := by
  refine .given fun hs => ?_
  unfold appendRaw
  split
  · exact .refl s
  next c hc =>
    have hleaf : (if (s.node c.leaf).tokens.length ≥ 65536 then s.contexts.nextNode else c.leaf) ≠ leaf := by
      split
      · exact Nat.ne_of_gt hs.below
      · exact hs.alone k c hk hc
    have hnew : Spares slot leaf s (if (s.node c.leaf).tokens.length ≥ 65536 then newLeaf (some c.leaf) s else s) := by
      split
      · exact spares_newLeaf ..
      · exact .refl s
    dsimp only
    generalize (if (s.node c.leaf).tokens.length ≥ 65536 then s.contexts.nextNode else c.leaf) = id at hleaf ⊢
    exact ((hnew.trans (spares_putNode _ _ hleaf)).trans (spares_setContext _ hk hleaf)).trans (spares_dirtySlot ..)

theorem spares_raiseCount {slot leaf : Nat} (code key wide a b : Nat) (s : State) :
    Spares slot leaf s (raiseCount code key wide a b s) :=
  .of_leaves (leaves_raiseCount (List.Subset.refl _) (Leaves.refl _ s) ..) (by decide)

theorem spares_appendToken {slot leaf k : Nat} (hk : k ≠ slot) (token : Nat) (s : State) :
    Spares slot leaf s (appendToken k token s) :=
  appendToken_rel Spares.refl Spares.trans spares_raiseCount (spares_appendRaw hk) token s

theorem spares_appendRow {slot leaf k : Nat} (hk : k ≠ slot) (number : Nat) (tokens : List Nat) (s : State) :
    Spares slot leaf s (appendRow number k tokens s) :=
  appendRow_rel Spares.refl Spares.trans (spares_appendToken hk)
    (fun c s hc => .given fun hs => spares_setContext s hk (hs.alone k c hk hc :)) tokens s

/-- What is known of a slot's history: its entry, its leaf's tokens, a leaf that is its own. -/
structure State.History (s : State) (slot : Nat) (c : Context) (tokens : List (Nat × Nat)) : Prop where
  entry : s.context slot = some c
  tokens : (s.node c.leaf).tokens = tokens
  own : s.OwnLeaf slot c.leaf

theorem State.History.spares {s t : State} {slot : Nat} {c : Context} {tokens : List (Nat × Nat)} (h : s.History slot c tokens)
    (k : Spares slot c.leaf s t) : t.History slot c tokens :=
  ⟨(k.entry h.own).trans h.entry, (congrArg Node.tokens (k.node h.own)).trans h.tokens, k.own h.own⟩

/-- The slot itself takes another entry with the same leaf. -/
theorem State.History.setContext {s : State} {slot : Nat} {c d : Context} {tokens : List (Nat × Nat)}
    (h : s.History slot c tokens) (hd : d.leaf = c.leaf) : (setContext slot d s).History slot d tokens := by
  refine ⟨context_setContext slot d s, hd ▸ h.tokens, hd ▸ h.own.below, fun k e hk he => ?_⟩
  rw [context_setContext_other _ _ hk] at he
  exact hd ▸ h.own.alone k e hk he

/-- An append to a slot without an automaton whose leaf is not full. -/
theorem history_appendToken {s : State} {slot : Nat} {c : Context} {tokens : List (Nat × Nat)} (h : s.History slot c tokens)
    (ha : c.automatonState = noState) (hl : tokens.length < 65536) (w : Nat) :
    (appendToken slot w s).History slot c (tokens ++ [(w, noState)]) := by
  have hroom : ¬ (s.node c.leaf).tokens.length ≥ 65536 := by
    rw [h.tokens]
    omega
  have hput : (putNode c.leaf { s.node c.leaf with tokens := (s.node c.leaf).tokens ++ [(w, noState)] } s).History slot c
      (tokens ++ [(w, noState)]) :=
    ⟨h.entry, by rw [node_putNode_self, h.tokens], h.own.below, h.own.alone⟩
  have hset := (hput.setContext (d := { c with automatonState := noState }) rfl).spares (spares_dirtySlot slot _)
  have hc : { c with automatonState := noState } = c := by rw [← ha]
  rw [hc] at hset
  simp only [appendToken, h.entry, ha, if_true, appendRaw, hroom, if_false]
  rw [hc]
  exact hset

theorem history_appendTokens {slot : Nat} {c : Context} (ha : c.automatonState = noState) (words : List Nat) {s : State}
    {tokens : List (Nat × Nat)} (h : s.History slot c tokens) (hl : tokens.length + words.length ≤ 65536) :
    (words.foldl (fun s t => appendToken slot t s) s).History slot c (tokens ++ words.map fun w => (w, noState)) := by
  induction words generalizing s tokens with
  | nil => simpa using h
  | cons w words ih =>
    rw [List.length_cons] at hl
    have hnext := ih (history_appendToken h ha (by omega) w) (by simp; omega)
    rwa [List.append_assoc] at hnext

/-- A row's tokens enter its slot's history; the slot notes the step (R331, R350). -/
theorem history_appendRow {s : State} {slot : Nat} {c : Context} {tokens : List (Nat × Nat)} (h : s.History slot c tokens)
    (ha : c.automatonState = noState) (number : Nat) (words : List Nat) (hl : tokens.length + words.length ≤ 65536) :
    (appendRow number slot words s).History slot { c with lastStep := if words = [] then c.lastStep else number }
      (tokens ++ words.map fun w => (w, noState)) := by
  have htokens := history_appendTokens ha words h hl
  unfold appendRow
  generalize words.foldl (fun s t => appendToken slot t s) s = u at htokens ⊢
  simp only [htokens.entry]
  by_cases hw : words = []
  · rw [if_pos hw, if_pos hw]
    exact htokens
  · rw [if_neg hw, if_neg hw]
    exact htokens.setContext rfl

/-- A final row names a slot. -/
def StepRun.names (r : StepRun) (slot : Nat) (f : RowFinal) : Bool :=
  (r.rows[f.index]?).any fun x => !x.desc.noContext && x.desc.slot == slot

theorem spares_charge {slot leaf : Nat} (tenant n : Nat) (s : State) : Spares slot leaf s (charge tenant n s) :=
  .of_same rfl rfl rfl

theorem spares_count {slot leaf : Nat} (key k : Nat) (s : State) : Spares slot leaf s (count key k s) := .of_same rfl rfl rfl

/-- Action 2 for a row of another slot. -/
theorem spares_resolveRow {r : StepRun} {slot leaf : Nat} {f : RowFinal} (h : r.names slot f = false) (s : State) :
    Spares slot leaf s (resolveRow r s f) := by
  refine resolveRow_rel Spares.refl Spares.trans (fun x s hx hc => spares_appendRow ?_ ..) spares_charge spares_count s
  intro hslot
  simp [StepRun.names, hx, hc, hslot] at h

theorem spares_resolveRows {r : StepRun} {slot leaf : Nat} {l : List RowFinal} (h : ∀ f ∈ l, ¬ r.names slot f = true)
    (s : State) : Spares slot leaf s (l.foldl (resolveRow r) s) := by
  induction l generalizing s with
  | nil => exact .refl s
  | cons f l ih =>
    have hf : r.names slot f = false := by simpa using h f List.mem_cons_self
    exact (spares_resolveRow hf s).trans (ih (fun x hx => h x (List.mem_cons_of_mem _ hx)) _)

/-- Action 2 for the slot's row. -/
theorem history_resolveRow {r : StepRun} {s : State} {slot : Nat} {c : Context} {tokens : List (Nat × Nat)} {f : RowFinal}
    (hf : r.names slot f = true) (h : s.History slot c tokens) (ha : c.automatonState = noState)
    (hl : tokens.length + f.appended.length ≤ 65536) : (resolveRow r s f).History slot
      { c with lastStep := if f.appended = [] then c.lastStep else r.head.number }
      (tokens ++ f.appended.map fun w => (w, noState)) := by
  unfold StepRun.names at hf
  unfold resolveRow
  cases hx : r.rows[f.index]? with
  | none => simp [hx] at hf
  | some x =>
    rw [hx, Option.any_some, Bool.and_eq_true, Bool.not_eq_true', beq_iff_eq] at hf
    obtain ⟨hcontext, rfl⟩ := hf
    have hrow := history_appendRow h ha r.head.number f.appended hl
    dsimp only
    rw [hcontext, if_neg Bool.false_ne_true]
    generalize appendRow r.head.number x.desc.slot f.appended s = u at hrow ⊢
    have hcharge : Spares x.desc.slot c.leaf u (if f.appended = [] then u else charge x.desc.tenant f.appended.length u) := by
      split
      · exact .refl u
      · exact spares_charge ..
    generalize (if f.appended = [] then u else charge x.desc.tenant f.appended.length u) = v at hcharge ⊢
    refine hrow.spares (hcharge.trans ?_)
    split
    · exact spares_count ..
    · exact .refl v

/-- Action 2 appends the tokens of the one final row that names a slot to its history. -/
theorem history_resolveRows {r : StepRun} {s : State} {slot : Nat} {c : Context} {tokens : List (Nat × Nat)} {f : RowFinal}
    (hf : r.finals.filter (r.names slot) = [f]) (h : s.History slot c tokens) (ha : c.automatonState = noState)
    (hl : tokens.length + f.appended.length ≤ 65536) : (resolveRows r s).History slot
      { c with provisional := 0, lastStep := if f.appended = [] then c.lastStep else r.head.number }
      (tokens ++ f.appended.map fun w => (w, noState)) := by
  obtain ⟨before, after, hl₁, hbefore, hnames, hafter⟩ := List.filter_eq_cons_iff.1 hf
  have hreleased : (releaseReserved s).History slot c.unreserved tokens := by
    refine ⟨by rw [context_releaseReserved, h.entry]; rfl, h.tokens, h.own.below, fun k d hk hd => ?_⟩
    rw [context_releaseReserved] at hd
    obtain ⟨e, he, rfl⟩ := Option.map_eq_some_iff.1 hd
    exact h.own.alone k e hk he
  have hfirst := hreleased.spares (spares_resolveRows hbefore _)
  have hown := history_resolveRow hnames hfirst ha hl
  rw [resolveRows_eq, hl₁, List.foldl_append, List.foldl_cons]
  exact hown.spares (spares_resolveRows (List.filter_eq_nil_iff.1 hafter) _)

end Sys2Proof.Machine
end

section
/-! PROOF. Actions 4 and 6 of a step boundary: Finished slots are loaded, held swaps begin (R42, R172, R174). -/

namespace Sys2Proof.Machine

/-! ### Slots one by one -/

/-- The frames of the slots, in order. -/
def State.slotFrames (s : State) : List Nat := s.heads.map HeadSlot.frames

theorem slotFrames_setHead {i : Nat} {h : HeadSlot} {s : State} (hf : h.frames = (s.head i).frames) :
    (setHead i h s).slotFrames = s.slotFrames := by
  refine List.ext_getElem? fun j => ?_
  show ((s.heads.set i h).map HeadSlot.frames)[j]? = (s.heads.map HeadSlot.frames)[j]?
  rw [List.getElem?_map, List.getElem?_map, List.getElem?_set]
  by_cases hij : i = j
  · subst hij
    by_cases hi : i < s.heads.length
    · have hhead : s.head i = s.heads[i] := by simp [State.head, hi]
      simp [hi, hf, hhead]
    · simp [hi]
  · simp [hij]

theorem slotFrames_of_heads {s t : State} (h : t.heads = s.heads) : t.slotFrames = s.slotFrames := by
  rw [State.slotFrames, h, State.slotFrames]

theorem length_of_slotFrames {s t : State} (h : t.slotFrames = s.slotFrames) : t.heads.length = s.heads.length := by
  simpa [State.slotFrames] using congrArg List.length h

theorem head_of_heads {s t : State} (h : t.heads = s.heads) (i : Nat) : t.head i = s.head i := by
  rw [State.head, h, State.head]

/-- The frames no other slot holds are a matter of the slots' frames. -/
theorem otherFrames_eq {s t : State} (h : t.slotFrames = s.slotFrames) {i : Nat} (hi : (t.head i).frames = (s.head i).frames) :
    t.otherFrames i = s.otherFrames i := by
  have hfree : t.freeFrames = s.freeFrames := by
    show 3072 - t.slotFrames.sum = 3072 - s.slotFrames.sum
    rw [h]
  rw [State.otherFrames, hfree, hi, State.otherFrames]

/-! ### Finished slots -/

/-- A slot once Finished slots are loaded. -/
def HeadSlot.loaded (h : HeadSlot) : HeadSlot := if h.state = 3 then { h with state := 4, layout := h.next } else h

theorem heads_raiseArgs (code wide a b : Nat) (s : State) : (raiseArgs code wide a b s).heads = s.heads :=
  (leaves_raiseArgs (List.Subset.refl _) (Leaves.refl _ s) ..).same .heads (by decide)

theorem head_loadSlot {i : Nat} {s : State} (hi : i < s.heads.length) (j : Nat) :
    (loadSlot i s).head j = if j = i then (s.head j).loaded else s.head j := by
  unfold loadSlot HeadSlot.loaded
  dsimp only
  by_cases h3 : (s.head i).state = 3
  · rw [if_pos h3, head_of_heads (heads_raiseArgs ..)]
    by_cases hj : j = i
    · rw [hj, head_setHead _ _ hi, if_pos rfl, if_pos h3]
    · rw [head_setHead_other _ _ hj, if_neg hj]
  · rw [if_neg h3]
    by_cases hj : j = i
    · rw [hj, if_pos rfl, if_neg h3]
    · rw [if_neg hj]

theorem slotFrames_loadSlot (i : Nat) (s : State) : (loadSlot i s).slotFrames = s.slotFrames := by
  unfold loadSlot
  dsimp only
  split
  · refine (slotFrames_of_heads (heads_raiseArgs ..)).trans (slotFrames_setHead ?_)
    rfl
  · rfl

theorem slotFrames_loadFinished (s : State) : (loadFinished s).slotFrames = s.slotFrames :=
  foldl_rel (R := fun s t => t.slotFrames = s.slotFrames) (fun _ => rfl) (fun h k => k.trans h)
    (fun s i => slotFrames_loadSlot i s) _ s

theorem head_loadSlots {is : List Nat} (hn : is.Nodup) {s : State} (hi : ∀ i ∈ is, i < s.heads.length) (j : Nat) :
    (is.foldl (fun s i => loadSlot i s) s).head j = if j ∈ is then (s.head j).loaded else s.head j := by
  induction is generalizing s with
  | nil => rfl
  | cons i is ih =>
    obtain ⟨hni, hn⟩ := List.nodup_cons.1 hn
    have hlen : (loadSlot i s).heads.length = s.heads.length := length_of_slotFrames (slotFrames_loadSlot i s)
    rw [List.foldl_cons, ih hn fun k hk => hlen ▸ hi k (List.mem_cons_of_mem _ hk), head_loadSlot (hi i List.mem_cons_self)]
    by_cases hj : j = i
    · subst hj
      simp [hni]
    · simp [hj]

theorem head_loadFinished {s : State} (hl : s.heads.length = 4) {j : Nat} (hj : j < 4) :
    (loadFinished s).head j = (s.head j).loaded := by
  rw [loadFinished, head_loadSlots List.nodup_range (fun i hi => hl ▸ List.mem_range.1 hi), if_pos (List.mem_range.2 hj)]

theorem failSlots_none {s : State} (h : ∀ k, (s.head k).failing = false) : failSlots s = s := by
  unfold failSlots
  generalize List.range 4 = is
  induction is with
  | nil => rfl
  | cons i is ih =>
    rw [List.foldl_cons]
    simp only [h, Bool.not_false, if_true]
    exact ih

/-- Without words in error action 4 loads the Finished slots alone. -/
theorem actionFour_eq {s : State} (h : ∀ k, (s.head k).failing = false) : actionFour s = loadFinished s := by
  rw [actionFour, failSlots_none h]

/-! ### Held swaps -/

/-- Action 6 for one slot. -/
def startHeld (s : State) (i : Nat) : State :=
  let h := s.head i
  if h.state = 2 then startSwap i h.next (setHead i { h with state := if h.failing then 5 else 4, failing := false } s) else s

theorem startHeldSwaps_eq (s : State) : startHeldSwaps s = (List.range 4).foldl startHeld s := rfl

theorem startHeld_none {s : State} {i : Nat} (h : (s.head i).state ≠ 2) : startHeld s i = s := if_neg h

theorem heads_wake (s : State) : (wake s).heads = s.heads :=
  (leaves_wake (List.Subset.refl _) (Leaves.refl _ s)).same .heads (by decide)

theorem head_startSwap_other {i j : Nat} (hj : j ≠ i) (l : SlotLayout) (s : State) : (startSwap i l s).head j = s.head j := by
  unfold startSwap
  dsimp only
  split
  · rw [head_of_heads (heads_wake _), head_setHead_other _ _ hj]
  · rw [head_of_heads (heads_raiseArgs ..)]
    rfl

theorem head_startHeld_other {i j : Nat} (hj : j ≠ i) (s : State) : (startHeld s i).head j = s.head j := by
  unfold startHeld
  dsimp only
  split
  · rw [head_startSwap_other hj, head_setHead_other _ _ hj]
  · rfl

theorem startHeld_foldl_none {is : List Nat} {s : State} (h : ∀ i ∈ is, (s.head i).state ≠ 2) :
    is.foldl startHeld s = s := by
  induction is with
  | nil => rfl
  | cons i is ih =>
    rw [List.foldl_cons, startHeld_none (h i List.mem_cons_self)]
    exact ih fun k hk => h k (List.mem_cons_of_mem _ hk)

theorem length_startSwap (i : Nat) (l : SlotLayout) (s : State) : (startSwap i l s).heads.length = s.heads.length := by
  unfold startSwap
  dsimp only
  split
  · rw [heads_wake]
    exact List.length_set
  · rw [heads_raiseArgs]
    rfl

theorem length_startHeldSwaps (s : State) : (startHeldSwaps s).heads.length = s.heads.length := by
  refine foldl_rel (R := fun s t => t.heads.length = s.heads.length) (fun _ => rfl) (fun h k => k.trans h) (fun s i => ?_) _ s
  show (startHeld s i).heads.length = s.heads.length
  unfold startHeld
  dsimp only
  split
  · rw [length_startSwap]
    exact List.length_set
  · rfl

/-- A slot without a held swap is as it was. -/
theorem head_startHeldSwaps {s : State} {j : Nat} (h : (s.head j).state ≠ 2) : (startHeldSwaps s).head j = s.head j := by
  refine foldl_rel (R := fun s t => (s.head j).state ≠ 2 → t.head j = s.head j) (fun _ _ => rfl)
    (fun hst htu hs => ?_) (fun s i hs => ?_) _ s h
  · have e := hst hs
    exact (htu (e ▸ hs)).trans e
  · by_cases hi : j = i
    · show (startHeld s i).head j = s.head j
      rw [startHeld_none (hi ▸ hs)]
    · exact head_startHeld_other hi s

/-- The one held swap begins, or is refused. -/
theorem startHeldSwaps_one {s : State} {j : Nat} (hj : j < 4) (h : ∀ k < 4, k ≠ j → (s.head k).state ≠ 2) :
    startHeldSwaps s = startHeld s j := by
  obtain ⟨before, after, hl⟩ := List.append_of_mem (List.mem_range.2 hj)
  have hn : (before ++ j :: after).Nodup := hl ▸ List.nodup_range
  obtain ⟨hbefore, hafter⟩ : j ∉ before ∧ j ∉ after := by
    rw [List.nodup_append] at hn
    obtain ⟨-, hja, hdisjoint⟩ := hn
    exact ⟨fun hb => hdisjoint j hb j List.mem_cons_self rfl, (List.nodup_cons.1 hja).1⟩
  have hlt : ∀ i ∈ before ++ j :: after, i < 4 := fun i hi => List.mem_range.1 (hl ▸ hi)
  rw [startHeldSwaps_eq, hl, List.foldl_append, List.foldl_cons, startHeld_foldl_none fun i hi =>
    h i (hlt i (List.mem_append_left _ hi)) fun e => hbefore (e ▸ hi)]
  refine startHeld_foldl_none fun i hi => ?_
  have hij : i ≠ j := fun e => hafter (e ▸ hi)
  rw [head_startHeld_other hij]
  exact h i (hlt i (List.mem_append_right _ (List.mem_cons_of_mem _ hi))) hij

/-- A held swap of a slot without a word in error begins where its layout fits, else the slot is Loaded as it was. -/
theorem head_startHeld {s : State} {j : Nat} (hj : j < s.heads.length) (hs : s.runsSteps = true) (h2 : (s.head j).state = 2)
    (hf : (s.head j).failing = false) :
    ((s.head j).next.swapValid (s.otherFrames j) = true → ((startHeld s j).head j).state = 1 ∧
      ((startHeld s j).head j).next = (s.head j).next ∧ ((startHeld s j).head j).frames = (s.head j).next.framesNeeded) ∧
    ((s.head j).next.swapValid (s.otherFrames j) = false → (startHeld s j).head j = { s.head j with state := 4 }) := by
  have hgiven : startHeld s j = startSwap j (s.head j).next (setHead j { s.head j with state := 4 } s) := by
    unfold startHeld
    dsimp only
    rw [if_pos h2, hf, if_neg Bool.false_ne_true]
  generalize hu : setHead j { s.head j with state := 4 } s = u at hgiven
  have hframes : u.slotFrames = s.slotFrames := hu ▸ slotFrames_setHead rfl
  have hlen : j < u.heads.length := length_of_slotFrames hframes ▸ hj
  have hhead : u.head j = { s.head j with state := 4 } := hu ▸ head_setHead _ _ hj
  have hother : u.otherFrames j = s.otherFrames j := otherFrames_eq hframes (by rw [hhead])
  have hsteps : u.runsSteps = true := hu ▸ hs
  rw [hgiven]
  unfold startSwap
  rw [hother, hsteps, Bool.true_and]
  refine ⟨fun hv => ?_, fun hv => ?_⟩
  · rw [if_pos hv, head_of_heads (heads_wake _), head_setHead _ _ hlen]
    exact ⟨rfl, rfl, rfl⟩
  · rw [hv, if_neg Bool.false_ne_true, head_of_heads (heads_raiseArgs ..)]
    exact hhead

/-! ### The actions behind action 3 -/

/-- Actions 4 to 7. -/
def afterCancels (s : State) : State := actionSeven (startHeldSwaps (actionFive true (actionFour s)))

theorem heads_stepEnded (s : State) : (stepEnded s).heads = s.heads := rfl

theorem bistWaiting_stepEnded (s : State) : (stepEnded s).upkeep.bistWaiting = s.upkeep.bistWaiting := rfl

theorem bistWaiting_of_leaves {W : List Part} {s t : State} (h : Leaves W s t) (hW : Part.tests ∉ W) :
    t.upkeep.bistWaiting = s.upkeep.bistWaiting := by
  obtain ⟨-, -, -, -, hw, -⟩ := h.same .tests hW
  exact hw

/-- Where no test waits action 7 changes no slot but the Finished ones. -/
theorem head_actionSeven {s : State} (hl : s.heads.length = 4) (ht : s.upkeep.bistWaiting = false) {j : Nat} (hj : j < 4) :
    (actionSeven s).head j = (s.head j).loaded := by
  have hwaiting : (stepEnded (loadFinished s)).upkeep.bistWaiting = false := by
    rw [bistWaiting_stepEnded, bistWaiting_of_leaves (loadFinished_leaves s) (by decide), ht]
  rw [actionSeven_eq, head_of_heads ((beginLatched_leaves _).same .heads (by decide)), settle_untested hwaiting,
    head_of_heads ((settleRestore_leaves _).same .heads (by decide)), head_of_heads (heads_stepEnded _),
    head_loadFinished hl hj]

/-- Actions 4 to 7 load a Finished slot and begin the one held swap, or refuse it. -/
theorem head_afterCancels {s : State} (hl : s.heads.length = 4) (ht : s.upkeep.bistWaiting = false)
    (hf : ∀ k, (s.head k).failing = false) (hs : s.runsSteps = true) {j : Nat} (hj : j < 4) :
    ((s.head j).state = 3 → (afterCancels s).head j = { s.head j with state := 4, layout := (s.head j).next }) ∧
    ((s.head j).state = 2 → (∀ k, k ≠ j → (s.head k).state ≠ 2) →
      ((s.head j).next.swapValid (s.otherFrames j) = true → ((afterCancels s).head j).state = 1 ∧
        ((afterCancels s).head j).next = (s.head j).next ∧
        ((afterCancels s).head j).frames = (s.head j).next.framesNeeded) ∧
      ((s.head j).next.swapValid (s.otherFrames j) = false → (afterCancels s).head j = { s.head j with state := 4 })) := by
  generalize hu : actionFive true (loadFinished s) = u
  have hfive : Leaves _ (loadFinished s) u := hu ▸ leaves_actionFive (List.Subset.refl _) (Leaves.refl _ _) true
  have hheads : u.heads = (loadFinished s).heads := hfive.same .heads (by decide)
  have hframes : u.slotFrames = s.slotFrames := (slotFrames_of_heads hheads).trans (slotFrames_loadFinished s)
  have hhead : ∀ k < 4, u.head k = (s.head k).loaded := fun k hk => (head_of_heads hheads k).trans (head_loadFinished hl hk)
  have hlen : u.heads.length = 4 := (length_of_slotFrames hframes).trans hl
  have hsteps : u.runsSteps = true := by
    have hrecord : u.life.record = s.life.record :=
      (hfive.same .record (by decide)).trans ((loadFinished_leaves s).same .record (by decide))
    rw [State.runsSteps, hrecord]
    exact hs
  have hswap : Leaves [.power, .events, .counters, .heads] u (startHeldSwaps u) :=
    leaves_startHeldSwaps (List.Subset.refl _) (Leaves.refl _ u)
  have hwaiting : (startHeldSwaps u).upkeep.bistWaiting = false := by
    rw [bistWaiting_of_leaves hswap (by decide), bistWaiting_of_leaves hfive (by decide),
      bistWaiting_of_leaves (loadFinished_leaves s) (by decide), ht]
  have hlen' : (startHeldSwaps u).heads.length = 4 := (length_startHeldSwaps u).trans hlen
  have hafter : (afterCancels s).head j = ((startHeldSwaps u).head j).loaded := by
    rw [afterCancels, actionFour_eq hf, hu, head_actionSeven hlen' hwaiting hj]
  refine ⟨fun h3 => ?_, fun h2 hone => ?_⟩
  · have hj4 : u.head j = { s.head j with state := 4, layout := (s.head j).next } := by
      rw [hhead j hj, HeadSlot.loaded, if_pos h3]
    rw [hafter, head_startHeldSwaps (by simp [hj4]), hj4]
    rfl
  · have hj2 : u.head j = s.head j := by
      rw [hhead j hj, HeadSlot.loaded, if_neg (by omega)]
    have hother : u.otherFrames j = s.otherFrames j := otherFrames_eq hframes (by rw [hj2])
    have hnone : ∀ k < 4, k ≠ j → (u.head k).state ≠ 2 := fun k hk hkj => by
      rw [hhead k hk, HeadSlot.loaded]
      split
      · exact (by decide : (4 : Nat) ≠ 2)
      · exact hone k hkj
    obtain ⟨hbegins, hrefused⟩ := head_startHeld (hlen ▸ hj) hsteps (hj2 ▸ h2) (hj2 ▸ hf j)
    rw [hother, hj2, ← startHeldSwaps_one hj hnone] at hbegins hrefused
    refine ⟨fun hv => ?_, fun hv => ?_⟩
    · obtain ⟨hstate, hnext, hneeded⟩ := hbegins hv
      rw [hafter, HeadSlot.loaded, if_neg (by omega)]
      exact ⟨hstate, hnext, hneeded⟩
    · rw [hafter, hrefused hv]
      rfl

end Sys2Proof.Machine
end

section
/-! PROOF. STEP_BOUNDARY: the seven actions in their order (R40, R51, table 1.6). -/

namespace Sys2Proof.Machine

/-! ### Actions 4 to 7 -/

theorem runBoundary_eq (r : StepRun) (s : State) :
    runBoundary r s = afterCancels (applyCancels (resolveRows r (completeStep r s))) := rfl

theorem beforeSeven_leaves (s : State) : Leaves [.power, .events, .applied, .staged, .counters, .commit, .heads, .budgets,
    .directory, .peers, .bond, .tree, .late, .mode, .out] s (startHeldSwaps (actionFive true (actionFour s))) :=
  leaves_startHeldSwaps (by decide) (leaves_actionFive (by decide) (leaves_actionFour (by decide) (Leaves.refl _ s)) true)

theorem afterCancels_leaves (s : State) : Leaves [.power, .heat, .events, .applied, .staged, .counters, .commit, .heads, .lanes,
    .fseq, .slots, .pages, .batches, .budgets, .directory, .run, .starts, .lastStep, .peers, .bond, .tree, .late, .snapshot,
    .restore, .tests, .mode, .out] s (afterCancels s) :=
  leaves_actionSeven (by decide) ((beforeSeven_leaves s).mono (by decide))

theorem stepEnded_leaves (s : State) : Leaves [.lanes, .run, .lastStep] s (stepEnded s) := by
  refine ⟨fun p hp => ?_⟩
  cases p with
  | lanes => exact absurd (by decide) hp
  | run => exact absurd (by decide) hp
  | lastStep => exact absurd (by decide) hp
  | _ => simp only [Part.same, stepEnded, clearColumns, and_self]

/-- Without a restore asked for action 7 keeps contexts and starts up to the latched one's turn. -/
theorem settled_leaves {s : State} (h : s.restore.requested = false) : Leaves [.power, .heat, .events, .applied, .counters,
    .heads, .lanes, .fseq, .run, .lastStep, .peers, .tree, .late, .snapshot, .tests, .mode, .out] s
    (settle (stepEnded (loadFinished s))) := by
  have hended := ((loadFinished_leaves s).mono (W := [.events, .counters, .heads, .lanes, .run, .lastStep]) (by decide)).trans
    (stepEnded_leaves _) (by decide)
  have hquiet : (stepEnded (loadFinished s)).restore.requested = false := by
    rw [hended.same .restore (by decide), h]
  rw [settle_eq, settleRestore_quiet hquiet]
  exact ((hended.mono (by decide)).trans (settleCapture_leaves _) (by decide)).trans (startWaitingTests_leaves _) (by decide)

theorem requested_beforeSeven {s : State} (h : s.restore.requested = false) :
    (startHeldSwaps (actionFive true (actionFour s))).restore.requested = false := by
  rw [(beforeSeven_leaves s).same .restore (by decide), h]

/-- Without a restore asked for actions 4 to 7 keep every slot and every history. -/
theorem afterCancels_quiet {s : State} (h : s.restore.requested = false) : Leaves [.power, .heat, .events, .applied, .staged,
    .counters, .commit, .heads, .lanes, .fseq, .budgets, .directory, .run, .starts, .lastStep, .peers, .bond, .tree, .late,
    .snapshot, .tests, .mode, .out] s (afterCancels s) := by
  rw [afterCancels, actionSeven_eq]
  exact (((beforeSeven_leaves s).mono (by decide)).trans (settled_leaves (requested_beforeSeven h)) (by decide)).trans
    (beginLatched_leaves _) (by decide)

/-- Without a restore asked for and without a latched start none is held. -/
theorem starts_afterCancels {s : State} (h : s.restore.requested = false) (hl : s.steps.latched = none) :
    (afterCancels s).steps.latched = none ∧ (afterCancels s).steps.held = s.steps.held := by
  obtain ⟨hb, kb⟩ := (beforeSeven_leaves s).same .starts (by decide)
  obtain ⟨hs, ks⟩ := (settled_leaves (requested_beforeSeven h)).same .starts (by decide)
  have hnone := (hs.trans hb).trans hl
  rw [afterCancels, actionSeven_eq, beginLatched_none hnone]
  exact ⟨hnone, ks.trans kb⟩

/-- Without a commit pending action 5 judges the fall of Heirloom Available alone. -/
theorem actionFive_leaves {s : State} (h : s.dict.commitState ≠ 1) :
    Leaves [.events, .applied, .counters, .mode] s (actionFive true s) := by
  have hfell : Leaves [.mode] s { s with upkeep := { s.upkeep with heirloomFell := false } } := by
    refine ⟨fun p hp => ?_⟩
    cases p with
    | mode => exact absurd (by decide) hp
    | _ => simp only [Part.same, and_self]
  have hmode : Leaves [.events, .applied, .counters, .mode] s (if s.upkeep.heirloomFell then
      if ({ s with upkeep := { s.upkeep with heirloomFell := false } } : State).runMode = 2 then
        refuseMode 4 { s with upkeep := { s.upkeep with heirloomFell := false } }
      else { s with upkeep := { s.upkeep with heirloomFell := false } }
    else s) :=
    leaves_ite (leaves_ite (leaves_refuseMode (List.Subset.refl _) (hfell.mono (by decide)) 4) (hfell.mono (by decide)))
      (Leaves.refl _ s)
  generalize hu : (if s.upkeep.heirloomFell then
      if ({ s with upkeep := { s.upkeep with heirloomFell := false } } : State).runMode = 2 then
        refuseMode 4 { s with upkeep := { s.upkeep with heirloomFell := false } }
      else { s with upkeep := { s.upkeep with heirloomFell := false } }
    else s) = u at hmode
  obtain ⟨hcommit, -⟩ := hmode.same .commit (by decide)
  have hfive : actionFive true s = handleCommit u := by rw [← hu]; rfl
  have hnone : handleCommit u = u := if_pos (hcommit ▸ h)
  rw [hfive, hnone]
  exact hmode

theorem commitState_of_leaves {W : List Part} {s t : State} (h : Leaves W s t) (hW : Part.commit ∉ W) :
    t.dict.commitState = s.dict.commitState := (h.same .commit hW).1

/-- Without a commit pending actions 4 to 6 keep every budget. -/
theorem beforeSeven_uncommitted {s : State} (h : s.dict.commitState ≠ 1) :
    Leaves [.power, .events, .applied, .counters, .heads, .mode] s (startHeldSwaps (actionFive true (actionFour s))) := by
  have hfour : Leaves [.events, .counters, .heads] s (actionFour s) := leaves_actionFour (List.Subset.refl _) (Leaves.refl _ s)
  have hcommit : (actionFour s).dict.commitState ≠ 1 := by
    rw [commitState_of_leaves hfour (by decide)]
    exact h
  exact leaves_startHeldSwaps (by decide) ((hfour.mono (by decide)).trans (actionFive_leaves hcommit) (by decide))

theorem used_afterCancels {s : State} (h : s.restore.requested = false) (hc : s.dict.commitState ≠ 1) (t : Nat) :
    ((afterCancels s).budget t).used = (s.budget t).used := by
  rw [afterCancels, actionSeven_eq, used_of_leaves (beginLatched_leaves _) (by decide),
    used_of_leaves (settled_leaves (requested_beforeSeven h)) (by decide),
    used_of_leaves (beforeSeven_uncommitted hc) (by decide)]

theorem slots_prepareRestore (s : State) : (prepareRestore s).contexts.slots = [] := rfl

theorem slots_failRestore {s : State} (h : s.contexts.slots = []) (reason : Nat) :
    (failRestore reason s).contexts.slots = [] := by
  unfold failRestore
  split
  · exact h
  · rw [raiseCount_contexts]
    exact slots_prepareRestore s

/-- A restore begins with every slot free (R516). -/
theorem slots_startRestore (s : State) : (startRestore s).contexts.slots = [] := by
  have hwoken : ∀ x : Restore, (wake { prepareRestore s with restore := x }).contexts.slots = [] := fun x =>
    (leaves_wake (List.Subset.refl _) (Leaves.refl _ { prepareRestore s with restore := x })).same .slots (by decide)
  unfold startRestore
  dsimp only
  split
  · exact slots_failRestore (hwoken _) 1
  · exact hwoken _

/-- No slot is opened behind action 3. -/
theorem frees_afterCancels (s : State) : Frees s (afterCancels s) := by
  have hrestore : ∀ u : State, Frees u (settleRestore u) := fun u => by
    unfold settleRestore
    split
    · exact fun slot => .inl (by rw [State.context, slots_startRestore]; rfl)
    · exact .of_leaves (settleCapture_leaves u) (by decide)
  have hbefore : Frees s (startHeldSwaps (actionFive true (actionFour s))) := .of_leaves (beforeSeven_leaves s) (by decide)
  rw [afterCancels, actionSeven_eq, settle_eq]
  generalize startHeldSwaps (actionFive true (actionFour s)) = u at hbefore ⊢
  have hload : Frees u (loadFinished u) := .of_leaves (loadFinished_leaves u) (by decide)
  exact ((((hbefore.trans hload).trans (.of_leaves (stepEnded_leaves _) (by decide))).trans (hrestore _)).trans
    (.of_leaves (startWaitingTests_leaves _) (by decide))).trans (.of_leaves (beginLatched_leaves _) (by decide))

end Sys2Proof.Machine
end

section
/-! PROOF. STEP_BOUNDARY, clause by clause (R40 to R42, R51, R172, R174, R350, R392, R401, R430, R442, table 1.6). -/

namespace Sys2Proof.Machine

/-! ### Actions 1 to 3 -/

/-- The state behind action 2. -/
def resolved (host : List Host.Cell) (ecc : List EccHit) (q : StepRun) (s : State) : State :=
  resolveRows q (completeStep q (atBoundary host ecc s))

theorem completeStep_leaves (r : StepRun) (s : State) : Leaves [.events, .counters, .lastStep] s (completeStep r s) :=
  leaves_completeStep (List.Subset.refl _) (Leaves.refl _ s) r

theorem resolveRows_leaves (r : StepRun) (s : State) :
    Leaves [.events, .counters, .slots, .pages, .budgets, .snapshot] s (resolveRows r s) :=
  leaves_resolveRows (List.Subset.refl _) (Leaves.refl _ s) r

theorem resolved_leaves (host : List Host.Cell) (ecc : List EccHit) (q : StepRun) (s : State) : Leaves [.clock, .counters, .run,
    .slow, .events, .slots, .pages, .batches, .budgets, .cache, .snapshot, .corrected, .lastStep, .mem, .fresh] s
    (resolved host ecc q s) :=
  (((atBoundary_leaves host ecc s).mono (by decide)).trans (completeStep_leaves q _) (by decide)).trans
    (resolveRows_leaves q _) (by decide)

theorem cancelled_leaves (host : List Host.Cell) (ecc : List EccHit) (q : StepRun) (s : State) : Leaves [.clock, .counters,
    .run, .slow, .events, .slots, .pages, .batches, .budgets, .cache, .snapshot, .corrected, .lastStep, .mem, .fresh, .power] s
    (applyCancels (resolved host ecc q s)) :=
  leaves_applyCancels (by decide) ((resolved_leaves host ecc q s).mono (by decide))

/-- The clock stands as the slow edge left it. -/
theorem ts_cancelled (host : List Host.Cell) (ecc : List EccHit) (q : StepRun) (s : State) :
    (applyCancels (resolved host ecc q s)).ts = (slowEdge s).ts := by
  have hread : Leaves [.events, .counters, .slots, .pages, .batches, .cache, .run, .snapshot, .corrected, .mem, .fresh]
      (slowEdge s) (atBoundary host ecc s) :=
    leaves_readHits (by decide) (leaves_hostWrites (by decide) (Leaves.refl _ _) host) ecc
  have hcancel : Leaves _ (resolved host ecc q s) (applyCancels (resolved host ecc q s)) :=
    leaves_applyCancels (List.Subset.refl _) (Leaves.refl _ _)
  rw [hcancel.same .clock (by decide), resolved, (resolveRows_leaves q _).same .clock (by decide),
    (completeStep_leaves q _).same .clock (by decide), hread.same .clock (by decide)]

theorem lastStatus_completeStep (r : StepRun) (s : State) : (completeStep r s).steps.lastStatus = r.stepStatus :=
  lastStatus_of_leaves (leaves_raiseArgs (List.Subset.refl _)
    (Leaves.refl _ { s with steps := { s.steps with lastStatus := r.stepStatus } }) ..) (by decide)

/-- Behind action 1 nothing takes Last Step Status. -/
theorem lastStatus_runBoundary (r : StepRun) (s : State) : (runBoundary r s).steps.lastStatus = r.stepStatus := by
  rw [runBoundary_eq, afterCancels, lastStatus_actionSeven, lastStatus_of_leaves (beforeSeven_leaves _) (by decide),
    lastStatus_of_leaves (leaves_applyCancels (List.Subset.refl _) (Leaves.refl _ _)) (by decide),
    lastStatus_of_leaves (resolveRows_leaves r _) (by decide), lastStatus_completeStep]

theorem run_runBoundary (r : StepRun) (s : State) : (runBoundary r s).steps.run = none := by
  rw [runBoundary_eq, afterCancels, run_actionSeven]

theorem lanes_runBoundary (r : StepRun) (s : State) : (runBoundary r s).lanes = .initial := by
  rw [runBoundary_eq, afterCancels, lanes_actionSeven]

/-- What reads and records of the boundary leave of a slot. -/
theorem frees_atBoundary (host : List Host.Cell) (ecc : List EccHit) (s : State) : Frees s (atBoundary host ecc s) := by
  have hedge : Frees s (slowEdge s) := .of_leaves (slowEdge_leaves s) (by decide)
  have hhost : Frees (slowEdge s) (hostWrites host (slowEdge s)) :=
    .of_leaves (leaves_hostWrites (List.Subset.refl _) (Leaves.refl _ _) host) (by decide)
  exact (hedge.trans hhost).trans (frees_readHits ecc _)

theorem noneHeld_resolved {s : State} (h : s.NoneHeld) (host : List Host.Cell) (ecc : List EccHit) (q : StepRun) :
    (resolved host ecc q s).NoneHeld := by
  have hedge : (hostWrites host (slowEdge s)).NoneHeld :=
    h.of_batches ((slowEdge_leaves s).same .batches (by decide))
  have hread := (idles_readHits ecc _).held hedge
  exact hread.of_batches (((resolveRows_leaves q _).same .batches (by decide)).trans
    ((completeStep_leaves q _).same .batches (by decide)))

/-- Without batches the boundary writes nothing of its own up to action 3. -/
theorem mem_cancelled {s : State} (h : s.contexts.batches = []) (host : List Host.Cell) (ecc : List EccHit) (q : StepRun) :
    (applyCancels (resolved host ecc q s)).mem = overlay s.mem host := by
  have hheld : s.NoneHeld := fun e he => absurd (h ▸ he) List.not_mem_nil
  have hedge := slowEdge_leaves s
  obtain ⟨hbatches, hmem⟩ := (idles_readHits ecc (hostWrites host (slowEdge s))).quiet
    (show (slowEdge s).contexts.batches = [] from (hedge.same .batches (by decide)).trans h)
  have hresolved : Idles (atBoundary host ecc s) (resolved host ecc q s) :=
    (Idles.of_leaves (completeStep_leaves q _) (by decide)).trans (.of_leaves (resolveRows_leaves q _) (by decide))
  obtain ⟨-, hmem'⟩ := (hresolved.trans (idles_cancelSlots _)).quiet hbatches
  rw [applyCancels_eq (noneHeld_resolved hheld host ecc q), hmem']
  refine hmem.trans ?_
  show overlay (slowEdge s).mem host = _
  rw [show (slowEdge s).mem = s.mem from hedge.same .mem (by decide)]

/-- Action 3 frees a slot with a cancel pending, if no word in error lost it before. -/
theorem cancelled_none {s : State} (hheld : s.NoneHeld) {slot : Nat} {c : Context} (hc : s.context slot = some c)
    (hp : c.cancelPending = true) (host : List Host.Cell) (ecc : List EccHit) (q : StepRun) :
    (applyCancels (resolved host ecc q s)).context slot = none := by
  have hsame : SameCancels (atBoundary host ecc s) (resolved host ecc q s) :=
    (SameCancels.of_leaves (completeStep_leaves q _) (by decide)).trans (sameCancels_resolveRows q _)
  have hslot := hsame.slot slot
  rw [applyCancels_eq (noneHeld_resolved hheld host ecc q)]
  rcases frees_atBoundary host ecc s slot with hlost | hkept
  · rw [hlost, Option.map_none, Option.map_eq_none_iff] at hslot
    exact (frees_cancelSlots _).none hslot
  · rw [hkept, hc, Option.map_some, hp, Option.map_eq_some_iff] at hslot
    obtain ⟨d, hd, hpending⟩ := hslot
    exact context_cancelSlots hd hpending

/-! ### A step that ends as another does -/

theorem any_of_descs {a b : Option RowRun} (h : b.map RowRun.desc = a.map RowRun.desc) (p : RowDesc → Bool) :
    (b.any fun x => p x.desc) = a.any fun x => p x.desc := by
  have e : ∀ o : Option RowRun, (o.any fun x => p x.desc) = (o.map RowRun.desc).any p := fun o => by cases o <;> rfl
  rw [e, e, h]

theorem StepRun.EndsAs.names {r q : StepRun} (h : r.EndsAs q) (slot : Nat) : q.names slot = r.names slot :=
  funext fun f => any_of_descs (h.descs f.index) fun d => !d.noContext && d.slot == slot

theorem StepRun.EndsAs.paid {r q : StepRun} (h : r.EndsAs q) (tenant : Nat) : q.paid tenant = r.paid tenant := by
  funext f
  rw [StepRun.paid, any_of_descs (h.descs f.index) fun d => d.tenant == tenant, StepRun.paid]

/-! ### The clauses -/

/-- The end of the step is raised with its number, its rows and its status (R442). -/
theorem queued_runBoundary {r : StepRun} {s : State} (h : s.events.events.length < 255) :
    (runBoundary r s).queued 0x0E10 r.head.number (if r.record = s.address then r.finals.length else 0) r.stepStatus := by
  obtain ⟨e, he, hcode⟩ := queued_raiseArgs (code := 0x0E10) (w := r.head.number)
    (a := if r.record = s.address then r.finals.length else 0) (b := r.stepStatus)
    (s := { s with steps := { s.steps with lastStatus := r.stepStatus } }) h
  exact ⟨e, ((onward_resolveRows r _).trans (onward_runBoundary r s)).events e he, hcode⟩

theorem address_of_leaves {W : List Part} {s t : State} (h : Leaves W s t) (hW : Part.rw ∉ W) : t.address = s.address := by
  have e : t.dict.rw = s.dict.rw := h.same .rw hW
  simp only [State.address, State.rwVal, e]

/-- Where the reads meet no word in error, action 1 speaks of the step as it stood before the slow edge. -/
theorem queued_boundary {s : State} (host : List Host.Cell) {r q : StepRun} (h : r.EndsAs q)
    (hroom : s.events.events.length < 255) : (runBoundary q (atBoundary host [] s)).queued 0x0E10 r.head.number
      (if r.record = s.address then r.finals.length else 0) r.stepStatus := by
  have hevents : (atBoundary host [] s).events = s.events := (slowEdge_leaves s).same .events (by decide)
  have hqueued := queued_runBoundary (r := q) (s := atBoundary host [] s) (hevents ▸ hroom)
  rw [address_of_leaves (atBoundary_leaves host [] s) (by decide), h.head, h.record, h.finals, h.status] at hqueued
  exact hqueued

theorem unreserved_runBoundary (r : StepRun) (s : State) : (runBoundary r s).Unreserved :=
  (onward_runBoundary r s).free (unreserved_resolveRows r _)

/-- Every tenant pays its rows' tokens (R430). -/
theorem used_boundary {s : State} (host : List Host.Cell) (ecc : List EccHit) (q : StepRun) (hreq : s.restore.requested = false)
    (hcommit : s.dict.commitState ≠ 1) {t : Nat} (h : (s.budget t).used < 2 ^ 64) :
    ((runBoundary q (atBoundary host ecc s)).budget t).used =
      min ((s.budget t).used + (q.finals.map (q.paid t)).sum) (2 ^ 64 - 1) := by
  have hstart : ((completeStep q (atBoundary host ecc s)).budget t).used = (s.budget t).used :=
    (used_of_leaves (completeStep_leaves q _) (by decide) t).trans (used_of_leaves (atBoundary_leaves host ecc s) (by decide) t)
  have hcancelled := cancelled_leaves host ecc q s
  have hreq' : (applyCancels (resolved host ecc q s)).restore.requested = false := by
    rw [hcancelled.same .restore (by decide), hreq]
  have hcommit' : (applyCancels (resolved host ecc q s)).dict.commitState ≠ 1 := by
    rw [commitState_of_leaves hcancelled (by decide)]
    exact hcommit
  have hresolved := used_resolveRows q (hstart ▸ h)
  rw [hstart] at hresolved
  rw [← hresolved]
  exact (used_afterCancels hreq' hcommit' t).trans
    (used_of_leaves (leaves_applyCancels (List.Subset.refl _) (Leaves.refl _ _)) (by decide) t)

/-- The tokens of a slot's one final row stand in its history (R350, R401). -/
theorem history_boundary {s : State} (host : List Host.Cell) (q : StepRun) (hreq : s.restore.requested = false)
    (hbatches : s.contexts.batches = []) (hnone : ∀ e ∈ s.contexts.slots, e.2.cancelPending = false) {slot : Nat}
    {c : Context} {f : RowFinal} (hc : s.context slot = some c) (ha : c.automatonState = noState) (hown : s.OwnLeaf slot c.leaf)
    (hf : q.finals.filter (q.names slot) = [f]) (hl : (s.node c.leaf).tokens.length + f.appended.length ≤ 65536) :
    (runBoundary q (atBoundary host [] s)).History slot
      { c with provisional := 0, lastStep := if f.appended = [] then c.lastStep else q.head.number }
      ((s.node c.leaf).tokens ++ f.appended.map fun w => (w, noState)) := by
  have hstart : Leaves [.clock, .counters, .run, .slow, .mem, .events, .lastStep] s
      (completeStep q (hostWrites host (slowEdge s))) :=
    leaves_completeStep (by decide) (leaves_hostWrites (by decide) (leaves_slowEdge (by decide) (Leaves.refl _ s)) host) q
  have hheld : s.NoneHeld := fun e he => absurd (hbatches ▸ he) List.not_mem_nil
  have hresolved := history_resolveRows hf ((State.History.mk hc rfl hown).spares (.of_leaves hstart (by decide))) ha hl
  have hpending := ((SameCancels.of_leaves hstart (by decide)).trans (sameCancels_resolveRows q _)).none hnone
  have hcancelled : applyCancels (resolved host [] q s) = resolved host [] q s :=
    (applyCancels_eq (noneHeld_resolved hheld host [] q)).trans (cancelSlots_none hpending)
  have hreq' : (resolved host [] q s).restore.requested = false := by
    rw [(resolved_leaves host [] q s).same .restore (by decide), hreq]
  have hafter : runBoundary q (atBoundary host [] s) = afterCancels (resolved host [] q s) := congrArg afterCancels hcancelled
  rw [hafter]
  exact State.History.spares hresolved (.of_leaves (afterCancels_quiet hreq') (by decide))

theorem exec_stepBoundary {s : State} {r q : StepRun} (host : List Host.Cell) (ecc : List EccHit) (hr : s.steps.run = some r)
    (hd : r.summaryDone = true) (hw : s.working = true) (hq : (atBoundary host ecc s).steps.run = some q) :
    exec (.stepBoundary host ecc) s = .next (runBoundary q (atBoundary host ecc s)) := by
  have hdue : s.boundaryDue = true := by
    rw [State.boundaryDue, hw, hr, Option.any_some, hd]
    rfl
  have hnow : boundaryNow (atBoundary host ecc s) = runBoundary q (atBoundary host ecc s) := by rw [boundaryNow, hq]
  rw [← hnow]
  exact if_pos hdue

/-- Settles O23, clause by clause: the state in which the boundary's actions begin, then what each action does and what
the later ones keep. -/
theorem stepBoundaryEndsTheStep : Obligations.StepBoundaryEndsTheStep := by
  intro s host ecc r hr hdone hw
  obtain ⟨q, hq, hends⟩ := run_atBoundary host ecc hr hw
  have hcancelled := cancelled_leaves host ecc q s
  have hend : runBoundary q (atBoundary host ecc s) = afterCancels (applyCancels (resolved host ecc q s)) := runBoundary_eq ..
  have hafter := hend ▸ afterCancels_leaves (applyCancels (resolved host ecc q s))
  have hreq : s.restore.requested = false → (applyCancels (resolved host ecc q s)).restore.requested = false := fun h => by
    rw [hcancelled.same .restore (by decide), h]
  obtain ⟨hnumber, hany⟩ := hcancelled.same .numbers (by decide)
  obtain ⟨knumber, kany⟩ := hafter.same .numbers (by decide)
  have hfree := unreserved_runBoundary q (atBoundary host ecc s)
  refine ⟨runBoundary q (atBoundary host ecc s), exec_stepBoundary host ecc hr hdone hw hq, run_runBoundary .., ?_,
    (lastStatus_runBoundary q _).trans hends.status, knumber.trans hnumber, kany.trans hany, lanes_runBoundary ..,
    fun h hl => ?_, hfree.pages, hfree.slots, hfree.budgets, fun hb => ?_, fun he hroom => ?_, fun h hcommit t ht => ?_,
    fun he h hb hnone => ?_, fun hheld => ?_, fun hlen ht hfail j hj => ?_⟩
  · rw [hafter.same .clock (by decide)]
    exact (congrArg TimeStamp.phase (ts_cancelled host ecc q s)).trans (tsPhase_slowEdge hw)
  · obtain ⟨hlatched, hheld⟩ := hcancelled.same .starts (by decide)
    obtain ⟨hnone, hkept⟩ := starts_afterCancels (hreq h) (hlatched.trans hl)
    rw [hend]
    exact ⟨hnone, hkept.trans hheld⟩
  · exact (hafter.same .mem (by decide)).trans (mem_cancelled hb host ecc q)
  · subst he
    exact queued_boundary host hends hroom
  · have hused := used_boundary host ecc q h hcommit ht
    rw [hends.finals, hends.paid] at hused
    exact hused
  · subst he
    intro slot c f hc ha hbelow halone hf hl
    have hnames : q.finals.filter (q.names slot) = [f] := by
      rw [hends.finals, hends.names]
      exact hf
    have hhistory := history_boundary host q h hb hnone hc ha ⟨hbelow, halone⟩ hnames hl
    rw [hends.head] at hhistory
    exact ⟨hhistory.entry, hhistory.tokens⟩
  · rw [hend]
    exact fun slot c hc hp => (frees_afterCancels _).none (cancelled_none hheld hc hp host ecc q)
  · have hheads : (applyCancels (resolved host ecc q s)).heads = s.heads := hcancelled.same .heads (by decide)
    have hhead := head_of_heads hheads
    have hsteps : (applyCancels (resolved host ecc q s)).runsSteps = true := by
      rw [State.runsSteps, hcancelled.same .record (by decide)]
      exact runsSteps_of_working hw
    have hother := otherFrames_eq (slotFrames_of_heads hheads) (i := j) (by rw [hhead])
    have hwaiting := (bistWaiting_of_leaves hcancelled (by decide)).trans ht
    obtain ⟨hfinished, hheld⟩ := head_afterCancels (hheads ▸ hlen) hwaiting
      (fun k => (hhead k).symm ▸ hfail k) hsteps hj
    simp only [hhead, hother] at hfinished hheld
    rw [hend]
    exact ⟨hfinished, hheld⟩

end Sys2Proof.Machine
end

section
/-! PROOF. A write that reaches its command object and starts it: the command's effect, and the answer beside it (R448,
R453, R459). -/

namespace Sys2Proof.Machine

/-- The state with the mirror's registers and the outputs as an access leaves them. -/
def State.withAnswer (m : Mirror) (o : Outputs) (s : State) : State := { s with mirror := m, out := o }

@[simp] theorem withAnswer_head (m : Mirror) (o : Outputs) (s : State) (i : Nat) : (s.withAnswer m o).head i = s.head i :=
  rfl

@[simp] theorem withAnswer_sensing (m : Mirror) (o : Outputs) (s : State) : (s.withAnswer m o).sensing = s.sensing := rfl

theorem raiseArgs_withAnswer (code wide a b : Nat) (m : Mirror) (o : Outputs) (s : State) :
    raiseArgs code wide a b (s.withAnswer m o) = (raiseArgs code wide a b s).withAnswer m o := by
  rw [raiseArgs, raiseArgs, apply_ite (State.withAnswer m o), apply_ite (State.withAnswer m o)]
  rfl

theorem wake_withAnswer (m : Mirror) (o : Outputs) (s : State) : wake (s.withAnswer m o) = (wake s).withAnswer m o := by
  rw [wake, wake, apply_ite (State.withAnswer m o)]
  refine ite_congr rfl (fun _ => rfl) fun _ => ?_
  rw [withAnswer_sensing]
  cases s.sensing.power <;> rfl

/-- The write runs the command's effect; the mirror's halves go before it, the answer comes behind it. -/
theorem writeObject_command {s : State} {via : Via} {key : Nat} {o : ObjInfo} {value : Word32}
    (hs : s.takesWrite via key = true) (ho : objInfo key = some o) (ha : o.access = 5) (hb : o.isBlock = false)
    (h8 : o.size ≠ 8) (hk : key < 2 ^ 24) (hl : laneObject key = false) (hv : value.toNat < 2 ^ (8 * o.size))
    (hc : commandInRange key value.toNat = true) (hr : s.commandResult key = 0)
    (hout : ∀ u, (commandEffect key value.toNat u).out = u.out) :
    ∃ m m' o', writeObject key via value s =
        (commandEffect key value.toNat (s.withAnswer m s.out)).withAnswer m' o' ∧
      (writeObject key via value s).answered s via key 0 := by
  cases via with
  | mesh eid tag =>
    obtain ⟨q, body, hq, htag, hkey, he⟩ := writeObject_mesh (value := value) hs ho hb hk hl
    rw [Nat.mod_eq_of_lt hv, writeValue_command ha hc hr] at he
    obtain ⟨f5, f6, f8, f10, f11⟩ := response_fields q 0 (codesOf o true) body (htag ▸ tag.isLt) (hq ▸ by decide)
      (hkey ▸ hk) (by decide)
    refine ⟨s.mirror, (commandEffect key value.toNat s).mirror, _, he, _, ?_, ?_, f6.trans htag, f8.trans ?_,
      f10.trans ?_, f11⟩
    · rw [he, sendMesh_mesh, ← hout s]
      rfl
    · rw [f5, hq]
    · rw [hkey]
    · rw [hkey]
  | mirror =>
    have he := writeObject_mirror hs ho hb h8 hk hl hv
    rw [writeValue_command (s := dropHalves s) ha hc hr] at he
    exact ⟨(dropHalves s).mirror, _, (commandEffect key value.toNat (dropHalves s)).out, he, he ▸ rfl⟩

end Sys2Proof.Machine
end

section
/-! PROOF. Swap Go, Swap Abort and the end of a swap, with the march of test 10 behind it (R42, R172 to R176, R491, R535,
table 5.7). -/

namespace Sys2Proof.Machine

/-! ### The slots' command objects -/

theorem objInfo_slot {i sub : Nat} (hi : i < 4) (hs : sub < 256) : objInfo ((0x2020 + i) * 256 + sub) = slotObject sub := by
  have hindex : ((0x2020 + i) * 256 + sub) / 256 = 0x2020 + i := by omega
  have hsub : ((0x2020 + i) * 256 + sub) % 256 = sub := by omega
  rw [objInfo, hindex, hsub]
  exact if_pos (by omega)

theorem laneObject_slot {i sub : Nat} (hi : i < 4) (hs : sub < 256) : laneObject ((0x2020 + i) * 256 + sub) = false := by
  refine Bool.eq_false_iff.2 fun h => ?_
  have hindex := index_of_laneObject h
  omega

/-- What a slot's command object does: Swap Go at 0x0C, Swap Abort at 0x0D (table 5.5). -/
def slotEffect (sub i : Nat) (s : State) : State := if sub = 0x0C then swapGoEffect i s else swapAbortEffect i s

/-- The value that starts it. -/
def slotWord (sub : Nat) : Word32 := if sub = 0x0C then 0x53574150 else 0x41425254

theorem startSwap_withAnswer (i : Nat) (l : SlotLayout) (m : Mirror) (o : Outputs) (s : State) :
    startSwap i l (s.withAnswer m o) = (startSwap i l s).withAnswer m o := by
  rw [startSwap, startSwap, apply_ite (State.withAnswer m o), ← wake_withAnswer, ← raiseArgs_withAnswer]
  rfl

theorem beginMarch_withAnswer (m : Mirror) (o : Outputs) (s : State) :
    beginMarch (s.withAnswer m o) = (beginMarch s).withAnswer m o := by
  rw [beginMarch, beginMarch, apply_ite (State.withAnswer m o)]
  rfl

/-- A slot's command looks at neither the mirror's registers nor the outputs, and leaves both. -/
theorem slotEffect_withAnswer (sub i : Nat) (m : Mirror) (o : Outputs) (s : State) :
    slotEffect sub i (s.withAnswer m o) = (slotEffect sub i s).withAnswer m o := by
  rw [slotEffect, slotEffect, apply_ite (State.withAnswer m o)]
  refine ite_congr rfl (fun _ => ?_) fun _ => ?_
  · rw [swapGoEffect, swapGoEffect, apply_ite (State.withAnswer m o), apply_ite (State.withAnswer m o),
      ← startSwap_withAnswer]
    rfl
  · rw [swapAbortEffect, swapAbortEffect, apply_ite (State.withAnswer m o), apply_ite (State.withAnswer m o),
      ← beginMarch_withAnswer, ← raiseArgs_withAnswer, ← raiseArgs_withAnswer]
    rfl

theorem out_slotEffect (sub i : Nat) (s : State) : (slotEffect sub i s).out = s.out :=
  (congrArg State.out (slotEffect_withAnswer sub i s.mirror s.out s) :)

theorem commandEffect_slot {i sub : Nat} (hi : i < 4) (hs : sub < 256) (v : Nat) (s : State) :
    commandEffect ((0x2020 + i) * 256 + sub) v s = slotEffect sub i s := by
  have hindex : ((0x2020 + i) * 256 + sub) / 256 = 0x2020 + i := by omega
  have hsub : ((0x2020 + i) * 256 + sub) % 256 = sub := by omega
  unfold commandEffect
  rw [hindex, hsub]
  dsimp only
  rw [if_pos (by omega), Nat.add_sub_cancel_left]
  rfl

/-- Swap Go and Swap Abort start at any time (table 15.5 knows no BUSY for them). -/
theorem commandResult_slot {i sub : Nat} (hi : i < 4) (hs : sub < 256) (s : State) :
    s.commandResult ((0x2020 + i) * 256 + sub) = 0 := by
  unfold State.commandResult
  rw [if_neg (by omega), if_neg (by omega), if_neg (by omega), if_neg (by omega)]

theorem commandInRange_slot {i sub : Nat} (hi : i < 4) (hs : sub = 0x0C ∨ sub = 0x0D) :
    commandInRange ((0x2020 + i) * 256 + sub) (slotWord sub).toNat = true := by
  obtain rfl | rfl | rfl | rfl : i = 0 ∨ i = 1 ∨ i = 2 ∨ i = 3 := by omega
  all_goals
    rcases hs with rfl | rfl
    · decide
    · decide

theorem slotObject_command {sub : Nat} (hs : sub = 0x0C ∨ sub = 0x0D) : slotObject sub = some (command 3) := by
  rcases hs with rfl | rfl
  · rfl
  · rfl

theorem inService_closed {n : Nat} (h2 : n ≠ 2) (h4 : n ≠ 4) : inService n = .closed :=
  match n with
  | 0 | 1 | 3 | 5 | 6 | _ + 7 => rfl
  | 2 => absurd rfl h2
  | 4 => absurd rfl h4

/-- MAKER and FIELD alone open the slots' objects to a write (R491, table 16.7). -/
theorem runsSteps_of_permits {s : State} {a : Asker} {o : ObjInfo} {i sub : Nat} (hi : i < 4) (hs : sub < 256)
    (h : s.permits a o ((0x2020 + i) * 256 + sub) true = true) : s.runsSteps = true := by
  have hindex : ((0x2020 + i) * 256 + sub) / 256 = 0x2020 + i := by omega
  have hreach : stateReach s.life.record.state ((0x2020 + i) * 256 + sub) = inService s.life.record.state := by
    unfold stateReach
    rw [hindex]
    dsimp only
    rw [if_neg (by omega), if_neg (by omega), if_neg (by omega), if_neg (by omega), if_neg (by omega), if_pos (by omega)]
  refine Bool.not_eq_false _ |>.mp fun hn => ?_
  obtain ⟨h2, h4⟩ : s.life.record.state ≠ 2 ∧ s.life.record.state ≠ 4 := by simpa [State.runsSteps] using hn
  rw [State.permits, hreach, inService_closed h2 h4] at h
  exact absurd h Bool.false_ne_true

theorem runsSteps_of_takesWrite {s : State} {via : Via} {i sub : Nat} (hi : i < 4) (hs : sub < 256)
    (h : s.takesWrite via ((0x2020 + i) * 256 + sub) = true) : s.runsSteps = true := by
  rw [State.takesWrite, Bool.and_eq_true] at h
  obtain ⟨-, h⟩ := h
  split at h
  · exact absurd h Bool.false_ne_true
  · split at h
    · exact runsSteps_of_permits hi hs (Bool.and_eq_true .. ▸ h).2
    · exact runsSteps_of_permits hi hs h

/-- A command of a slot that reaches its object has its effect and is answered (table 15.5). -/
theorem writeObject_slot {s : State} {via : Via} {i sub : Nat} (hi : i < 4) (hsub : sub = 0x0C ∨ sub = 0x0D)
    (hs : s.takesWrite via ((0x2020 + i) * 256 + sub) = true) :
    ∃ m o, writeObject ((0x2020 + i) * 256 + sub) via (slotWord sub) s = (slotEffect sub i s).withAnswer m o ∧
      (writeObject ((0x2020 + i) * 256 + sub) via (slotWord sub) s).answered s via ((0x2020 + i) * 256 + sub) 0 := by
  have hlt : sub < 256 := by omega
  have heffect := commandEffect_slot hi hlt (slotWord sub).toNat
  obtain ⟨m, m', o', he, ha⟩ := writeObject_command hs ((objInfo_slot hi hlt).trans (slotObject_command hsub)) rfl rfl
    (by decide) (by omega) (laneObject_slot hi hlt) (slotWord sub).isLt (commandInRange_slot hi hsub)
    (commandResult_slot hi hlt s) fun u => (congrArg State.out (heffect u)).trans (out_slotEffect sub i u)
  rw [heffect, slotEffect_withAnswer] at he
  exact ⟨m', o', he, ha⟩

/-! ### Swaps that start -/

/-- A wake cause does what table 3.1 says (R91, R92). -/
theorem wakes_wake (s : State) : s.wakes (wake s) := by
  refine ⟨fun hw hp hs => ?_, fun hw hp hs => ?_, fun h => ?_⟩
  · have he : wake s = count 0x702004 1 (startWake 1200 s) := by simp [wake, hw, hp, hs]
    rw [he]
    exact ⟨rfl, counter_count ..⟩
  · have he : wake s = startWake 2 s := by simp [wake, hw, hp, hs]
    rw [he]
    rfl
  · have he : wake s = s := by
      rcases h with hw | hp | hs
      · simp [wake, Option.isSome_iff_ne_none.2 hw]
      · simp [wake, hp]
      · simp [wake, hs]
    rw [he]

/-- A swap that fits starts, and is a wake cause (R92, R172). -/
theorem startSwap_valid {s : State} {i : Nat} {l : SlotLayout} (hs : s.runsSteps = true)
    (hv : l.swapValid (s.otherFrames i) = true) :
    startSwap i l s = wake (setHead i { s.head i with
      state := 1, next := l, frames := l.framesNeeded, weights := [], bytesDone := 0, failing := false } s) := by
  simp only [startSwap, hs, hv, Bool.and_self, if_true]

theorem head_startSwap_valid {s : State} {i : Nat} {l : SlotLayout} (hi : i < s.heads.length) (hs : s.runsSteps = true)
    (hv : l.swapValid (s.otherFrames i) = true) : (startSwap i l s).head i = { s.head i with
      state := 1, next := l, frames := l.framesNeeded, weights := [], bytesDone := 0, failing := false } := by
  rw [startSwap_valid hs hv, head_of_heads (heads_wake _), head_setHead _ _ hi]

theorem wakes_startSwap {s : State} {i : Nat} {l : SlotLayout} (hs : s.runsSteps = true)
    (hv : l.swapValid (s.otherFrames i) = true) : s.wakes (startSwap i l s) := by
  rw [startSwap_valid hs hv]
  exact wakes_wake (setHead i _ s)

/-- One that does not fit is refused (R172). -/
theorem startSwap_refused {s : State} {i : Nat} {l : SlotLayout} (hv : l.swapValid (s.otherFrames i) = false) :
    startSwap i l s = raiseArgs 0x0508 0 i 0 (reject s) := by
  simp only [startSwap, hv, Bool.and_false, Bool.false_eq_true, if_false]

theorem swapGoEffect_busy {s : State} {i : Nat} (h : 1 ≤ (s.head i).state ∧ (s.head i).state ≤ 3) :
    swapGoEffect i s = reject s := if_pos (by omega)

theorem swapGoEffect_held {s : State} {i : Nat} (h4 : (s.head i).state = 4) (hr : s.stepReads i = true) :
    swapGoEffect i s = setHead i { s.head i with state := 2, next := s.captureLayout i } s := by
  simp [swapGoEffect, h4, hr]

theorem swapGoEffect_free {s : State} {i : Nat} (h : (s.head i).state ≠ 4 ∨ s.stepReads i = false)
    (hn : ¬ (1 ≤ (s.head i).state ∧ (s.head i).state ≤ 3)) :
    swapGoEffect i s = startSwap i (s.captureLayout i) s := by
  unfold swapGoEffect
  dsimp only
  rw [if_neg (by omega), if_neg]
  rintro ⟨h4, hr⟩
  exact h.elim (absurd h4) fun hf => absurd hr (by rw [hf]; decide)

theorem head_swapGoEffect_other {i j : Nat} (hj : j ≠ i) (s : State) : (swapGoEffect i s).head j = s.head j := by
  unfold swapGoEffect
  dsimp only
  split
  · rfl
  · split
    · exact head_setHead_other _ _ hj
    · exact head_startSwap_other hj _ _

/-! ### The march of test 10 behind a swap -/

/-- Test 10 begins where its turn has come and no slot loads. -/
theorem marchBegins_iff {s : State} : s.marchBegins = true ↔ s.marchTime = true ∧ ∀ j, (s.head j).state ≠ 1 := by
  rw [State.marchBegins, Bool.and_eq_true, List.all_eq_true]
  refine and_congr_right fun _ => ⟨fun h j => ?_, fun h x hx => ?_⟩
  · by_cases hj : j < s.heads.length
    · have hhead : s.head j = s.heads[j] := by simp [State.head, hj]
      simpa [hhead] using h _ (List.getElem_mem hj)
    · rw [head_beyond (Nat.le_of_not_lt hj)]
      decide
  · obtain ⟨j, hj, rfl⟩ := List.getElem_of_mem hx
    simpa [State.head, hj] using h j

/-- Empty, with no frame. -/
def HeadSlot.Freed (h : HeadSlot) : Prop := h.state = 0 ∧ h.frames = 0

theorem freed_emptySlots {is : List Nat} {s : State} {j : Nat} (hj : j < s.heads.length)
    (h : j ∈ is ∨ (s.head j).Freed) :
    ((is.foldl (fun s i => emptySlot i s) s).head j).Freed := by
  induction is generalizing s with
  | nil => exact h.resolve_left List.not_mem_nil
  | cons i is ih =>
    have hlen : (emptySlot i s).heads.length = s.heads.length := List.length_set
    refine ih (hlen ▸ hj) ?_
    by_cases hi : j = i
    · subst hi
      exact .inr ⟨head_emptySlot.1, head_emptySlot.2 hj⟩
    · rw [head_emptySlot_other hi]
      exact h.imp_left fun hm => (List.mem_cons.1 hm).resolve_left hi

theorem freed_emptyAllSlots {s : State} (hl : s.heads.length = 4) {j : Nat} (hj : j < 4) :
    ((emptyAllSlots s).head j).Freed := freed_emptySlots (hl ▸ hj) (.inl (List.mem_range.2 hj))

/-- The swap of slot `i` has ended from `s` to `u`: the slot loads no more, the others are as they were. -/
structure SwapEnded (i : Nat) (s u : State) : Prop where
  others : ∀ j, j ≠ i → u.head j = s.head j
  ended : (u.head i).state ≠ 1
  march : u.marchTime = s.marchTime
  length : u.heads.length = s.heads.length

/-- A test 10 that has not come, or waits for another swap, does not march. -/
theorem SwapEnded.waits {i : Nat} {s u : State} (h : SwapEnded i s u)
    (hw : s.marchTime = false ∨ ∃ j, j ≠ i ∧ (s.head j).state = 1) : beginMarch u = u := by
  refine if_neg fun hb => ?_
  obtain ⟨ht, hn⟩ := marchBegins_iff.1 hb
  rcases hw with hf | ⟨j, hj, h1⟩
  · exact absurd (h.march.symm.trans ht) (by rw [hf]; decide)
  · exact hn j (h.others j hj ▸ h1)

/-- A test 10 that has waited for this swap alone marches: every slot is Empty (R535). -/
theorem SwapEnded.marches {i : Nat} {s u : State} (h : SwapEnded i s u) (hl : s.heads.length = 4)
    (ht : s.marchTime = true) (hn : ∀ j, j ≠ i → (s.head j).state ≠ 1) {j : Nat} (hj : j < 4) :
    ((beginMarch u).head j).Freed := by
  have hbegins : u.marchBegins = true := marchBegins_iff.2 ⟨h.march.trans ht, fun k => by
    by_cases hk : k = i
    · exact hk ▸ h.ended
    · exact h.others k hk ▸ hn k hk⟩
  rw [beginMarch, if_pos hbegins]
  exact freed_emptyAllSlots (h.length.trans hl) hj

theorem freed_beginMarch {s : State} {j : Nat} (hl : s.heads.length = 4) (hj : j < 4) (h : (s.head j).Freed) :
    ((beginMarch s).head j).Freed := by
  unfold beginMarch
  split
  · exact freed_emptyAllSlots hl hj
  · exact h

theorem queued_of_events {s t : State} (h : t.events = s.events) {code wide a b : Nat} (hq : s.queued code wide a b) :
    t.queued code wide a b := by
  rw [State.queued, h]
  exact hq

theorem events_beginMarch (s : State) : (beginMarch s).events = s.events :=
  (leaves_beginMarch (List.Subset.refl _) (Leaves.refl _ s)).same .events (by decide)

theorem mem_beginMarch (s : State) : (beginMarch s).mem = s.mem :=
  (leaves_beginMarch (List.Subset.refl _) (Leaves.refl _ s)).same .mem (by decide)

theorem marchTime_of_leaves {W : List Part} {s t : State} (h : Leaves W s t) (ht : Part.tests ∉ W) (hs : Part.slow ∉ W) :
    t.marchTime = s.marchTime := by
  obtain ⟨-, -, -, -, -, hdue⟩ := h.same .tests ht
  have hslow : t.slow = s.slow := h.same .slow hs
  rw [State.marchTime, hdue, hslow, State.marchTime]

/-! ### Swaps given up -/

/-- A Loading or Finished slot as Swap Abort leaves it, before test 10 marches. -/
def abandonSwap (i : Nat) (s : State) : State := raiseArgs 0x050C 0 i 0 (emptySlot i s)

theorem swapAbortEffect_ends {s : State} {i : Nat} (h : (s.head i).state = 1 ∨ (s.head i).state = 3) :
    swapAbortEffect i s = beginMarch (abandonSwap i s) := if_pos h

theorem swapAbortEffect_held {s : State} {i : Nat} (h : (s.head i).state = 2) :
    swapAbortEffect i s = raiseArgs 0x050C 0 i 0 (setHead i { s.head i with state := 4 } s) := by
  simp [swapAbortEffect, h]

theorem swapAbortEffect_refused {s : State} {i : Nat} (h : (s.head i).state = 0 ∨ 4 ≤ (s.head i).state) :
    swapAbortEffect i s = reject s := by
  unfold swapAbortEffect
  dsimp only
  rw [if_neg (by omega), if_neg (by omega)]

theorem freed_abandonSwap {i : Nat} {s : State} (hi : i < s.heads.length) : ((abandonSwap i s).head i).Freed := by
  rw [abandonSwap, head_of_heads (heads_raiseArgs ..)]
  exact ⟨head_emptySlot.1, head_emptySlot.2 hi⟩

theorem abandonSwap_leaves (i : Nat) (s : State) : Leaves [.events, .counters, .heads] s (abandonSwap i s) :=
  leaves_raiseArgs (by decide) (leaves_emptySlot (by decide) (Leaves.refl _ s) i) ..

theorem swapEnded_abandonSwap {i : Nat} {s : State} : SwapEnded i s (abandonSwap i s) where
  others j hj := by rw [abandonSwap, head_of_heads (heads_raiseArgs ..), head_emptySlot_other hj]
  ended := by
    rw [abandonSwap, head_of_heads (heads_raiseArgs ..), head_emptySlot.1]
    decide
  march := marchTime_of_leaves (abandonSwap_leaves i s) (by decide) (by decide)
  length := by
    rw [abandonSwap, heads_raiseArgs]
    exact List.length_set

/-- Where test 10 does not march, Swap Abort is a matter of its slot. -/
theorem head_swapAbortEffect_other {i j : Nat} {s : State} (hj : j ≠ i)
    (h : s.marchTime = false ∨ ((s.head i).state ≠ 1 ∧ (s.head i).state ≠ 3) ∨ ∃ j, j ≠ i ∧ (s.head j).state = 1) :
    (swapAbortEffect i s).head j = s.head j := by
  by_cases hends : (s.head i).state = 1 ∨ (s.head i).state = 3
  · have hwaits := h.imp_right fun h => h.resolve_left fun hn => hends.elim hn.1 hn.2
    rw [swapAbortEffect_ends hends, swapEnded_abandonSwap.waits hwaits, swapEnded_abandonSwap.others j hj]
  · by_cases h2 : (s.head i).state = 2
    · rw [swapAbortEffect_held h2, head_of_heads (heads_raiseArgs ..), head_setHead_other _ _ hj]
    · rw [swapAbortEffect_refused (by omega)]
      rfl

/-! ### Swaps that end -/

/-- The slot once its bytes and its parameter block stand in its frames (R173). -/
def State.filledSlot (s : State) (i : Nat) : HeadSlot :=
  { s.head i with
    state := 3
    weights := window s.mem (s.head i).next.source ((s.head i).next.framesNeeded * 524288)
    bytesDone := (s.head i).next.framesNeeded * 524288
    paramCrc := (crc32 (paramBlock s.mem (s.head i).next)).toNat }

/-- The swap has ended, and the slot is Finished. -/
def fillSlot (i : Nat) (s : State) : State := raiseArgs 0x0509 0 i 0 (setHead i (s.filledSlot i) s)

theorem finishSwap_eq (i : Nat) (s : State) :
    finishSwap i s = if (fillSlot i s).stepRunning then fillSlot i s else loadSlot i (fillSlot i s) := rfl

theorem stepRunning_fillSlot (i : Nat) (s : State) : (fillSlot i s).stepRunning = s.stepRunning := by
  rw [State.stepRunning, fillSlot, raiseArgs_steps]
  rfl

theorem length_fillSlot (i : Nat) (s : State) : (fillSlot i s).heads.length = s.heads.length := by
  rw [fillSlot, heads_raiseArgs]
  exact List.length_set

theorem head_fillSlot {i : Nat} {s : State} (hi : i < s.heads.length) (j : Nat) :
    (fillSlot i s).head j = if j = i then s.filledSlot i else s.head j := by
  rw [fillSlot, head_of_heads (heads_raiseArgs ..)]
  split
  next hj => rw [hj, head_setHead _ _ hi]
  next hj => rw [head_setHead_other _ _ hj]

/-- Finished while a step runs, else Loaded; the other slots are as they were (R174). -/
theorem head_finishSwap {i : Nat} {s : State} (hi : i < s.heads.length) (j : Nat) :
    (finishSwap i s).head j =
      if j = i then (if s.stepRunning then s.filledSlot i else (s.filledSlot i).loaded) else s.head j := by
  rw [finishSwap_eq, stepRunning_fillSlot]
  cases s.stepRunning with
  | true => rw [if_pos rfl, head_fillSlot hi, if_pos rfl]
  | false =>
    rw [if_neg Bool.false_ne_true, head_loadSlot ((length_fillSlot i s).symm ▸ hi), head_fillSlot hi,
      if_neg Bool.false_ne_true]
    split <;> rfl

theorem contents_finishSwap {i : Nat} {s : State} (hi : i < s.heads.length) :
    ((finishSwap i s).head i).weights = window s.mem (s.head i).next.source ((s.head i).next.framesNeeded * 524288) ∧
      ((finishSwap i s).head i).bytesDone = (s.head i).next.framesNeeded * 524288 ∧
      ((finishSwap i s).head i).paramCrc = (crc32 (paramBlock s.mem (s.head i).next)).toNat := by
  rw [head_finishSwap hi, if_pos rfl]
  split
  · exact ⟨rfl, rfl, rfl⟩
  · exact ⟨rfl, rfl, rfl⟩

theorem queued_finishSwap {i : Nat} {s : State} (h : s.events.events.length < 255) :
    (finishSwap i s).queued 0x0509 0 i 0 := by
  have hfilled : (fillSlot i s).queued 0x0509 0 i 0 := queued_raiseArgs (s := setHead i (s.filledSlot i) s) h
  rw [finishSwap_eq]
  split
  · exact hfilled
  · unfold loadSlot
    dsimp only
    split
    · obtain ⟨e, he, hcode⟩ := hfilled
      exact queued_of_queued (s := setHead i _ (fillSlot i s)) ⟨e, he, hcode⟩
    · exact hfilled

theorem finishSwap_leaves (i : Nat) (s : State) : Leaves [.events, .counters, .heads] s (finishSwap i s) :=
  leaves_finishSwap (List.Subset.refl _) (Leaves.refl _ s) i

theorem mem_finishSwap (i : Nat) (s : State) : (finishSwap i s).mem = s.mem := (finishSwap_leaves i s).same .mem (by decide)

theorem swapEnded_finishSwap {i : Nat} {s : State} (hi : i < s.heads.length) : SwapEnded i s (finishSwap i s) where
  others j hj := by rw [head_finishSwap hi, if_neg hj]
  ended := by
    rw [head_finishSwap hi, if_pos rfl]
    split
    · exact (by decide : (3 : Nat) ≠ 1)
    · exact (by decide : (4 : Nat) ≠ 1)
  march := marchTime_of_leaves (finishSwap_leaves i s) (by decide) (by decide)
  length := by
    rw [finishSwap_eq]
    split
    · exact length_fillSlot i s
    · exact (length_of_slotFrames (slotFrames_loadSlot i _)).trans (length_fillSlot i s)

theorem exec_swapDone {s : State} {i : Nat} (host : List Host.Cell) (h1 : (s.head i).state = 1) (hw : s.working = true)
    (hm : s.marching = false) : exec (.swapDone i host) s = .next (beginMarch (finishSwap i (hostWrites host s))) :=
  if_pos ⟨h1, hw, by rw [hm]; exact Bool.false_ne_true⟩

/-! ### The commands -/

/-- Settles O24, command by command: the branches of its effect, then what test 10 and the answer leave. -/
theorem swapCommandsAct : Obligations.SwapCommandsAct := by
  unfold Obligations.SwapCommandsAct
  refine ⟨fun s via i hi hl hs => ?_, fun s via i hi hl hs => ?_, fun s i host h1 hw hm => ?_⟩
  · obtain ⟨m, o, he, ha⟩ := writeObject_slot hi (.inl rfl) hs
    rw [← hl] at hi
    refine ⟨(swapGoEffect i s).withAnswer m o, congrArg Host.Outcome.next he, he ▸ ha,
      fun j hj => head_swapGoEffect_other hj s, fun h => ?_, fun h4 hr => ?_, fun h hn => ?_⟩
    · rw [swapGoEffect_busy h]
      exact ⟨rfl, counter_count ..⟩
    · rw [swapGoEffect_held h4 hr]
      exact head_setHead _ _ hi
    · rw [swapGoEffect_free h hn]
      have hruns := runsSteps_of_takesWrite (hl ▸ hi) (by decide) hs
      refine ⟨hruns, fun hv => ?_, fun hv => ?_⟩
      · have hwakes := wakes_startSwap hruns hv
        rw [withAnswer_head, head_startSwap_valid hi hruns hv]
        exact ⟨rfl, rfl, rfl, rfl, rfl, hwakes⟩
      · rw [startSwap_refused hv]
        exact ⟨heads_raiseArgs .., (counter_raiseArgs_other (by decide)).trans (counter_count ..), fun hroom =>
          queued_raiseArgs (s := reject s) hroom⟩
  · obtain ⟨m, o, he, ha⟩ := writeObject_slot hi (.inr rfl) hs
    refine ⟨(swapAbortEffect i s).withAnswer m o, congrArg Host.Outcome.next he, he ▸ ha,
      fun h j hj => head_swapAbortEffect_other hj h, fun ht hends hn j hj => ?_, fun hends => ?_, fun h2 => ?_,
      fun h => ?_⟩
    · rw [swapAbortEffect_ends hends]
      exact swapEnded_abandonSwap.marches hl ht hn hj
    · rw [swapAbortEffect_ends hends]
      obtain ⟨hstate, hframes⟩ :=
        freed_beginMarch (swapEnded_abandonSwap.length.trans hl) hi (freed_abandonSwap (hl ▸ hi))
      exact ⟨hstate, hframes, fun hroom =>
        queued_of_events (events_beginMarch _) (queued_raiseArgs (s := emptySlot i s) hroom)⟩
    · rw [swapAbortEffect_held h2]
      exact ⟨(head_of_heads (heads_raiseArgs ..) i).trans (head_setHead _ _ (hl ▸ hi)), fun hroom =>
        queued_raiseArgs (s := setHead i _ s) hroom⟩
    · rw [swapAbortEffect_refused h]
      exact ⟨rfl, counter_count ..⟩
  · have hi : i < (hostWrites host s).heads.length := lt_of_head (s := s) (by rw [h1]; decide)
    have hended := swapEnded_finishSwap hi
    have hmem := (mem_beginMarch _).trans (mem_finishSwap i (hostWrites host s))
    refine ⟨_, exec_swapDone host h1 hw hm, hmem, fun hroom => ?_, fun ht hl hn j hj => hended.marches hl ht hn hj,
      fun hwaits => ?_⟩
    · exact queued_of_events (events_beginMarch _) (queued_finishSwap hroom)
    · rw [hmem, hended.waits hwaits]
      obtain ⟨hweights, hbytes, hcrc⟩ := contents_finishSwap hi
      refine ⟨hweights, hbytes, hcrc, fun hrun => ?_, fun hrun => ?_, hended.others⟩
      · have hrunning : (hostWrites host s).stepRunning = true := Option.isSome_iff_ne_none.2 hrun
        rw [head_finishSwap hi, if_pos rfl, if_pos hrunning]
        exact ⟨rfl, rfl⟩
      · have hidle : ¬ (hostWrites host s).stepRunning = true := by
          rw [State.stepRunning, show (hostWrites host s).steps.run = none from hrun]
          decide
        rw [head_finishSwap hi, if_pos rfl, if_neg hidle]
        exact ⟨rfl, rfl⟩

end Sys2Proof.Machine
end

section
/-! PROOF. A write that reaches its command object and is turned away: it is counted and answered, and does nothing else
(R448, R453, table 15.14). -/

namespace Sys2Proof.Machine

/-- A command starts, or is COMMIT_PENDING or BUSY (table 15.5). -/
theorem commandResult_le (s : State) (key : Nat) : s.commandResult key ≤ 5 := by
  unfold State.commandResult
  repeat' split
  all_goals decide

theorem countResult_rejected {r : Nat} (h0 : r ≠ 0) (h7 : r ≠ 7) (s : State) : countResult r s = reject s := by
  rw [countResult, if_neg h0, if_neg h7]

theorem setLast_rejected {r : Nat} (h0 : r ≠ 0) (h7 : r ≠ 7) (s : State) :
    setLast r s = (reject s).withAnswer { s.mirror with lastResult := r } s.out := countResult_rejected h0 h7 _

/-- A command that cannot start is rejected and its result answered; beside Command Rejects only the mirror's registers
and the outputs change. -/
theorem writeObject_turnedAway {s : State} {via : Via} {key : Nat} {o : ObjInfo} {value : Word32}
    (hs : s.takesWrite via key = true) (ho : objInfo key = some o) (ha : o.access = 5) (hb : o.isBlock = false)
    (h8 : o.size ≠ 8) (hk : key < 2 ^ 24) (hl : laneObject key = false) (hv : value.toNat < 2 ^ (8 * o.size))
    (hc : commandInRange key value.toNat = true) (hr : s.commandResult key ≠ 0) :
    ∃ m o', writeObject key via value s = (reject s).withAnswer m o' ∧
      (writeObject key via value s).answered s via key (s.commandResult key) := by
  have hle := commandResult_le s key
  cases via with
  | mesh eid tag =>
    obtain ⟨q, body, hq, htag, hkey, he⟩ := writeObject_mesh (value := value) hs ho hb hk hl
    rw [Nat.mod_eq_of_lt hv, writeValue_turnedAway ha hc hr, countResult_rejected hr (by omega)] at he
    obtain ⟨f5, f6, f8, f10, f11⟩ := response_fields q (s.commandResult key) (codesOf o true) body (htag ▸ tag.isLt)
      (hq ▸ by decide) (hkey ▸ hk) (by omega)
    refine ⟨s.mirror, _, he, _, congrArg (·.out.mesh) he, ?_, f6.trans htag, f8.trans ?_, f10.trans ?_, f11⟩
    · rw [f5, hq]
    · rw [hkey]
    · rw [hkey]
  | mirror =>
    have he := writeObject_mirror hs ho hb h8 hk hl hv
    rw [writeValue_turnedAway (s := dropHalves s) ha hc hr] at he
    have he := he.trans (setLast_rejected hr (by omega) (dropHalves s))
    exact ⟨_, _, he, he ▸ rfl⟩

end Sys2Proof.Machine
end

section
/-! PROOF. Install, Factory Restore and the end of the write of an image (R200, R202 to R205). -/

namespace Sys2Proof.Machine

/-! ### The command objects -/

/-- The two objects that start the write of an image: Install and Factory Restore. -/
def ImageCommand (key : Nat) : Prop := key = 0x600102 ∨ key = 0x600103

theorem ImageCommand.lt {key : Nat} (hk : ImageCommand key) : key < 2 ^ 24 := by
  unfold ImageCommand at hk
  omega

theorem objInfo_imageCommand {key : Nat} (hk : ImageCommand key) : objInfo key = some (command 3) := by
  rcases hk with rfl | rfl
  · rfl
  · rfl

theorem laneObject_imageCommand {key : Nat} (hk : ImageCommand key) : laneObject key = false := by
  rcases hk with rfl | rfl
  · rfl
  · rfl

/-- BUSY while a Store or an install writes (R205). -/
theorem commandResult_imageCommand {key : Nat} (hk : ImageCommand key) (s : State) :
    s.commandResult key = if s.writerBusy then 5 else 0 := by
  rcases hk with rfl | rfl
  · rfl
  · rfl

/-! ### Their effects -/

theorem commandEffect_install (v : Nat) (s : State) : commandEffect 0x600102 v s = installEffect s := rfl

theorem commandEffect_factoryRestore (v : Nat) (s : State) :
    commandEffect 0x600103 v s = startInstall .factory s := rfl

theorem installEffect_valid {s : State} (h : s.fseq.buffer.fails = 0) :
    installEffect s = startInstall s.fseq.buffer s := if_pos h

theorem installEffect_refused {s : State} (h : s.fseq.buffer.fails ≠ 0) :
    installEffect s = raise 0x0602 (reject { s with fseq :=
      { s.fseq with installState := 3, rejectReason := s.fseq.buffer.fails } }) := if_neg h

/-- Neither effect looks at the mirror's registers or the outputs, and both are left. -/
theorem commandEffect_imageCommand_withAnswer {key : Nat} (hk : ImageCommand key) (v : Nat) (m : Mirror) (o : Outputs)
    (s : State) : commandEffect key v (s.withAnswer m o) = (commandEffect key v s).withAnswer m o := by
  rcases hk with rfl | rfl
  · rw [commandEffect_install, commandEffect_install]
    by_cases h : s.fseq.buffer.fails = 0
    · rw [installEffect_valid h, installEffect_valid (s := s.withAnswer m o) h]
      rfl
    · rw [installEffect_refused h, installEffect_refused (s := s.withAnswer m o) h, raise, raise,
        ← raiseArgs_withAnswer]
      rfl
  · rfl

theorem out_commandEffect_imageCommand {key : Nat} (hk : ImageCommand key) (v : Nat) (s : State) :
    (commandEffect key v s).out = s.out :=
  (congrArg State.out (commandEffect_imageCommand_withAnswer hk v s.mirror s.out s) :)

/-! ### The writes -/

section
variable {s : State} {via : Via} {key : Nat} {value : Word32} (hk : ImageCommand key)
  (hs : s.takesWrite via key = true) (hc : commandInRange key value.toNat = true)
include hk hs hc

/-- While a Store or an install writes, the command is answered BUSY and ignored (R205). -/
theorem writeObject_imageCommand_busy (hw : s.writerBusy = true) :
    (writeObject key via value s).answered s via key 5 ∧ (writeObject key via value s).fseq = s.fseq ∧
      (writeObject key via value s).nvm = s.nvm := by
  have hr : s.commandResult key = 5 := by rw [commandResult_imageCommand hk, if_pos hw]
  obtain ⟨m, o, he, ha⟩ := writeObject_turnedAway hs (objInfo_imageCommand hk) rfl rfl (by decide) hk.lt
    (laneObject_imageCommand hk) value.isLt hc (by omega)
  exact ⟨hr ▸ ha, (congrArg State.fseq he :), (congrArg State.nvm he :)⟩

/-- While none is writing, the command has its effect and is answered (R202, R203). -/
theorem writeObject_imageCommand_starts (hw : s.writerBusy = false) :
    ∃ m o, writeObject key via value s = (commandEffect key value.toNat s).withAnswer m o ∧
      (writeObject key via value s).answered s via key 0 := by
  have hr : s.commandResult key = 0 := by rw [commandResult_imageCommand hk, if_neg (hw ▸ Bool.false_ne_true)]
  obtain ⟨m, m', o', he, ha⟩ := writeObject_command hs (objInfo_imageCommand hk) rfl rfl (by decide) hk.lt
    (laneObject_imageCommand hk) value.isLt hc hr (out_commandEffect_imageCommand hk _)
  rw [commandEffect_imageCommand_withAnswer hk] at he
  exact ⟨m', o', he, ha⟩

end

/-! ### The end of a write -/

theorem exec_imageInstalled {s : State} {m : MicroImage} (h : s.fseq.installing = some m) (ok : Bool) :
    exec (.imageInstalled ok) s = .next (finishInstall m ok s) := by
  show execImageInstalled ok s = _
  rw [execImageInstalled, h]

theorem image_finishInstall (m : MicroImage) (ok : Bool) (s : State) :
    (finishInstall m ok s).nvm.image = if ok then m else .zeros :=
  congrArg NonVolatile.image (raiseArgs_nvm ..)

theorem fseq_finishInstall (m : MicroImage) (ok : Bool) (s : State) :
    (finishInstall m ok s).fseq = { s.fseq with installing := none, installState := if ok then 2 else 4 } :=
  raiseArgs_fseq ..

theorem queued_finishInstall {m : MicroImage} {ok : Bool} {s : State} (h : s.events.events.length < 255) :
    (finishInstall m ok s).queued (if ok then 0x0603 else 0x0604) 0 0 0 := by
  unfold finishInstall
  exact queued_raiseArgs h

/-- Settles O25: the two commands by whether a write is under way and by the checks of the buffer, then the end of the
write. -/
theorem installsAreCheckedAndEnd : Obligations.InstallsAreCheckedAndEnd := by
  unfold Obligations.InstallsAreCheckedAndEnd
  refine ⟨fun s via => ⟨fun hs => ?_, fun hs => ?_⟩, fun s m ok h => ?_⟩
  · have hk : ImageCommand 0x600102 := .inl rfl
    have hc : commandInRange 0x600102 (0x494E5354 : Word32).toNat = true := by decide
    refine ⟨_, rfl, writeObject_imageCommand_busy hk hs hc, fun hw hvalid => ?_, fun hw hfails => ?_⟩
    · obtain ⟨m, o, he, ha⟩ := writeObject_imageCommand_starts hk hs hc hw
      rw [commandEffect_install, installEffect_valid hvalid] at he
      exact ⟨ha, (congrArg (·.nvm.image) he :), (congrArg State.fseq he :)⟩
    · obtain ⟨m, o, he, ha⟩ := writeObject_imageCommand_starts hk hs hc hw
      rw [commandEffect_install, installEffect_refused hfails] at he
      have hcounter := (congrArg (State.counter · 0x700001) he).trans (counter_raiseArgs_other (by decide))
      exact ⟨ha, (congrArg State.nvm he).trans (raiseArgs_nvm ..), (congrArg State.fseq he).trans (raiseArgs_fseq ..),
        hcounter.trans (counter_count ..)⟩
  · have hk : ImageCommand 0x600103 := .inr rfl
    have hc : commandInRange 0x600103 (0x46414354 : Word32).toNat = true := by decide
    refine ⟨_, rfl, writeObject_imageCommand_busy hk hs hc, fun hw => ?_⟩
    obtain ⟨m, o, he, ha⟩ := writeObject_imageCommand_starts hk hs hc hw
    rw [commandEffect_factoryRestore] at he
    exact ⟨ha, (congrArg (·.nvm.image) he :), (congrArg State.fseq he :)⟩
  · exact ⟨finishInstall m ok s, exec_imageInstalled h ok, image_finishInstall m ok s, fseq_finishInstall m ok s,
      queued_finishInstall⟩

end Sys2Proof.Machine
end
